-- ==== Sys2Proof/Word.lean ====
section
/-! DEFINITION. The word types of the device and their plainest arithmetic (00_scope.md R5, R9, R10). -/

namespace Sys2Proof

/-- A register lane: 32 bits (R118). -/
abbrev Word := BitVec 32

/-- A register pair, an address, a definition: 64 bits (R120). -/
abbrev DWord := BitVec 64

/-- One byte of memory (R5). -/
abbrev Byte := BitVec 8

/-- The number of a vector register, v0 to v255 (R118). -/
abbrev Reg := BitVec 8

/-- trunc32 of R9. -/
def trunc32 (x : Int) : Word := BitVec.ofInt 32 x

/-- trunc64 of R9. -/
def trunc64 (x : Int) : DWord := BitVec.ofInt 64 x

/-- sx of R138: the signed value of a 32-bit word. -/
def sx (v : Word) : Int := v.toInt

/-- ⌈x / y⌉ for y > 0. -/
def ceilDiv (x y : Nat) : Nat := (x + y - 1) / y

/-- Bits [hi:lo] of a number, by R4. -/
def bitsOf (x : Nat) (hi lo : Nat) : Nat := (x >>> lo) % 2 ^ (hi + 1 - lo)

/-- Bit i of a number as a Bool. -/
def bitAt (x : Nat) (i : Nat) : Bool := x.testBit i

/-- 1 for true, 0 for false. -/
def ofBool32 (b : Bool) : Word := if b then 1 else 0

end Sys2Proof
end

