-- ==== Sys2Proof/Machine/Flags.lean ====
section
/-! DEFINITION. Format definitions, exact values, Decode, Round and the flags they set, and the k-group rule
(03_number_formats.md R69 to R91). -/

namespace Sys2Proof.Machine

/-! ## Format definitions (R69, R70) -/

/-- The fields of a definition (R69). -/
structure Fmt where
  s : Bool
  e : Nat
  m : Nat
  bias : Int
  sub : Nat
  inf : Nat
  nan : Nat
  rnd : Nat
  ovf : Bool
  kind : Nat
  sblk : Nat
  sslot : Nat
deriving DecidableEq, Repr

/-- The definition of binary32, f0 (R66). -/
def binary32 : DWord := 0x00000000A003FAF1#64

/-- The fields of a definition word (R69). -/
def Fmt.ofDef (d : DWord) : Fmt :=
  { s := d.getLsbD 0, e := (d.extractLsb' 1 4).toNat, m := (d.extractLsb' 5 5).toNat,
    bias := (d.extractLsb' 11 16).toInt, sub := (d.extractLsb' 27 2).toNat, inf := (d.extractLsb' 29 2).toNat,
    nan := (d.extractLsb' 31 3).toNat, rnd := (d.extractLsb' 34 3).toNat, ovf := d.getLsbD 37,
    kind := (d.extractLsb' 38 2).toNat, sblk := (d.extractLsb' 40 6).toNat, sslot := (d.extractLsb' 46 4).toNat }

/-- A definition with its reserved bits zero (R69, R184). -/
def cleanDef (d : DWord) : DWord := d &&& 0x0003FFFFFFFFFBFF#64

/-- S as a number. -/
def Fmt.sBits (f : Fmt) : Nat := if f.s then 1 else 0
/-- The width w (R69). -/
def Fmt.width (f : Fmt) : Nat := if f.kind = 2 then 8 else f.sBits + f.e + f.m
/-- P, the elements of a lane (R79). -/
def Fmt.perLane (f : Fmt) : Nat := 32 / f.width
def Fmt.isFloat (f : Fmt) : Bool := f.kind == 0
def Fmt.isInt (f : Fmt) : Bool := f.kind == 1
def Fmt.isDyadic (f : Fmt) : Bool := f.kind == 2

/-- The cases of R70 in which a definition for slot `n` is rejected. -/
def Fmt.rejected (f : Fmt) (n : Nat) : Bool :=
  let w := f.sBits + f.e + f.m
  f.kind == 3 || f.rnd ≥ 5 || f.inf == 3 || f.nan ≥ 4 || f.sblk ≥ 11
  || (f.kind == 0 && (f.e == 0 || f.e > 8 || w > 32 || (f.nan == 1 && f.m == 0) || (f.nan == 3 && !f.s)
      || (f.inf == 2 && (f.nan == 1 || f.nan == 2)) || (f.inf == 1 && f.nan == 2 && f.m == 0)))
  || (f.kind == 1 && (f.e != 0 || w == 0 || w > 32 || f.inf != 0 || f.nan != 0 || f.sub != 0))
  || (f.kind == 2 && (f.s || f.e != 0 || f.m != 0 || f.bias != 0 || f.sub != 0 || f.inf != 0 || f.nan != 0))
  || (f.sblk != 0 && f.sslot == n)

/-! ## Exact values -/

/-- A decoded value: NaN (signalling or quiet), an infinity, or (−1)^neg · mant · 2^exp (R10, R71). -/
inductive Num where
  | nan (signalling : Bool)
  | inf (neg : Bool)
  | fin (neg : Bool) (mant : Nat) (exp : Int)
deriving DecidableEq, Repr

/-- The flags of s.fpx (R77). -/
def NV : BitVec 6 := 1
def DZ : BitVec 6 := 2
def OF : BitVec 6 := 4
def UF : BitVec 6 := 8
def NX : BitVec 6 := 16
def ND : BitVec 6 := 32

def Num.zero (neg : Bool) : Num := .fin neg 0 0
def Num.isZero : Num → Bool
  | .fin _ m _ => m == 0
  | _ => false
def Num.isNan : Num → Bool
  | .nan _ => true
  | _ => false
def Num.isInf : Num → Bool
  | .inf _ => true
  | _ => false
def Num.isNeg : Num → Bool
  | .fin n _ _ => n
  | .inf n => n
  | .nan _ => false
/-- The exact integer z. -/
def Num.ofInt (z : Int) : Num := .fin (z < 0) z.natAbs 0
/-- NV for a signalling NaN read (R71, R77). -/
def Num.readFlags : Num → BitVec 6
  | .nan true => NV
  | _ => 0
def Num.neg : Num → Num
  | .nan q => .nan q
  | .inf n => .inf (!n)
  | .fin n m e => .fin (!n) m e
def Num.abs : Num → Num
  | .nan q => .nan q
  | .inf _ => .inf false
  | .fin _ m e => .fin false m e
/-- ⌊log2 |x|⌋ of mant · 2^exp, mant nonzero. -/
def ilog2 (mant : Nat) (exp : Int) : Int := (mant.log2 : Int) + exp

/-- Decode(slot, bits) for the dyadic-pair kind (R72): in units of 2^−6. -/
def dyadicUnits (bits : Nat) : Int :=
  let term (x : Nat) : Int :=
    let k := x % 8
    let v : Int := if k = 7 then 0 else (2 ^ (6 - k) : Nat)
    if x / 8 % 2 = 1 then -v else v
  term (bits / 16) + term bits

/-- Decode(slot, bits) (R71, R72). -/
def Fmt.decode (f : Fmt) (bits : Nat) : Num :=
  if f.kind = 2 then
    let u := dyadicUnits (bits % 256)
    .fin (u < 0) u.natAbs (-6)
  else if f.kind = 1 then
    let w := f.width
    let n := bits % 2 ^ w
    let z : Int := if f.s && n.testBit (w - 1) then (n : Int) - (2 ^ w : Nat) else n
    .fin (z < 0) z.natAbs (-f.bias)
  else
    let w := f.width
    let all := bits % 2 ^ w
    let neg := f.s && all.testBit (w - 1)
    let mag := all % 2 ^ (f.e + f.m)
    let e := mag / 2 ^ f.m
    let m := mag % 2 ^ f.m
    let top := 2 ^ f.e - 1
    if f.nan = 2 ∧ all = 2 ^ w - 1 then .nan false
    else if f.nan = 3 ∧ neg ∧ mag = 0 then .nan false
    else if f.nan = 1 ∧ e = top ∧ m ≠ 0 then .nan (!m.testBit (f.m - 1))
    else if f.inf = 1 ∧ e = top ∧ m = 0 then .inf neg
    else if f.inf = 2 ∧ mag = 2 ^ (f.e + f.m) - 1 then .inf neg
    else if e = 0 then
      if f.sub = 1 ∨ f.sub = 3 then .fin neg 0 0
      else .fin neg m (1 - f.bias - f.m)
    else .fin neg (m + 2 ^ f.m) (e - f.bias - f.m)

/-! ## Rounding (R73 to R76) -/

/-- What Round gives: the code, the flags set, and the code of the conversion record it appends, if any. -/
structure Rounded where
  bits : Nat
  flags : BitVec 6
  record : Option Nat := none
deriving DecidableEq, Repr

/-- The slot's zero of a sign (R74, R75). -/
def Fmt.zeroCode (f : Fmt) (neg : Bool) : Nat :=
  if f.kind = 2 then 0x08
  else if f.kind = 0 ∧ f.s ∧ f.nan ≠ 3 ∧ neg then 2 ^ (f.e + f.m) else 0

/-- The sign bit in its place. -/
def Fmt.signBits (f : Fmt) (neg : Bool) : Nat := if f.s && neg then 2 ^ (f.e + f.m) else 0

/-- The slot encodes ∞ of this sign (R75). -/
def Fmt.hasInf (f : Fmt) (neg : Bool) : Bool := f.kind == 0 && f.inf != 0 && (f.s || !neg)

/-- Inf(slot, σ) (R75). -/
def Fmt.infCode (f : Fmt) (neg : Bool) : Nat :=
  f.signBits neg + (if f.inf = 1 then (2 ^ f.e - 1) * 2 ^ f.m else 2 ^ (f.e + f.m) - 1)

/-- The canonical NaN (R73), where the slot has one. -/
def Fmt.nanCode (f : Fmt) : Option Nat :=
  if f.kind = 0 then
    if f.nan = 1 then some ((2 ^ f.e - 1) * 2 ^ f.m + 2 ^ (f.m - 1))
    else if f.nan = 2 then some (2 ^ f.width - 1)
    else if f.nan = 3 then some (2 ^ (f.e + f.m))
    else none
  else none

/-- NanOut(slot): the canonical NaN, or zero with ND and a record of code 0x01 (R75). -/
def Fmt.nanOut (f : Fmt) : Rounded :=
  match f.nanCode with
  | some c => { bits := c, flags := 0 }
  | none => { bits := f.zeroCode false, flags := ND, record := some 1 }

/-- Whether the magnitude code of a sign is finite (R71). -/
def Fmt.finiteMag (f : Fmt) (neg : Bool) (mag : Nat) : Bool :=
  match f.decode (f.signBits neg + mag) with
  | .fin _ _ _ => true
  | _ => false

/-- The largest magnitude code at or below `mag` that is finite; at most four codes above it are not (R71). -/
def Fmt.finiteBelow (f : Fmt) (neg : Bool) : Nat → Nat → Nat
  | 0, mag => mag
  | k + 1, mag => if f.finiteMag neg mag then mag else f.finiteBelow neg k (mag - 1)

/-- The magnitude code of MaxFinite(slot, σ) of a float slot (R75). -/
def Fmt.maxMag (f : Fmt) (neg : Bool) : Nat :=
  let top := 2 ^ f.e - 1
  let start :=
    if f.nan = 1 then (if f.inf = 1 then top * 2 ^ f.m - 1 else top * 2 ^ f.m) else 2 ^ (f.e + f.m) - 1
  f.finiteBelow neg 4 start

/-- MaxFinite(slot, σ) as mantissa and exponent (R75). -/
def Fmt.maxFinite (f : Fmt) (neg : Bool) : Nat × Int :=
  if f.kind = 1 then
    ((if f.s then (if neg then 2 ^ (f.width - 1) else 2 ^ (f.width - 1) - 1) else 2 ^ f.width - 1), -f.bias)
  else
    match f.decode (f.signBits neg + f.maxMag neg) with
    | .fin _ m e => (m, e)
    | _ => (0, 0)

/-- The code of ±n · 2^qe in an integer/fixed slot. -/
def Fmt.intCode (f : Fmt) (neg : Bool) (n : Nat) : Nat :=
  if neg then (2 ^ f.width - n) % 2 ^ f.width else n

/-- The code of ±n · 2^qe in a float slot, n at most 2^(M+1) and not zero (R75, Code). DESIGN CHOICE (log entry 38): with
inf 0b01 and nan other than 0b001 the value 2^(2^E − 1 − bias) lies below MaxFinite, but its code is infinity's, so that R75's
Code has none to give; the model writes that code, without OF. -/
def Fmt.floatCode (f : Fmt) (neg : Bool) (n : Nat) (qe : Int) : Nat :=
  if n < 2 ^ f.m then f.signBits neg + n
  else
    let n' := if n = 2 ^ (f.m + 1) then 2 ^ f.m else n
    let qe' := if n = 2 ^ (f.m + 1) then qe + 1 else qe
    f.signBits neg + ((qe' + f.m + f.bias).toNat * 2 ^ f.m + (n' - 2 ^ f.m))

/-- Code(σ · MaxFinite(slot, σ)) (R75). DESIGN CHOICE (log entry 38), where R75 settles no code: a slot without a finite code of
that sign has (0, 0) for MaxFinite, and the code written is its sign bit alone, which is the slot's NaN; where MaxFinite decodes to
0 because sub 01 reads subnormal codes as 0, the code written is the highest of those codes. -/
def Fmt.maxCode (f : Fmt) (neg : Bool) : Nat :=
  if f.kind = 1 then f.intCode neg (f.maxFinite neg).1 else f.signBits neg + f.maxMag neg

/-- mant · 2^exp > n · 2^qe, with near exponents. -/
def gtScaled (m1 : Nat) (e1 : Int) (m2 : Nat) (e2 : Int) : Bool :=
  if m1 = 0 then false
  else if m2 = 0 then true
  else if ilog2 m1 e1 > ilog2 m2 e2 then true
  else if ilog2 m1 e1 < ilog2 m2 e2 then false
  else m1 * 2 ^ (e1 - e2).toNat > m2 * 2 ^ (e2 - e1).toNat

/-- ⌊mant · 2^exp / 2^qe⌋, the remainder against half a quantum (less, equal, greater: 0, 1, 2) and whether the
remainder is nonzero. -/
def quantize (mant : Nat) (exp qe : Int) : Nat × Nat × Bool :=
  if exp ≥ qe then (mant * 2 ^ (exp - qe).toNat, 0, false)
  else
    let k := (qe - exp).toNat
    if k > mant.log2 + 1 then (0, 0, mant != 0)
    else
      let n := mant >>> k
      let r := mant - n <<< k
      let half := 2 ^ (k - 1)
      (n, (if r < half then 0 else if r = half then 1 else 2), r != 0)

/-- Whether a rounding mode rounds up in magnitude (R75): `half` compares the remainder with half a quantum. -/
def roundsUp (rnd : Nat) (neg : Bool) (half : Nat) (inex sticky odd : Bool) : Bool :=
  let above := half == 2 || (half == 1 && sticky)
  let tie := half == 1 && !sticky
  match rnd with
  | 0 => above || (tie && odd)
  | 1 => false
  | 2 => inex && neg
  | 3 => inex && !neg
  | _ => above || tie

/-- Overflow in R75: infinity where the slot gives it, else the largest finite value. -/
def Fmt.overflow (f : Fmt) (neg : Bool) : Rounded :=
  let away := f.rnd = 0 ∨ f.rnd = 4 ∨ (f.rnd = 3 ∧ !neg) ∨ (f.rnd = 2 ∧ neg)
  if !f.ovf ∧ f.hasInf neg ∧ away then { bits := f.infCode neg, flags := OF ||| NX }
  else { bits := f.maxCode neg, flags := OF ||| NX }

/-- The values of the 256 dyadic-pair codes, in units of 2^−6, magnitudes only: the candidates of R76. -/
def dyadicMags : List Nat := (List.range 256).map fun c => (dyadicUnits c).natAbs

/-- The lowest code whose value is `u` units (R76). -/
def dyadicCode (u : Int) : Nat := ((List.range 256).find? fun c => dyadicUnits c == u).getD 0x08

/-- RoundDyadic(slot, x, sticky) for a finite x (R76). -/
def roundDyadic (rnd : Nat) (neg : Bool) (mant : Nat) (exp : Int) (sticky : Bool) : Rounded :=
  let sgn (u : Nat) : Int := if neg then -(u : Int) else u
  let away := (rnd = 3 ∧ !neg) ∨ (rnd = 2 ∧ neg)
  let isTwo := mant ≠ 0 ∧ !gtScaled mant exp 2 0 ∧ !gtScaled 2 0 mant exp
  if gtScaled mant exp 2 0 ∨ (isTwo ∧ sticky ∧ away) then
    { bits := dyadicCode (sgn 128), flags := OF ||| NX }
  else if isTwo ∧ sticky then { bits := dyadicCode (sgn 128), flags := NX }
  else
    -- the magnitude in units, as n + r/den with a further ε when st
    let tiny := mant ≠ 0 ∧ ilog2 mant exp < -40
    let m := if tiny then 0 else mant
    let st := sticky || tiny
    let k := (-(exp + 6)).toNat
    let num := if exp + 6 ≥ 0 then m * 2 ^ (exp + 6).toNat else m
    let den := if tiny || exp + 6 ≥ 0 then 1 else 2 ^ k
    let lo := dyadicMags.foldl (fun acc v => if v * den ≤ num ∧ v > acc then v else acc) 0
    let exact := lo * den = num ∧ !st
    let hi := dyadicMags.foldl
      (fun acc v => if (v * den > num ∨ (v * den = num ∧ !st)) ∧ v < acc then v else acc) 128
    let up : Bool :=
      match rnd with
      | 1 => false
      | 2 => neg
      | 3 => !neg
      | r =>
        let below := num - lo * den
        let above := hi * den - num
        if st then below ≥ above
        else if below = above then r == 4
        else below > above
    let v := if exact then lo else if up then hi else lo
    { bits := dyadicCode (sgn v), flags := if exact then 0 else NX }

/-- Round(slot, x, sticky) (R75, R76). -/
def Fmt.round (f : Fmt) (x : Num) (sticky : Bool) : Rounded :=
  match x with
  | .nan _ => f.nanOut
  | .inf neg =>
    if f.kind = 2 then { bits := dyadicCode (if neg then -128 else 128), flags := OF ||| NX }
    else if !f.s ∧ neg then { bits := 0, flags := NV, record := some 2 }
    else if f.hasInf neg then { bits := f.infCode neg, flags := 0 }
    else { bits := f.maxCode neg, flags := OF }
  | .fin neg mant exp =>
    if f.kind = 2 then roundDyadic f.rnd neg mant exp sticky
    else if !f.s ∧ neg ∧ mant ≠ 0 then { bits := 0, flags := NV, record := some 2 }
    else if mant = 0 then { bits := f.zeroCode neg, flags := 0 }
    else
      let l := ilog2 mant exp
      let below := f.kind = 0 ∧ l < 1 - f.bias
      if below ∧ (f.sub = 2 ∨ f.sub = 3) then { bits := f.zeroCode neg, flags := UF ||| NX }
      else
        let qe : Int := if f.kind = 0 then max l (1 - f.bias) - f.m else -f.bias
        let mx := f.maxFinite neg
        -- far above an integer's range: no quotient need be formed
        if f.kind = 1 ∧ l > ilog2 (mx.1 + 1) mx.2 + 1 then f.overflow neg
        else
          let (n, half, rest) := quantize mant exp qe
          let inex := rest || sticky
          let n' := if roundsUp f.rnd neg half inex sticky (n % 2 == 1) then n + 1 else n
          let nx : BitVec 6 := if inex then NX else 0
          let uf : BitVec 6 := if below ∧ inex then UF else 0
          if gtScaled n' qe mx.1 mx.2 then
            { f.overflow neg with flags := (f.overflow neg).flags ||| uf }
          else if n' = 0 then { bits := f.zeroCode neg, flags := nx ||| uf }
          else
            { bits := if f.kind = 1 then f.intCode neg n' else f.floatCode neg n' qe, flags := nx ||| uf }

/-! ## Exact operations (R73, R74) -/

/-- The exact value of a sum of finite terms, at the least exponent. -/
def finSum (terms : List (Bool × Nat × Int)) : Int × Int :=
  let e := terms.foldl (fun acc t => if t.2.1 = 0 then acc else min acc t.2.2) (2 ^ 40)
  let z := terms.foldl (fun (acc : Int) t =>
    if t.2.1 = 0 then acc
    else
      let v : Int := (t.2.1 * 2 ^ (t.2.2 - e).toNat : Nat)
      if t.1 then acc - v else acc + v) 0
  (z, e)

/-- The sign of a zero sum (R74): all terms zero, or nonzero terms that cancel. -/
def zeroSign (rdn : Bool) (terms : List Num) : Bool :=
  if terms.all Num.isZero then
    if terms.all Num.isNeg then true
    else if terms.any Num.isNeg then rdn
    else false
  else rdn

/-- The finite terms of a list. -/
def finTerms (terms : List Num) : List (Bool × Nat × Int) :=
  terms.filterMap fun t => match t with | .fin n m e => some (n, m, e) | _ => none

/-- The terms hold infinities of both signs (R73, R90). -/
def bothInf (terms : List Num) : Bool :=
  terms.any (fun t => t.isInf && t.isNeg) && terms.any fun t => t.isInf && !t.isNeg

/-- The sum of terms (R73, R74): NaN with NV for infinities of both signs, whatever else is among them. `rdn`: the slot
rounds down. -/
def sumNums (rdn : Bool) (terms : List Num) : Num × BitVec 6 :=
  if bothInf terms then (.nan false, NV)
  else if terms.any Num.isNan then (.nan false, 0)
  else if terms.any Num.isInf then (.inf (terms.any fun t => t.isInf && t.isNeg), 0)
  else
    let (z, e) := finSum (finTerms terms)
    if z = 0 then (.zero (zeroSign rdn terms), 0) else (.fin (z < 0) z.natAbs e, 0)

/-- The product of two values (R73, R74). -/
def mulNum (x y : Num) : Num × BitVec 6 :=
  match x, y with
  | .nan _, _ => (.nan false, 0)
  | _, .nan _ => (.nan false, 0)
  | .inf a, .inf b => (.inf (a != b), 0)
  | .inf a, .fin b m _ => if m = 0 then (.nan false, NV) else (.inf (a != b), 0)
  | .fin a m _, .inf b => if m = 0 then (.nan false, NV) else (.inf (a != b), 0)
  | .fin a m1 e1, .fin b m2 e2 => (.fin (a != b) (m1 * m2) (e1 + e2), 0)

/-- x < y for values that are not NaN; −0 = +0. -/
def ltNum (x y : Num) : Bool :=
  match x, y with
  | .nan _, _ => false
  | _, .nan _ => false
  | .inf a, .inf b => a && !b
  | .inf a, .fin _ _ _ => a
  | .fin _ _ _, .inf b => !b
  | .fin a m1 e1, .fin b m2 e2 =>
    let nx := a && m1 != 0
    let ny := b && m2 != 0
    if nx && !ny then true
    else if !nx && ny then false
    else if nx then gtScaled m1 e1 m2 e2
    else gtScaled m2 e2 m1 e1

/-- x = y for values that are not NaN; −0 = +0. -/
def eqNum (x y : Num) : Bool := !x.isNan && !y.isNan && !ltNum x y && !ltNum y x

/-- x before y where −0 is ordered below +0 (R174). -/
def beforeNum (x y : Num) : Bool := ltNum x y || (eqNum x y && x.isNeg && !y.isNeg)

/-- fmin and fmax of decoded operands (R174); under the legacy bit any NaN operand gives NaN (R108). -/
def minMaxNum (max legacy : Bool) (x y : Num) : Num :=
  if x.isNan && y.isNan then .nan false
  else if legacy && (x.isNan || y.isNan) then .nan false
  else if x.isNan then y
  else if y.isNan then x
  else if max then (if beforeNum x y then y else x)
  else (if beforeNum y x then y else x)

/-- The slot rounds down (R74). -/
def Fmt.rdn (f : Fmt) : Bool := f.rnd == 2

/-! ## The k-group rule (R89 to R91) -/

/-- One k-group: c := GroupRound(fc, c, products). `nv` tells that some product was 0 · ∞, or that a signalling NaN was
read among the operands (R90). -/
def groupRound (fc : Fmt) (c : Num) (products : List Num) (nv : Bool) : Rounded :=
  let all := c :: products
  if nv || all.any Num.isNan || bothInf all then
    let sig := c.readFlags != 0
    let r := fc.nanOut
    if nv || bothInf all || sig then { r with flags := r.flags ||| NV } else r
  else if all.any Num.isInf then fc.round (.inf (all.any fun t => t.isInf && t.isNeg)) false
  else if fc.kind = 1 then
    let (v, _) := sumNums fc.rdn all
    fc.round v false
  else
    let a := all.filter fun t => !t.isZero
    if a.isEmpty then fc.round (.zero (zeroSign fc.rdn all)) false
    else
      let logs := (finTerms a).map fun t => ilog2 t.2.1 t.2.2
      let emax := logs.tail.foldl max (logs.headD 0)
      let u := emax - fc.m - 8
      let cut := (finTerms a).map fun t =>
        let (n, _, rest) := quantize t.2.1 t.2.2 u
        (t.1, n, rest)
      let sum : Int := cut.foldl (fun acc t => if t.1 then acc - t.2.1 else acc + t.2.1) 0
      let sticky := cut.any fun t => t.2.2
      let nx : BitVec 6 := if sticky then NX else 0
      let r := if sum = 0 then fc.round (.zero fc.rdn) false else fc.round (.fin (sum < 0) sum.natAbs u) sticky
      { r with flags := r.flags ||| nx }

/-! ## Packing (R79, R80) -/

/-- Element j of width w of a lane (R5, R10). -/
def elem (x : Word) (j w : Nat) : Nat := (x.toNat >>> (j * w)) % 2 ^ w

/-- The value of element j of a lane in a slot. -/
def Fmt.elemNum (f : Fmt) (x : Word) (j : Nat) : Num := f.decode (elem x j f.width)

/-- A lane of packed elements (R79). -/
def packLane (w : Nat) (es : List Nat) : Word :=
  BitVec.ofNat 32 (es.foldr (fun e acc => e % 2 ^ w + acc * 2 ^ w) 0)

end Sys2Proof.Machine
end

