-- ==== Sys2Proof/Config.lean ====
section
/-! DEFINITION. What an implementation fixes and the free values: constants without a body where the manual names a
value and does not give it (log entries 10, 15, 16), and the package's sizes (01_package.md). -/

namespace Sys2Proof.Config

/-- Looms of a package (R13). -/
def looms : Nat := 192
/-- Weft slots of a loom (R44, R46). -/
def weftSlots : Nat := 1024
/-- Register blocks of a loom (R46). -/
def registerBlocks : Nat := 4096
/-- Bytes of a loom's memory, 768 KiB (R187). -/
def loomMemoryBytes : Nat := 786432
/-- Entries of a loom's heddle table (R341). -/
def heddleEntries : Nat := 256
/-- Stage-ring stages of a loom (R46). -/
def ringStages : Nat := 2048
/-- Entries of an engine's command queue (R329). -/
def commandQueueEntries : Nat := 32
/-- Entries of a loom's range scoreboard (R196). -/
def rangeEntries : Nat := 128
/-- Entries of a stall board (R372). -/
def boardEntries : Nat := 512
/-- Entries of a loom's arm table (R396). -/
def loomArmEntries : Nat := 64
/-- Entries of a bank's arm table (R396). -/
def bankArmEntries : Nat := 8
/-- Entries of the ownership table and tiles of the accumulator store (R202, R352). -/
def accTiles : Nat := 32
/-- Slots of operand memory (R200). -/
def tileSlots : Nat := 64
/-- Census slots of a package (R403). -/
def censusSlots : Nat := 256
/-- Bytes of a trap frame (R417). -/
def frameBytes : Nat := 5120
/-- Entries held by the frontier hardware (R40). -/
def heldEntries : Nat := 16
/-- The age at which an entry is starving (R42). -/
def starvingAge : Nat := 65536
/-- The age at which the age field saturates (R132). -/
def maxAge : Nat := 131071
/-- Bytes of HBM (R188). -/
def hbmBytes : Nat := 2 ^ 39
/-- Bytes of market memory (R188). -/
def marketBytes : Nat := 2 ^ 28
/-- Bytes of host physical space (R188). -/
def hostBytes : Nat := 2 ^ 52
/-- Fabric ports of a package (R28). -/
def ports : Nat := 96
/-- Credits of one pool, and of the shared pool, of a port (R450). -/
def poolCredits : Nat := 352
def sharedCredits : Nat := 5632
/-- Lines of an L2 slice of 1.5 MiB (R13, R187). -/
def l2SliceLines : Nat := 12288
/-- Lines of a loom's L1 data cache of 256 KiB (R187). -/
def l1Lines : Nat := 2048
/-- Cycles of a period of budgets and power (R410). -/
def period : Nat := 8192

/-- FREE VALUE (DESIGN CHOICE, log entry 10). The n-th value that the device chooses as a queue link stamp; R325 says
only that it is not zero. -/
opaque stamp : Nat → DWord

/-- FREE VALUE (UNVERIFIED, log entry 15). The magnitude code that stands for a transcendental result whose rounding
the precision ladder of Machine/Trans.lean has not settled; the arguments are the function's number, the slot's
definition and the operand's code. -/
opaque unsettled : Nat → DWord → Word → Word

/-- FREE VALUE (log entry 24). The flits in which a die-to-die gateway carries a transfer of n bytes: R405 counts them and
the manual gives no size of one. -/
opaque gatewayFlits : Nat → Nat

/-- FREE VALUE (log entry 16). SHAKE256 of R457 to R460: input bytes and bytes of output; the manual names the function
and does not give it. -/
opaque shake256 : List Byte → Nat → List Byte

/-- FREE VALUE (log entry 16). Falcon-1024 verification (R458): public key, message, signature. -/
opaque falconVerify : List Byte → List Byte → List Byte → Bool

/-- FREE VALUE (log entry 16). The Falcon-1024 signature made with the device attestation key (R460). -/
opaque falconSign : List Byte → List Byte

/-- FREE VALUE (log entry 16). The unrevoked key slots: 256-bit digests (R458). -/
opaque keySlots : List (List Byte)

/-- FREE VALUE (log entry 16). The fused minimum security version (R458). -/
opaque minSvn : Nat

/-- FREE VALUE (log entry 16). The digest of the boot ROM (R459). -/
opaque bootRomDigest : BitVec 512

/-- FREE VALUE (log entry 16). The device serial number, 16 bytes (R460). -/
opaque serial : BitVec 128

/-- FREE VALUE (log entry 16). The attestation key's certificate (R460). -/
opaque certificate : List Byte

/-- FREE VALUE (log entry 16). The fused base of the host window of R453. -/
opaque hostWindowBase : Nat

end Sys2Proof.Config
end

