-- ==== Sys2Proof/Syntax.lean ====
section
/-! DEFINITION. The abstract syntax: one constructor of `Instr` for each row of the opcode table. The first part of
the table is the Criund 2 instruction set (04_encoding_and_assembly.md R104); the rest are the device's own steps and
the inputs it takes (95_what_each_step_holds.md), whose arguments name the agent and carry the input's data. -/

namespace Sys2Proof

/-- The guard fields of every instruction word: register g (255: no guard) and the inversion bit gn (R93, R94). -/
structure Guard where
  g : Reg
  gn : Bool
deriving DecidableEq, Repr

/-- iadd, isub: wrap, or clamp to the signed or the unsigned range (R140). -/
inductive Sat where
  | wrap | sats | satu
deriving DecidableEq, Repr

/-- Conditions of icmp (R144). -/
inductive Cond where
  | eq | ne | lt | le | gt | ge
deriving DecidableEq, Repr

/-- Conditions of fcmp (R177). -/
inductive FCond where
  | eq | ne | lt | le | gt | ge | un | or
deriving DecidableEq, Repr

/-- Modes of shfl (R149). -/
inductive ShflMode where
  | idx | up | down | xor
deriving DecidableEq, Repr

/-- Modes of vote (R151). -/
inductive VoteMode where
  | any | all | eq
deriving DecidableEq, Repr

/-- The rounding-mode field of fround and ftoi; `own` is the slot's mode (R172). -/
inductive Rm where
  | own | rne | rtz | rdn | rup | rna
deriving DecidableEq, Repr

/-- Access widths of the M format (R97). -/
inductive Width where
  | b8 | b16 | b32 | b64
deriving DecidableEq, Repr

/-- Orderings of the M format (R97). -/
inductive Order where
  | plain | acq | rel | acqrel
deriving DecidableEq, Repr

/-- Scopes (R233). -/
inductive Scope where
  | weft | team | loom | die | package | group | system
deriving DecidableEq, Repr

/-- The system registers of R129. -/
inductive SysReg where
  | lane | weft | team | loom | die | node | clock | active | role | allot | prio | ctx | fpx
deriving DecidableEq, Repr

/-- The classes of engine operations and of their counters (R393). -/
inductive OcClass where
  | copy | mat | gath | bank | fab
deriving DecidableEq, Repr

/-- copy, gather, scatter: neither side a tile, the source, or the destination (R266). -/
inductive TileSide where
  | none | ts | td
deriving DecidableEq, Repr

/-- Operations of xatom (R279); all but `fadd` are those of R257. -/
inductive AtomOp where
  | add | min | max | and | or | xor | xchg | cas | inc | dec | fadd
deriving DecidableEq, Repr

/-- Operations of xred (R280). -/
inductive XredOp where
  | sum | max | min
deriving DecidableEq, Repr

/-- Operations of bankop (R273). -/
inductive BankOp where
  | add | scale | cvt | max | min | zero | transp
deriving DecidableEq, Repr

/-- Modes of hvote (R343). -/
inductive HvoteMode where
  | any | all | cnt
deriving DecidableEq, Repr

/-- Operations of hred (R343). -/
inductive HredOp where
  | sum | min | max | iadd | and | or | xor
deriving DecidableEq, Repr

/-- Modes of tlbinv (R362). -/
inductive TlbMode where
  | page | range | ctx
deriving DecidableEq, Repr

/-- Who holds a translation: a loom's core TLB, its copy engine's, or a die's gateway cache (R361). -/
inductive TlbAgent where
  | core (loom : Nat) | copy (loom : Nat) | gateway (die : Nat)
deriving DecidableEq, Repr

/-- A stored word that a soft error strikes (R190): a register word, a word of a loom's memories, or a word of HBM or
market memory, by its byte address. -/
inductive ErrLoc where
  | reg (loom slot : Nat) (r : Reg) (lane : Nat)
  | lmem (loom addr : Nat)
  | tile (loom slot : Nat)
  | cell (loom tile cell : Nat)
  | l1 (loom ctx line : Nat)
  | icache (loom ctx line : Nat)
  | l2 (host : Bool) (line : Nat)
  | hbm (addr : Nat)
  | market (addr : Nat)
  | host (addr : Nat)
deriving DecidableEq, Repr

/-- What a port learned when its training ended (R446, R452): the wavelengths with light, of its receive and of its transmit
fibre, and the peer. -/
structure PortTraining where
  port : Nat
  live : BitVec 24
  tx : BitVec 24
  pnode : BitVec 12
  pport : BitVec 7
deriving DecidableEq, Repr

/-- The service firmware image in boot flash: its bytes, and whether the flash read without error (R457, R458). -/
structure FlashImage where
  bytes : List Byte
  readOk : Bool
deriving DecidableEq, Repr

/-- A context descriptor (R455); `image` is a decode-table image the service firmware loads at creation (R349). -/
structure CtxDesc where
  num : BitVec 16
  root : DWord
  dtab : DWord
  qblock : DWord
  trapv : DWord
  image : Option (List (BitVec 16))
deriving DecidableEq, Repr

/-- The steps of the machine, one constructor for each row of spec/opcode_table.json. -/
inductive Instr where
  -- 06_integer_and_control.md R140 to R146
  | iadd (h : Guard) (d a b : Reg) (m : Sat)
  | isub (h : Guard) (d a b : Reg) (m : Sat)
  | imul (h : Guard) (d a b : Reg)
  | imulh (h : Guard) (d a b : Reg) (s : Bool)
  | imad (h : Guard) (d a b c : Reg)
  | idiv (h : Guard) (d a b : Reg) (s : Bool)
  | irem (h : Guard) (d a b : Reg) (s : Bool)
  | imin (h : Guard) (d a b : Reg) (s : Bool)
  | imax (h : Guard) (d a b : Reg) (s : Bool)
  | iabs (h : Guard) (d a : Reg)
  | ineg (h : Guard) (d a : Reg)
  | iand (h : Guard) (d a b : Reg)
  | ior (h : Guard) (d a b : Reg)
  | ixor (h : Guard) (d a b : Reg)
  | inot (h : Guard) (d a : Reg)
  | logic3 (h : Guard) (d a b c : Reg) (t : BitVec 8)
  | shl (h : Guard) (d a b : Reg)
  | shr (h : Guard) (d a b : Reg)
  | sar (h : Guard) (d a b : Reg)
  | rot (h : Guard) (d a b : Reg)
  | popc (h : Guard) (d a : Reg)
  | clz (h : Guard) (d a : Reg)
  | ctz (h : Guard) (d a : Reg)
  | brev (h : Guard) (d a : Reg)
  | bfx (h : Guard) (d a b : Reg) (s : Bool)
  | bfi (h : Guard) (d a b c : Reg)
  | icmp (h : Guard) (d a b : Reg) (cond : Cond) (s : Bool)
  | sel (h : Guard) (d a b c : Reg)
  | mov (h : Guard) (d a : Reg)
  | movs (h : Guard) (d : Reg) (r : SysReg)
  | iadd64 (h : Guard) (d a b : Reg)
  | imad64 (h : Guard) (d a b c : Reg) (s : Bool)
  | shl64 (h : Guard) (d a b : Reg)
  -- R147
  | iaddImm (h : Guard) (d a : Reg) (k : BitVec 28)
  | imulImm (h : Guard) (d a : Reg) (k : BitVec 28)
  | andImm (h : Guard) (d a : Reg) (k : BitVec 28)
  | orImm (h : Guard) (d a : Reg) (k : BitVec 28)
  | xorImm (h : Guard) (d a : Reg) (k : BitVec 28)
  | shlImm (h : Guard) (d a : Reg) (k : BitVec 28)
  | shrImm (h : Guard) (d a : Reg) (k : BitVec 28)
  | sarImm (h : Guard) (d a : Reg) (k : BitVec 28)
  | rotImm (h : Guard) (d a : Reg) (k : BitVec 28)
  | movi (h : Guard) (d : Reg) (k : BitVec 28)
  | movhi (h : Guard) (d a : Reg) (k : BitVec 28)
  | lea (h : Guard) (d a : Reg) (k : BitVec 28)
  -- R149 to R154
  | shfl (h : Guard) (d a b : Reg) (m : ShflMode)
  | ballot (h : Guard) (d a : Reg)
  | vote (h : Guard) (d a : Reg) (m : VoteMode)
  | lprefix (h : Guard) (d a : Reg)
  | bcast (h : Guard) (d a b : Reg)
  | elect (h : Guard) (d : Reg)
  -- R155 to R166
  | br (h : Guard) (p : BitVec 12) (off : BitVec 16)
  | brc (h : Guard) (a : Reg) (p : BitVec 12) (off : BitVec 16)
  | jmp (h : Guard) (d a : Reg) (p : BitVec 12)
  | call (h : Guard) (d : Reg) (p : BitVec 12) (off : BitVec 16)
  | ret (h : Guard) (a : Reg) (p : BitVec 12)
  | prio (p : BitVec 12)
  | exit (h : Guard)
  | yield (h : Guard)
  | nop (h : Guard)
  | brk (h : Guard) (c : BitVec 8)
  | vgrow (h : Guard) (d : Reg) (n : BitVec 8)
  | vshrink (h : Guard) (n : BitVec 8)
  -- 07_format_arithmetic.md
  | fadd (h : Guard) (n : BitVec 4) (d a b : Reg)
  | fsub (h : Guard) (n : BitVec 4) (d a b : Reg)
  | fmul (h : Guard) (n : BitVec 4) (d a b : Reg)
  | fma (h : Guard) (n : BitVec 4) (d a b c : Reg)
  | fmin (h : Guard) (n : BitVec 4) (d a b : Reg)
  | fmax (h : Guard) (n : BitVec 4) (d a b : Reg)
  | fabs (h : Guard) (n : BitVec 4) (d a : Reg)
  | fneg (h : Guard) (n : BitVec 4) (d a : Reg)
  | fcmp (h : Guard) (cond : FCond) (n : BitVec 4) (d a b : Reg)
  | fclass (h : Guard) (n : BitVec 4) (d a : Reg) (k : BitVec 8)
  | fdiv (h : Guard) (n : BitVec 4) (d a b : Reg)
  | frcp (h : Guard) (n : BitVec 4) (d a : Reg)
  | fsqrt (h : Guard) (n : BitVec 4) (d a : Reg)
  | frsq (h : Guard) (n : BitVec 4) (d a : Reg)
  | fexp2 (h : Guard) (n : BitVec 4) (d a : Reg)
  | flog2 (h : Guard) (n : BitVec 4) (d a : Reg)
  | fsinpi (h : Guard) (n : BitVec 4) (d a : Reg)
  | fcospi (h : Guard) (n : BitVec 4) (d a : Reg)
  | ftanh (h : Guard) (n : BitVec 4) (d a : Reg)
  | fround (h : Guard) (rm : Rm) (n : BitVec 4) (d a : Reg)
  | fscale (h : Guard) (n : BitVec 4) (d a b : Reg)
  | fcvt (h : Guard) (n src : BitVec 4) (d a b : Reg) (o : BitVec 8)
  | ftoi (h : Guard) (rm : Rm) (s : Bool) (n : BitVec 4) (d a : Reg) (k : BitVec 8)
  | itof (h : Guard) (s : Bool) (n : BitVec 4) (d a : Reg)
  | fpack (h : Guard) (n : BitVec 4) (d a b : Reg) (k : BitVec 8)
  | funpack (h : Guard) (s : Bool) (n : BitVec 4) (d a : Reg) (k : BitVec 8)
  | fdot (h : Guard) (n acc : BitVec 4) (d a b c : Reg)
  | setfmt (h : Guard) (n : BitVec 4) (a : Reg)
  | getfmt (h : Guard) (n : BitVec 4) (d : Reg)
  | fflags (h : Guard) (d : Reg) (mask : BitVec 8)
  -- 10_memory_instructions.md R251 to R262
  | ld (h : Guard) (d a b : Reg) (imm : BitVec 16) (w : Width) (acq : Bool)
  | st (h : Guard) (d a b : Reg) (imm : BitVec 16) (w : Width) (rel : Bool)
  | ldw (h : Guard) (n : BitVec 4) (d a b : Reg) (imm : BitVec 16)
  | stw (h : Guard) (n : BitVec 4) (d a b : Reg) (imm : BitVec 16)
  | ldResid (h : Guard) (d a m : Reg) (imm : BitVec 16) (w : Width) (acq : Bool)
  | ldwResid (h : Guard) (n : BitVec 4) (d a m : Reg) (imm : BitVec 16)
  | fence (h : Guard) (sc : Scope)
  | pagein (h : Guard) (a b : Reg) (imm : BitVec 16)
  | probe (h : Guard) (d a b : Reg) (imm : BitVec 16)
  | atomAdd (h : Guard) (d a b : Reg) (imm : BitVec 16) (w64 : Bool) (o : Order)
  | atomMin (h : Guard) (d a b : Reg) (imm : BitVec 16) (w64 : Bool) (o : Order)
  | atomMax (h : Guard) (d a b : Reg) (imm : BitVec 16) (w64 : Bool) (o : Order)
  | atomAnd (h : Guard) (d a b : Reg) (imm : BitVec 16) (w64 : Bool) (o : Order)
  | atomOr (h : Guard) (d a b : Reg) (imm : BitVec 16) (w64 : Bool) (o : Order)
  | atomXor (h : Guard) (d a b : Reg) (imm : BitVec 16) (w64 : Bool) (o : Order)
  | atomXchg (h : Guard) (d a b : Reg) (imm : BitVec 16) (w64 : Bool) (o : Order)
  | atomCas (h : Guard) (d a b : Reg) (imm : BitVec 16) (w64 : Bool) (o : Order)
  | atomInc (h : Guard) (d a b : Reg) (imm : BitVec 16) (w64 : Bool) (o : Order)
  | atomDec (h : Guard) (d a b : Reg) (imm : BitVec 16) (w64 : Bool) (o : Order)
  | atomFadd (h : Guard) (n : BitVec 4) (d a b : Reg) (imm : BitVec 16) (o : Order)
  -- 10_memory_instructions.md R263 to R282
  | copy (h : Guard) (t : TileSide) (n : BitVec 4) (d a : Reg)
  | gather (h : Guard) (t : TileSide) (n : BitVec 4) (d a : Reg)
  | scatter (h : Guard) (t : TileSide) (n : BitVec 4) (d a : Reg)
  | cmpst (h : Guard) (n : BitVec 4) (d a b : Reg)
  | expld (h : Guard) (n : BitVec 4) (d a b : Reg)
  | xput (h : Guard) (d a : Reg)
  | xget (h : Guard) (d a : Reg)
  | xatom (h : Guard) (op : AtomOp) (n : BitVec 4) (d a b c : Reg)
  | xred (h : Guard) (op : XredOp) (n : BitVec 4) (d a : Reg)
  | bankop (h : Guard) (op : BankOp) (n : BitVec 4) (a b c : Reg)
  -- 11_matrix_and_accumulators.md
  | mma (h : Guard) (d a b : Reg)
  | mmaSp (h : Guard) (d a b : Reg)
  | mmaDy (h : Guard) (d a b : Reg)
  | delta (h : Guard) (d a b : Reg)
  | aspill (h : Guard) (d a : Reg) (t : BitVec 8)
  | afill (h : Guard) (d a : Reg) (t : BitVec 8)
  | ascale (h : Guard) (n : BitVec 4) (d a : Reg) (t : BitVec 8)
  | acvt (h : Guard) (n : BitVec 4) (d : Reg) (t : BitVec 8)
  | tclaim (h : Guard) (acc : Bool) (n : BitVec 4) (d : Reg) (t cnt : BitVec 8)
  | trel (h : Guard) (acc : Bool) (t cnt : BitVec 8)
  | pin (h : Guard) (d a b : Reg) (t : BitVec 8)
  | unpin (h : Guard) (t : BitVec 8)
  | attach (h : Guard) (d a : Reg) (t : BitVec 8)
  | detach (h : Guard) (t : BitVec 8)
  | aread (h : Guard) (d a b : Reg) (t : BitVec 8)
  | awrite (h : Guard) (d a b : Reg) (t : BitVec 8)
  | azero (h : Guard) (t : BitVec 8)
  -- 12_queues.md
  | launch (h : Guard) (d a b : Reg)
  | fetchw (h : Guard) (a b c : Reg)
  | spawn (h : Guard) (d a : Reg)
  | join (h : Guard) (d a : Reg)
  | msgmap (h : Guard) (d s r hd : Reg) (q : BitVec 8)
  | msgunmap (h : Guard) (d : Reg)
  | ringInit (h : Guard) (g : BitVec 8) (a : Reg)
  | ringSig (h : Guard) (g : BitVec 8) (b : Reg) (cls : Option OcClass)
  | ringWait (h : Guard) (g : BitVec 8) (b a : Reg)
  -- 13_tables.md
  | hbar (h : Guard) (hd : BitVec 8)
  | hvote (h : Guard) (m : HvoteMode) (d a : Reg) (hd : BitVec 8)
  | hred (h : Guard) (op : HredOp) (n : BitVec 4) (d a : Reg) (hd : BitVec 8)
  | hbcast (h : Guard) (src : Bool) (d a : Reg) (hd : BitVec 8)
  | hset (h : Guard) (hd : BitVec 8) (a : Reg)
  | dtload (h : Guard) (d a : Reg)
  | dtread (h : Guard) (d a : Reg)
  | tlbinv (h : Guard) (m : TlbMode) (a b : Reg)
  | tlbsync (h : Guard)
  | recChk (h : Guard) (d a : Reg)
  -- 14_stall_boards_and_census.md
  | sbPost (h : Guard) (d a : Reg)
  | sbWdr (h : Guard) (d a : Reg)
  | sbFind (h : Guard) (d a b : Reg)
  | solicit (h : Guard) (a b : Reg)
  | respond (h : Guard) (a : Reg)
  | sbMove (h : Guard) (d b c : Reg)
  -- 15_counters.md
  | waitoc (h : Guard) (cls : OcClass) (n : BitVec 6)
  | arm (h : Guard) (clr : Bool) (d a b : Reg)
  | await (h : Guard) (hd : Option (BitVec 8)) (d a : Reg)
  | arrive (h : Guard) (a b : Reg)
  | evsel (h : Guard) (d : Reg) (k src : BitVec 8)
  | evrd (h : Guard) (d : Reg) (k : BitVec 8)
  | evclr (h : Guard) (d : Reg) (k : BitVec 8)
  -- 16_traps_and_preemption.md R433
  | trap (h : Guard) (c : BitVec 8)
  | iret
  | rqRd (h : Guard) (d a b : Reg)
  | rqWr (h : Guard) (d a b : Reg)
  | rqDrop (h : Guard) (d a : Reg)
  | setidem (h : Guard) (a : Reg)
  | halt (h : Guard) (team : Bool) (c : BitVec 8)
  -- R260, R103
  | ipref (h : Guard) (n : BitVec 3) (off : BitVec 16)
  | dpref (h : Guard) (a b : Reg) (imm : BitVec 16)
  | unassignedHint (code : BitVec 10)
  -- steps of wefts and of the loom
  | trapEntry (loom slot : Nat)
  | weftEnd (loom slot : Nat)
  | entryStarving (loom slot : Nat)
  | frontierSpillReturn (loom slot : Nat)
  | yieldPassEnd (loom slot : Nat)
  | vgrowBlocksObtained (loom slot : Nat)
  | vgrowTimeout (loom slot : Nat)
  | instructionCacheFill (loom : Nat) (ctx : BitVec 16) (line : Nat)
  | engineUnit (loom : Nat) (cls : OcClass) (idx : Nat)
  | operationRetirement (loom : Nat) (cls : OcClass) (idx : Nat)
  | bankCommandPart (loom idx bank : Nat)
  | blockMerge (ctrl : Nat)
  | sbMoveCommit (loom idx : Nat)
  | sbWdrFree (loom slot : Nat)
  | hsetCommit (loom slot : Nat)
  | continuationEnqueue (loom slot : Nat)
  | recordTake (loom slot : Nat)
  | fetchwAnswer (i : Nat)
  | messageSend (loom slot : Nat)
  -- steps of the distributor
  | distributorDraw
  | drainExpiry (loom team : Nat)
  | teamFlush (loom team : Nat)
  | teamSave (loom team : Nat)
  | teamPlacement (loom team slot0 : Nat)
  | teamRestore (loom team slot0 : Nat)
  -- the host
  | hostStore (off : Nat) (data : List Byte)
  | hostLoad (off n : Nat)
  /-- A host line that a slice may hold: supplied to the host, or taken from the slice with the bytes that the host then
  gives the line (R30, R212). -/
  | hostCoherenceRequest (line : Nat) (data : Option (List Byte))
  | linkFailure
  -- the census network
  | censusPoint (slot : Nat)
  | responderSpawn (loom idx : Nat)
  -- the fabric
  | fabricWriteUnit (i : Nat)
  | fabricReadRequest (i : Nat)
  | fabricReadResponse (i : Nat)
  | fabricAtomicRequest (i : Nat)
  | fabricAtomicResponse (i : Nat)
  | fabricCompletion (i : Nat)
  | fabricRefusal (i : Nat)
  | reductionContribution (i : Nat)
  | reductionCompletion (i : Nat)
  | censusRequest (i : Nat)
  | censusAnswer (i : Nat)
  | routeChangeEffect (node vc : Nat)
  | flitReceive (port : Nat) (flit : BitVec 1536) (got : BitVec 24)
  | replayTimeout (port : Nat)
  | ackTimer (port : Nat)
  | wavelengthSuspect (port w : Nat)
  | wavelengthLiveAgain (port w : Nat)
  | wavelengthDead (port : Nat) (mask : BitVec 24)
  | portRetrain (port : Nat)
  | portTrainingComplete (t : PortTraining)
  | tokenRestore (port : Nat)
  -- budgets, power, background activities
  | budgetPeriodStart (pw : BitVec 16) (temps : List (BitVec 12))
  | thermalTrip (die : Nat)
  | memoryScrub (addr : Nat)
  | migrationCopy (ctx : BitVec 16) (va newPpn : Nat)
  | eventSampling
  | tlbinvComplete (i : Nat)
  -- bring-up
  | powerOn
  | exlemLinkTrained
  | firmwareVerification (img : FlashImage)
  | memoryZeroing
  | fabricBringUp (ports : List PortTraining) (routes : List (Nat × BitVec 16)) (node : BitVec 12)
  | launchQueuesEnable (base : DWord)
  | resetRequest
  -- management registers and firmware
  | portSetOffline (port : Nat)
  | portBringUp (port : Nat)
  | evqWrite (word : Nat) (v : DWord) (byHost : Bool)
  | nodeWrite (n : BitVec 12)
  | routeWrite (node : Nat) (v : BitVec 16)
  | budgetWrite (act : Nat) (v : BitVec 16) (floor : Bool)
  | invalidationPort (ctx : BitVec 16) (m : TlbMode) (va : DWord) (n : Word)
  | attestRequest (nonce : BitVec 256)
  | attestReadCert
  | measurementExtend (x : List Byte)
  | contextCreate (d : CtxDesc)
  | contextSwitchOut (ctx : BitVec 16)
  | contextSwitchIn (ctx : BitVec 16)
  | contextTeardown (ctx : BitVec 16)
  | managementRegisterWrite (r : Nat) (v : DWord)
  | teamQuantumExpiry (loom team : Nat)
  | tlbFillAhead (ag : TlbAgent) (ctx : BitVec 16) (va : DWord)
  | softError (loc : ErrLoc) (uncorrectable : Bool)
  | powerOff
  | coolantFlowAlarm (flow leak : Bool)
deriving DecidableEq, Repr

end Sys2Proof
end

