-- ==== Sys2Proof/WellFormed.lean ====
section
/-! DEFINITION. When a term of the syntax is an instruction that some word encodes: the checks of R99, R100 and of the
entries' own field rules that depend on the word alone (04_encoding_and_assembly.md). -/

namespace Sys2Proof

/-- Why a word, or a term, is no instruction. Every reason is an illegal instruction of the device (R414, cause 0x02),
but for `reserved`, which only a term of the syntax can meet: words have their reserved fields ignored (R99). -/
inductive Reject where
  /-- No instruction is assigned to the canonical opcode (R103, R104). -/
  | unassigned
  /-- A used field holds a code its entry does not define (R99). -/
  | fieldCode
  /-- A pair field holds an odd register number (R100). -/
  | oddPair
  /-- The progress register of an X-format instruction is v255 (R126). -/
  | noProgress
  /-- The residency register is the load's destination (R123). -/
  | residClash
  /-- A guard on an instruction that takes none (R159, R433). -/
  | guarded
  /-- The term sets a field that its form reserves. -/
  | reserved
deriving DecidableEq, Repr

/-- The number of a register is even (R100). -/
def evenReg (r : Reg) : Bool := !r.getLsbD 0

/-- The first check of the list that fails names the flaw. -/
def firstFlaw : List (Bool × Reject) → Option Reject
  | [] => none
  | (ok, r) :: t => if ok then firstFlaw t else some r

/-- An X-format instruction names a progress register other than v255 (R126), and its pairs are even (R100). -/
def progressFlaw (d : Reg) (pairs : List Reg) : Option Reject :=
  firstFlaw [(d != 255, .noProgress), (pairs.all evenReg, .oddPair)]

/-- The pairs named are even (R100). -/
def pairFlaw (pairs : List Reg) : Option Reject := firstFlaw [(pairs.all evenReg, .oddPair)]

/-- An accumulator instruction names a tile below 32 (R312). -/
def accFlaw (t : BitVec 8) : Option Reject := firstFlaw [(t < 32, .fieldCode)]

/-- tclaim and trel: 1 ≤ n, and t + n within the tile slots or the accumulator tiles (R288). -/
def claimFlaw (acc : Bool) (t cnt : BitVec 8) : Option Reject :=
  firstFlaw [(1 ≤ cnt.toNat && t.toNat + cnt.toNat ≤ (if acc then 32 else 64), .fieldCode)]

/-- An allotment of R51: a multiple of 8 from 8 to 248, or 255. -/
def allotOk (n : Nat) : Bool := (n % 8 == 0 && 8 ≤ n && n ≤ 248) || n == 255

/-- The engine copies of R266: the slot field is reserved when neither side is a tile. -/
def copyFlaw (t : TileSide) (n : BitVec 4) (d a : Reg) : Option Reject :=
  firstFlaw [(d != 255, .noProgress), (evenReg a, .oddPair), (t != .none || n == 0, .reserved)]

/-- Atomics of width 64 name pairs (R100, R256). -/
def atomFlaw (w64 : Bool) (d a : Reg) : Option Reject := firstFlaw [(evenReg a && (!w64 || evenReg d), .oddPair)]

/-- The flaw of a term, if it has one: a term without a flaw is the meaning of some word. The steps of the device
(rows 182 to 266 of the opcode table) are no words, and have no flaw. -/
def Instr.flaw : Instr → Option Reject
  | .iadd64 _ d a b => pairFlaw [d, a, b]
  | .imad64 _ d _ _ c _ => pairFlaw [d, c]
  | .shl64 _ d a _ => pairFlaw [d, a]
  | .movs _ d r => if r = .team ∨ r = .clock then pairFlaw [d] else none
  | .lea _ d a _ => pairFlaw [d, a]
  | .jmp _ d a _ => firstFlaw [(evenReg a && (d == 255 || evenReg d), .oddPair)]
  | .call _ d _ _ => pairFlaw [d]
  | .ret _ a _ => pairFlaw [a]
  | .vgrow _ _ n | .vshrink _ n => firstFlaw [(allotOk n.toNat, .fieldCode)]
  | .setfmt _ n a => firstFlaw [(n != 0, .fieldCode), (evenReg a, .oddPair)]
  | .getfmt _ _ d => pairFlaw [d]
  | .fflags _ _ mask => firstFlaw [(mask < 64, .fieldCode)]
  | .ld _ d a _ _ w _ | .st _ d a _ _ w _ => firstFlaw [(evenReg a && (w != .b64 || evenReg d), .oddPair)]
  | .ldw _ _ _ a _ _ | .stw _ _ _ a _ _ => pairFlaw [a]
  | .ldResid _ d a m _ w _ =>
    firstFlaw [(evenReg a && (w != .b64 || evenReg d), .oddPair),
      (m == 255 || (m != d && (w != .b64 || m != d + 1)), .residClash)]
  | .ldwResid _ _ d a m _ => firstFlaw [(evenReg a, .oddPair), (m == 255 || m != d, .residClash)]
  | .pagein _ a _ _ | .probe _ _ a _ _ => pairFlaw [a]
  | .atomAdd _ d a _ _ w _ | .atomMin _ d a _ _ w _ | .atomMax _ d a _ _ w _ | .atomAnd _ d a _ _ w _
  | .atomOr _ d a _ _ w _ | .atomXor _ d a _ _ w _ | .atomXchg _ d a _ _ w _ | .atomInc _ d a _ _ w _
  | .atomDec _ d a _ _ w _ => atomFlaw w d a
  | .atomCas _ d a b _ w _ => firstFlaw [(evenReg a && (!w || (evenReg d && evenReg b)), .oddPair)]
  | .atomFadd _ _ _ a _ _ _ => pairFlaw [a]
  | .copy _ t n d a | .gather _ t n d a | .scatter _ t n d a => copyFlaw t n d a
  | .cmpst _ _ d a _ | .expld _ _ d a _ => progressFlaw d [a]
  | .xput _ d a | .xget _ d a => progressFlaw d [a]
  | .xatom _ op n d a _ c =>
    firstFlaw [(d != 255, .noProgress), (evenReg a, .oddPair),
      ((op == .fadd || n == 0) && (op == .cas || c == 0), .reserved)]
  | .xred _ _ _ d a => progressFlaw d [a]
  | .bankop _ op n a _ c =>
    firstFlaw [(evenReg a, .oddPair), (op != .cvt || c < 16, .fieldCode),
      ((op != .transp || (n == 0 && c == 0)) && (op != .zero || c == 0), .reserved)]
  | .mma _ d a _ | .mmaSp _ d a _ | .mmaDy _ d a _ | .delta _ d a _ => progressFlaw d [a]
  | .aspill _ d a t | .afill _ d a t =>
    firstFlaw [(d != 255, .noProgress), (evenReg a, .oddPair), (t < 32, .fieldCode)]
  | .ascale _ _ d _ t | .acvt _ _ d t => firstFlaw [(d != 255, .noProgress), (t < 32, .fieldCode)]
  | .tclaim _ acc n _ t cnt => firstFlaw [((claimFlaw acc t cnt).isNone, .fieldCode), (acc || n == 0, .reserved)]
  | .trel _ acc t cnt => claimFlaw acc t cnt
  | .pin _ _ a b t => firstFlaw [(evenReg a && evenReg b, .oddPair), (t < 32, .fieldCode)]
  | .unpin _ t | .detach _ t | .aread _ _ _ _ t | .awrite _ _ _ _ t | .azero _ t => accFlaw t
  | .attach _ _ a t => firstFlaw [(evenReg a, .oddPair), (t < 32, .fieldCode)]
  | .launch _ _ a b => firstFlaw [(evenReg a && (b == 255 || evenReg b), .oddPair)]
  | .fetchw _ a _ _ => pairFlaw [a]
  | .spawn _ _ a | .join _ _ a => pairFlaw [a]
  | .msgmap _ _ s r hd q =>
    firstFlaw [(s != 255 && r != 255 && hd != 255 && s != r && s != hd && r != hd && 1 ≤ q && q ≤ 64, .fieldCode)]
  | .ringInit _ g _ => firstFlaw [(g < 8, .fieldCode)]
  | .ringSig _ g _ _ => firstFlaw [(g < 8, .fieldCode)]
  | .ringWait _ g _ _ => firstFlaw [(g < 8, .fieldCode)]
  | .hred _ op n _ _ _ => firstFlaw [(op == .sum || op == .min || op == .max || n == 0, .reserved)]
  | .hbcast _ src _ a _ => firstFlaw [(src || a == 0, .reserved)]
  | .hset _ _ a => pairFlaw [a]
  | .dtload _ _ a | .recChk _ _ a => pairFlaw [a]
  | .tlbinv _ m a b =>
    firstFlaw [(m == .ctx || evenReg a, .oddPair), ((m != .ctx || a == 0) && (m == .range || b == 0), .reserved)]
  | .sbPost _ _ a => pairFlaw [a]
  | .sbFind _ _ a _ => pairFlaw [a]
  | .solicit _ a _ => pairFlaw [a]
  | .sbMove _ d _ _ => progressFlaw d []
  | .arm _ clr _ a b => firstFlaw [(evenReg a && (clr || evenReg b), .oddPair), (!clr || b == 0, .reserved)]
  | .await _ _ _ a => pairFlaw [a]
  | .arrive _ a _ => pairFlaw [a]
  | .evsel _ _ k _ => firstFlaw [(k < 24, .fieldCode)]
  | .evrd _ d k => firstFlaw [(k < 24, .fieldCode), (evenReg d, .oddPair)]
  | .evclr _ _ k => firstFlaw [(k < 24, .fieldCode)]
  | .unassignedHint code => firstFlaw [(0x302 ≤ code.toNat && code.toNat ≤ 0x37F, .unassigned)]
  | _ => none

/-- A term that some word encodes, or a step of the device. -/
def Instr.wf (i : Instr) : Bool := i.flaw.isNone

end Sys2Proof
end

