-- ==== Sys2Proof/Decode.lean ====
section
/-! DEFINITION. Instruction words: the five formats of R95, the opcode map of R104, the decode table of R105 and R106,
the decoder, and after it the encoder (04_encoding_and_assembly.md). -/

namespace Sys2Proof

/-! ## The fields of a word (R93, R95) -/

/-- opcode [9:0]. -/
def fOp (w : DWord) : BitVec 10 := w.extractLsb' 0 10
/-- The guard register, [17:10]. -/
def fG (w : DWord) : Reg := w.extractLsb' 10 8
/-- Guard invert, [18]. -/
def fGn (w : DWord) : Bool := w.getLsbD 18
/-- d [27:20]. -/
def fD (w : DWord) : Reg := w.extractLsb' 20 8
/-- a [35:28]. -/
def fA (w : DWord) : Reg := w.extractLsb' 28 8
/-- b [43:36]. -/
def fB (w : DWord) : Reg := w.extractLsb' 36 8
/-- c [51:44]. -/
def fC (w : DWord) : Reg := w.extractLsb' 44 8
/-- slot [55:52]. -/
def fSlot (w : DWord) : BitVec 4 := w.extractLsb' 52 4
/-- mod [59:56]. -/
def fMod (w : DWord) : BitVec 4 := w.extractLsb' 56 4
/-- mod and slot together, [59:52]. -/
def fModSlot (w : DWord) : BitVec 8 := w.extractLsb' 52 8
/-- imm28 [63:36]. -/
def fImm28 (w : DWord) : BitVec 28 := w.extractLsb' 36 28
/-- imm16 [59:44]. -/
def fImm16 (w : DWord) : BitVec 16 := w.extractLsb' 44 16
/-- The width/ordering code [63:60]. -/
def fCode (w : DWord) : BitVec 4 := w.extractLsb' 60 4
/-- priority [47:36]. -/
def fPrio (w : DWord) : BitVec 12 := w.extractLsb' 36 12
/-- offset16 [63:48]. -/
def fOff (w : DWord) : BitVec 16 := w.extractLsb' 48 16
/-- The guard of a word. -/
def fGuard (w : DWord) : Guard := ⟨fG w, fGn w⟩

/-! ## Codes of fields -/

def satOf : Nat → Option Sat
  | 0 => some .wrap | 1 => some .sats | 2 => some .satu | _ => none
def condOf : Nat → Option Cond
  | 0 => some .eq | 1 => some .ne | 2 => some .lt | 3 => some .le | 4 => some .gt | 5 => some .ge | _ => none
def fcondOf : Nat → FCond
  | 0 => .eq | 1 => .ne | 2 => .lt | 3 => .le | 4 => .gt | 5 => .ge | 6 => .un | _ => .or
def shflOf : Nat → Option ShflMode
  | 0 => some .idx | 1 => some .up | 2 => some .down | 3 => some .xor | _ => none
def voteOf : Nat → Option VoteMode
  | 0 => some .any | 1 => some .all | 2 => some .eq | _ => none
def rmOf : Nat → Option Rm
  | 0 => some .own | 1 => some .rne | 2 => some .rtz | 3 => some .rdn | 4 => some .rup | 5 => some .rna | _ => none
def widthOf : Nat → Width
  | 0 => .b8 | 1 => .b16 | 2 => .b32 | _ => .b64
def orderOf : Nat → Order
  | 0 => .plain | 1 => .acq | 2 => .rel | _ => .acqrel
def scopeOf : Nat → Option Scope
  | 0 => some .weft | 1 => some .team | 2 => some .loom | 3 => some .die | 4 => some .package | 5 => some .group
  | 6 => some .system | _ => none
def sysRegOf : Nat → Option SysReg
  | 0 => some .lane | 1 => some .weft | 2 => some .team | 3 => some .loom | 4 => some .die | 5 => some .node
  | 6 => some .clock | 7 => some .active | 8 => some .role | 9 => some .allot | 10 => some .prio | 11 => some .ctx
  | 12 => some .fpx | _ => none
def classOf : Nat → Option OcClass
  | 0 => some .copy | 1 => some .mat | 2 => some .gath | 3 => some .bank | 4 => some .fab | _ => none
def tileOf : Nat → Option TileSide
  | 0 => some .none | 1 => some .ts | 2 => some .td | _ => none
def atomOpOf : Nat → Option AtomOp
  | 0 => some .add | 1 => some .min | 2 => some .max | 3 => some .and | 4 => some .or | 5 => some .xor
  | 6 => some .xchg | 7 => some .cas | 8 => some .inc | 9 => some .dec | 10 => some .fadd | _ => none
def xredOf : Nat → Option XredOp
  | 0 => some .sum | 1 => some .max | 2 => some .min | _ => none
def bankOpOf : Nat → Option BankOp
  | 0 => some .add | 1 => some .scale | 2 => some .cvt | 3 => some .max | 4 => some .min | 5 => some .zero
  | 6 => some .transp | _ => none
def hvoteOf : Nat → Option HvoteMode
  | 0 => some .any | 1 => some .all | 2 => some .cnt | _ => none
def hredOf : Nat → Option HredOp
  | 0 => some .sum | 1 => some .min | 2 => some .max | 3 => some .iadd | 4 => some .and | 5 => some .or
  | 6 => some .xor | _ => none
def tlbModeOf : Nat → Option TlbMode
  | 0 => some .page | 1 => some .range | 2 => some .ctx | _ => none

def Sat.code : Sat → Nat
  | .wrap => 0 | .sats => 1 | .satu => 2
def Cond.code : Cond → Nat
  | .eq => 0 | .ne => 1 | .lt => 2 | .le => 3 | .gt => 4 | .ge => 5
def FCond.code : FCond → Nat
  | .eq => 0 | .ne => 1 | .lt => 2 | .le => 3 | .gt => 4 | .ge => 5 | .un => 6 | .or => 7
def ShflMode.code : ShflMode → Nat
  | .idx => 0 | .up => 1 | .down => 2 | .xor => 3
def VoteMode.code : VoteMode → Nat
  | .any => 0 | .all => 1 | .eq => 2
def Rm.code : Rm → Nat
  | .own => 0 | .rne => 1 | .rtz => 2 | .rdn => 3 | .rup => 4 | .rna => 5
def Width.code : Width → Nat
  | .b8 => 0 | .b16 => 1 | .b32 => 2 | .b64 => 3
def Order.code : Order → Nat
  | .plain => 0 | .acq => 1 | .rel => 2 | .acqrel => 3
def Scope.code : Scope → Nat
  | .weft => 0 | .team => 1 | .loom => 2 | .die => 3 | .package => 4 | .group => 5 | .system => 6
def SysReg.code : SysReg → Nat
  | .lane => 0 | .weft => 1 | .team => 2 | .loom => 3 | .die => 4 | .node => 5 | .clock => 6 | .active => 7
  | .role => 8 | .allot => 9 | .prio => 10 | .ctx => 11 | .fpx => 12
def OcClass.code : OcClass → Nat
  | .copy => 0 | .mat => 1 | .gath => 2 | .bank => 3 | .fab => 4
def TileSide.code : TileSide → Nat
  | .none => 0 | .ts => 1 | .td => 2
def AtomOp.code : AtomOp → Nat
  | .add => 0 | .min => 1 | .max => 2 | .and => 3 | .or => 4 | .xor => 5 | .xchg => 6 | .cas => 7 | .inc => 8
  | .dec => 9 | .fadd => 10
def XredOp.code : XredOp → Nat
  | .sum => 0 | .max => 1 | .min => 2
def BankOp.code : BankOp → Nat
  | .add => 0 | .scale => 1 | .cvt => 2 | .max => 3 | .min => 4 | .zero => 5 | .transp => 6
def HvoteMode.code : HvoteMode → Nat
  | .any => 0 | .all => 1 | .cnt => 2
def HredOp.code : HredOp → Nat
  | .sum => 0 | .min => 1 | .max => 2 | .iadd => 3 | .and => 4 | .or => 5 | .xor => 6
def TlbMode.code : TlbMode → Nat
  | .page => 0 | .range => 1 | .ctx => 2

/-- The low field of mod, [58:56]. -/
def fMod3 (w : DWord) : Nat := (w.extractLsb' 56 3).toNat
/-- The top bit of mod, [59]. -/
def fMod59 (w : DWord) : Bool := w.getLsbD 59
/-- The low bit of mod, [56]. -/
def fMod56 (w : DWord) : Bool := w.getLsbD 56
/-- A 1-bit mode held in the whole of mod: 0 or 1; any other code is undefined (R99, R140). -/
def flagOf : Nat → Option Bool
  | 0 => some false | 1 => some true | _ => none
/-- The slot number of ldw and stw: [61:60] its low bits, [63:62] its high bits (R97). -/
def fSlotM (w : DWord) : BitVec 4 := fCode w

/-! ## From a word to a term, by the canonical opcode (R104). `none`: an undefined code in a used field. -/

/-- Codes 0x000 to 0x020 (R140 to R146). -/
def parseInt (op : Nat) (w : DWord) : Option Instr :=
  let h := fGuard w; let d := fD w; let a := fA w; let b := fB w; let c := fC w
  let m := (fMod w).toNat
  match op with
  | 0x000 => (satOf m).map (.iadd h d a b)
  | 0x001 => (satOf m).map (.isub h d a b)
  | 0x002 => some (.imul h d a b)
  | 0x003 => (flagOf m).map (.imulh h d a b)
  | 0x004 => some (.imad h d a b c)
  | 0x005 => (flagOf m).map (.idiv h d a b)
  | 0x006 => (flagOf m).map (.irem h d a b)
  | 0x007 => (flagOf m).map (.imin h d a b)
  | 0x008 => (flagOf m).map (.imax h d a b)
  | 0x009 => some (.iabs h d a)
  | 0x00A => some (.ineg h d a)
  | 0x00B => some (.iand h d a b)
  | 0x00C => some (.ior h d a b)
  | 0x00D => some (.ixor h d a b)
  | 0x00E => some (.inot h d a)
  | 0x00F => some (.logic3 h d a b c (fModSlot w))
  | 0x010 => some (.shl h d a b)
  | 0x011 => some (.shr h d a b)
  | 0x012 => some (.sar h d a b)
  | 0x013 => some (.rot h d a b)
  | 0x014 => some (.popc h d a)
  | 0x015 => some (.clz h d a)
  | 0x016 => some (.ctz h d a)
  | 0x017 => some (.brev h d a)
  | 0x018 => (flagOf m).map (.bfx h d a b)
  | 0x019 => some (.bfi h d a b c)
  | 0x01A => (condOf (fMod3 w)).map fun k => .icmp h d a b k (fMod59 w)
  | 0x01B => some (.sel h d a b c)
  | 0x01C => some (.mov h d a)
  | 0x01D => (sysRegOf a.toNat).map (.movs h d)
  | 0x01E => some (.iadd64 h d a b)
  | 0x01F => (flagOf m).map (.imad64 h d a b c)
  | 0x020 => some (.shl64 h d a b)
  | _ => none

/-- Codes 0x030 to 0x045 (R147 to R154). -/
def parseImm (op : Nat) (w : DWord) : Option Instr :=
  let h := fGuard w; let d := fD w; let a := fA w; let b := fB w; let k := fImm28 w
  let m := (fMod w).toNat
  match op with
  | 0x030 => some (.iaddImm h d a k)
  | 0x031 => some (.imulImm h d a k)
  | 0x032 => some (.andImm h d a k)
  | 0x033 => some (.orImm h d a k)
  | 0x034 => some (.xorImm h d a k)
  | 0x035 => some (.shlImm h d a k)
  | 0x036 => some (.shrImm h d a k)
  | 0x037 => some (.sarImm h d a k)
  | 0x038 => some (.rotImm h d a k)
  | 0x039 => some (.movi h d k)
  | 0x03A => some (.movhi h d a k)
  | 0x03B => some (.lea h d a k)
  | 0x040 => (shflOf m).map (.shfl h d a b)
  | 0x041 => some (.ballot h d a)
  | 0x042 => (voteOf m).map (.vote h d a)
  | 0x043 => some (.lprefix h d a)
  | 0x044 => some (.bcast h d a b)
  | 0x045 => some (.elect h d)
  | _ => none

/-- Codes 0x050 to 0x05B (R155 to R166). -/
def parseControl (op : Nat) (w : DWord) : Option Instr :=
  let h := fGuard w; let d := fD w; let a := fA w; let c := fC w
  match op with
  | 0x050 => some (.br h (fPrio w) (fOff w))
  | 0x051 => some (.brc h a (fPrio w) (fOff w))
  | 0x052 => some (.jmp h d a (fPrio w))
  | 0x053 => some (.call h d (fPrio w) (fOff w))
  | 0x054 => some (.ret h a (fPrio w))
  | 0x055 => if fG w = 255 then some (.prio (fPrio w)) else none
  | 0x056 => some (.exit h)
  | 0x057 => some (.yield h)
  | 0x058 => some (.nop h)
  | 0x059 => some (.brk h c)
  | 0x05A => some (.vgrow h d c)
  | 0x05B => some (.vshrink h c)
  | _ => none

/-- Codes 0x080 to 0x09D (R172). -/
def parseFmt (op : Nat) (w : DWord) : Option Instr :=
  let h := fGuard w; let n := fSlot w; let d := fD w; let a := fA w; let b := fB w; let c := fC w
  match op with
  | 0x080 => some (.fadd h n d a b)
  | 0x081 => some (.fsub h n d a b)
  | 0x082 => some (.fmul h n d a b)
  | 0x083 => some (.fma h n d a b c)
  | 0x084 => some (.fmin h n d a b)
  | 0x085 => some (.fmax h n d a b)
  | 0x086 => some (.fabs h n d a)
  | 0x087 => some (.fneg h n d a)
  | 0x088 => some (.fcmp h (fcondOf (fMod3 w)) n d a b)
  | 0x089 => some (.fclass h n d a c)
  | 0x08A => some (.fdiv h n d a b)
  | 0x08B => some (.frcp h n d a)
  | 0x08C => some (.fsqrt h n d a)
  | 0x08D => some (.frsq h n d a)
  | 0x08E => some (.fexp2 h n d a)
  | 0x08F => some (.flog2 h n d a)
  | 0x090 => some (.fsinpi h n d a)
  | 0x091 => some (.fcospi h n d a)
  | 0x092 => some (.ftanh h n d a)
  | 0x093 => (rmOf (fMod3 w)).map fun r => .fround h r n d a
  | 0x094 => some (.fscale h n d a b)
  | 0x095 => some (.fcvt h n (fMod w) d a b c)
  | 0x096 => (rmOf (fMod3 w)).map fun r => .ftoi h r (fMod59 w) n d a c
  | 0x097 => some (.itof h (fMod59 w) n d a)
  | 0x098 => some (.fpack h n d a b c)
  | 0x099 => some (.funpack h (fMod59 w) n d a c)
  | 0x09A => some (.fdot h n (fMod w) d a b c)
  | 0x09B => some (.setfmt h n a)
  | 0x09C => some (.getfmt h n d)
  | 0x09D => some (.fflags h d c)
  | _ => none

/-- The width of an atom, .b32 or .b64 (R97, R256). -/
def atomW64 (w : DWord) : Option Bool :=
  match widthOf ((fCode w).toNat % 4) with
  | .b32 => some false | .b64 => some true | _ => none

/-- ld: plain or acquire (R97). -/
def ldAcq (w : DWord) : Option Bool :=
  match orderOf ((fCode w).toNat / 4) with
  | .plain => some false | .acq => some true | _ => none

/-- st: plain or release (R97). -/
def stRel (w : DWord) : Option Bool :=
  match orderOf ((fCode w).toNat / 4) with
  | .plain => some false | .rel => some true | _ => none

/-- Codes 0x100 to 0x12F (R251, R256 to R262). -/
def parseMem (op : Nat) (w : DWord) : Option Instr :=
  let h := fGuard w; let d := fD w; let a := fA w; let b := fB w; let imm := fImm16 w
  let wd := widthOf ((fCode w).toNat % 4)
  let o := orderOf ((fCode w).toNat / 4)
  match op with
  | 0x100 => (ldAcq w).map (.ld h d a b imm wd)
  | 0x101 => (stRel w).map (.st h d a b imm wd)
  | 0x102 => some (.ldw h (fSlotM w) d a b imm)
  | 0x103 => some (.stw h (fSlotM w) d a b imm)
  | 0x104 => (ldAcq w).map (.ldResid h d a b imm wd)
  | 0x105 => some (.ldwResid h (fSlotM w) d a b imm)
  | 0x106 => (scopeOf (fMod3 w)).map (.fence h)
  | 0x107 => some (.pagein h a b imm)
  | 0x108 => some (.probe h d a b imm)
  | 0x109 => (atomW64 w).map fun x => .atomAdd h d a b imm x o
  | 0x10A => (atomW64 w).map fun x => .atomMin h d a b imm x o
  | 0x10B => (atomW64 w).map fun x => .atomMax h d a b imm x o
  | 0x10C => (atomW64 w).map fun x => .atomAnd h d a b imm x o
  | 0x10D => (atomW64 w).map fun x => .atomOr h d a b imm x o
  | 0x10E => (atomW64 w).map fun x => .atomXor h d a b imm x o
  | 0x10F => (atomW64 w).map fun x => .atomXchg h d a b imm x o
  | 0x110 => (atomW64 w).map fun x => .atomCas h d a b imm x o
  | 0x111 => (atomW64 w).map fun x => .atomInc h d a b imm x o
  | 0x112 => (atomW64 w).map fun x => .atomDec h d a b imm x o
  | _ =>
    if 0x120 ≤ op ∧ op ≤ 0x12F then some (.atomFadd h (BitVec.ofNat 4 (op - 0x120)) d a b imm o) else none

/-- Codes 0x130 to 0x139 (R263 to R280). -/
def parseEngine (op : Nat) (w : DWord) : Option Instr :=
  let h := fGuard w; let n := fSlot w; let d := fD w; let a := fA w; let b := fB w; let c := fC w
  let m := (fMod w).toNat
  let tn (t : TileSide) : BitVec 4 := if t = .none then 0 else n
  match op with
  | 0x130 => (tileOf m).map fun t => .copy h t (tn t) d a
  | 0x131 => (tileOf m).map fun t => .gather h t (tn t) d a
  | 0x132 => (tileOf m).map fun t => .scatter h t (tn t) d a
  | 0x133 => some (.cmpst h n d a b)
  | 0x134 => some (.expld h n d a b)
  | 0x135 => some (.xput h d a)
  | 0x136 => some (.xget h d a)
  | 0x137 => (atomOpOf m).map fun op => .xatom h op (if op = .fadd then n else 0) d a b (if op = .cas then c else 0)
  | 0x138 => (xredOf m).map fun op => .xred h op n d a
  | 0x139 => (bankOpOf m).map fun op =>
      .bankop h op (if op = .transp then 0 else n) a b (if op = .transp ∨ op = .zero then 0 else c)
  | _ => none

/-- Codes 0x180 to 0x190 (R312). -/
def parseMatrix (op : Nat) (w : DWord) : Option Instr :=
  let h := fGuard w; let n := fSlot w; let d := fD w; let a := fA w; let b := fB w; let c := fC w
  let acc := fMod56 w
  match op with
  | 0x180 => some (.mma h d a b)
  | 0x181 => some (.mmaSp h d a b)
  | 0x182 => some (.mmaDy h d a b)
  | 0x183 => some (.delta h d a b)
  | 0x184 => some (.aspill h d a c)
  | 0x185 => some (.afill h d a c)
  | 0x186 => some (.ascale h n d a c)
  | 0x187 => some (.acvt h n d c)
  | 0x188 => some (.tclaim h acc (if acc then n else 0) d c b)
  | 0x189 => some (.trel h acc c b)
  | 0x18A => some (.pin h d a b c)
  | 0x18B => some (.unpin h c)
  | 0x18C => some (.attach h d a c)
  | 0x18D => some (.detach h c)
  | 0x18E => some (.aread h d a b c)
  | 0x18F => some (.awrite h d a b c)
  | 0x190 => some (.azero h c)
  | _ => none

/-- Codes 0x1C0 to 0x1C8 (R340). -/
def parseQueue (op : Nat) (w : DWord) : Option Instr :=
  let h := fGuard w; let d := fD w; let a := fA w; let b := fB w; let c := fC w
  match op with
  | 0x1C0 => some (.launch h d a b)
  | 0x1C1 => some (.fetchw h a b c)
  | 0x1C2 => some (.spawn h d a)
  | 0x1C3 => some (.join h d a)
  | 0x1C4 => some (.msgmap h d a b c (fModSlot w))
  | 0x1C5 => some (.msgunmap h d)
  | 0x1C6 => some (.ringInit h c a)
  | 0x1C7 => if fMod59 w then (classOf (fMod3 w)).map fun k => .ringSig h c b (some k) else some (.ringSig h c b none)
  | 0x1C8 => some (.ringWait h c b a)
  | _ => none

/-- Codes 0x1D0 to 0x1E5 (R371, R391). -/
def parseTables (op : Nat) (w : DWord) : Option Instr :=
  let h := fGuard w; let d := fD w; let a := fA w; let b := fB w; let c := fC w
  let m2 := (w.extractLsb' 56 2).toNat
  match op with
  | 0x1D0 => some (.hbar h c)
  | 0x1D1 => (hvoteOf m2).map fun m => .hvote h m d a c
  | 0x1D2 => (hredOf (fMod3 w)).map fun op =>
      .hred h op (if op = .sum ∨ op = .min ∨ op = .max then fSlot w else 0) d a c
  | 0x1D3 => some (.hbcast h (fMod56 w) d (if fMod56 w then a else 0) c)
  | 0x1D4 => some (.hset h c a)
  | 0x1D5 => some (.dtload h d a)
  | 0x1D6 => some (.dtread h d a)
  | 0x1D7 => (tlbModeOf m2).map fun m =>
      .tlbinv h m (if m = .ctx then 0 else a) (if m = .range then b else 0)
  | 0x1D8 => some (.tlbsync h)
  | 0x1D9 => some (.recChk h d a)
  | 0x1E0 => some (.sbPost h d a)
  | 0x1E1 => some (.sbWdr h d a)
  | 0x1E2 => some (.sbFind h d a b)
  | 0x1E3 => some (.solicit h a b)
  | 0x1E4 => some (.respond h a)
  | 0x1E5 => some (.sbMove h d b c)
  | _ => none

/-- Codes 0x1F0 to 0x206 (R413, R433). -/
def parseCounters (op : Nat) (w : DWord) : Option Instr :=
  let h := fGuard w; let d := fD w; let a := fA w; let b := fB w; let c := fC w
  match op with
  | 0x1F0 => (classOf ((fImm28 w).extractLsb' 8 3).toNat).map fun k => .waitoc h k ((fImm28 w).extractLsb' 0 6)
  | 0x1F1 => some (.arm h (fMod56 w) d a (if fMod56 w then 0 else b))
  | 0x1F2 => some (.await h (if fMod56 w then some c else none) d a)
  | 0x1F3 => some (.arrive h a b)
  | 0x1F4 => some (.evsel h d c (fModSlot w))
  | 0x1F5 => some (.evrd h d c)
  | 0x1F6 => some (.evclr h d c)
  | 0x200 => some (.trap h c)
  | 0x201 => if fG w = 255 then some .iret else none
  | 0x202 => some (.rqRd h d a b)
  | 0x203 => some (.rqWr h d a b)
  | 0x204 => some (.rqDrop h d a)
  | 0x205 => some (.setidem h a)
  | 0x206 => some (.halt h (fMod56 w) c)
  | _ => none

/-- The term of a word whose canonical opcode is `op`, its reserved fields ignored (R99, R106). -/
def parse (op : Nat) (w : DWord) : Option Instr :=
  if op ≤ 0x02F then parseInt op w
  else if op ≤ 0x04F then parseImm op w
  else if op ≤ 0x07F then parseControl op w
  else if op ≤ 0x0FF then parseFmt op w
  else if op ≤ 0x12F then parseMem op w
  else if op ≤ 0x17F then parseEngine op w
  else if op ≤ 0x1BF then parseMatrix op w
  else if op ≤ 0x1CF then parseQueue op w
  else if op ≤ 0x1EF then parseTables op w
  else parseCounters op w

/-- The codes of 0x000 to 0x2FF that R104 assigns. -/
def assigned (op : Nat) : Bool :=
  op ≤ 0x020 || (0x030 ≤ op && op ≤ 0x03B) || (0x040 ≤ op && op ≤ 0x045) || (0x050 ≤ op && op ≤ 0x05B)
  || (0x080 ≤ op && op ≤ 0x09D) || (0x100 ≤ op && op ≤ 0x112) || (0x120 ≤ op && op ≤ 0x139)
  || (0x180 ≤ op && op ≤ 0x190) || (0x1C0 ≤ op && op ≤ 0x1C8) || (0x1D0 ≤ op && op ≤ 0x1D9)
  || (0x1E0 ≤ op && op ≤ 0x1E5) || (0x1F0 ≤ op && op ≤ 0x1F6) || (0x200 ≤ op && op ≤ 0x206)

/-- The canonical codes with a Criund 1 variant (R108). -/
def hasLegacy (op : Nat) : Bool :=
  (0x050 ≤ op && op ≤ 0x054) || (0x010 ≤ op && op ≤ 0x012) || (0x035 ≤ op && op ≤ 0x037)
  || op == 0x084 || op == 0x085 || op == 0x095

/-! ## The decode table (R105) -/

/-- The kinds of a decode-table entry. -/
inductive DecKind where
  | execute | illegal | hint
deriving DecidableEq, Repr

/-- One entry of a decode table: canon, legacy, kind (R105). -/
structure DecEntry where
  canon : BitVec 10
  legacy : Bool
  kind : DecKind
deriving DecidableEq, Repr

/-- The entry at context creation (R105). -/
def DecEntry.default (o : Nat) : DecEntry :=
  { canon := BitVec.ofNat 10 o, legacy := false,
    kind := if assigned o then .execute else if 0x300 ≤ o ∧ o ≤ 0x37F then .hint else .illegal }

/-- The 16 bits of an entry (R105). -/
def DecEntry.toBits (e : DecEntry) : BitVec 16 :=
  BitVec.ofNat 16 (e.canon.toNat + (if e.legacy then 1024 else 0)
    + (match e.kind with | .execute => 0 | .illegal => 2048 | .hint => 4096))

/-- An entry of an image that dtload accepts (R105, R349): `none` is a malformed entry. -/
def DecEntry.ofBits (x : BitVec 16) : Option DecEntry :=
  let canon := x.extractLsb' 0 10
  let legacy := x.getLsbD 10
  match (x.extractLsb' 11 2).toNat with
  | 0 => if assigned canon.toNat && (!legacy || hasLegacy canon.toNat) then some ⟨canon, legacy, .execute⟩ else none
  | 1 => if !legacy || hasLegacy canon.toNat then some ⟨canon, legacy, .illegal⟩ else none
  | 2 => if !legacy || hasLegacy canon.toNat then some ⟨canon, legacy, .hint⟩ else none
  | _ => none

/-! ## The decoder (R106) -/

/-- What the decoder reads: an instruction and whether it runs with Criund 1 semantics, or the reason the word is an
illegal instruction; after the decode table's own kind, the role of the weft comes before the word's fields (R415), so
a rejection carries the canonical opcode where one stands. -/
inductive Decoded where
  | ok (i : Instr) (legacy : Bool)
  | illegalKind
  | badFields (canon : BitVec 10) (why : Reject)
deriving DecidableEq, Repr

/-- The instruction of a word under its table entry (R106). A hint-kind entry whose canonical code is not 0x300 or
0x301 does nothing (R106): it reads as the unassigned hint of its canonical code, or of 0x302 where that code is no
unassigned hint. -/
def decodeWith (e : DecEntry) (w : DWord) : Decoded :=
  match e.kind with
  | .illegal => .illegalKind
  | .hint =>
    if e.canon = 0x300 then .ok (.ipref (fGuard w) ((fPrio w).extractLsb' 0 3) (fOff w)) false
    else if e.canon = 0x301 then .ok (.dpref (fGuard w) (fA w) (fB w) (fImm16 w)) false
    else if 0x302 ≤ e.canon.toNat ∧ e.canon.toNat ≤ 0x37F then .ok (.unassignedHint e.canon) false
    else .ok (.unassignedHint 0x302) false
  | .execute =>
    match parse e.canon.toNat w with
    | none => .badFields e.canon (if assigned e.canon.toNat then .fieldCode else .unassigned)
    | some i =>
      match i.flaw with
      | some why => .badFields e.canon why
      | none => .ok i e.legacy

/-- Decoding by the default table of R105, as a context has it at creation. -/
def decode (w : DWord) : Except Reject Instr :=
  match decodeWith (DecEntry.default (fOp w).toNat) w with
  | .ok i _ => .ok i
  | .illegalKind => .error .unassigned
  | .badFields _ why => .error why

/-! ## The encoder, from the same tables (R95, R104 and the entries' field tables) -/

/-- R and X formats: mod, slot, c, b, a, d, guard, opcode; reserved bits zero (R95, R99). -/
def encR (op : BitVec 10) (h : Guard) (d a b c : Reg) (slot mod : BitVec 4) : DWord :=
  (0#4) ++ mod ++ slot ++ c ++ b ++ a ++ d ++ (0#1) ++ (BitVec.ofBool h.gn) ++ h.g ++ op

/-- I format (R95). -/
def encI (op : BitVec 10) (h : Guard) (d a : Reg) (k : BitVec 28) : DWord :=
  k ++ a ++ d ++ (0#1) ++ (BitVec.ofBool h.gn) ++ h.g ++ op

/-- M format (R95). -/
def encM (op : BitVec 10) (h : Guard) (d a b : Reg) (imm : BitVec 16) (code : BitVec 4) : DWord :=
  code ++ imm ++ b ++ a ++ d ++ (0#1) ++ (BitVec.ofBool h.gn) ++ h.g ++ op

/-- B format (R95). -/
def encB (op : BitVec 10) (h : Guard) (d a : Reg) (p : BitVec 12) (off : BitVec 16) : DWord :=
  off ++ p ++ a ++ d ++ (0#1) ++ (BitVec.ofBool h.gn) ++ h.g ++ op

/-- No guard (R93): tlasm writes gn as 0. -/
def noGuard : Guard := ⟨255, false⟩

/-- A code in the mod field. -/
def m4 (x : Nat) : BitVec 4 := BitVec.ofNat 4 x
/-- The signedness bit, mod [59]. -/
def s59 (s : Bool) : Nat := if s then 8 else 0
/-- The one-bit modes. -/
def b1 (s : Bool) : BitVec 4 := if s then 1 else 0
/-- The width/ordering code (R97). -/
def wo (w o : Nat) : BitVec 4 := BitVec.ofNat 4 (w + 4 * o)
def acqCode (acq : Bool) : Nat := if acq then 1 else 0
def relCode (rel : Bool) : Nat := if rel then 2 else 0
def atomWidth (w64 : Bool) : Nat := if w64 then 3 else 2
/-- The two halves of an 8-bit immediate in [59:52]: slot the low, mod the high. -/
def lo4 (t : BitVec 8) : BitVec 4 := t.extractLsb' 0 4
def hi4 (t : BitVec 8) : BitVec 4 := t.extractLsb' 4 4

/-- The word of an instruction; a step of the device has none, and answers 0. -/
def encode : Instr → DWord
  | .iadd h d a b m => encR 0x000 h d a b 0 0 (m4 m.code)
  | .isub h d a b m => encR 0x001 h d a b 0 0 (m4 m.code)
  | .imul h d a b => encR 0x002 h d a b 0 0 0
  | .imulh h d a b s => encR 0x003 h d a b 0 0 (b1 s)
  | .imad h d a b c => encR 0x004 h d a b c 0 0
  | .idiv h d a b s => encR 0x005 h d a b 0 0 (b1 s)
  | .irem h d a b s => encR 0x006 h d a b 0 0 (b1 s)
  | .imin h d a b s => encR 0x007 h d a b 0 0 (b1 s)
  | .imax h d a b s => encR 0x008 h d a b 0 0 (b1 s)
  | .iabs h d a => encR 0x009 h d a 0 0 0 0
  | .ineg h d a => encR 0x00A h d a 0 0 0 0
  | .iand h d a b => encR 0x00B h d a b 0 0 0
  | .ior h d a b => encR 0x00C h d a b 0 0 0
  | .ixor h d a b => encR 0x00D h d a b 0 0 0
  | .inot h d a => encR 0x00E h d a 0 0 0 0
  | .logic3 h d a b c t => encR 0x00F h d a b c (lo4 t) (hi4 t)
  | .shl h d a b => encR 0x010 h d a b 0 0 0
  | .shr h d a b => encR 0x011 h d a b 0 0 0
  | .sar h d a b => encR 0x012 h d a b 0 0 0
  | .rot h d a b => encR 0x013 h d a b 0 0 0
  | .popc h d a => encR 0x014 h d a 0 0 0 0
  | .clz h d a => encR 0x015 h d a 0 0 0 0
  | .ctz h d a => encR 0x016 h d a 0 0 0 0
  | .brev h d a => encR 0x017 h d a 0 0 0 0
  | .bfx h d a b s => encR 0x018 h d a b 0 0 (b1 s)
  | .bfi h d a b c => encR 0x019 h d a b c 0 0
  | .icmp h d a b k s => encR 0x01A h d a b 0 0 (m4 (k.code + s59 s))
  | .sel h d a b c => encR 0x01B h d a b c 0 0
  | .mov h d a => encR 0x01C h d a 0 0 0 0
  | .movs h d r => encR 0x01D h d (BitVec.ofNat 8 r.code) 0 0 0 0
  | .iadd64 h d a b => encR 0x01E h d a b 0 0 0
  | .imad64 h d a b c s => encR 0x01F h d a b c 0 (b1 s)
  | .shl64 h d a b => encR 0x020 h d a b 0 0 0
  | .iaddImm h d a k => encI 0x030 h d a k
  | .imulImm h d a k => encI 0x031 h d a k
  | .andImm h d a k => encI 0x032 h d a k
  | .orImm h d a k => encI 0x033 h d a k
  | .xorImm h d a k => encI 0x034 h d a k
  | .shlImm h d a k => encI 0x035 h d a k
  | .shrImm h d a k => encI 0x036 h d a k
  | .sarImm h d a k => encI 0x037 h d a k
  | .rotImm h d a k => encI 0x038 h d a k
  | .movi h d k => encI 0x039 h d 0 k
  | .movhi h d a k => encI 0x03A h d a k
  | .lea h d a k => encI 0x03B h d a k
  | .shfl h d a b m => encR 0x040 h d a b 0 0 (m4 m.code)
  | .ballot h d a => encR 0x041 h d a 0 0 0 0
  | .vote h d a m => encR 0x042 h d a 0 0 0 (m4 m.code)
  | .lprefix h d a => encR 0x043 h d a 0 0 0 0
  | .bcast h d a b => encR 0x044 h d a b 0 0 0
  | .elect h d => encR 0x045 h d 0 0 0 0 0
  | .br h p o => encB 0x050 h 0 0 p o
  | .brc h a p o => encB 0x051 h 0 a p o
  | .jmp h d a p => encB 0x052 h d a p 0
  | .call h d p o => encB 0x053 h d 0 p o
  | .ret h a p => encB 0x054 h 0 a p 0
  | .prio p => encB 0x055 noGuard 0 0 p 0
  | .exit h => encR 0x056 h 0 0 0 0 0 0
  | .yield h => encR 0x057 h 0 0 0 0 0 0
  | .nop h => encR 0x058 h 0 0 0 0 0 0
  | .brk h c => encR 0x059 h 0 0 0 c 0 0
  | .vgrow h d n => encR 0x05A h d 0 0 n 0 0
  | .vshrink h n => encR 0x05B h 0 0 0 n 0 0
  | .fadd h n d a b => encR 0x080 h d a b 0 n 0
  | .fsub h n d a b => encR 0x081 h d a b 0 n 0
  | .fmul h n d a b => encR 0x082 h d a b 0 n 0
  | .fma h n d a b c => encR 0x083 h d a b c n 0
  | .fmin h n d a b => encR 0x084 h d a b 0 n 0
  | .fmax h n d a b => encR 0x085 h d a b 0 n 0
  | .fabs h n d a => encR 0x086 h d a 0 0 n 0
  | .fneg h n d a => encR 0x087 h d a 0 0 n 0
  | .fcmp h k n d a b => encR 0x088 h d a b 0 n (m4 k.code)
  | .fclass h n d a k => encR 0x089 h d a 0 k n 0
  | .fdiv h n d a b => encR 0x08A h d a b 0 n 0
  | .frcp h n d a => encR 0x08B h d a 0 0 n 0
  | .fsqrt h n d a => encR 0x08C h d a 0 0 n 0
  | .frsq h n d a => encR 0x08D h d a 0 0 n 0
  | .fexp2 h n d a => encR 0x08E h d a 0 0 n 0
  | .flog2 h n d a => encR 0x08F h d a 0 0 n 0
  | .fsinpi h n d a => encR 0x090 h d a 0 0 n 0
  | .fcospi h n d a => encR 0x091 h d a 0 0 n 0
  | .ftanh h n d a => encR 0x092 h d a 0 0 n 0
  | .fround h r n d a => encR 0x093 h d a 0 0 n (m4 r.code)
  | .fscale h n d a b => encR 0x094 h d a b 0 n 0
  | .fcvt h n src d a b o => encR 0x095 h d a b o n src
  | .ftoi h r s n d a k => encR 0x096 h d a 0 k n (m4 (r.code + s59 s))
  | .itof h s n d a => encR 0x097 h d a 0 0 n (m4 (s59 s))
  | .fpack h n d a b k => encR 0x098 h d a b k n 0
  | .funpack h s n d a k => encR 0x099 h d a 0 k n (m4 (s59 s))
  | .fdot h n acc d a b c => encR 0x09A h d a b c n acc
  | .setfmt h n a => encR 0x09B h 0 a 0 0 n 0
  | .getfmt h n d => encR 0x09C h d 0 0 0 n 0
  | .fflags h d mask => encR 0x09D h d 0 0 mask 0 0
  | .ld h d a b imm w acq => encM 0x100 h d a b imm (wo w.code (acqCode acq))
  | .st h d a b imm w rel => encM 0x101 h d a b imm (wo w.code (relCode rel))
  | .ldw h n d a b imm => encM 0x102 h d a b imm n
  | .stw h n d a b imm => encM 0x103 h d a b imm n
  | .ldResid h d a m imm w acq => encM 0x104 h d a m imm (wo w.code (acqCode acq))
  | .ldwResid h n d a m imm => encM 0x105 h d a m imm n
  | .fence h sc => encR 0x106 h 0 0 0 0 0 (m4 sc.code)
  | .pagein h a b imm => encM 0x107 h 0 a b imm 0
  | .probe h d a b imm => encM 0x108 h d a b imm 0
  | .atomAdd h d a b imm w o => encM 0x109 h d a b imm (wo (atomWidth w) o.code)
  | .atomMin h d a b imm w o => encM 0x10A h d a b imm (wo (atomWidth w) o.code)
  | .atomMax h d a b imm w o => encM 0x10B h d a b imm (wo (atomWidth w) o.code)
  | .atomAnd h d a b imm w o => encM 0x10C h d a b imm (wo (atomWidth w) o.code)
  | .atomOr h d a b imm w o => encM 0x10D h d a b imm (wo (atomWidth w) o.code)
  | .atomXor h d a b imm w o => encM 0x10E h d a b imm (wo (atomWidth w) o.code)
  | .atomXchg h d a b imm w o => encM 0x10F h d a b imm (wo (atomWidth w) o.code)
  | .atomCas h d a b imm w o => encM 0x110 h d a b imm (wo (atomWidth w) o.code)
  | .atomInc h d a b imm w o => encM 0x111 h d a b imm (wo (atomWidth w) o.code)
  | .atomDec h d a b imm w o => encM 0x112 h d a b imm (wo (atomWidth w) o.code)
  | .atomFadd h n d a b imm o => encM (0x120 ||| n.setWidth 10) h d a b imm (wo 0 o.code)
  | .copy h t n d a => encR 0x130 h d a 0 0 n (m4 t.code)
  | .gather h t n d a => encR 0x131 h d a 0 0 n (m4 t.code)
  | .scatter h t n d a => encR 0x132 h d a 0 0 n (m4 t.code)
  | .cmpst h n d a b => encR 0x133 h d a b 0 n 0
  | .expld h n d a b => encR 0x134 h d a b 0 n 0
  | .xput h d a => encR 0x135 h d a 0 0 0 0
  | .xget h d a => encR 0x136 h d a 0 0 0 0
  | .xatom h op n d a b c => encR 0x137 h d a b c n (m4 op.code)
  | .xred h op n d a => encR 0x138 h d a 0 0 n (m4 op.code)
  | .bankop h op n a b c => encR 0x139 h 0 a b c n (m4 op.code)
  | .mma h d a b => encR 0x180 h d a b 0 0 0
  | .mmaSp h d a b => encR 0x181 h d a b 0 0 0
  | .mmaDy h d a b => encR 0x182 h d a b 0 0 0
  | .delta h d a b => encR 0x183 h d a b 0 0 0
  | .aspill h d a t => encR 0x184 h d a 0 t 0 0
  | .afill h d a t => encR 0x185 h d a 0 t 0 0
  | .ascale h n d a t => encR 0x186 h d a 0 t n 0
  | .acvt h n d t => encR 0x187 h d 0 0 t n 0
  | .tclaim h acc n d t cnt => encR 0x188 h d 0 cnt t n (b1 acc)
  | .trel h acc t cnt => encR 0x189 h 0 0 cnt t 0 (b1 acc)
  | .pin h d a b t => encR 0x18A h d a b t 0 0
  | .unpin h t => encR 0x18B h 0 0 0 t 0 0
  | .attach h d a t => encR 0x18C h d a 0 t 0 0
  | .detach h t => encR 0x18D h 0 0 0 t 0 0
  | .aread h d a b t => encR 0x18E h d a b t 0 0
  | .awrite h d a b t => encR 0x18F h d a b t 0 0
  | .azero h t => encR 0x190 h 0 0 0 t 0 0
  | .launch h d a b => encR 0x1C0 h d a b 0 0 0
  | .fetchw h a b c => encR 0x1C1 h 0 a b c 0 0
  | .spawn h d a => encR 0x1C2 h d a 0 0 0 0
  | .join h d a => encR 0x1C3 h d a 0 0 0 0
  | .msgmap h d s r hd q => encR 0x1C4 h d s r hd (lo4 q) (hi4 q)
  | .msgunmap h d => encR 0x1C5 h d 0 0 0 0 0
  | .ringInit h g a => encR 0x1C6 h 0 a 0 g 0 0
  | .ringSig h g b none => encR 0x1C7 h 0 0 b g 0 0
  | .ringSig h g b (some k) => encR 0x1C7 h 0 0 b g 0 (m4 (8 + k.code))
  | .ringWait h g b a => encR 0x1C8 h 0 a b g 0 0
  | .hbar h hd => encR 0x1D0 h 0 0 0 hd 0 0
  | .hvote h m d a hd => encR 0x1D1 h d a 0 hd 0 (m4 m.code)
  | .hred h op n d a hd => encR 0x1D2 h d a 0 hd n (m4 op.code)
  | .hbcast h src d a hd => encR 0x1D3 h d a 0 hd 0 (b1 src)
  | .hset h hd a => encR 0x1D4 h 0 a 0 hd 0 0
  | .dtload h d a => encR 0x1D5 h d a 0 0 0 0
  | .dtread h d a => encR 0x1D6 h d a 0 0 0 0
  | .tlbinv h m a b => encR 0x1D7 h 0 a b 0 0 (m4 m.code)
  | .tlbsync h => encR 0x1D8 h 0 0 0 0 0 0
  | .recChk h d a => encR 0x1D9 h d a 0 0 0 0
  | .sbPost h d a => encR 0x1E0 h d a 0 0 0 0
  | .sbWdr h d a => encR 0x1E1 h d a 0 0 0 0
  | .sbFind h d a b => encR 0x1E2 h d a b 0 0 0
  | .solicit h a b => encR 0x1E3 h 0 a b 0 0 0
  | .respond h a => encR 0x1E4 h 0 a 0 0 0 0
  | .sbMove h d b c => encR 0x1E5 h d 0 b c 0 0
  | .waitoc h k n => encI 0x1F0 h 0 0 ((0#17) ++ BitVec.ofNat 3 k.code ++ (0#2) ++ n)
  | .arm h clr d a b => encR 0x1F1 h d a b 0 0 (b1 clr)
  | .await h none d a => encR 0x1F2 h d a 0 0 0 0
  | .await h (some hd) d a => encR 0x1F2 h d a 0 hd 0 1
  | .arrive h a b => encR 0x1F3 h 0 a b 0 0 0
  | .evsel h d k src => encR 0x1F4 h d 0 0 k (lo4 src) (hi4 src)
  | .evrd h d k => encR 0x1F5 h d 0 0 k 0 0
  | .evclr h d k => encR 0x1F6 h d 0 0 k 0 0
  | .trap h c => encR 0x200 h 0 0 0 c 0 0
  | .iret => encR 0x201 noGuard 0 0 0 0 0 0
  | .rqRd h d a b => encR 0x202 h d a b 0 0 0
  | .rqWr h d a b => encR 0x203 h d a b 0 0 0
  | .rqDrop h d a => encR 0x204 h d a 0 0 0 0
  | .setidem h a => encR 0x205 h 0 a 0 0 0 0
  | .halt h team c => encR 0x206 h 0 0 0 c 0 (b1 team)
  | .ipref h n o => encB 0x300 h 0 0 (n.setWidth 12) o
  | .dpref h a b imm => encM 0x301 h 0 a b imm 0
  | .unassignedHint code => encR code noGuard 0 0 0 0 0 0
  | _ => 0

/-- The steps of the device and its inputs: rows 182 to 266 of the opcode table, which no word encodes. -/
def Instr.isEvent : Instr → Bool
  | .trapEntry .. | .weftEnd .. | .entryStarving .. | .frontierSpillReturn .. | .yieldPassEnd ..
  | .vgrowBlocksObtained .. | .vgrowTimeout .. | .instructionCacheFill .. | .engineUnit .. | .operationRetirement ..
  | .bankCommandPart .. | .blockMerge .. | .sbMoveCommit .. | .sbWdrFree .. | .hsetCommit .. | .continuationEnqueue ..
  | .recordTake .. | .fetchwAnswer .. | .messageSend .. | .distributorDraw | .drainExpiry .. | .teamFlush ..
  | .teamSave .. | .teamPlacement .. | .teamRestore .. | .hostStore .. | .hostLoad .. | .hostCoherenceRequest ..
  | .linkFailure | .censusPoint .. | .responderSpawn .. | .fabricWriteUnit .. | .fabricReadRequest ..
  | .fabricReadResponse .. | .fabricAtomicRequest .. | .fabricAtomicResponse .. | .fabricCompletion ..
  | .fabricRefusal .. | .reductionContribution .. | .reductionCompletion .. | .censusRequest .. | .censusAnswer ..
  | .routeChangeEffect .. | .flitReceive .. | .replayTimeout .. | .ackTimer .. | .wavelengthSuspect ..
  | .wavelengthLiveAgain .. | .wavelengthDead .. | .portRetrain .. | .portTrainingComplete .. | .tokenRestore ..
  | .budgetPeriodStart .. | .thermalTrip .. | .memoryScrub .. | .migrationCopy .. | .eventSampling
  | .tlbinvComplete .. | .powerOn | .exlemLinkTrained | .firmwareVerification .. | .memoryZeroing | .fabricBringUp ..
  | .launchQueuesEnable .. | .resetRequest | .portSetOffline .. | .portBringUp .. | .evqWrite .. | .nodeWrite ..
  | .routeWrite .. | .budgetWrite .. | .invalidationPort .. | .attestRequest .. | .attestReadCert
  | .measurementExtend .. | .contextCreate .. | .contextSwitchOut .. | .contextSwitchIn .. | .contextTeardown ..
  | .managementRegisterWrite .. | .teamQuantumExpiry .. | .tlbFillAhead .. | .softError .. | .powerOff
  | .coolantFlowAlarm .. => true
  | _ => false

/-- The host's probe: the instruction a word of the opcode table decodes to, by the default decode table. A row without
bits is a step of the device, which no word encodes. -/
def decodeTableWord (nbits w : Nat) : Option Instr :=
  if 0 < nbits ∧ nbits ≤ 64 then
    match decode (BitVec.ofNat 64 (w % 2 ^ nbits)) with
    | .ok i => some i
    | .error _ => none
  else none

end Sys2Proof
end

