-- ==== Sys2Proof/Machine/State.lean ====
section
/-! DEFINITION. The state of one BZG4-M1 package, as plain data: every piece of state that the manual names, with its
layout's fields, and the machine after reset. INVENTORY.md lists each field with its rule and reset value. Sparse
stores are lists of (key, value) pairs with rising keys in which a default value is not listed. -/

namespace Sys2Proof.Machine

/-- A sparse memory: bytes by address, rising, no zero byte listed (R187; log entry 4). -/
abbrev Mem := List Host.Cell

/-! ## Frontier, issue, traps (R36, R132, R414) -/

/-- A frontier entry (R132). -/
structure Entry where
  pc : DWord
  mask : Word
  prio : BitVec 12
  age : Nat
deriving DecidableEq, Repr

/-- Roles (R55). -/
inductive Role where
  | vector | copy | matrix
deriving DecidableEq, Repr

/-- The instruction being issued: who issues it, the entry's PC, mask and priority, and the word with its decoding
(R37, R106). The model's own record (log entry 14). -/
structure Issue where
  loom : Nat
  slot : Nat
  pc : DWord
  mask : Word
  prio : BitVec 12
  word : DWord
  canon : BitVec 10
  legacy : Bool
deriving DecidableEq, Repr

/-- A trap's cause and what its frame records of it (R414, R419). `lane` none: the frame's default (R419). -/
structure Cause where
  cause : Nat
  code : Nat := 0
  lane : Option Nat := none
  index : Nat := 0
  detail : DWord := 0
deriving DecidableEq, Repr

/-- A precise trap that waits for frame memory (R417 step 2): its cause and the trapping instruction. -/
structure TrapReq where
  cause : Cause
  pc : DWord
  lane : Nat
deriving DecidableEq, Repr

/-! ## Engine operations (R125, R263 to R282, R420) -/

/-- Who a team is, wherever it is placed: launch queue, launch count, linear index (R48, R276). -/
structure TeamId where
  queue : Nat
  count : Nat
  n : Nat
deriving DecidableEq, Repr

/-- An engine operation: what it captured at issue (R68, R264, R420), and where it stands. `defs`, `block` and `recs`
are the fields of the replay entry (R420). -/
structure Op where
  id : Nat
  loom : Nat
  slot : Nat
  ctx : Nat
  team : Option TeamId
  instr : Instr
  word : DWord
  pc : DWord
  legacy : Bool
  lane : Nat
  mask : Word
  opa : DWord
  opb : DWord
  opc : DWord
  defs : List DWord
  block : BitVec 512
  recs : List (BitVec 832)
  /-- N, the units of the operation (R124). -/
  total : Nat
  /-- Flags met so far, ORed at retirement (R77). -/
  flags : BitVec 6
  /-- A result register's value, written at retirement. -/
  result : DWord
  /-- Fabric: the tag of its packets and the units sent and not acknowledged (R277, R448). -/
  tag : BitVec 24
  sent : List Nat
  acked : List Nat
  /-- A unit refused or faulted at the destination (R276): the fault waits for nothing else. -/
  refused : Option Nat
  /-- xred: the contributor index captured at first issue (R281). -/
  contributor : Nat
  /-- bankop: the banks whose parts are still to be performed (R274); sb.move: the target's reservations (R378). -/
  parts : List Nat
  /-- A merge of this operation waits at a controller (R226). -/
  merging : Bool
  /-- The operation is discarded, and waits for the acknowledgement of the units it has sent (R423). -/
  discard : Bool
  /-- Straight copies whose sides overlap read every source element first (R269): unit and bits. -/
  early : List (Nat × Word)
  /-- xred: the route record with its node list (R280). -/
  route : List Byte
  /-- Re-entered, and its footprint is still to be entered in the range scoreboard (R196). -/
  enter : Bool
  /-- The engine has started it (R329). -/
  started : Bool
  /-- The header of the flit that its result is to be, where its result register is the send register (R335). -/
  header : Option Word
  /-- That flit waits for room at its port (false), or the port has closed meanwhile and refuses it (true; R336). -/
  sending : Option Bool := none
  /-- bankop: the records of the parts performed so far, element and code (R86). -/
  partRecs : List (Nat × Nat)
  /-- copy: the virtual blocks that it has written whole (R225). -/
  wrote : List DWord := []
  /-- bankop: the leaves, each with its level, of the 512 KiB pages that it was checked on at issue (R274, R363). -/
  leaves : List (Nat × (DWord × Nat)) := []
deriving DecidableEq, Repr

/-- An operation that faulted and waits in its engine for a replay entry, or stands in the replay queue (R420). -/
structure Faulted where
  op : Op
  cause : Nat
  code : Nat
  index : Nat
  detail : DWord
  report : Bool
deriving DecidableEq, Repr

/-- A footprint in the range scoreboard (R196). -/
structure Range where
  op : Nat
  lo : Nat
  hi : Nat
  write : Bool
deriving DecidableEq, Repr

/-! ## Wefts and teams -/

/-- Where an arm entry stands: a loom's table or a bank's (R396). -/
inductive ArmAt where
  | loom (loom idx : Nat)
  | bank (bank idx : Nat)
deriving DecidableEq, Repr

/-- What a weft waits in (R416, R254, R335, R377), with the PC of the waiting instruction, whose entry stands there until
the wait ends. The waits of R416's second row hold an issued instruction whose effect completes when the wait ends. -/
inductive Wait where
  | none
  /-- Parked under R254. -/
  | parked (pc : DWord)
  /-- In a heddle phase: the arrival's destination, active lanes and operand lane (R342). -/
  | heddle (pc : DWord) (hd : Nat) (d : Reg) (act : Word) (lane : Nat)
  /-- In await on an armed word; `bound`: in await.h, whose heddle stands in the arm entry (R399, R400). -/
  | await (pc : DWord) (at_ : ArmAt) (d : Reg) (lane : Nat) (bound : Bool)
  /-- In ring.wait (R332). -/
  | ring (pc : DWord) (g stage : Nat) (phase : Bool)
  /-- In hset (R345). -/
  | hset (pc : DWord) (hd : Nat) (set : DWord)
  /-- In vgrow, since this cycle, with the mask that its entry had then (R165). It issues once its wait ends. -/
  | vgrow (pc : DWord) (mask : Word) (d : Reg) (n : Nat) (act : Word) (since : DWord)
  /-- In spawn or join, to enqueue a record (R325): the value d receives and the record's address. -/
  | enqueue (pc : DWord) (d : Reg) (lane : Nat) (value : Word) (addr : DWord)
  /-- In sb.wdr, until the entry's responder ends (R377), with the mask that its entry had when the wait began. It issues once
  its wait ends; a trap, or the issue of another entry, cancels the wait. -/
  | sbWdr (pc : DWord) (mask : Word) (d : Reg) (act : Word) (handle : Word)
  /-- Not ready, since the port that its flit's header names is full (R335): the instruction has not issued and is tried again.
  A trap, or the issue of another entry, cancels the wait. -/
  | full (pc : DWord) (header act : Word)
  /-- A flit that waits for room, of an instruction that has issued and whose wait has ended (R335), with its header and the
  active lanes. -/
  | send (pc : DWord) (header act : Word) (flit : List Word)
deriving DecidableEq, Repr

/-- A weft's termination (R423, R424): the exit cause 0xF0 to 0xF4; the cause, code and PC of its exit status; and whether
the status has been written. -/
structure Exit where
  exit : Nat
  cause : Nat
  code : Nat
  pc : DWord
  written : Bool
  /-- The terminations write their exit statuses in the order of these (R434): the model's own number (log entry 10). -/
  seq : Nat
deriving DecidableEq, Repr

/-- The message port of a weft (R334, R335): its registers, its quota and the flits received. -/
structure Port where
  s : Reg
  r : Reg
  h : Reg
  quota : Nat
  flits : List (List Word)
deriving DecidableEq, Repr

/-- The five outstanding-operation counters (R393). -/
structure Oc where
  copy : Nat := 0
  mat : Nat := 0
  gath : Nat := 0
  bank : Nat := 0
  fab : Nat := 0
deriving DecidableEq, Repr

/-- A ring arrival deferred until the operations named have retired (R332). -/
structure Deferred where
  cls : OcClass
  ops : List Nat
  g : Nat
  stage : Nat
deriving DecidableEq, Repr

/-- A conversion record to be appended (R85): who produced it, and its code and element. -/
structure ConvRec where
  pc : DWord
  slot : Nat
  lane : Nat
  engine : Bool
  loom : Nat
  code : Nat
  element : Nat
deriving DecidableEq, Repr

/-- Conversion records of a weft that wait for those of its earlier operations (R86), in issue order: of an operation, by its
number, or of an instruction that has completed. -/
structure RecSlot where
  op : Option Nat
  recs : List ConvRec
deriving DecidableEq, Repr

/-- A responder: the census slot and board entry it answers, and its value once it has responded (R386). -/
structure Responder where
  node : Nat
  census : Nat
  entry : Nat
  serial : Nat
  value : Option Word
  flagged : Bool
deriving DecidableEq, Repr

/-- The pass over a yielded weft (R161): slots that have still to issue, and issue cycles left. -/
structure YieldPass where
  slots : List Nat
  left : Nat
deriving DecidableEq, Repr

/-- A weft (R34 to R42, R118 to R136). Registers and poison marks are keyed 32·register + lane. -/
structure Weft where
  ctx : Nat
  /-- Handle of its team; none for a continuation-record weft (R60). -/
  team : Option Nat
  num : Nat
  role : Role
  sv : Bool
  allot : Nat
  regs : List (Nat × Word)
  /-- Register words in uncorrectable error: true once poisoned and logged (R119). -/
  poison : List (Nat × Bool)
  /-- Register words in correctable error (R119, R190). -/
  soft : List Nat
  /-- Slots f1 to f15 other than binary32 (R66). -/
  fmts : List (Nat × DWord)
  fpx : BitVec 6
  held : List Entry
  spilled : List Entry
  /-- Loom-memory offset of its frontier spill area (R40). -/
  spillBase : Nat
  oc : Oc
  /-- Loom-memory offset of its trap frame (R417). -/
  frame : Option Nat
  /-- Lanes that were in some entry at trap entry; none when the frontier was empty (R422). -/
  frameLanes : Word
  trap : Option TrapReq
  /-- The operations of the replay entries of its frame, in order (R420). -/
  replay : List Op
  faulted : List Faulted
  wait : Wait
  port : Option Port
  yielded : Option YieldPass
  deferred : List Deferred
  responder : Option Responder
  /-- Withdrawn teams of a continuation-record weft (R324). -/
  withdrawn : List TeamId
  /-- A termination that waits for operations or for its exit status (R423, R424). -/
  ended : Option Exit
  /-- Invalidations issued and not yet complete (R363). -/
  invs : List Nat
  /-- Operations that may append conversion records, and records behind them (R86). -/
  recQ : List RecSlot
  /-- The word of the loom-memory await in which it was saved, as an offset of the share, and whether an arrival add in the
  swap image has reached its target (R400, R431); the weft's first issue uses it. -/
  awaited : Option (Nat × Bool) := none
deriving DecidableEq, Repr

/-- A stage of a ring (R331). -/
structure Stage where
  phase : Bool
  count : Nat
  expected : Nat
deriving DecidableEq, Repr

/-- Why a team has stopped issuing (R428, R429, R455). -/
inductive Stop where
  | save | flush | teardown
deriving DecidableEq, Repr

/-- A placed team (R45 to R48, R426, R427). -/
structure Team where
  id : TeamId
  ctx : Nat
  x : Nat
  y : Nat
  z : Nat
  /-- Weft slot of each weft number. -/
  slots : List Nat
  shareBase : Nat
  shareSize : Nat
  rings : List (List Stage)
  /-- Logical tile slot to physical slot (R283). -/
  tiles : List (Nat × Nat)
  /-- Logical accumulator tile to ownership entry and tile of the range (R283). -/
  accs : List (Nat × (Nat × Nat))
  nhed : Nat
  idem : Bool
  sideEffect : Bool
  issued : Nat
  placedAt : DWord
  /-- The way drain has been chosen until this cycle (R426). -/
  drainUntil : Option DWord
  /-- Drain has been tried and did not retire the team (R426). -/
  drained : Bool
  withdrawn : List TeamId
  /-- Address of its swap image (R430). -/
  swap : DWord
  /-- Its exit status word has still to be zeroed, and its first issue waits (R424). -/
  unstarted : Bool
  stop : Option Stop
deriving DecidableEq, Repr

/-! ## Tables of a loom -/

/-- Operations of a heddle phase (R341). -/
inductive HedOp where
  | none | hbar | hvote | hred | hbcast
deriving DecidableEq, Repr

/-- A heddle table entry (R341): mask as the live members' slots. -/
structure Heddle where
  mask : List Nat
  team : Nat
  num : Nat
  acnt : Nat
  phase : Bool
  op : HedOp
  sub : Nat
  def_ : DWord
  vals : List (Nat × DWord)
  /-- hbcast's source, once it has arrived: its weft number and lane words (R343). -/
  source : Option (Nat × List Word)
  /-- The slots that have arrived, the latest last (R343). -/
  arrived : List Nat
deriving DecidableEq, Repr

/-- States of an ownership entry (R352). -/
inductive OwnState where
  | free | working | pinned | attached | spilled | moving
deriving DecidableEq, Repr

/-- An accumulator ownership entry (R352). -/
structure Own where
  state : OwnState
  t : Nat
  ctx : Nat
  gen : BitVec 16
  team : Nat
  key : DWord
  spill : DWord
  def_ : DWord
  tiles : List Nat
  dtime : DWord
  /-- While moving: the state before unit 0 (R379). -/
  was : OwnState
deriving DecidableEq, Repr

/-- States of a stall-board entry (R372). -/
inductive BoardState where
  | free | valid | moving | spilled
deriving DecidableEq, Repr

/-- A stall-board entry (R372). -/
structure Board where
  state : BoardState
  kind : Nat
  team : Nat
  /-- The posting team of a kind-0 entry, which its swap image names (R379). -/
  owner : Option TeamId
  busy : Bool
  rsv : Bool
  ctx : Nat
  gen : BitVec 16
  tgt : Nat
  key : DWord
  mask : DWord
  addr : DWord
  len : Word
  hnd : DWord
  area : DWord
  /-- While moving: the state before unit 0 (R379). -/
  was : BoardState
  /-- Which posting filled the entry: the model's own number (log entry 10). -/
  serial : Nat
deriving DecidableEq, Repr

/-- A responder spawn that waits for its entry, its area or the ready queue (R384, R385). -/
structure Spawn where
  ctx : Nat
  node : Nat
  census : Nat
  entry : Nat
  /-- The posting counted. -/
  serial : Nat
  skey : DWord
  handler : DWord
  arg : DWord
  allot : Nat
  asker : Nat
  mov : Bool
  /-- The entry's state when the census point passed (R383). -/
  was : BoardState
  /-- The area has been written; the record waits for a ready-queue entry (R384). -/
  written : Bool
  flagged : Bool
  /-- The address of its record, once a queue holds it. -/
  queued : Option DWord
deriving DecidableEq, Repr

/-- An arm-table entry (R396). -/
structure Arm where
  addr : Nat
  target : DWord
  h : Nat
  hv : Bool
  hcnt : Nat
  team : Nat
  ctx : Nat
  bteam : Nat
  bloom : Nat
  /-- A member waiting on the binding saw its word reach the target in its team's swap image (R431). -/
  met : Bool := false
deriving DecidableEq, Repr

/-- An event counter (R404). -/
structure EvCounter where
  count : BitVec 48
  src : BitVec 7
  all : Bool
  ctx : Nat
deriving DecidableEq, Repr

/-- An instruction-cache line (R208): its bytes as they were filled. -/
structure ILine where
  ctx : Nat
  line : Nat
  bytes : Mem
  used : Nat
deriving DecidableEq, Repr

/-- A TLB entry (R361): a leaf or non-leaf entry that a level holds for a virtual prefix. -/
structure Tlb where
  ctx : Nat
  level : Nat
  tag : Nat
  pte : DWord
deriving DecidableEq, Repr

/-- One loom (R187, R313, R341, R352, R372, R396, R404). -/
structure Loom where
  mem : Mem
  wefts : List (Nat × Weft)
  teams : List (Nat × Team)
  /-- Operand memory, keyed 4096·slot + byte (R200). -/
  operand : Mem
  /-- Accumulator cells, keyed 4096·tile + 64·row + column (R202). -/
  cells : List (Nat × Word)
  owners : List (Nat × Own)
  heddles : List (Nat × Heddle)
  board : List (Nat × Board)
  spawns : List Spawn
  /-- The ready queue: context and record address, oldest first (R326). -/
  ready : List (Nat × DWord)
  copyQ : List Op
  gathQ : List Op
  matQ : List Op
  bankQ : List Op
  fabQ : List Op
  ranges : List Range
  icache : List ILine
  /-- Fills started by ipref and not completed (R208). -/
  ifills : List (Nat × Nat)
  /-- Lines held by the L1: context and virtual line number (R205). -/
  l1 : List (Nat × Nat)
  arms : List (Nat × Arm)
  counters : List (Nat × EvCounter)
  /-- The slot each quadrant last issued from (R44). -/
  last : List Nat
  /-- Slots waiting in vgrow, in order (R165). -/
  growers : List Nat
  /-- The context from whose overflow ring the loom last took a record (R61; log entry 33). -/
  ringCtx : Nat := 0
  tlbCore : List Tlb
  tlbCopy : List Tlb
  /-- Error counters of R412, by number. -/
  errors : List (Nat × Word)
  /-- Busy cycles of this period by activity: copy engine, swap engine (R410). -/
  copyUsed : Nat
  swapUsed : Nat
deriving DecidableEq, Repr

/-! ## Memories of the package -/

/-- The physical spaces (R188). -/
inductive Space where
  | hbm | market | host
deriving DecidableEq, Repr

/-- Where an error mark lies (R190, R193, R205, R208, R211, R215): a loom-memory word, a tile slot, a cell, a line of a
loom's L1 or instruction cache (by context and number), a line of an L2 slice, or a unit of a physical space (a 128-byte
line of HBM or host memory, an 8-byte word of market memory). -/
inductive ErrAt where
  | lmem (loom unit : Nat)
  | tile (loom slot : Nat)
  | cell (loom cell : Nat)
  | l1 (loom ctx line : Nat)
  | icache (loom ctx line : Nat)
  | l2 (host : Bool) (line : Nat)
  | phys (sp : Space) (unit : Nat)
deriving DecidableEq, Repr

/-- A line that its home slice holds: host space or HBM, its number, and whether it is modified (R210 to R212). -/
structure L2Line where
  host : Bool
  line : Nat
  dirty : Bool
deriving DecidableEq, Repr

/-- A pending-table entry of a controller (R367). -/
structure Pending where
  block : Nat
  src : Nat
  waiting : Nat
deriving DecidableEq, Repr

/-- Kinds of request at a controller (R225 to R227): a merge, a whole-block write, a copy engine's read, and the host's store
and load (R453). -/
inductive ReqKind where
  | part | whole | read | hostStore | hostLoad
deriving DecidableEq, Repr

/-- A request at a controller (R225 to R227): the block, the bits written and which they are, the operation with the unit that
its progress reaches, and the flags and records of those units. A host access has its HBM address in `vaBlock`, its value in
`bits` and its bytes in `unit`. -/
structure Merge where
  block : Nat
  vaBlock : DWord
  bits : Nat
  mask : Nat
  loom : Nat
  op : Nat
  unit : Nat
  flags : BitVec 6
  /-- Element and code of each record (R85). -/
  recs : List (Nat × Nat)
  /-- The pending-table entry that it holds (R226). -/
  entry : Option Nat
  kind : ReqKind := .part
  /-- What a read, once served, has taken: cause 0 and the block's bytes as a number, or the cause that it met (R227). -/
  got : Option (Nat × Nat) := none
deriving DecidableEq, Repr

/-- The package's memories (R188, R210, R213, R219). -/
structure Memories where
  hbm : Mem
  market : Mem
  host : Mem
  /-- Block metadata by HBM block number (R219). -/
  blockMeta : List (Nat × BitVec 8)
  /-- Words in error: true when the error is uncorrectable (R190). -/
  marks : List (ErrAt × Bool)
  /-- Lines held by the L2 slices, the latest used first (R211; log entry 6). -/
  l2 : List L2Line
  /-- Pending tables, 64 entries a controller: keyed 64·controller + entry (R367). -/
  pending : List (Nat × Pending)
  /-- Requests at the controllers in arrival order (R227). -/
  merges : List Merge
deriving DecidableEq, Repr

/-! ## Contexts, launches, the distributor -/

/-- Commands of the context registers still running (R455). -/
inductive CtxCmd where
  | none | switchOut | teardown
deriving DecidableEq, Repr

/-- A context (R348, R455). -/
structure Context where
  root : DWord
  dtab : DWord
  qblock : DWord
  trapv : DWord
  served : Bool
  /-- Decode-table entries other than those of R105's creation rule. -/
  decode : List (Nat × DecEntry)
  cmd : CtxCmd
deriving DecidableEq, Repr

/-- A captured launch record with its heddle map (R316, R317). -/
structure LaunchRec where
  entry : DWord
  gx : Nat
  gy : Nat
  gz : Nat
  wefts : Nat
  allot : Nat
  tickets : Nat
  idem : Bool
  lmem : Nat
  nhed : Nat
  nring : Nat
  stages : List Nat
  expect : Nat
  swap : DWord
  signal : DWord
  hedmap : List DWord
  roles : List Nat
  fmts : List DWord
deriving DecidableEq, Repr

/-- A range of a saved team (R310): its first logical tile, its entry, and its cells when it was working. -/
structure SavedRange where
  first : Nat
  own : Own
  cells : List (Nat × Word)
deriving DecidableEq, Repr

/-- A swapped-out team: what its swap image holds beside the share and the exit status word, which lie in memory
(R424, R429, R430). -/
structure Saved where
  /-- The loom that it was saved from: its board holds the team's entries (R379). -/
  loom : Nat
  team : Team
  wefts : List (Nat × Weft)
  heddles : List Heddle
  arms : List Arm
  tiles : List (Nat × Mem)
  ranges : List SavedRange
  ops : List Op
  frames : List (Nat × Mem)
deriving DecidableEq, Repr

/-- A taken launch (R48, R49, R316, R321, R324). -/
structure Launch where
  queue : Nat
  count : Nat
  ctx : Nat
  lrec : LaunchRec
  total : Nat
  /-- The lowest index never placed nor withdrawn. -/
  next : Nat
  /-- Indices to be placed again from the start, ahead of unplaced teams, with the instructions they have issued since
  their first placement (R426, R428). -/
  again : List (Nat × Nat)
  /-- Unplaced indices returned by a flush of their withdrawer (R324). -/
  returned : List Nat
  swapped : List Saved
  retired : Nat
  /-- The case that refused it (R318); 0: not refused. -/
  refusal : Nat
  signalled : Bool
deriving DecidableEq, Repr

/-- Which team a draw chose (R321). -/
inductive Pick where
  | swapped (id : TeamId)
  | fresh (id : TeamId)
deriving DecidableEq, Repr

/-- The distributor (R320, R324, R63). -/
structure Distributor where
  x : Word
  z : Nat
  waiting : Option Pick
  /-- The queue that has won a draw whose records are still to be taken (R320, R321). -/
  drawn : Option Nat := none
  /-- The loom chosen for pre-emption and its teams (R63). -/
  preempting : Option (Nat × List Nat)
deriving DecidableEq, Repr

/-- Where a mailbox lies (R323, R381): a window offset of a team, a loom-memory offset of a record weft's loom, or nowhere,
once its asker is gone (R388). -/
inductive Mailbox where
  | gone
  | team (id : TeamId) (off : Nat)
  | record (loom slot off : Nat)
deriving DecidableEq, Repr

/-- An unanswered fetchw (R323). -/
structure Fetch where
  loom : Nat
  slot : Nat
  ctx : Nat
  queue : Nat
  count : DWord
  box : Mailbox
deriving DecidableEq, Repr

/-! ## Census (R381, R403) -/

/-- A census slot (R403) with the solicit it serves. -/
structure Census where
  counted : Nat
  answered : Nat
  value : Word
  flags : BitVec 16
  op : Nat
  pkgs : Nat
  asker : Nat
  ctx : Nat
  /-- Some answer carried a value (R387), and for .first the least (node, loom, entry) that did. -/
  got : Bool
  first : Nat × Nat × Nat
  key : DWord
  handler : DWord
  arg : DWord
  allot : Nat
  group : Bool
  box : Mailbox
  /-- The package's own census point has not yet passed. -/
  here : Bool
  /-- Nodes whose answer has not come (R387). -/
  nodes : List Nat
deriving DecidableEq, Repr

/-! ## Fabric (R368, R411, R435 to R450, R465) -/

/-- A packet (R448, R449); `thi` is the block's field of R275. -/
structure Packet where
  op : Nat
  vc : Nat
  dst : Nat
  src : Nat
  hops : Nat
  ctx : Nat
  len : Nat
  cnt : Bool
  addr : DWord
  ctr : DWord
  launch : DWord
  loom : Nat
  tag : BitVec 24
  unit : Nat
  sub : Nat
  cause : Nat
  thi : Nat
  data : List Byte
  /-- The contributor index of a contribution, which stays in its package (R281; log entry 36). -/
  aux : Nat := 0
  /-- The receive port whose slots it holds here, and whether they are of the shared pool (R450). The model's own field. -/
  via : Option (Nat × Bool) := none
deriving DecidableEq, Repr

/-- States of a port (R436). -/
inductive PortState where
  | training | up | offline | retired
deriving DecidableEq, Repr

/-- A fabric port (R437 to R447, R450, R465). -/
structure FabPort where
  state : PortState
  /-- Receive live mask and transmit mask (R444). -/
  live : BitVec 24
  txMask : BitVec 24
  suspect : BitVec 24
  tokens : Nat
  /-- Cycles since the last restore (R411). -/
  timer : Nat
  pnode : BitVec 12
  pport : BitVec 7
  ctlCmd : Nat
  ctlBusy : Bool
  ctlResult : Bool
  /-- Next sequence number to send; flits sent and not acknowledged (R440). -/
  nextSeq : BitVec 16
  unacked : List (BitVec 16 × List Byte)
  resends : Nat
  /-- Numbers of the flits still to be sent again, in order (R442). -/
  toResend : List (BitVec 16)
  expect : BitVec 16
  nakd : Bool
  acceptedAny : Bool
  /-- Flits accepted since the last flit was sent (R440). -/
  unreported : Nat
  /-- Credits held: request and response pools by channel, shared pool (R450). -/
  reqCredits : List Nat
  respCredits : List Nat
  shared : Nat
  /-- Credits to return: pool code (R437), shared flag, slots. -/
  owed : List (Nat × Bool × Nat)
  /-- Slots of each pool, by its code, that packets hold or whose credits are still to be returned (R450; log entry 18). -/
  inUse : List Nat := List.replicate 8 0
  /-- Packets waiting to be sent, in order (R330). -/
  queue : List Packet
  /-- Packets in unacknowledged flits: the flit's number and the packet (R447). -/
  flying : List (BitVec 16 × Packet)
  /-- Payload slots of a packet whose end has not arrived (R448). -/
  partialIn : List (List Byte)
  /-- A control flit with the live mask waits for room among the unacknowledged flits (R440, R441). -/
  maskDue : Bool := false
deriving DecidableEq, Repr

/-- A route change not yet in effect for a channel (R369): node, channel, new entry. -/
structure RouteChange where
  node : Nat
  vc : Nat
  old : BitVec 16
  new : BitVec 16
deriving DecidableEq, Repr

/-- A contribution received, or a partial result (R281, R282). -/
structure Contribution where
  node : Nat
  /-- The contributor index (R281). -/
  loom : Nat
  /-- The loom on which its operation runs, for the completion. -/
  at_ : Nat
  tag : BitVec 24
  unit : Nat
  data : List Byte
  flags : BitVec 6
deriving DecidableEq, Repr

/-- A collective at the gateways (R280 to R282): the attributes of the first contribution to reach the root. -/
structure Collective where
  ctx : Nat
  id : Word
  op : Nat
  def_ : DWord
  /-- E and the route as the first contribution's packet told them (R282; log entry 36). -/
  check : Nat
  elems : Nat
  raddr : DWord
  ctr : DWord
  cnt : Bool
  route : List Byte
  /-- Launch and thi of the first contribution, for a window raddr or ctr (R276). -/
  launch : DWord
  thi : Nat
  got : List Contribution
  done : List Nat
  flags : BitVec 6
deriving DecidableEq, Repr

/-- What the package has handed to the outside (log entry 17): flits of a port, reads answered to the host, the
power-off request of R464. -/
inductive Out where
  | flit (port : Nat) (bytes : List Byte)
  | hostData (v : DWord)
  | powerOffRequest
deriving DecidableEq, Repr

/-- The fabric gateways (R276, R281, R368, R369, R448). -/
structure Fabric where
  ports : List (Nat × FabPort)
  /-- Route table (R368); entries not listed are zero. -/
  route : List (Nat × BitVec 16)
  changes : List RouteChange
  /-- Packets held for a route change (R369). -/
  waiting : List Packet
  /-- Packets delivered to this package, not yet performed, in arrival order (R278). -/
  inbound : List Packet
  /-- Operations whose later units this destination refuses: source node, loom, tag (R276). -/
  refusing : List (Nat × Nat × BitVec 24)
  collectives : List Collective
  nextTag : BitVec 24
  tlb : List (Nat × List Tlb)
deriving DecidableEq, Repr

/-! ## Management (R462 to R466) -/

/-- The event queue block (R339). -/
structure Evq where
  ebase : DWord
  elog : Nat
  ep : DWord
  hc : DWord
  fc : DWord
  el : Word
deriving DecidableEq, Repr

/-- The settings of R466. -/
structure Settings where
  seed : Word
  qlog : Nat
  drain : Nat
  scrub : Nat
  sampleBase : DWord
  sampleSize : DWord
deriving DecidableEq, Repr

/-- A budget register (R409), and the budget of the present period (R410): an instance's remaining count is this less
its busy cycles of the period. -/
structure Budget where
  budget : Nat
  floor : Nat
  now : Nat
deriving DecidableEq, Repr

/-- The attestation mailbox (R460, R462). -/
structure Attest where
  nonce : BitVec 256
  command : Nat
  status : Nat
  report : List Byte
  signature : List Byte
  certificate : List Byte
deriving DecidableEq, Repr

/-- The management registers and the firmwares' state (R456 to R466). -/
structure Mgmt where
  stage : Nat
  fail : Bool
  reason : Nat
  svn : Nat
  rstreq : BitVec 16
  plim : Nat
  tlim : Nat
  pw : Nat
  wh : Nat
  trip : Bool
  tmax : Nat
  temps : List (BitVec 12)
  flow : Bool
  leak : Bool
  settings : Settings
  budgets : List Budget
  /-- Busy cycles of this period of instances outside the looms, keyed 256·activity + instance (R410). -/
  used : List (Nat × Nat)
  evq : Evq
  /-- Error counters of the base dies, keyed 1024·die + number (R412). -/
  errors : List (Nat × Word)
  attest : Attest
  m0 : BitVec 512
  m1 : BitVec 512
  m2 : BitVec 512
  portRecord : BitVec 96
  ctxDesc : CtxDesc
  ctxCommand : Nat
  ctxStatus : Nat
  ctxSubject : Nat
  inspect : DWord
  invCtx : Nat
  invMode : Nat
  invVa : DWord
  invCount : Word
  invBusy : List Nat
  linkUp : Bool
  powered : Bool
  /-- Samples taken of event counters so far (R408). -/
  samples : Nat
  scrubAt : Nat
deriving DecidableEq, Repr

/-- An invalidation in flight (R362, R363). -/
structure Inv where
  id : Nat
  ctx : Nat
  mode : TlbMode
  va : DWord
  count : Word
deriving DecidableEq, Repr

/-- One turn of the agenda (log entry 1): a quadrant of a loom issues (R44), or a step of the device or an input of the
outside comes. -/
inductive Turn where
  | issue (loom quadrant : Nat)
  | event (i : Instr)
deriving DecidableEq, Repr

/-- The state of the package. -/
structure State where
  clock : DWord
  node : BitVec 12
  looms : List (Nat × Loom)
  mem : Memories
  contexts : List (Nat × Context)
  /-- Base of the queue control blocks in HBM; 0 until the service firmware places them (R314, log entry 20). -/
  qbase : DWord
  launches : List Launch
  dist : Distributor
  fetches : List Fetch
  census : List (Nat × Census)
  fabric : Fabric
  bankArms : List (Nat × Arm)
  dieCounters : List (Nat × EvCounter)
  invs : List Inv
  mgmt : Mgmt
  /-- The model's own fields (log entries 1, 10, 14, 17). -/
  agenda : List Turn
  turn : Nat
  cur : Option Issue
  fresh : Nat
  outbox : List Out
deriving DecidableEq, Repr

/-- Where a run stops. -/
inductive Fault where
  /-- exec was asked for the meaning of an instruction while no weft is issuing (`State.cur` is none or names no
  weft). Raised by the shared issue of Machine/Issue.lean; never by `step`, which sets `cur`. Safe: the model stops. -/
  | noIssuingWeft
deriving DecidableEq, Repr

/-- Why an instruction has no meaning. -/
inductive Refusal where
  /-- The instruction, by its mnemonic in the opcode table, has no meaning yet. Raised by Machine/Dispatch.lean. Safe:
  the model stops. -/
  | notModelled (mnemonic : String)
deriving DecidableEq, Repr

/-! ## Reset -/

/-- A loom after device reset (log entries 7, 25). -/
def Loom.reset : Loom :=
  { mem := [], wefts := [], teams := [], operand := [], cells := [], owners := [], heddles := [], board := [],
    spawns := [], ready := [], copyQ := [], gathQ := [], matQ := [], bankQ := [], fabQ := [], ranges := [],
    icache := [], ifills := [], l1 := [], arms := [], counters := [], last := [1023, 1023, 1023, 1023],
    growers := [], tlbCore := [], tlbCopy := [], errors := [], copyUsed := 0, swapUsed := 0 }

/-- The memories after device reset (log entry 4). -/
def Memories.reset : Memories :=
  { hbm := [], market := [], host := [], blockMeta := [], marks := [], l2 := [], pending := [], merges := [] }

/-- The fabric after device reset: the route table is zero (R370). -/
def Fabric.reset : Fabric :=
  { ports := [], route := [], changes := [], waiting := [], inbound := [], refusing := [], collectives := [], nextTag := 0, tlb := [] }

/-- A port not listed: training, no light, 8 tokens, full credits (R411, R450, R465; log entry 18). -/
def FabPort.reset : FabPort :=
  { state := .training, live := 0, txMask := 0, suspect := 0, tokens := 8, timer := 0, pnode := 0, pport := 0,
    ctlCmd := 0, ctlBusy := false, ctlResult := false, nextSeq := 0, unacked := [], resends := 0, toResend := [],
    expect := 0, nakd := false, unreported := 0,
    acceptedAny := false, reqCredits := [352, 352, 352, 352], respCredits := [352, 352, 352, 352], shared := 5632,
    owed := [], queue := [], flying := [], partialIn := [] }

/-- The management registers after device reset (R409, R463, R464, R466; log entries 16, 20, 21). -/
def Mgmt.reset : Mgmt :=
  { stage := 1, fail := false, reason := 0, svn := 0, rstreq := 0, plim := 3800, tlim := 100, pw := 0, wh := 0,
    trip := false, tmax := 0, temps := [0, 0, 0, 0], flow := false, leak := false,
    settings := { seed := 1, qlog := 22, drain := 2 ^ 16, scrub := 2 ^ 24, sampleBase := 0, sampleSize := 0 },
    budgets := List.replicate 7 { budget := 8192, floor := 0, now := 8192 }, used := [],
    evq := { ebase := 0, elog := 0, ep := 0, hc := 0, fc := 0, el := 0 }, errors := [],
    attest := { nonce := 0, command := 0, status := 0, report := [], signature := [], certificate := [] },
    m0 := 0, m1 := 0, m2 := 0, portRecord := 0,
    ctxDesc := { num := 0, root := 0, dtab := 0, qblock := 0, trapv := 0, image := none },
    ctxCommand := 0, ctxStatus := 0, ctxSubject := 0, inspect := 0, invCtx := 0, invMode := 0, invVa := 0,
    invCount := 0, invBusy := [], linkUp := false, powered := true, samples := 0, scrubAt := 0 }

/-- The machine right after reset: stage 1 of R31, every memory and table at its reset value. -/
def State.reset : State :=
  { clock := 0, node := 0, looms := [], mem := Memories.reset, contexts := [], qbase := 0, launches := [],
    dist := { x := 1, z := 63, waiting := none, preempting := none }, fetches := [], census := [],
    fabric := Fabric.reset, bankArms := [], dieCounters := [], invs := [], mgmt := Mgmt.reset,
    agenda := [], turn := 0, cur := none, fresh := 0, outbox := [] }

end Sys2Proof.Machine
end

