-- ==== Sys2Proof/Machine/SMap.lean ====
section
/-! DEFINITION. Sparse maps with rising keys, and byte memories in their one canonical form. -/

namespace Sys2Proof.Machine

/-- The value listed for a key. -/
def SMap.find? {α : Type} : List (Nat × α) → Nat → Option α
  | [], _ => none
  | (k', v) :: t, k => if k' = k then some v else SMap.find? t k

/-- The value of a key, `d` where none is listed. -/
def SMap.getD {α : Type} (m : List (Nat × α)) (k : Nat) (d : α) : α := (SMap.find? m k).getD d

/-- List a value for a key, at the key's place. -/
def SMap.put {α : Type} : List (Nat × α) → Nat → α → List (Nat × α)
  | [], k, v => [(k, v)]
  | (k', v') :: t, k, v =>
    if k < k' then (k, v) :: (k', v') :: t
    else if k = k' then (k, v) :: t
    else (k', v') :: SMap.put t k v

/-- List nothing for a key. -/
def SMap.del {α : Type} : List (Nat × α) → Nat → List (Nat × α)
  | [], _ => []
  | (k', v) :: t, k => if k' = k then SMap.del t k else (k', v) :: SMap.del t k

/-- Write a value, listing nothing where it is the default. -/
def SMap.set {α : Type} [DecidableEq α] (m : List (Nat × α)) (d : α) (k : Nat) (v : α) : List (Nat × α) :=
  if v = d then SMap.del m k else SMap.put m k v

/-- Keys strictly rising. -/
def SMap.rising {α : Type} : List (Nat × α) → Bool
  | [] => true
  | [_] => true
  | (k, _) :: (k', v') :: t => k < k' && SMap.rising ((k', v') :: t)

/-- Drop the keys of an interval. -/
def SMap.dropRange {α : Type} (m : List (Nat × α)) (lo hi : Nat) : List (Nat × α) :=
  m.filter fun p => !(lo ≤ p.1 && p.1 < hi)

/-- The keys of an interval, moved down by `lo`. -/
def SMap.slice {α : Type} (m : List (Nat × α)) (lo hi : Nat) : List (Nat × α) :=
  (m.filter fun p => lo ≤ p.1 && p.1 < hi).map fun p => (p.1 - lo, p.2)

/-- Canonical form of a memory: addresses rising, and no zero byte listed (an unlisted byte reads zero, log entry 4). -/
def Memory.wf (m : Mem) : Bool := SMap.rising m && m.all fun c => c.2 != 0

/-- The byte at an address. -/
def Memory.read (m : Mem) (a : Nat) : Byte := SMap.getD m a 0

/-- Write one byte. -/
def Memory.write (m : Mem) (a : Nat) (b : Byte) : Mem := SMap.set m 0 a b

/-- n bytes from an address, as a list. -/
def Memory.readBytes (m : Mem) (a n : Nat) : List Byte := (List.range n).map fun i => Memory.read m (a + i)

/-- Bytes written from an address on. -/
def Memory.writeBytes : Mem → Nat → List Byte → Mem
  | m, _, [] => m
  | m, a, b :: t => Memory.writeBytes (Memory.write m a b) (a + 1) t

/-- Zero n bytes from an address on. -/
def Memory.zero (m : Mem) (a n : Nat) : Mem := SMap.dropRange m a (a + n)

/-- The little-endian value of bytes (R5). -/
def leValue : List Byte → Nat
  | [] => 0
  | b :: t => b.toNat + 256 * leValue t

/-- The n little-endian bytes of a value (R5). -/
def leBytes : Nat → Nat → List Byte
  | 0, _ => []
  | n + 1, v => BitVec.ofNat 8 (v % 256) :: leBytes n (v / 256)

/-- The n-byte little-endian value at an address. -/
def Memory.readLe (m : Mem) (a n : Nat) : Nat := leValue (Memory.readBytes m a n)

/-- Write an n-byte little-endian value. -/
def Memory.writeLe (m : Mem) (a n v : Nat) : Mem := Memory.writeBytes m a (leBytes n v)

/-- Replace the element of a list at an index. -/
def setAt {α : Type} (l : List α) (i : Nat) (v : α) : List α := l.set i v

/-- Apply a function to the element of a list at an index. -/
def modAt {α : Type} (l : List α) (i : Nat) (f : α → α) : List α := l.modify i f

end Sys2Proof.Machine
end

