-- ==== Sys2Proof/Machine/Ops.lean ====
section
/-! DEFINITION. The named operations over the state: looms, wefts, teams, registers, the frontier, event counters and
event records, loom-memory allotment, and taking a trap and returning from one (02, 05, 12 R339, 15 R404, 16). -/

namespace Sys2Proof.Machine

/-! ## Looms, wefts, teams -/

/-- The loom of an index. -/
def State.loom (s : State) (l : Nat) : Loom := SMap.getD s.looms l Loom.reset
def State.setLoom (s : State) (l : Nat) (x : Loom) : State := { s with looms := SMap.put s.looms l x }
def State.modLoom (s : State) (l : Nat) (f : Loom → Loom) : State := s.setLoom l (f (s.loom l))
/-- The weft in a slot. -/
def State.weft? (s : State) (l k : Nat) : Option Weft := SMap.find? (s.loom l).wefts k
def State.setWeft (s : State) (l k : Nat) (w : Weft) : State :=
  s.modLoom l fun x => { x with wefts := SMap.put x.wefts k w }
def State.modWeft (s : State) (l k : Nat) (f : Weft → Weft) : State :=
  match s.weft? l k with
  | none => s
  | some w => s.setWeft l k (f w)
/-- The team of a handle. -/
def State.team? (s : State) (l h : Nat) : Option Team := SMap.find? (s.loom l).teams h
def State.modTeam (s : State) (l h : Nat) (f : Team → Team) : State :=
  s.modLoom l fun x =>
    match SMap.find? x.teams h with
    | none => x
    | some t => { x with teams := SMap.put x.teams h (f t) }
/-- The team of a weft. -/
def State.teamOf (s : State) (l : Nat) (w : Weft) : Option Team := w.team.bind (s.team? l)
/-- The context of a number (R455). -/
def State.context? (s : State) (c : Nat) : Option Context := SMap.find? s.contexts c
/-- A context's queues are served, and its records and responders are started (R455). -/
def State.serves (s : State) (c : Nat) : Bool :=
  match s.context? c with
  | none => false
  | some x => x.served
/-- Where a team is placed: loom and handle. -/
def State.findTeam (s : State) (id : TeamId) : Option (Nat × Nat) :=
  s.looms.findSome? fun p => (p.2.teams.find? fun t => t.2.id == id).map fun t => (p.1, t.1)

/-! ## Registers (R101, R118 to R120, R335) -/

/-- Key of a register word. -/
def regKey (r : Reg) (i : Nat) : Nat := 32 * r.toNat + i

/-- The stored word of a register lane. -/
def Weft.raw (w : Weft) (r : Reg) (i : Nat) : Word := SMap.getD w.regs (regKey r i) 0

/-- Lane(r, i) as an operand: v255 reads zero (R101); while a port is mapped vS reads zero and vR reads the port's
oldest flit (R335). -/
def Weft.lane (w : Weft) (r : Reg) (i : Nat) : Word :=
  if r = 255 then 0
  else
    match w.port with
    | none => w.raw r i
    | some p =>
      if r = p.s then 0
      else if r = p.r then (p.flits.head?.getD []).getD i 0
      else w.raw r i

/-- Pair(r, i) (R98, R120): the odd register above an even one; v254:v255 has a zero high word. -/
def Weft.pair (w : Weft) (r : Reg) (i : Nat) : DWord := w.lane (r + 1) i ++ w.lane r i

/-- Write one register lane: v255 discards (R101), vR discards (R335); a write clears poison (R119). -/
def Weft.setLane (w : Weft) (r : Reg) (i : Nat) (v : Word) : Weft :=
  if r = 255 then w
  else if (match w.port with | some p => r == p.r | none => false) then w
  else
    { w with regs := SMap.set w.regs 0 (regKey r i) v, poison := SMap.del w.poison (regKey r i),
             soft := w.soft.filter (· != regKey r i) }

/-- Write a register pair in one lane (R120). -/
def Weft.setPair (w : Weft) (r : Reg) (i : Nat) (v : DWord) : Weft :=
  (w.setLane r i (v.extractLsb' 0 32)).setLane (r + 1) i (v.extractLsb' 32 32)

/-- The lanes of a mask, ascending. -/
def lanesOf (m : Word) : List Nat := (List.range 32).filter fun i => m.getLsbD i

/-- The lowest lane of a mask (R57). -/
def lowestLane (m : Word) : Nat := ((List.range 32).find? fun i => m.getLsbD i).getD 0

/-- Write a register in the lanes of a mask. -/
def Weft.writeLanes (w : Weft) (m : Word) (r : Reg) (f : Nat → Word) : Weft :=
  (lanesOf m).foldl (fun w i => w.setLane r i (f i)) w

/-- Write a register pair in the lanes of a mask. -/
def Weft.writePairs (w : Weft) (m : Word) (r : Reg) (f : Nat → DWord) : Weft :=
  (lanesOf m).foldl (fun w i => w.setPair r i (f i)) w

/-- The mask of the lanes that satisfy a test. -/
def maskOf (p : Nat → Bool) : Word :=
  BitVec.ofNat 32 ((List.range 32).foldl (fun acc i => if p i then acc + 2 ^ i else acc) 0)

/-- active(i) of R137: the entry's mask after the guard (R94). -/
def Weft.active (w : Weft) (h : Guard) (mask : Word) : Word :=
  if h.g = 255 then mask else mask &&& maskOf fun i => (w.lane h.g i).getLsbD 0 != h.gn

/-- The definition that slot n holds (R66). -/
def Weft.fmt (w : Weft) (n : BitVec 4) : DWord := if n = 0 then binary32 else SMap.getD w.fmts n.toNat binary32

/-- A register at or above the allotment, v255 apart (R101). -/
def Weft.outOfRange (w : Weft) (r : Reg) : Bool := r != 255 && r.toNat ≥ w.allot

/-- Blocks of ⌈A/8⌉ (R46). -/
def blocksOf (allot : Nat) : Nat := (allot + 7) / 8

/-! ## Outstanding-operation counters (R393) -/

def Oc.get (o : Oc) : OcClass → Nat
  | .copy => o.copy | .mat => o.mat | .gath => o.gath | .bank => o.bank | .fab => o.fab
def Oc.set (o : Oc) (c : OcClass) (n : Nat) : Oc :=
  match c with
  | .copy => { o with copy := n } | .mat => { o with mat := n } | .gath => { o with gath := n }
  | .bank => { o with bank := n } | .fab => { o with fab := n }
/-- The counters as the frame holds them, 6 bits each (R419). -/
def Oc.bits (o : Oc) : Nat :=
  o.copy % 64 + 64 * (o.mat % 64) + 4096 * (o.gath % 64) + 262144 * (o.bank % 64) + 16777216 * (o.fab % 64)

/-- A loom's command queue (R329). -/
def Loom.queue (l : Loom) : OcClass → List Op
  | .copy => l.copyQ | .mat => l.matQ | .gath => l.gathQ | .bank => l.bankQ | .fab => l.fabQ
def Loom.setQueue (l : Loom) (c : OcClass) (q : List Op) : Loom :=
  match c with
  | .copy => { l with copyQ := q } | .mat => { l with matQ := q } | .gath => { l with gathQ := q }
  | .bank => { l with bankQ := q } | .fab => { l with fabQ := q }
def allClasses : List OcClass := [.copy, .mat, .gath, .bank, .fab]
/-- Every operation in a loom's engines. -/
def Loom.ops (l : Loom) : List (OcClass × Op) := allClasses.flatMap fun c => (l.queue c).map fun o => (c, o)
/-- The operations of one weft. -/
def Loom.opsOf (l : Loom) (k : Nat) : List (OcClass × Op) := l.ops.filter fun p => p.2.slot == k

/-! ## The frontier (R36 to R42) -/

def Entry.starving (e : Entry) : Bool := e.age ≥ Config.starvingAge

/-- Entry order (R36, R42): starving entries first by age, then frontier order. -/
def Entry.before (a b : Entry) : Bool :=
  if a.starving != b.starving then a.starving
  else if a.starving then a.age > b.age || (a.age == b.age && a.pc < b.pc)
  else a.prio > b.prio || (a.prio == b.prio && a.pc < b.pc)

/-- The first entry in entry order. -/
def firstEntry : List Entry → Option Entry
  | [] => none
  | e :: t =>
    match firstEntry t with
    | none => some e
    | some f => if f.before e then some f else some e

/-- The last entry in entry order. -/
def lastEntry : List Entry → Option Entry
  | [] => none
  | e :: t =>
    match lastEntry t with
    | none => some e
    | some f => if e.before f then some f else some e

/-- Two entries of one PC merge: union of masks, larger priority, larger age (R39). -/
def Entry.merge (a b : Entry) : Entry :=
  { pc := a.pc, mask := a.mask ||| b.mask, prio := if a.prio < b.prio then b.prio else a.prio,
    age := max a.age b.age }

/-- Add an entry to the held ones, merging by R39; an empty mask forms no entry. -/
def addEntry (held : List Entry) (e : Entry) : List Entry :=
  if e.mask = 0 then held
  else if held.any (fun x => x.pc == e.pc) then held.map fun x => if x.pc == e.pc then x.merge e else x
  else e :: held

def removeEntry (held : List Entry) (pc : DWord) : List Entry := held.filter fun x => x.pc != pc

/-- Replace the entry at a PC by the entries given (R38, R155). -/
def Weft.replaceEntry (w : Weft) (pc : DWord) (es : List Entry) : Weft :=
  { w with held := es.foldl addEntry (removeEntry w.held pc) }

/-- Every lane in some entry. -/
def Weft.liveLanes (w : Weft) : Word := (w.held ++ w.spilled).foldl (fun m e => m ||| e.mask) 0

/-- R40 is not met: too many held, a free place with entries spilled, or a spilled entry ahead of a held one. -/
def Weft.needsSpill (w : Weft) : Bool :=
  w.held.length > Config.heldEntries
  || (!w.spilled.isEmpty && w.held.length < Config.heldEntries)
  || (match firstEntry w.spilled, lastEntry w.held with
      | some a, some b => a.before b
      | _, _ => false)

/-- One move of R40: the last held entry goes out, or the first spilled one comes in, merging by R39. -/
def Weft.spillMove (w : Weft) : Weft :=
  if w.held.length > Config.heldEntries then
    match lastEntry w.held with
    | none => w
    | some e => { w with held := removeEntry w.held e.pc, spilled := e :: w.spilled }
  else
    match firstEntry w.spilled with
    | none => w
    | some e => { w with held := addEntry w.held e, spilled := w.spilled.filter (· != e) }

/-- Moves until R40 holds, and the number of entries spilled. -/
def Weft.settleFrontier : Nat → Weft → Nat → Weft × Nat
  | 0, w, n => (w, n)
  | k + 1, w, n =>
    if w.needsSpill then
      Weft.settleFrontier k w.spillMove (if w.held.length > Config.heldEntries then n + 1 else n)
    else (w, n)

/-- An entry advanced over an instruction: PC + 8, age 0 (R38). -/
def Entry.advance (e : Entry) : Entry := { e with pc := e.pc + 8, age := 0 }

/-- The entry at a PC advances and merges (R38, R39). -/
def Weft.advance (w : Weft) (pc : DWord) : Weft :=
  match w.held.find? fun e => e.pc == pc with
  | none => w
  | some e => w.replaceEntry pc [e.advance]

/-- The entry at a PC advances at the end of a wait that its instruction has spent issued: its age runs on (R42, R342). No
entry moves to the spill area meanwhile, since R40 moves entries only before an issue. -/
def Weft.finish (w : Weft) (pc : DWord) : Weft :=
  match w.held.find? fun e => e.pc == pc with
  | none => w
  | some e => w.replaceEntry pc [{ e with pc := e.pc + 8 }]

/-- The entry at a PC has issued and waits: its age is 0 (R38). -/
def Weft.issued (w : Weft) (pc : DWord) : Weft :=
  { w with held := w.held.map fun e => if e.pc = pc then { e with age := 0 } else e, awaited := none }

/-! ## Event counters (R404, R405) -/

/-- Sources marked per-context (R405). -/
def perContext (src : Nat) : Bool :=
  [0x03, 0x04, 0x06, 0x07, 0x08, 0x09, 0x0A, 0x0B, 0x0C, 0x0D, 0x0E, 0x0F, 0x10, 0x11, 0x12].contains src

/-- Count an event in the counters of a table. -/
def bumpCounters (cs : List (Nat × EvCounter)) (sel : Nat → Bool) (src ctx n : Nat) : List (Nat × EvCounter) :=
  cs.map fun p =>
    if sel p.1 && p.2.src.toNat == src && (!perContext src || p.2.all || p.2.ctx == ctx) then
      (p.1, { p.2 with count := p.2.count + BitVec.ofNat 48 n })
    else p

/-- Count n events of a loom source. -/
def State.countLoom (s : State) (l src ctx n : Nat) : State :=
  if (s.loom l).counters.isEmpty then s
  else s.modLoom l fun x => { x with counters := bumpCounters x.counters (fun _ => true) src ctx n }

/-- Count n events of a die source: die counters are keyed 16·die + counter. -/
def State.countDie (s : State) (die src n : Nat) : State :=
  { s with dieCounters := bumpCounters s.dieCounters (fun k => k / 16 == die) src 0 n }

/-- A transfer of n bytes from die i to die j crosses gateways (i, j) and (j, i): its flits count on die i (R17, R405). The
manual gives no size of such a flit: the number of flits of a transfer is a free value (log entry 24). -/
def State.crossDies (s : State) (i j n : Nat) : State := if i = j then s else s.countDie i 0x46 (Config.gatewayFlits n)

/-- The die of a loom (R14). -/
def dieOf (loom : Nat) : Nat := loom / 48

/-- Error counters: add one, saturating (R412). -/
def bumpError (es : List (Nat × Word)) (k : Nat) : List (Nat × Word) :=
  let v := SMap.getD es k 0
  SMap.put es k (if v = 0xFFFFFFFF then v else v + 1)
def State.loomError (s : State) (l k : Nat) : State := s.modLoom l fun x => { x with errors := bumpError x.errors k }
def State.dieError (s : State) (die k : Nat) : State :=
  { s with mgmt := { s.mgmt with errors := bumpError s.mgmt.errors (1024 * die + k) } }

/-! ## Memories by space -/

/-- The bytes of a physical space. -/
def Memories.of (m : Memories) : Space → Mem
  | .hbm => m.hbm | .market => m.market | .host => m.host
def Memories.setOf (m : Memories) (sp : Space) (x : Mem) : Memories :=
  match sp with
  | .hbm => { m with hbm := x } | .market => { m with market := x } | .host => { m with host := x }
/-- Bytes of a space (R188). -/
def Space.bytes : Space → Nat
  | .hbm => Config.hbmBytes | .market => Config.marketBytes | .host => Config.hostBytes
def State.modMem (s : State) (f : Memories → Memories) : State := { s with mem := f s.mem }
def State.readPhys (s : State) (sp : Space) (a : Nat) : Byte := Memory.read (s.mem.of sp) a
def State.writePhys (s : State) (sp : Space) (a : Nat) (b : Byte) : State :=
  s.modMem fun m => m.setOf sp (Memory.write (m.of sp) a b)
def State.readPhysLe (s : State) (sp : Space) (a n : Nat) : Nat := Memory.readLe (s.mem.of sp) a n
def State.writePhysLe (s : State) (sp : Space) (a n v : Nat) : State :=
  s.modMem fun m => m.setOf sp (Memory.writeLe (m.of sp) a n v)
/-- Bytes of a loom's memory. -/
def State.readLm (s : State) (l a : Nat) : Byte := Memory.read (s.loom l).mem a
def State.modLm (s : State) (l : Nat) (f : Mem → Mem) : State := s.modLoom l fun x => { x with mem := f x.mem }
def State.writeLm (s : State) (l a : Nat) (b : Byte) : State := s.modLm l fun m => Memory.write m a b

/-! ## Error marks (R190, R193, R200, R211, R215; log entry 32) -/

/-- The 8-byte word of loom or market memory, or the 128-byte line of HBM or host memory, that a byte lies in. -/
def markOf (sp : Space) (a : Nat) : ErrAt := .phys sp (if sp = .market then a / 8 else a / 128)
def Memories.markAt (m : Memories) (e : ErrAt) : Option Bool := (m.marks.find? fun p => p.1 == e).map (·.2)
def Memories.hard (m : Memories) (e : ErrAt) : Bool := m.markAt e == some true
def Memories.clearMark (m : Memories) (e : ErrAt) : Memories := { m with marks := m.marks.filter fun p => p.1 != e }
def Memories.setMark (m : Memories) (e : ErrAt) (h : Bool) : Memories :=
  { m with marks := (e, h) :: m.marks.filter fun p => p.1 != e }

/-! ## Event records (R339) -/

def Evq.size (q : Evq) : Nat := 2 ^ q.elog

/-- Append an event record, or count it lost (R339); host memory takes it while the link is up (R454). -/
def State.eventRecord (s : State) (kind src ctx : Nat) (d0 d1 : DWord) : State :=
  let q := s.mgmt.evq
  let low := if q.hc < q.fc then q.hc else q.fc
  if q.elog = 0 ∨ (q.ep - low).toNat ≥ q.size ∨ !s.mgmt.linkUp then
    { s with mgmt := { s.mgmt with evq := { q with el := if q.el = 0xFFFFFFFF then q.el else q.el + 1 } } }
  else
    let base := (q.ebase.toNat / 32 * 32 + 32 * (q.ep.toNat % q.size)) % Config.hostBytes
    let lo := kind % 256 + 256 * (src % 256) + 65536 * (ctx % 65536) + 2 ^ 32 * (q.ep.toNat % 2 ^ 32)
    let bytes := leBytes 8 lo ++ leBytes 8 s.clock.toNat ++ leBytes 8 d0.toNat ++ leBytes 8 d1.toNat
    let s' := s.modMem fun m => { m with host := Memory.writeBytes m.host base bytes }
    { s' with mgmt := { s'.mgmt with evq := { q with ep := q.ep + 1 } } }

/-! ## Loom-memory allotment (R46, R191, R192, R417) -/

/-- The runs that holders have in a loom's memory: shares, spill areas, frames (R192). -/
def Loom.runs (l : Loom) : List (Nat × Nat) :=
  (l.teams.map fun t => (t.2.shareBase, t.2.shareSize))
  ++ (l.wefts.map fun w => (w.2.spillBase, 256))
  ++ l.wefts.filterMap fun w => w.2.frame.map fun b => (b, Config.frameBytes)

/-- A run overlaps none of the holders. -/
def runFree (runs : List (Nat × Nat)) (base size : Nat) : Bool :=
  runs.all fun r => r.2 == 0 || base + size ≤ r.1 || r.1 + r.2 ≤ base


/-- Insert into a list sorted by a relation. -/
def insertBy {α : Type} (le : α → α → Bool) (x : α) : List α → List α
  | [] => [x]
  | y :: t => if le x y then x :: y :: t else y :: insertBy le x t

/-- Insertion sort: structural, so that the kernel evaluates it; stable. -/
def sortBy {α : Type} (le : α → α → Bool) : List α → List α
  | [] => []
  | x :: t => insertBy le x (sortBy le t)

/-- Where a free 256-byte aligned run may begin, lowest first: at 0 or where a holder ends (R191, R192: no result depends on
the choice). -/
def runStarts (runs : List (Nat × Nat)) (size : Nat) : List Nat :=
  sortBy (fun a b => a ≤ b) ((0 :: runs.map fun r => (r.1 + r.2 + 255) / 256 * 256).filter fun b =>
    b + size ≤ Config.loomMemoryBytes && runFree runs b size)

/-- The lowest free run. -/
def findRun (runs : List (Nat × Nat)) (size : Nat) : Option Nat := (runStarts runs size).head?

/-! ## Trap frames (R419) and the entry layout (R132) -/

/-- The 16 bytes of a frontier entry (R132): its reserved bits are zero. -/
def Entry.bytes (e : Entry) : List Byte :=
  leBytes 8 e.pc.toNat ++ leBytes 8 (e.mask.toNat + 2 ^ 32 * e.prio.toNat + 2 ^ 44 * (min e.age Config.maxAge))

/-- A frontier entry from its 16 bytes. -/
def Entry.ofBytes (b : List Byte) : Entry :=
  let x := leValue b
  { pc := BitVec.ofNat 64 x, mask := BitVec.ofNat 32 (x / 2 ^ 64), prio := BitVec.ofNat 12 (x / 2 ^ 96),
    age := x / 2 ^ 108 % 2 ^ 17 }

/-- Entries in frontier order (R36), as the frame lists them (R417). -/
def frontierOrder (es : List Entry) : List Entry :=
  sortBy (fun a b => a.prio > b.prio || (a.prio == b.prio && a.pc ≤ b.pc)) es

/-- One replay entry of 512 bytes (R420). -/
def Faulted.bytes (f : Faulted) (cls : OcClass) : List Byte :=
  let o := f.op
  let w2 := f.cause % 256 + 256 * cls.code + 2048 * (o.lane % 32) + (if f.report then 65536 else 0)
    + 2 ^ 32 * (f.index % 2 ^ 32)
  let defs := (List.range 8).map fun i => leBytes 8 (o.defs.getD i 0).toNat
  let recs := (List.range 3).map fun i => leBytes 104 ((o.recs.getD i 0).toNat)
  leBytes 8 o.word.toNat ++ leBytes 8 o.pc.toNat ++ leBytes 8 w2 ++ leBytes 8 o.opa.toNat ++ leBytes 8 o.opb.toNat
    ++ leBytes 8 o.opc.toNat ++ leBytes 16 o.mask.toNat ++ defs.flatten ++ leBytes 64 o.block.toNat ++ recs.flatten
    ++ leBytes 8 0

/-- The class of an operation by its instruction (R263, R287, R378). -/
def engineOf : Instr → Option OcClass
  | .copy .. | .sbMove .. => some .copy
  | .gather .. | .scatter .. | .cmpst .. | .expld .. => some .gath
  | .xput .. | .xget .. | .xatom .. | .xred .. => some .fab
  | .bankop .. => some .bank
  | .mma .. | .mmaSp .. | .mmaDy .. | .delta .. | .aspill .. | .afill .. | .ascale .. | .acvt .. => some .mat
  | _ => none

def Op.cls (o : Op) : OcClass := (engineOf o.instr).getD .copy

/-- The header word that holds fcount and rcount is at byte 24. -/
def frameCounts (fcount rcount oc : Nat) : Nat := fcount % 64 + 64 * (rcount % 16) + 65536 * oc

/-- rcount of a frame. -/
def State.rcount (s : State) (l b : Nat) : Nat := Memory.readLe (s.loom l).mem (b + 24) 8 / 64 % 16
def State.fcount (s : State) (l b : Nat) : Nat := Memory.readLe (s.loom l).mem (b + 24) 8 % 64

/-- Put a replay entry at an index of a frame. -/
def State.putReplay (s : State) (l b i : Nat) (f : Faulted) : State :=
  s.modLm l fun m => Memory.writeBytes m (b + 1024 + 512 * i) (f.bytes f.op.cls)

/-- Set rcount of a frame. -/
def State.setRcount (s : State) (l b n : Nat) : State :=
  s.modLm l fun m =>
    let x := Memory.readLe m (b + 24) 8
    Memory.writeLe m (b + 24) 8 (x - x / 64 % 16 * 64 + n % 16 * 64)

/-- Faulted operations enter the replay queue while it has fewer than 8 entries, in the order of their faults
(R420). -/
def State.fillReplay : Nat → State → Nat → Nat → State
  | 0, s, _, _ => s
  | k + 1, s, l, slot =>
    match s.weft? l slot with
    | none => s
    | some w =>
      match w.frame, w.faulted with
      | some b, f :: rest =>
        let n := s.rcount l b
        if n < 8 then
          State.fillReplay k
            (((s.putReplay l b n f).setRcount l b (n + 1)).setWeft l slot
              { w with faulted := rest, replay := w.replay ++ [f.op] }) l slot
        else s
      | _, _ => s

/-! ## Taking a trap (R417) -/

/-- What the frame says of the trap: the precise cause, or none for an asynchronous one (R416, R419). -/
structure TrapHead where
  pc : DWord
  cause : Nat
  code : Nat
  async : Bool
  lane : Nat
  index : Nat
  detail : DWord

/-- The header and frontier of a frame (R419), bytes 0 to 1,023; the replay entries follow. -/
def frameHeader (h : TrapHead) (es : List Entry) (oc : Nat) : List Byte :=
  leBytes 8 h.pc.toNat
    ++ leBytes 8 (h.cause % 256 + 256 * (h.code % 256) + (if h.async then 65536 else 0) + 2 ^ 17 * (h.lane % 32)
        + 2 ^ 32 * (h.index % 2 ^ 32))
    ++ leBytes 8 h.detail.toNat ++ leBytes 8 (frameCounts es.length 0 oc)

/-- Enter the handler with a frame at loom-memory offset `b`: R417 steps 3 and 4. -/
def State.enterTrap (s : State) (l slot b : Nat) (h : TrapHead) (vector : DWord) : State :=
  match s.weft? l slot with
  | none => s
  | some w =>
    let es := frontierOrder (w.held ++ w.spilled)
    let lanes := w.liveLanes
    let mem := Memory.zero (s.loom l).mem b Config.frameBytes
    let mem := Memory.writeBytes mem b (frameHeader h es w.oc.bits)
    let mem := Memory.writeBytes mem (b + 256) (es.map Entry.bytes).flatten
    let w' := { w with
      sv := true, frame := some b, frameLanes := lanes, trap := none, wait := .none, spilled := [],
      held := [{ pc := vector, mask := if lanes = 0 then 0xFFFFFFFF else lanes, prio := 4095, age := 0 }] }
    let s1 := (s.modLm l fun _ => mem).setWeft l slot w'
    (s1.countLoom l 0x10 w.ctx 1).fillReplay 9 l slot

/-- What taking a trap comes to (R417): the handler entered; a weft terminated with an exit cause; or the trap waits
for frame memory, its team to be saved. -/
inductive TrapOutcome where
  | entered (s : State)
  | terminate (exit : Nat)
  | waits

/-- TAKING A TRAP (R417, R418): a double trap and a missing vector terminate; else the frame is written and the
handler entered at the vector, whose bits [2:0] a PC does not hold (R93, R132); with no room for the frame the trap waits. -/
def State.takeTrap (s : State) (l slot : Nat) (h : TrapHead) : TrapOutcome :=
  match s.weft? l slot with
  | none => .waits
  | some w =>
    if w.sv then .terminate 0xF0
    else
      let vector := ((s.context? w.ctx).map (·.trapv)).getD 0
      if vector = 0 then .terminate 0xF3
      else
        match findRun (s.loom l).runs Config.frameBytes with
        | none => .waits
        | some b => .entered (s.enterTrap l slot b h (vector &&& ~~~7#64))

/-! ## Returning (R422): the frontier's part -/

/-- The frame's frontier entries (R419). -/
def State.frameEntries (s : State) (l b : Nat) : List Entry :=
  (List.range (s.fcount l b)).map fun i => Entry.ofBytes (Memory.readBytes (s.loom l).mem (b + 256 + 16 * i) 16)

/-- Masks nonzero and disjoint, within the lanes given, PCs aligned (R422). -/
def entriesOk (lanes : Word) : List Entry → Word → Bool
  | [], _ => true
  | e :: t, seen =>
    e.mask != 0 && (e.mask &&& seen) == 0 && (e.mask &&& ~~~lanes) == 0 && (e.pc &&& 7) == 0
      && entriesOk lanes t (seen ||| e.mask)

/-- The check that iret makes of a frame's frontier (R422). -/
def State.frameOk (s : State) (l b : Nat) (lanes : Word) : Bool :=
  let n := s.fcount l b
  ((1 ≤ n && n ≤ 32) || (n == 0 && lanes == 0)) && entriesOk (if lanes = 0 then 0 else lanes) (s.frameEntries l b) 0

/-- The frontier restored, held and spilled: the entries in entry order fill the held places, where those of one PC merge
(R39), and the rest are spilled as they are (R40). -/
def restoreFrontier (es : List Entry) : List Entry × List Entry :=
  (sortBy (fun a b => a.before b || a == b) es).foldl (fun p e =>
    if p.2.isEmpty && p.1.length < Config.heldEntries then (addEntry p.1 e, p.2) else (p.1, p.2 ++ [e])) ([], [])

/-- The 256 bytes of a weft's spill area: its spilled entries as they were moved, one behind another (R40, R132; log entry
13). -/
def Weft.spillBytes (w : Weft) : List Byte := ((w.spilled.map Entry.bytes).flatten ++ List.replicate 256 0).take 256

/-- RETURN FROM A TRAP (R422): the frontier comes back, s.ctx.sv := 0, and the frame is freed. The replay queue's part
is Machine/Traps.lean's. -/
def State.returnFromTrap (s : State) (l slot : Nat) : State :=
  match s.weft? l slot with
  | none => s
  | some w =>
    match w.frame with
    | none => s
    | some b =>
      let (h, sp) := restoreFrontier (s.frameEntries l b)
      let w' : Weft := { w with sv := false, frame := none, frameLanes := 0, held := h, spilled := sp }
      (s.modLm l fun m => Memory.writeBytes m w.spillBase w'.spillBytes).setWeft l slot w'

end Sys2Proof.Machine
end

