-- ==== Sys2Proof/Machine/Operands.lean ====
section
/-! DEFINITION. The operand forms: which registers an instruction names and how (R94, R98 to R101, R134, and the field
tables of each chapter), effective addresses (R98, R252), immediates (R96), the role and privilege an instruction needs
(R55, R433), and the classes of instructions that the shared issue of Machine/Issue.lean tells apart. -/

namespace Sys2Proof.Machine

/-- A use of a register field: a single register or an even/odd pair, read, written, or both. -/
structure RegUse where
  r : Reg
  pair : Bool
  src : Bool
  dst : Bool
deriving DecidableEq, Repr

/-- A single register that is read. -/
def rs (r : Reg) : RegUse := ⟨r, false, true, false⟩
/-- A single register that is written. -/
def rd (r : Reg) : RegUse := ⟨r, false, false, true⟩
/-- A single register that is read and written. -/
def rb (r : Reg) : RegUse := ⟨r, false, true, true⟩
/-- A pair that is read. -/
def ps (r : Reg) : RegUse := ⟨r, true, true, false⟩
/-- A pair that is written. -/
def pd (r : Reg) : RegUse := ⟨r, true, false, true⟩
/-- A register or pair that is read; written; both: a pair when `p`. -/
def rsIf (p : Bool) (r : Reg) : RegUse := ⟨r, p, true, false⟩
def rdIf (p : Bool) (r : Reg) : RegUse := ⟨r, p, false, true⟩
def rbIf (p : Bool) (r : Reg) : RegUse := ⟨r, p, true, true⟩

/-- The register numbers of a use. -/
def RegUse.regs (u : RegUse) : List Reg := if u.pair then [u.r, u.r + 1] else [u.r]

/-- The registers that an instruction names beside its guard, in the order of its fields. Fields that the entry reserves,
immediates, and the register numbers of msgmap are no uses (R99, R334). xatom's pairs are its own check: they depend on
the block (R279). DESIGN CHOICE (log entry 27): R371 lists b of tlbinv as its count and reserves it under .ctx alone; under .page the
model reads no register b. -/
def operandUses : Instr → List RegUse
  | .iadd _ d a b _ | .isub _ d a b _ | .imul _ d a b | .imulh _ d a b _ | .idiv _ d a b _ | .irem _ d a b _
  | .imin _ d a b _ | .imax _ d a b _ | .iand _ d a b | .ior _ d a b | .ixor _ d a b | .shl _ d a b | .shr _ d a b
  | .sar _ d a b | .rot _ d a b | .bfx _ d a b _ | .icmp _ d a b _ _ => [rd d, rs a, rs b]
  | .imad _ d a b c | .logic3 _ d a b c _ | .bfi _ d a b c | .sel _ d a b c => [rd d, rs a, rs b, rs c]
  | .iabs _ d a | .ineg _ d a | .inot _ d a | .popc _ d a | .clz _ d a | .ctz _ d a | .brev _ d a | .mov _ d a =>
    [rd d, rs a]
  | .movs _ d r => [rdIf (r == .team || r == .clock) d]
  | .iadd64 _ d a b => [pd d, ps a, ps b]
  | .imad64 _ d a b c _ => [pd d, rs a, rs b, ps c]
  | .shl64 _ d a b => [pd d, ps a, rs b]
  | .iaddImm _ d a _ | .imulImm _ d a _ | .andImm _ d a _ | .orImm _ d a _ | .xorImm _ d a _ | .shlImm _ d a _
  | .shrImm _ d a _ | .sarImm _ d a _ | .rotImm _ d a _ | .movhi _ d a _ => [rd d, rs a]
  | .movi _ d _ => [rd d]
  | .lea _ d a _ => [pd d, ps a]
  | .shfl _ d a b _ | .bcast _ d a b => [rd d, rs a, rs b]
  | .ballot _ d a | .vote _ d a _ | .lprefix _ d a => [rd d, rs a]
  | .elect _ d => [rd d]
  | .br .. | .prio _ | .exit _ | .yield _ | .nop _ | .brk .. | .vshrink .. => []
  | .brc _ a _ _ => [rs a]
  | .jmp _ d a _ => if d = 255 then [ps a] else [pd d, ps a]
  | .call _ d _ _ => [pd d]
  | .ret _ a _ => [ps a]
  | .vgrow _ d _ => [rd d]
  | .fadd _ _ d a b | .fsub _ _ d a b | .fmul _ _ d a b | .fmin _ _ d a b | .fmax _ _ d a b | .fcmp _ _ _ d a b
  | .fdiv _ _ d a b | .fscale _ _ d a b | .fcvt _ _ _ d a b _ | .fpack _ _ d a b _ => [rd d, rs a, rs b]
  | .fma _ _ d a b c | .fdot _ _ _ d a b c => [rd d, rs a, rs b, rs c]
  | .fabs _ _ d a | .fneg _ _ d a | .fclass _ _ d a _ | .frcp _ _ d a | .fsqrt _ _ d a | .frsq _ _ d a
  | .fexp2 _ _ d a | .flog2 _ _ d a | .fsinpi _ _ d a | .fcospi _ _ d a | .ftanh _ _ d a | .fround _ _ _ d a
  | .ftoi _ _ _ _ d a _ | .itof _ _ _ d a | .funpack _ _ _ d a _ => [rd d, rs a]
  | .setfmt _ _ a => [ps a]
  | .getfmt _ _ d => [pd d]
  | .fflags _ d _ => [rd d]
  | .ld _ d a b _ w _ => [rdIf (w == .b64) d, ps a, rs b]
  | .st _ d a b _ w _ => [rsIf (w == .b64) d, ps a, rs b]
  | .ldw _ _ d a b _ => [rd d, ps a, rs b]
  | .stw _ _ d a b _ => [rs d, ps a, rs b]
  | .ldResid _ d a m _ w _ => [rdIf (w == .b64) d, ps a, rb m]
  | .ldwResid _ _ d a m _ => [rd d, ps a, rb m]
  | .fence .. => []
  | .pagein _ a b _ => [ps a, rs b]
  | .probe _ d a b _ => [rd d, ps a, rs b]
  | .atomAdd _ d a b _ w _ | .atomMin _ d a b _ w _ | .atomMax _ d a b _ w _ | .atomAnd _ d a b _ w _
  | .atomOr _ d a b _ w _ | .atomXor _ d a b _ w _ | .atomXchg _ d a b _ w _ | .atomInc _ d a b _ w _
  | .atomDec _ d a b _ w _ => [rbIf w d, ps a, rs b]
  | .atomCas _ d a b _ w _ => [rbIf w d, ps a, rsIf w b]
  | .atomFadd _ _ d a b _ _ => [rb d, ps a, rs b]
  | .copy _ _ _ d a | .gather _ _ _ d a | .scatter _ _ _ d a | .xput _ d a | .xget _ d a | .xred _ _ _ d a
  | .aspill _ d a _ | .afill _ d a _ => [rb d, ps a]
  | .cmpst _ _ d a b | .expld _ _ d a b => [rb d, ps a, rd b]
  | .xatom _ op _ d a b c => [rb d, ps a, rb b] ++ (if op = .cas then [rs c] else [])
  | .bankop _ op _ a b c =>
    [ps a, rs b] ++ (if op = .add ∨ op = .scale ∨ op = .max ∨ op = .min then [rs c] else [])
  | .mma _ d a b | .mmaSp _ d a b | .mmaDy _ d a b | .delta _ d a b => [rb d, ps a, rb b]
  | .ascale _ _ d a _ => [rb d, rs a]
  | .acvt _ _ d _ => [rb d]
  | .tclaim _ _ _ d _ _ => [rd d]
  | .trel .. | .unpin .. | .detach .. | .azero .. => []
  | .pin _ d a b _ => [rd d, ps a, ps b]
  | .attach _ d a _ => [rd d, ps a]
  | .aread _ d a b _ => [rd d, rs a, rs b]
  | .awrite _ d a b _ => [rs d, rs a, rs b]
  | .launch _ d a b => if b = 255 then [rd d, ps a] else [rd d, ps a, pd b]
  | .fetchw _ a b c => [ps a, rs b, rs c]
  | .spawn _ d a | .join _ d a => [rd d, ps a]
  | .msgmap _ d _ _ _ _ => [rd d]
  | .msgunmap _ d => [rd d]
  | .ringInit _ _ a => [rs a]
  | .ringSig _ _ b _ => [rs b]
  | .ringWait _ _ b a => [rs a, rs b]
  | .hbar .. => []
  | .hvote _ _ d a _ | .hred _ _ _ d a _ => [rd d, rs a]
  | .hbcast _ src d a _ => if src then [rd d, rs a] else [rd d]
  | .hset _ _ a => [ps a]
  | .dtload _ d a => [rd d, ps a]
  | .dtread _ d a => [rd d, rs a]
  | .tlbinv _ m a b => (if m = .ctx then [] else [ps a]) ++ (if m = .range then [rs b] else [])
  | .tlbsync _ => []
  | .recChk _ d a => [rd d, ps a]
  | .sbPost _ d a => [rd d, ps a]
  | .sbWdr _ d a => [rd d, rs a]
  | .sbFind _ d a b => [rd d, ps a, rs b]
  | .solicit _ a b => [ps a, rs b]
  | .respond _ a => [rs a]
  | .sbMove _ d b c => [rb d, rb b, rs c]
  | .waitoc .. => []
  | .arm _ clr d a b => if clr then [rd d, ps a] else [rd d, ps a, ps b]
  | .await _ _ d a => [rd d, ps a]
  | .arrive _ a b => [ps a, rs b]
  | .evsel _ d _ _ => [rd d]
  | .evrd _ d _ => [pd d]
  | .evclr _ d _ => [rd d]
  | .trap .. | .iret => []
  | .rqRd _ d a b => [rd d, rs a, rs b]
  | .rqWr _ d a b => [rs d, rs a, rs b]
  | .rqDrop _ d a => [rd d, rs a]
  | .setidem _ a => [rs a]
  | .halt .. => []
  | .ipref .. | .dpref .. | .unassignedHint _ => []
  | _ => []

/-- The guard of an instruction; hints ignore theirs but for dpref, and some take none (R94, R159, R433). -/
def guardOf : Instr → Guard
  | .iadd h .. | .isub h .. | .imul h .. | .imulh h .. | .imad h .. | .idiv h .. | .irem h .. | .imin h .. | .imax h ..
  | .iabs h .. | .ineg h .. | .iand h .. | .ior h .. | .ixor h .. | .inot h .. | .logic3 h .. | .shl h .. | .shr h ..
  | .sar h .. | .rot h .. | .popc h .. | .clz h .. | .ctz h .. | .brev h .. | .bfx h .. | .bfi h .. | .icmp h ..
  | .sel h .. | .mov h .. | .movs h .. | .iadd64 h .. | .imad64 h .. | .shl64 h .. | .iaddImm h .. | .imulImm h ..
  | .andImm h .. | .orImm h .. | .xorImm h .. | .shlImm h .. | .shrImm h .. | .sarImm h .. | .rotImm h .. | .movi h ..
  | .movhi h .. | .lea h .. | .shfl h .. | .ballot h .. | .vote h .. | .lprefix h .. | .bcast h .. | .elect h ..
  | .br h .. | .brc h .. | .jmp h .. | .call h .. | .ret h .. | .exit h | .yield h | .nop h | .brk h .. | .vgrow h ..
  | .vshrink h .. | .fadd h .. | .fsub h .. | .fmul h .. | .fma h .. | .fmin h .. | .fmax h .. | .fabs h .. | .fneg h ..
  | .fcmp h .. | .fclass h .. | .fdiv h .. | .frcp h .. | .fsqrt h .. | .frsq h .. | .fexp2 h .. | .flog2 h ..
  | .fsinpi h .. | .fcospi h .. | .ftanh h .. | .fround h .. | .fscale h .. | .fcvt h .. | .ftoi h .. | .itof h ..
  | .fpack h .. | .funpack h .. | .fdot h .. | .setfmt h .. | .getfmt h .. | .fflags h .. | .ld h .. | .st h ..
  | .ldw h .. | .stw h .. | .ldResid h .. | .ldwResid h .. | .fence h .. | .pagein h .. | .probe h .. | .atomAdd h ..
  | .atomMin h .. | .atomMax h .. | .atomAnd h .. | .atomOr h .. | .atomXor h .. | .atomXchg h .. | .atomCas h ..
  | .atomInc h .. | .atomDec h .. | .atomFadd h .. | .copy h .. | .gather h .. | .scatter h .. | .cmpst h ..
  | .expld h .. | .xput h .. | .xget h .. | .xatom h .. | .xred h .. | .bankop h .. | .mma h .. | .mmaSp h ..
  | .mmaDy h .. | .delta h .. | .aspill h .. | .afill h .. | .ascale h .. | .acvt h .. | .tclaim h .. | .trel h ..
  | .pin h .. | .unpin h .. | .attach h .. | .detach h .. | .aread h .. | .awrite h .. | .azero h .. | .launch h ..
  | .fetchw h .. | .spawn h .. | .join h .. | .msgmap h .. | .msgunmap h .. | .ringInit h .. | .ringSig h ..
  | .ringWait h .. | .hbar h .. | .hvote h .. | .hred h .. | .hbcast h .. | .hset h .. | .dtload h .. | .dtread h ..
  | .tlbinv h .. | .tlbsync h | .recChk h .. | .sbPost h .. | .sbWdr h .. | .sbFind h .. | .solicit h .. | .respond h ..
  | .sbMove h .. | .waitoc h .. | .arm h .. | .await h .. | .arrive h .. | .evsel h .. | .evrd h .. | .evclr h ..
  | .trap h .. | .rqRd h .. | .rqWr h .. | .rqDrop h .. | .setidem h .. | .halt h .. | .ipref h .. | .dpref h .. => h
  | _ => noGuard

/-- Every register use of an instruction, its guard first (R94: a guard of 255 is none). -/
def allUses (i : Instr) : List RegUse :=
  (if (guardOf i).g = 255 then [] else [rs (guardOf i).g]) ++ operandUses i

/-- Codes of the matrix instructions, which only the matrix role may issue (R55). -/
def isMatrixCode (op : BitVec 10) : Bool := 0x180 ≤ op.toNat && op.toNat ≤ 0x190
/-- Codes of the copy role (R55). -/
def isCopyCode (op : BitVec 10) : Bool := 0x130 ≤ op.toNat && op.toNat ≤ 0x138

/-- The role that a canonical opcode permits (R55, R56). -/
def roleOk (role : Role) (op : BitVec 10) : Bool :=
  (!isMatrixCode op || role == .matrix) && (!isCopyCode op || role == .copy)

/-- The one role that may issue an instruction, if not every role may (R55). -/
def needsRole : Instr → Option Role
  | .copy .. | .gather .. | .scatter .. | .cmpst .. | .expld .. | .xput .. | .xget .. | .xatom .. | .xred .. =>
    some .copy
  | .mma .. | .mmaSp .. | .mmaDy .. | .delta .. | .aspill .. | .afill .. | .ascale .. | .acvt .. | .tclaim ..
  | .trel .. | .pin .. | .unpin .. | .attach .. | .detach .. | .aread .. | .awrite .. | .azero .. => some .matrix
  | _ => none

/-- Instructions of supervisor mode alone (R349, R362, R363, R433), and evsel, evrd and evclr of a die counter or of every
context (R406, R407). -/
def isPrivileged : Instr → Bool
  | .dtload .. | .tlbinv .. | .tlbsync .. | .iret | .rqRd .. | .rqWr .. | .rqDrop .. | .halt .. => true
  | .evsel _ _ k src => 8 ≤ k.toNat || src.getLsbD 7
  | .evrd _ _ k | .evclr _ _ k => 8 ≤ k.toNat
  | _ => false

/-- Instructions that act once per weft with the operands of lane L (R57), whose sources are read in lane L alone. -/
def isMacro : Instr → Bool
  | .setfmt .. | .vgrow .. | .vshrink .. | .fence .. | .copy .. | .gather .. | .scatter .. | .cmpst .. | .expld ..
  | .xput .. | .xget .. | .xatom .. | .xred .. | .bankop .. | .mma .. | .mmaSp .. | .mmaDy .. | .delta .. | .aspill ..
  | .afill .. | .ascale .. | .acvt .. | .tclaim .. | .trel .. | .pin .. | .unpin .. | .attach .. | .detach ..
  | .azero .. | .launch .. | .fetchw .. | .spawn .. | .join .. | .msgmap .. | .msgunmap .. | .ringInit .. | .ringSig ..
  | .ringWait .. | .hset .. | .dtload .. | .tlbinv .. | .tlbsync .. | .recChk .. | .sbPost .. | .sbWdr .. | .sbFind ..
  | .solicit .. | .respond .. | .sbMove .. | .waitoc .. | .arm .. | .await .. | .arrive .. | .evsel .. | .evclr ..
  | .rqDrop .. | .setidem .. | .halt .. | .trap .. | .brk .. | .hred .. => true
  | _ => false

/-- A register that an instruction with a progress register keeps pending until it retires (R135): progress and result
registers. -/
def opResults : Instr → List Reg
  | .copy _ _ _ d _ | .gather _ _ _ d _ | .scatter _ _ _ d _ | .xput _ d _ | .xget _ d _ | .xred _ _ _ d _
  | .aspill _ d _ _ | .afill _ d _ _ | .ascale _ _ d _ _ | .acvt _ _ d _ => [d]
  | .cmpst _ _ d _ b | .expld _ _ d _ b | .mma _ d _ b | .mmaSp _ d _ b | .mmaDy _ d _ b | .delta _ d _ b
  | .sbMove _ d b _ => [d, b]
  | .xatom _ _ _ d _ b _ => [d, b]
  | _ => []

/-! ## Immediates and addresses (R96, R98, R252) -/

/-- imm28 to 32 bits (R96). -/
def sext28 (k : BitVec 28) : Word := k.signExtend 32
/-- imm28 to 64 bits (R96). -/
def sext28d (k : BitVec 28) : DWord := k.signExtend 64
/-- imm16 to 64 bits (R96). -/
def sext16 (k : BitVec 16) : DWord := k.signExtend 64
/-- A PC-relative target (R96). -/
def branchTarget (pc : DWord) (off : BitVec 16) : DWord := pc + (off.signExtend 64 <<< 3)
/-- A target from a register pair: bits [2:0] ignored (R96). -/
def pairTarget (x : DWord) : DWord := x &&& ~~~7#64

/-- The effective address of lane i (R98). -/
def Weft.ea (w : Weft) (a b : Reg) (imm : BitVec 16) (i : Nat) : DWord :=
  w.pair a i + (if b = 255 then 0 else (w.lane b i).signExtend 64) + sext16 imm

/-- The address of the resid forms and of atom.cas: no index register (R98, R256). -/
def Weft.eaNoIndex (w : Weft) (a : Reg) (imm : BitVec 16) (i : Nat) : DWord := w.pair a i + sext16 imm

/-- Bytes of a width (R97). -/
def widthBytes : Width → Nat
  | .b8 => 1 | .b16 => 2 | .b32 => 4 | .b64 => 8

end Sys2Proof.Machine
end

