-- ==== Sys2Proof/Machine/Access.lean ====
section
/-! DEFINITION. Addresses: page tables and TLBs (13_tables.md R359 to R361), the loom-memory window and the trap frame
(08 R191, 16 R419), the cases of R254, reading and writing bytes with their error marks (08 R193, R211, R215), and the
tags and counts that an access leaves (08 R205, R210, 15 R405). -/

namespace Sys2Proof.Machine

/-! ## Page-table entries (R359, R360) -/

def pteValid (p : DWord) : Bool := p.getLsbD 0
def pteResident (p : DWord) : Bool := p.getLsbD 1
def pteKind (p : DWord) : Nat := (p.extractLsb' 2 2).toNat
def pteCompressed (p : DWord) : Bool := p.getLsbD 4
def pteMarket (p : DWord) : Bool := p.getLsbD 5
def pteWritable (p : DWord) : Bool := p.getLsbD 6
def pteExecutable (p : DWord) : Bool := p.getLsbD 7
def pteHost (p : DWord) : Bool := p.getLsbD 8
def pteLeaf (p : DWord) : Bool := p.getLsbD 9
def ptePpn (p : DWord) : Nat := (p.extractLsb' 19 33).toNat
/-- The next table's HBM address (R359). -/
def pteTable (p : DWord) : Nat := (p.extractLsb' 14 38).toNat * 2 ^ 14

/-- log2 of the bytes that a leaf of a level maps (R359). -/
def levelShift (level : Nat) : Nat := 52 - 11 * level

/-- A leaf that translates an address, with its level. -/
structure Leaf where
  pte : DWord
  level : Nat
deriving DecidableEq, Repr

/-- The leaf is well formed (R360). -/
def Leaf.ok (x : Leaf) : Bool :=
  let p := x.pte
  pteKind p != 3 && !(pteMarket p && pteHost p) && !(pteCompressed p && (pteMarket p || pteHost p))
    && !(pteCompressed p && x.level != 3) && ptePpn p % 2 ^ (levelShift x.level - 19) == 0

/-- The space of a leaf (R188). -/
def Leaf.space (x : Leaf) : Space := if pteMarket x.pte then .market else if pteHost x.pte then .host else .hbm

/-- The physical address of a virtual one under a leaf (R359). -/
def Leaf.phys (x : Leaf) (va : Nat) : Nat := ptePpn x.pte * 2 ^ 19 + va % 2 ^ levelShift x.level

/-- The first byte of the page of a leaf. -/
def Leaf.base (x : Leaf) (va : Nat) : Nat := va / 2 ^ levelShift x.level * 2 ^ levelShift x.level

/-- A walk from a table down the levels given: the entries met, and whether the last one is a leaf (R359, R360).
DESIGN CHOICE (log entry 29): an entry is read as its bytes stand, also at an address outside the HBM's 2^39 bytes and where its
word is in uncorrectable error, of which the manual says nothing. -/
def walk (hbm : Mem) (va : Nat) : List Nat → Nat → List (Nat × DWord)
  | [], _ => []
  | l :: rest, table =>
    let p := BitVec.ofNat 64 (Memory.readLe hbm (table + 8 * (va / 2 ^ levelShift l % 2048)) 8)
    if !pteValid p || pteLeaf p then [(l, p)]
    else (l, p) :: walk hbm va rest (pteTable p)

/-- The TLB of an agent (R361). -/
def State.tlb (s : State) : TlbAgent → List Tlb
  | .core l => (s.loom l).tlbCore
  | .copy l => (s.loom l).tlbCopy
  | .gateway d => SMap.getD s.fabric.tlb d []
def State.setTlb (s : State) (ag : TlbAgent) (t : List Tlb) : State :=
  match ag with
  | .core l => s.modLoom l fun x => { x with tlbCore := t }
  | .copy l => s.modLoom l fun x => { x with tlbCopy := t }
  | .gateway d => { s with fabric := { s.fabric with tlb := SMap.put s.fabric.tlb d t } }
def tlbSize : TlbAgent → Nat
  | .core _ => 512 | .copy _ => 256 | .gateway _ => 256

/-- An entry that a TLB holds for an address at a level. -/
def tlbFind (t : List Tlb) (ctx va level : Nat) : Option DWord :=
  (t.find? fun e => e.ctx == ctx && e.level == level && e.tag == va / 2 ^ levelShift level).map (·.pte)

/-- The entries that translate an address: those held, and those that a walk reads below them (R361). -/
def State.translation (s : State) (ag : TlbAgent) (ctx va : Nat) : List (Nat × DWord) :=
  match s.context? ctx with
  | none => []
  | some c =>
    let t := s.tlb ag
    match tlbFind t ctx va 1, tlbFind t ctx va 2, tlbFind t ctx va 3 with
    | _, _, some p => [(3, p)]
    | _, some p, none =>
      if pteLeaf p then [(2, p)] else (2, p) :: walk s.mem.hbm va [3] (pteTable p)
    | some p, none, none =>
      if pteLeaf p then [(1, p)] else (1, p) :: walk s.mem.hbm va [2, 3] (pteTable p)
    | none, none, none => walk s.mem.hbm va [1, 2, 3] (c.root.toNat)

/-- The leaf that translates an address, if a valid one does (R360). -/
def State.translate (s : State) (ag : TlbAgent) (ctx va : Nat) : Option Leaf :=
  match (s.translation ag ctx va).getLast? with
  | none => none
  | some (l, p) =>
    let x : Leaf := ⟨p, l⟩
    if pteValid p && pteLeaf p && x.ok then some x else none

/-- The leaf as the page table now has it, past every TLB (R262, R361). -/
def State.currentLeaf (s : State) (ctx va : Nat) : Option Leaf :=
  match s.context? ctx with
  | none => none
  | some c =>
    match (walk s.mem.hbm va [1, 2, 3] c.root.toNat).getLast? with
    | none => none
    | some (l, p) =>
      let x : Leaf := ⟨p, l⟩
      if pteValid p && pteLeaf p && x.ok then some x else none

/-- Fill a TLB with what a walk read: non-leaf entries and valid resident leaves; the oldest leave (R361; log entry 5). -/
def State.fillTlb (s : State) (ag : TlbAgent) (ctx va : Nat) : State :=
  let es := s.translation ag ctx va
  let new := es.filterMap fun p =>
    let x : Leaf := ⟨p.2, p.1⟩
    let e : Tlb := { ctx := ctx, level := p.1, tag := va / 2 ^ levelShift p.1, pte := p.2 }
    if pteValid p.2 && (!pteLeaf p.2 || (x.ok && pteResident p.2)) && !(s.tlb ag).contains e then some e else none
  if new.isEmpty then s else s.setTlb ag ((new ++ s.tlb ag).take (tlbSize ag))

/-! ## Where a byte lies (R191, R254, R419) -/

/-- Who makes an access: its loom, context and TLB, the share its window shows (none: a continuation-record weft's whole
loom memory, R60), and the trap frame it sees (R419). -/
structure View where
  loom : Nat
  ctx : Nat
  agent : TlbAgent
  share : Option (Nat × Nat)
  frame : Option Nat
  /-- In supervisor mode (R6). -/
  sv : Bool := false
  /-- Leaves that a bank command was translated through at its issue, by 512 KiB page (R274). -/
  leaves : List (Nat × (DWord × Nat)) := []
deriving DecidableEq, Repr

/-- The leaf that a view holds for an address. -/
def View.leaf (v : View) (va : Nat) : Option Leaf := (SMap.find? v.leaves (va / 2 ^ 19)).map fun x => ⟨x.1, x.2⟩

/-- Where a byte's address leads: an order of R254 times ten, loom memory, a byte of the trap frame, or a page's byte. -/
inductive Spot where
  | bad (case : Nat)
  | lm (a : Nat)
  | frame (base i : Nat)
  | page (leaf : Leaf) (pa : Nat)
deriving DecidableEq, Repr

/-- The byte of loom memory is held by a team or a stall-board range of a context (R60). -/
def Loom.heldFor (x : Loom) (ctx a : Nat) : Bool :=
  x.teams.any (fun t => t.2.ctx == ctx && t.2.shareBase ≤ a && a < t.2.shareBase + t.2.shareSize)
  || x.board.any fun b => b.2.state == .valid && b.2.kind == 0 && b.2.ctx == ctx && b.2.addr.toNat ≤ a
      && a < b.2.addr.toNat + b.2.len.toNat

/-- The view of a weft's own accesses (R47, R60, R419). -/
def State.viewOf (s : State) (l : Nat) (w : Weft) : View :=
  { loom := l, ctx := w.ctx, agent := .core l,
    share := (s.teamOf l w).map fun t => (t.shareBase, t.shareSize),
    frame := if w.sv then w.frame else none, sv := w.sv }

/-- Where the byte at a virtual address lies for a view. -/
def State.spot (s : State) (v : View) (va : Nat) : Spot :=
  if va / 2 ^ 52 = 0xFFF then
    let off := va % 2 ^ 52
    match v.frame, v.share with
    | some b, sh =>
      if 2 ^ 51 ≤ off ∧ off < 2 ^ 51 + Config.frameBytes then .frame b (off - 2 ^ 51)
      else
        match sh with
        | some (base, size) => if off < size then .lm (base + off) else .bad 20
        | none => if off < Config.loomMemoryBytes ∧ (s.loom v.loom).heldFor v.ctx off then .lm off else .bad 20
    | none, some (base, size) => if off < size then .lm (base + off) else .bad 20
    | none, none => if off < Config.loomMemoryBytes ∧ (s.loom v.loom).heldFor v.ctx off then .lm off else .bad 20
  else if va / 2 ^ 52 ≠ 0 then .bad 10
  else
    match (v.leaf va).orElse fun _ => s.translate v.agent v.ctx va with
    | none => .bad 30
    | some x => .page x (x.phys va)

/-- A supervisor store may write this byte of the frame (R419). -/
def frameWritable (i : Nat) : Bool := (256 ≤ i && i < 1024) || (24 ≤ i && i < 32)

/-- The order of R254, times ten, that a byte's access meets; 90: none. -/
def Spot.caseOf (store : Bool) : Spot → Nat
  | .bad n => n
  | .lm _ => 90
  | .frame _ i => if store && !frameWritable i then 50 else 90
  | .page x pa =>
    if pteResident x.pte && pa ≥ x.space.bytes then 40
    else if store && !pteWritable x.pte then 50
    else if pteCompressed x.pte then 60
    else if !pteResident x.pte then 70
    else 90

/-- The trap cause of an order of R254 (R414). -/
def causeOfCase : Nat → Nat
  | 10 | 20 => 0x09
  | 25 => 0x08
  | 30 => 0x0A
  | 40 => 0x0B
  | 50 => 0x0C
  | _ => 0x0D

/-- One access: its lane or unit, its first byte and its length, and its natural alignment when it must have one. -/
structure Acc where
  lane : Nat
  va : DWord
  len : Nat
  align : Nat := 1
deriving DecidableEq, Repr

/-- The bytes of an access, modulo 2^64. -/
def Acc.bytes (a : Acc) : List Nat := (List.range a.len).map fun k => (a.va.toNat + k) % 2 ^ 64

/-- The first address of an area in each of its 512 KiB pages. -/
def pageStarts (base n : Nat) : List Nat :=
  if n = 0 then []
  else base :: ((List.range (n / 2 ^ 19 + 1)).map fun k => (base / 2 ^ 19 + k + 1) * 2 ^ 19).filter (· < base + n)

/-- The first case an access meets: order and the address that met it. -/
def State.accCase (s : State) (v : View) (store : Bool) (a : Acc) : Nat × Nat :=
  let start : Nat × Nat := if a.va.toNat % a.align ≠ 0 then (25, a.va.toNat) else (90, a.va.toNat)
  a.bytes.foldl (fun best va =>
    let c := (s.spot v va).caseOf store
    if c < best.1 then (c, va) else best) start

/-- What R254 gives for a whole instruction: it proceeds, it parks, or it faults. -/
inductive Checked where
  | pass
  | park
  | fault (c : Cause)
deriving DecidableEq, Repr

/-- The case of the whole instruction (R254): the first in order for any lane, the lowest lane that meets it. -/
def State.worst (s : State) (v : View) (store : Bool) (accs : List Acc) : Nat × Nat × Nat :=
  accs.foldl (fun best a =>
    let c := s.accCase v store a
    if c.1 < best.1 then (c.1, a.lane, c.2) else best) (90, 0, 0)

/-- The check of R254; under `resid` a non-resident page is no reason to park. -/
def State.checkAccs (s : State) (v : View) (store resid : Bool) (accs : List Acc) : Checked :=
  let (c, lane, va) := s.worst v store accs
  if c < 70 then
    .fault { cause := causeOfCase c, lane := some lane, index := lane, detail := BitVec.ofNat 64 va }
  else if c = 70 && !resid then .park
  else .pass

/-! ## Bytes and their error marks -/

/-- The byte at a spot. -/
def State.readSpot (s : State) (l : Nat) : Spot → Byte
  | .bad _ => 0
  | .lm a => s.readLm l a
  | .frame b i => s.readLm l (b + i)
  | .page x pa => s.readPhys x.space pa

/-- Write a byte at a spot: of a frame's header word only fcount changes (R419), and the reserved bits of a frontier entry
stay zero (R7, R132). -/
def State.writeSpot (s : State) (l : Nat) (v : Byte) : Spot → State
  | .bad _ => s
  | .lm a => s.writeLm l a v
  | .frame b i =>
    if 24 ≤ i ∧ i < 32 then
      if i = 24 then s.writeLm l (b + 24) ((s.readLm l (b + 24) &&& 0xC0) ||| (v &&& 0x3F)) else s
    else s.writeLm l (b + i) (if 256 ≤ i ∧ i < 768 ∧ i % 16 = 15 then v &&& 0x1F else v)
  | .page x pa => s.writePhys x.space pa v

/-! ## Device records in memory: the fields that a store may write (R6, R7, R314, R327) -/

/-- Bits of byte `o` of a queue control block that only supervisor mode writes, and those that software writes (R314); the
others are the device's own or reserved. -/
def launchField (o : Nat) : Byte × Byte :=
  if o < 8 ∨ o = 9 ∨ o = 10 then (0xFF, 0)
  else if o = 8 then (0x3F, 0)
  else if 24 ≤ o ∧ o < 32 then (0, 0xFF)
  else (0, 0)

/-- As `launchField`, of a context's queue block (R327). -/
def contextField (o : Nat) : Byte × Byte :=
  if o < 8 ∨ (16 ≤ o ∧ o < 28) then (0xFF, 0)
  else if o = 8 then (0x1F, 0)
  else if 32 ≤ o ∧ o < 40 then (0, 0xFF)
  else (0, 0)

/-- The bits of byte `o` of a queue control block that the service firmware clears by writing 0: qf (R315, R319). -/
def launchClear (o : Nat) : Byte := if o = 13 then 1 else 0

/-- Bytes 8 to 63 of a queue control block as it is placed: tickets, qf and head are 0, and reserved bits read 0 (R7, R314). -/
def launchPlaced (o : Nat) (b : Byte) : Byte := let f := launchField o; b &&& (f.1 ||| f.2)

/-- As `launchPlaced`, of a context's queue block: cused and xseq are 0, and reserved bits read 0 (R7, R327). -/
def contextPlaced (o : Nat) (b : Byte) : Byte := let f := contextField o; b &&& (f.1 ||| f.2)

/-- The bytes of n from a physical address, as records are placed there. -/
def State.placeRecords (s : State) (sp : Space) (base n : Nat) (f : Nat → Byte → Byte) : State :=
  s.modMem fun m => m.setOf sp
    ((SMap.slice (m.of sp) base (base + n)).foldl (fun x c => Memory.write x (base + c.1) (f c.1 c.2)) (m.of sp))

/-- A block of device records: its place, its size, and whether it is a launch queue's. -/
structure DevBlock where
  sp : Space
  base : Nat
  size : Nat
  launch : Bool
deriving DecidableEq, Repr

/-- The blocks that stand in memory: the 64 launch queue blocks and each context's queue block (R314, R327). -/
def State.devBlocks (s : State) : List DevBlock :=
  (if s.qbase = 0 then [] else [⟨.hbm, s.qbase.toNat, 4096, true⟩])
    ++ s.contexts.filterMap fun c =>
      match s.translate (.gateway 0) c.1 c.2.qblock.toNat with
      | some x => if pteResident x.pte then some ⟨x.space, x.phys c.2.qblock.toNat, 64, false⟩ else none
      | none => none

/-- The field bits at a spot, if it lies in such a block. -/
def fieldAt (bs : List DevBlock) : Spot → Option (Byte × Byte)
  | .page x pa =>
    if !pteResident x.pte then none
    else (bs.find? fun b => b.sp == x.space && b.base ≤ pa && pa < b.base + b.size).map fun b =>
      if b.launch then launchField ((pa - b.base) % 64) else contextField (pa - b.base)
  | _ => none

/-- What a store of `v`, in supervisor mode or not, leaves at a spot: the bits that it may write (R6, R7). -/
def State.fielded (s : State) (bs : List DevBlock) (l : Nat) (sp : Spot) (v : Byte) (super : Bool) : Byte :=
  match fieldAt bs sp with
  | none => v
  | some (sv, rw) =>
    let m := if super then sv ||| rw else rw
    (s.readSpot l sp &&& ~~~m) ||| (v &&& m)

/-- Some byte of these spots holds a field that only supervisor mode writes (R6). -/
def State.touchesSv (s : State) (sps : List Spot) : Bool :=
  let bs := s.devBlocks
  !bs.isEmpty && sps.any fun sp => match fieldAt bs sp with | some (sv, _) => sv != 0 | none => false

/-- Some byte of an area of virtual addresses holds a field that only supervisor mode writes (R6). -/
def State.rangeSv (s : State) (v : View) (base n : Nat) : Bool :=
  let bs := s.devBlocks
  !bs.isEmpty && (pageStarts base n).any fun a =>
    match s.spot v (a % 2 ^ 64) with
    | .page x pa =>
      let len := min (base + n - a) (2 ^ 19 - a % 2 ^ 19)
      bs.any fun b => b.sp == x.space && (List.range b.size).any fun k =>
        pa ≤ b.base + k && b.base + k < pa + len && (fieldAt bs (.page x (b.base + k))).any fun f => f.1 != 0
    | _ => false

/-! ## The protected units of a spot -/

/-- The protected unit that a spot lies in (log entry 32): DESIGN CHOICE, the manual names a protected word of loom memory
and gives it no size, and the model's is of 8 bytes, as market memory's. -/
def Spot.unit (l : Nat) : Spot → Option ErrAt
  | .bad _ => none
  | .lm a => some (.lmem l (a / 8))
  | .frame b i => some (.lmem l ((b + i) / 8))
  | .page x pa => some (markOf x.space pa)

/-- The line of an L2 slice in which a spot's line may lie (R211). -/
def Spot.l2Unit : Spot → Option ErrAt
  | .page x pa => if x.space = .market then none else some (.l2 (x.space == .host) (pa / 128))
  | _ => none

/-- The places whose errors a read of a spot meets: the L2's line and the memory below it. -/
def Spot.units (l : Nat) (sp : Spot) : List ErrAt := sp.l2Unit.toList ++ (sp.unit l).toList

/-- Bytes of a protected unit. -/
def ErrAt.bytes : ErrAt → Nat
  | .lmem _ _ => 8
  | .tile _ _ => 4096
  | .cell _ _ => 4
  | .icache _ _ _ => 256
  | .phys .market _ => 8
  | .l1 .. | .l2 .. | .phys _ _ => 128

/-- The link to the host has failed and the spot is in host memory (R454). -/
def State.hostLost (s : State) : Spot → Bool
  | .page x _ => x.space == .host && !s.mgmt.linkUp
  | _ => false

/-- A read of these spots meets an uncorrectable word. -/
def State.readError (s : State) (l : Nat) (sp : Spot) : Bool :=
  (!s.mem.marks.isEmpty && (sp.units l).any s.mem.hard) || s.hostLost sp

/-- Spots of an access that lie in one protected unit. -/
def unitCount (l : Nat) (sps : List Spot) (e : ErrAt) : Nat := (sps.filter fun x => (x.units l).contains e).length

/-- A store of these spots, of all those that it writes, is refused: part of an uncorrectable loom-memory word (R193), or host
memory that is lost (R454). -/
def State.writeError (s : State) (l : Nat) (sps : List Spot) (all : List Spot := sps) : Bool :=
  sps.any fun sp =>
    (match sp.unit l with
      | some (.lmem l' u) => s.mem.hard (.lmem l' u) && unitCount l all.eraseDups (.lmem l' u) < 8
      | _ => false) || s.hostLost sp

/-- Units written whole by one store are in error no longer (R193, R211, R215). -/
def State.wholeUnits (s : State) (l : Nat) (sps : List Spot) : State :=
  if s.mem.marks.isEmpty then s
  else
    let ds := sps.eraseDups
    let es := (ds.flatMap fun x => x.units l).eraseDups
    s.modMem fun m => es.foldl (fun m e => if unitCount l ds e ≥ e.bytes then m.clearMark e else m) m

/-- Store bytes at spots as the device itself does, in order. -/
def State.storeDev (s : State) (l : Nat) (bs : List (Spot × Byte)) : State :=
  (bs.foldl (fun s p => s.writeSpot l p.2 p.1) s).wholeUnits l (bs.map (·.1))

/-- Store bytes at spots, in order: in a block of device records only the bits that software may write, in supervisor mode
(`sv`) or not (R6, R7). -/
def State.storeSpots (s : State) (l : Nat) (bs : List (Spot × Byte)) (sv : Bool := true) : State :=
  let ds := s.devBlocks
  s.storeDev l (if ds.isEmpty then bs else bs.map fun p => (p.1, s.fielded ds l p.1 p.2 sv))

/-- The spots of an access. -/
def State.spots (s : State) (v : View) (a : Acc) : List Spot := a.bytes.map (s.spot v)

/-- The little-endian value that a view reads at an address. -/
def State.readVa (s : State) (v : View) (va : DWord) (n : Nat) : Nat :=
  leValue ((s.spots v ⟨0, va, n, 1⟩).map (s.readSpot v.loom))

/-- The bytes that a view reads at an address. -/
def State.bytesVa (s : State) (v : View) (va : DWord) (n : Nat) : List Byte :=
  (s.spots v ⟨0, va, n, 1⟩).map (s.readSpot v.loom)

/-- Write an n-byte little-endian value at an address. -/
def State.writeVa (s : State) (v : View) (va : DWord) (n x : Nat) : State :=
  s.storeSpots v.loom ((s.spots v ⟨0, va, n, 1⟩).zip (leBytes n x)) v.sv

/-- The device writes a field of its own at an address (R6): HW and reserved fields too. -/
def State.writeDev (s : State) (v : View) (va : DWord) (n x : Nat) : State :=
  s.storeDev v.loom ((s.spots v ⟨0, va, n, 1⟩).zip (leBytes n x))

/-- Write bytes at an address. -/
def State.writeBytesVa (s : State) (v : View) (va : DWord) (bs : List Byte) : State :=
  s.storeSpots v.loom ((s.spots v ⟨0, va, bs.length, 1⟩).zip bs) v.sv

/-- A store in user mode would write a field of supervisor mode: the lowest lane's fault (R6, R415). -/
def State.svFault (s : State) (v : View) (accs : List Acc) : Option Cause :=
  if v.sv ∨ s.qbase = 0 ∧ s.contexts.isEmpty then none
  else (accs.find? fun a => s.touchesSv (s.spots v a)).map fun a => { cause := 0x04, lane := some a.lane, index := a.lane }

/-- The page of a spot is one that the L1 may hold for a load (R205). -/
def Spot.cached : Spot → Bool
  | .page x _ =>
    pteResident x.pte && x.space != .market && (pteKind x.pte == 1 || pteKind x.pte == 2) && !pteCompressed x.pte
  | _ => false

/-- A load of an address finds its line in the loom's L1, free of error, and reads nothing behind it (R205). -/
def State.l1Serves (s : State) (v : View) (va : Nat) : Bool :=
  (s.loom v.loom).l1.contains (v.ctx, va / 128) && (s.mem.markAt (.l1 v.loom v.ctx (va / 128))).isNone && (s.spot v va).cached

/-- A load or store meets an error: the trap of R193, R211, R215, at the lowest lane; a load whose line the L1 serves meets none
(R205). The lanes of a store are one store (log entry 32). -/
def State.errorOf (s : State) (v : View) (read write : Bool) (accs : List Acc) : Option Cause :=
  (accs.find? fun a =>
    (read && a.bytes.any fun va =>
      (s.spot v va).caseOf false == 90 && s.readError v.loom (s.spot v va) && !(!write && s.l1Serves v va))
    || (write && s.writeError v.loom (s.spots v a) (accs.flatMap (s.spots v)))).map fun a =>
      { cause := 0x0E, lane := some a.lane, index := a.lane, detail := a.va }

/-- The space code and address of an event record for an error in a physical space (R339; log entry 32). -/
def State.errorRecord (s : State) (v : View) (va : DWord) : State :=
  match (s.spot v va.toNat) with
  | .page x pa =>
    s.eventRecord 0x09 v.loom v.ctx (BitVec.ofNat 64 pa)
      (match x.space with | .hbm => 0 | .market => 1 | .host => 2)
  | _ => s

/-- The home slice of a line (R210). -/
def homeSlice (p : Nat) : Nat :=
  [bitsOf p 13 7, bitsOf p 20 14, bitsOf p 27 21, bitsOf p 34 28, bitsOf p 41 35, bitsOf p 48 42,
    bitsOf p 51 49].foldl (fun a b => a ^^^ b) 0
/-- The stack of an HBM byte (R189), two beside each die. -/
def hbmStack (p : Nat) : Nat := bitsOf p 14 12 ^^^ bitsOf p 23 21
/-- The bank of a market byte (R213), 64 to a die. -/
def marketBank (p : Nat) : Nat := bitsOf p 15 8

/-- The die and the number of the error counter of a physical place (R412): L2 0 and 1 for host lines, market 2 and 3, HBM4
4 and 5 for the even stack beside the die, 6 and 7 for the odd one. -/
def errCounter (sp : Space) (pa : Nat) (uncorrectable : Bool) : Nat × Nat :=
  let u := if uncorrectable then 1 else 0
  match sp with
  | .host => (homeSlice pa / 32, u)
  | .market => (marketBank pa / 64, 2 + u)
  | .hbm => (hbmStack pa / 2, 4 + 2 * (hbmStack pa % 2) + u)

/-- The counter of an error in a place of a die: an L2 line's is L2's, whatever lies below it (R412). -/
def ErrAt.counter (uncorrectable : Bool) : ErrAt → Option (Nat × Nat)
  | .l2 _ line => some (homeSlice (128 * line) / 32, if uncorrectable then 1 else 0)
  | .phys sp u => some (errCounter sp (if sp = .market then 8 * u else 128 * u) uncorrectable)
  | _ => none

/-- An uncorrectable error met at an address: event record and error counters (R339, R405, R412). -/
def State.noteError (s : State) (v : View) (va : DWord) : State :=
  match s.spot v va.toNat with
  | .lm _ | .frame _ _ => s.loomError v.loom 3
  | .page x pa =>
    let place := match (Spot.page x pa).l2Unit with
      | some e => if s.mem.hard e then e else markOf x.space pa
      | none => markOf x.space pa
    match place.counter true with
    | some (die, k) => ((s.errorRecord v va).dieError die k).countDie die 0x4D 1
    | none => s.errorRecord v va
  | .bad _ => s

/-! ## Tags and counts of an access (R205, R210, R405; log entry 6) -/

/-- The home slice of a held line. -/
def L2Line.slice (x : L2Line) : Nat := homeSlice (128 * x.line)

/-- A line leaves its slice: a modified HBM line is written back (R212, R229; event 0x44), a soft error goes with it, and its
poison stays with its memory (R217). -/
def State.l2Leaves (s : State) (x : L2Line) : State :=
  let s1 := s.modMem fun m => { m with l2 := m.l2.filter fun y => !(y.host == x.host && y.line == x.line) }
  let stack := hbmStack (128 * x.line) / 2
  let s2 := if x.dirty && !x.host then (s1.countDie stack 0x44 1).crossDies (x.slice / 32) stack 128 else s1
  if s2.mem.marks.isEmpty then s2
  else
    s2.modMem fun m =>
      let m1 := m.clearMark (.l2 x.host x.line)
      if m.hard (.l2 x.host x.line) then m1.setMark (.phys (if x.host then .host else .hbm) x.line) true else m1

/-- The line that a full slice gives up for a new one: the one least recently used (log entry 6). -/
def Memories.l2Victim (m : Memories) (slice : Nat) : Option L2Line :=
  if m.l2.length < Config.l2SliceLines then none
  else
    let xs := m.l2.filter fun x => x.slice == slice
    if xs.length < Config.l2SliceLines then none else xs.getLast?

/-- An L2 access at the line's home: a hit, or a fill from HBM or the host into a place of the slice (R211, R212). A write
modifies the line. -/
def State.touchL2 (s : State) (host : Bool) (pa : Nat) (write : Bool := false) : State :=
  let line := pa / 128
  let die := homeSlice pa / 32
  match s.mem.l2.find? fun x => x.host == host && x.line == line with
  | some x =>
    (s.modMem fun m =>
      { m with l2 := { x with dirty := x.dirty || write } :: m.l2.filter fun y => !(y.host == host && y.line == line) }).countDie
        die 0x41 1
  | none =>
    let s0 := match s.mem.l2Victim (homeSlice pa) with | none => s | some x => s.l2Leaves x
    let s1 := (s0.modMem fun m => { m with l2 := ⟨host, line, write⟩ :: m.l2 }).countDie die 0x42 1
    if host then s1
    else (s1.countDie (hbmStack pa / 2) 0x43 1).crossDies (hbmStack pa / 2) die 128

/-- A request of a die and its answer cross to another die and back (R17). -/
def State.crossings (s : State) (from_ die out back : Nat) : State := (s.crossDies from_ die out).crossDies die from_ back

/-- A die's access to a line at its home (R210), with the gateways between (R17). -/
def State.homeAccess (s : State) (from_ : Nat) (host : Bool) (pa : Nat) (write : Bool) : State :=
  (s.crossings from_ (homeSlice pa / 32) (if write then 128 else 0) (if write then 0 else 128)).touchL2 host pa write

/-- A die's access to market memory: a request at the bank (R213, R405). -/
def State.bankAccess (s : State) (from_ pa : Nat) (write : Bool) : State :=
  (s.crossings from_ (marketBank pa / 64) (if write then 32 else 0) (if write then 0 else 32)).countDie (marketBank pa / 64) 0x45 1

/-- A leaf that the TLB of an access does not hold is walked and held; a miss of a core TLB is counted (R361, R405). -/
def State.missTlb (s : State) (v : View) (va : Nat) (x : Leaf) : State :=
  if (tlbFind (s.tlb v.agent) v.ctx va x.level).isSome then s
  else
    let s1 := s.fillTlb v.agent v.ctx va
    match v.agent with
    | .core l => s1.countLoom l 0x0A v.ctx 1
    | _ => s1

/-- A load finds its line in the loom's L1: an error found in the line, corrected or not, is a miss, and is counted (R205,
R412). -/
def State.l1Hit (s : State) (l : Nat) (key : Nat × Nat) : Bool × State :=
  if !(s.loom l).l1.contains key then (false, s)
  else if s.mem.marks.isEmpty then (true, s)
  else
    match s.mem.markAt (.l1 l key.1 key.2) with
    | none => (true, s)
    | some _ => (false, (s.modMem fun m => m.clearMark (.l1 l key.1 key.2)).loomError l 6)

/-- A line filled anew is not in error (R205, R208). -/
def State.freshLine (s : State) (e : ErrAt) : State := if s.mem.marks.isEmpty then s else s.modMem fun m => m.clearMark e

/-- What an access to one line leaves in TLB, L1 and L2, and in the event counters. `load`: the L1 may serve it. -/
def State.noteOne (s : State) (v : View) (load : Bool) (va : Nat) (write : Bool := !load) : State :=
  match s.spot v va with
  | .page x pa =>
    let s := s.missTlb v va x
    if !pteResident x.pte then s
    else
      match x.space with
      | .market => s.bankAccess (dieOf v.loom) pa write
      | sp =>
        if load && (Spot.page x pa).cached then
          let key := (v.ctx, va / 128)
          let (hit, s) := s.l1Hit v.loom key
          if hit then s
          else
            (((s.freshLine (.l1 v.loom key.1 key.2)).modLoom v.loom fun y =>
              { y with l1 := (key :: y.l1.filter (· != key)).take Config.l1Lines }).countLoom v.loom 0x09 v.ctx 1).homeAccess
                (dieOf v.loom) (sp == .host) pa false
        else s.homeAccess (dieOf v.loom) (sp == .host) pa write
  | _ => s

/-- One address of each line that an access touches: its first byte, and the first byte of each further line (R205). -/
def Acc.lines (a : Acc) : List Nat := a.bytes.filter fun b => b == a.va.toNat || b % 128 == 0

/-- What the accesses of an instruction leave: each address once. -/
def State.note (s : State) (v : View) (load : Bool) (accs : List Acc) (write : Bool := !load) : State :=
  (accs.flatMap Acc.lines).eraseDups.foldl (fun s va => s.noteOne v load va write) s

/-- What an access of the device, made from a die, leaves in its TLB and at the homes of its lines: no L1 serves it (R205, R361,
R405). -/
def State.noteFrom (s : State) (from_ : Nat) (v : View) (a : Acc) (write : Bool) : State :=
  a.lines.foldl (fun s va =>
    match s.spot v va with
    | .page x pa =>
      let s := s.missTlb v va x
      if !pteResident x.pte then s
      else match x.space with
        | .market => s.bankAccess from_ pa write
        | sp => s.homeAccess from_ (sp == .host) pa write
    | _ => s) s

/-- A corrected error met in a place: counted on the loom or the die (R190, R412). -/
def State.softAt (s : State) (ctx : Nat) (e : ErrAt) : State :=
  if s.mem.markAt e == some false then
    match e with
    | .lmem l _ => (s.loomError l 2).countLoom l 0x13 ctx 1
    | e =>
      match e.counter false with
      | some (die, k) => (s.dieError die k).countDie die 0x4C 1
      | none => s
  else s

/-- The corrected errors met by a read of some spots (R190). -/
def State.softSpots (s : State) (l ctx : Nat) (sps : List Spot) : State :=
  if s.mem.marks.isEmpty then s
  else ((sps.flatMap fun x => x.units l).eraseDups).foldl (fun s e => s.softAt ctx e) s

/-- The corrected errors met by a read; lines that the L1 serves are not read (R190, R205). -/
def State.noteSoft (s : State) (v : View) (accs : List Acc) (served : List Nat := []) : State :=
  s.softSpots v.loom v.ctx ((accs.flatMap Acc.bytes).filter (fun va => !served.contains va) |>.map (s.spot v))

/-- Invalidate a loom's L1 (R206); the error mark of a line that is not held says nothing. -/
def State.dropL1 (s : State) (l : Nat) : State := s.modLoom l fun x => { x with l1 := [] }

/-! ## The range scoreboard against a weft's accesses (R197) -/

/-- An access overlaps an entry that holds it: a load or atomic any write entry, a store or atomic any entry. -/
def State.rangeHolds (s : State) (v : View) (load store : Bool) (accs : List Acc) : Bool :=
  let rs := (s.loom v.loom).ranges
  !rs.isEmpty && accs.any fun a => (s.spots v a).any fun sp =>
    match sp with
    | .lm x => rs.any fun r => r.lo ≤ x && x ≤ r.hi && ((load && r.write) || store)
    | .frame b i => rs.any fun r => r.lo ≤ b + i && b + i ≤ r.hi && ((load && r.write) || store)
    | _ => false

/-- A store that sets the side-effect bit (R427): to an SO or RC page, or to market memory. -/
def State.sideEffectStore (s : State) (v : View) (accs : List Acc) : Bool :=
  accs.any fun a => (s.spots v a).any fun sp =>
    match sp with
    | .page x _ => x.space == .market || pteKind x.pte == 0 || pteKind x.pte == 1
    | _ => false

end Sys2Proof.Machine
end

