-- ==== Sys2Proof/Machine/Life.lean ====
section
/-! DEFINITION. The ends of things: conversion records (12 R338), swap-image addresses and exit status (16 R424, R430),
heddle phases and leaving them (13 R342 to R344), arrival counters' releases (15 R399, R400), discarding operations and
terminating a weft (16 R423), the end of a weft, the retirement of a team, the completion of a launch (02 R45, R49). -/

namespace Sys2Proof.Machine

/-! ## Accesses of the device in a context -/

/-- The view of a device agent: translated addresses of a context, no window (log entry 26). -/
def deviceView (ctx : Nat) : View :=
  { loom := 0, ctx := ctx, agent := .gateway 0, share := some (0, 0), frame := none }

/-- The order of R254 that a device access meets, times ten; 90 none. -/
def State.deviceCase (s : State) (ctx : Nat) (store : Bool) (va : DWord) (n : Nat) : Nat :=
  (s.accCase (deviceView ctx) store ⟨0, va, n, 1⟩).1

/-- A device access meets an uncorrectable word. -/
def State.deviceError (s : State) (ctx : Nat) (va : DWord) (n : Nat) : Bool :=
  (s.spots (deviceView ctx) ⟨0, va, n, 1⟩).any (s.readError 0)

/-! ## Conversion records (R85, R338) -/

/-- The 16 bytes of a record (R85). -/
def ConvRec.bytes (r : ConvRec) (seq : Nat) : List Byte :=
  leBytes 4 (bitsOf r.pc.toNat 34 3)
    ++ leBytes 4 (r.slot % 1024 + 1024 * (r.lane % 32) + (if r.engine then 32768 else 0) + 65536 * (r.loom % 256)
        + 2 ^ 24 * r.code)
    ++ leBytes 4 r.element ++ leBytes 4 seq

/-- Append a conversion record to a context's list, or count it lost (R338). -/
def State.convRecord (s : State) (ctx : Nat) (r : ConvRec) : State :=
  match s.context? ctx with
  | none => s
  | some c =>
    let v := deviceView ctx
    let qb := c.qblock
    let xbase := s.readVa v (qb + 16) 8
    let xcap := s.readVa v (qb + 24) 4
    let xseq := s.readVa v (qb + 28) 4
    let xcount := s.readVa v (qb + 32) 4
    let xlost := s.readVa v (qb + 36) 4
    let place := BitVec.ofNat 64 (xbase + 16 * xcount)
    let ok := xcount < xcap && s.deviceCase ctx true place 16 == 90 && !s.deviceError ctx place 16
    let s1 := if ok then (s.writeBytesVa v place (r.bytes xseq)).writeDev v (qb + 32) 4 (xcount + 1)
      else s.writeDev v (qb + 36) 4 (if xlost = 2 ^ 32 - 1 then xlost else xlost + 1)
    s1.writeDev v (qb + 28) 4 ((xseq + 1) % 2 ^ 32)

/-- Append records in order (R86). -/
def State.convRecords (s : State) (ctx : Nat) (rs : List ConvRec) : State := rs.foldl (fun s r => s.convRecord ctx r) s

/-- The records of a vector instruction: at once, or behind those of the weft's earlier operations (R86). -/
def State.vectorRecords (s : State) (l k ctx : Nat) (rs : List ConvRec) : State :=
  match s.weft? l k with
  | none => s.convRecords ctx rs
  | some w =>
    if rs.isEmpty || w.recQ.isEmpty then s.convRecords ctx rs
    else s.setWeft l k { w with recQ := w.recQ ++ [{ op := none, recs := rs }] }

/-- The records of a unit of an operation: at once where it is the first of its weft's that has not ended, else kept behind
those before it (R86). -/
def State.opRecords (s : State) (o : Op) (rs : List ConvRec) : State :=
  match s.weft? o.loom o.slot with
  | none => s.convRecords o.ctx rs
  | some w =>
    let mine (q : RecSlot) : Bool := q.op == some o.id
    if rs.isEmpty || !w.recQ.any mine || (w.recQ.head?.map mine).getD true then s.convRecords o.ctx rs
    else s.setWeft o.loom o.slot
      { w with recQ := w.recQ.map fun q => if mine q then { q with recs := q.recs ++ rs } else q }

/-- The records that may be appended now, and the slots that remain: everything up to the first operation that still runs,
whose own may be appended too (R86). -/
def flushRecs (live : Nat → Bool) : List RecSlot → List ConvRec × List RecSlot
  | [] => ([], [])
  | q :: t =>
    let rest := flushRecs live t
    match q.op with
    | some id => if live id then (q.recs, { q with recs := [] } :: t) else (q.recs ++ rest.1, rest.2)
    | none => (q.recs ++ rest.1, rest.2)

/-- Records kept behind operations that have ended (R86). -/
def State.recordsAll (s : State) : State :=
  s.looms.foldl (fun s p => p.2.wefts.foldl (fun s q =>
    if q.2.recQ.isEmpty then s
    else
      let r := flushRecs (fun id => (s.loom p.1).ops.any fun o => o.2.id == id) q.2.recQ
      (s.convRecords q.2.ctx r.1).modWeft p.1 q.1 fun w => { w with recQ := r.2 }) s) s

/-! ## Swap images (R424, R430) -/

/-- Z of R430. -/
def imageBytes (w lmem h : Nat) : Nat := 65536 * ((876544 + 39168 * w + lmem + 1024 * (h + 1) + 65535) / 65536)

/-- Byte offset of the share in an image (log entry 12). -/
def imageShare (w : Nat) : Nat := 876544 + 39168 * w

/-- What a page of a swap image is: usable, not resident, or unusable (R430). -/
inductive ImagePage where
  | usable | absent | unusable
deriving DecidableEq, Repr

/-- A byte's page as R430 judges it. -/
def State.imagePage (s : State) (ctx : Nat) (va : Nat) : ImagePage :=
  match s.spot (deviceView ctx) va with
  | .page x pa =>
    if !pteWritable x.pte || pteCompressed x.pte || pteHost x.pte then .unusable
    else if !pteResident x.pte then .absent
    else if pa ≥ x.space.bytes then .unusable
    else .usable
  | _ => .unusable

/-- The judgement of a whole image: unusable if some 512 KiB page is, else absent if some page is (R430). -/
def State.imageState (s : State) (ctx : Nat) (base : DWord) (bytes : Nat) : ImagePage :=
  let pages := (pageStarts base.toNat bytes).map fun a => s.imagePage ctx (a % 2 ^ 64)
  if pages.contains .unusable then .unusable
  else if pages.contains .absent then .absent
  else .usable

/-- A team's image (R430). -/
def Team.imageBytes (t : Team) : Nat := Machine.imageBytes t.slots.length t.shareSize (t.nhed)

/-- The exit status word after one more termination (R424). -/
def exitWord (old num : Nat) (e : Exit) : Nat :=
  num % 64 + 256 * (e.cause % 256) + 65536 * (e.code % 256) + 2 ^ 24 * (min 255 (bitsOf old 31 24 + 1))
    + 2 ^ 32 * bitsOf e.pc.toNat 34 3

/-- Write a team's exit status word, where its page lets it (R424): none while the page is not resident. -/
def State.writeExitStatus (s : State) (ctx : Nat) (image : DWord) (num : Nat) (e : Exit) : Option State :=
  match s.imagePage ctx image.toNat with
  | .absent => none
  | .unusable => some s
  | .usable =>
    let v := deviceView ctx
    some (s.writeVa v image 8 (exitWord (s.readVa v image 8) num e))

/-! ## Completing a wait -/

/-- The waiting instruction of a weft completes: its result, if any, goes to the active lanes of d, flags reach s.fpx,
and its entry advances. A result to a mapped vS becomes a flit to send (R335); its header is that of the issue: nothing of the
weft issued since, and no register that an operation was to write was the header's (`State.regsHold`). -/
def State.finishWait (s : State) (l k : Nat) (pc : DWord) (d : Reg) (act : Word) (fl : BitVec 6) (f : Option (Nat → Word)) :
    State :=
  s.modWeft l k fun w =>
    match f with
    | none => { (w.finish pc) with wait := .none, fpx := w.fpx ||| fl }
    | some f =>
      match w.port with
      | some p =>
        if d = p.s then
          { w with fpx := w.fpx ||| fl,
                   wait := .send pc (w.lane p.h (lowestLane act)) act
                     ((List.range 32).map fun i => if act.getLsbD i then f i else 0) }
        else
          let w := w.writeLanes act d f
          { (w.finish pc) with wait := .none, fpx := w.fpx ||| fl }
      | none =>
        let w := w.writeLanes act d f
        { (w.finish pc) with wait := .none, fpx := w.fpx ||| fl }

/-! ## Heddle phases (R341 to R344) -/

/-- One step of hred's fold on element 0 or on the word (R343): the value, and its flags and record. -/
def hredStep (op : Nat) (f : Fmt) (acc x : Nat) : Nat × BitVec 6 × Option Nat :=
  let w := f.width
  match op with
  | 0 =>
    let a := f.decode acc
    let b := f.decode x
    let v := sumNums f.rdn [a, b]
    let r := f.round v.1 false
    (r.bits % 2 ^ w, r.flags ||| v.2 ||| a.readFlags ||| b.readFlags, r.record)
  | 1 | 2 =>
    let a := f.decode acc
    let b := f.decode x
    let r := f.round (minMaxNum (op == 2) false a b) false
    (r.bits % 2 ^ w, r.flags ||| a.readFlags ||| b.readFlags, r.record)
  | 3 => ((acc + x) % 2 ^ 32, 0, none)
  | 4 => (acc &&& x, 0, none)
  | 5 => (acc ||| x, 0, none)
  | _ => (acc ^^^ x, 0, none)

/-- hred's fold: the result, the flags, and the codes of its records with their steps, from 1 (R343). -/
def hredFold (op : Nat) (f : Fmt) : List Nat → Nat × BitVec 6 × List (Nat × Nat)
  | [] => (0, 0, [])
  | x :: t =>
    let x0 := if op ≤ 2 then x % 2 ^ f.width else x
    t.zipIdx.foldl (fun acc p =>
      let r := hredStep op f acc.1 (if op ≤ 2 then p.1 % 2 ^ f.width else p.1)
      (r.1, acc.2.1 ||| r.2.1,
        match r.2.2 with | none => acc.2.2 | some c => acc.2.2 ++ [(p.2 + 1, c)])) (x0, 0, [])

/-- The result of a phase in lane i of a member, if the operation writes one (R343). -/
def heddleResult (e : Heddle) : Option (Nat → Word) :=
  let vs := e.vals.map fun p => p.2.toNat
  match e.op with
  | .none | .hbar => none
  | .hvote =>
    let v : Nat := match e.sub with
      | 0 => if vs.any fun x => x % 2 ^ 32 != 0 then 1 else 0
      | 1 => if vs.all fun x => x % 2 ^ 32 == x / 2 ^ 32 then 1 else 0
      | _ => vs.foldl (fun acc x => acc + ((List.range 32).filter fun i => x.testBit i).length) 0
    some fun _ => BitVec.ofNat 32 v
  | .hred => some fun _ => BitVec.ofNat 32 (hredFold e.sub (Fmt.ofDef e.def_) vs).1
  | .hbcast => some fun i => match e.source with | none => 0 | some (_, ws) => ws.getD i 0

/-- A heddle entry between phases (R342). -/
def Heddle.between (e : Heddle) (flip : Bool) : Heddle :=
  { e with acnt := 0, op := .none, sub := 0, def_ := 0, vals := [], source := none, arrived := [],
           phase := if flip then !e.phase else e.phase }

/-- Complete a phase: results to the members, flags, records in the name of the member that arrived last (R342, R343). -/
def State.completePhase (s : State) (l key : Nat) : State :=
  match SMap.find? (s.loom l).heddles key with
  | none => s
  | some e =>
    let res := heddleResult e
    let fold : Nat × BitVec 6 × List (Nat × Nat) := if e.op = .hred then hredFold e.sub (Fmt.ofDef e.def_) (e.vals.map fun p => p.2.toNat) else (0, 0, [])
    let s1 := match e.arrived.getLast? with
      | none => s
      | some k =>
        match s.weft? l k with
        | some w =>
          (match w.wait with
            | .heddle pc _ _ _ lane =>
              s.vectorRecords l k w.ctx (fold.2.2.map fun (r : Nat × Nat) =>
                { pc := pc, slot := k, lane := lane, engine := false, loom := l, code := r.2, element := r.1 })
            | _ => s)
        | none => s
    let s2 := e.arrived.foldl (fun s k =>
      match s.weft? l k with
      | some w =>
        (match w.wait with
          | .heddle pc _ d act _ => s.finishWait l k pc d act fold.2.1 res
          | _ => s)
      | none => s) s1
    s2.modLoom l fun x => { x with heddles := SMap.put x.heddles key (e.between true) }

/-- A weft leaves a heddle; a waiting arrival is withdrawn first (R344). -/
def State.leaveHeddle (s : State) (l k key : Nat) : State :=
  match SMap.find? (s.loom l).heddles key, s.weft? l k with
  | some e, some w =>
    let waiting := e.arrived.contains k
    let fromSource := match e.source with | some (n, _) => n == w.num | none => false
    let e1 := { e with
      mask := e.mask.filter (· != k), arrived := e.arrived.filter (· != k),
      acnt := if waiting then e.acnt - 1 else e.acnt,
      vals := if waiting then SMap.del e.vals w.num else e.vals,
      source := if waiting && fromSource then none else e.source,
      sub := if waiting && fromSource then 0 else e.sub }
    let e2 := if e1.mask.isEmpty then e1.between false else e1
    let s1 := s.modLoom l fun x => { x with heddles := SMap.put x.heddles key e2 }
    if e2.acnt ≠ 0 ∧ e2.acnt = e2.mask.length then s1.completePhase l key else s1
  | _, _ => s

/-- A weft leaves every heddle it belongs to (R54, R344). -/
def State.leaveHeddles (s : State) (l k : Nat) : State :=
  ((s.loom l).heddles.filter fun p => p.2.mask.contains k).foldl (fun s p => s.leaveHeddle l k p.1) s

/-- The table entry of a team's heddle number. -/
def Loom.heddleOf (x : Loom) (team h : Nat) : Option (Nat × Heddle) :=
  x.heddles.find? fun p => p.2.team == team && p.2.num == h

/-! ## Arrival counters (R396 to R400) -/

/-- The arm entry at a place. -/
def State.armAt (s : State) : ArmAt → Option Arm
  | .loom l i => SMap.find? (s.loom l).arms i
  | .bank b i => SMap.find? s.bankArms (8 * b + i)
def State.setArm (s : State) (a : ArmAt) (e : Option Arm) : State :=
  match a, e with
  | .loom l i, some e => s.modLoom l fun x => { x with arms := SMap.put x.arms i e }
  | .loom l i, none => s.modLoom l fun x => { x with arms := SMap.del x.arms i }
  | .bank b i, some e => { s with bankArms := SMap.put s.bankArms (8 * b + i) e }
  | .bank b i, none => { s with bankArms := SMap.del s.bankArms (8 * b + i) }

/-- The word of an arm entry has reached its target (R396). -/
def State.armReached (s : State) (a : ArmAt) (e : Arm) : Bool :=
  let v := match a with
    | .loom l _ => Memory.readLe (s.loom l).mem e.addr 8
    | .bank _ _ => Memory.readLe s.mem.market e.addr 8
  e.target.toNat ≤ v

/-- The wefts that wait on an arm entry: loom, slot, whether in await.h. -/
def State.armWaiters (s : State) (a : ArmAt) : List (Nat × Nat × Bool) :=
  s.looms.flatMap fun p => p.2.wefts.filterMap fun w =>
    match w.2.wait with
    | .await _ a' _ _ bound => if a' = a then some (p.1, w.1, bound) else none
    | _ => none

/-- Release wefts from await with a status; status 0 acquires: a market word's scope empties the L1 (R206, R399). -/
def State.releaseAwait (s : State) (status : Word) (ws : List (Nat × Nat × Bool)) : State :=
  ws.foldl (fun s p =>
    match s.weft? p.1 p.2.1 with
    | some w =>
      (match w.wait with
        | .await pc a d lane _ =>
          let s1 := match a with | .bank _ _ => if status = 0 then s.dropL1 p.1 else s | .loom _ _ => s
          s1.finishWait p.1 p.2.1 pc d (BitVec.ofNat 32 (2 ^ lane)) 0 (some fun _ => status)
        | _ => s)
    | none => s) s

/-- The live members of the heddle that an arm entry binds (R399): a continuation-record weft, whose handle here is 1,024 or
above, is its own heddle 0 (R60; log entry 34). -/
def State.armBcnt (s : State) (e : Arm) : Nat :=
  if e.bteam ≥ 1024 then 1
  else
    match (s.loom e.bloom).heddleOf e.bteam e.h with
    | none => 0
    | some p => p.2.mask.length

/-- Release the waiters of an entry whose condition holds (R399, R400). -/
def State.checkArm (s : State) (a : ArmAt) : State :=
  match s.armAt a with
  | none => s
  | some e =>
    let reached := s.armReached a e
    let ws := s.armWaiters a
    let s1 := if reached then s.releaseAwait 0 (ws.filter fun p => !p.2.2) else s
    if e.hv && (reached || e.met) && e.hcnt == s.armBcnt e then
      (s1.releaseAwait 0 (ws.filter fun p => p.2.2)).setArm a (some { e with hv := false, hcnt := 0, met := false })
    else s1

/-- Every armed word of the package (R396). -/
def State.armPlaces (s : State) : List ArmAt :=
  (s.looms.flatMap fun p => p.2.arms.map fun a => ArmAt.loom p.1 a.1)
    ++ s.bankArms.map fun p => ArmAt.bank (p.1 / 8) (p.1 % 8)

/-- Every armed word compared with its target: what follows each write of a word (R396, R399). -/
def State.checkArms (s : State) : State := s.armPlaces.foldl (fun s a => s.checkArm a) s

/-- A weft in await.h is withdrawn from its binding (R400). -/
def State.leaveArm (s : State) (l k : Nat) : State :=
  match s.weft? l k with
  | some w =>
    (match w.wait with
      | .await _ a _ _ true =>
        (match s.armAt a with
          | some e => s.setArm a (some { e with hcnt := e.hcnt - 1, hv := e.hcnt - 1 != 0 && e.hv, met := e.hcnt - 1 != 0 && e.met })
          | none => s)
      | _ => s)
  | none => s

/-! ## The census network's part at a responder's end (R386, R387) -/

/-- Key of a census record: the asking node's slot (R403). -/
def censusKey (node slot : Nat) : Nat := 256 * node + slot

/-- Fold one answer with a value into a census (R387). -/
def Census.fold (c : Census) (v : Word) (from_ : Nat × Nat × Nat) : Census :=
  let lt (a b : Nat × Nat × Nat) : Bool :=
    a.1 < b.1 || (a.1 == b.1 && (a.2.1 < b.2.1 || (a.2.1 == b.2.1 && a.2.2 < b.2.2)))
  let x : Word := match c.op with
    | 0 => c.value + v
    | 1 => if c.got then (if v < c.value then v else c.value) else v
    | 2 => if c.got then (if c.value < v then v else c.value) else v
    | 3 => c.value ||| v
    | 4 => c.value + 1
    | _ => if c.got && lt c.first from_ then c.value else v
  { c with value := x, got := true,
           first := if c.got && lt c.first from_ then c.first else from_ }

/-- One answer of a census (R386): a value or none, and mailbox flags. -/
def State.censusAnswered (s : State) (key : Nat) (v : Option Word) (fl : BitVec 16) (from_ : Nat × Nat × Nat) : State :=
  match SMap.find? s.census key with
  | none => s
  | some c =>
    let c1 := match v with | none => c | some v => c.fold v from_
    let s := s.crossDies (dieOf from_.2.1) (dieOf c.asker) 16
    { s with census := SMap.put s.census key { c1 with answered := c1.answered + 1, flags := c1.flags ||| fl } }

/-- A responder ends: its answer, and its entry is no longer busy (R386). -/
def State.responderEnd (s : State) (l : Nat) (w : Weft) (r : Responder) : State :=
  let killed := match w.ended with | some e => e.exit != 0xF2 | none => false
  let ran : BitVec 16 := if r.flagged then 8 else 0
  let (v, fl) : Option Word × BitVec 16 :=
    if killed then (none, 4) else match r.value with | some v => (some v, 0) | none => (none, 2)
  let s1 := s.censusAnswered (censusKey r.node r.census) v (fl ||| ran) (s.node.toNat, l, r.entry)
  s1.modLoom l fun x =>
    { x with board := match SMap.find? x.board r.entry with
        | none => x.board
        | some b => if b.serial = r.serial then SMap.put x.board r.entry { b with busy := false } else x.board }

/-! ## Stall-board entries (R372, R378, R379) -/

/-- A board entry with every field zero but its generation (R372). -/
def Board.freeWith (gen : BitVec 16) : Board :=
  { state := .free, kind := 0, team := 0, owner := none, busy := false, rsv := false, ctx := 0, gen := gen, tgt := 0,
    key := 0, mask := 0, addr := 0, len := 0, hnd := 0, area := 0, was := .free, serial := 0 }
/-- The entry of an index. -/
def Loom.entry (x : Loom) (i : Nat) : Board := SMap.getD x.board i (Board.freeWith 0)
def Loom.setEntry (x : Loom) (i : Nat) (b : Board) : Loom := { x with board := SMap.put x.board i b }
/-- Free an entry; its generation is kept. -/
def Loom.freeEntry (x : Loom) (i : Nat) : Loom := x.setEntry i (Board.freeWith (x.entry i).gen)
/-- A spawn is held or under way for an entry (R384). -/
def Loom.spawnHeld (x : Loom) (i : Nat) : Bool := x.spawns.any fun p => p.entry == i && p.serial == (x.entry i).serial
/-- An entry whose departure must wait for its responders (R383). -/
def Loom.entryBusy (x : Loom) (i : Nat) : Bool := (x.entry i).busy || x.spawnHeld i

/-- The kind-1 entries that name a key of a context, reserved ones apart (R374). -/
def Loom.keyEntries (x : Loom) (ctx : Nat) (key : DWord) : List Nat :=
  (x.board.filter fun p => p.2.kind == 1 && p.2.state != .free && !p.2.rsv && p.2.ctx == ctx && p.2.addr == key).map (·.1)
/-- A responder of such an entry has not ended (R383). -/
def Loom.keyBusy (x : Loom) (ctx : Nat) (key : DWord) : Bool := (x.keyEntries ctx key).any x.entryBusy
/-- Free the entries of a key that its range has lost (R374). -/
def Loom.dropKey (x : Loom) (ctx : Nat) (key : DWord) : Loom := (x.keyEntries ctx key).foldl Loom.freeEntry x
/-- Set the state of a key's entries, with a new generation on request (R390). -/
def Loom.markKey (x : Loom) (ctx : Nat) (key : DWord) (st : BoardState) (bump : Bool) : Loom :=
  (x.keyEntries ctx key).foldl (fun x i =>
    let b := x.entry i
    x.setEntry i { b with state := st, gen := if bump then b.gen + 1 else b.gen }) x

/-- Cancel an sb.move: the target's reservations go, the source returns to its state (R379). `parts` is the source
loom, source entry, target loom, target entry plus one, source ownership entry plus one, target ownership entry plus
one, as unit 0 set them. -/
def State.cancelMove (s : State) (o : Op) : State :=
  match o.parts with
  | [sl, se, tl, te, so, to_] =>
    let s1 := if te = 0 then s else s.modLoom tl fun x => x.freeEntry (te - 1)
    let s2 := if to_ = 0 then s1 else s1.modLoom tl fun x => { x with owners := SMap.del x.owners (to_ - 1) }
    let s3 := if te = 0 then s2 else s2.modLoom sl fun x =>
      let b := x.entry se
      x.setEntry se { b with state := b.was, tgt := 0 }
    if te = 0 ∨ so = 0 then s3
    else s3.modLoom sl fun x =>
      match SMap.find? x.owners (so - 1) with
      | none => x
      | some w => { x with owners := SMap.put x.owners (so - 1) { w with state := w.was } }
  | _ => s

/-! ## Terminating a weft (R423) -/

/-- Remove an operation's footprint from the range scoreboard (R196). -/
def Loom.dropRanges (x : Loom) (op : Nat) : Loom := { x with ranges := x.ranges.filter fun r => r.op != op }

/-- An operation runs on after its weft's termination: a bankop, a begun merge, fabric units sent and not acknowledged. -/
def Op.runsOn (o : Op) : Bool := o.cls == .bank || o.merging || o.sent.any fun u => !o.acked.contains u

/-- Discard a weft's operations (R423, R428): those that run on make no further unit. -/
def State.discardOps (s : State) (l k : Nat) : State :=
  let gone := ((s.loom l).opsOf k).filter fun p => !p.2.runsOn
  let s1 := gone.foldl (fun s p =>
    let s := match p.2.instr with | .sbMove .. => s.cancelMove p.2 | _ => s
    s.modLoom l fun x =>
      (x.setQueue p.1 ((x.queue p.1).filter fun o => o.id != p.2.id)).dropRanges p.2.id) s
  s1.modLoom l fun x =>
    allClasses.foldl (fun x c => x.setQueue c ((x.queue c).map fun o =>
      if o.slot = k ∧ c ≠ .bank then { o with discard := true } else o)) x

/-- Cancel the moves that stand in a weft's replay queue or wait for an entry of it (R379, R423). -/
def State.cancelReplay (s : State) (w : Weft) : State :=
  (w.replay ++ w.faulted.map (·.op)).foldl (fun s o =>
    match o.instr with | .sbMove .. => s.cancelMove o | _ => s) s

/-- Operations of a weft that have faulted and neither retired nor been dropped (R135, R286); a bank command that a replay entry
reports has retired (R420). -/
def Weft.stopped (w : Weft) : List Op :=
  (w.replay.filter fun o => o.cls != .bank) ++ (w.faulted.filter fun f => !f.report).map (·.op)

/-- A deferred ring arrival that a termination leaves: none of the operations that it waits for is discarded (R423). -/
def State.keepsDeferred (s : State) (l : Nat) (w : Weft) (d : Deferred) : Bool :=
  d.ops.all fun id =>
    !w.stopped.any (fun o => o.id == id)
      && (s.loom l).ops.all fun p => p.2.id != id || p.1 == .bank

/-- The PC and code that the exit status names (R424). -/
def State.exitPc (s : State) (l : Nat) (w : Weft) (pc : DWord) : DWord × Nat :=
  match w.frame with
  | some b =>
    (BitVec.ofNat 64 (Memory.readLe (s.loom l).mem b 8), Memory.readLe (s.loom l).mem (b + 8) 8 / 256 % 256)
  | none => (pc, 0)

/-- TERMINATION (R423): `exit` is 0xF0 to 0xF4; `cause` and `code` are the status byte fields; `pc` is used where the weft
has no trap frame. The weft ends once what runs on has retired and its exit status is written. -/
def State.terminate (s : State) (l k exit cause : Nat) (code : Option Nat) (pc : DWord) : State :=
  match s.weft? l k with
  | none => s
  | some w =>
    if w.ended.isSome then s
    else
      let (p, c) := s.exitPc l w pc
      let kept := w.deferred.filter (s.keepsDeferred l w)
      let s1 := (((s.leaveHeddles l k).leaveArm l k).cancelReplay w).discardOps l k
      let s2 := s1.modWeft l k fun w =>
        { w with held := [], spilled := [], frame := none, frameLanes := 0, sv := false, trap := none, replay := [],
                 faulted := [], wait := .none, port := none, yielded := none, deferred := kept,
                 ended := some { exit := exit, cause := cause, code := code.getD c, pc := p,
                                 written := w.team.isNone, seq := s.fresh } }
      { (s2.modLoom l fun x => { x with growers := x.growers.filter (· != k) }) with fresh := s.fresh + 1 }

/-- The first entry's PC in entry order, or 0 (R424). -/
def Weft.firstPc (w : Weft) : DWord := ((firstEntry (w.held ++ w.spilled)).map (·.pc)).getD 0

/-- Terminate every live weft of a team with exit cause 0xF4 (R417, R430). -/
def State.terminateTeam (s : State) (l h : Nat) : State :=
  ((s.loom l).wefts.filter fun p => p.2.team == some h).foldl (fun s p =>
    s.terminate l p.1 0xF4 0xF4 none p.2.firstPc) s

/-! ## A trap's taking or waiting (R417) -/

/-- The head of a frame for a precise cause at an issue (R419). -/
def preciseHead (c : Cause) (pc : DWord) (lane : Nat) : TrapHead :=
  { pc := pc, cause := c.cause, code := c.code, async := false, lane := c.lane.getD lane, index := c.index,
    detail := c.detail }

/-- A team stops issuing (R429, R432): the waits of its vgrows end, and they have not issued (R165). -/
def State.setStop (s : State) (l h : Nat) (st : Option Stop → Stop) : State :=
  (s.modTeam l h fun t => { t with stop := some (st t.stop) }).modLoom l fun x =>
    { x with growers := x.growers.filter fun k =>
               match SMap.find? x.wefts k with | some w => w.team != some h | none => true,
             wefts := x.wefts.map fun (p : Nat × Weft) =>
               (p.1, match p.2.wait with
                 | .vgrow .. => if p.2.team = some h then { p.2 with wait := .none } else p.2
                 | _ => p.2) }

/-- A trap that must wait for frame memory: the team is to be saved, or ends with 0xF4 where it cannot be (R417). -/
def State.trapWaits (s : State) (l k : Nat) (r : TrapReq) : State :=
  match s.weft? l k with
  | none => s
  | some w =>
    let s1 := s.setWeft l k { w with trap := some r }
    match w.team with
    | none => s1
    | some h =>
      match s.team? l h with
      | none => s1
      | some t =>
        if s.imageState t.ctx t.swap t.imageBytes = .unusable then s1.terminateTeam l h
        else s1.setStop l h fun o => o.getD .save

/-- Raise a precise trap at the instruction at `pc` (R415 to R418). -/
def State.raise (s : State) (l k : Nat) (pc : DWord) (lane : Nat) (c : Cause) : State :=
  match s.takeTrap l k (preciseHead c pc lane) with
  | .entered s' => s'
  | .terminate 0xF0 => s.terminate l k 0xF0 c.cause none pc
  | .terminate x => s.terminate l k x x none pc
  | .waits => s.trapWaits l k { cause := c, pc := pc, lane := lane }

/-! ## The end of a weft and of a team (R45, R54, R160) -/

/-- A weft's frontier is empty and nothing that it issued remains (R160, R423). -/
def State.canEnd (s : State) (l k : Nat) (w : Weft) : Bool :=
  w.held.isEmpty && w.spilled.isEmpty && w.trap.isNone && w.faulted.isEmpty && ((s.loom l).opsOf k).isEmpty
    && w.replay.all (fun o => o.cls == .bank)
    && (match w.ended with | some e => e.written | none => true)
    && (match w.wait with | .none => true | _ => false)
    && (match w.team with
        | none => true
        | some h => match s.team? l h with | some t => !t.unstarted | none => true)

/-- Teams of a launch retire (R49). -/
def State.retireIds (s : State) (ids : List TeamId) : State :=
  { s with launches := s.launches.map fun x =>
      { x with retired := x.retired + (ids.filter fun i => i.queue == x.queue && i.count == x.count).length } }

/-- Requests of an asker that is gone are discarded, and so are the answers of its solicits (R324, R388). -/
def State.dropBoxes (s : State) (keep : Mailbox → Bool) : State :=
  { s with fetches := s.fetches.filter fun f => keep f.box,
           census := s.census.map fun p => (p.1, if keep p.2.box then p.2 else { p.2 with box := .gone }) }

/-- A mailbox of a placed team, or of one that will not run again from where it is. -/
def Mailbox.ofTeam (id : TeamId) : Mailbox → Bool
  | .team i _ => i == id
  | _ => false
/-- A mailbox of a record weft. -/
def Mailbox.ofRecord (l k : Nat) : Mailbox → Bool
  | .record l' k' _ => l' == l && k' == k
  | _ => false

/-- A flit header names the port of a slot. -/
def namesPort (header : Word) (l k : Nat) : Bool :=
  (header.extractLsb' 0 8).toNat == l && (header.extractLsb' 8 10).toNat == k

/-- The wefts of a context whose flits wait to enter the port of a weft: loom, slot, the PC and lane L of the instruction
(R335). -/
def State.sendersTo (s : State) (l k ctx : Nat) : List (Nat × Nat × DWord × Nat) :=
  s.looms.flatMap fun p => p.2.wefts.filterMap fun q =>
    match q.2.wait with
    | .send pc header act _ | .full pc header act =>
      if q.2.ctx = ctx ∧ namesPort header l k then
        some (p.1, q.1, pc, lowestLane act)
      else none
    | _ => none

/-- Operations whose result, a flit, waits for room at the port of a weft are refused it (R335, R336). -/
def State.refuseResults (s : State) (l k ctx : Nat) : State :=
  let mark (o : Op) : Op :=
    match o.header with
    | some h => if o.ctx = ctx ∧ o.sending.isSome ∧ namesPort h l k then { o with sending := some true } else o
    | none => o
  { s with looms := s.looms.map fun (p : Nat × Loom) =>
      (p.1, allClasses.foldl (fun x c => x.setQueue c ((x.queue c).map mark)) p.2) }

/-- Flits that wait to enter the port of a weft that has closed are refused with the message fault (R336). -/
def State.refuseSenders (s : State) (l k ctx : Nat) : State :=
  ((s.refuseResults l k ctx).sendersTo l k ctx).foldl (fun s q =>
    (s.modWeft q.1 q.2.1 fun w => { w with wait := .none }).raise q.1 q.2.1 q.2.2.1 q.2.2.2
      { cause := 0x19, lane := some q.2.2.2 }) (s.refuseResults l k ctx)

/-- The port of a weft closes: its flits go, and those that wait to enter it are refused (R336). -/
def State.closePort (s : State) (l k : Nat) : State :=
  match s.weft? l k with
  | none => s
  | some w => (s.setWeft l k { w with port := none }).refuseSenders l k w.ctx

/-- THE END OF A WEFT (R45, R54, R160, R336, R344, R386). -/
def State.endWeft (s : State) (l k : Nat) : State :=
  match s.weft? l k with
  | none => s
  | some w =>
    let s1 := (s.leaveHeddles l k).closePort l k
    let s2 := match w.responder with | none => s1 | some r => s1.responderEnd l w r
    let s3 := if w.team.isNone then
        (s2.retireIds w.withdrawn).dropBoxes fun b => !b.ofRecord l k
      else s2
    s3.modLoom l fun x =>
      { x with wefts := SMap.del x.wefts k, growers := x.growers.filter (· != k),
               mem := Memory.zero x.mem w.spillBase 256 }

/-- The live wefts of a team. -/
def State.liveWefts (s : State) (l h : Nat) : List (Nat × Weft) := (s.loom l).wefts.filter fun p => p.2.team == some h

/-- An ownership entry that a placed team holds: its working and attached ranges (R290, R298). -/
def Own.heldBy (o : Own) (h : Nat) : Bool := (o.state == .working || o.state == .attached) && o.team == h

/-- Free a team's working ranges and tile slots, and leave its attached ranges pinned (R290, R298). -/
def Loom.releaseRanges (x : Loom) (h : Nat) (now : DWord) : Loom :=
  { x with owners := x.owners.filterMap fun p =>
      if p.2.team = h then
        match p.2.state with
        | .working => none
        | .attached => some (p.1, { p.2 with state := .pinned, team := 0, dtime := now })
        | _ => some p
      else some p }

/-- Free the kind-0 board entries of a placed team (R374). -/
def Loom.releaseEntries (x : Loom) (h : Nat) : Loom :=
  { x with board := x.board.map fun p =>
      if p.2.state = .valid ∧ p.2.kind = 0 ∧ p.2.team = h then (p.1, Board.freeWith p.2.gen) else p }

/-- Kind-0 entries of a team have responders that have not ended, or spawns held (R383). -/
def Loom.entriesBusy (x : Loom) (h : Nat) : Bool :=
  x.board.any fun p => p.2.state == .valid && p.2.kind == 0 && p.2.team == h && x.entryBusy p.1

/-- Take a team off its loom: wefts, heddles, arm entries, share (R46). -/
def Loom.removeTeam (x : Loom) (h : Nat) : Loom :=
  match SMap.find? x.teams h with
  | none => x
  | some t =>
    { x with teams := SMap.del x.teams h, wefts := x.wefts.filter (fun p => p.2.team != some h),
             heddles := x.heddles.filter (fun p => p.2.team != h), arms := x.arms.filter (fun p => p.2.team != h),
             growers := x.growers.filter fun k =>
               match SMap.find? x.wefts k with | some w => w.team != some h | none => true,
             mem := Memory.zero x.mem t.shareBase t.shareSize }

/-- THE RETIREMENT OF A TEAM (R45, R49, R290, R298, R347, R400): when its last weft has ended and its entries' responders
have. -/
def State.retireTeam (s : State) (l h : Nat) : State :=
  match s.team? l h with
  | none => s
  | some t =>
    if !(s.liveWefts l h).isEmpty || (s.loom l).entriesBusy h || t.unstarted then s
    else
      let s1 := s.modLoom l fun x => ((x.releaseRanges h s.clock).releaseEntries h).removeTeam h
      (s1.retireIds (t.id :: t.withdrawn)).dropBoxes fun b => !b.ofTeam t.id

/-! ## Completion signals (R49, R318) -/

/-- The completion signal of a launch: written once; an unusable address leaves an event record; a page not resident makes
the write wait (log entry 26). -/
def State.signalLaunch (s : State) (x : Launch) : Option State :=
  let a := x.lrec.signal
  let v : Nat := if x.refusal = 0 then 1 else 2 + 256 * x.refusal
  let bad := s.eventRecord 0x07 0xC0 x.ctx (BitVec.ofNat 64 x.queue) (BitVec.ofNat 64 x.count)
  if a.toNat % 8 ≠ 0 then some bad
  else
    match s.deviceCase x.ctx true a 8 with
    | 70 => none
    | 90 => some (s.writeVa (deviceView x.ctx) a 8 v)
    | _ => some bad

/-- Write the signals of launches that are complete. -/
def State.signalAll (s : State) : State :=
  s.launches.foldl (fun s x =>
    if !x.signalled && (x.refusal != 0 || x.retired ≥ x.total) then
      match s.signalLaunch x with
      | none => s
      | some s' =>
        { s' with launches := s'.launches.map fun y =>
            if y.queue = x.queue ∧ y.count = x.count then { y with signalled := true } else y }
    else s) s

/-! ## What follows at once from a step -/

/-- Wefts in the order of their terminations. -/
def byExit (ws : List (Nat × Weft)) : List (Nat × Weft) :=
  sortBy (fun a b => (a.2.ended.map (·.seq)).getD 0 ≤ (b.2.ended.map (·.seq)).getD 0) (ws.filter fun p => p.2.ended.isSome)

/-- Exit status words that wait, in the order of the terminations (R424, R434). -/
def State.exitAll (s : State) : State :=
  s.looms.foldl (fun s p => (byExit p.2.wefts).foldl (fun s q =>
    match q.2.ended, q.2.team.bind (s.team? p.1) with
    | some e, some t =>
      if e.written then s
      else
        match s.writeExitStatus t.ctx t.swap q.2.num e with
        | none => s
        | some s' => s'.modWeft p.1 q.1 fun w => { w with ended := some { e with written := true } }
    | _, _ => s) s) s

/-- Exit status words to be zeroed before a team's first issue (R424). -/
def State.startAll (s : State) : State :=
  s.looms.foldl (fun s p => p.2.teams.foldl (fun s q =>
    if q.2.unstarted then
      match s.imagePage q.2.ctx q.2.swap.toNat with
      | .absent => s
      | .unusable => s.modTeam p.1 q.1 fun t => { t with unstarted := false }
      | .usable =>
        (s.writeVa (deviceView q.2.ctx) q.2.swap 8 0).modTeam p.1 q.1 fun t => { t with unstarted := false }
    else s) s) s

/-- Count one arrival at a stage (R332). -/
def Stage.arrive (g : Stage) : Stage :=
  if g.count + 1 ≥ g.expected then { g with count := 0, phase := !g.phase } else { g with count := g.count + 1 }

/-- Count an arrival at a stage of a team's ring. -/
def Team.ringArrive (t : Team) (g st : Nat) : Team :=
  { t with rings := modAt t.rings g fun r => modAt r st Stage.arrive }

/-- An operation has neither retired nor been dropped: it is in an engine, or in or before the replay queue (R286). -/
def State.opLives (s : State) (l : Nat) (w : Weft) (id : Nat) : Bool :=
  (s.loom l).ops.any (fun p => p.2.id == id) || w.stopped.any fun o => o.id == id

/-- The deferred arrivals of a weft whose operations have all retired or been dropped, in issue order (R332). -/
def State.ringDeferred (s : State) (l k : Nat) : State :=
  match s.weft? l k with
  | none => s
  | some w =>
    if w.deferred.isEmpty then s
    else
      let due := w.deferred.filter fun d => !d.ops.any (s.opLives l w)
      let s1 := s.setWeft l k { w with deferred := w.deferred.filter fun d => d.ops.any (s.opLives l w) }
      match w.team with
      | none => s1
      | some h => due.foldl (fun s d => s.modTeam l h fun t => t.ringArrive d.g d.stage) s1

/-- Deferred arrivals of every weft. -/
def State.deferredAll (s : State) : State :=
  s.looms.foldl (fun s p => p.2.wefts.foldl (fun s q => s.ringDeferred p.1 q.1) s) s

/-- Wefts in ring.wait whose stage has the phase awaited (R332). -/
def State.ringAll (s : State) : State :=
  s.looms.foldl (fun s p => p.2.wefts.foldl (fun s q =>
    match q.2.wait with
    | .ring pc g st ph =>
      (match q.2.team.bind (s.team? p.1) with
        | some t =>
          if ((((t.rings.getD g []).getD st ⟨false, 0, 1⟩)).phase == ph) then
            s.finishWait p.1 q.1 pc 255 0 0 none
          else s
        | none => s)
    | _ => s) s) s

/-- Retire the teams whose last weft has ended (R45). -/
def State.retireAll (s : State) : State :=
  s.looms.foldl (fun s p => p.2.teams.foldl (fun s q =>
    if q.2.stop = some .teardown then s else s.retireTeam p.1 q.1) s) s

/-- Everything that follows at once from a step: releases, exit statuses, retirements, signals. -/
def State.settle (s : State) : State :=
  s.checkArms.recordsAll.deferredAll.ringAll.exitAll.startAll.retireAll.signalAll

end Sys2Proof.Machine
end

