-- ==== Sys2Proof/Machine/Issue.lean ====
section
/-! DEFINITION. The shared issue of every instruction: when it is held (R134, R135, R335), the checks of R415 in order,
and what an issue leaves: the frontier (R38, R155), flags (R77), conversion records (R86), messages (R335), counts
(R404, R426). A meaning is a body that this issue runs. -/

namespace Sys2Proof.Machine

/-- The result of an issue. -/
abbrev Result := Host.Outcome State Fault Refusal

/-- What a body sees of its issue: the loom and slot, the weft, the entry's PC, mask and priority, the active lanes, lane
L (R57), the legacy bit and the word. -/
structure Iss where
  l : Nat
  k : Nat
  w : Weft
  pc : DWord
  mask : Word
  prio : BitVec 12
  act : Word
  lane : Nat
  legacy : Bool
  word : DWord

/-- A record that a vector instruction appends: lane, element, code (R170). -/
structure LaneRec where
  lane : Nat
  element : Nat
  code : Nat
deriving DecidableEq, Repr

/-- What a body comes to. -/
inductive Effect where
  /-- The instruction does not issue: the weft is not ready. -/
  | hold
  /-- As `hold`, by the range scoreboard (R197); event 0x0B counts the cycle (R377). -/
  | holdRange
  /-- A page is not resident: the weft parks (R254). -/
  | park
  /-- A precise fault: nothing changes but the trap. -/
  | trap (c : Cause)
  /-- The instruction completes: the entry advances; flags and records are given. -/
  | done (s : State) (fl : BitVec 6) (recs : List LaneRec)
  /-- A control transfer: the entry is replaced (R155). -/
  | jump (s : State) (es : List Entry)
  /-- The instruction has issued and its weft waits; the body has set the wait. -/
  | waits (s : State)
  /-- The weft waits for its instruction to issue; the body has set the wait (vgrow, R165). -/
  | begins (s : State)
  /-- The instruction completes and then raises a precise trap (R163, R434). -/
  | after (s : State) (c : Cause)
  /-- A precise fault of an instruction whose effect up to the fault stands (R325). -/
  | trapIn (s : State) (c : Cause)
  /-- The instruction has dealt with the frontier itself (iret, halt). -/
  | left (s : State)
  /-- The instruction does not issue yet, and part of what it does stands (iret, R422). -/
  | holdIn (s : State)

/-- An effect without flags or records. -/
def Effect.ok (s : State) : Effect := .done s 0 []

/-- A context is being torn down (R455). -/
def State.tornDown (s : State) (c : Nat) : Bool :=
  match s.context? c with
  | none => false
  | some x => x.cmd == .teardown

/-- A weft whose team has been stopped, or has not started, takes no turn; nor does a record weft of a context that is torn
down. -/
def State.halted (s : State) (l : Nat) (w : Weft) : Bool :=
  match s.teamOf l w with
  | none => s.tornDown w.ctx
  | some t => t.stop.isSome || t.unstarted

/-! ## Holds (R134, R135, R335) -/

/-- Registers kept pending by an operation that has issued and not retired (R135). -/
def Op.pendingRegs (o : Op) : List Reg :=
  opResults o.instr ++
    match o.instr with
    | .xatom _ _ _ _ _ b _ => if (o.block.extractLsb' 192 32) = 8 then [b + 1] else []
    | _ => []

/-- The pending registers of a weft. -/
def State.pending (s : State) (l k : Nat) : List Reg := ((s.loom l).opsOf k).flatMap fun p => p.2.pendingRegs

/-- The progress register of an X-format instruction (R124). -/
def progressReg : Instr → Option Reg
  | .copy _ _ _ d _ | .gather _ _ _ d _ | .scatter _ _ _ d _ | .cmpst _ _ d _ _ | .expld _ _ d _ _ | .xput _ d _
  | .xget _ d _ | .xatom _ _ _ d _ _ _ | .xred _ _ _ d _ | .mma _ d _ _ | .mmaSp _ d _ _ | .mmaDy _ d _ _
  | .delta _ d _ _ | .aspill _ d _ _ | .afill _ d _ _ | .ascale _ _ d _ _ | .acvt _ _ d _ | .sbMove _ d _ _ => some d
  | _ => none

/-- The instruction's single-register destination is the send register (R335). -/
def sendsMessage (w : Weft) (i : Instr) (act : Word) : Bool :=
  act != 0 &&
    match w.port with
    | none => false
    | some p => (operandUses i).any fun u => u.dst && !u.pair && u.r == p.s

/-- The header register, where the instruction sends a flit: it is read in lane L (R335). -/
def headerReg (w : Weft) (i : Instr) (act : Word) : List Reg :=
  if sendsMessage w i act then (w.port.map (·.h)).toList else []

/-- A register of the instruction is pending (R134), a flit's header among them, or its progress register is that of a
faulted operation (R135). -/
def State.regsHold (s : State) (l k : Nat) (w : Weft) (i : Instr) (act : Word) : Bool :=
  let p := s.pending l k
  (!p.isEmpty && (((allUses i).any fun u => u.regs.any fun r => r != 255 && p.contains r)
    || (headerReg w i act).any p.contains))
  || (match progressReg i with
      | none => false
      | some d => w.stopped.any fun o => progressReg o.instr == some d)

/-- The instruction reads the port's receive register (R335). -/
def readsPort (w : Weft) (i : Instr) : Bool :=
  match w.port with
  | none => false
  | some p => (allUses i).any fun u => u.src && !u.pair && u.r == p.r

/-- It reads the receive register and no flit is there (R335). -/
def portHolds (w : Weft) (i : Instr) (act : Word) : Bool :=
  readsPort w i && (act != 0 || (match w.port with | some p => (guardOf i).g == p.r | none => false))
    && (match w.port with | some p => p.flits.isEmpty | none => false)

/-! ## The checks of R415, items 3 to 7 -/

/-- A pair or progress register that names S or R of the port (R335). -/
def portIllegal (w : Weft) (i : Instr) : Bool :=
  match w.port with
  | none => false
  | some p =>
    ((allUses i).any fun u => u.pair && u.regs.any fun r => r == p.s || r == p.r)
    || (match progressReg i with | some d => d == p.s || d == p.r | none => false)

/-- The lowest register field at or above the allotment (R101, R425). -/
def lowestOut (w : Weft) (i : Instr) : Option Reg :=
  ((allUses i).map (·.r)).foldl (fun acc r =>
    if w.outOfRange r then (match acc with | none => some r | some q => some (if r < q then r else q)) else acc) none

/-! ## The accesses of a store (R252, R256, R257) -/

/-- Lane accesses of a width at given addresses. -/
def accsAt (act : Word) (len align : Nat) (ea : Nat → DWord) : List Acc :=
  (lanesOf act).map fun i => { lane := i, va := ea i, len := len, align := align }

/-- Where a lane's packed elements begin: byte address and bit within it (R252). -/
def packedStart (w : Weft) (a b : Reg) (imm : BitVec 16) (wd i : Nat) : DWord × Nat :=
  let n0 := if b = 255 then 0 else (w.lane b i).toNat
  (w.pair a i + sext16 imm + BitVec.ofNat 64 (n0 * wd / 8), n0 * wd % 8)

/-- The access of a lane's P elements. -/
def packedAcc (w : Weft) (f : Fmt) (a b : Reg) (imm : BitVec 16) (i : Nat) : Acc :=
  let (va, bit) := packedStart w a b imm f.width i
  { lane := i, va := va, len := (bit + f.perLane * f.width + 7) / 8 }

/-- The bytes that a store or an atomic writes, by lanes. -/
def storeAccs (w : Weft) (i : Instr) (act : Word) : List Acc :=
  let atom (w64 : Bool) (ea : Nat → DWord) : List Acc := accsAt act (if w64 then 8 else 4) 1 ea
  match i with
  | .st _ _ a b imm wd _ => accsAt act (widthBytes wd) 1 (w.ea a b imm)
  | .stw _ n _ a b imm => (lanesOf act).map (packedAcc w (Fmt.ofDef (w.fmt n)) a b imm)
  | .atomAdd _ _ a b imm w64 _ | .atomMin _ _ a b imm w64 _ | .atomMax _ _ a b imm w64 _ | .atomAnd _ _ a b imm w64 _
  | .atomOr _ _ a b imm w64 _ | .atomXor _ _ a b imm w64 _ | .atomXchg _ _ a b imm w64 _ | .atomInc _ _ a b imm w64 _
  | .atomDec _ _ a b imm w64 _ => atom w64 (w.ea a b imm)
  | .atomCas _ _ a _ imm w64 _ => atom w64 (w.eaNoIndex a imm)
  | .atomFadd _ n _ a b imm _ => accsAt act ((Fmt.ofDef (w.fmt n)).width / 8) 1 (w.ea a b imm)
  | _ => []

/-- A store or a bank command in user mode would write a field that only supervisor mode writes (R6): the privilege fault of R415's item 6. -/
def State.svDenied (s : State) (l : Nat) (w : Weft) (i : Instr) (act : Word) : Option Cause :=
  let v := s.viewOf l w
  match i with
  | .bankop _ op n a b _ =>
    let k := lowestLane act
    let bits := (w.lane b k).toNat * (if op = .transp then 2048 else (Fmt.ofDef (w.fmt n)).width)
    if act = 0 || v.sv || !s.rangeSv v (w.pair a k).toNat ((bits + 7) / 8) then none
    else some { cause := 0x04, lane := some k, index := k }
  | _ => s.svFault v (storeAccs w i act)

/-- The words that lane `i` of an instruction reads: source registers in the order of the operands, and the header of a flit
(R119, R335). A macro-instruction reads lane L alone (R57); a lane exchange delivers words of other lanes (R148). -/
def readWords (w : Weft) (i : Instr) (act : Word) (lane : Nat) : List (Reg × Nat) :=
  let own : List (Reg × Nat) := match i with
    | .shfl _ _ a b m =>
      let y := (w.lane b lane).toNat
      let src := match m with
        | .idx => y % 32
        | .up => if y ≤ lane then lane - y else lane
        | .down => if lane + y ≤ 31 then lane + y else lane
        | .xor => lane ^^^ (y % 32)
      [(b, lane), (a, src)]
    | .bcast _ _ a b => [(b, lowestLane act), (a, (w.lane b (lowestLane act)).toNat % 32)]
    | .ballot _ _ a | .vote _ _ a _ => (lanesOf act).map fun j => (a, j)
    | .lprefix _ _ a => ((lanesOf act).filter (· < lane)).map fun j => (a, j)
    | i =>
      ((operandUses i).filter (·.src)).flatMap fun u =>
        if isMacro i && lane != lowestLane act then [] else u.regs.map fun r => (r, lane)
  own ++ if lane = lowestLane act then (headerReg w i act).map fun r => (r, lane) else []

/-- The guard words of the lanes of a mask (R94). -/
def guardWords (i : Instr) (m : Word) : List (Reg × Nat) :=
  if (guardOf i).g = 255 then [] else (lanesOf m).map fun lane => ((guardOf i).g, lane)

/-- An active lane reads a word in uncorrectable error: the lowest lane, its first such operand (R425). DESIGN CHOICE (log
entry 32): the manual speaks of words read by active lanes and does not say what a guard's own word in error does; the model
takes every lane of the entry as active for the reading of its guard. -/
def eccTrap (w : Weft) (i : Instr) (mask act : Word) : Option (Reg × Nat) :=
  if w.poison.isEmpty then none
  else
    (lanesOf mask).findSome? fun lane =>
      let ws := ((guardWords i mask).filter (·.2 == lane)) ++ (if act.getLsbD lane then readWords w i act lane else [])
      (ws.find? fun p => p.1 != 255 && (SMap.find? w.poison (regKey p.1 p.2)).isSome).map fun p => (p.1, lane)

/-- The words of lanes that are not active for the instruction's reading of them: source words of inactive lanes, and guard
words of lanes outside the entry (R119). Of a macro-instruction's sources no other lane is read (R57, R124, R184, R343). -/
def idleWords (i : Instr) (mask act : Word) : List (Reg × Nat) :=
  let srcs := if isMacro i then [] else ((operandUses i).filter (·.src)).flatMap (·.regs)
  (srcs.flatMap fun r => (lanesOf (~~~act)).map fun lane => (r, lane)) ++ guardWords i (~~~mask)

/-- The words among them in uncorrectable error, not yet logged (R119). -/
def deferredErrors (w : Weft) (i : Instr) (mask act : Word) : List Nat :=
  if w.poison.isEmpty then []
  else
    ((idleWords i mask act).filter fun p => p.1 != 255 && SMap.find? w.poison (regKey p.1 p.2) == some false).map fun p =>
      regKey p.1 p.2

/-- Mark and log deferred errors (R119, R425). -/
def State.logDeferred (s : State) (l k ctx : Nat) (keys : List Nat) : State :=
  keys.eraseDups.foldl (fun s key =>
    let s1 := s.modWeft l k fun w => { w with poison := SMap.put w.poison key true }
    (s1.eventRecord 0x08 l ctx (BitVec.ofNat 64 k) (BitVec.ofNat 64 (key / 32))).loomError l 1) s

/-- Corrected errors met by the words of active lanes and of the others, guard words among them (R94, R119, R412). -/
def State.countSoft (s : State) (l : Nat) (w : Weft) (i : Instr) (mask act : Word) : State :=
  if w.soft.isEmpty then s
  else
    let words := guardWords i mask ++ (lanesOf act).flatMap (fun lane => readWords w i act lane) ++ idleWords i mask act
    let n := (words.eraseDups.filter fun p => w.soft.contains (regKey p.1 p.2)).length
    (List.range n).foldl (fun s _ => (s.loomError l 0).countLoom l 0x13 w.ctx 1) s

/-- The first cause of R415's items 3 to 7 that an instruction meets; `denied` is the fault of its store (R6). -/
def commonTrap (w : Weft) (i : Instr) (mask act : Word) (denied : Option Cause) : Option Cause :=
  if (match needsRole i with | none => false | some r => w.role != r) then some { cause := 0x03 }
  else if portIllegal w i then some { cause := 0x02 }
  else
    match lowestOut w i with
    | some r => some { cause := 0x05, code := r.toNat }
    | none =>
      if isPrivileged i && !w.sv then some { cause := 0x04 }
      else
        match denied, eccTrap w i mask act with
        | some c, _ => some c
        | none, some (r, lane) => some { cause := 0x06, code := r.toNat, lane := some lane, index := lane }
        | none, none => none

/-- The default lane of a frame: the lowest active lane, or the lowest of the entry (R419). -/
def faultLane (mask act : Word) : Nat := if act = 0 then lowestLane mask else lowestLane act

/-- The counts and event records of a trap that an error causes (R339, R412, R425). -/
def State.noteTrap (s : State) (l : Nat) (w : Weft) (i : Instr) (c : Cause) : State :=
  if c.cause = 0x06 then s.loomError l 1
  else if c.cause = 0x0E then
    match i with
    | .aread .. => s.loomError l 5
    | _ => s.noteError (s.viewOf l w) c.detail
  else s

/-! ## Messages (R335) -/

/-- The destination of a flit: the weft whose port the header names, in the issuing context. -/
def State.portOf (s : State) (ctx : Nat) (header : Word) : Option (Nat × Nat × Port) :=
  let l := (header.extractLsb' 0 8).toNat
  let k := (header.extractLsb' 8 10).toNat
  match s.weft? l k with
  | none => none
  | some w => if w.ctx = ctx then w.port.map fun p => (l, k, p) else none

/-- A flit of a loom enters a port, that of slot k of loom l, across the dies between them (R17). -/
def State.sendFlit (s : State) (from_ l k : Nat) (flit : List Word) : State :=
  (s.modWeft l k fun w => { w with port := w.port.map fun p => { p with flits := p.flits ++ [flit] } }).crossDies (dieOf from_)
    (dieOf l) 128

/-- Take the oldest flit of a weft's port. -/
def Weft.takeFlit (w : Weft) : Weft := { w with port := w.port.map fun p => { p with flits := p.flits.tail } }

/-- Zero the raw words of the send register, where a body puts the lanes of its flit. -/
def Weft.clearRaw (w : Weft) (r : Reg) : Weft := { w with regs := SMap.dropRange w.regs (32 * r.toNat) (32 * r.toNat + 32) }

/-- Put back the words that a register held. -/
def Weft.restoreRaw (w : Weft) (r : Reg) (f : Nat → Word) : Weft :=
  (List.range 32).foldl (fun w i => { w with regs := SMap.set w.regs 0 (regKey r i) (f i) }) w

/-! ## What an issue leaves -/

/-- Set the side-effect bit of a weft's team (R427). -/
def State.sideEffect (s : State) (l : Nat) (w : Weft) : State :=
  match w.team with
  | none => s
  | some h => s.modTeam l h fun t => { t with sideEffect := true }

/-- Ones of a mask. -/
def popcount (m : Word) : Nat := (lanesOf m).length

/-- The counts of an issue (R44, R161, R404, R426): the team's instructions, event counters, the quadrant's last slot, and
the yielded wefts that wait for this one. -/
def State.countIssue (s : State) (l k : Nat) (w : Weft) (act : Word) (starving : Bool) : State :=
  let s1 := match w.team with
    | none => s
    | some h => s.modTeam l h fun t => { t with issued := t.issued + 1 }
  let s2 := (s1.countLoom l 0x03 w.ctx 1).countLoom l 0x04 w.ctx (popcount act)
  let s3 := if starving then s2.countLoom l 0x07 w.ctx 1 else s2
  s3.modLoom l fun x =>
    { x with last := setAt x.last (k % 4) k,
             wefts := if x.wefts.any (fun p => p.2.yielded.isSome) then x.wefts.map fun p =>
                 (p.1, { p.2 with yielded := p.2.yielded.map fun y => { y with slots := y.slots.filter (· != k) } })
               else x.wefts }

/-- The records of a vector instruction (R85, R170). -/
def laneRecords (x : Iss) (recs : List LaneRec) : List ConvRec :=
  recs.map fun r => { pc := x.pc, slot := x.k, lane := r.lane, engine := false, loom := x.l, code := r.code,
                      element := r.element }

/-- The entry that issues is starving (R42). -/
def Weft.starvingAt (w : Weft) (pc : DWord) : Bool := w.held.any fun e => e.pc == pc && e.starving

/-- Completion of an instruction that sends no message: flags, records, the frontier, counts. -/
def State.complete (s : State) (x : Iss) (i : Instr) (fl : BitVec 6) (recs : List LaneRec)
    (upd : Weft → Weft) : State :=
  let s1 := s.vectorRecords x.l x.k x.w.ctx (laneRecords x recs)
  let s2 := s1.modWeft x.l x.k fun w =>
    let w := if readsPort x.w i && x.act != 0 then w.takeFlit else w
    upd { w with fpx := w.fpx ||| fl, wait := .none, awaited := none }
  s2.countIssue x.l x.k x.w x.act (x.w.starvingAt x.pc)

/-- Completion of an instruction whose destination is the send register (R335): where its flit finds no room it does not
issue. `s` is the state before it, `s0` with the errors that it met noted, `s'` after its body, whose lanes of the flit lie in
the raw words of S. -/
def finishSend (s s0 s' : State) (x : Iss) (i : Instr) (p : Port) (fl : BitVec 6) (recs : List LaneRec) : State :=
  let header := x.w.lane p.h x.lane
  match s'.weft? x.l x.k with
  | none => s'
  | some w' =>
    let flit := (List.range 32).map fun j => if x.act.getLsbD j then w'.raw p.s j else 0
    match s'.portOf x.w.ctx header with
    | none => s0.raise x.l x.k x.pc x.lane { cause := 0x19, lane := some x.lane }
    | some (tl, tk, tp) =>
      if tp.flits.length ≥ tp.quota then s.modWeft x.l x.k fun w => { w with wait := .full x.pc header x.act }
      else
        let s1 := s'.modWeft x.l x.k fun w => w.restoreRaw p.s (x.w.raw p.s)
        let s2 := (s1.sideEffect x.l x.w).complete x i fl recs fun w => w.advance x.pc
        s2.sendFlit x.l tl tk flit

/-- THE ISSUE of an instruction: holds, the checks of R415, its body, and what it leaves. -/
def issue (i : Instr) (body : Iss → State → Effect) (s : State) : Result :=
  match s.cur with
  | none => .fault .noIssuingWeft
  | some c =>
    match s.weft? c.loom c.slot with
    | none => .fault .noIssuingWeft
    | some w =>
      let act := w.active (guardOf i) c.mask
      if s.regsHold c.loom c.slot w i act || portHolds w i act then .next s
      else
        match commonTrap w i c.mask act (s.svDenied c.loom w i act) with
        | some e => .next ((s.noteTrap c.loom w i e).raise c.loom c.slot c.pc (faultLane c.mask act) e)
        | none =>
          let x : Iss := { l := c.loom, k := c.slot, w := w, pc := c.pc, mask := c.mask, prio := c.prio, act := act,
                           lane := lowestLane act, legacy := c.legacy, word := c.word }
          let s0 := (s.logDeferred c.loom c.slot w.ctx (deferredErrors w i c.mask act)).countSoft c.loom w i c.mask act
          let sends := sendsMessage w i act && (engineOf i).isNone
          let sb := if sends then
              match w.port with
              | some p => s0.modWeft c.loom c.slot fun w => w.clearRaw p.s
              | none => s0
            else s0
          -- the raw words of S, where the body has not made a flit of them
          let keep (t : State) : State :=
            match w.port with
            | some p => if sends then t.modWeft c.loom c.slot fun w' => w'.restoreRaw p.s (w.raw p.s) else t
            | none => t
          match body x sb with
          | .hold => .next s
          | .holdRange => .next (s.countLoom c.loom 0x0B w.ctx 1)
          | .park => .next (s.modWeft c.loom c.slot fun w => { w with wait := .parked c.pc })
          | .trap e => .next ((s0.noteTrap c.loom w i e).raise c.loom c.slot c.pc (faultLane c.mask act) e)
          | .trapIn s' e => .next (((keep s').noteTrap c.loom w i e).raise c.loom c.slot c.pc (faultLane c.mask act) e)
          | .done s' fl recs =>
            (match w.port with
              | some p =>
                if sends then .next (finishSend s s0 s' x i p fl recs)
                else .next (s'.complete x i fl recs fun w => w.advance c.pc)
              | none => .next (s'.complete x i fl recs fun w => w.advance c.pc))
          | .jump s' es => .next (s'.complete x i 0 [] fun w => w.replaceEntry c.pc es)
          | .waits s' =>
            .next (((keep s').modWeft c.loom c.slot fun w =>
              (if readsPort x.w i && x.act != 0 then w.takeFlit else w).issued c.pc).countIssue c.loom c.slot w act
                (w.starvingAt c.pc))
          | .begins s' => .next (keep s')
          | .after s' e =>
            .next ((s'.complete x i 0 [] fun w => w.advance c.pc).raise c.loom c.slot c.pc (faultLane c.mask act) e)
          | .holdIn s' => .next s'
          | .left s' => .next (s'.countIssue c.loom c.slot w act (w.starvingAt c.pc))

/-! ## The common shapes of bodies -/

/-- A register result in every active lane. -/
def regBody (d : Reg) (f : Weft → Iss → Nat → Word) (x : Iss) (s : State) : Effect :=
  .ok (s.modWeft x.l x.k fun w => w.writeLanes x.act d (f x.w x))

/-- A pair result in every active lane. -/
def pairBody (d : Reg) (f : Weft → Iss → Nat → DWord) (x : Iss) (s : State) : Effect :=
  .ok (s.modWeft x.l x.k fun w => w.writePairs x.act d (f x.w x))

/-- A body that does nothing when no lane is active (R57). -/
def macroBody (body : Iss → State → Effect) (x : Iss) (s : State) : Effect :=
  if x.act = 0 then .ok s else body x s

/-- Write Lane(d, L). -/
def State.setL (s : State) (x : Iss) (d : Reg) (v : Word) : State :=
  s.modWeft x.l x.k fun w => w.setLane d x.lane v

/-- Write Pair(d, L). -/
def State.setLPair (s : State) (x : Iss) (d : Reg) (v : DWord) : State :=
  s.modWeft x.l x.k fun w => w.setPair d x.lane v

/-- A precise fault at lane L of a macro-instruction. -/
def faultL (x : Iss) (cause : Nat) (detail : DWord := 0) (code : Nat := 0) (index : Nat := 0) : Effect :=
  .trap { cause := cause, code := code, lane := some x.lane, index := index, detail := detail }

/-- The view of the issuing weft. -/
def State.view (s : State) (x : Iss) : View := s.viewOf x.l x.w

end Sys2Proof.Machine
end

