-- ==== Sys2Proof/Machine/Trans.lean ====
section
/-! DEFINITION. Division, roots and the transcendentals of R87, R88 and R176: exact where the result is rational or
algebraic; otherwise by enclosing the result at rising precision until both ends round alike (log entry 15). -/

namespace Sys2Proof.Machine

/-- ⌊√n⌋, bit by bit from bit `k` down. -/
def isqrtBits : Nat → Nat → Nat → Nat
  | 0, _, r => r
  | k + 1, n, r =>
    let t := r + 2 ^ k
    if t * t ≤ n then isqrtBits k n t else isqrtBits k n r

/-- ⌊√n⌋. -/
def isqrt (n : Nat) : Nat := isqrtBits (n.log2 / 2 + 1) n 0

/-- A positive quotient m1·2^e1 / m2·2^e2 with 80 bits and a sticky (R78). -/
def divScaled (m1 : Nat) (e1 : Int) (m2 : Nat) (e2 : Int) : Nat × Int × Bool :=
  let k := 80 + (m2.log2 + 1) - (min m1.log2 m2.log2)
  let n := m1 * 2 ^ k
  (n / m2, e1 - e2 - k, n % m2 != 0)

/-- A rounded result with added flags. -/
def Rounded.add (r : Rounded) (fl : BitVec 6) : Rounded := { r with flags := r.flags ||| fl }

/-- fdiv (R88, R176). -/
def fdivNum (f : Fmt) (x y : Num) : Rounded :=
  match x, y with
  | .nan _, _ => f.nanOut
  | _, .nan _ => f.nanOut
  | .inf _, .inf _ => f.nanOut.add NV
  | .inf a, .fin b _ _ => f.round (.inf (a != b)) false
  | .fin a _ _, .inf b => f.round (.zero (a != b)) false
  | .fin a m1 e1, .fin b m2 e2 =>
    if m2 = 0 then
      if m1 = 0 then f.nanOut.add NV else (f.round (.inf (a != b)) false).add DZ
    else if m1 = 0 then f.round (.zero (a != b)) false
    else
      let (q, e, st) := divScaled m1 e1 m2 e2
      f.round (.fin (a != b) q e) st

/-- fsqrt (R88, R176). -/
def fsqrtNum (f : Fmt) (x : Num) : Rounded :=
  match x with
  | .nan _ => f.nanOut
  | .inf neg => if neg then f.nanOut.add NV else f.round (.inf false) false
  | .fin neg m e =>
    if m = 0 then f.round (.zero neg) false
    else if neg then f.nanOut.add NV
    else
      let odd := e % 2 = 1
      let m' := if odd then 2 * m else m
      let e' := if odd then e - 1 else e
      let r := isqrt (m' * 2 ^ 80)
      f.round (.fin false r (e' / 2 - 40)) (r * r != m' * 2 ^ 80)

/-- frsq (R88, R176). -/
def frsqNum (f : Fmt) (x : Num) : Rounded :=
  match x with
  | .nan _ => f.nanOut
  | .inf neg => if neg then f.nanOut.add NV else f.round (.zero false) false
  | .fin neg m e =>
    if m = 0 then (f.round (.inf neg) false).add DZ
    else if neg then f.nanOut.add NV
    else
      let odd := e % 2 = 1
      let m' := if odd then 2 * m else m
      let e' := if odd then e - 1 else e
      let k := 40 + m'.log2
      let r := isqrt (2 ^ (2 * k) / m')
      f.round (.fin false r (-(e' / 2) - k)) (r * r * m' != 2 ^ (2 * k))

/-! ## Enclosures: an integer v with |true · 2^p − v| ≤ the stated bound -/

/-- ln 2 · 2^p, within 2p + 2. -/
def ln2Fix (p : Nat) : Nat :=
  (List.range (p + 4)).foldl (fun acc k => acc + 2 ^ p / ((k + 1) * 2 ^ (k + 1))) 0

/-- atan(1/n) · 2^p by its series, with `k` terms left. -/
def atanInvFix (p n : Nat) : Nat → Nat → Nat → Bool → Int
  | 0, _, _, _ => 0
  | k + 1, pow, d, plus =>
    let t : Int := (pow / d : Nat)
    (if plus then t else -t) + atanInvFix p n k (pow / (n * n)) (d + 2) (!plus)

/-- π · 2^p by Machin's formula, within 32·(p + 8). -/
def piFix (p : Nat) : Nat :=
  let a5 := atanInvFix p 5 (p + 4) (2 ^ p / 5) 1 true
  let a239 := atanInvFix p 239 (p + 4) (2 ^ p / 239) 1 true
  (16 * a5 - 4 * a239).toNat

/-- e^t · 2^p for 0 ≤ t < 1 held as t · 2^p, with `k` terms left; `term` is the current term. -/
def expFix (p t : Nat) : Nat → Nat → Nat → Nat
  | 0, _, _ => 0
  | k + 1, term, i => term + expFix p t k (term * t / 2 ^ p / (i + 1)) (i + 1)

/-- sin or cos of t (0 ≤ t < 4) held as t · 2^p, by its alternating series. -/
def sinCosFix (p t : Nat) : Nat → Nat → Nat → Bool → Int
  | 0, _, _, _ => 0
  | k + 1, term, i, plus =>
    let v : Int := term
    (if plus then v else -v) + sinCosFix p t k (term * t / 2 ^ p * t / 2 ^ p / ((i + 1) * (i + 2))) (i + 2) (!plus)

/-- atanh(z) · 2^p for 0 ≤ z ≤ 1/3 held as z · 2^p: Σ z^(2k+1)/(2k+1). -/
def atanhFix (p z : Nat) : Nat → Nat → Nat → Nat
  | 0, _, _ => 0
  | k + 1, pow, d => pow / d + atanhFix p z k (pow * z / 2 ^ p * z / 2 ^ p) (d + 2)

/-- An enclosure of a positive result: v · 2^e with error at most `err` units of v, or the exact value when `err` is
0. -/
structure Enclosure where
  v : Nat
  e : Int
  err : Nat

/-- mant · 2^exp as an integer multiple of 2^−p, rounded down. -/
def fixDown (mant : Nat) (exp : Int) (p : Nat) : Nat :=
  if exp + p ≥ 0 then mant * 2 ^ (exp + p).toNat else mant >>> (-(exp + p)).toNat

/-- 2^x for x = ±mant·2^exp, not an integer and of moderate size (R176). -/
def exp2Enc (neg : Bool) (mant : Nat) (exp : Int) (p : Nat) : Enclosure :=
  -- x = n + r / 2^k, 0 ≤ r < 2^k
  let k := (-exp).toNat
  let z : Int := if neg then -(mant : Int) else mant
  let n := z / (2 ^ k : Nat)
  let r := (z % (2 ^ k : Nat)).toNat
  let rp := if k ≤ p then r * 2 ^ (p - k) else r >>> (k - p)
  let t := rp * ln2Fix p / 2 ^ p
  { v := expFix p t (p + 8) (2 ^ p) 0, e := n - p, err := 64 * (p + 64) }

/-- |log2 x| and its sign for x = mant·2^exp > 0, not a power of two (R176). -/
def log2Enc (mant : Nat) (exp : Int) (p : Nat) : Bool × Enclosure :=
  let l := mant.log2
  let e := exp + l
  -- m = mant / 2^l in [1, 2); z = (m − 1)/(m + 1)
  let z := (mant - 2 ^ l) * 2 ^ p / (mant + 2 ^ l)
  let lnm := 2 * atanhFix p z (p + 8) z 1
  let frac := lnm * 2 ^ p / ln2Fix p
  let total : Int := e * (2 ^ p : Nat) + frac
  (total < 0, { v := total.natAbs, e := -p, err := 64 * (p + 64) })

/-- sin(π r) for r = ρ·2^−p in (0, 1/2] (R176). -/
def sinPiEnc (rp p : Nat) : Enclosure :=
  let t := rp * piFix p / 2 ^ p
  { v := (sinCosFix p t (p + 8) t 1 true).toNat, e := -p, err := 64 * (p + 64) }

/-- tanh x for x = mant·2^exp > 0 of moderate size (R176). -/
def tanhEnc (mant : Nat) (exp : Int) (p : Nat) : Enclosure :=
  -- e^{2x} = 2^{2x / ln 2}
  let x2 := fixDown mant (exp + 1) (p + 16)
  let y := x2 * 2 ^ (p + 16) / ln2Fix (p + 16)
  let n := y / 2 ^ (p + 16)
  let r := (y % 2 ^ (p + 16)) / 2 ^ 16
  let t := r * ln2Fix p / 2 ^ p
  let ex := expFix p t (p + 8) (2 ^ p) 0 * 2 ^ n
  { v := (ex - 2 ^ p) * 2 ^ p / (ex + 2 ^ p), e := -p, err := 64 * (p + 64) }

/-- Round both ends of an enclosure; they agree when the result is settled. -/
def Enclosure.settle (f : Fmt) (neg : Bool) (x : Enclosure) : Option Rounded :=
  if x.v ≤ x.err + 1 then none
  else
    let a := f.round (.fin neg (x.v - x.err - 1) x.e) true
    let b := f.round (.fin neg (x.v + x.err) x.e) true
    if a = b then some a else none

/-- The precisions tried, in bits: up to 2^64. PRESUMED (log entry 15): the explicit lower bounds for linear forms in two logarithms
put every result that is not exact farther from a rounding boundary than a precision of the ladder resolves. -/
def ladder : List Nat := [128, 224, 416, 800, 1568] ++ (List.range 54).map fun k => 2 ^ (11 + k)

/-- The first precision at which the enclosure settles; past the ladder, which no operand is presumed to reach, the free value of
log entry 15. -/
def climb (f : Fmt) (d : DWord) (fn : Nat) (code : Word) (enc : Nat → Bool × Enclosure) : List Nat → Rounded
  | [] => { bits := (Config.unsettled fn d code).toNat % 2 ^ f.width, flags := NX }
  | p :: ps =>
    match (enc p).2.settle f (enc p).1 with
    | some r => r
    | none => climb f d fn code enc ps

/-- Just above x = mant·2^exp in magnitude, and just below it: surrogates of a result nearer to x than any rounding
boundary. -/
def justAbove (f : Fmt) (neg : Bool) (mant : Nat) (exp : Int) : Rounded :=
  f.round (.fin neg (mant * 2 ^ 200) (exp - 200)) true
def justBelow (f : Fmt) (neg : Bool) (mant : Nat) (exp : Int) : Rounded :=
  f.round (.fin neg (mant * 2 ^ 200 - 1) (exp - 200)) true

/-- mant·2^exp is an integer. -/
def isInteger (mant : Nat) (exp : Int) : Bool := exp ≥ 0 || mant % 2 ^ (-exp).toNat == 0

/-- fexp2 (R88, R176). -/
def fexp2Num (f : Fmt) (d : DWord) (code : Word) (x : Num) : Rounded :=
  match x with
  | .nan _ => f.nanOut
  | .inf neg => if neg then f.round (.zero false) false else f.round (.inf false) false
  | .fin neg m e =>
    if m = 0 then f.round (.fin false 1 0) false
    else if ilog2 m e ≥ 18 then
      (if neg then f.round (.fin false 1 (-(2 ^ 18))) true else f.round (.fin false 1 (2 ^ 18)) true)
    else if isInteger m e then
      let n : Int := if e ≥ 0 then (m * 2 ^ e.toNat : Nat) else (m >>> (-e).toNat : Nat)
      f.round (.fin false 1 (if neg then -n else n)) false
    else if ilog2 m e < -190 then (if neg then justBelow f false 1 0 else justAbove f false 1 0)
    else climb f d 0 code (fun p => (false, exp2Enc neg m e p)) ladder

/-- flog2 (R88, R176). -/
def flog2Num (f : Fmt) (d : DWord) (code : Word) (x : Num) : Rounded :=
  match x with
  | .nan _ => f.nanOut
  | .inf neg => if neg then f.nanOut.add NV else f.round (.inf false) false
  | .fin neg m e =>
    if m = 0 then (f.round (.inf true) false).add DZ
    else if neg then f.nanOut.add NV
    else if m = 2 ^ m.log2 then f.round (Num.ofInt (e + m.log2)) false
    else climb f d 1 code (fun p => log2Enc m e p) ladder

/-- x mod 2 for x = mant·2^exp ≥ 0, in units of 2^exp (exp < 0), and the units of one. -/
def mod2 (mant : Nat) (exp : Int) : Nat × Nat :=
  let k := (-exp).toNat
  (mant % 2 ^ (k + 1), 2 ^ k)

/-- sin(π·r/one) for 0 < r < one, positive; `h` is the distance of r to the nearer of 0 and one. -/
def sinPiPos (f : Fmt) (d : DWord) (fn : Nat) (code : Word) (neg : Bool) (h one : Nat) : Rounded :=
  if 2 * h = one then f.round (.fin neg 1 0) false
  else
    let k := one.log2
    if (h.log2 : Int) - k < -64 then
      -- sin(πy) = πy(1 − ε), ε < 2^−120
      climb f d fn code (fun p =>
        (neg, { v := h * piFix (p + 64), e := -((p + 64 : Nat) : Int) - k,
                err := h * (64 * (p + 128)) + (h * piFix (p + 64)) / 2 ^ 120 + 1 })) ladder
    else climb f d fn code (fun p => (neg, sinPiEnc (h * 2 ^ p / one) p)) ladder

/-- fsinpi (R88, R176). -/
def fsinpiNum (f : Fmt) (d : DWord) (code : Word) (x : Num) : Rounded :=
  match x with
  | .nan _ => f.nanOut
  | .inf _ => f.nanOut.add NV
  | .fin neg m e =>
    if m = 0 ∨ isInteger m e then f.round (.zero neg) false
    else
      let (r, one) := mod2 m e
      let second := r > one
      let r' := if second then r - one else r
      let h := if 2 * r' > one then one - r' else r'
      sinPiPos f d 2 code (neg != second) h one

/-- fcospi (R88, R176): cos(πx) = sin(π(x + 1/2)). -/
def fcospiNum (f : Fmt) (d : DWord) (code : Word) (x : Num) : Rounded :=
  match x with
  | .nan _ => f.nanOut
  | .inf _ => f.nanOut.add NV
  | .fin _ m e =>
    if m = 0 then f.round (.fin false 1 0) false
    else if e ≥ 0 then f.round (.fin (m * 2 ^ min e.toNat 1 % 2 = 1) 1 0) false
    else if ilog2 m e < -190 then justBelow f false 1 0
    else
      let (r0, one0) := mod2 m e
      -- in units of half of 2^exp, shifted by one half
      let one := 2 * one0
      let r := (2 * r0 + one0) % (2 * one)
      if r % one = 0 then f.round (.zero false) false
      else
        let second := r > one
        let r' := if second then r - one else r
        let h := if 2 * r' > one then one - r' else r'
        let off := if 2 * h > one then 2 * h - one else one - 2 * h
        if off ≠ 0 ∧ (off.log2 : Int) - one.log2 < -100 then justBelow f second 1 0
        else sinPiPos f d 3 code second h one

/-- ftanh (R88, R176). -/
def ftanhNum (f : Fmt) (d : DWord) (code : Word) (x : Num) : Rounded :=
  match x with
  | .nan _ => f.nanOut
  | .inf neg => f.round (.fin neg 1 0) false
  | .fin neg m e =>
    if m = 0 then f.round (.zero neg) false
    else if ilog2 m e ≥ 7 then justBelow f neg 1 0
    else if ilog2 m e < -64 then justBelow f neg m e
    else climb f d 4 code (fun p => (neg, tanhEnc m e p)) ladder

/-- frcp (R88, R176). -/
def frcpNum (f : Fmt) (x : Num) : Rounded :=
  match x with
  | .nan _ => f.nanOut
  | .inf neg => f.round (.zero neg) false
  | .fin neg m _ => if m = 0 then (f.round (.inf neg) false).add DZ else fdivNum f (.fin false 1 0) x

end Sys2Proof.Machine
end

