-- ==== Sys2Proof/Machine/Arith.lean ====
section
/-! DEFINITION. Slot-named arithmetic, codes 0x080 to 0x09D (07_format_arithmetic.md R168 to R186). -/

namespace Sys2Proof.Machine

/-! ## The element rule (R168, R170) -/

/-- The result of one lane: its word, flags, and records by element. -/
structure LaneOut where
  word : Word
  flags : BitVec 6
  recs : List (Nat × Nat)

/-- Results for elements 0 on, packed in width w (R79, R168). -/
def packOut (w : Nat) (rs : List Rounded) : LaneOut :=
  { word := packLane w (rs.map (·.bits)), flags := rs.foldl (fun f r => f ||| r.flags) 0,
    recs := rs.zipIdx.filterMap fun p => p.1.record.map fun c => (p.2, c) }

/-- Write each active lane's result to d, with flags and records in lane order (R170). -/
def slotEffect (x : Iss) (s : State) (d : Reg) (out : Nat → LaneOut) : Effect :=
  let outs := (lanesOf x.act).map fun i => (i, out i)
  .done (s.modWeft x.l x.k fun w => outs.foldl (fun w p => w.setLane d p.1 p.2.word) w)
    (outs.foldl (fun f p => f ||| p.2.flags) 0)
    (outs.flatMap fun p => p.2.recs.map fun r => { lane := p.1, element := r.1, code := r.2 })

/-- The format of a slot of the issuing weft. -/
def Iss.fmt (x : Iss) (n : BitVec 4) : Fmt := Fmt.ofDef (x.w.fmt n)

/-- An element-wise function of up to three registers (R168). -/
def elemBody (n : BitVec 4) (d a b c : Reg) (g : Iss → Fmt → Nat → Num → Num → Num → Rounded) (x : Iss) (s : State) :
    Effect :=
  let f := x.fmt n
  slotEffect x s d fun i =>
    packOut f.width ((List.range f.perLane).map fun j =>
      g x f i (f.elemNum (x.w.lane a i) j) (f.elemNum (x.w.lane b i) j) (f.elemNum (x.w.lane c i) j))

/-- A function of a float slot alone: any other kind is a format fault (R169); it is given the element's code. -/
def floatBody (n : BitVec 4) (d a b : Reg) (g : Fmt → DWord → Word → Num → Num → Rounded) (x : Iss) (s : State) :
    Effect :=
  let f := x.fmt n
  if !f.isFloat then .trap { cause := 0x07 }
  else
    slotEffect x s d fun i =>
      packOut f.width ((List.range f.perLane).map fun j =>
        let u := f.elemNum (x.w.lane a i) j
        let v := f.elemNum (x.w.lane b i) j
        g f (x.w.fmt n) (BitVec.ofNat 32 (elem (x.w.lane a i) j f.width)) u v)

/-! ## Functions F (R173 to R175) -/

/-- x + y, x − y, x · y and x · y + z, rounded once. -/
def addOut (f : Fmt) (x y : Num) : Rounded :=
  let v := sumNums f.rdn [x, y]
  (f.round v.1 false).add (v.2 ||| x.readFlags ||| y.readFlags)
def subOut (f : Fmt) (x y : Num) : Rounded := addOut f x y.neg
def mulOut (f : Fmt) (x y : Num) : Rounded :=
  let v := mulNum x y
  (f.round v.1 false).add (v.2 ||| x.readFlags ||| y.readFlags)
def fmaOut (f : Fmt) (x y z : Num) : Rounded :=
  let p := mulNum x y
  let v := sumNums f.rdn [p.1, z]
  (f.round v.1 false).add (p.2 ||| v.2 ||| x.readFlags ||| y.readFlags ||| z.readFlags)
/-- fmin and fmax (R174). -/
def minMaxOut (max legacy : Bool) (f : Fmt) (x y : Num) : Rounded :=
  (f.round (minMaxNum max legacy x y) false).add (x.readFlags ||| y.readFlags)
/-- x · 2^k (R173). -/
def scaleNum (k : Int) : Num → Num
  | .fin n m e => .fin n m (e + k)
  | v => v

/-- The rounding mode of an rm field (R172). -/
def rmCode (f : Fmt) : Rm → Nat
  | .own => f.rnd | .rne => 0 | .rtz => 1 | .rdn => 2 | .rup => 3 | .rna => 4

/-- The integer nearest a finite value in a direction: magnitude and whether it is inexact (R175). -/
def roundInt (rnd : Nat) (neg : Bool) (m : Nat) (e : Int) : Nat × Bool :=
  let (n, half, rest) := quantize m e 0
  ((if roundsUp rnd neg half rest false (n % 2 == 1) then n + 1 else n), rest)

/-- fround (R175). -/
def froundOut (rm : Rm) (f : Fmt) (x : Num) : Rounded :=
  match x with
  | .fin neg m e =>
    let (n, inex) := roundInt (rmCode f rm) neg m e
    (f.round (.fin neg n 0) false).add (if inex then NX else 0)
  | v => (f.round v false).add v.readFlags

def execFadd (h : Guard) (n : BitVec 4) (d a b : Reg) (s : State) : Result :=
  issue (.fadd h n d a b) (elemBody n d a b 255 fun _ f _ x y _ => addOut f x y) s
def execFsub (h : Guard) (n : BitVec 4) (d a b : Reg) (s : State) : Result :=
  issue (.fsub h n d a b) (elemBody n d a b 255 fun _ f _ x y _ => subOut f x y) s
def execFmul (h : Guard) (n : BitVec 4) (d a b : Reg) (s : State) : Result :=
  issue (.fmul h n d a b) (elemBody n d a b 255 fun _ f _ x y _ => mulOut f x y) s
def execFma (h : Guard) (n : BitVec 4) (d a b c : Reg) (s : State) : Result :=
  issue (.fma h n d a b c) (elemBody n d a b c fun _ f _ x y z => fmaOut f x y z) s
def execFmin (h : Guard) (n : BitVec 4) (d a b : Reg) (s : State) : Result :=
  issue (.fmin h n d a b) (elemBody n d a b 255 fun q f _ x y _ => minMaxOut false q.legacy f x y) s
def execFmax (h : Guard) (n : BitVec 4) (d a b : Reg) (s : State) : Result :=
  issue (.fmax h n d a b) (elemBody n d a b 255 fun q f _ x y _ => minMaxOut true q.legacy f x y) s
def execFabs (h : Guard) (n : BitVec 4) (d a : Reg) (s : State) : Result :=
  issue (.fabs h n d a) (elemBody n d a 255 255 fun _ f _ x _ _ => (f.round x.abs false).add x.readFlags) s
def execFneg (h : Guard) (n : BitVec 4) (d a : Reg) (s : State) : Result :=
  issue (.fneg h n d a) (elemBody n d a 255 255 fun _ f _ x _ _ => (f.round x.neg false).add x.readFlags) s
def execFscale (h : Guard) (n : BitVec 4) (d a b : Reg) (s : State) : Result :=
  issue (.fscale h n d a b) (elemBody n d a 255 255 fun q f i x _ _ =>
    (f.round (scaleNum (sx (q.w.lane b i)) x) false).add x.readFlags) s
def execFround (h : Guard) (rm : Rm) (n : BitVec 4) (d a : Reg) (s : State) : Result :=
  issue (.fround h rm n d a) (elemBody n d a 255 255 fun _ f _ x _ _ => froundOut rm f x) s

/-! ## Division and transcendentals (R176) -/

def execFdiv (h : Guard) (n : BitVec 4) (d a b : Reg) (s : State) : Result :=
  issue (.fdiv h n d a b) (floatBody n d a b fun f _ _ x y => (fdivNum f x y).add (x.readFlags ||| y.readFlags)) s
def execFrcp (h : Guard) (n : BitVec 4) (d a : Reg) (s : State) : Result :=
  issue (.frcp h n d a) (floatBody n d a 255 fun f _ _ x _ => (frcpNum f x).add x.readFlags) s
def execFsqrt (h : Guard) (n : BitVec 4) (d a : Reg) (s : State) : Result :=
  issue (.fsqrt h n d a) (floatBody n d a 255 fun f _ _ x _ => (fsqrtNum f x).add x.readFlags) s
def execFrsq (h : Guard) (n : BitVec 4) (d a : Reg) (s : State) : Result :=
  issue (.frsq h n d a) (floatBody n d a 255 fun f _ _ x _ => (frsqNum f x).add x.readFlags) s
def execFexp2 (h : Guard) (n : BitVec 4) (d a : Reg) (s : State) : Result :=
  issue (.fexp2 h n d a) (floatBody n d a 255 fun f q c x _ => (fexp2Num f q c x).add x.readFlags) s
def execFlog2 (h : Guard) (n : BitVec 4) (d a : Reg) (s : State) : Result :=
  issue (.flog2 h n d a) (floatBody n d a 255 fun f q c x _ => (flog2Num f q c x).add x.readFlags) s
def execFsinpi (h : Guard) (n : BitVec 4) (d a : Reg) (s : State) : Result :=
  issue (.fsinpi h n d a) (floatBody n d a 255 fun f q c x _ => (fsinpiNum f q c x).add x.readFlags) s
def execFcospi (h : Guard) (n : BitVec 4) (d a : Reg) (s : State) : Result :=
  issue (.fcospi h n d a) (floatBody n d a 255 fun f q c x _ => (fcospiNum f q c x).add x.readFlags) s
def execFtanh (h : Guard) (n : BitVec 4) (d a : Reg) (s : State) : Result :=
  issue (.ftanh h n d a) (floatBody n d a 255 fun f q c x _ => (ftanhNum f q c x).add x.readFlags) s

/-! ## Comparison and classification (R177, R178) -/

/-- fcmp's outcome for one element, and its flags (R177). -/
def fcmpNum (c : FCond) (x y : Num) : Bool × BitVec 6 :=
  let un := x.isNan || y.isNan
  let sig := x.readFlags ||| y.readFlags
  match c with
  | .eq => (eqNum x y, sig)
  | .ne => (un || !eqNum x y, sig)
  | .lt => (ltNum x y, if un then NV else sig)
  | .le => (!un && !ltNum y x, if un then NV else sig)
  | .gt => (ltNum y x, if un then NV else sig)
  | .ge => (!un && !ltNum x y, if un then NV else sig)
  | .un => (un, sig)
  | .or => (!un, sig)

def execFcmp (h : Guard) (c : FCond) (n : BitVec 4) (d a b : Reg) (s : State) : Result :=
  issue (.fcmp h c n d a b) (fun x s =>
    let f := x.fmt n
    slotEffect x s d fun i =>
      let rs := (List.range f.perLane).map fun j =>
        fcmpNum c (f.elemNum (x.w.lane a i) j) (f.elemNum (x.w.lane b i) j)
      { word := maskOf fun j => (rs.map (·.1)).getD j false, flags := rs.foldl (fun fl r => fl ||| r.2) 0,
        recs := [] }) s

/-- The class bit of a value (R178). -/
def classBit (f : Fmt) : Num → Nat
  | .nan true => 0
  | .nan false => 1
  | .inf true => 2
  | .inf false => 9
  | .fin neg m e =>
    if m = 0 then (if neg && f.isFloat then 5 else 6)
    else if f.isFloat && ilog2 m e < 1 - f.bias then (if neg then 4 else 7)
    else (if neg then 3 else 8)

def execFclass (h : Guard) (n : BitVec 4) (d a : Reg) (k : BitVec 8) (s : State) : Result :=
  issue (.fclass h n d a k) (fun x s =>
    let f := x.fmt n
    if k.toNat ≥ f.perLane then .trap { cause := 0x07 }
    else regBody d (fun w _ i => BitVec.ofNat 32 (2 ^ classBit f (f.elemNum (w.lane a i) k.toNat))) x s) s

/-! ## Conversion (R179 to R181) -/

/-- One element of fcvt: under the legacy bit a NaN written as zero appends no record (R108, R179). -/
def cvtOut (legacy : Bool) (src dst : Fmt) (bits : Nat) : Rounded :=
  let v := src.decode bits
  let r := (dst.round v false).add v.readFlags
  if legacy && r.record == some 1 then { r with record := none } else r

/-- Element j of the destination draws on source element o + j (R179). -/
def cvtElem (legacy : Bool) (src dst : Fmt) (la lb : Word) (k : Nat) : Rounded :=
  let p := src.perLane
  if k < p then cvtOut legacy src dst (elem la k src.width)
  else if k < 2 * p then cvtOut legacy src dst (elem lb (k - p) src.width)
  else { bits := dst.zeroCode false, flags := 0 }

def execFcvt (h : Guard) (n src : BitVec 4) (d a b : Reg) (o : BitVec 8) (s : State) : Result :=
  issue (.fcvt h n src d a b o) (fun x s =>
    let fs := x.fmt src
    let fd := x.fmt n
    slotEffect x s d fun i =>
      packOut fd.width ((List.range fd.perLane).map fun j =>
        cvtElem x.legacy fs fd (x.w.lane a i) (x.w.lane b i) (o.toNat + j))) s

/-- ftoi: the integer in the direction of rm, or the nearer bound of the range (R180). -/
def ftoiNum (f : Fmt) (rm : Rm) (sg : Bool) : Num → Word × BitVec 6
  | .nan _ => (0, NV)
  | .inf neg => (trunc32 (if neg then (if sg then -(2 ^ 31) else 0) else (if sg then 2 ^ 31 - 1 else 2 ^ 32 - 1)), NV)
  | .fin neg m e =>
    let lo : Int := if sg then -(2 ^ 31) else 0
    let hi : Int := if sg then 2 ^ 31 - 1 else 2 ^ 32 - 1
    let (n, inex) := roundInt (rmCode f rm) neg m e
    let z : Int := if neg then -(n : Int) else n
    if z < lo then (trunc32 lo, NV)
    else if z > hi then (trunc32 hi, NV)
    else (trunc32 z, if inex then NX else 0)

def execFtoi (h : Guard) (rm : Rm) (sg : Bool) (n : BitVec 4) (d a : Reg) (k : BitVec 8) (s : State) : Result :=
  issue (.ftoi h rm sg n d a k) (fun x s =>
    let f := x.fmt n
    if k.toNat ≥ f.perLane then .trap { cause := 0x07 }
    else
      slotEffect x s d fun i =>
        let r := ftoiNum f rm sg (f.elemNum (x.w.lane a i) k.toNat)
        { word := r.1, flags := r.2, recs := [] }) s

def execItof (h : Guard) (sg : Bool) (n : BitVec 4) (d a : Reg) (s : State) : Result :=
  issue (.itof h sg n d a) (fun x s =>
    let f := x.fmt n
    slotEffect x s d fun i =>
      let v : Int := if sg then sx (x.w.lane a i) else (x.w.lane a i).toNat
      packOut f.width [f.round (Num.ofInt v) false]) s

/-! ## Element moves (R182) -/

/-- fpack: element k of y replaced by the low bits of x (R182). -/
def packElem (f : Fmt) (k : Nat) (x y : Word) : Word :=
  packLane f.width ((List.range f.perLane).map fun j => if j = k then x.toNat % 2 ^ f.width else elem y j f.width)

def execFpack (h : Guard) (n : BitVec 4) (d a b : Reg) (k : BitVec 8) (s : State) : Result :=
  issue (.fpack h n d a b k) (fun x s =>
    let f := x.fmt n
    if k.toNat ≥ f.perLane then .trap { cause := 0x07 }
    else regBody d (fun w _ i => packElem f k.toNat (w.lane a i) (w.lane b i)) x s) s

/-- funpack: the code, zero- or sign-extended (R182). -/
def unpackElem (f : Fmt) (sg : Bool) (k : Nat) (x : Word) : Word :=
  let c := elem x k f.width
  if sg && c.testBit (f.width - 1) then trunc32 ((c : Int) - 2 ^ f.width) else BitVec.ofNat 32 c

def execFunpack (h : Guard) (sg : Bool) (n : BitVec 4) (d a : Reg) (k : BitVec 8) (s : State) : Result :=
  issue (.funpack h sg n d a k) (fun x s =>
    let f := x.fmt n
    if k.toNat ≥ f.perLane then .trap { cause := 0x07 }
    else regBody d (fun w _ i => unpackElem f sg k.toNat (w.lane a i)) x s) s

/-! ## fdot (R183) -/

/-- The exact sum of an accumulator element and the products of a lane, rounded once (R183). -/
def dotOut (f fa : Fmt) (la lb lc : Word) : Rounded :=
  let t := fa.elemNum lc 0
  let xs := (List.range f.perLane).map fun j => (f.elemNum la j, f.elemNum lb j)
  let ps := xs.map fun p => mulNum p.1 p.2
  let v := sumNums fa.rdn (t :: ps.map (·.1))
  let fl := xs.foldl (fun fl p => fl ||| p.1.readFlags ||| p.2.readFlags) (v.2 ||| t.readFlags)
  (fa.round v.1 false).add (ps.foldl (fun fl p => fl ||| p.2) fl)

def execFdot (h : Guard) (n acc : BitVec 4) (d a b c : Reg) (s : State) : Result :=
  issue (.fdot h n acc d a b c) (fun x s =>
    let f := x.fmt n
    let fa := x.fmt acc
    if fa.isDyadic then .trap { cause := 0x07 }
    else slotEffect x s d fun i => packOut fa.width [dotOut f fa (x.w.lane a i) (x.w.lane b i) (x.w.lane c i)]) s

/-! ## Slots and flags (R184 to R186) -/

def execSetfmt (h : Guard) (n : BitVec 4) (a : Reg) (s : State) : Result :=
  issue (.setfmt h n a) (macroBody fun x s =>
    let v := x.w.pair a x.lane
    if (Fmt.ofDef v).rejected n.toNat then .trap { cause := 0x07, lane := some x.lane }
    else .ok (s.modWeft x.l x.k fun w => { w with fmts := SMap.set w.fmts binary32 n.toNat (cleanDef v) })) s
def execGetfmt (h : Guard) (n : BitVec 4) (d : Reg) (s : State) : Result :=
  issue (.getfmt h n d) (pairBody d fun w _ _ => cleanDef (w.fmt n)) s
def execFflags (h : Guard) (d : Reg) (mask : BitVec 8) (s : State) : Result :=
  issue (.fflags h d mask) (macroBody fun x s =>
    .ok (s.modWeft x.l x.k fun w =>
      { (w.writeLanes x.act d fun _ => x.w.fpx.setWidth 32) with fpx := x.w.fpx &&& ~~~(mask.setWidth 6) })) s

end Sys2Proof.Machine
end

