-- ==== Sys2Proof/Machine/Fetch.lean ====
section
/-! DEFINITION. Instruction fetch: the checks of a target (06 R158), the instruction cache (08 R208), the decode table of
a context (04 R105, R106), and the hints ipref and dpref with the unassigned ones (04 R103, 10 R260). -/

namespace Sys2Proof.Machine

/-! ## The instruction cache (R208) -/

/-- Bytes of a line. -/
def lineBytes : Nat := 256

/-- A page that fetch may use: executable, not market, not compressed (R158, R360). -/
def Leaf.fetchable (x : Leaf) : Bool :=
  pteExecutable x.pte && !pteMarket x.pte && !pteCompressed x.pte

/-- What fetch meets at a PC (R158). -/
inductive FetchPage where
  | fault
  | absent
  | ok (leaf : Leaf) (pa : Nat)
deriving DecidableEq, Repr

/-- The check of a fetch target: below 2^52, a valid executable page, resident, its address in its space (R158). -/
def State.fetchPage (s : State) (l ctx : Nat) (pc : DWord) : FetchPage :=
  if pc.toNat ≥ 2 ^ 52 then .fault
  else
    match s.translate (.core l) ctx pc.toNat with
    | none => .fault
    | some x =>
      if !x.fetchable then .fault
      else if !pteResident x.pte then .absent
      else if x.phys pc.toNat ≥ x.space.bytes then .fault
      else .ok x (x.phys pc.toNat)

/-- The line of an address that a loom's cache holds. -/
def Loom.line? (x : Loom) (ctx line : Nat) : Option ILine := x.icache.find? fun e => e.ctx == ctx && e.line == line

/-- Fill a line, in its set of eight, in place of the least recently used (R208). -/
def Loom.fillLine (x : Loom) (now : Nat) (e : ILine) : Loom :=
  let set := x.icache.filter fun y => y.line % 64 == e.line % 64 && !(y.ctx == e.ctx && y.line == e.line)
  let rest := x.icache.filter fun y => y.line % 64 != e.line % 64
  let old := set.foldl (fun (m : Option Nat) y => match m with
    | none => some y.used | some u => some (min u y.used)) none
  let keep := if set.length < 8 then set else
    match set.find? fun y => some y.used == old with
    | none => set
    | some y => set.erase y
  { x with icache := { e with used := now } :: (keep ++ rest) }

/-- The bytes of a line from memory, keyed from its first byte. -/
def State.lineFrom (s : State) (sp : Space) (pa : Nat) : Mem :=
  SMap.slice (s.mem.of sp) (pa / lineBytes * lineBytes) (pa / lineBytes * lineBytes + lineBytes)

/-- Fill the line that holds an address (R208), counting a miss. -/
def State.fillFor (s : State) (l ctx : Nat) (pc : Nat) (leaf : Leaf) (pa : Nat) : State :=
  let e : ILine := { ctx := ctx, line := pc / lineBytes, bytes := s.lineFrom leaf.space pa, used := 0 }
  (((s.freshLine (.icache l ctx (pc / lineBytes))).modLoom l fun x => x.fillLine s.clock.toNat e)).homeAccess (dieOf l)
    (leaf.space == .host) pa false

/-- The line of an address that a loom's cache holds and serves: an error found in it is a miss, and is counted (R208, R209,
R412). -/
def State.lineServed (s : State) (l ctx line : Nat) : Option ILine × State :=
  match (s.loom l).line? ctx line with
  | none => (none, s)
  | some e =>
    if s.mem.marks.isEmpty || (s.mem.markAt (.icache l ctx line)).isNone then (some e, s)
    else
      (none, ((s.freshLine (.icache l ctx line)).modLoom l fun x => { x with icache := x.icache.erase e }).loomError l 6)

/-- The cache does not serve a line, and a fill that ipref started is bringing it (R476). -/
def State.fillUnderWay (s : State) (l ctx line : Nat) : Bool :=
  (s.loom l).ifills.contains (ctx, line) && (s.lineServed l ctx line).1.isNone

/-- A fetch: the word at the PC, from the loom's cache, which a miss fills first (R208; log entry 7). -/
def State.fetchWord (s : State) (l ctx : Nat) (pc : DWord) (leaf : Leaf) (pa : Nat) : State × DWord :=
  let s := if (tlbFind (s.tlb (.core l)) ctx pc.toNat leaf.level).isSome then s
    else (s.fillTlb (.core l) ctx pc.toNat).countLoom l 0x0A ctx 1
  match s.lineServed l ctx (pc.toNat / lineBytes) with
  | (some e, s) =>
    (s.modLoom l fun x => { x with icache := x.icache.map fun y =>
        if y.ctx = ctx ∧ y.line = e.line then { y with used := s.clock.toNat } else y },
      BitVec.ofNat 64 (Memory.readLe e.bytes (pc.toNat % lineBytes) 8))
  | (none, s) =>
    let s1 := (s.fillFor l ctx pc.toNat leaf pa).countLoom l 0x08 ctx 1
    match (s1.loom l).line? ctx (pc.toNat / lineBytes) with
    | some e => (s1, BitVec.ofNat 64 (Memory.readLe e.bytes (pc.toNat % lineBytes) 8))
    | none => (s1, 0)

/-! ## The decode table (R105, R348) -/

/-- A context's entry for an opcode. -/
def Context.decEntry (c : Context) (o : Nat) : DecEntry := (SMap.find? c.decode o).getD (DecEntry.default o)

/-- The entry that decodes a word in a context. -/
def State.entryFor (s : State) (ctx : Nat) (word : DWord) : DecEntry :=
  match s.context? ctx with
  | none => DecEntry.default (fOp word).toNat
  | some c => c.decEntry (fOp word).toNat

/-! ## Hints (R103, R260) -/

/-- A hint's issue: it is never held and never traps; it advances its entry (R103). -/
def hintIssue (fill : Iss → State → State) (s : State) : Result :=
  match s.cur with
  | none => .fault .noIssuingWeft
  | some c =>
    match s.weft? c.loom c.slot with
    | none => .fault .noIssuingWeft
    | some w =>
      let x : Iss := { l := c.loom, k := c.slot, w := w, pc := c.pc, mask := c.mask, prio := c.prio, act := c.mask,
                       lane := lowestLane c.mask, legacy := c.legacy, word := c.word }
      .next ((fill x s).complete x (.unassignedHint 0x302) 0 [] fun w => w.advance c.pc)

/-- A register that a hint may read: neither pending nor at or above the allotment (R260). -/
def State.hintReg (s : State) (x : Iss) (r : Reg) : Bool :=
  r == 255 || (!x.w.outOfRange r && !(s.pending x.l x.k).contains r)

/-- dpref: fills the line of the lowest active lane's address into its home slice, and into the L1 for RC and UO pages;
dropped in the cases of R260. -/
def dprefFill (h : Guard) (a b : Reg) (imm : BitVec 16) (x : Iss) (s : State) : State :=
  if !(s.hintReg x h.g && s.hintReg x a && s.hintReg x (a + 1) && s.hintReg x b) then s
  else
    let act := x.w.active h x.mask
    if act = 0 then s
    else
      let v := s.view x
      let va := x.w.ea a b imm (lowestLane act)
      if va.toNat / 2 ^ 52 ≠ 0 then s
      else
        match s.spot v va.toNat with
        | .page leaf pa =>
          if pteCompressed leaf.pte || !pteResident leaf.pte || pa ≥ leaf.space.bytes || leaf.space == .market then s
          else s.noteOne v true va.toNat
        | _ => s

def execDpref (h : Guard) (a b : Reg) (imm : BitVec 16) (s : State) : Result := hintIssue (dprefFill h a b imm) s

/-- ipref: starts the fill of n + 1 lines from the one that holds PC + 8 · offset16, each checked on its own page (R260). -/
def iprefFill (n : BitVec 3) (off : BitVec 16) (x : Iss) (s : State) : State :=
  let first := (branchTarget x.pc off).toNat / lineBytes
  (List.range (n.toNat + 1)).foldl (fun s k =>
    let line := first + k
    match s.fetchPage x.l x.w.ctx (BitVec.ofNat 64 (line * lineBytes)) with
    | .ok _ _ =>
      if line * lineBytes ≥ 2 ^ 52 || ((s.loom x.l).line? x.w.ctx line).isSome
          || (s.loom x.l).ifills.contains (x.w.ctx, line) then s
      else s.modLoom x.l fun y => { y with ifills := y.ifills ++ [(x.w.ctx, line)] }
    | _ => s) s

def execIpref (h : Guard) (n : BitVec 3) (off : BitVec 16) (s : State) : Result :=
  hintIssue (fun x s => if s.hintReg x h.g && x.w.active h x.mask != 0 then iprefFill n off x s else s) s
def execUnassignedHint (_code : BitVec 10) (s : State) : Result := hintIssue (fun _ s => s) s

/-- INSTRUCTION_CACHE_FILL: a fill that ipref started completes (R208). -/
def execInstructionCacheFill (l : Nat) (ctx : BitVec 16) (line : Nat) (s : State) : Result :=
  if !(s.loom l).ifills.contains (ctx.toNat, line) then .next s
  else
    let s1 := s.modLoom l fun y => { y with ifills := y.ifills.erase (ctx.toNat, line) }
    match s1.fetchPage l ctx.toNat (BitVec.ofNat 64 (line * lineBytes)) with
    | .ok leaf pa => .next (s1.fillFor l ctx.toNat (line * lineBytes) leaf pa)
    | _ => .next s1

end Sys2Proof.Machine
end

