-- ==== Sys2Proof/Machine/Control.lean ====
section
/-! DEFINITION. Control transfer, codes 0x050 to 0x059, and the register allotment, codes 0x05A and 0x05B
(06_integer_and_control.md R155 to R167), with the steps in which a waiting vgrow ends (R165). -/

namespace Sys2Proof.Machine

/-! ## Control transfer (R155 to R157) -/

/-- The lanes of the entry that fall (R155). -/
def falling (x : Iss) (taken : Word) : Entry := { pc := x.pc + 8, prio := x.prio, mask := x.mask &&& ~~~taken, age := 0 }

/-- P of R156: the priority in the encoding, or the entry's own under the legacy bit (R108). -/
def targetPrio (x : Iss) (p : BitVec 12) : BitVec 12 := if x.legacy then x.prio else p

/-- The entries of a transfer of lanes to one target. -/
def transferTo (x : Iss) (taken : Word) (target : DWord) (p : BitVec 12) : List Entry :=
  [{ pc := target, prio := targetPrio x p, mask := taken, age := 0 }, falling x taken]

/-- The entries of a transfer of each active lane to its own target: lanes of one target form one entry (R155, R39). -/
def transferEach (x : Iss) (target : Nat → DWord) (p : BitVec 12) : List Entry :=
  ((lanesOf x.act).map fun i =>
    { pc := target i, prio := targetPrio x p, mask := BitVec.ofNat 32 (2 ^ i), age := 0 }) ++ [falling x x.act]

/-- Write the link PC + 8 in every transferring lane (R157). -/
def State.link (s : State) (x : Iss) (d : Reg) : State :=
  s.modWeft x.l x.k fun w => w.writePairs x.act d fun _ => x.pc + 8

def execBr (h : Guard) (p : BitVec 12) (off : BitVec 16) (s : State) : Result :=
  issue (.br h p off) (fun x s => .jump s (transferTo x x.act (branchTarget x.pc off) p)) s
def execBrc (h : Guard) (a : Reg) (p : BitVec 12) (off : BitVec 16) (s : State) : Result :=
  issue (.brc h a p off) (fun x s =>
    .jump s (transferTo x (x.act &&& maskOf fun i => (x.w.lane a i).getLsbD 0) (branchTarget x.pc off) p)) s
def execJmp (h : Guard) (d a : Reg) (p : BitVec 12) (s : State) : Result :=
  issue (.jmp h d a p) (fun x s =>
    .jump (if d = 255 then s else s.link x d) (transferEach x (fun i => pairTarget (x.w.pair a i)) p)) s
def execCall (h : Guard) (d : Reg) (p : BitVec 12) (off : BitVec 16) (s : State) : Result :=
  issue (.call h d p off) (fun x s => .jump (s.link x d) (transferTo x x.act (branchTarget x.pc off) p)) s
def execRet (h : Guard) (a : Reg) (p : BitVec 12) (s : State) : Result :=
  issue (.ret h a p) (fun x s => .jump s (transferEach x (fun i => pairTarget (x.w.pair a i)) p)) s
/-- prio: the entry's priority, for every lane (R159). -/
def execPrio (p : BitVec 12) (s : State) : Result :=
  issue (.prio p) (fun x s => .jump s [{ pc := x.pc + 8, prio := p, mask := x.mask, age := 0 }]) s
/-- exit: the active lanes leave the frontier (R160). -/
def execExit (h : Guard) (s : State) : Result :=
  issue (.exit h) (fun x s => .jump s [falling x x.act]) s

/-- What a pass begins with: its 1,024 issue cycles, and the cycle of the yield itself (R161). -/
def yieldCycles : Nat := 1025

/-- The resident wefts of a quadrant other than this one that wait in nothing: yield passes to those that are ready
(R161). Machine/Turns.lean keeps the ready ones. -/
def quadrantOthers (x : Loom) (k : Nat) : List Nat :=
  (x.wefts.filter fun p => p.1 != k && p.1 % 4 == k % 4 && p.2.ended.isNone).map (·.1)

def execYield (h : Guard) (s : State) : Result :=
  issue (.yield h) (macroBody fun x s =>
    .ok (s.modWeft x.l x.k fun w =>
      { w with yielded := some { slots := quadrantOthers (s.loom x.l) x.k, left := yieldCycles } })) s
def execNop (h : Guard) (s : State) : Result := issue (.nop h) (fun _ s => .ok s) s
def execBrk (h : Guard) (c : BitVec 8) (s : State) : Result :=
  issue (.brk h c) (macroBody fun x s => .after s { cause := 0x1D, code := c.toNat, lane := some x.lane }) s

/-! ## The allotment (R164 to R167) -/

/-- Register blocks in use on a loom (R46, R167). -/
def Loom.usedBlocks (x : Loom) : Nat := x.wefts.foldl (fun n p => n + blocksOf p.2.allot) 0
/-- Free register blocks of a loom. -/
def Loom.freeBlocks (x : Loom) : Nat := Config.registerBlocks - x.usedBlocks

/-- An instruction that has waited to issue issues: its counts, and its entry's age (R38, R44). -/
def State.waitIssues (s : State) (l k : Nat) (w : Weft) (pc : DWord) (act : Word) : State :=
  (s.countIssue l k w act (w.starvingAt pc)).modWeft l k fun w => w.issued pc

/-- vgrow issues once its wait ends: its status to the lanes that were active, with the allotment when the blocks were obtained
(R165). -/
def State.endVgrow (s : State) (l k : Nat) (ok : Bool) : State :=
  match s.weft? l k with
  | some w =>
    (match w.wait with
      | .vgrow pc _ d n act _ =>
        let s1 := (s.modLoom l fun x => { x with growers := x.growers.filter (· != k) }).waitIssues l k w pc act
        let s2 := s1.modWeft l k fun w => { w with allot := if ok then n else w.allot }
        s2.finishWait l k pc d act 0 (some fun _ => if ok then 0 else 1)
      | _ => s)
  | none => s

def execVgrow (h : Guard) (d : Reg) (n : BitVec 8) (s : State) : Result :=
  issue (.vgrow h d n) (macroBody fun x s =>
    if n.toNat < x.w.allot then .trap { cause := 0x02 }
    else
      let b := blocksOf n.toNat - blocksOf x.w.allot
      let lm := s.loom x.l
      if b = 0 ∨ (lm.growers.filter (· != x.k) = [] ∧ lm.freeBlocks ≥ b) then
        .ok (s.modWeft x.l x.k fun w => { (w.writeLanes x.act d fun _ => 0) with allot := n.toNat })
      else
        .begins ((s.modLoom x.l fun y => { y with growers := y.growers.filter (· != x.k) ++ [x.k] }).modWeft x.l x.k fun w =>
          { w with wait := .vgrow x.pc x.mask d n.toNat x.act s.clock })) s

/-- vgrow's registers from n up go (R166). -/
def Weft.shrink (w : Weft) (n : Nat) : Weft :=
  { w with allot := n, regs := w.regs.filter (fun p => p.1 < 32 * n), poison := w.poison.filter (fun p => p.1 < 32 * n),
           soft := w.soft.filter (· < 32 * n) }

/-- A vshrink to n would release a register of the weft's port (R335). -/
def portAtOrAbove (w : Weft) (n : Nat) : Bool :=
  match w.port with
  | some p => p.s.toNat ≥ n || p.r.toNat ≥ n || p.h.toNat ≥ n
  | none => false

def execVshrink (h : Guard) (n : BitVec 8) (s : State) : Result :=
  issue (.vshrink h n) (macroBody fun x s =>
    if n.toNat > x.w.allot || portAtOrAbove x.w n.toNat then .trap { cause := 0x02 }
    else if (s.pending x.l x.k).any fun r => n.toNat ≤ r.toNat && r.toNat < x.w.allot then .hold
    else if n.toNat = x.w.allot then .ok s
    else .ok (s.modWeft x.l x.k fun w => w.shrink n.toNat)) s

/-- VGROW_BLOCKS_OBTAINED: the earliest waiting vgrow of the loom obtains its blocks, within its 4,096 cycles and while no
pre-emption has taken effect (R165). -/
def execVgrowBlocksObtained (l k : Nat) (s : State) : Result :=
  match s.weft? l k with
  | some w =>
    (match w.wait with
      | .vgrow _ _ _ n _ since =>
        if (s.loom l).growers.head? = some k ∧ (s.loom l).freeBlocks ≥ blocksOf n - blocksOf w.allot
            ∧ (s.clock - since).toNat < 4096 ∧ s.halted l w = false then
          .next (s.endVgrow l k true)
        else .next s
      | _ => .next s)
  | none => .next s

/-- VGROW_TIMEOUT: a vgrow that has waited 4,096 cycles fails, while no pre-emption has taken effect (R165). -/
def execVgrowTimeout (l k : Nat) (s : State) : Result :=
  match s.weft? l k with
  | some w =>
    (match w.wait with
      | .vgrow _ _ _ _ _ since =>
        if (s.clock - since).toNat ≥ 4096 ∧ s.halted l w = false then .next (s.endVgrow l k false) else .next s
      | _ => .next s)
  | none => .next s

end Sys2Proof.Machine
end

