-- ==== Sys2Proof/Machine/Codec.lean ====
section
/-! DEFINITION. The codec of compressed blocks (08_memories.md R219 to R226). -/

namespace Sys2Proof.Machine

/-! ## Canonical code words (R220, R221) -/

/-- A used entry of a code table: length, kind and its code word. -/
structure CodeWord where
  len : Nat
  kind : Nat
  code : Nat
deriving DecidableEq, Repr

/-- The code words of one length, in entry order: the next free code, or none when the table is oversubscribed. -/
def assignLen (l : Nat) : List (Nat × Nat) → Nat → List CodeWord → Option (Nat × List CodeWord)
  | [], next, acc => some (next, acc)
  | (len, kind) :: t, next, acc =>
    if len = l then
      if next ≥ 2 ^ l then none else assignLen l t (next + 1) (acc ++ [⟨len, kind, next⟩])
    else assignLen l t next acc

/-- Code words by R221, for the lengths given. -/
def assignCodes (table : List (Nat × Nat)) : List Nat → Nat → List CodeWord → Option (List CodeWord)
  | [], _, acc => some acc
  | l :: ls, next, acc =>
    match assignLen l table next acc with
    | none => none
    | some (n, acc') => assignCodes table ls (2 * n) acc'

/-- The lengths of R221. -/
def codeLengths : List Nat := (List.range 15).map (· + 1)

/-! ## Expansion (R222) -/

/-- A reader of a stream: its bits as a number, the limit and the position. -/
structure BitReader where
  bits : Nat
  limit : Nat
  pos : Nat

/-- Bits(n) of R222. -/
def BitReader.take (r : BitReader) (n : Nat) : Option (Nat × BitReader) :=
  if r.pos + n > r.limit then none else some (r.bits >>> r.pos % 2 ^ n, { r with pos := r.pos + n })

/-- Read a code word, the first bit the most significant. -/
def BitReader.word (codes : List CodeWord) : Nat → BitReader → Nat → Nat → Option (Nat × BitReader)
  | 0, _, _, _ => none
  | k + 1, r, c, l =>
    match r.take 1 with
    | none => none
    | some (b, r') =>
      match codes.find? fun w => w.len == l + 1 && w.code == 2 * c + b with
      | some w => some (w.kind, r')
      | none => BitReader.word codes k r' (2 * c + b) (l + 1)

/-- n bytes of 8 bits. -/
def BitReader.literals : Nat → BitReader → Array Byte → Option (BitReader × Array Byte)
  | 0, r, out => some (r, out)
  | n + 1, r, out =>
    match r.take 8 with
    | none => none
    | some (b, r') => if out.size ≥ 4096 then none else BitReader.literals n r' (out.push (BitVec.ofNat 8 b))

/-- n bytes, each copied from `dist` before it. -/
def copyBack (dist : Nat) : Nat → Array Byte → Option (Array Byte)
  | 0, out => some out
  | n + 1, out => if out.size ≥ 4096 then none else copyBack dist n (out.push (out.getD (out.size - dist) 0))

/-- The token loop of R222, at most `fuel` tokens (each but END gives a byte). -/
def expandTokens (codes : List CodeWord) : Nat → BitReader → Array Byte → Option (Array Byte)
  | 0, _, _ => none
  | k + 1, r, out =>
    match BitReader.word codes 15 r 0 0 with
    | none => none
    | some (0, _) => some out
    | some (1, r) =>
      match r.take 6 with
      | none => none
      | some (n, r) =>
        match BitReader.literals (n + 1) r out with
        | none => none
        | some (r, out) => expandTokens codes k r out
    | some (2, r) =>
      match r.take 12 with
      | none => none
      | some (n, r) =>
        if out.size + n + 1 > 4096 then none else expandTokens codes k r (out ++ Array.replicate (n + 1) 0)
    | some (_, r) =>
      match r.take 4 with
      | none => none
      | some (n, r) =>
        match r.take 12 with
        | none => none
        | some (d, r) =>
          if d + 1 > out.size then none
          else
            match copyBack (d + 1) (n + 3) out with
            | none => none
            | some out => expandTokens codes k r out

/-- Expand a block from its metadata and its frame (R219, R222); none: a codec error. -/
def expandBlock (info : BitVec 8) (frame : Nat → List Byte) : Option (List Byte) :=
  let sc := (info.extractLsb' 0 6).toNat
  let raw := info.getLsbD 6
  if sc = 0 ∧ !raw then some (List.replicate 4096 0)
  else if sc > 32 ∨ (raw ∧ sc ≠ 32) then none
  else if raw then some (frame 4096)
  else
    let bits := leValue (frame (128 * sc))
    let table := (List.range 16).map fun e => (bits >>> (8 * e) % 16, bits >>> (8 * e + 4) % 16)
    if table.any fun t => t.1 != 0 && t.2 > 3 then none
    else
      match assignCodes table codeLengths 0 [] with
      | none => none
      | some codes =>
        match expandTokens codes 4098 ⟨bits, 1024 * sc, 128⟩ #[] with
        | none => none
        | some out => if out.size = 4096 then some out.toList else none

/-! ## Encoding (R224) -/

/-- Tokens of a block. -/
inductive Token where
  | fin
  | lit (bs : List Byte)
  | zero (n : Nat)
  | ref (n dist : Nat)
deriving DecidableEq, Repr

def Token.kind : Token → Nat
  | .fin => 0 | .lit _ => 1 | .zero _ => 2 | .ref _ _ => 3

/-- Zero bytes from a position. -/
def zeroRun (inp : Array Byte) : Nat → Nat → Nat
  | 0, _ => 0
  | k + 1, pos => if pos < 4096 ∧ inp.getD pos 0 = 0 then zeroRun inp k (pos + 1) + 1 else 0

/-- The match length at a distance, at most `k`. -/
def matchLen (inp : Array Byte) (dist : Nat) : Nat → Nat → Nat
  | 0, _ => 0
  | k + 1, pos => if inp.getD pos 0 = inp.getD (pos - dist) 0 then matchLen inp dist k (pos + 1) + 1 else 0

/-- The longest match among distances 1 to `pos`, the smallest distance among equals. -/
def bestMatch (inp : Array Byte) (pos : Nat) : Nat × Nat :=
  (List.range pos).foldl (fun best k =>
    let m := matchLen inp (k + 1) (min 18 (4096 - pos)) pos
    if m > best.1 then (m, k + 1) else best) (0, 0)

/-- Flush of R224. -/
def flushLit (toks : List Token) (lit : List Byte) : List Token :=
  if lit.isEmpty then toks else .lit lit.reverse :: toks

/-- The greedy pass of R224: tokens latest first. -/
def greedy (inp : Array Byte) : Nat → Nat → List Token → List Byte → List Token
  | 0, _, toks, lit => flushLit toks lit
  | k + 1, pos, toks, lit =>
    if pos ≥ 4096 then flushLit toks lit
    else
      let z := zeroRun inp 4096 pos
      if z ≥ 3 then greedy inp k (pos + z) (.zero z :: flushLit toks lit) []
      else
        let m := bestMatch inp pos
        if m.1 ≥ 3 then greedy inp k (pos + m.1) (.ref m.1 m.2 :: flushLit toks lit) []
        else
          let lit' := inp.getD pos 0 :: lit
          if lit'.length = 64 then greedy inp k (pos + 1) (.lit lit'.reverse :: toks) []
          else greedy inp k (pos + 1) toks lit'

/-- The used kinds by their counts, largest first, ties by smaller kind (R224). -/
def rankKinds (toks : List Token) : List Nat :=
  let count (k : Nat) := (toks.filter fun t => t.kind == k).length
  let used := (List.range 4).filter fun k => count k > 0
  used.foldl (fun acc k => acc.takeWhile (fun j => count j ≥ count k) ++ [k]
    ++ acc.dropWhile (fun j => count j ≥ count k)) []

/-- The table of a ranking: kind and length of each entry (R224). -/
def rankTable (ranks : List Nat) : List (Nat × Nat) :=
  let k := ranks.length
  ranks.zipIdx.map fun p => ((if p.2 + 1 = k then k - 1 else p.2 + 1), p.1)

/-- A value in n bits, bit 0 first. -/
def fieldBits (n v : Nat) : List Bool := (List.range n).map fun i => v.testBit i

/-- A code word, most significant bit first. -/
def wordBits (codes : List CodeWord) (kind : Nat) : List Bool :=
  match codes.find? fun w => w.kind == kind with
  | none => []
  | some w => (fieldBits w.len w.code).reverse

/-- The bits of a token (R224). -/
def Token.bits (codes : List CodeWord) (t : Token) : List Bool :=
  wordBits codes t.kind ++
    match t with
    | .fin => []
    | .lit bs => fieldBits 6 (bs.length - 1) ++ bs.flatMap fun b => fieldBits 8 b.toNat
    | .zero n => fieldBits 12 (n - 1)
    | .ref n d => fieldBits 4 (n - 3) ++ fieldBits 12 (d - 1)

/-- The bytes of a bit list, bit 0 first, zero padded. -/
def packBits : Nat → List Bool → List Byte
  | 0, _ => []
  | n + 1, bs =>
    BitVec.ofNat 8 ((bs.take 8).foldr (fun b acc => 2 * acc + if b then 1 else 0) 0) :: packBits n (bs.drop 8)

/-- Encode a block: its metadata and the sectors written (R224). -/
def encodeBlock (inp : List Byte) : BitVec 8 × List Byte :=
  if inp.all (· == 0) then (0, [])
  else
    let toks := (Token.fin :: greedy inp.toArray 4097 0 [] []).reverse
    let table := rankTable (rankKinds toks)
    let codes := (assignCodes table codeLengths 0 []).getD []
    let stream := toks.flatMap (Token.bits codes)
    let sc := (128 + stream.length + 1023) / 1024
    if sc ≥ 32 then (32 + 64, inp)
    else
      let head := (List.range 16).map fun e =>
        match table[e]? with | none => (0 : Byte) | some (len, kind) => BitVec.ofNat 8 (len + 16 * kind)
      (BitVec.ofNat 8 sc, head ++ packBits (128 * sc - 16) stream)

end Sys2Proof.Machine
end

