-- ==== Sys2Proof/Machine/LoadStore.lean ====
section
/-! DEFINITION. Loads, stores, packed and resid forms, fence, pagein, probe and the atomics (10_memory_instructions.md
R251 to R262). -/

namespace Sys2Proof.Machine

/-! ## What the per-lane accesses share (R254, R255) -/

/-- Some access reaches a page, of a kind other than UO, whose annotations act as plain (R238): an acquire there is at die
scope or wider (R206, R234). -/
def State.beyondLoom (s : State) (v : View) (accs : List Acc) : Bool :=
  accs.any fun a => (s.spots v a).any fun sp => match sp with | .page x _ => pteKind x.pte != 2 | _ => false

/-- Some access reaches an SO page (R236). -/
def State.reachesSo (s : State) (v : View) (accs : List Acc) : Bool :=
  accs.any fun a => (s.spots v a).any fun sp => match sp with | .page x _ => pteResident x.pte && pteKind x.pte == 0 | _ => false

/-- The accesses' tags and counts, with the package fences that stand before and after an access to an SO page (R206, R236). -/
def State.noteSo (s : State) (v : View) (load write : Bool) (accs : List Acc) : State :=
  if s.reachesSo v accs then ((s.dropL1 v.loom).note v load accs write).dropL1 v.loom else s.note v load accs write

/-- The bytes of a load that the L1 serves (R205). -/
def State.servedBytes (s : State) (v : View) (load : Bool) (accs : List Acc) : List Nat :=
  if !load || s.mem.marks.isEmpty then [] else (accs.flatMap Acc.bytes).filter (s.l1Serves v)

/-- An acquire: the loom's L1 is emptied when the location's scope is die or wider (R206). -/
def State.acquire (s : State) (v : View) (acq : Bool) (accs : List Acc) : State :=
  if acq && s.beyondLoom v accs then s.dropL1 v.loom else s

/-- An access reaches a market bank at which an earlier bank command of the loom has still to be performed: requests of a
loom to one bank take effect in issue order (R214, R247). -/
def State.bankHolds (s : State) (v : View) (accs : List Acc) : Bool :=
  let q := (s.loom v.loom).bankQ
  !q.isEmpty && accs.any fun a => (s.spots v a).any fun sp =>
    match sp with
    | .page x pa => x.space == .market && q.any fun o => o.parts.contains (marketBank pa)
    | _ => false

/-- The checks of a per-lane access: the range scoreboard's hold, the cases of R254, errors; then the effect. A store to a
field of supervisor mode has been turned away before (R6, `State.svDenied`). -/
def accessBody (load store resid : Bool) (accs : Iss → List Acc) (eff : View → Iss → State → Effect) (x : Iss) (s : State) :
    Effect :=
  let v := s.view x
  let as := accs x
  if s.rangeHolds v load store as then .holdRange
  else if s.bankHolds v as then .hold
  else
    match s.checkAccs v store resid as with
    | .fault c => .trap c
    | .park => .park
    | .pass =>
      match s.errorOf v load store as with
      | some c => .trap c
      | none => eff v x ((s.noteSo v (load && !store) store as).noteSoft v as (s.servedBytes v (load && !store) as))

/-- Lane accesses of a width at given addresses. -/
def laneAccs (x : Iss) (len align : Nat) (ea : Nat → DWord) : List Acc := accsAt x.act len align ea

/-- The little-endian value at some spots. -/
def State.readSpots (s : State) (l : Nat) (sps : List Spot) : Nat := leValue (sps.map (s.readSpot l))

/-- THE LANE RULE of stores and atomics (R255, R257): lane by lane, in order, the value at the lane's spots is read and
`new`, given the lane and that value, is stored there, if it is some, and the armed words are compared with it (R396). Every
address is translated before the first lane's store (R254). Units that the lanes together write whole are in error no longer
(R193, R211; log entry 32). The result: the state, and each lane's old value. -/
def updateLanes (l : Nat) (ls : List (Nat × List Spot)) (new : Nat → Nat → Option Nat) (s : State) :
    State × List (Nat × Nat) :=
  let r := ls.foldl (fun acc p =>
    let o := acc.1.readSpots l p.2
    ((match new p.1 o with
      | none => acc.1
      | some n => (acc.1.storeSpots l (p.2.zip (leBytes p.2.length n))).checkArms), acc.2 ++ [(p.1, o)])) (s, [])
  (r.1.wholeUnits l (ls.flatMap (·.2)), r.2)

/-- The lanes of an instruction's accesses, each with its spots. -/
def State.laneSpots (s : State) (v : View) (accs : List Acc) : List (Nat × List Spot) :=
  accs.map fun a => (a.lane, s.spots v a)

/-- A store sets the side-effect bit when it reaches an SO, RC or market page (R427). -/
def State.storeMark (s : State) (v : View) (x : Iss) (accs : List Acc) : State :=
  if s.sideEffectStore v accs then s.sideEffect x.l x.w else s

/-! ## ld and st (R251 to R253) -/

/-- Write a loaded value: a pair for .b64, else zero-extended (R253). -/
def Weft.setLoaded (w : Weft) (wd : Width) (d : Reg) (i v : Nat) : Weft :=
  if wd = .b64 then w.setPair d i (BitVec.ofNat 64 v) else w.setLane d i (BitVec.ofNat 32 v)

def execLd (h : Guard) (d a b : Reg) (imm : BitVec 16) (wd : Width) (acq : Bool) (s : State) : Result :=
  issue (.ld h d a b imm wd acq)
    (accessBody true false false (fun x => laneAccs x (widthBytes wd) 1 (x.w.ea a b imm)) fun v x s =>
      let vals := (lanesOf x.act).map fun i => (i, s.readVa v (x.w.ea a b imm i) (widthBytes wd))
      .ok ((s.acquire v acq (laneAccs x (widthBytes wd) 1 (x.w.ea a b imm))).modWeft x.l x.k fun w =>
        vals.foldl (fun w p => w.setLoaded wd d p.1 p.2) w)) s

/-- The value that a store writes in a lane (R253). -/
def storeValue (w : Weft) (wd : Width) (d : Reg) (i : Nat) : Nat :=
  if wd = .b64 then (w.pair d i).toNat else (w.lane d i).toNat

def execSt (h : Guard) (d a b : Reg) (imm : BitVec 16) (wd : Width) (rel : Bool) (s : State) : Result :=
  issue (.st h d a b imm wd rel)
    (accessBody false true false (fun x => laneAccs x (widthBytes wd) 1 (x.w.ea a b imm)) fun v x s =>
      let as := laneAccs x (widthBytes wd) 1 (x.w.ea a b imm)
      .ok (updateLanes v.loom (s.laneSpots v as) (fun i _ => some (storeValue x.w wd d i)) (s.storeMark v x as)).1) s

/-! ## ldw and stw (R252) -/

def execLdw (h : Guard) (n : BitVec 4) (d a b : Reg) (imm : BitVec 16) (s : State) : Result :=
  issue (.ldw h n d a b imm)
    (accessBody true false false (fun x => (lanesOf x.act).map (packedAcc x.w (x.fmt n) a b imm)) fun v x s =>
      let f := x.fmt n
      let vals := (lanesOf x.act).map fun i =>
        let c := packedAcc x.w f a b imm i
        (i, s.readVa v c.va c.len >>> (packedStart x.w a b imm f.width i).2 % 2 ^ (f.perLane * f.width))
      .ok (s.modWeft x.l x.k fun w => vals.foldl (fun w p => w.setLane d p.1 (BitVec.ofNat 32 p.2)) w)) s

/-- Replace n bits at a bit position of a value. -/
def replaceBits (old bit n new : Nat) : Nat :=
  old % 2 ^ bit + (new % 2 ^ n) * 2 ^ bit + old / 2 ^ (bit + n) * 2 ^ (bit + n)

def execStw (h : Guard) (n : BitVec 4) (d a b : Reg) (imm : BitVec 16) (s : State) : Result :=
  issue (.stw h n d a b imm)
    (accessBody false true false (fun x => (lanesOf x.act).map (packedAcc x.w (x.fmt n) a b imm)) fun v x s =>
      let f := x.fmt n
      let as := (lanesOf x.act).map (packedAcc x.w f a b imm)
      .ok (updateLanes v.loom (s.laneSpots v as) (fun i o => some
        (replaceBits o (packedStart x.w a b imm f.width i).2 (f.perLane * f.width) (x.w.lane d i).toNat))
        (s.storeMark v x as)).1) s

/-! ## The resid forms (R122, R123) -/

/-- Some byte of an element lies on a page that is valid and not resident (R122). -/
def State.absent (s : State) (v : View) (a : Acc) : Bool := (s.accCase v false a).1 == 70

/-- Write loaded lanes and clear the residency bits of absent elements: per lane the value and the bits cleared. -/
def residWrite (x : Iss) (set : Weft → Nat → Nat → Weft) (m : Reg) (vals : List (Nat × Nat × Nat)) (s : State) : Effect :=
  .ok (s.modWeft x.l x.k fun w =>
    vals.foldl (fun w p => (set w p.1 p.2.1).setLane m p.1 (x.w.lane m p.1 &&& ~~~(BitVec.ofNat 32 p.2.2))) w)

def execLdResid (h : Guard) (d a m : Reg) (imm : BitVec 16) (wd : Width) (acq : Bool) (s : State) : Result :=
  issue (.ldResid h d a m imm wd acq)
    (accessBody true false true (fun x => laneAccs x (widthBytes wd) 1 (x.w.eaNoIndex a imm)) fun v x s =>
      let vals := (lanesOf x.act).map fun i =>
        let va := x.w.eaNoIndex a imm i
        if s.absent v ⟨i, va, widthBytes wd, 1⟩ then (i, 0, 1) else (i, s.readVa v va (widthBytes wd), 0)
      residWrite x (fun w i u => w.setLoaded wd d i u) m vals
        (s.acquire v acq (laneAccs x (widthBytes wd) 1 (x.w.eaNoIndex a imm)))) s

/-- One element of ldw with resid: its bits, and whether its page is absent. -/
def State.residElem (s : State) (v : View) (f : Fmt) (base : DWord) (lane j : Nat) : Nat × Bool :=
  let bit := j * f.width
  let c : Acc := { lane := lane, va := base + BitVec.ofNat 64 (bit / 8), len := (bit % 8 + f.width + 7) / 8 }
  if s.absent v c then (0, true) else (s.readVa v c.va c.len >>> (bit % 8) % 2 ^ f.width, false)

def execLdwResid (h : Guard) (n : BitVec 4) (d a m : Reg) (imm : BitVec 16) (s : State) : Result :=
  issue (.ldwResid h n d a m imm)
    (accessBody true false true (fun x => (lanesOf x.act).map (packedAcc x.w (x.fmt n) a 255 imm)) fun v x s =>
      let f := x.fmt n
      let vals := (lanesOf x.act).map fun i =>
        let es := (List.range f.perLane).map (s.residElem v f (x.w.eaNoIndex a imm i) i)
        (i, (packLane f.width (es.map (·.1))).toNat,
          es.zipIdx.foldl (fun acc p => if p.1.2 then acc + 2 ^ p.2 else acc) 0)
      residWrite x (fun w i u => w.setLane d i (BitVec.ofNat 32 u)) m vals s) s

/-! ## fence, pagein, probe (R259, R261, R262) -/

/-- fence: with one core's accesses in order, its effect is the L1's (R206, R259). -/
def execFence (h : Guard) (sc : Scope) (s : State) : Result :=
  issue (.fence h sc) (macroBody fun x s => .ok (if 3 ≤ sc.code then s.dropL1 x.l else s)) s

/-- The first bytes of the pages that pagein asks for: valid leaves that are not resident, each once (R261). -/
def State.missingPages (s : State) (v : View) (vas : List DWord) : List Nat :=
  (vas.filterMap fun va =>
    match s.spot v va.toNat with
    | .page x _ => if pteResident x.pte then none else some (x.base va.toNat)
    | _ => none).eraseDups

def execPagein (h : Guard) (a b : Reg) (imm : BitVec 16) (s : State) : Result :=
  issue (.pagein h a b imm) (fun x s =>
    let v := s.view x
    let as := laneAccs x 1 1 (x.w.ea a b imm)
    let (c, lane, va) := s.worst v false as
    if c < 50 then
      .trap { cause := causeOfCase c, lane := some lane, index := lane, detail := BitVec.ofNat 64 va }
    else
      .ok ((s.missingPages v ((lanesOf x.act).map (x.w.ea a b imm))).foldl (fun s p =>
        s.eventRecord 0x01 x.l x.w.ctx (BitVec.ofNat 64 p) 0) s)) s

/-- What probe reads for an address (R262): bits [8:0] of the leaf as the table now has it. -/
def State.probeLeaf (s : State) (v : View) (va : DWord) : Word :=
  if va.toNat / 2 ^ 52 = 0 then
    match s.currentLeaf v.ctx va.toNat with
    | none => 0
    | some x => (x.pte.extractLsb' 0 9).setWidth 32
  else
    match s.spot { v with frame := none } va.toNat with
    | .lm _ => 0x47
    | _ => 0

def execProbe (h : Guard) (d a b : Reg) (imm : BitVec 16) (s : State) : Result :=
  issue (.probe h d a b imm) (fun x s => regBody d (fun w _ i => s.probeLeaf (s.view x) (w.ea a b imm i)) x s) s

/-! ## Atomics (R256 to R258) -/

/-- Two's-complement comparison at a width. -/
def signedLt (bits a b : Nat) : Bool :=
  let f (x : Nat) : Int := if x ≥ 2 ^ (bits - 1) then (x : Int) - 2 ^ bits else x
  f a < f b

/-- The new value of an atomic: old value o, operand v, compare value k (R257). -/
def atomNew (op : AtomOp) (bits o v k : Nat) : Nat :=
  match op with
  | .add => (o + v) % 2 ^ bits
  | .min => if signedLt bits v o then v else o
  | .max => if signedLt bits o v then v else o
  | .and => o &&& v
  | .or => o ||| v
  | .xor => o ^^^ v
  | .xchg => v
  | .cas => if o = k then v else o
  | .inc => if o ≥ v then 0 else o + 1
  | .dec => if o = 0 ∨ o > v then v else o - 1
  | .fadd => o

/-- The orders that acquire. -/
def acquires (o : Order) : Bool := o == .acq || o == .acqrel

/-- The body of an atomic of R257. -/
def atomBody (op : AtomOp) (w64 : Bool) (o : Order) (d : Reg) (ea : Weft → Nat → DWord) (cmp : Weft → Nat → Nat) :
    Iss → State → Effect :=
  let bytes := if w64 then 8 else 4
  accessBody true true false (fun x => laneAccs x bytes bytes (ea x.w)) fun v x s =>
    if x.act = 0 then .ok (s.sideEffect x.l x.w)
    else
      let opnd i := if w64 then (x.w.pair d i).toNat else (x.w.lane d i).toNat
      let as := laneAccs x bytes bytes (ea x.w)
      let r := updateLanes v.loom (s.laneSpots v as) (fun i old =>
        if op = .cas ∧ old ≠ cmp x.w i then none else some (atomNew op (8 * bytes) old (opnd i) (cmp x.w i)))
        (s.sideEffect x.l x.w)
      .ok ((r.1.acquire v (acquires o) as).modWeft x.l x.k fun w =>
        r.2.foldl (fun w p => w.setLoaded (if w64 then .b64 else .b32) d p.1 p.2) w)

def execAtomAdd (h : Guard) (d a b : Reg) (imm : BitVec 16) (w64 : Bool) (o : Order) (s : State) : Result :=
  issue (.atomAdd h d a b imm w64 o) (atomBody .add w64 o d (fun w => w.ea a b imm) fun _ _ => 0) s
def execAtomMin (h : Guard) (d a b : Reg) (imm : BitVec 16) (w64 : Bool) (o : Order) (s : State) : Result :=
  issue (.atomMin h d a b imm w64 o) (atomBody .min w64 o d (fun w => w.ea a b imm) fun _ _ => 0) s
def execAtomMax (h : Guard) (d a b : Reg) (imm : BitVec 16) (w64 : Bool) (o : Order) (s : State) : Result :=
  issue (.atomMax h d a b imm w64 o) (atomBody .max w64 o d (fun w => w.ea a b imm) fun _ _ => 0) s
def execAtomAnd (h : Guard) (d a b : Reg) (imm : BitVec 16) (w64 : Bool) (o : Order) (s : State) : Result :=
  issue (.atomAnd h d a b imm w64 o) (atomBody .and w64 o d (fun w => w.ea a b imm) fun _ _ => 0) s
def execAtomOr (h : Guard) (d a b : Reg) (imm : BitVec 16) (w64 : Bool) (o : Order) (s : State) : Result :=
  issue (.atomOr h d a b imm w64 o) (atomBody .or w64 o d (fun w => w.ea a b imm) fun _ _ => 0) s
def execAtomXor (h : Guard) (d a b : Reg) (imm : BitVec 16) (w64 : Bool) (o : Order) (s : State) : Result :=
  issue (.atomXor h d a b imm w64 o) (atomBody .xor w64 o d (fun w => w.ea a b imm) fun _ _ => 0) s
def execAtomXchg (h : Guard) (d a b : Reg) (imm : BitVec 16) (w64 : Bool) (o : Order) (s : State) : Result :=
  issue (.atomXchg h d a b imm w64 o) (atomBody .xchg w64 o d (fun w => w.ea a b imm) fun _ _ => 0) s
/-- atom.cas: no index register; b is the compare value (R256). -/
def execAtomCas (h : Guard) (d a b : Reg) (imm : BitVec 16) (w64 : Bool) (o : Order) (s : State) : Result :=
  issue (.atomCas h d a b imm w64 o) (atomBody .cas w64 o d (fun w => w.eaNoIndex a imm) fun w i =>
    if w64 then (w.pair b i).toNat else (w.lane b i).toNat) s
def execAtomInc (h : Guard) (d a b : Reg) (imm : BitVec 16) (w64 : Bool) (o : Order) (s : State) : Result :=
  issue (.atomInc h d a b imm w64 o) (atomBody .inc w64 o d (fun w => w.ea a b imm) fun _ _ => 0) s
def execAtomDec (h : Guard) (d a b : Reg) (imm : BitVec 16) (w64 : Bool) (o : Order) (s : State) : Result :=
  issue (.atomDec h d a b imm w64 o) (atomBody .dec w64 o d (fun w => w.ea a b imm) fun _ _ => 0) s

/-- A slot that atom.fadd accepts (R258). -/
def faddSlot (f : Fmt) : Bool := !f.isDyadic && (f.width == 8 || f.width == 16 || f.width == 32)

/-- What atom.fadd makes of an old code in one lane (R258). -/
def faddOut (w : Weft) (f : Fmt) (d : Reg) (i o : Nat) : Rounded := addOut f (f.decode o) (f.elemNum (w.lane d i) 0)

def execAtomFadd (h : Guard) (n : BitVec 4) (d a b : Reg) (imm : BitVec 16) (o : Order) (s : State) : Result :=
  issue (.atomFadd h n d a b imm o) (fun x s =>
    let f := x.fmt n
    if !faddSlot f then .trap { cause := 0x07 }
    else
      accessBody true true false (fun x => laneAccs x (f.width / 8) (f.width / 8) (x.w.ea a b imm)) (fun v x s =>
        if x.act = 0 then .ok (s.sideEffect x.l x.w)
        else
          let as := laneAccs x (f.width / 8) (f.width / 8) (x.w.ea a b imm)
          let r := updateLanes v.loom (s.laneSpots v as) (fun i old => some (faddOut x.w f d i old).bits)
            (s.sideEffect x.l x.w)
          .done ((r.1.acquire v (acquires o) as).modWeft x.l x.k fun w =>
              r.2.foldl (fun w p => w.setLane d p.1 (BitVec.ofNat 32 p.2)) w)
            (r.2.foldl (fun fl p => fl ||| (faddOut x.w f d p.1 p.2).flags) 0)
            (r.2.filterMap fun p => (faddOut x.w f d p.1 p.2).record.map fun c =>
              { lane := p.1, element := 0, code := c })) x s) s

end Sys2Proof.Machine
end

