-- ==== Sys2Proof/Machine/Engine.lean ====
section
/-! DEFINITION. Engine operations: capture and issue (10 R263, R264), the range scoreboard (08 R196, R198), the interlock
of tile slots and ranges (11 R286), elements of packed arrays and of tile slots, what a unit comes to (R265), faults
(16 R420) and retirement (09 R245). -/

namespace Sys2Proof.Machine

/-! ## Fields of captured data -/

/-- Bits [hi:lo] of a captured block or record, as a number. -/
def bf {n : Nat} (x : BitVec n) (hi lo : Nat) : Nat := (x.extractLsb' lo (hi + 1 - lo)).toNat

/-- A 32-bit field as a signed number. -/
def signed32 (x : Nat) : Int := (BitVec.ofNat 32 x).toInt

/-- The 64-bit field at a bit. -/
def bd {n : Nat} (x : BitVec n) (lo : Nat) : DWord := x.extractLsb' lo 64

/-- A new operation of an issue: nothing captured but its word, PC, lane and mask. -/
def newOp (s : State) (x : Iss) (i : Instr) : Op :=
  { id := s.fresh, loom := x.l, slot := x.k, ctx := x.w.ctx, team := (s.teamOf x.l x.w).map (·.id), instr := i,
    word := x.word, pc := x.pc, legacy := x.legacy, lane := x.lane, mask := x.act, opa := 0, opb := 0, opc := 0,
    defs := [], block := 0, recs := [], total := 0, flags := 0, result := 0, tag := 0, sent := [], acked := [],
    refused := none, contributor := 0, parts := [], merging := false, discard := false, early := [], route := [],
    enter := false, started := false, header := none, partRecs := [] }

/-- Captured definition n of an operation. -/
def Op.defn (o : Op) (n : Nat) : DWord := o.defs.getD n 0
/-- Captured record n. -/
def Op.record (o : Op) (n : Nat) : BitVec 832 := o.recs.getD n 0

/-! ## Activity budgets (R409, R410) -/

/-- Busy cycles that each instance of an activity has in the present period: 0 copy engines, 1 bank units, 2 migration
copier, 3 swap engines, 4 fabric replay, 5 memory scrubber, 6 event sampling. -/
def State.allowed (s : State) (act : Nat) : Nat := ((s.mgmt.budgets[act]?).map (·.now)).getD 0
/-- An instance outside the looms has budget left. -/
def State.unheld (s : State) (act inst : Nat) : Bool := SMap.getD s.mgmt.used (256 * act + inst) 0 < s.allowed act
/-- It takes a busy cycle. -/
def State.busy (s : State) (act inst : Nat) : State :=
  { s with mgmt := { s.mgmt with
      used := SMap.put s.mgmt.used (256 * act + inst) (SMap.getD s.mgmt.used (256 * act + inst) 0 + 1) } }
/-- A loom's copy engine and swap engine. -/
def State.copyUnheld (s : State) (l : Nat) : Bool := (s.loom l).copyUsed < s.allowed 0
def State.copyBusy (s : State) (l : Nat) : State := s.modLoom l fun x => { x with copyUsed := x.copyUsed + 1 }
def State.swapUnheld (s : State) (l : Nat) : Bool := (s.loom l).swapUsed < s.allowed 3
def State.swapBusy (s : State) (l : Nat) : State := s.modLoom l fun x => { x with swapUsed := x.swapUsed + 1 }

/-! ## Queues and operations in place (R263, R329) -/

/-- Entries of an engine's command queue in use: operations in it, and faulted ones that wait for a replay entry
(R329, R420). -/
def Loom.queueLoad (x : Loom) (c : OcClass) : Nat :=
  (x.queue c).length
    + (x.wefts.flatMap fun p => p.2.faulted.filter fun f => f.op.cls == c && !f.report).length

/-- Change an operation in its queue. -/
def State.modOp (s : State) (l : Nat) (c : OcClass) (id : Nat) (f : Op → Op) : State :=
  s.modLoom l fun x => x.setQueue c ((x.queue c).map fun o => if o.id = id then f o else o)

/-- Take an operation out of its engine, with its footprint. -/
def State.removeOp (s : State) (l : Nat) (c : OcClass) (id : Nat) : State :=
  s.modLoom l fun x => (x.setQueue c ((x.queue c).filter fun o => o.id != id)).dropRanges id

/-- Progress(d) of an operation (R124). -/
def State.progress (s : State) (o : Op) : Nat :=
  match progressReg o.instr, s.weft? o.loom o.slot with
  | some d, some w => (w.raw d o.lane).toNat
  | _, _ => 0

/-- Record a unit's completion (R125). -/
def State.setProgress (s : State) (o : Op) (u : Nat) : State :=
  match progressReg o.instr with
  | none => s
  | some d => s.modWeft o.loom o.slot fun w => w.setLane d o.lane (BitVec.ofNat 32 u)

/-- Every unit of an operation is complete: bank parts for a bankop, units up to N otherwise (R125, R274). -/
def State.opDone (s : State) (o : Op) : Bool :=
  if o.cls = .bank then o.parts.isEmpty else !o.merging && s.progress o ≥ o.total

/-! ## The range scoreboard (R196, R198) -/

/-- An interval of virtual addresses that an operation reads or writes. -/
structure Span where
  lo : Nat
  hi : Nat
  write : Bool
deriving DecidableEq, Repr

/-- The part of a span that lies in loom memory, in loom-memory offsets (R196). -/
def View.spanRange (v : View) (id : Nat) (sp : Span) : Option Range :=
  let w0 := 0xFFF * 2 ^ 52
  let (base, size) := v.share.getD (0, Config.loomMemoryBytes)
  if size = 0 ∨ sp.hi < w0 ∨ w0 + size ≤ sp.lo then none
  else some { op := id, lo := base + (sp.lo - w0), hi := base + (min sp.hi (w0 + size - 1) - w0), write := sp.write }

/-- The footprint of an operation. -/
def View.footprint (v : View) (id : Nat) (sps : List Span) : List Range := sps.filterMap (v.spanRange id)

/-- Two intervals meet. -/
def Span.meets (a b : Span) : Bool := a.lo ≤ b.hi && b.lo ≤ a.hi

/-- The address behind a view's window. -/
def View.windowEnd (v : View) : Nat := 0xFFF * 2 ^ 52 + (v.share.getD (0, Config.loomMemoryBytes)).2

/-- Some byte of an interval lies neither in the window nor on a valid page of kind UO: from an address on, the window at once
and then page by page (R427). -/
def State.notUo (s : State) (v : View) : Nat → Nat → Nat → Bool
  | 0, _, _ => false
  | k + 1, lo, hi =>
    if lo > hi then false
    else
      match s.spot v lo with
      | .lm _ | .frame _ _ => s.notUo v k v.windowEnd hi
      | .bad _ => true
      | .page x _ =>
        pteKind x.pte != 2 || s.notUo v k (x.base lo + 2 ^ levelShift x.level) hi

/-- An engine operation sets its team's side-effect bit by what it may write (R427): a window's bytes are the team's own
loom memory. -/
def State.writesOut (s : State) (v : View) (sps : List Span) : Bool :=
  sps.any fun sp => sp.write && s.notUo v ((sp.hi - sp.lo) / 2 ^ 19 + 2) sp.lo sp.hi

/-! ## Tile slots, ranges and their interlock (R283, R286) -/

/-- Logical tile slots and accumulator ranges (by their first tile) that an instruction reads and writes. -/
structure Touch where
  tr : List Nat := []
  tw : List Nat := []
  ar : List Nat := []
  aw : List Nat := []
  /-- The ranges of `aw` are given up, so that every earlier use of them holds it (R290, R302). -/
  frees : Bool := false
deriving DecidableEq, Repr

def Touch.isEmpty (t : Touch) : Bool := t.tr.isEmpty && t.tw.isEmpty && t.ar.isEmpty && t.aw.isEmpty

/-- An earlier operation's touch holds a later one (R286): a read holds a later write of a slot, and of a range that trel, unpin or
detach gives up (R290, R302). -/
def Touch.holds (e t : Touch) : Bool :=
  let meets (a b : List Nat) : Bool := a.any b.contains
  meets e.tw (t.tr ++ t.tw) || meets e.aw (t.ar ++ t.aw) || meets e.tr t.tw || (t.frees && meets e.ar t.aw)

/-! ## Elements in memory (R80, R265, R355) -/

/-- The access of w bits at a bit offset from a byte address, and the first bit's place in it. -/
def bitAcc (base : DWord) (bit w : Nat) : Acc × Nat :=
  ({ lane := 0, va := base + BitVec.ofNat 64 (bit / 8), len := (bit % 8 + w + 7) / 8 }, bit % 8)

/-- The order of R254 that an engine's byte meets, times ten. `comp`: the side expects compressed pages; only copy may
touch them (R265, R356). -/
def Spot.engineCase (store comp isCopy : Bool) : Spot → Nat
  | .bad n => n
  | .lm _ | .frame _ _ => if comp then 60 else 90
  | .page x pa =>
    if pteResident x.pte && pa ≥ x.space.bytes then 40
    else if store && !pteWritable x.pte then 50
    else if pteCompressed x.pte != comp || (comp && !isCopy) then 60
    else if !pteResident x.pte then 70
    else 90

/-- The first case that an engine's access meets, and its address. -/
def State.engineCase (s : State) (v : View) (store comp isCopy : Bool) (a : Acc) : Nat × Nat :=
  a.bytes.foldl (fun best va =>
    let c := (s.spot v va).engineCase store comp isCopy
    if c < best.1 then (c, va) else best) (90, a.va.toNat)

/-- What an engine's read comes to. -/
inductive Got where
  | val (n : Nat)
  | wait
  | fault (cause code : Nat) (detail : DWord)
deriving DecidableEq, Repr

/-- The block of HBM that a spot lies in (R218). -/
def Spot.block : Spot → Option Nat
  | .page _ pa => some (pa / 4096)
  | _ => none

/-- The bytes of a compressed block, if it decodes (R222). -/
def State.block (s : State) (b : Nat) : Option (List Byte) :=
  expandBlock (SMap.getD s.mem.blockMeta b 0) fun n => Memory.readBytes s.mem.hbm (4096 * b) n

/-- A sector of a block's frame is in uncorrectable error. -/
def State.blockError (s : State) (b : Nat) : Bool :=
  !s.mem.marks.isEmpty
    && (List.range (min 32 ((SMap.getD s.mem.blockMeta b 0).extractLsb' 0 6).toNat)).any fun k =>
      s.mem.hard (.phys .hbm (32 * b + k))

/-- The corrected errors that a controller meets in the sectors of a block (R190, R222). -/
def State.softBlock (s : State) (ctx b : Nat) : State :=
  if s.mem.marks.isEmpty then s
  else (List.range (min 32 ((SMap.getD s.mem.blockMeta b 0).extractLsb' 0 6).toNat)).foldl (fun s k =>
      s.softAt ctx (.phys .hbm (32 * b + k))) s

/-- A merge holds the block (R227). -/
def State.blockHeld (s : State) (b : Nat) : Bool := s.mem.pending.any fun p => p.2.block == b

/-- The request waits at its controller (R227). -/
def Merge.waits (m : Merge) : Bool := m.entry.isNone && m.got.isNone

/-- A request to a block waits: a merge holds the block, or an earlier request to it waits (R227). DESIGN CHOICE (log entry 30):
R227 makes requests wait while an entry is held; of a request to a block whose earlier merge waits only since the table is full
it says nothing, and in the model it waits behind that merge, in arrival order. -/
def State.blockBusy (s : State) (b : Nat) : Bool := s.blockHeld b || s.mem.merges.any fun m => m.waits && m.block == b

/-- A block as its controller gives it to a read: cause 0 and its bytes as a number, or the cause met (R222, R223). -/
def State.takeBlock (s : State) (b : Nat) : Nat × Nat :=
  if s.blockError b then (0x0E, 0)
  else match s.block b with | some bs => (0, leValue bs) | none => (0x0F, 0)

/-- The operation whose request it is; none for the host's accesses. -/
def Merge.ofOp (m : Merge) : Option Nat :=
  match m.kind with
  | .hostStore | .hostLoad => none
  | _ => some m.op

/-- The controller of a block: its stack (R189, R227). -/
def blockCtrl (b : Nat) : Nat := hbmStack (4096 * b)

/-- What a host store leaves of its bytes: in a block of device records, only fields that software writes, and qf where it is
cleared (R6, R7, R315, R319). The service firmware's stores are among these (log entry 20). -/
def State.hostFielded (s : State) (sp : Space) (a : Nat) (data : List Byte) : List Byte :=
  let bs := s.devBlocks
  if bs.isEmpty then data
  else data.zipIdx.map fun q =>
    match bs.find? fun b => b.sp == sp && b.base ≤ a + q.2 && a + q.2 < b.base + b.size with
    | none => q.1
    | some b =>
      let f := if b.launch then launchField ((a + q.2 - b.base) % 64) else contextField (a + q.2 - b.base)
      let clr := if b.launch then launchClear ((a + q.2 - b.base) % 64) else 0
      (s.readPhys sp (a + q.2) &&& ~~~(f.1 ||| f.2) &&& (q.1 ||| ~~~clr)) ||| (q.1 &&& (f.1 ||| f.2))

/-- A store by the host at its point of coherence: an HBM line at its home, but for the frame of a compressed block, which its
controller writes; a request at a market bank (R212, R229, R453). -/
def State.hostHome (s : State) (sp : Space) (a : Nat) : State :=
  match sp with
  | .hbm => if SMap.getD s.mem.blockMeta (a / 4096) 0 = 0 then s.touchL2 false a true else s.countDie (hbmStack a / 2) 0x44 1
  | .market => s.countDie (marketBank a / 64) 0x45 1
  | .host => s

/-- A store by the host to bytes of a physical space: units that it writes whole are in error no longer (R211, R215). -/
def State.hostWrite (s : State) (sp : Space) (a : Nat) (data : List Byte) : State :=
  let s1 := (s.hostHome sp a).modMem fun m => m.setOf sp (Memory.writeBytes (m.of sp) a (s.hostFielded sp a data))
  let e := markOf sp a
  if e.bytes ≤ data.length then s1.modMem fun m => m.clearMark e else s1

/-- An earlier request to the block of a request, of those given, waits (R227). -/
def Merge.behind (m : Merge) (before : List Merge) : Bool := before.any fun q => q.waits && q.block == m.block

/-- The request at an index of the list is served where it can be: a read takes the block, a host access takes effect, a merge
takes a pending-table entry, at most one to a block and 64 to a controller (R226, R227). DESIGN CHOICE (log entry 30): the
manual does not say which free entry a merge takes; it is the lowest. -/
def State.serveRequest (s : State) (k : Nat) (m : Merge) : State :=
  let put (s : State) (m : Merge) : State := s.modMem fun x => { x with merges := setAt x.merges k m }
  if !m.waits || s.blockHeld m.block || m.behind (s.mem.merges.take k) then s
  else
    match m.kind with
    | .whole => s
    | .read => put s { m with got := some (s.takeBlock m.block) }
    | .hostStore => put (s.hostWrite .hbm m.vaBlock.toNat (leBytes m.unit m.bits)) { m with got := some (0, 0) }
    | .hostLoad =>
      let v := s.readPhysLe .hbm m.vaBlock.toNat m.unit
      put { s with outbox := s.outbox ++ [Out.hostData (BitVec.ofNat 64 v)] } { m with got := some (0, v) }
    | .part =>
      let c := blockCtrl m.block
      match (List.range 64).find? fun e => (SMap.find? s.mem.pending (64 * c + e)).isNone with
      | none => s
      | some e =>
        (put s { m with entry := some e }).modMem fun x =>
          { x with pending := SMap.put x.pending (64 * c + e) { block := m.block, src := m.loom, waiting := 0 } }

/-- Requests at the controllers are served in arrival order, and the entries count those that wait on their blocks (R227,
R367). -/
def State.admitMerges (s : State) : State :=
  let s1 := (s.mem.merges.zipIdx).foldl (fun s q => s.serveRequest q.2 q.1) s
  s1.modMem fun x =>
    { x with merges := x.merges.filter fun m => m.got.isNone || m.kind == .read,
             pending := x.pending.map fun p =>
               (p.1, { p.2 with waiting := min 4095 ((x.merges.filter fun m => m.waits && m.block == p.2.block).length) }) }

/-- Requests go to the controllers. -/
def State.request (s : State) (ms : List Merge) : State :=
  (s.modMem fun x => { x with merges := x.merges ++ ms }).admitMerges

/-- What operation `who` reads of a block: what its request was served with, else the block as it stands, unless it must wait
(R227). -/
def State.readBlock (s : State) (who b : Nat) : Option (Nat × Nat) :=
  match s.mem.merges.find? fun m => m.kind == .read && m.op == who && m.block == b && m.got.isSome with
  | some m => m.got
  | none => if s.blockBusy b then none else some (s.takeBlock b)

/-- Read the bytes of an access of operation `who` to compressed pages. -/
def State.readBlocks (s : State) (who : Nat) (v : View) (a : Acc) : Got :=
  let places := a.bytes.map fun va => (va, (s.spot v va).block.getD 0)
  let bs := (places.map (·.2)).eraseDups.map fun b => (b, s.readBlock who b)
  if bs.any fun b => b.2.isNone then .wait
  else
    let of (b : Nat) : Nat × Nat := ((bs.find? fun e => e.1 == b).bind (·.2)).getD (0x0F, 0)
    if bs.any fun b => (of b.1).1 == 0x0E then .fault 0x0E 0 a.va
    else
      match places.find? fun p => (of p.2).1 != 0 with
      | some p => .fault 0x0F 0 (BitVec.ofNat 64 (p.1 / 4096))
      | none => .val (leValue (places.map fun p => BitVec.ofNat 8 ((of p.2).2 / 256 ^ (p.1 % 4096))))

/-- Read w bits at a bit offset from a base, for an engine's operation `who` (R265). -/
def State.readBits (s : State) (v : View) (comp isCopy : Bool) (base : DWord) (bit w : Nat) (who : Nat := 0) : Got :=
  let (a, sh) := bitAcc base bit w
  let (c, va) := s.engineCase v false comp isCopy a
  if c < 70 then .fault (causeOfCase c) 0 (BitVec.ofNat 64 va)
  else if c = 70 then .wait
  else if comp then
    match s.readBlocks who v a with
    | .val n => .val (n >>> sh % 2 ^ w)
    | g => g
  else if (s.spots v a).any (s.readError v.loom) then .fault 0x0E 0 a.va
  else .val (leValue ((s.spots v a).map (s.readSpot v.loom)) >>> sh % 2 ^ w)

/-- What a write by an engine meets before it is made: none, or a wait or fault; a field of supervisor mode is no place for
an operation of user mode (R6). -/
def State.writeCase (s : State) (v : View) (comp isCopy : Bool) (base : DWord) (bit w : Nat) : Option Got :=
  let (a, _) := bitAcc base bit w
  let (c, va) := s.engineCase v true comp isCopy a
  if c < 70 then some (.fault (causeOfCase c) 0 (BitVec.ofNat 64 va))
  else if c = 70 then some .wait
  else if !v.sv && s.touchesSv (s.spots v a) then some (.fault 0x04 0 0)
  else if !comp && s.writeError v.loom (s.spots v a) then some (.fault 0x0E 0 a.va)
  else none

/-- Write w bits (R80, R81), and compare the armed words that the write may have reached (R396). -/
def State.putBits (s : State) (v : View) (base : DWord) (bit w val : Nat) : State :=
  let (a, sh) := bitAcc base bit w
  let sps := s.spots v a
  (s.storeSpots v.loom (sps.zip (leBytes a.len (replaceBits (leValue (sps.map (s.readSpot v.loom))) sh w val))) v.sv).checkArms

/-- The places in error that an access touches: their first virtual address and size. -/
def State.markedPlaces (s : State) (v : View) (a : Acc) : List (Nat × Nat) :=
  if s.mem.marks.isEmpty then []
  else
    (a.bytes.flatMap fun va => ((s.spot v va).units v.loom).filterMap fun e =>
      if (s.mem.markAt e).isSome then some (va / e.bytes * e.bytes, e.bytes) else none).eraseDups

/-- A line or word in error that an operation has now written whole is in error no longer (R193, R211, R215): `covers` says of
a range of addresses whether the operation has written all of it. -/
def State.settleMarks (s : State) (v : View) (a : Acc) (covers : Nat → Nat → Bool) : State :=
  (s.markedPlaces v a).foldl (fun s p =>
    if covers p.1 p.2 then s.wholeUnits v.loom (s.spots v ⟨0, BitVec.ofNat 64 p.1, p.2, 1⟩) else s) s

/-- The bits of [lo, hi) behind a base hold every byte of n from an address. -/
def spanCovers (base : DWord) (lo hi va n : Nat) : Bool :=
  8 * base.toNat + lo ≤ 8 * va && 8 * (va + n) ≤ 8 * base.toNat + hi

/-- What an engine's access leaves in TLB, L2 and counts; compressed pages lie in no L2 (R218). -/
def State.noteEngine (s : State) (v : View) (comp : Bool) (a : Acc) (write : Bool := true) : State :=
  if comp then
    match s.spot v a.va.toNat with
    | .page x _ =>
      let s1 := s.missTlb v a.va.toNat x
      if write then s1 else ((s.spots v a).filterMap Spot.block).eraseDups.foldl (fun s b => s.softBlock v.ctx b) s1
    | _ => s
  else (s.note v false [a] write).noteSoft v [a]

/-- The view of an operation: its weft's window, through the copy engine's TLB, or the core's for bank commands, which keep the
leaves of their issue. -/
def State.opView (s : State) (o : Op) : View :=
  match s.weft? o.loom o.slot with
  | none => { loom := o.loom, ctx := o.ctx, agent := .copy o.loom, share := some (0, 0), frame := none, leaves := o.leaves }
  | some w =>
    { s.viewOf o.loom w with
      agent := if o.cls = .bank then .core o.loom else .copy o.loom, frame := none, leaves := o.leaves }

/-! ## Tile slots (R200) -/

/-- The physical slot of a logical one in an operation's team. -/
def State.tileOf (s : State) (o : Op) (n : Nat) : Option Nat :=
  match s.weft? o.loom o.slot with
  | none => none
  | some w => (s.teamOf o.loom w).bind fun t => SMap.find? t.tiles n

/-- w bits of a physical slot. -/
def Loom.tileBits (x : Loom) (p bit w : Nat) : Nat :=
  Memory.readLe x.operand (4096 * p + bit / 8) ((bit % 8 + w + 7) / 8) >>> (bit % 8) % 2 ^ w

/-- Write w bits of a physical slot. -/
def Loom.setTileBits (x : Loom) (p bit w val : Nat) : Loom :=
  let a := 4096 * p + bit / 8
  let n := (bit % 8 + w + 7) / 8
  { x with operand := Memory.writeLe x.operand a n (replaceBits (Memory.readLe x.operand a n) (bit % 8) w val) }

/-! ## What a unit comes to (R265, R416, R420) -/

/-- What a unit comes to: it waits with nothing written, it faults, or it is done, with flags and records (element and
code). -/
inductive UnitOut where
  | wait
  | fault (cause code : Nat) (detail : DWord)
  | did (s : State) (fl : BitVec 6) (recs : List (Nat × Nat))

/-- Conversion records of an operation (R85). -/
def Op.convRecs (o : Op) (recs : List (Nat × Nat)) : List ConvRec :=
  recs.map fun r => { pc := o.pc, slot := o.slot, lane := o.lane, engine := true, loom := o.loom, code := r.2,
                      element := r.1 }

/-- Cause 0x0E, met in a tile slot or an accumulator cell: its count is the loom's (R412). -/
def tileError : Nat := 0x10E

/-- A corrected error counted on a loom: operand memory and accumulator store (R405, R412). -/
def State.softTile (s : State) (l ctx : Nat) : State := (s.loomError l 4).countLoom l 0x13 ctx 1

/-- A fault of an operation after issue (R265, R394, R420): it leaves its engine with its progress, its class counter goes
down, and it waits for a replay entry. The flags of its complete units reach s.fpx at the fault where the matrix engine performs
it (R297), else at its retirement (R77, R270). Its requests that hold no pending entry are withdrawn, and those that waited
behind them are served (R227). -/
def State.opFault (s : State) (o : Op) (cause code : Nat) (detail : DWord) : State :=
  let u := s.progress o
  let s0 := if cause = tileError then s.loomError o.loom 5
    else if cause = 0x0E then s.noteError (s.opView o) detail else s
  let s1 := (s0.modMem fun x =>
    { x with merges := x.merges.filter fun m => m.ofOp != some o.id || m.entry.isSome }).admitMerges
  let s2 := s1.removeOp o.loom o.cls o.id
  let now : BitVec 6 := if o.cls = .mat then o.flags else 0
  let q : Op := { o with
    flags := o.flags ^^^ now, merging := false, sent := [], acked := [], refused := none, sending := none }
  let f : Faulted := { op := q,
                       cause := cause % 256, code := code, index := u, detail := detail, report := false }
  (s2.modWeft o.loom o.slot fun w =>
    if w.ended.isSome then { w with oc := w.oc.set o.cls (w.oc.get o.cls - 1) }
    else { w with oc := w.oc.set o.cls (w.oc.get o.cls - 1), fpx := w.fpx ||| now, faulted := w.faulted ++ [f] }).fillReplay
      9 o.loom o.slot

/-- A unit of an operation, up to progress `u`. -/
def State.applyUnit (s : State) (o : Op) (u : Nat) : UnitOut → State
  | .wait => s
  | .fault c code d => s.opFault o c code d
  | .did s' fl recs =>
    let s1 := (s'.opRecords o (o.convRecs recs)).setProgress o u
    let s2 := s1.modOp o.loom o.cls o.id fun q => { q with flags := q.flags ||| fl }
    match o.cls with
    | .copy | .gath => s2.countLoom o.loom 0x0C o.ctx 1
    | .mat => s2.countLoom o.loom 0x0D o.ctx 1
    | _ => s2

/-! ## Issue (R263, R264, R135) -/

/-- A load that an instruction makes at issue, of n bytes aligned to n, in lane L (R264). -/
def loadL (addr : DWord) (n align : Nat) (k : Nat → State → Effect) (x : Iss) (s : State) : Effect :=
  if addr.toNat % align ≠ 0 then faultL x 0x08 addr
  else
    accessBody true false false (fun x => [{ lane := x.lane, va := addr, len := n }])
      (fun v _ s' => k (s.readVa v addr n) s') x s

/-- The operation's queue is full (R329). -/
def State.queueFull (s : State) (l : Nat) (c : OcClass) : Bool :=
  (s.loom l).queueLoad c ≥ Config.commandQueueEntries

/-- Operations whose units may append conversion records (R84, R86). -/
def recording : Instr → Bool
  | .copy .. | .gather .. | .scatter .. | .cmpst .. | .expld .. | .xatom .. | .bankop .. | .mma .. | .mmaSp .. | .mmaDy ..
  | .delta .. | .ascale .. | .acvt .. => true
  | _ => false

/-- An operation of a weft begins: its counter goes up (R393). -/
def Weft.opens (w : Weft) (o : Op) : Weft := { w with oc := w.oc.set o.cls (w.oc.get o.cls + 1) }
/-- The place of its records among the weft's (R86). -/
def Weft.queueRecs (w : Weft) (o : Op) : Weft :=
  if recording o.instr then { w with recQ := w.recQ ++ [{ op := some o.id, recs := [] }] } else w

/-- An operation as it issues: with the header of the flit that its result is to be (R335). -/
def Op.withHeader (o : Op) (x : Iss) : Op :=
  { o with header := (headerReg x.w o.instr x.act).head?.map fun h => x.w.lane h x.lane }

/-- An operation issues: its queue entry, its counter, its footprint, the side-effect bit (R198, R263, R393, R427). An
operation with no unit left enters no footprint (R125). -/
def acceptOp (x : Iss) (o : Op) (sps : List Span) (mark : Bool) (s : State) : Effect :=
  let v := s.opView o
  let fp := if s.progress o ≥ o.total then [] else v.footprint o.id sps
  if (s.loom x.l).ranges.length + fp.length > Config.rangeEntries then .hold
  else
    let s1 := s.modLoom x.l fun y =>
      { (y.setQueue o.cls (y.queue o.cls ++ [o.withHeader x])) with ranges := y.ranges ++ fp }
    let s2 := s1.modWeft x.l x.k fun w => (w.opens o).queueRecs o
    let s3 := { s2 with fresh := s2.fresh + 1 }
    .ok (if mark || sendsMessage x.w o.instr x.act || s.writesOut v sps then s3.sideEffect x.l x.w else s3)

/-! ## Retirement (R245, R394) -/

/-- Records of the operation wait behind those of earlier ones (R86). -/
def State.recsWait (s : State) (o : Op) : Bool :=
  match s.weft? o.loom o.slot with
  | none => false
  | some w => w.recQ.any fun q => q.op == some o.id && !q.recs.isEmpty

/-- An operation may retire: all units done, its records appended, and none older of its weft and class in the engine. -/
def State.canRetire (s : State) (o : Op) : Bool :=
  s.opDone o && !o.enter && !o.merging && !s.recsWait o
    && !((((s.loom o.loom).queue o.cls).takeWhile fun q => q.id != o.id).any fun q => q.slot == o.slot)

/-- Register results are written while the frontier is not empty (R160). -/
def Weft.opResult (w : Weft) (d : Reg) (lane : Nat) (v : Word) : Weft :=
  if w.held.isEmpty && w.spilled.isEmpty then w else w.setLane d lane v

/-- RETIREMENT of an operation whose register result, if any, is written by `res` (R135, R245, R394). -/
def State.retireOp (s : State) (o : Op) (res : Weft → Weft) : State :=
  let s1 := s.removeOp o.loom o.cls o.id
  s1.modWeft o.loom o.slot fun w =>
    let w := if w.ended.isSome || o.discard then w else res { w with fpx := w.fpx ||| o.flags }
    { w with oc := w.oc.set o.cls (w.oc.get o.cls - 1) }

end Sys2Proof.Machine
end

