-- ==== Sys2Proof/Machine/Copy.lean ====
section
/-! DEFINITION. copy, gather, scatter, cmpst, expld and bankop, with tensor records, the merges of compressed blocks and
the parts of bank commands (10 R266 to R274, 13 R354 to R356, 08 R218 to R228). -/

namespace Sys2Proof.Machine

/-! ## Tensor records (R354 to R356) -/

/-- A tensor record's fields (R354). -/
structure Tensor where
  base : DWord
  slot : Nat
  rank : Nat
  comp : Bool
  pad : Nat
  kidx : Nat
  perm : List Nat
  padvalue : Nat
  irec : DWord
  sbase : DWord
  dim : List Nat
  stride : List Nat
  box : List Nat
deriving DecidableEq, Repr

def Tensor.ofBits (r : BitVec 832) : Tensor :=
  { base := bd r 0, slot := bf r 67 64, rank := bf r 70 68, comp := r.getLsbD 71, pad := bf r 75 72, kidx := bf r 78 76,
    perm := (List.range 6).map fun k => bf r (82 + 3 * k) (80 + 3 * k), padvalue := bf r 159 128, irec := bd r 192,
    sbase := bd r 256, dim := (List.range 6).map fun k => bf r (351 + 32 * k) (320 + 32 * k),
    stride := (List.range 6).map fun k => bf r (543 + 32 * k) (512 + 32 * k),
    box := (List.range 6).map fun k => bf r (719 + 16 * k) (704 + 16 * k) }

/-- perm[0 .. rank−1] is a permutation of 0 .. rank−1. -/
def permOk (rank : Nat) (p : List Nat) : Bool :=
  (List.range rank).all fun k => (p.take rank).contains k

/-- The record names an index record at an address that a record can have (R354, R356). -/
def Tensor.hasIndex (t : Tensor) : Bool := t.kidx != 7 && t.irec.toNat % 128 == 0

/-- An index record that R356 accepts: rank 1, kidx 7, slot of integer/fixed kind with bias 0. -/
def indexOk (i : Tensor) (def_ : DWord) : Bool :=
  i.rank == 1 && i.kidx == 7 && (Fmt.ofDef def_).isInt && (Fmt.ofDef def_).bias == 0

/-- The lowest code of R356 that applies to a record with its index record and that record's slot; 0: well formed. -/
def Tensor.code (t : Tensor) (i : Tensor) (idef : DWord) : Nat :=
  let r := t.rank
  if r = 0 ∨ r = 7 then 1
  else if (t.dim.take r).contains 0 then 2
  else if !permOk r t.perm then 3
  else if t.kidx ≠ 7 ∧ t.kidx ≥ r then 4
  else if t.kidx ≠ 7 ∧ !(t.hasIndex && indexOk i idef) then 5
  else if (t.box.take r).foldl (· * ·) 1 ≥ 2 ^ 32 then 6
  else 0

/-- Element offset of coordinates (R355). -/
def Tensor.offset (t : Tensor) (c : List Nat) : Nat :=
  ((c.take t.rank).zip t.stride).foldl (fun acc p => acc + p.1 * p.2) 0

/-- Read a record at issue: 104 bytes, 128-byte aligned (R354, R357). -/
def loadRecord (addr : DWord) (k : BitVec 832 → State → Effect) (x : Iss) (s : State) : Effect :=
  loadL addr 104 128 (fun n s => k (BitVec.ofNat 832 n) s) x s

/-- Read a record's index record, where it names one (R356, R358). -/
def loadIndex (t : Tensor) (k : BitVec 832 → State → Effect) (x : Iss) (s : State) : Effect :=
  if t.hasIndex then loadRecord t.irec k x s else k 0 s

/-! ## The two sides of a copy (R266 to R269) -/

/-- A side: its tile slot, if it is one, its record, and its captured definition. -/
structure Side where
  tile : Option Nat
  t : Tensor
  def_ : DWord
deriving DecidableEq, Repr

def Side.fmt (x : Side) : Fmt := Fmt.ofDef x.def_
def Side.w (x : Side) : Nat := x.fmt.width

/-- A tile side as a box of the other side's sizes (R267). -/
def tileSide (n : Nat) (other : Tensor) (def_ : DWord) : Side :=
  let b0 := other.box.getD 0 0
  let b1 := other.box.getD 1 0
  { tile := some n, def_ := def_,
    t := { base := 0, slot := 0, rank := 2, comp := false, pad := 0, kidx := 7, perm := [0, 1, 2, 3, 4, 5], padvalue := 0,
           irec := 0, sbase := 0, dim := [b0, b1], stride := [1, b0], box := [b0, b1] } }

/-- A copy as it was captured: its sides, its index tensor and dimension, origins, extended box and unit count. -/
structure CopyPlan where
  src : Side
  dst : Side
  idx : Side
  gatherK : Option Nat
  scatterK : Option Nat
  so : List Int
  dor : List Int
  ext : List Nat
  h : Nat
  total : Nat
  /-- The bits are copied as they are (R268). -/
  same : Bool
  /-- The scale slot of a scaled source (R82, R83). -/
  scale : Option Fmt
deriving DecidableEq, Repr

/-- The tile sides of the form. -/
def copyTiles : Instr → TileSide
  | .copy _ t _ _ _ | .gather _ t _ _ _ | .scatter _ t _ _ _ => t
  | _ => .none

/-- The plan of a copy, gather or scatter, from what it captured (R268, R271). Captured definitions are those of source,
destination and index, then the source's scale slot (R420). DESIGN CHOICE (log entry 38): a tile slot has no scales of its own
(R83, R200), so that a tile source whose definition names scales is unscaled here, also for the bit copy of R268. -/
def Op.copyPlan (o : Op) : CopyPlan :=
  let ts := copyTiles o.instr == .ts
  let td := copyTiles o.instr == .td
  let st := Tensor.ofBits (o.record 0)
  let dt := Tensor.ofBits (o.record 1)
  let src : Side := if ts then tileSide (bf o.block 5 0) dt (o.defn 0) else ⟨none, st, o.defn 0⟩
  let dst : Side := if td then tileSide (bf o.block 69 64) st (o.defn 1) else ⟨none, dt, o.defn 1⟩
  let org (lo : Nat) (tile : Bool) : List Int :=
    (List.range 6).map fun k => if tile then 0 else signed32 (bf o.block (lo + 32 * k + 31) (lo + 32 * k))
  let h := if td then 0 else dst.t.pad
  let ext := ((dst.t.box.take dst.t.rank).zipIdx).map fun p => if p.2 ≤ 1 then p.1 + 2 * h else p.1
  let scaled := !ts && src.fmt.sblk != 0
  { src := src, dst := dst, idx := ⟨none, Tensor.ofBits (o.record 2), o.defn 2⟩,
    gatherK := match o.instr with | .gather .. => some src.t.kidx | _ => none,
    scatterK := match o.instr with | .scatter .. => some dst.t.kidx | _ => none,
    so := org 128 ts, dor := org 320 td, ext := ext, h := h, total := ext.foldl (· * ·) 1,
    same := cleanDef (o.defn 0) == cleanDef (o.defn 1) && !scaled,
    scale := if scaled then some (Fmt.ofDef (o.defn 3)) else none }

/-- A straight copy (R269). -/
def CopyPlan.straight (p : CopyPlan) : Bool :=
  p.gatherK.isNone && p.scatterK.isNone && p.h == 0 && p.same && (p.dst.tile.isSome || p.dst.fmt.sblk == 0)
    && (p.src.t.perm.take p.src.t.rank) == List.range p.src.t.rank

/-- The lowest and highest element offsets that a side can touch from an origin over counts, the whole of a dimension where
coordinates wrap or an index chooses them (R196); none for a tile. -/
def Side.reach (x : Side) (org : List Int) (cnt : List Nat) (full : Option Nat) : Option (Nat × Nat) :=
  if x.tile.isSome then none
  else
    let ends := (List.range x.t.rank).map fun k =>
      let d := x.t.dim.getD k 1
      let first := ((org.getD k 0) % (d : Int)).toNat
      let c := cnt.getD k 0
      if full = some k ∨ c ≥ d ∨ first + c > d then (0, d - 1) else (first, first + c - 1)
    some (x.t.offset (ends.map (·.1)), x.t.offset (ends.map (·.2)))

/-- The interval of bytes that a side can touch. -/
def Side.span (x : Side) (org : List Int) (cnt : List Nat) (full : Option Nat) (write : Bool) : Option Span :=
  (x.reach org cnt full).map fun r =>
    { lo := x.t.base.toNat + r.1 * x.w / 8, hi := x.t.base.toNat + (r.2 * x.w + x.w - 1) / 8, write := write }

/-- The interval of the index elements that the units use (R271): a gather's units that read a source element have x[k] in the
box; a scatter's have x[k] in the extended box, halo included. -/
def CopyPlan.idxSpan (p : CopyPlan) : List Span :=
  let at_ (first : Int) (cnt : Nat) := (p.idx.span [first] [cnt] none false).toList
  match p.gatherK, p.scatterK with
  | some k, _ => at_ 0 (p.dst.t.box.getD k 0)
  | none, some k => at_ (if k ≤ 1 then -(p.h : Int) else 0) (p.ext.getD k 0)
  | none, none => []

/-- The interval of the scales of the source elements that the operation can read (R83). -/
def CopyPlan.scaleSpan (p : CopyPlan) : List Span :=
  match p.scale, p.src.reach p.so p.src.t.box p.gatherK with
  | some f, some (lo, hi) =>
    let k := p.src.fmt.sblk
    [{ lo := p.src.t.sbase.toNat + (lo >>> k) * f.width / 8,
       hi := p.src.t.sbase.toNat + (((hi >>> k) + 1) * f.width - 1) / 8, write := false }]
  | _, _ => []

def CopyPlan.srcSpans (p : CopyPlan) : List Span :=
  (p.src.span p.so p.src.t.box p.gatherK false).toList ++ p.idxSpan
def CopyPlan.dstSpans (p : CopyPlan) : List Span :=
  (p.dst.span (p.dor.zipIdx.map fun q => if q.2 ≤ 1 then q.1 - (p.h : Int) else q.1) p.ext p.scatterK true).toList
/-- Every interval of a copy; none when it has no unit. -/
def CopyPlan.spans (p : CopyPlan) : List Span :=
  if p.total = 0 then [] else p.srcSpans ++ p.dstSpans ++ p.scaleSpan
/-- The sides overlap (R269). DESIGN CHOICE (log entry 29): R196 does not name the index tensor or the scales; the model counts
both with the source, since the operation reads them. -/
def CopyPlan.overlaps (p : CopyPlan) : Bool :=
  p.total != 0 && ((p.srcSpans ++ p.scaleSpan).any (fun a => p.dstSpans.any a.meets)
    || (p.src.tile.isSome && p.src.tile == p.dst.tile))

/-- A scale slot that R83 refuses. -/
def badScale (f : Fmt) : Bool := f.isDyadic || f.sblk != 0

/-- A record side's malformed code (R356). -/
def Op.sideCode (o : Op) (n : Nat) : Nat :=
  (Tensor.ofBits (o.record n)).code (Tensor.ofBits (o.record 2)) (o.defn 2)

/-- The side whose index dimension an operation uses, and its index dimension (R271). -/
def Op.needsIndex (o : Op) : Option Tensor :=
  match o.instr with
  | .gather _ t _ _ _ => if t = .ts then none else some (Tensor.ofBits (o.record 0))
  | .scatter _ t _ _ _ => if t = .td then none else some (Tensor.ofBits (o.record 1))
  | _ => none

/-- The checks of copy, gather and scatter on what was captured, in their order (R264 to R271). `other`: the malformed
code of a record whose index record is not the operation's own. -/
def State.copyCheck (s : State) (o : Op) (other : Nat) : Option Cause :=
  let p := o.copyPlan
  let fault (c : Nat) (code : Nat := 0) : Option Cause := some { cause := c, code := code, lane := some o.lane }
  let isGather := match o.instr with | .gather .. => true | _ => false
  let isScatter := match o.instr with | .scatter .. => true | _ => false
  -- each record is judged with its own index record (R356)
  let c0 := if p.src.tile.isSome then 0 else if isScatter then other else o.sideCode 0
  let c1 := if p.dst.tile.isSome then 0 else if isScatter then o.sideCode 1 else other
  let tiles := p.src.tile.toList ++ p.dst.tile.toList
  let big (x : Side) : Bool := x.tile.isSome && x.t.box.getD 0 0 * x.t.box.getD 1 0 * x.w > 32768
  if c0 ≠ 0 then fault 0x10 c0
  else if c1 ≠ 0 then fault 0x10 c1
  else if p.total ≥ 2 ^ 32 then fault 0x10
  else if tiles.any fun n => (s.tileOf o n).isNone then fault 0x12
  else if big p.src || big p.dst then fault 0x10
  else if p.src.t.rank ≠ p.dst.t.rank
      ∨ !(List.range p.dst.t.rank).all fun k =>
        p.src.t.box.getD k 0 == p.dst.t.box.getD (p.src.t.perm.getD k 0) 0 then fault 0x10
  else if (isGather || isScatter) && (match o.needsIndex with | none => true | some t => t.kidx == 7) then fault 0x10
  else if (isGather || isScatter) && p.idx.t.dim.getD 0 0 == 0 then fault 0x10 2
  else if (match p.scale with | none => false | some f => badScale f) then fault 0x07
  else if p.overlaps && !p.straight then fault 0x11
  else none

/-- Slots that a copy reads and writes (R286). -/
def Op.copyTouch (o : Op) : Touch :=
  { tr := o.copyPlan.src.tile.toList, tw := o.copyPlan.dst.tile.toList }

/-- Slots that an operation of the copy engine or gather engine touches. -/
def copyEngineTouch (o : Op) : Touch :=
  match o.instr with
  | .copy .. | .gather .. | .scatter .. => o.copyTouch
  | _ => {}

/-! ## Units of a copy -/

/-- Coordinates of a unit in an extended box, dimension 0 fastest. -/
def unitCoords : List Nat → Nat → List Nat
  | [], _ => []
  | e :: t, u => u % e :: unitCoords t (u / e)

/-- x of R268. -/
def CopyPlan.xs (p : CopyPlan) (u : Nat) : List Int :=
  ((unitCoords p.ext u).zipIdx).map fun q => if q.2 ≤ 1 then (q.1 : Int) - p.h else q.1

/-- The unit writes padding (R268). -/
def CopyPlan.padding (p : CopyPlan) (xs : List Int) : Bool :=
  ((xs.take 2).zip p.dst.t.box).any fun q => q.1 < 0 || q.1 ≥ (q.2 : Int)

/-- Wrap a coordinate. -/
def wrapDim (c : Int) (d : Nat) : Nat := (c % (d : Int)).toNat

/-- w bits of a side at an element offset, for an operation. -/
def State.readSide (s : State) (o : Op) (x : Side) (off : Nat) : Got :=
  match x.tile with
  | some n =>
    match s.tileOf o n with
    | none => .fault 0x12 0 0
    | some p =>
      if s.mem.hard (.tile o.loom p) then .fault tileError 0 0 else .val ((s.loom o.loom).tileBits p (off * x.w) x.w)
  | none =>
    s.readBits (s.opView o) x.t.comp (match o.instr with | .copy .. => true | _ => false) x.t.base (off * x.w) x.w o.id

/-- The index element's integer for coordinate x (R271, R356). DESIGN CHOICE (log entry 38): R83 speaks of scaled tensors and
does not say whether an index record's element is scaled where its slot names scales; the model decodes it as it stands. -/
def State.indexOf (s : State) (o : Op) (p : CopyPlan) (x : Int) : Except Got Int :=
  match s.readSide o p.idx (wrapDim x (p.idx.t.dim.getD 0 1) * p.idx.t.stride.getD 0 0) with
  | .val n =>
    match p.idx.fmt.decode n with
    | .fin neg m _ => .ok (if neg then -(m : Int) else m)
    | _ => .ok 0
  | g => .error g

/-- The source coordinates of a unit (R268, R271). -/
def State.srcCoords (s : State) (o : Op) (p : CopyPlan) (xs : List Int) : Except Got (List Nat) :=
  let c := (List.range p.src.t.rank).map fun k =>
    wrapDim (p.so.getD k 0 + xs.getD (p.src.t.perm.getD k 0) 0) (p.src.t.dim.getD k 1)
  match p.gatherK with
  | none => .ok c
  | some k => (s.indexOf o p (xs.getD k 0)).map fun m => setAt c k (wrapDim (p.so.getD k 0 + m) (p.src.t.dim.getD k 1))

/-- The destination coordinates of a unit. -/
def State.dstCoords (s : State) (o : Op) (p : CopyPlan) (xs : List Int) : Except Got (List Nat) :=
  let c := (List.range p.dst.t.rank).map fun k => wrapDim (p.dor.getD k 0 + xs.getD k 0) (p.dst.t.dim.getD k 1)
  match p.scatterK with
  | none => .ok c
  | some k => (s.indexOf o p (xs.getD k 0)).map fun m => setAt c k (wrapDim (p.dor.getD k 0 + m) (p.dst.t.dim.getD k 1))

/-- The value of an element with its scale, and the flags of both (R82): a NaN scale, and a zero element with an infinite
scale, make a NaN and set NV. -/
def scaledNum (f : Fmt) (bits : Nat) (sf : Fmt) (sbits : Nat) : Num × BitVec 6 :=
  let v := f.decode bits
  let c := sf.decode sbits
  if c.isNan then (.nan false, NV ||| v.readFlags) else
    let m := mulNum v c
    (m.1, m.2 ||| v.readFlags)

/-- What a unit writes: element offset in the destination, code, flags, and its record's code. -/
structure Piece where
  off : Nat
  code : Nat
  flags : BitVec 6
  record : Option Nat
deriving DecidableEq, Repr

/-- The converted code of a source element (R84, R268). -/
def State.convertElem (s : State) (o : Op) (p : CopyPlan) (soff bits : Nat) : Except Got Rounded :=
  if p.same then .ok { bits := bits, flags := 0 }
  else
    let conv (v : Num) (fl : BitVec 6) : Rounded := (p.dst.fmt.round v false).add fl
    match p.scale with
    | none => .ok (conv (p.src.fmt.decode bits) (p.src.fmt.decode bits).readFlags)
    | some sf =>
      match s.readBits (s.opView o) false false p.src.t.sbase ((soff >>> p.src.fmt.sblk) * sf.width) sf.width with
      | .val n =>
        let r := scaledNum p.src.fmt bits sf n
        .ok (conv r.1 r.2)
      | g => .error g

/-- What unit u writes and where (R268, R271). -/
def State.copyPiece (s : State) (o : Op) (p : CopyPlan) (u : Nat) : Except Got Piece := do
  let xs := p.xs u
  let dc ← s.dstCoords o p xs
  let off := p.dst.t.offset dc
  if p.padding xs then
    return { off := off, code := p.dst.t.padvalue % 2 ^ p.dst.w, flags := 0, record := none }
  else
    match o.early.find? fun e => e.1 == u with
    | some e => return { off := off, code := e.2.toNat, flags := 0, record := none }
    | none =>
      let sc ← s.srcCoords o p xs
      let so := p.src.t.offset sc
      match s.readSide o p.src so with
      | .val n =>
        let r ← s.convertElem o p so n
        return { off := off, code := r.bits, flags := r.flags, record := r.record }
      | g => .error g

/-- What a read came to, as a unit's outcome. -/
def Got.out : Got → UnitOut
  | .val _ | .wait => .wait
  | .fault c code d => .fault c code d

/-- The elements that an overlapping straight copy reads before it writes any (R269): those of the units from u on, or what the
first read that gives no element meets. -/
def State.earlyReads (s : State) (o : Op) (p : CopyPlan) (u : Nat) : Except Got (List (Nat × Word)) :=
  ((List.range (p.total - u)).map (· + u)).mapM fun u' =>
    (s.copyPiece o p u').map fun pc => (u', BitVec.ofNat 32 pc.code)

/-- The bits of one destination element by block: physical block, virtual block, bit position in it (R218). -/
def State.pieceBits (s : State) (v : View) (base : DWord) (bit w : Nat) : List (Nat × Nat × Nat) :=
  (List.range w).map fun j =>
    let a := bit + j
    let va := (base.toNat + a / 8) % 2 ^ 64
    (((s.spot v va).block).getD 0, va / 4096, 8 * (va % 4096) + a % 8)

/-- Add an element to a merge's bits and mask. -/
def mergeBits (acc : Nat × Nat) (places : List (Nat × Nat)) : Nat × Nat :=
  places.foldl (fun acc q =>
    (if q.2 = 1 then acc.1 ||| 2 ^ q.1 else acc.1 - (acc.1 &&& 2 ^ q.1), acc.2 ||| 2 ^ q.1)) acc

/-- The accesses that a unit makes to read its source element: the element, its index element and its scale; `comp` with
each. -/
def State.sourceAccs (s : State) (o : Op) (p : CopyPlan) (u : Nat) : List (Bool × Acc) :=
  let xs := p.xs u
  if p.padding xs then []
  else
    let idx (k : Option Nat) : List (Bool × Acc) := match k with
      | none => []
      | some k =>
        [(p.idx.t.comp,
          (bitAcc p.idx.t.base (wrapDim (xs.getD k 0) (p.idx.t.dim.getD 0 1) * p.idx.t.stride.getD 0 0 * p.idx.w) p.idx.w).1)]
    let src : List (Bool × Acc) := match p.src.tile, s.srcCoords o p xs with
      | none, .ok sc =>
        (p.src.t.comp, (bitAcc p.src.t.base (p.src.t.offset sc * p.src.w) p.src.w).1)
          :: (match p.scale with
            | none => []
            | some f =>
              [(false, (bitAcc p.src.t.sbase ((p.src.t.offset sc >>> p.src.fmt.sblk) * f.width) f.width).1)])
      | _, _ => []
    idx p.gatherK ++ idx p.scatterK ++ src

/-- What the reads of a unit leave in TLB, L2 and counts. -/
def State.noteSource (s : State) (o : Op) (p : CopyPlan) (u : Nat) : State :=
  (s.sourceAccs o p u).foldl (fun s a => s.noteEngine (s.opView o) a.1 a.2 false) s

/-- The bits that units 0 to u of a copy write in n bytes from an address. -/
def State.copyMask (s : State) (o : Op) (p : CopyPlan) (u va n : Nat) : Nat :=
  (List.range (u + 1)).foldl (fun acc u' =>
    match s.dstCoords o p (p.xs u') with
    | .ok dc =>
      let lo := 8 * p.dst.t.base.toNat + p.dst.t.offset dc * p.dst.w
      (List.range p.dst.w).foldl (fun acc j =>
        if 8 * va ≤ lo + j ∧ lo + j < 8 * (va + n) then acc ||| 2 ^ (lo + j - 8 * va) else acc) acc
    | .error _ => acc) 0

/-- The run of units from u that write within one block (R226): bits, mask, flags, records, and the unit it ends before. -/
def State.mergeRun (s : State) (o : Op) (p : CopyPlan) (block : Nat) :
    Nat → Nat → Nat × Nat → BitVec 6 → List (Nat × Nat) → (Nat × Nat) × BitVec 6 × List (Nat × Nat) × Nat
  | 0, u, acc, fl, rs => (acc, fl, rs, u)
  | k + 1, u, acc, fl, rs =>
    if u ≥ p.total then (acc, fl, rs, u)
    else
      match s.copyPiece o p u with
      | .error _ => (acc, fl, rs, u)
      | .ok pc =>
        let v := s.opView o
        let places := s.pieceBits v p.dst.t.base (pc.off * p.dst.w) p.dst.w
        if (s.writeCase v true true p.dst.t.base (pc.off * p.dst.w) p.dst.w).isSome
            || places.any (fun q => q.1 != block) then (acc, fl, rs, u)
        else
          let bits := places.zipIdx.map fun q => (q.1.2.2, pc.code >>> q.2 % 2)
          s.mergeRun o p block k (u + 1) (mergeBits acc bits) (fl ||| pc.flags)
            (match pc.record with | none => rs | some c => rs ++ [(u, c)])

/-- Hand merges and whole-block writes to the controllers: the operation waits for them (R226). -/
def State.sendMerges (s : State) (o : Op) (ms : List Merge) : State :=
  (s.modOp o.loom o.cls o.id fun q => { q with merging := true }).request ms

/-- A request of an operation that carries no write. -/
def Op.readRequest (o : Op) (block : Nat) : Merge :=
  { block := block, vaBlock := 0, bits := 0, mask := 0, loom := o.loom, op := o.id, unit := 0, flags := 0, recs := [],
    entry := none, kind := .read }

/-- The reads of some units that must wait at their controllers arrive there (R227). -/
def State.askBlocks (s : State) (o : Op) (p : CopyPlan) (us : List Nat) : State :=
  let v := s.opView o
  let bs := (us.flatMap fun u => (s.sourceAccs o p u).flatMap fun a =>
    if a.1 then (s.spots v a.2).filterMap fun x =>
        match x with
        | .page lf pa => if pteResident lf.pte then some (pa / 4096) else none
        | _ => none
      else []).eraseDups
  let new := bs.filter fun b => s.blockBusy b && !s.mem.merges.any fun m => m.kind == .read && m.op == o.id && m.block == b
  if new.isEmpty then s else s.request (new.map o.readRequest)

/-- What an operation's reads were served with is used up. -/
def State.dropReads (s : State) (o : Op) : State :=
  if s.mem.merges.isEmpty then s
  else s.modMem fun x => { x with merges := x.merges.filter fun m => !(m.kind == .read && m.op == o.id) }

/-- The units from u on that write in a virtual block, if together they write every byte of it (R225). -/
def State.coverUnits (s : State) (o : Op) (p : CopyPlan) (vb u : Nat) : Option (List Nat) :=
  if (p.total - u) * p.dst.w < 32768 then none
  else
    let v := s.opView o
    let r := ((List.range (p.total - u)).map (· + u)).foldl (fun (acc : Nat × List Nat) u' =>
      match s.dstCoords o p (p.xs u') with
      | .ok dc =>
        let qs := (s.pieceBits v p.dst.t.base (p.dst.t.offset dc * p.dst.w) p.dst.w).filter fun q => q.2.1 == vb
        if qs.isEmpty then acc else (qs.foldl (fun m q => m ||| 2 ^ q.2.2) acc.1, u' :: acc.2)
      | .error _ => acc) (0, [])
    if r.1 = 2 ^ 32768 - 1 then some r.2.reverse else none

/-- The bytes of a virtual block, as a number, after the units given have written in it, or what their reads meet. -/
def State.wholeBits (s : State) (o : Op) (p : CopyPlan) (vb : Nat) (us : List Nat) : Except Got Nat :=
  us.foldlM (fun acc u =>
    match s.copyPiece o p u with
    | .error g => .error g
    | .ok pc =>
      let places := s.pieceBits (s.opView o) p.dst.t.base (pc.off * p.dst.w) p.dst.w
      .ok (mergeBits (acc, 0) ((places.zipIdx.filter fun q => q.1.2.1 == vb).map fun q => (q.1.2.2, pc.code >>> q.2 % 2))).1) 0

/-- What a copy's unit hands to the controllers of the blocks that it writes in (R225, R226): one whole-block write where the
copy, from this unit on, writes every byte of the block; nothing where it has done so; else a merge. `run`: the bits, mask,
flags, records of the run and the unit it ends before. An error of reading waits. -/
def State.blockWrites (s : State) (o : Op) (p : CopyPlan) (u : Nat) (bs : List (Nat × Nat)) (run : Nat → Nat × Nat)
    (fl : BitVec 6) (rs : List (Nat × Nat)) (u' : Nat) : Option (List Merge) :=
  let req (b : Nat × Nat) (kind : ReqKind) (acc : Nat × Nat) : Merge :=
    { block := b.1, vaBlock := BitVec.ofNat 64 b.2, bits := acc.1, mask := acc.2, loom := o.loom, op := o.id, unit := u',
      flags := fl, recs := rs, entry := none, kind := kind }
  bs.foldlM (fun acc b =>
    match s.coverUnits o p b.2 u with
    | none => some (acc ++ [req b .part (run b.1)])
    | some us =>
      match s.wholeBits o p b.2 us with
      | .ok n => some (acc ++ [req b .whole (n, 2 ^ 32768 - 1)])
      | .error .wait => none
      | .error _ => some (acc ++ [req b .part (run b.1)])) []

/-- A unit's write to compressed pages (R225, R226). -/
def State.copyBlocks (s : State) (o : Op) (p : CopyPlan) (u : Nat) (pc : Piece) (recs : List (Nat × Nat)) : State :=
  let v := s.opView o
  let places := s.pieceBits v p.dst.t.base (pc.off * p.dst.w) p.dst.w
  let all := (places.map fun q => (q.1, q.2.1)).eraseDups
  let bs := all.filter fun b => !o.wrote.contains (BitVec.ofNat 64 b.2)
  let s1 := (s.noteSource o p u).noteEngine v true (bitAcc p.dst.t.base (pc.off * p.dst.w) p.dst.w).1
  if bs.isEmpty then s.applyUnit o (u + 1) (.did (s1.dropReads o) pc.flags recs)
  else
    let ws : Option (List Merge) := match all with
      | [b] =>
        let (acc, fl, rs, u') := s.mergeRun o p b.1 (p.total - u) u (0, 0) 0 []
        s.blockWrites o p u bs (fun _ => acc) fl rs u'
      | _ =>
        s.blockWrites o p u bs (fun b =>
          mergeBits (0, 0) ((places.zipIdx.filter fun (q : (Nat × Nat × Nat) × Nat) => q.1.1 == b).map fun q =>
            (q.1.2.2, pc.code >>> q.2 % 2)))
          pc.flags recs (u + 1)
    match ws with
    | none => s.askBlocks o p ((bs.filterMap fun b => s.coverUnits o p b.2 u).flatten)
    | some ms => (s1.dropReads o).sendMerges o ms

/-- A unit of copy, gather or scatter. An overlapping straight copy reads every source element before it writes any (R269): a
read that faults then faults the operation at the unit where it stands, with nothing further written (R265). DESIGN CHOICE (log entry
32): the manual does not say when a tile slot in error is in error no longer, where a copy writes part of it; here the last unit of
any copy into the slot ends it. -/
def State.copyUnit (s : State) (o : Op) (u : Nat) : State :=
  let p := o.copyPlan
  if p.straight && p.overlaps && o.early.isEmpty then
    match s.earlyReads o p u with
    | .error .wait => s.askBlocks o p ((List.range (p.total - u)).map (· + u))
    | .error g => s.applyUnit o u g.out
    | .ok l => (s.dropReads o).modOp o.loom o.cls o.id fun q => { q with early := l }
  else
    match s.copyPiece o p u with
    | .error .wait => s.askBlocks o p [u]
    | .error g => s.applyUnit o u g.out
    | .ok pc =>
      let recs := match pc.record with | none => [] | some c => [(u, c)]
      match p.dst.tile with
      | some n =>
        match s.tileOf o n with
        | none => s.applyUnit o u (.fault 0x12 0 0)
        | some t =>
          let s1 := (s.noteSource o p u).modLoom o.loom fun x => x.setTileBits t (pc.off * p.dst.w) p.dst.w pc.code
          let s2 := if u + 1 = p.total then s1.modMem fun m => m.clearMark (.tile o.loom t) else s1
          s.applyUnit o (u + 1) (.did (s2.dropReads o) pc.flags recs)
      | none =>
        let v := s.opView o
        let isCopy := match o.instr with | .copy .. => true | _ => false
        match s.writeCase v p.dst.t.comp isCopy p.dst.t.base (pc.off * p.dst.w) p.dst.w with
        | some g => s.applyUnit o u g.out
        | none =>
          if p.dst.t.comp then s.copyBlocks o p u pc recs
          else
            let a := (bitAcc p.dst.t.base (pc.off * p.dst.w) p.dst.w).1
            let s1 := ((s.noteSource o p u).putBits v p.dst.t.base (pc.off * p.dst.w) p.dst.w pc.code).noteEngine v false a
            let s2 := s1.settleMarks v a fun va n => s1.copyMask o p u va n == 2 ^ (8 * n) - 1
            s.applyUnit o (u + 1) (.did (s2.dropReads o) pc.flags recs)

/-! ## Issue of copy, gather and scatter (R264, R266) -/

/-- An engine operation of the team holds a touch (R286). -/
def State.interlocked (s : State) (l : Nat) (w : Weft) (touch : Op → Touch) (t : Touch) (id : Nat) : Bool :=
  if t.isEmpty then false
  else
    match s.teamOf l w with
    | none => false
    | some tm =>
      let ops := ((s.loom l).ops.map (·.2)) ++ (s.loom l).wefts.flatMap fun p => p.2.stopped
      ops.any fun o => o.team == some tm.id && o.id < id && (touch o).holds t

/-- The definition of the scale slot of a definition (R67); 0 where it names none. -/
def Weft.scaleDef (w : Weft) (d : DWord) : DWord :=
  if (Fmt.ofDef d).sblk = 0 then 0 else w.fmt (BitVec.ofNat 4 (Fmt.ofDef d).sslot)

/-- Definitions in the order of R420, padded to eight. -/
def padDefs (ds : List DWord) : List DWord := (ds ++ List.replicate 8 0).take 8

/-- The slot of a record, as the weft holds it. -/
def Weft.recordDef (w : Weft) (r : BitVec 832) : DWord := w.fmt (BitVec.ofNat 4 (bf r 67 64))

/-- Issue of copy, gather, scatter, once the touch of every operation is known. -/
def copyBody (touch : Op → Touch) (i : Instr) (t : TileSide) (n : BitVec 4) (a : Reg) : Iss → State → Effect :=
  macroBody fun x s =>
    let cls := (engineOf i).getD .copy
    let isScatter := match i with | .scatter .. => true | _ => false
    if s.queueFull x.l cls then .hold
    else
      let opa := x.w.pair a x.lane
      let rec1 (tile : Bool) (addr : DWord) (k : BitVec 832 → State → Effect) (s : State) : Effect :=
        if tile then k 0 s else loadRecord addr k x s
      let idx1 (tile : Bool) (r : BitVec 832) (k : BitVec 832 → State → Effect) (s : State) : Effect :=
        if tile then k 0 s else loadIndex (Tensor.ofBits r) k x s
      loadL opa 64 64 (fun blk s =>
        let b := BitVec.ofNat 512 blk
        rec1 (t == .ts) (bd b 0) (fun r0 s =>
          rec1 (t == .td) (bd b 64) (fun r1 s =>
            idx1 (t == .ts) r0 (fun i0 s =>
              idx1 (t == .td) r1 (fun i1 s =>
                let own := if isScatter then i1 else i0
                let other := if isScatter then i0 else i1
                let d0 := if t = .ts then x.w.fmt n else x.w.recordDef r0
                let d1 := if t = .td then x.w.fmt n else x.w.recordDef r1
                let o := { newOp s x i with
                  opa := opa, block := b, recs := [r0, r1, own],
                  defs := padDefs [d0, d1, x.w.recordDef own, x.w.scaleDef d0, x.w.scaleDef d1] }
                let o := { o with total := o.copyPlan.total }
                let oth := (Tensor.ofBits (if isScatter then r0 else r1)).code (Tensor.ofBits other) (x.w.recordDef other)
                if s.interlocked x.l x.w touch o.copyTouch o.id then .hold
                else
                  match s.copyCheck o oth with
                  | some c => .trap c
                  | none => acceptOp x o o.copyPlan.spans false s) s) s) s) s) x s

/-! ## cmpst and expld (R272) -/

/-- Source, destination and mask addresses, N, and the element width. -/
structure CmpPlan where
  src : DWord
  dst : DWord
  mask : DWord
  n : Nat
  w : Nat

def Op.cmpPlan (o : Op) : CmpPlan :=
  { src := bd o.block 0, dst := bd o.block 64, mask := bd o.block 128, n := bf o.block 223 192,
    w := (Fmt.ofDef (o.defn 0)).width }

/-- The interval of a packed array of n elements of w bits. -/
def arraySpan (base : DWord) (n w : Nat) (write : Bool) : Span :=
  { lo := base.toNat, hi := base.toNat + (n * w - 1) / 8, write := write }

def CmpPlan.spans (p : CmpPlan) : List Span :=
  if p.n = 0 then [] else [arraySpan p.src p.n p.w false, arraySpan p.mask p.n 1 false, arraySpan p.dst p.n p.w true]

/-- Issue of cmpst and expld. -/
def cmpBody (i : Instr) (n : BitVec 4) (a : Reg) : Iss → State → Effect :=
  macroBody fun x s =>
    if s.queueFull x.l .gath then .hold
    else
      let opa := x.w.pair a x.lane
      loadL opa 32 32 (fun blk s =>
        let o := { newOp s x i with
          opa := opa, block := BitVec.ofNat 512 blk, defs := padDefs [x.w.fmt n, x.w.scaleDef (x.w.fmt n)] }
        let o := { o with total := o.cmpPlan.n }
        acceptOp x o o.cmpPlan.spans false s) x s

/-- Mask bits set below u, as the mask array now stands; what the reads met otherwise. -/
def State.maskCount (s : State) (o : Op) (p : CmpPlan) (u : Nat) : Except Got Nat :=
  (List.range u).foldlM (fun acc j =>
    match s.readBits (s.opView o) false false p.mask j 1 with
    | .val b => .ok (acc + b)
    | g => .error g) 0

/-- Elements flagged without a gap up to element u. -/
def State.flaggedRun (s : State) (o : Op) (p : CmpPlan) : Nat → Nat
  | 0 => 1
  | u + 1 =>
    match s.readBits (s.opView o) false false p.mask u 1 with
    | .val 1 => s.flaggedRun o p u + 1
    | _ => 1

/-- A unit of cmpst or expld. Its `result` keeps k, recomputed when the operation starts or starts again. -/
def State.cmpUnit (s : State) (o : Op) (u : Nat) : State :=
  let p := o.cmpPlan
  let v := s.opView o
  let isCmp := match o.instr with | .cmpst .. => true | _ => false
  let start : Except Got Nat := if o.parts = [u] then .ok o.result.toNat else s.maskCount o p u
  match start, s.readBits v false false p.mask u 1 with
  | .error g, _ => s.applyUnit o u g.out
  | .ok _, .wait => s
  | .ok _, .fault c code d => s.applyUnit o u (.fault c code d)
  | .ok k, .val 0 =>
    (s.applyUnit o (u + 1) (.did s 0 [])).modOp o.loom o.cls o.id fun q =>
      { q with result := BitVec.ofNat 64 k, parts := [u + 1] }
  | .ok k, .val _ =>
    match s.readBits v false false p.src ((if isCmp then u else k) * p.w) p.w with
    | .val n =>
      let bit := (if isCmp then k else u) * p.w
      match s.writeCase v false false p.dst bit p.w with
      | some g => s.applyUnit o u g.out
      | none =>
        let a := (bitAcc p.dst bit p.w).1
        let s0 := (s.noteEngine v false (bitAcc p.mask u 1).1 false).noteEngine v false
          (bitAcc p.src ((if isCmp then u else k) * p.w) p.w).1 false
        let s1 := (s0.putBits v p.dst bit p.w n).noteEngine v false a
        let lo := if isCmp then 0 else bit + p.w - s.flaggedRun o p u * p.w
        let s2 := s1.settleMarks v a (spanCovers p.dst lo (bit + p.w))
        (s.applyUnit o (u + 1) (.did s2 0 [])).modOp o.loom o.cls o.id fun q =>
          { q with result := BitVec.ofNat 64 (k + 1), parts := [u + 1] }
    | g => s.applyUnit o u g.out

/-! ## bankop (R273, R274) -/

/-- A bank command: its operation, format, start address and count. -/
structure BankPlan where
  op : BankOp
  f : Fmt
  fc : Fmt
  addr : DWord
  n : Nat
  x : Nat

def Op.bankPlan (o : Op) : BankPlan :=
  { op := match o.instr with | .bankop _ op _ _ _ _ => op | _ => .zero,
    f := Fmt.ofDef (o.defn 0), fc := Fmt.ofDef (o.defn 1), addr := o.opa, n := (o.opb.extractLsb' 0 32).toNat,
    x := (o.opc.extractLsb' 0 32).toNat }

/-- Bits of one element: a row of 256 bytes for .transp. -/
def BankPlan.w (p : BankPlan) : Nat := if p.op = .transp then 2048 else p.f.width
/-- Bytes of the range. -/
def BankPlan.bytes (p : BankPlan) : Nat := (p.n * p.w + 7) / 8

/-- The format checks of bankop, and .transp's alignment (R273). -/
def BankPlan.check (p : BankPlan) (lane : Nat) : Option Cause :=
  if p.op = .transp then
    if p.addr.toNat % 256 ≠ 0 then some { cause := 0x08, lane := some lane, detail := p.addr } else none
  else if !([1, 2, 4, 8, 16, 32] : List Nat).contains p.f.width || (p.op == .cvt && p.fc.width != p.f.width)
      || (p.f.width ≥ 8 && p.addr.toNat % (p.f.width / 8) != 0) then some { cause := 0x07, lane := some lane }
  else none

/-- The case of one page of a bank command's range (R274): an order of R254 times ten, 55 for a page that is no writable
market page, 70 not resident, 90 usable. -/
def Spot.bankCase : Spot → Nat
  | .bad n => n
  | .lm _ | .frame _ _ => 55
  | .page x pa =>
    if x.space != .market then 55
    else if pteResident x.pte && pa ≥ x.space.bytes then 40
    else if !pteWritable x.pte then 55
    else if !pteResident x.pte then 70
    else 90

/-- The first case over the pages of a range, and its address. -/
def State.bankCases (s : State) (v : View) (p : BankPlan) : Nat × Nat :=
  (pageStarts p.addr.toNat p.bytes).foldl (fun best a =>
    let va := a % 2 ^ 64
    let c := (s.spot v va).bankCase
    if c < best.1 then (c, va) else best) (90, 0)

/-- The byte address and the bit within it of element e. -/
def BankPlan.place (p : BankPlan) (e : Nat) : DWord × Nat := (p.addr + BitVec.ofNat 64 (e * p.w / 8), e * p.w % 8)

/-- The bank of an element, where its page translates (R213). -/
def State.elemBank (s : State) (v : View) (p : BankPlan) (e : Nat) : Option Nat :=
  match s.spot v (p.place e).1.toNat with
  | .page x pa => if x.space = .market ∧ pteResident x.pte then some (marketBank pa) else none
  | _ => none

/-- The banks of a command, each once, in the order of its rows. -/
def State.commandBanks (s : State) (v : View) (p : BankPlan) : List Nat :=
  if p.n = 0 then []
  else
    ((List.range (p.bytes / 256 + 2)).filterMap fun r =>
      match s.spot v ((p.addr.toNat + min (256 * r) (p.bytes - 1)) % 2 ^ 64) with
      | .page _ pa => some (marketBank pa)
      | _ => none).eraseDups

/-- A bank command as it issues: split by bank, with the leaves of its range, which its parts go on using (R274, R363). -/
def State.bankCommand (s : State) (o : Op) : Op :=
  let v := s.opView o
  let p := o.bankPlan
  { o with
    total := p.n, parts := s.commandBanks v p,
    leaves := (pageStarts p.addr.toNat p.bytes).filterMap fun a =>
      match s.spot v (a % 2 ^ 64) with
      | .page x _ => some (a % 2 ^ 64 / 2 ^ 19, (x.pte, x.level))
      | _ => none }

def execBankop (h : Guard) (op : BankOp) (n : BitVec 4) (a b c : Reg) (s : State) : Result :=
  issue (.bankop h op n a b c) (macroBody fun x s =>
    if s.queueFull x.l .bank then .hold
    else
      let o := { newOp s x (.bankop h op n a b c) with
        opa := x.w.pair a x.lane, opb := (x.w.lane b x.lane).setWidth 64,
        opc := if op = .cvt ∨ op = .zero ∨ op = .transp then 0 else (x.w.lane c x.lane).setWidth 64,
        defs := padDefs [x.w.fmt n, if op = .cvt then x.w.fmt (c.extractLsb' 0 4) else 0] }
      let p := o.bankPlan
      let v := s.opView o
      match p.check x.lane with
      | some cause => .trap cause
      | none =>
        let (cs, va) := s.bankCases v p
        if cs = 55 then faultL x 0x15
        else if cs < 70 then faultL x (causeOfCase cs) (BitVec.ofNat 64 va)
        else if cs = 70 then .park
        else acceptOp x (s.bankCommand o) [] true s) s

/-- One element of a bank command (R273). -/
def BankPlan.elem (p : BankPlan) (legacy : Bool) (bits : Nat) : Rounded :=
  let e := p.f.decode bits
  let y := p.f.decode (p.x % 2 ^ p.f.width)
  match p.op with
  | .add => addOut p.f e y
  | .scale => mulOut p.f e y
  | .cvt => (p.fc.round e false).add e.readFlags
  | .max => minMaxOut true legacy p.f e y
  | .min => minMaxOut false legacy p.f e y
  | .zero => { bits := p.f.zeroCode false, flags := 0 }
  | .transp => { bits := bits, flags := 0 }

/-- The bytes of a row with its 8 × 8 words transposed (R273). -/
def transposeRow (bs : List Byte) : List Byte :=
  (List.range 256).map fun i =>
    let w := i / 4
    bs.getD (4 * (8 * (w % 8) + w / 8) + i % 4) 0

/-- Elements of a command in one bank, ascending. -/
def State.bankElems (s : State) (v : View) (p : BankPlan) (bank : Nat) : List Nat :=
  (List.range p.n).filter fun e => s.elemBank v p e == some bank

/-- The pages of the whole range are there, under the leaves of its issue. -/
def State.bankReady (s : State) (v : View) (p : BankPlan) : Bool := (s.bankCases v p).1 == 90

/-- BANK_COMMAND_PART: the part of the operation at an index of a loom's bank queue, at one bank (R214, R215, R274). -/
def State.bankPart (s : State) (o : Op) (bank : Nat) : State :=
  let p := o.bankPlan
  let v := s.opView o
  let left (s : State) (f : Op → Op) := s.modOp o.loom .bank o.id fun q => f { q with parts := q.parts.filter (· != bank) }
  if !o.parts.contains bank || !s.bankReady v p then s
  else
    let es := s.bankElems v p bank
    -- records of all the parts stand in ascending order of their elements (R86)
    let last := o.parts.length == 1
    let bad := es.find? fun e =>
      (s.spots v (bitAcc (p.place e).1 (p.place e).2 p.w).1).any (s.readError o.loom)
    match bad with
    | some e =>
      left ((s.noteError v (p.place e).1).opRecords o (o.convRecs (if last then o.partRecs else []))) fun q =>
        { q with refused := some (q.refused.getD e), partRecs := if last then [] else q.partRecs }
    | none =>
      let r := es.foldl (fun (acc : State × BitVec 6 × List (Nat × Nat)) e =>
        let (va, bit) := p.place e
        if p.op = .transp then
          (acc.1.writeBytesVa v va (transposeRow (acc.1.bytesVa v va 256)), acc.2)
        else
          let a := bitAcc va bit p.w
          let old := acc.1.readVa v a.1.va a.1.len
          let res := p.elem o.legacy (old >>> bit % 2 ^ p.w)
          (acc.1.writeVa v a.1.va a.1.len (replaceBits old bit p.w res.bits), acc.2.1 ||| res.flags,
            match res.record with | none => acc.2.2 | some c => acc.2.2 ++ [(e, c)])) (s, 0, [])
      let recs := r.2.2.foldl (fun m p => SMap.put m p.1 p.2) o.partRecs
      let s1 := if last then r.1.opRecords o (o.convRecs recs) else r.1
      (left ((s1.checkArms.countDie (bank / 64) 0x45 1).crossDies (dieOf o.loom) (bank / 64) 32) fun q =>
        { q with flags := q.flags ||| r.2.1, partRecs := if last then [] else recs })

/-! ## BLOCK_MERGE (R224 to R227) -/

/-- Write a block's sectors and metadata (R224). -/
def State.writeBlock (s : State) (b : Nat) (bytes : List Byte) : State :=
  let (info, sectors) := encodeBlock bytes
  s.modMem fun m =>
    { m with blockMeta := SMap.set m.blockMeta 0 b info, hbm := Memory.writeBytes m.hbm (4096 * b) sectors,
             marks := m.marks.filter fun e =>
               !(List.range (sectors.length / 128)).any fun k => e.1 == .phys .hbm (32 * b + k) }

/-- The write that a controller performs next: a merge that holds a pending entry, or a whole-block write that waits for
nothing. DESIGN CHOICE (log entry 30): the manual gives no order between blocks; it is the request that arrived first. -/
def State.heldMerge (s : State) (ctrl : Nat) : Option Merge :=
  (s.mem.merges.zipIdx.find? fun q => blockCtrl q.1.block == ctrl
    && (q.1.entry.isSome
      || (q.1.kind == .whole && !s.blockHeld q.1.block && !q.1.behind (s.mem.merges.take q.2)))).map (·.1)

/-- The operation of a merge. -/
def State.mergeOp (s : State) (m : Merge) : Option Op := (s.loom m.loom).copyQ.find? fun o => o.id == m.op

/-- A request leaves the controller, its entry is freed, and those that waited for it are served (R227). -/
def State.freeMerge (s : State) (ctrl : Nat) (m : Merge) : State :=
  (s.modMem fun x =>
    { x with merges := x.merges.erase m,
             pending := match m.entry with | none => x.pending | some e => SMap.del x.pending (64 * ctrl + e) }).admitMerges

/-- The counts of a merge, and the lines that its controller reads and writes (R405): `sc` sectors read. -/
def State.countMerge (s : State) (ctrl : Nat) (m : Merge) (sc : Nat) : State :=
  let wr := ((SMap.getD s.mem.blockMeta m.block 0).extractLsb' 0 6).toNat
  let s1 := if m.kind = .part then (s.countDie (ctrl / 2) 0x4A 1).countDie (ctrl / 2) 0x43 sc else s
  s1.countDie (ctrl / 2) 0x44 wr

/-- BLOCK_MERGE: the controller expands, merges and re-encodes a block, or writes it whole, and the copy's progress passes the
run (R225, R226); a codec error faults the copy (R223). -/
def execBlockMerge (ctrl : Nat) (s : State) : Result :=
  match s.heldMerge ctrl with
  | none => .next s
  | some m =>
    let old := if m.kind = .whole then (0, 0) else s.takeBlock m.block
    if old.1 ≠ 0 then
      match s.mergeOp m with
      | none => .next (s.freeMerge ctrl m)
      | some o =>
        if o.discard then .next ((s.freeMerge ctrl m).modOp o.loom o.cls o.id fun q => { q with merging := false })
        else .next ((s.freeMerge ctrl m).opFault o old.1 0 (if old.1 = 0x0F then m.vaBlock else m.vaBlock <<< 12))
    else
      let sc := ((SMap.getD s.mem.blockMeta m.block 0).extractLsb' 0 6).toNat
      let s0 := if m.kind = .part then s.softBlock 0 m.block else s
      let s1 := (s0.writeBlock m.block (leBytes 4096 ((old.2 - (old.2 &&& m.mask)) + m.bits))).countMerge ctrl m sc
      let s2 := s1.freeMerge ctrl m
      match s.mergeOp m with
      | none => .next s2
      | some o =>
        let s3 := if m.kind = .whole then s2.modOp o.loom o.cls o.id fun q => { q with wrote := m.vaBlock :: q.wrote } else s2
        if s3.mem.merges.any fun x => x.ofOp == some m.op then .next s3
        else
          .next ((s3.applyUnit o m.unit (.did s3 m.flags m.recs)).modOp o.loom o.cls o.id fun q =>
            { q with merging := false })

end Sys2Proof.Machine
end

