-- ==== Sys2Proof/Machine/Matrix.lean ====
section
/-! DEFINITION. Tile slots, accumulator ranges and the matrix engine (11_matrix_and_accumulators.md R283 to R312). -/

namespace Sys2Proof.Machine

/-! ## Ranges (R283 to R285, R352) -/

/-- The team of a weft slot, with its handle. -/
def State.teamAt (s : State) (l k : Nat) : Option (Nat × Team) :=
  match s.weft? l k with
  | none => none
  | some w => w.team.bind fun h => (s.team? l h).map fun t => (h, t)

/-- The ownership entry of the range whose first logical tile is t (R284). -/
def State.rangeAt (s : State) (l k t : Nat) : Option (Nat × Own) :=
  match s.teamAt l k with
  | none => none
  | some (_, tm) =>
    match SMap.find? tm.accs t with
    | some (e, 0) => (SMap.find? (s.loom l).owners e).map fun o => (e, o)
    | _ => none

/-- The format of a range. -/
def Own.fmt (o : Own) : Fmt := Fmt.ofDef o.def_
/-- Columns of a range. -/
def Own.cols (o : Own) : Nat := 64 * o.t
/-- Key of the cell at a row and column of a range. -/
def Own.cellKey (o : Own) (row col : Nat) : Nat := 4096 * o.tiles.getD (col / 64) 0 + 64 * row + col % 64
/-- A cell's element bits. -/
def Loom.cell (x : Loom) (o : Own) (row col : Nat) : Nat :=
  (SMap.getD x.cells (o.cellKey row col) 0).toNat % 2 ^ o.fmt.width
/-- Write cells: the element, its upper bits zero. -/
def Loom.setCells (x : Loom) (o : Own) (cs : List (Nat × Nat × Nat)) : Loom :=
  { x with cells := cs.foldl (fun m c =>
      SMap.set m 0 (o.cellKey c.1 c.2.1) (BitVec.ofNat 32 (c.2.2 % 2 ^ o.fmt.width))) x.cells }
/-- Write cells; a written cell is in error no longer (R204). -/
def State.setCells (s : State) (l : Nat) (o : Own) (cs : List (Nat × Nat × Nat)) : State :=
  let s1 := s.modLoom l fun x => x.setCells o cs
  if s1.mem.marks.isEmpty then s1
  else s1.modMem fun m => cs.foldl (fun m c => m.clearMark (.cell l (o.cellKey c.1 c.2.1))) m
/-- A cell is in uncorrectable error. -/
def State.cellError (s : State) (l : Nat) (o : Own) (row col : Nat) : Bool := s.mem.hard (.cell l (o.cellKey row col))
/-- Corrected errors among the cells that are read (R412). -/
def State.softCells (s : State) (l : Nat) (o : Own) (ps : List (Nat × Nat)) : Nat :=
  if s.mem.marks.isEmpty then 0
  else (ps.filter fun p => s.mem.markAt (.cell l (o.cellKey p.1 p.2)) == some false).length
/-- Corrected errors are counted (R405, R412). -/
def State.countSofts (s : State) (l ctx n : Nat) : State := (List.range n).foldl (fun s _ => s.softTile l ctx) s
/-- Every place of a range, by rows. -/
def Own.places (o : Own) : List (Nat × Nat) :=
  (List.range 64).flatMap fun r => (List.range o.cols).map fun c => (r, c)

/-- Physical tiles that no range holds. -/
def Loom.freeTiles (x : Loom) : List Nat :=
  (List.range Config.accTiles).filter fun t => !x.owners.any fun p => p.2.tiles.contains t
/-- Entries of the ownership table that are free. -/
def Loom.freeOwn (x : Loom) : Option Nat :=
  (List.range Config.accTiles).find? fun e => (SMap.find? x.owners e).isNone

/-! ## Spill and fill (R203, R299, R303) -/

/-- The view of a loom's spills and fills in a context: no window. -/
def spillView (l ctx : Nat) : View := { loom := l, ctx := ctx, agent := .copy l, share := some (0, 0), frame := none }

/-- A memory area's first case over its pages, for spills and fills: order times ten, and address. -/
def State.areaCase (s : State) (v : View) (store : Bool) (base : DWord) (n : Nat) : Nat × Nat :=
  (pageStarts base.toNat n).foldl (fun best a =>
    let va := a % 2 ^ 64
    let c := (s.spot v va).engineCase store false false
    if c < best.1 then (c, va) else best) (90, 0)

/-- What a spill or fill comes to: done, waiting for a page, or failed with a cause and the address met. -/
inductive Moved where
  | ok (s : State)
  | wait
  | fail (cause : Nat) (va : DWord)

/-- The bytes of a range in width-preserving form (R203). -/
def Loom.imageOf (x : Loom) (o : Own) : List Byte :=
  let w := o.fmt.width
  (List.range o.t).flatMap fun q =>
    leBytes (512 * w) (((List.range 4096).reverse).foldl (fun acc i => acc * 2 ^ w + x.cell o (i / 64) (64 * q + i % 64)) 0)

/-- Cells from the width-preserving form. -/
def cellsOf (o : Own) (bytes : List Byte) : List (Nat × Nat × Nat) :=
  let w := o.fmt.width
  (List.range o.t).flatMap fun q =>
    let v := leValue ((bytes.drop (512 * w * q)).take (512 * w))
    (List.range 4096).map fun i => (i / 64, 64 * q + i % 64, v >>> (i * w) % 2 ^ w)

/-- Bytes of a range's image. -/
def Own.imageBytes (o : Own) : Nat := 512 * o.fmt.width * o.t

/-- Write a range's cells to its spill address (R299, R303); fields that only supervisor mode writes keep their bits (R6). -/
def State.spillRange (s : State) (l : Nat) (o : Own) : Moved :=
  let v := spillView l o.ctx
  let (c, va) := s.areaCase v true o.spill o.imageBytes
  if c < 70 then .fail (causeOfCase c) (BitVec.ofNat 64 va)
  else if c = 70 then .wait
  else if !s.mem.marks.isEmpty && o.places.any fun p => s.cellError l o p.1 p.2 then .fail 0x0E o.spill
  else .ok (((s.writeBytesVa v o.spill ((s.loom l).imageOf o)).countSofts l o.ctx (s.softCells l o o.places)).noteFrom (dieOf l) v
    ⟨0, o.spill, o.imageBytes, 1⟩ true)

/-- Fill a range's cells from an address (R301, R310). -/
def State.fillRange (s : State) (l : Nat) (o : Own) (from_ : DWord) : Moved :=
  let v := spillView l o.ctx
  let (c, va) := s.areaCase v false from_ o.imageBytes
  if c < 70 then .fail (causeOfCase c) (BitVec.ofNat 64 va)
  else if c = 70 then .wait
  else
    match s.mem.marks.isEmpty, (List.range o.imageBytes).find? fun k =>
        !s.mem.marks.isEmpty && s.readError l (s.spot v ((from_.toNat + k) % 2 ^ 64)) with
    | false, some k => .fail 0x0E (from_ + BitVec.ofNat 64 k)
    | _, _ =>
      let a : Acc := ⟨0, from_, o.imageBytes, 1⟩
      .ok (((s.setCells l o (cellsOf o (s.bytesVa v from_ o.imageBytes))).noteFrom (dieOf l) v a false).noteSoft v [a])

/-- Unmap a range from the map of the team that owns it (R298, R303). -/
def Team.unmapRange (t : Team) (e : Nat) : Team := { t with accs := t.accs.filter fun p => p.2.1 != e }

/-- A spill failure: the range is discarded with an event record, and its owner's numbers are unmapped (R303). -/
def State.spillFailed (s : State) (l e : Nat) (o : Own) (cause : Nat) : State :=
  let s1 := s.eventRecord 0x02 l o.ctx o.key (BitVec.ofNat 64 cause)
  s1.modLoom l fun x =>
    let x := x.dropKey o.ctx o.key
    { x with owners := SMap.del x.owners e, teams := x.teams.map fun p =>
        if o.state = .attached ∧ p.1 = o.team then (p.1, p.2.unmapRange e) else p }

/-- A range after a spill that succeeded: tiles freed, generation raised (R298). -/
def Own.spilled (o : Own) : Own := { o with state := .spilled, tiles := [], gen := o.gen + 1 }

/-- The pinned range that an eviction takes first: least recently detached, lowest first tile among equals (R299). -/
def Loom.victim (x : Loom) : Option (Nat × Own) :=
  x.owners.foldl (fun best p =>
    if p.2.state ≠ .pinned then best
    else
      match best with
      | none => some p
      | some b =>
        if p.2.dtime < b.2.dtime ∨ (p.2.dtime = b.2.dtime ∧ p.2.tiles.getD 0 0 < b.2.tiles.getD 0 0) then some p
        else best) none

/-- Evict pinned ranges until `need` tiles are free or none is left (R299): none while a spill waits, for a page or for a
responder (R383). -/
def State.evict : Nat → State → Nat → Nat → Option State
  | 0, s, _, _ => some s
  | k + 1, s, l, need =>
    if (s.loom l).freeTiles.length ≥ need then some s
    else
      match (s.loom l).victim with
      | none => some s
      | some (e, o) =>
        if (s.loom l).keyBusy o.ctx o.key then none
        else
          match s.spillRange l o with
          | .wait => none
          | .ok s' =>
            State.evict k (s'.modLoom l fun x =>
              { (x.markKey o.ctx o.key .spilled false) with owners := SMap.put x.owners e o.spilled }) l need
          | .fail c _ => State.evict k (s.spillFailed l e o c) l need

/-! ## tclaim and trel (R288 to R290) -/

/-- Change the issuing weft's team. -/
def State.modOwnTeam (s : State) (x : Iss) (f : Team → Team) : State :=
  match x.w.team with
  | none => s
  | some h => s.modTeam x.l h f

/-- Logical numbers t to t + n − 1. -/
def numbers (t n : Nat) : List Nat := (List.range n).map (· + t)

/-- A slot for a range, or for acvt: float or integer/fixed kind, unscaled, of width at most 32 (R288, R308). -/
def rangeSlot (f : Fmt) : Bool := (f.isFloat || f.isInt) && f.sblk == 0 && f.width ≤ 32

/-- A slot of K, V, Q, the gates or O: float or integer/fixed kind, unscaled (R304). -/
def deltaSlot (f : Fmt) : Bool := (f.isFloat || f.isInt) && f.sblk == 0

/-- tclaim of tile slots (R289). -/
def claimTiles (d : Reg) (t n : Nat) (x : Iss) (s : State) : Effect :=
  match s.teamAt x.l x.k with
  | none => .ok (s.setL x d 1)
  | some (_, tm) =>
    let used := ((s.loom x.l).teams.flatMap fun p => p.2.tiles.map (·.2))
    let free := (List.range Config.tileSlots).filter fun p => !used.contains p
    if (numbers t n).any fun k => (SMap.find? tm.tiles k).isSome then .ok (s.setL x d 2)
    else if free.length < n then .ok (s.setL x d 1)
    else
      .ok ((s.modOwnTeam x fun q =>
        { q with tiles := ((numbers t n).zip free).foldl (fun m p => SMap.put m p.1 p.2) q.tiles }).setL x d 0)

/-- tclaim.acc (R289). -/
def claimAcc (slot : DWord) (d : Reg) (t n : Nat) (x : Iss) (s : State) : Effect :=
  if !rangeSlot (Fmt.ofDef slot) then faultL x 0x07
  else
    match s.teamAt x.l x.k with
    | none => .ok (s.setL x d 1)
    | some (h, tm) =>
      if (numbers t n).any fun k => (SMap.find? tm.accs k).isSome then .ok (s.setL x d 2)
      else
        match s.evict 33 x.l n with
        | none => .hold
        | some s1 =>
          let free := (s1.loom x.l).freeTiles
          match (s1.loom x.l).freeOwn with
          | none => .ok (s1.setL x d 1)
          | some e =>
            if free.length < n then .ok (s1.setL x d 1)
            else
              let o : Own := { state := .working, t := n, ctx := x.w.ctx, gen := 0, team := h, key := 0, spill := 0,
                               def_ := slot, tiles := free.take n, dtime := 0, was := .free }
              let s2 := s1.modLoom x.l fun y => { y with owners := SMap.put y.owners e o }
              let s3 := s2.setCells x.l o (o.places.map fun p => (p.1, p.2, o.fmt.zeroCode false))
              .ok ((s3.modOwnTeam x fun q =>
                { q with accs := (List.range n).foldl (fun m k => SMap.put m (t + k) (e, k)) q.accs }).setL x d 0)

def execTclaim (h : Guard) (acc : Bool) (n : BitVec 4) (d : Reg) (t cnt : BitVec 8) (s : State) : Result :=
  issue (.tclaim h acc n d t cnt) (macroBody fun x s =>
    if acc then claimAcc (x.w.fmt n) d t.toNat cnt.toNat x s else claimTiles d t.toNat cnt.toNat x s) s

/-! ## What operations touch (R286) -/

/-- Fields of a matrix block (R291), with the operand formats. -/
structure MmaPlan where
  aslot : Nat
  bslot : Nat
  acc : Nat
  tra : Bool
  trb : Bool
  fa : Fmt
  fb : Fmt
  fsa : Fmt
  fsb : Fmt
  m : Nat
  n : Nat
  k : Nat
  sa : DWord
  sb : DWord
  mslot : Nat
  pat : Bool
  sparse : Bool
  dyadic : Bool

/-- The plan of an mma, from its captured block; definitions are those of A, B, and their scale slots. -/
def Op.mmaPlan (o : Op) : MmaPlan :=
  let b := o.block
  { aslot := bf b 5 0, bslot := bf b 11 6, acc := bf b 16 12, tra := b.getLsbD 17, trb := b.getLsbD 18,
    fa := Fmt.ofDef (o.defn 0), fb := Fmt.ofDef (o.defn 1), fsa := Fmt.ofDef (o.defn 2), fsb := Fmt.ofDef (o.defn 3),
    m := bf b 38 32, n := bf b 51 40, k := bf b 63 52, sa := bd b 64, sb := bd b 128, mslot := bf b 197 192,
    pat := b.getLsbD 198, sparse := match o.instr with | .mmaSp .. => true | _ => false,
    dyadic := match o.instr with | .mmaDy .. => true | _ => false }

/-- A run of bits from the first bit of a slot. -/
structure Region where
  slot : Nat
  bits : Nat
deriving DecidableEq, Repr

/-- The slots a region occupies. -/
def Region.slots (r : Region) : List Nat := numbers r.slot ((r.bits + 32767) / 32768)
/-- Some bit lies beyond slot 63. -/
def Region.beyond (r : Region) : Bool := r.bits != 0 && r.slot * 32768 + r.bits > 64 * 32768
/-- Two regions share a bit. -/
def Region.meets (a b : Region) : Bool :=
  a.bits != 0 && b.bits != 0 && a.slot * 32768 < b.slot * 32768 + b.bits && b.slot * 32768 < a.slot * 32768 + a.bits

def MmaPlan.empty (p : MmaPlan) : Bool := p.m == 0 || p.n == 0 || p.k == 0
/-- The operand regions (R292). -/
def MmaPlan.regions (p : MmaPlan) : List Region :=
  if p.empty then []
  else if p.sparse then
    [⟨p.aslot, p.m * (p.k / 2) * p.fa.width⟩, ⟨p.bslot, p.k * p.n * p.fb.width⟩, ⟨p.mslot, p.m * (p.k / 2) * 4⟩]
  else [⟨p.aslot, p.m * p.k * p.fa.width⟩, ⟨p.bslot, p.k * p.n * p.fb.width⟩]
/-- N (R294). -/
def MmaPlan.total (p : MmaPlan) : Nat := if p.empty then 0 else (p.k + 15) / 16

/-- Fields of a delta block (R304). -/
structure DeltaPlan where
  sacc : Nat
  kslot : Nat
  vslot : Nat
  qslot : Nat
  abslot : Nat
  oslot : Nat
  uslot : Nat
  fk : Fmt
  fv : Fmt
  fq : Fmt
  fab : Fmt
  fo : Fmt
  dv : Nat
  dk : Nat
  c : Nat

def Op.deltaPlan (o : Op) : DeltaPlan :=
  let b := o.block
  { sacc := bf b 4 0, kslot := bf b 10 5, vslot := bf b 16 11, qslot := bf b 22 17, abslot := bf b 28 23,
    oslot := bf b 34 29, uslot := bf b 40 35, fk := Fmt.ofDef (o.defn 0), fv := Fmt.ofDef (o.defn 1),
    fq := Fmt.ofDef (o.defn 2), fab := Fmt.ofDef (o.defn 3), fo := Fmt.ofDef (o.defn 4), dv := bf b 70 64,
    dk := bf b 83 72, c := bf b 90 84 }

def DeltaPlan.empty (p : DeltaPlan) : Bool := p.dv == 0 || p.dk == 0 || p.c == 0
def DeltaPlan.total (p : DeltaPlan) : Nat := if p.empty then 0 else 3 * p.c
/-- Regions that delta reads: K, V, Q and the gates. -/
def DeltaPlan.reads (p : DeltaPlan) : List Region :=
  if p.empty then []
  else [⟨p.kslot, p.c * p.dk * p.fk.width⟩, ⟨p.vslot, p.c * p.dv * p.fv.width⟩, ⟨p.qslot, p.c * p.dk * p.fq.width⟩,
        ⟨p.abslot, 2 * p.c * p.fab.width⟩]
/-- Regions that it writes: O, and U in the range's width. -/
def DeltaPlan.writes (p : DeltaPlan) (ws : Nat) : List Region :=
  if p.empty then [] else [⟨p.oslot, p.c * p.dv * p.fo.width⟩, ⟨p.uslot, p.dv * ws⟩]

/-- The range that a matrix-engine operation names. -/
def Op.rangeNo (o : Op) : Nat :=
  match o.instr with
  | .mma .. | .mmaSp .. | .mmaDy .. => o.mmaPlan.acc
  | .delta .. => o.deltaPlan.sacc
  | .aspill _ _ _ t | .afill _ _ _ t | .ascale _ _ _ _ t | .acvt _ _ _ t => t.toNat
  | _ => 0

/-- The range of an operation, as its team's map now has it. -/
def State.opRange (s : State) (o : Op) : Option (Nat × Own) := s.rangeAt o.loom o.slot o.rangeNo

/-- Slots and ranges that an operation reads and writes (R286). U's width is the range's, at most 32 bits. -/
def opTouch (o : Op) : Touch :=
  match o.instr with
  | .mma .. | .mmaSp .. | .mmaDy .. => { tr := o.mmaPlan.regions.flatMap Region.slots, aw := [o.mmaPlan.acc] }
  | .delta .. =>
    { tr := o.deltaPlan.reads.flatMap Region.slots, tw := (o.deltaPlan.writes 32).flatMap Region.slots,
      aw := [o.deltaPlan.sacc] }
  | .aspill .. => { ar := [o.rangeNo] }
  | .afill .. | .ascale .. | .acvt .. => { aw := [o.rangeNo] }
  | _ => copyEngineTouch o

/-- An earlier operation of the issuing team holds a touch (R286). -/
def State.held (s : State) (x : Iss) (t : Touch) : Bool := s.interlocked x.l x.w opTouch t s.fresh

/-! ## trel, pin, unpin, attach, detach (R290, R300 to R302) -/

/-- The range of the issuing team at t, in one of the states given. -/
def State.rangeIn (s : State) (x : Iss) (t : Nat) (states : List OwnState) : Option (Nat × Own) :=
  match s.rangeAt x.l x.k t with
  | some (e, o) => if states.contains o.state then some (e, o) else none
  | none => none

/-- Replace an ownership entry. -/
def State.setOwn (s : State) (l e : Nat) (o : Own) : State := s.modLoom l fun y => { y with owners := SMap.put y.owners e o }
/-- Free an ownership entry. -/
def State.freeOwn (s : State) (l e : Nat) : State := s.modLoom l fun y => { y with owners := SMap.del y.owners e }

def execTrel (h : Guard) (acc : Bool) (t cnt : BitVec 8) (s : State) : Result :=
  issue (.trel h acc t cnt) (macroBody fun x s =>
    let ns := numbers t.toNat cnt.toNat
    if acc then
      if s.held x { aw := [t.toNat], frees := true } then .hold
      else
        match s.rangeIn x t.toNat [.working] with
        | some (e, o) =>
          if o.t ≠ cnt.toNat then faultL x 0x13
          else .ok ((s.freeOwn x.l e).modOwnTeam x fun q => q.unmapRange e)
        | none => faultL x 0x13
    else
      if s.held x { tw := ns } then .hold
      else
        match s.teamAt x.l x.k with
        | none => faultL x 0x12
        | some (_, tm) =>
          if ns.all fun n => (SMap.find? tm.tiles n).isSome then
            .ok (s.modOwnTeam x fun q => { q with tiles := ns.foldl (fun m n => SMap.del m n) q.tiles })
          else faultL x 0x12) s

/-- The entry is reserved as the target of a move (R378). -/
def Own.reserved (o : Own) : Bool := o.state == .moving && o.was == .free

/-- The entry of a context with a key, in a state that keys name (R300, R301). DESIGN CHOICE (log entry 31): a restore or a move
can bring a second entry of a context with the same key to a loom, and the manual does not say which one attach finds; it is the
one of lowest index. -/
def Loom.keyed (x : Loom) (ctx : Nat) (key : DWord) : Option (Nat × Own) :=
  x.owners.find? fun p => p.2.ctx == ctx && p.2.key == key && !p.2.reserved
    && [OwnState.pinned, .attached, .spilled, .moving].contains p.2.state

/-- The spill area is unusable (R300). -/
def State.spillUnusable (s : State) (l ctx : Nat) (a : DWord) (bytes : Nat) : Bool :=
  a.toNat % 128 != 0
    || (List.range (bytes / 2 ^ 19 + 2)).any fun k =>
      match s.spot (spillView l ctx) ((a.toNat + min (k * 2 ^ 19) (bytes - 1)) % 2 ^ 64) with
      | .page x _ => !pteWritable x.pte || pteCompressed x.pte || pteHost x.pte
      | _ => true

def execPin (h : Guard) (d a b : Reg) (t : BitVec 8) (s : State) : Result :=
  issue (.pin h d a b t) (macroBody fun x s =>
    match s.rangeIn x t.toNat [.working] with
    | none => faultL x 0x13
    | some (e, o) =>
      let s := s.sideEffect x.l x.w
      let key := x.w.pair a x.lane
      let sp := x.w.pair b x.lane
      if ((s.loom x.l).keyed x.w.ctx key).isSome then .ok (s.setL x d 1)
      else if s.spillUnusable x.l x.w.ctx sp o.imageBytes then .ok (s.setL x d 2)
      else .ok ((s.setOwn x.l e { o with state := .attached, key := key, spill := sp, gen := o.gen + 1 }).setL x d 0)) s

def execUnpin (h : Guard) (t : BitVec 8) (s : State) : Result :=
  issue (.unpin h t) (macroBody fun x s =>
    if s.held x { aw := [t.toNat], frees := true } then .hold
    else
      match s.rangeIn x t.toNat [.attached] with
      | none => faultL x 0x13
      | some (e, o) =>
        if (s.loom x.l).keyBusy o.ctx o.key then .hold
        else
          .ok (((s.modLoom x.l fun y => y.dropKey o.ctx o.key).setOwn x.l e
            { o with state := .working, key := 0 }).sideEffect x.l x.w)) s

def execDetach (h : Guard) (t : BitVec 8) (s : State) : Result :=
  issue (.detach h t) (macroBody fun x s =>
    if s.held x { aw := [t.toNat], frees := true } then .hold
    else
      match s.rangeIn x t.toNat [.attached] with
      | none => faultL x 0x13
      | some (e, o) =>
        .ok (((s.setOwn x.l e { o with state := .pinned, team := 0, dtime := s.clock }).modOwnTeam x fun q =>
          q.unmapRange e).sideEffect x.l x.w)) s

/-- Map a range at t and attach it to the issuing team (R298, R301). -/
def State.attachAt (s : State) (x : Iss) (e t : Nat) (o : Own) : State :=
  (s.setOwn x.l e { o with state := .attached, team := x.w.team.getD 0 }).modOwnTeam x fun q =>
    { q with accs := (List.range o.t).foldl (fun m k => SMap.put m (t + k) (e, k)) q.accs }

def execAttach (h : Guard) (d a : Reg) (t : BitVec 8) (s : State) : Result :=
  issue (.attach h d a t) (macroBody fun x s =>
    match (s.loom x.l).keyed x.w.ctx (x.w.pair a x.lane), s.teamAt x.l x.k with
    | some (e, o), some (_, tm) =>
      if o.state = .moving then .hold
      else if o.state = .attached then .ok (s.setL x d 3)
      else if t.toNat + o.t > 32 || (numbers t.toNat o.t).any fun k => (SMap.find? tm.accs k).isSome then .ok (s.setL x d 4)
      else if o.state = .pinned then .ok ((s.attachAt x e t.toNat o).setL x d 0)
      else
        match s.evict 33 x.l o.t with
        | none => .hold
        | some s1 =>
          let free := (s1.loom x.l).freeTiles
          if free.length < o.t then .ok (s1.setL x d 1)
          else
            let o' := { o with tiles := free.take o.t, gen := o.gen + 1 }
            match s1.fillRange x.l o' o.spill with
            | .wait => .hold
            | .fail c va => .trap { cause := c, lane := some x.lane, index := 0, detail := va }
            | .ok s2 =>
              .ok (((s2.modLoom x.l fun y => y.markKey o.ctx o.key .valid true).attachAt x e t.toNat o').setL x d 0)
    | _, _ => .ok (s.setL x d 2)) s

/-! ## aread, awrite, azero (R309) -/

/-- Row and column that a lane names. -/
def cellPlace (o : Own) (r c : Word) : Nat × Nat := (r.toNat % 64, c.toNat % o.cols)

def execAread (h : Guard) (d a b : Reg) (t : BitVec 8) (s : State) : Result :=
  issue (.aread h d a b t) (fun x s =>
    if s.held x { ar := [t.toNat] } then .hold
    else
      match s.rangeIn x t.toNat [.working, .attached] with
      | none => .trap { cause := 0x13 }
      | some (_, o) =>
        let at_ i := cellPlace o (x.w.lane a i) (x.w.lane b i)
        match (lanesOf x.act).find? fun i => s.cellError x.l o (at_ i).1 (at_ i).2 with
        | some i => .trap { cause := 0x0E, lane := some i, index := i }
        | none => regBody d (fun _ _ i => BitVec.ofNat 32 ((s.loom x.l).cell o (at_ i).1 (at_ i).2)) x
            (s.countSofts x.l x.w.ctx (s.softCells x.l o ((lanesOf x.act).map at_)))) s

def execAwrite (h : Guard) (d a b : Reg) (t : BitVec 8) (s : State) : Result :=
  issue (.awrite h d a b t) (fun x s =>
    if s.held x { aw := [t.toNat] } then .hold
    else
      match s.rangeIn x t.toNat [.working, .attached] with
      | none => .trap { cause := 0x13 }
      | some (_, o) =>
        .ok (s.setCells x.l o ((lanesOf x.act).map fun i =>
          let p := cellPlace o (x.w.lane a i) (x.w.lane b i)
          (p.1, p.2, (x.w.lane d i).toNat)))) s

def execAzero (h : Guard) (t : BitVec 8) (s : State) : Result :=
  issue (.azero h t) (macroBody fun x s =>
    if s.held x { aw := [t.toNat] } then .hold
    else
      match s.rangeIn x t.toNat [.working, .attached] with
      | none => faultL x 0x13
      | some (_, o) => .ok (s.setCells x.l o (o.places.map fun p => (p.1, p.2, o.fmt.zeroCode false)))) s

/-! ## Elements of tile operands (R292) -/

/-- w bits at a bit offset from the first bit of a logical slot; a memory-error fault where a slot is in error. -/
def State.tileElem (s : State) (o : Op) (first bit w : Nat) : Except Got Nat :=
  let part (bit w : Nat) : Except Got Nat :=
    match s.tileOf o (first + bit / 32768) with
    | none => .error (.fault 0x12 0 0)
    | some p => if s.mem.hard (.tile o.loom p) then .error (.fault tileError 0 0)
      else .ok ((s.loom o.loom).tileBits p (bit % 32768) w)
  if bit % 32768 + w ≤ 32768 then part bit w
  else
    let lo := 32768 - bit % 32768
    do
      let a ← part bit lo
      let b ← part (bit + lo) (w - lo)
      return a + b * 2 ^ lo

/-- Write w bits from the first bit of a logical slot. -/
def State.setTileElem (s : State) (o : Op) (first bit w val : Nat) : State :=
  let put (s : State) (bit w val : Nat) : State :=
    match s.tileOf o (first + bit / 32768) with
    | none => s
    | some p => s.modLoom o.loom fun x => x.setTileBits p (bit % 32768) w val
  if bit % 32768 + w ≤ 32768 then put s bit w val
  else
    let lo := 32768 - bit % 32768
    put (put s bit lo (val % 2 ^ lo)) (bit + lo) (w - lo) (val / 2 ^ lo)

/-- An operand element with its scale (R82, R292): its value, and whether a signalling NaN or a bad scale sets NV. -/
def State.operand (s : State) (o : Op) (first bit : Nat) (f : Fmt) (scale : Option (DWord × Fmt)) : Except Got (Num × Bool) := do
  let n ← s.tileElem o first bit f.width
  match scale with
  | none => return (f.decode n, (f.decode n).readFlags != 0)
  | some (base, sf) =>
    match s.readBits (s.opView o) false false base (bit / f.width / 2 ^ f.sblk * sf.width) sf.width with
    | .val m =>
      let r := scaledNum f n sf m
      return (r.1, r.2 != 0)
    | g => .error g

/-! ## mma (R293 to R295) -/

/-- An operand's scale, where its slot is scaled. -/
def scaleOf (f : Fmt) (base : DWord) (sf : Fmt) : Option (DWord × Fmt) := if f.sblk = 0 then none else some (base, sf)

/-- The checks of R293 in order. -/
def State.mmaCheck (s : State) (o : Op) : Option Cause :=
  let p := o.mmaPlan
  let fault (c : Nat) : Option Cause := some { cause := c, lane := some o.lane }
  match s.opRange o with
  | none => fault 0x13
  | some (_, r) =>
    if p.m > 64 || p.n > r.cols || (p.sparse && (p.tra || p.k % (if p.pat then 8 else 4) != 0)) then fault 0x10
    else if (if p.dyadic then !p.fa.isDyadic || p.fb.isDyadic else p.fa.isDyadic || p.fb.isDyadic)
        || (p.fa.sblk != 0 && badScale p.fsa) || (p.fb.sblk != 0 && badScale p.fsb) then fault 0x07
    else if p.regions.any Region.beyond then fault 0x10
    else if (p.regions.flatMap Region.slots).any fun n => (s.tileOf o n).isNone then fault 0x12
    else none

/-- Bit offset of A's element (i, κ) (R292). -/
def MmaPlan.aBit (p : MmaPlan) (i κ : Nat) : Nat := (if p.tra then κ * p.m + i else i * p.k + κ) * p.fa.width
/-- Bit offset of B's element (κ, j). -/
def MmaPlan.bBit (p : MmaPlan) (κ j : Nat) : Nat := (if p.trb then j * p.k + κ else κ * p.n + j) * p.fb.width

/-- The A elements of row i in k-group g: their dense depths and values, and whether a reserved code was met (R295). -/
def State.aRow (s : State) (o : Op) (p : MmaPlan) (g i : Nat) : Except Got (List (Nat × Num × Bool) × Bool) :=
  let sc := scaleOf p.fa p.sa p.fsa
  if p.sparse then
    ((List.range 8).map (· + 8 * g) |>.filter (· < p.k / 2)).foldlM (fun acc st => do
      let e ← s.tileElem o p.mslot ((i * (p.k / 2) + st) * 4) 4
      let v ← s.operand o p.aslot ((i * (p.k / 2) + st) * p.fa.width) p.fa sc
      if e > (if p.pat then 7 else 3) then return (acc.1, true)
      else return (acc.1 ++ [((if p.pat then 8 * (st / 4) else 4 * (st / 2)) + e, v.1, v.2)], acc.2)) ([], false)
  else
    ((List.range 16).map (· + 16 * g) |>.filter (· < p.k)).foldlM (fun acc κ => do
      let v ← s.operand o p.aslot (p.aBit i κ) p.fa sc
      return (acc.1 ++ [(κ, v.1, v.2)], false)) ([], false)

/-- The B elements of k-group g in column j, by depth. -/
def State.bCol (s : State) (o : Op) (p : MmaPlan) (g j : Nat) : Except Got (List (Nat × Num × Bool)) :=
  ((List.range 16).map (· + 16 * g) |>.filter (· < p.k)).mapM fun κ => do
    let v ← s.operand o p.bslot (p.bBit κ j) p.fb (scaleOf p.fb p.sb p.fsb)
    return (κ, v.1, v.2)

/-- The products of a cell, and whether a product 0 · ∞ or a signalling NaN is among them (R90). -/
def cellProducts (as bs : List (Nat × Num × Bool)) : List Num × Bool :=
  as.foldl (fun acc a =>
    match bs.find? fun b => b.1 == a.1 with
    | none => acc
    | some b =>
      let m := mulNum a.2.1 b.2.1
      (acc.1 ++ [m.1], acc.2 || m.2 != 0 || a.2.2 || b.2.2)) ([], false)

/-- A unit's results: cells, flags, records by element index. -/
structure UnitCells where
  cells : List (Nat × Nat × Nat) := []
  flags : BitVec 6 := 0
  recs : List (Nat × Nat) := []

/-- Add one rounded cell. -/
def UnitCells.add (u : UnitCells) (row col idx : Nat) (r : Rounded) : UnitCells :=
  { cells := u.cells ++ [(row, col, r.bits)], flags := u.flags ||| r.flags,
    recs := match r.record with | none => u.recs | some c => u.recs ++ [(idx, c)] }

/-- One k-group (R294): every read before any write. -/
def State.mmaGroup (s : State) (o : Op) (p : MmaPlan) (r : Own) (g : Nat) : Except Got (UnitCells × Bool) := do
  let rows ← (List.range p.m).mapM (s.aRow o p g)
  let cols ← (List.range p.n).mapM (s.bCol o p g)
  if !s.mem.marks.isEmpty && ((List.range p.m).any fun i => (List.range p.n).any fun j => s.cellError o.loom r i j) then
    .error (.fault tileError 0 0)
  else
    let u := (rows.zipIdx).foldl (fun (u : UnitCells) a =>
      (cols.zipIdx).foldl (fun u b =>
        let ps := cellProducts a.1.1 b.1
        u.add a.2 b.2 (a.2 * p.n + b.2)
          (groupRound r.fmt (r.fmt.decode ((s.loom o.loom).cell r a.2 b.2)) ps.1 ps.2)) u) {}
    return (u, rows.any (·.2))

/-- The status register of a matrix operation (R294). -/
def matrixStatus : Instr → Reg
  | .mma _ _ _ b | .mmaSp _ _ _ b | .mmaDy _ _ _ b | .delta _ _ _ b => b
  | _ => 255

/-- The accesses to scales of k-group g: of the A elements and the B elements that it uses, each scale once (R83, R292). -/
def MmaPlan.scaleAccs (p : MmaPlan) (g : Nat) : List Acc :=
  let accs (f sf : Fmt) (base : DWord) (es : List Nat) : List Acc :=
    if f.sblk = 0 then []
    else ((es.map (· / 2 ^ f.sblk)).eraseDups).map fun e => (bitAcc base (e * sf.width) sf.width).1
  let κs := (List.range 16).map (· + 16 * g) |>.filter (· < p.k)
  let as := (List.range p.m).flatMap fun i =>
    if p.sparse then
      ((List.range 8).map (· + 8 * g) |>.filter (· < p.k / 2)).map fun st => i * (p.k / 2) + st
    else κs.map fun κ => p.aBit i κ / p.fa.width
  accs p.fa p.fsa p.sa as
    ++ accs p.fb p.fsb p.sb ((List.range p.n).flatMap fun j => κs.map fun κ => p.bBit κ j / p.fb.width)

/-- A k-group of mma. Its status bits are ORed into the status register; where that is the send register, which reads as zero,
they gather in the operation, and its retirement sends them (R294, R335). -/
def State.mmaUnit (s : State) (o : Op) (u : Nat) : State :=
  match s.opRange o with
  | none => s.applyUnit o u (.fault 0x13 0 0)
  | some (_, r) =>
    match s.mmaGroup o o.mmaPlan r u with
    | .error g => s.applyUnit o u g.out
    | .ok (c, reserved) =>
      let s0 := (o.mmaPlan.scaleAccs u).foldl (fun s a => s.noteEngine (s.opView o) false a false) s
      let s1 := s0.setCells o.loom r c.cells
      let b := matrixStatus o.instr
      let s2 := if !reserved || b = 255 then s1
        else if o.header.isSome then s1.modOp o.loom .mat o.id fun q => { q with result := q.result ||| 1 }
        else s1.modWeft o.loom o.slot fun w => w.setLane b o.lane (w.raw b o.lane ||| 1)
      s.applyUnit o (u + 1) (.did s2 c.flags c.recs)

/-! ## delta (R304, R305) -/

def State.deltaCheck (s : State) (o : Op) : Option Cause :=
  let p := o.deltaPlan
  let fault (c : Nat) : Option Cause := some { cause := c, lane := some o.lane }
  match s.opRange o with
  | none => fault 0x13
  | some (_, r) =>
    let ws := r.fmt.width
    let w := p.writes ws
    if p.dv > 64 || p.dk > r.cols then fault 0x10
    else if [p.fk, p.fv, p.fq, p.fab, p.fo].any fun f => !deltaSlot f then fault 0x07
    else if (p.reads ++ w).any Region.beyond
        || (match w with | [a, b] => a.meets b | _ => false)
        || w.any fun a => p.reads.any a.meets then fault 0x10
    else if ((p.reads ++ w).flatMap Region.slots).any fun n => (s.tileOf o n).isNone then fault 0x12
    else none

/-- Consecutive groups of 16. -/
def groups16 {α : Type} : Nat → List α → List (List α)
  | 0, _ => []
  | k + 1, xs => if xs.isEmpty then [] else xs.take 16 :: groups16 k (xs.drop 16)

/-- Dot of R305: from +0, group by group, ending in the encoding. -/
def dotGroups (f : Fmt) (ps : List (Num × Bool)) : Rounded × List Nat :=
  (groups16 (ps.length + 1) ps).foldl (fun acc g =>
    let r := groupRound f (f.decode acc.1.bits) (g.map (·.1)) (g.any (·.2))
    ({ r with flags := r.flags ||| acc.1.flags }, match r.record with | none => acc.2 | some c => acc.2 ++ [c]))
    ({ bits := f.zeroCode false, flags := 0 }, [])

/-- A product of factors: NaN where one is, or where a zero meets an infinity; NV except for quiet NaNs alone (R305). -/
def prodNums (xs : List Num) : Num × BitVec 6 :=
  let nv : BitVec 6 := xs.foldl (fun f x => f ||| x.readFlags) (if xs.any Num.isZero && xs.any Num.isInf then NV else 0)
  if xs.any Num.isNan || (xs.any Num.isZero && xs.any Num.isInf) then (.nan false, nv)
  else (xs.foldl (fun acc x => (mulNum acc x).1) (.fin false 1 0), nv)

/-- Update of R305. -/
def deltaUpdate (f : Fmt) (s u k v α β : Num) : Rounded :=
  let t1 := prodNums [α, s]
  let t2 := prodNums [α, β, u, k]
  let t3 := prodNums [β, v, k]
  let r := sumNums f.rdn [t1.1, t2.1.neg, t3.1]
  (f.round r.1 false).add (t1.2 ||| t2.2 ||| t3.2 ||| r.2)

/-- Row i of S times a token's row of an operand (R305). -/
def State.deltaDot (s : State) (o : Op) (p : DeltaPlan) (r : Own) (slot t : Nat) (f : Fmt) (i : Nat) :
    Except Got (Rounded × List Nat) := do
  let ps ← (List.range p.dk).mapM fun j => do
    let x ← s.operand o slot ((t * p.dk + j) * f.width) f none
    if s.cellError o.loom r i j then .error (.fault tileError 0 0)
    else
      let c := r.fmt.decode ((s.loom o.loom).cell r i j)
      let m := mulNum c x.1
      return (m.1, m.2 != 0 || x.2 || c.readFlags != 0)
  return dotGroups r.fmt ps

/-- Phase 0: U[i] := Dot(fs, row i of S, k_t). DESIGN CHOICE (log entry 30): R304 names no element index for the conversion
records of delta's units; they carry that of the element written: i of U in phase 0, i·dk + j of S in phase 1, t·dv + i of O in
phase 2. -/
def State.deltaPhase0 (s : State) (o : Op) (p : DeltaPlan) (r : Own) (t : Nat) : Except Got UnitOut := do
  let us ← (List.range p.dv).mapM (s.deltaDot o p r p.kslot t p.fk)
  let s1 := us.zipIdx.foldl (fun s q => s.setTileElem o p.uslot (q.2 * r.fmt.width) r.fmt.width q.1.1.bits) s
  return .did s1 (us.foldl (fun f q => f ||| q.1.flags) 0) (us.zipIdx.flatMap fun q => q.1.2.map fun c => (q.2, c))

/-- Phase 1: the update of S, all reads first. -/
def State.deltaPhase1 (s : State) (o : Op) (p : DeltaPlan) (r : Own) (t : Nat) : Except Got UnitOut := do
  let α ← s.operand o p.abslot (t * p.fab.width) p.fab none
  let β ← s.operand o p.abslot ((p.c + t) * p.fab.width) p.fab none
  let ks ← (List.range p.dk).mapM fun j => s.operand o p.kslot ((t * p.dk + j) * p.fk.width) p.fk none
  let us ← (List.range p.dv).mapM fun i => s.operand o p.uslot (i * r.fmt.width) r.fmt none
  let vs ← (List.range p.dv).mapM fun i => s.operand o p.vslot ((t * p.dv + i) * p.fv.width) p.fv none
  if !s.mem.marks.isEmpty && ((List.range p.dv).any fun i => (List.range p.dk).any fun j => s.cellError o.loom r i j) then
    .error (.fault tileError 0 0)
  else
    let out := ((us.zip vs).zipIdx).foldl (fun (c : UnitCells) q =>
      ks.zipIdx.foldl (fun c k =>
        c.add q.2 k.2 (q.2 * p.dk + k.2)
          (deltaUpdate r.fmt (r.fmt.decode ((s.loom o.loom).cell r q.2 k.2)) q.1.1.1 k.1.1 q.1.2.1 α.1 β.1)) c) {}
    return .did (s.setCells o.loom r out.cells) out.flags out.recs

/-- Phase 2: O[t, i] from the updated S. -/
def State.deltaPhase2 (s : State) (o : Op) (p : DeltaPlan) (r : Own) (t : Nat) : Except Got UnitOut := do
  let ds ← (List.range p.dv).mapM (s.deltaDot o p r p.qslot t p.fq)
  let os := ds.map fun q => (p.fo.round (r.fmt.decode q.1.bits) false).add (q.1.flags ||| (r.fmt.decode q.1.bits).readFlags)
  let s1 := os.zipIdx.foldl (fun s q => s.setTileElem o p.oslot ((t * p.dv + q.2) * p.fo.width) p.fo.width q.1.bits) s
  return .did s1 (os.foldl (fun f q => f ||| q.flags) 0)
    ((ds.zip os).zipIdx.flatMap fun q => (q.1.1.2 ++ q.1.2.record.toList).map fun c => (t * p.dv + q.2, c))

def State.deltaUnit (s : State) (o : Op) (u : Nat) : State :=
  let p := o.deltaPlan
  match s.opRange o with
  | none => s.applyUnit o u (.fault 0x13 0 0)
  | some (_, r) =>
    let res := if u % 3 = 0 then s.deltaPhase0 o p r (u / 3)
      else if u % 3 = 1 then s.deltaPhase1 o p r (u / 3) else s.deltaPhase2 o p r (u / 3)
    match res with
    | .error g => s.applyUnit o u g.out
    | .ok out => s.applyUnit o (u + 1) out

/-! ## Rows: aspill, afill, ascale, acvt (R306 to R308) -/

/-- Places of unit u: its tile's row, 64 columns (R306). -/
def rowPlaces (u : Nat) : List (Nat × Nat) := (List.range 64).map fun c => (u % 64, 64 * (u / 64) + c)

/-- Some cell of a list of places is in error. -/
def State.cellsError (s : State) (l : Nat) (r : Own) (ps : List (Nat × Nat)) : Bool :=
  !s.mem.marks.isEmpty && ps.any fun p => s.cellError l r p.1 p.2

/-- The byte address of a row in width-preserving form, from an image's address (R203). -/
def rowAddr (a : DWord) (w u : Nat) : DWord := a + BitVec.ofNat 64 (512 * w * (u / 64) + 8 * w * (u % 64))

def State.aspillUnit (s : State) (o : Op) (r : Own) (u : Nat) : State :=
  let w := r.fmt.width
  let v := s.opView o
  let a := rowAddr o.opa w u
  match s.writeCase v false false a 0 (64 * w) with
  | some g => s.applyUnit o u g.out
  | none =>
    if s.cellsError o.loom r (rowPlaces u) then s.applyUnit o u (.fault tileError 0 0)
    else
      let n := (rowPlaces u).reverse.foldl (fun acc p => acc * 2 ^ w + (s.loom o.loom).cell r p.1 p.2) 0
      let s1 := (s.putBits v a 0 (64 * w) n).noteEngine v false (bitAcc a 0 (64 * w)).1
      -- the rows up to this one lie one behind another in the image
      s.applyUnit o (u + 1)
        (.did (s1.settleMarks v (bitAcc a 0 (64 * w)).1 (spanCovers o.opa 0 (64 * w * (u + 1)))) 0 [])

def State.afillUnit (s : State) (o : Op) (r : Own) (u : Nat) : State :=
  let w := r.fmt.width
  let v := s.opView o
  let a := rowAddr o.opa w u
  match s.readBits v false false a 0 (64 * w) with
  | .val n =>
    let s1 := s.setCells o.loom r ((rowPlaces u).zipIdx.map fun p => (p.1.1, p.1.2, n >>> (p.2 * w) % 2 ^ w))
    s.applyUnit o (u + 1) (.did (s1.noteEngine v false (bitAcc a 0 (64 * w)).1 false) 0 [])
  | g => s.applyUnit o u g.out

/-- Cells of a list of places through a function, with element indices row · 64T + column (R297). -/
def State.mapCells (s : State) (o : Op) (r : Own) (ps : List (Nat × Nat)) (f : Num → Rounded) : UnitCells :=
  ps.foldl (fun (c : UnitCells) p =>
    c.add p.1 p.2 (p.1 * r.cols + p.2) (f (r.fmt.decode ((s.loom o.loom).cell r p.1 p.2)))) {}

def State.ascaleUnit (s : State) (o : Op) (r : Own) (u : Nat) : State :=
  if s.cellsError o.loom r (rowPlaces u) then s.applyUnit o u (.fault tileError 0 0)
  else
    let f := Fmt.ofDef (o.defn 0)
    let x := f.decode ((o.opa.extractLsb' 0 32).toNat % 2 ^ f.width)
    let c := s.mapCells o r (rowPlaces u) fun v =>
      let m := mulNum v x
      (r.fmt.round m.1 false).add (m.2 ||| v.readFlags ||| x.readFlags)
    s.applyUnit o (u + 1) (.did (s.setCells o.loom r c.cells) c.flags c.recs)

def State.acvtUnit (s : State) (o : Op) (e : Nat) (r : Own) (u : Nat) : State :=
  if s.cellsError o.loom r r.places then s.applyUnit o u (.fault tileError 0 0)
  else
    let r' := { r with def_ := o.defn 0 }
    let c := s.mapCells o r r.places fun v => (r'.fmt.round v false).add v.readFlags
    s.applyUnit o (u + 1) (.did ((s.setCells o.loom r' c.cells).setOwn o.loom e r') c.flags c.recs)

/-- A unit of the matrix engine. -/
def State.matrixUnit (s : State) (o : Op) (u : Nat) : State :=
  match o.instr with
  | .mma .. | .mmaSp .. | .mmaDy .. => s.mmaUnit o u
  | .delta .. => s.deltaUnit o u
  | i =>
    match s.opRange o with
    | none => s.applyUnit o u (.fault 0x13 0 0)
    | some (e, r) =>
      match i with
      | .aspill .. => s.aspillUnit o r u
      | .afill .. => s.afillUnit o r u
      | .ascale .. => s.ascaleUnit o r u
      | _ => s.acvtUnit o e r u

/-! ## Issue -/

/-- The intervals that aspill and afill touch (R306). -/
def State.rowSpans (s : State) (o : Op) (write : Bool) : List Span :=
  match s.opRange o with
  | none => []
  | some (_, r) => [{ lo := o.opa.toNat, hi := o.opa.toNat + r.imageBytes - 1, write := write }]

/-- The intervals of memory that a matrix-engine operation touches: its scales or its image (R196). -/
def State.matrixSpans (s : State) (o : Op) : List Span :=
  match o.instr with
  | .mma .. | .mmaSp .. | .mmaDy .. =>
    let p := o.mmaPlan
    let sc (f sf : Fmt) (base : DWord) (n : Nat) : List Span :=
      if f.sblk = 0 ∨ p.empty then [] else [arraySpan base ((n - 1) / 2 ^ f.sblk + 1) sf.width false]
    sc p.fa p.fsa p.sa (if p.sparse then p.m * (p.k / 2) else p.m * p.k) ++ sc p.fb p.fsb p.sb (p.k * p.n)
  | .aspill .. => s.rowSpans o true
  | .afill .. => s.rowSpans o false
  | _ => []

/-- The checks of the row operations: the range, then the entry's own (R306 to R308). -/
def State.rowCheck (s : State) (o : Op) : Option Cause :=
  let fault (c : Nat) (d : DWord := 0) : Option Cause := some { cause := c, lane := some o.lane, detail := d }
  match s.opRange o with
  | none => fault 0x13
  | some (_, r) =>
    match o.instr with
    | .aspill .. | .afill .. => if o.opa.toNat % 128 ≠ 0 then fault 0x08 o.opa else none
    | .acvt .. =>
      let f := Fmt.ofDef (o.defn 0)
      if !rangeSlot f then fault 0x07
      else if r.state = .attached ∧ f.width > r.fmt.width then fault 0x13
      else none
    | _ => none

/-- The checks of a matrix-engine operation on what it captured. -/
def State.matrixCheck (s : State) (o : Op) : Option Cause :=
  match o.instr with
  | .mma .. | .mmaSp .. | .mmaDy .. => s.mmaCheck o
  | .delta .. => s.deltaCheck o
  | _ => s.rowCheck o

/-- N of a matrix-engine operation. -/
def State.matrixTotal (s : State) (o : Op) : Nat :=
  match o.instr with
  | .mma .. | .mmaSp .. | .mmaDy .. => o.mmaPlan.total
  | .delta .. => o.deltaPlan.total
  | .acvt .. => 1
  | _ => 64 * ((s.opRange o).map fun r => r.2.t).getD 0

/-- A captured matrix-engine operation issues (R286, R287). -/
def matrixIssue (x : Iss) (o : Op) (s : State) : Effect :=
  if s.held x (opTouch o) then .hold
  else
    match s.matrixCheck o with
    | some c => .trap c
    | none => acceptOp x { o with total := s.matrixTotal o } (s.matrixSpans o) false s

/-- Issue of an operation with a 64-byte block: definitions by slot fields of the block, then their scale slots (R420). -/
def blockBody (i : Instr) (a : Reg) (fields : BitVec 512 → List Nat) : Iss → State → Effect :=
  macroBody fun x s =>
    if s.queueFull x.l .mat then .hold
    else
      let opa := x.w.pair a x.lane
      loadL opa 64 64 (fun blk s =>
        let b := BitVec.ofNat 512 blk
        let ds := (fields b).map fun n => x.w.fmt (BitVec.ofNat 4 n)
        matrixIssue x { newOp s x i with opa := opa, block := b, defs := padDefs (ds ++ ds.map x.w.scaleDef) } s) x s

def mmaFields (b : BitVec 512) : List Nat := [bf b 23 20, bf b 27 24]
def deltaFields (b : BitVec 512) : List Nat := [bf b 44 41, bf b 48 45, bf b 52 49, bf b 56 53, bf b 60 57]

/-- Issue of an operation that names its range in the word. -/
def rowBody (i : Instr) (opa : Weft → Nat → DWord) (defs : Weft → List DWord) : Iss → State → Effect :=
  macroBody fun x s =>
    if s.queueFull x.l .mat then .hold
    else matrixIssue x { newOp s x i with opa := opa x.w x.lane, defs := padDefs (defs x.w) } s

def execMma (h : Guard) (d a b : Reg) (s : State) : Result :=
  issue (.mma h d a b) (blockBody (.mma h d a b) a mmaFields) s
def execMmaSp (h : Guard) (d a b : Reg) (s : State) : Result :=
  issue (.mmaSp h d a b) (blockBody (.mmaSp h d a b) a mmaFields) s
def execMmaDy (h : Guard) (d a b : Reg) (s : State) : Result :=
  issue (.mmaDy h d a b) (blockBody (.mmaDy h d a b) a mmaFields) s
def execDelta (h : Guard) (d a b : Reg) (s : State) : Result :=
  issue (.delta h d a b) (blockBody (.delta h d a b) a deltaFields) s
def execAspill (h : Guard) (d a : Reg) (t : BitVec 8) (s : State) : Result :=
  issue (.aspill h d a t) (rowBody (.aspill h d a t) (fun w i => w.pair a i) fun _ => []) s
def execAfill (h : Guard) (d a : Reg) (t : BitVec 8) (s : State) : Result :=
  issue (.afill h d a t) (rowBody (.afill h d a t) (fun w i => w.pair a i) fun _ => []) s
def execAscale (h : Guard) (n : BitVec 4) (d a : Reg) (t : BitVec 8) (s : State) : Result :=
  issue (.ascale h n d a t) (rowBody (.ascale h n d a t) (fun w i => (w.lane a i).setWidth 64) fun w =>
    [w.fmt n, w.scaleDef (w.fmt n)]) s
def execAcvt (h : Guard) (n : BitVec 4) (d : Reg) (t : BitVec 8) (s : State) : Result :=
  issue (.acvt h n d t) (rowBody (.acvt h n d t) (fun _ _ => 0) fun w => [w.fmt n, w.scaleDef (w.fmt n)]) s

/-! ## Issue of the copy engine's and gather engine's operations -/

def execCopy (h : Guard) (t : TileSide) (n : BitVec 4) (d a : Reg) (s : State) : Result :=
  issue (.copy h t n d a) (copyBody opTouch (.copy h t n d a) t n a) s
def execGather (h : Guard) (t : TileSide) (n : BitVec 4) (d a : Reg) (s : State) : Result :=
  issue (.gather h t n d a) (copyBody opTouch (.gather h t n d a) t n a) s
def execScatter (h : Guard) (t : TileSide) (n : BitVec 4) (d a : Reg) (s : State) : Result :=
  issue (.scatter h t n d a) (copyBody opTouch (.scatter h t n d a) t n a) s
def execCmpst (h : Guard) (n : BitVec 4) (d a b : Reg) (s : State) : Result :=
  issue (.cmpst h n d a b) (cmpBody (.cmpst h n d a b) n a) s
def execExpld (h : Guard) (n : BitVec 4) (d a b : Reg) (s : State) : Result :=
  issue (.expld h n d a b) (cmpBody (.expld h n d a b) n a) s

end Sys2Proof.Machine
end

