-- ==== Sys2Proof/Machine/Queues.lean ====
section
/-! DEFINITION. Launch queues and launch, fetchw and its answers, continuation records, stage rings and messages
(12_queues.md R313 to R337, 02 R59 to R62). -/

namespace Sys2Proof.Machine

/-! ## Queue control blocks (R314; log entry 20) -/

/-- n bytes of a queue's control block. -/
def State.queueField (s : State) (q off n : Nat) : Nat :=
  if s.qbase = 0 then 0 else s.readPhysLe .hbm (s.qbase.toNat + 64 * q + off) n
/-- Write n bytes of a queue's control block. -/
def State.setQueueField (s : State) (q off n v : Nat) : State :=
  if s.qbase = 0 then s else s.writePhysLe .hbm (s.qbase.toNat + 64 * q + off) n v

def State.queueBase (s : State) (q : Nat) : DWord := BitVec.ofNat 64 (s.queueField q 0 8)
def State.queueCap (s : State) (q : Nat) : Nat := s.queueField q 8 1 % 16
def State.queueEn (s : State) (q : Nat) : Bool := (s.queueField q 8 1).testBit 4
def State.queueDev (s : State) (q : Nat) : Bool := (s.queueField q 8 1).testBit 5
def State.queueCtx (s : State) (q : Nat) : Nat := s.queueField q 9 2
def State.queueTickets (s : State) (q : Nat) : Nat := s.queueField q 11 2
def State.queueHead (s : State) (q : Nat) : DWord := BitVec.ofNat 64 (s.queueField q 16 8)
def State.queueTail (s : State) (q : Nat) : DWord := BitVec.ofNat 64 (s.queueField q 24 8)

/-- The address of record n of a queue (R314). -/
def State.recordAddr (s : State) (q : Nat) (n : DWord) : DWord :=
  s.queueBase q + BitVec.ofNat 64 (256 * (n.toNat % 2 ^ s.queueCap q))

/-- Queue fault: qf set, en cleared, event 0x06 (R315, R316). -/
def State.queueFault (s : State) (q : Nat) : State :=
  let b := s.queueField q 8 1
  ((s.setQueueField q 8 1 (b - b / 16 % 2 * 16)).setQueueField q 13 1 1).eventRecord 0x06 0xC0 (s.queueCtx q)
    (BitVec.ofNat 64 q) (s.queueTail q)

/-! ## launch (R322) -/

/-- launch's status (R322). -/
def State.launchStatus (s : State) (q ctx : Nat) : Nat :=
  if s.queueCtx q ≠ ctx ∨ !s.queueEn q then 2
  else if !s.queueDev q then 3
  else if (s.queueTail q - s.queueHead q).toNat = 2 ^ s.queueCap q then 1
  else 0

def execLaunch (h : Guard) (d a b : Reg) (s : State) : Result :=
  issue (.launch h d a b) (macroBody fun x s =>
    loadL (x.w.pair a x.lane) 256 256 (fun n s =>
      let r := BitVec.ofNat 2048 n
      let q := bf r 197 192
      let s := s.sideEffect x.l x.w
      let st := s.launchStatus q x.w.ctx
      if st ≠ 0 then .ok (s.setL x d (BitVec.ofNat 32 st))
      else
        let tail := s.queueTail q
        let slot := s.recordAddr q tail
        match s.deviceCase x.w.ctx true slot 256 with
        | 70 => .park
        | c =>
          let s1 := if c = 90 then s.writeVa (deviceView x.w.ctx) slot 256 n else s
          let s2 := s1.setQueueField q 24 8 (tail + 1).toNat
          let s3 := s2.setL x d 0
          .ok (if b = 255 then s3 else s3.setLPair x b tail)) x s) s

/-! ## fetchw (R323, R324) -/

/-- The mailbox's bytes lie in the weft's window (R60, R323). -/
def mailboxOk (s : State) (x : Iss) (off n : Nat) : Bool :=
  (List.range n).all fun k => (s.spot { (s.view x) with frame := none } (0xFFF * 2 ^ 52 + off + k)).caseOf false == 90

/-- The mailbox at a window offset of the issuing weft. -/
def mailboxAt (s : State) (x : Iss) (off : Nat) : Mailbox :=
  match s.teamOf x.l x.w with
  | some t => .team t.id off
  | none => .record x.l x.k off

/-- Write bytes of a mailbox, wherever its team is: placed, swapped out, or a record weft's loom (R249, R324). None while
the swap image's page is not resident. -/
def State.writeMailbox (s : State) (b : Mailbox) (off : Nat) (bs : List Byte) : Option State :=
  match b with
  | .gone => some s
  | .record l _ base => some (s.modLm l fun m => Memory.writeBytes m (base + off) bs)
  | .team id base =>
    match s.findTeam id with
    | some (l, h) =>
      (s.team? l h).map fun t => s.modLm l fun m => Memory.writeBytes m (t.shareBase + base + off) bs
    | none =>
      match (s.launches.flatMap (·.swapped)).find? fun v => v.team.id == id with
      | none => some s
      | some v =>
        let a := v.team.swap + BitVec.ofNat 64 (imageShare v.team.slots.length + base + off)
        match s.deviceCase v.team.ctx true a bs.length with
        | 70 => none
        | 90 => some (s.writeBytesVa (deviceView v.team.ctx) a bs)
        | _ => some s

def execFetchw (h : Guard) (a b c : Reg) (s : State) : Result :=
  issue (.fetchw h a b c) (macroBody fun x s =>
    let off := (x.w.lane c x.lane).toNat
    let va := BitVec.ofNat 64 (0xFFF * 2 ^ 52 + off)
    if (s.fetches.filter fun f => f.loom == x.l).length ≥ 16 then .hold
    else if off % 16 ≠ 0 then faultL x 0x08 va
    else if !mailboxOk s x off 16 then faultL x 0x09 va
    else
      let box := mailboxAt s x off
      match s.writeMailbox box 8 (leBytes 4 0) with
      | none => .hold
      | some s1 =>
        .ok { s1 with fetches := s1.fetches ++
          [{ loom := x.l, slot := x.k, ctx := x.w.ctx, queue := (x.w.lane b x.lane).toNat % 64,
             count := x.w.pair a x.lane, box := box }] }) s

/-- A taken launch of a queue. -/
def State.launch? (s : State) (q : Nat) (n : DWord) : Option Launch :=
  s.launches.find? fun x => x.queue == q && x.count == n.toNat

/-- The lowest unplaced team not withdrawn (R62, R324). -/
def Launch.unplaced (x : Launch) : Option Nat :=
  if x.refusal ≠ 0 then none
  else
    let r := x.returned.foldl (fun m n => match m with | none => some n | some k => some (min k n)) (none : Option Nat)
    match r with
    | some n => some (if x.next < x.total then min n x.next else n)
    | none => if x.next < x.total then some x.next else none

/-- Take an unplaced team out of a launch. -/
def Launch.takeTeam (x : Launch) (n : Nat) : Launch :=
  if x.returned.contains n then { x with returned := x.returned.filter (· != n) } else { x with next := n + 1 }

/-- Change one launch. -/
def State.modLaunch (s : State) (q n : Nat) (f : Launch → Launch) : State :=
  { s with launches := s.launches.map fun x => if x.queue = q ∧ x.count = n then f x else x }

/-- What a request is answered (R324). -/
inductive Answer where
  | team (n : Nat)
  | exhausted
  | refused
  | held
deriving DecidableEq, Repr

/-- What a request of a queue and a count is answered (R324). DESIGN CHOICE (log entry 33): a launch that was taken before its
queue stopped being enabled meets two rows of the table; the row of the taken launch is used, Team or Exhausted. -/
def State.fetchAnswer (s : State) (f : Fetch) : Answer :=
  if s.queueCtx f.queue ≠ f.ctx then .refused
  else
    match s.launch? f.queue f.count with
    | some x => match x.unplaced with | some n => .team n | none => .exhausted
    | none =>
      if !s.queueEn f.queue then .refused
      else if f.count.toNat < (s.queueHead f.queue).toNat then .exhausted
      else .held

/-- Coordinates of a linear index (R48). -/
def gridCoords (r : LaunchRec) (n : Nat) : Nat × Nat × Nat := (n % r.gx, n / r.gx % r.gy, n / r.gx / r.gy)

/-- The mailbox's 16 bytes (R323). -/
def answerBytes (r : Option LaunchRec) : Answer → List Byte
  | .team n =>
    let (x, y, z) := match r with | some r => gridCoords r n | none => (0, 0, 0)
    leBytes 8 (x % 2 ^ 20 + y % 2 ^ 20 * 2 ^ 20 + z % 2 ^ 20 * 2 ^ 40 + 2 ^ 60) ++ leBytes 8 1
  | .exhausted => leBytes 8 (2 * 2 ^ 60) ++ leBytes 8 1
  | _ => leBytes 8 (3 * 2 ^ 60) ++ leBytes 8 1

/-- Give a withdrawn team to the team, or the record weft, that withdrew it (R49, R324). -/
def State.giveTeam (s : State) (b : Mailbox) (id : TeamId) : State :=
  match b with
  | .gone => s
  | .record l k _ => s.modWeft l k fun w => { w with withdrawn := w.withdrawn ++ [id] }
  | .team t _ =>
    match s.findTeam t with
    | some (l, h) => s.modTeam l h fun q => { q with withdrawn := q.withdrawn ++ [id] }
    | none =>
      { s with launches := s.launches.map fun x =>
          { x with swapped := x.swapped.map fun v =>
              if v.team.id = t then { v with team := { v.team with withdrawn := v.team.withdrawn ++ [id] } } else v } }

/-- The distributor waits for nothing; what was left out of its choice by a drain is left out no longer (R426). -/
def State.drawOver (s : State) : State :=
  let s1 := { s with dist := { s.dist with waiting := none, preempting := none } }
  if s.looms.any fun p => p.2.teams.any fun t => t.2.drained then
    { s1 with looms := s1.looms.map fun (p : Nat × Loom) =>
        (p.1, { p.2 with teams := p.2.teams.map fun (t : Nat × Team) => (t.1, { t.2 with drained := false }) }) }
  else s1

/-- A team that the draw has chosen and not placed is withdrawn: the draw's choice is gone (R62, R324; log entry 33). -/
def State.withdrawPick (s : State) (id : TeamId) : State := if s.dist.waiting = some (.fresh id) then s.drawOver else s

/-- FETCHW_ANSWER: the distributor answers request i, if no earlier one can be answered (R324). -/
def execFetchwAnswer (i : Nat) (s : State) : Result :=
  match s.fetches[i]? with
  | none => .next s
  | some f =>
    let ans := s.fetchAnswer f
    if ans = .held ∨ (s.fetches.take i).any fun g => s.fetchAnswer g != .held then .next s
    else
      match s.writeMailbox f.box 0 (answerBytes ((s.launch? f.queue f.count).map (·.lrec)) ans) with
      | none => .next s
      | some s1 =>
        let s2 := { s1 with fetches := s1.fetches.eraseIdx i }
        match ans with
        | .team n =>
          let id : TeamId := { queue := f.queue, count := f.count.toNat, n := n }
          .next (((s2.modLaunch f.queue f.count.toNat fun x => x.takeTeam n).giveTeam f.box id).withdrawPick id)
        | _ => .next s2

/-! ## Continuation records (R59, R60, R325 to R328) -/

/-- A continuation record's fields (R59). -/
structure ContRec where
  code : DWord
  frame : DWord
  join : Word
  loom : Nat
  anyloom : Bool
  responder : Bool
  allot : Nat
  link : DWord
deriving DecidableEq, Repr

def ContRec.ofBits (n : Nat) : ContRec :=
  let r := BitVec.ofNat 256 n
  { code := bd r 0, frame := bd r 64, join := BitVec.ofNat 32 (bf r 159 128), loom := bf r 167 160, anyloom := r.getLsbD 168,
    responder := r.getLsbD 169, allot := bf r 183 176, link := bd r 192 }

/-- Check() of R325 fails. -/
def ContRec.bad (r : ContRec) : Bool := !allotOk r.allot || (r.loom > 191 && !r.anyloom)

/-- A context's queue block fields (R327). -/
def State.qblockNum (s : State) (ctx off n : Nat) : Nat :=
  match s.context? ctx with
  | none => 0
  | some c => s.readVa (deviceView ctx) (c.qblock + BitVec.ofNat 64 off) n
def State.setQblock (s : State) (ctx off n v : Nat) : State :=
  match s.context? ctx with
  | none => s
  | some c => s.writeDev (deviceView ctx) (c.qblock + BitVec.ofNat 64 off) n v
/-- Entries in use, capacity, and the address of an entry of a context's overflow ring. -/
def State.ringUsed (s : State) (ctx : Nat) : Nat := s.qblockNum ctx 12 4
def State.ringCap (s : State) (ctx : Nat) : Nat := 2 ^ (s.qblockNum ctx 8 1 % 32)
def State.ringPlace (s : State) (ctx i : Nat) : DWord := BitVec.ofNat 64 (s.qblockNum ctx 0 8 + 8 * i)
def State.ringEntry (s : State) (ctx i : Nat) : DWord := BitVec.ofNat 64 (s.readVa (deviceView ctx) (s.ringPlace ctx i) 8)

/-- Take entry i out of an overflow ring: the later ones move down (log entry 33). -/
def State.ringTake (s : State) (ctx i : Nat) : State :=
  let n := s.ringUsed ctx
  let s1 := ((List.range (n - 1)).filter (i ≤ ·)).foldl (fun s j =>
    s.writeVa (deviceView ctx) (s.ringPlace ctx j) 8 (s.ringEntry ctx (j + 1)).toNat) s
  s1.setQblock ctx 12 4 (n - 1)

/-- Enqueue a record's address (R326): none while the ring is full or its page cannot be written. -/
def State.enqueue (s : State) (ctx loom : Nat) (anyloom : Bool) (addr : DWord) : Option State :=
  if !anyloom ∧ (s.loom loom).ready.length < 64 then
    some (s.modLoom loom fun x => { x with ready := x.ready ++ [(ctx, addr)] })
  else
    let n := s.ringUsed ctx
    if n ≥ s.ringCap ctx ∨ s.deviceCase ctx true (s.ringPlace ctx n) 8 ≠ 90 then none
    else some ((s.writeVa (deviceView ctx) (s.ringPlace ctx n) 8 addr.toNat).setQblock ctx 12 4 (n + 1))

/-- The next link stamp (R325; log entry 10): not zero. -/
def State.stamp (s : State) : DWord := if Config.stamp s.fresh = 0 then 1 else Config.stamp s.fresh
def State.tick1 (s : State) : State := { s with fresh := s.fresh + 1 }

/-- Queue a record whose check has passed: its link, then its place, or the wait for one (R325, R326). -/
def queueRecord (x : Iss) (v : View) (d : Reg) (addr : DWord) (r : ContRec) (val : Word) (s : State) : Effect :=
  let s1 := (s.writeVa v (addr + 24) 8 s.stamp.toNat).tick1
  match s1.enqueue x.w.ctx r.loom r.anyloom addr with
  | some s2 => .ok (s2.setL x d val)
  | none => .waits (s1.modWeft x.l x.k fun w => { w with wait := .enqueue x.pc d x.lane val addr })

/-- The shared body of spawn and join: the record, aligned, under R254 as a load and a store. -/
def contBody (a : Reg) (eff : View → DWord → ContRec → Iss → State → Effect) : Iss → State → Effect :=
  macroBody fun x s =>
    let addr := x.w.pair a x.lane
    if addr.toNat % 32 ≠ 0 then faultL x 0x08 addr
    else
      accessBody true true false (fun x => [{ lane := x.lane, va := addr, len := 32 }])
        (fun v x s => eff v addr (ContRec.ofBits (s.readVa v addr 32)) x (s.sideEffect x.l x.w)) x s

def execSpawn (h : Guard) (d a : Reg) (s : State) : Result :=
  issue (.spawn h d a) (contBody a fun v addr r x s =>
    if r.link ≠ 0 then faultL x 0x18
    else if r.join ≠ 0 then .ok (s.setL x d 1)
    else if r.bad then faultL x 0x18
    else queueRecord x v d addr r 0 s) s

def execJoin (h : Guard) (d a : Reg) (s : State) : Result :=
  issue (.join h d a) (contBody a fun v addr r x s =>
    if r.join = 0 then .ok (s.setL x d 0xFFFFFFFF)
    else
      let j := r.join - 1
      let s1 := s.writeVa v (addr + 16) 4 j.toNat
      if j ≠ 0 then .ok (s1.setL x d j)
      else if r.bad then .trapIn s1 { cause := 0x18, lane := some x.lane }
      else queueRecord x v d addr r j s1) s

/-- CONTINUATION_ENQUEUE: a weft that waits in spawn or join places its record (R325, R326). -/
def execContinuationEnqueue (l k : Nat) (s : State) : Result :=
  match s.weft? l k with
  | none => .next s
  | some w =>
    match w.wait with
    | .enqueue pc d lane val addr =>
      let r := ContRec.ofBits (s.readVa (s.viewOf l w) addr 32)
      match s.enqueue w.ctx r.loom r.anyloom addr with
      | none => .next s
      | some s1 => .next (s1.finishWait l k pc d (BitVec.ofNat 32 (2 ^ lane)) 0 (some fun _ => val))
    | _ => .next s

/-- The view through which a loom reads a record: its context, and the whole loom memory (R60). -/
def recordView (l ctx : Nat) : View := { loom := l, ctx := ctx, agent := .core l, share := none, frame := none }

/-- A record that can be read now (R326). -/
def State.recordReadable (s : State) (l ctx : Nat) (a : DWord) : Bool :=
  let v := recordView l ctx
  let c : Acc := { lane := 0, va := a, len := 32 }
  (s.accCase v true c).1 == 90 && !(s.spots v c).any (s.readError l)

/-- The next record that a loom takes: from its ready queue, or from a context's ring, with its place there (R326). -/
inductive NextRec where
  | ready (i ctx : Nat) (a : DWord)
  | ring (i ctx : Nat) (a : DWord)
deriving DecidableEq, Repr

/-- The contexts that are served, in order of their numbers. -/
def State.contextNums (s : State) : List Nat := (s.contexts.filter (·.2.served)).map (·.1)

/-- The contexts as a loom looks at their overflow rings: by ascending number after the one from whose ring it last took a
record, round. DESIGN CHOICE (log entry 33): the manual gives no order among the rings of several contexts (R61), and promises
that every ready record runs (R65). -/
def State.ringOrder (s : State) (l : Nat) : List Nat :=
  let last := (s.loom l).ringCtx
  s.contextNums.filter (last < ·) ++ s.contextNums.filter (· ≤ last)

/-- The record that a loom takes next (R326). -/
def State.nextRecord (s : State) (l : Nat) : Option NextRec :=
  match ((s.loom l).ready.zipIdx).find? fun p => s.serves p.1.1 && s.recordReadable l p.1.1 p.1.2 with
  | some (p, i) => some (.ready i p.1 p.2)
  | none =>
    (s.ringOrder l).findSome? fun c =>
      ((List.range (s.ringUsed c)).find? fun i =>
        let a := s.ringEntry c i
        s.recordReadable l c a
          && (let r := ContRec.ofBits (s.readVa (recordView l c) a 32); r.anyloom || r.loom == l)).map fun i =>
        .ring i c (s.ringEntry c i)

/-- A new weft (R35, R66, R77, R394). -/
def newWeft (ctx : Nat) (team : Option Nat) (num : Nat) (role : Role) (allot : Nat) (pc : DWord) (spill : Nat) : Weft :=
  { ctx := ctx, team := team, num := num, role := role, sv := false, allot := allot, regs := [], poison := [], soft := [],
    fmts := [], fpx := 0, held := [{ pc := pc, mask := 0xFFFFFFFF, prio := 4095, age := 0 }], spilled := [],
    spillBase := spill, oc := {}, frame := none, frameLanes := 0, trap := none, replay := [], faulted := [], wait := .none,
    port := none, yielded := none, deferred := [], responder := none, withdrawn := [], ended := none, invs := [],
    recQ := [] }

/-- The record weft that a record starts (R60): v0:v1 hold frame in every lane. DESIGN CHOICE (log entry 33): a record whose
allot was changed after its check (R325) to a value that R51 does not allow is read as it stands, and its weft has that many
registers; the manual says only that the bytes are read so. -/
def ContRec.weft (r : ContRec) (ctx spill : Nat) (resp : Option Responder) : Weft :=
  { ((newWeft ctx none 0 .vector r.allot (pairTarget r.code) spill).writePairs 0xFFFFFFFF 0 fun _ => r.frame) with
    responder := resp }

/-- A loom can start a record weft in a slot (R60). -/
def State.recordFits (s : State) (l k allot : Nat) : Option Nat :=
  if k < Config.weftSlots ∧ (s.weft? l k).isNone ∧ (s.loom l).freeBlocks ≥ blocksOf allot then
    findRun (s.loom l).runs 256
  else none

/-- The responder that a record of a loom's board starts: the spawn of its context whose area it is, which then is no longer
held (R384, R385). -/
def State.responderOf (s : State) (l ctx : Nat) (a : DWord) : Option Spawn :=
  (s.loom l).spawns.find? fun p => p.ctx == ctx && p.queued == some a

/-- RECORD_TAKE: a loom takes the next record into a free slot (R60, R326). A responder's record starts the responder of
the spawn that wrote it (R385). -/
def execRecordTake (l k : Nat) (s : State) : Result :=
  match s.nextRecord l with
  | none => .next s
  | some nr =>
    let (ctx, a) := match nr with | .ready _ c a => (c, a) | .ring _ c a => (c, a)
    let v := recordView l ctx
    let r := ContRec.ofBits (s.readVa v a 32)
    match s.recordFits l k r.allot with
    | none => .next s
    | some spill =>
      let s1 := match nr with
        | .ready i _ _ => s.modLoom l fun x => { x with ready := x.ready.eraseIdx i }
        | .ring i c _ => (s.ringTake c i).modLoom l fun x => { x with ringCtx := c }
      let sp := if r.responder then s1.responderOf l ctx a else none
      let resp : Option Responder := sp.map fun p =>
        { node := p.node, census := p.census, entry := p.entry, serial := p.serial, value := none, flagged := p.flagged }
      let s2 := (s1.writeVa v (a + 24) 8 0).modLoom l fun x =>
        { x with spawns := x.spawns.filter fun p => some p != sp }
      .next (((s2.dropL1 l).setWeft l k (r.weft ctx spill resp)).countLoom l 0x0F ctx 1)

/-! ## Stage rings (R331 to R333) -/

/-- The issuing team's ring g, and stage, where both exist. -/
def State.ringOf (s : State) (x : Iss) (g : Nat) : Option (List Stage) :=
  (s.teamOf x.l x.w).bind fun t => t.rings[g]?

def execRingInit (h : Guard) (g : BitVec 8) (a : Reg) (s : State) : Result :=
  issue (.ringInit h g a) (macroBody fun x s =>
    let e := (x.w.lane a x.lane).toNat % 65536
    match s.ringOf x g.toNat with
    | none => faultL x 0x17
    | some _ =>
      if e = 0 then faultL x 0x17
      else .ok (s.modOwnTeam x fun t =>
        { t with rings := modAt t.rings g.toNat fun r => r.map fun _ => ⟨false, 0, e⟩ })) s

/-- The operations of a class that a weft has issued and that have neither retired nor been dropped (R332). -/
def State.liveOps (s : State) (l k : Nat) (w : Weft) (c : OcClass) : List Nat :=
  (((s.loom l).queue c).filter fun o => o.slot == k).map (·.id)
    ++ (w.stopped.filter fun o => o.cls == c).map (·.id)

def execRingSig (h : Guard) (g : BitVec 8) (b : Reg) (cls : Option OcClass) (s : State) : Result :=
  issue (.ringSig h g b cls) (macroBody fun x s =>
    let st := (x.w.lane b x.lane).toNat
    match s.ringOf x g.toNat with
    | none => faultL x 0x17
    | some r =>
      if st ≥ r.length then faultL x 0x17
      else
        let ops := match cls with | none => [] | some c => s.liveOps x.l x.k x.w c
        if ops.isEmpty then .ok (s.modOwnTeam x fun t => t.ringArrive g.toNat st)
        else
          .ok (s.modWeft x.l x.k fun w =>
            { w with deferred := w.deferred ++ [{ cls := cls.getD .copy, ops := ops, g := g.toNat, stage := st }] })) s

def execRingWait (h : Guard) (g : BitVec 8) (b a : Reg) (s : State) : Result :=
  issue (.ringWait h g b a) (macroBody fun x s =>
    let st := (x.w.lane b x.lane).toNat
    let ph := (x.w.lane a x.lane).getLsbD 0
    match s.ringOf x g.toNat with
    | none => faultL x 0x17
    | some r =>
      match r[st]? with
      | none => faultL x 0x17
      | some e =>
        if e.phase = ph then .ok s
        else .waits (s.modWeft x.l x.k fun w => { w with wait := .ring x.pc g.toNat st ph })) s

/-! ## Messages (R334 to R337) -/

/-- The quotas of a loom's open ports. -/
def Loom.quotas (x : Loom) : Nat := x.wefts.foldl (fun n p => n + ((p.2.port.map (·.quota)).getD 0)) 0

def execMsgmap (h : Guard) (d s r hd : Reg) (q : BitVec 8) (st : State) : Result :=
  issue (.msgmap h d s r hd q) (macroBody fun x st =>
    if x.w.outOfRange s || x.w.outOfRange r || x.w.outOfRange hd then .trap { cause := 0x02 }
    else if (st.pending x.l x.k).any fun p => p == s || p == r then .hold
    else if x.w.port.isSome then .ok (st.setL x d 2)
    else if (st.loom x.l).quotas + q.toNat > 64 then .ok (st.setL x d 1)
    else
      .ok ((st.setL x d 0).modWeft x.l x.k fun w =>
        { w with port := some { s := s, r := r, h := hd, quota := q.toNat, flits := [] } })) st

def execMsgunmap (h : Guard) (d : Reg) (s : State) : Result :=
  issue (.msgunmap h d) (macroBody fun x s =>
    match x.w.port with
    | none => .ok (s.setL x d 0)
    | some p => .ok ((s.closePort x.l x.k).setL x d (BitVec.ofNat 32 p.flits.length))) s

/-- MESSAGE_SEND: a flit that waits for room, of an instruction that has issued, is accepted, or refused because its port has
closed (R335, R336). The flit of an instruction that has not issued goes with its issue. -/
def execMessageSend (l k : Nat) (s : State) : Result :=
  match s.weft? l k with
  | none => .next s
  | some w =>
    match w.wait with
    | .send pc header act flit =>
      let lane := lowestLane act
      match s.portOf w.ctx header with
      | none =>
        .next ((s.modWeft l k fun w => { w with wait := .none }).raise l k pc lane { cause := 0x19, lane := some lane })
      | some (tl, tk, tp) =>
        if tp.flits.length ≥ tp.quota then .next s
        else
          let s1 := s.modWeft l k fun w => { w.finish pc with wait := .none }
          .next ((s1.sideEffect l w).sendFlit l tl tk flit)
    | _ => .next s

end Sys2Proof.Machine
end

