-- ==== Sys2Proof/Machine/Tables.lean ====
section
/-! DEFINITION. Heddles (13_tables.md R341 to R347), the decode table (R348 to R351), rec.chk (R358), tlbinv, tlbsync and
the end of an invalidation (R361 to R364). -/

namespace Sys2Proof.Machine

/-! ## Arrivals at a heddle (R342, R343) -/

/-- An arrival: the operation with its sub field and definition, the weft's contribution, and hbcast's source words. -/
structure Arrival where
  op : HedOp
  sub : Nat
  def_ : DWord
  val : Option DWord
  src : Option (List Word)

/-- The phase refuses an arrival (R342, R343). -/
def Heddle.refuses (e : Heddle) (a : Arrival) : Bool :=
  (e.op != .none && (e.op != a.op || (a.op != .hbcast && (e.sub != a.sub || e.def_ != a.def_))))
    || (a.src.isSome && e.source.isSome)

/-- The entry with one more arrival, of weft number `n` in slot `k`. -/
def Heddle.arrive (e : Heddle) (k n : Nat) (a : Arrival) : Heddle :=
  { e with
    op := a.op, def_ := a.def_,
    sub := if a.op = .hbcast then (if a.src.isSome || e.source.isSome then 1 else 0) else a.sub,
    vals := match a.val with | none => e.vals | some v => SMap.put e.vals n v,
    source := match a.src with | none => e.source | some ws => some (n, ws),
    acnt := e.acnt + 1, arrived := e.arrived ++ [k] }

/-- A phase of one weft: the heddle 0 of a continuation-record weft, which is itself alone (R60). -/
def soloHeddle (k : Nat) : Heddle :=
  { mask := [k], team := 0, num := 0, acnt := 0, phase := false, op := .none, sub := 0, def_ := 0, vals := [],
    source := none, arrived := [] }

/-- The arrival of an issue at heddle `hd`, with result register `d` (R342). -/
def heddleBody (hd : BitVec 8) (d : Reg) (arr : Iss → Arrival) : Iss → State → Effect :=
  macroBody fun x s =>
    let a := arr x
    match x.w.team with
    | none =>
      if hd ≠ 0 then faultL x 0x16
      else
        match heddleResult ((soloHeddle x.k).arrive x.k 0 a) with
        | none => .ok s
        | some f => .ok (s.modWeft x.l x.k fun w => w.writeLanes x.act d f)
    | some h =>
      match (s.loom x.l).heddleOf h hd.toNat with
      | none => faultL x 0x16
      | some (key, e) =>
        if !e.mask.contains x.k || e.refuses a then faultL x 0x16
        else
          let e' := e.arrive x.k x.w.num a
          let s1 := (s.modLoom x.l fun y => { y with heddles := SMap.put y.heddles key e' }).modWeft x.l x.k fun w =>
            { (w.issued x.pc) with wait := .heddle x.pc hd.toNat d x.act x.lane }
          .waits (if e'.acnt = e'.mask.length then s1.completePhase x.l key else s1)

def execHbar (h : Guard) (hd : BitVec 8) (s : State) : Result :=
  issue (.hbar h hd) (heddleBody hd 255 fun _ => { op := .hbar, sub := 0, def_ := 0, val := none, src := none }) s

/-- The sub field of a vote (R341, R371). -/
def hvoteSub : HvoteMode → Nat
  | .any => 0 | .all => 1 | .cnt => 2

def execHvote (h : Guard) (m : HvoteMode) (d a : Reg) (hd : BitVec 8) (s : State) : Result :=
  issue (.hvote h m d a hd) (heddleBody hd d fun x =>
    { op := .hvote, sub := hvoteSub m, def_ := 0, src := none,
      val := some (x.act ++ (x.act &&& maskOf fun i => (x.w.lane a i).getLsbD 0)) }) s

/-- The sub field of a reduction (R343). -/
def hredSub : HredOp → Nat
  | .sum => 0 | .min => 1 | .max => 2 | .iadd => 3 | .and => 4 | .or => 5 | .xor => 6

/-- hred (R343). DESIGN CHOICE (log entry 34): an arrival that is a format fault and a heddle fault takes the format fault 0x07,
the lower cause, since the entry does not order the two. -/
def execHred (h : Guard) (op : HredOp) (n : BitVec 4) (d a : Reg) (hd : BitVec 8) (s : State) : Result :=
  issue (.hred h op n d a hd) (macroBody fun x s =>
    let f := Fmt.ofDef (x.w.fmt n)
    if hredSub op ≤ 2 && !(f.isFloat || f.isInt) then .trap { cause := 0x07 }
    else
      heddleBody hd d (fun x =>
        { op := .hred, sub := hredSub op, def_ := if hredSub op ≤ 2 then x.w.fmt n else 0, src := none,
          val := some ((if hredSub op ≤ 2 then (BitVec.ofNat 32 ((x.w.lane a x.lane).toNat % 2 ^ f.width)) else
            x.w.lane a x.lane).setWidth 64) }) x s) s

def execHbcast (h : Guard) (src : Bool) (d a : Reg) (hd : BitVec 8) (s : State) : Result :=
  issue (.hbcast h src d a hd) (heddleBody hd d fun x =>
    { op := .hbcast, sub := 0, def_ := 0, val := none,
      src := if src then some ((List.range 32).map fun i => if x.act.getLsbD i then x.w.lane a i else 0) else none }) s

/-! ## hset (R345) -/

/-- The slots of the live wefts that a pair names. -/
def State.setSlots (s : State) (l h : Nat) (set : DWord) : List Nat :=
  ((s.liveWefts l h).filter fun p => p.2.ended.isNone && set.getLsbD p.2.num).map (·.1)

/-- hset's write of the mask: heddle `hd` of a team has the live wefts named. -/
def State.commitSet (s : State) (l h hd : Nat) (set : DWord) : State :=
  match (s.loom l).heddleOf h hd with
  | none => s
  | some (key, e) =>
    let e' := { e with mask := s.setSlots l h set }
    s.modLoom l fun y => { y with heddles := SMap.put y.heddles key e' }

/-- Heddles other than 0 and `hd` of a team that a slot belongs to. -/
def Loom.otherHeddles (x : Loom) (h hd k : Nat) : Nat :=
  (x.heddles.filter fun p => p.2.team == h && p.2.num != 0 && p.2.num != hd && p.2.mask.contains k).length

def execHset (h : Guard) (hd : BitVec 8) (a : Reg) (s : State) : Result :=
  issue (.hset h hd a) (macroBody fun x s =>
    let set := x.w.pair a x.lane
    match x.w.team with
    | none => faultL x 0x16
    | some t =>
      match (s.loom x.l).heddleOf t hd.toNat with
      | none => faultL x 0x16
      | some (_, e) =>
        let ks := s.setSlots x.l t set
        if hd = 0 || set = 0 || ks.length != ((List.range 64).filter fun n => set.getLsbD n).length
            || ks.any fun k => (s.loom x.l).otherHeddles t hd.toNat k ≥ 4 then faultL x 0x16
        else if e.acnt = 0 then .ok (s.commitSet x.l t hd.toNat set)
        else .waits (s.modWeft x.l x.k fun w => { w with wait := .hset x.pc hd.toNat set })) s

/-- HSET_COMMIT: a waiting hset writes the mask once no arrival is pending (R345). -/
def execHsetCommit (l k : Nat) (s : State) : Result :=
  match s.weft? l k with
  | none => .next s
  | some w =>
    match w.wait, w.team with
    | .hset pc hd set, some t =>
      (match (s.loom l).heddleOf t hd with
        | none => .next s
        | some (_, e) =>
          if e.acnt ≠ 0 then .next s
          else .next ((s.commitSet l t hd set).finishWait l k pc 255 0 0 none))
    | _, _ => .next s

/-! ## The decode table (R348 to R351) -/

/-- The entries of a 1,536-byte image, in order: none where one is malformed. -/
def imageEntries (bytes : List Byte) : List (Option DecEntry) :=
  (List.range 768).map fun o => DecEntry.ofBits (BitVec.ofNat 16 (leValue ((bytes.drop (2 * o)).take 2)))

/-- A decode table with entries 0x000 to 0x2FF replaced: entries of R105's creation rule are not listed. -/
def decodeOf (es : List DecEntry) : List (Nat × DecEntry) :=
  (es.zipIdx.filter fun p => p.1 != DecEntry.default p.2).map fun p => (p.2, p.1)

/-- Write a context's decode table, and its bytes in HBM (R348). -/
def State.setDecode (s : State) (ctx : Nat) (es : List DecEntry) : State :=
  match s.context? ctx with
  | none => s
  | some c =>
    let s1 := { s with contexts := SMap.put s.contexts ctx { c with decode := decodeOf es } }
    s1.modMem fun m =>
      { m with hbm := Memory.writeBytes m.hbm c.dtab.toNat (es.flatMap fun e => leBytes 2 e.toBits.toNat) }

def execDtload (h : Guard) (d a : Reg) (s : State) : Result :=
  issue (.dtload h d a) (macroBody fun x s =>
    let addr := x.w.pair a x.lane
    loadL addr 1536 64 (fun n s =>
      let es := imageEntries (leBytes 1536 n)
      let s := s.sideEffect x.l x.w
      match es.findIdx? Option.isNone with
      | some o => .ok (s.setL x d (0x80000000 + BitVec.ofNat 32 o))
      | none => .ok ((s.setDecode x.w.ctx (es.filterMap id)).setL x d 0)) x s) s

def execDtread (h : Guard) (d a : Reg) (s : State) : Result :=
  issue (.dtread h d a) (fun x s =>
    regBody d (fun w _ i =>
      match s.context? w.ctx with
      | none => 0
      | some c => (c.decEntry ((w.lane a i).toNat % 1024)).toBits.setWidth 32) x s) s

/-! ## rec.chk (R358) -/

def execRecChk (h : Guard) (d a : Reg) (s : State) : Result :=
  issue (.recChk h d a) (macroBody fun x s =>
    loadRecord (x.w.pair a x.lane) (fun r s =>
      let t := Tensor.ofBits r
      loadIndex t (fun i s =>
        .ok (s.setL x d (BitVec.ofNat 32 (t.code (Tensor.ofBits i) (x.w.recordDef i))))) x s) x s) s

/-! ## tlbinv and tlbsync (R361 to R364) -/

/-- The bytes that an invalidation's operands name, as first and last address: none for .ctx and for a count of 0. -/
def Inv.bounds (v : Inv) : Option (Nat × Nat) :=
  let lo := v.va.toNat / 2 ^ 19 * 2 ^ 19
  match v.mode with
  | .page => some (v.va.toNat, v.va.toNat)
  | .range => if v.count = 0 then none else some (lo, lo + v.count.toNat * 2 ^ 19 - 1)
  | .ctx => none

/-- A TLB entry that an invalidation names (R362). -/
def Inv.names (v : Inv) (e : Tlb) : Bool :=
  e.ctx == v.ctx
    && (v.mode == .ctx || !pteLeaf e.pte
      || (match v.bounds with
          | none => false
          | some (lo, hi) =>
            let b := e.tag * 2 ^ levelShift e.level
            b ≤ hi && lo < b + 2 ^ levelShift e.level))

/-- Every TLB of the package (R361). -/
def State.tlbAgents (s : State) : List TlbAgent :=
  s.looms.flatMap (fun (p : Nat × Loom) => [TlbAgent.core p.1, .copy p.1])
    ++ s.fabric.tlb.map fun (p : Nat × List Tlb) => TlbAgent.gateway p.1

/-- First and last address of each stretch whose lines an invalidation drops (R362): the pages of the named leaves and the
512 KiB pages of its operands. -/
def State.invStretches (s : State) (v : Inv) : List (Nat × Nat) :=
  let leaves := (s.tlbAgents.flatMap s.tlb).filter fun e => v.names e && pteLeaf e.pte
  let own := match v.bounds with
    | none => []
    | some (lo, hi) => [(lo / 2 ^ 19 * 2 ^ 19, hi / 2 ^ 19 * 2 ^ 19 + 2 ^ 19 - 1)]
  own ++ leaves.map fun e => (e.tag * 2 ^ levelShift e.level, (e.tag + 1) * 2 ^ levelShift e.level - 1)

/-- The effect of an invalidation: named TLB entries and the lines of the named pages go (R363). -/
def State.invalidate (s : State) (v : Inv) : State :=
  let st := s.invStretches v
  let inside (a : Nat) : Bool := st.any fun p => p.1 ≤ a && a ≤ p.2
  let s1 := s.tlbAgents.foldl (fun s ag => s.setTlb ag ((s.tlb ag).filter fun e => !v.names e)) s
  { s1 with looms := s1.looms.map fun p =>
      (p.1, { p.2 with
        l1 := p.2.l1.filter fun q => !(q.1 == v.ctx && inside (q.2 * 128)),
        icache := p.2.icache.filter fun q => !(q.ctx == v.ctx && inside (q.line * lineBytes)),
        ifills := p.2.ifills.filter fun q => !(q.1 == v.ctx && inside (q.2 * lineBytes)) }) }

/-- An invalidation waits for what has still to be performed through its context's old mappings: writes at a controller, and the
parts of bank commands (R363). -/
def State.invWaits (s : State) (v : Inv) : Bool :=
  (s.looms.any fun p => p.2.bankQ.any fun o => o.ctx == v.ctx && !o.parts.isEmpty)
    || s.mem.merges.any fun m => (m.kind == .part || m.kind == .whole) && ((s.loom m.loom).copyQ.any fun o => o.id == m.op && o.ctx == v.ctx)

/-- TLBINV_COMPLETE: invalidation i completes (R363). -/
def execTlbinvComplete (i : Nat) (s : State) : Result :=
  match s.invs[i]? with
  | none => .next s
  | some v =>
    if s.invWaits v then .next s
    else
      let s1 := s.invalidate v
      let done (ws : List (Nat × Weft)) : List (Nat × Weft) :=
        ws.map fun (q : Nat × Weft) => (q.1, { q.2 with invs := q.2.invs.filter (· != v.id) })
      let s2 := { s1 with
        invs := s1.invs.eraseIdx i,
        looms := s1.looms.map fun (p : Nat × Loom) => (p.1, { p.2 with wefts := done p.2.wefts }),
        -- of a team that is saved meanwhile too
        launches := s1.launches.map fun (x : Launch) =>
          { x with swapped := x.swapped.map fun (y : Saved) => { y with wefts := done y.wefts } } }
      .next { s2 with mgmt := { s2.mgmt with invBusy := s2.mgmt.invBusy.filter (· != v.id) } }

def execTlbinv (h : Guard) (m : TlbMode) (a b : Reg) (s : State) : Result :=
  issue (.tlbinv h m a b) (macroBody fun x s =>
    let v : Inv := { id := s.fresh, ctx := x.w.ctx, mode := m,
                     va := if m = .ctx then 0 else x.w.pair a x.lane, count := if m = .range then x.w.lane b x.lane else 0 }
    .ok (({ s with invs := s.invs ++ [v], fresh := s.fresh + 1 }.modWeft x.l x.k fun w =>
      { w with invs := w.invs ++ [v.id] }).sideEffect x.l x.w)) s

def execTlbsync (h : Guard) (s : State) : Result :=
  issue (.tlbsync h) (macroBody fun x s => if x.w.invs.isEmpty then .ok (s.dropL1 x.l) else .hold) s

/-- The agent is one of the package's (R13, R361). -/
def agentOk : TlbAgent → Bool
  | .core l | .copy l => l < Config.looms
  | .gateway d => d < 4

/-- TLB_FILL_AHEAD: a TLB walks and fills ahead of any access (R361). -/
def execTlbFillAhead (ag : TlbAgent) (ctx : BitVec 16) (va : DWord) (s : State) : Result :=
  .next (if agentOk ag && va.toNat < 2 ^ 52 then s.fillTlb ag ctx.toNat va.toNat else s)

end Sys2Proof.Machine
end

