-- ==== Sys2Proof/Machine/Packets.lean ====
section
/-! DEFINITION. Fabric packets: their header (17 R448, R449), their routes (13 R368, R369), and the packing of packets into
flits with credits, sequence numbers and the CRC (17 R437 to R440, R450). -/

namespace Sys2Proof.Machine

/-! ## Packets (R448, R449) -/

/-- The packet is of the response pools (R449). -/
def Packet.isResponse (p : Packet) : Bool := [2, 4, 5, 6, 8, 10].contains p.op

/-- Data slots: those of its bytes (R449). -/
def Packet.slots (p : Packet) : Nat := 3 + (p.data.length + 15) / 16

/-- The code of its channel's pool (R437). -/
def Packet.pool (p : Packet) : Nat := p.vc % 4 + (if p.isResponse then 4 else 0)

/-- The three header slots. `thi` stands in bits [355:328], which are zero in every packet that does not need it (R276, R448;
log entry 36). -/
def Packet.header (p : Packet) : List Byte :=
  leBytes 48 (p.op % 16 + 16 * (p.vc % 4) + 2 ^ 6 * (p.dst % 4096) + 2 ^ 18 * (p.src % 4096) + 2 ^ 30 * (p.hops % 64)
    + 2 ^ 36 * (p.ctx % 65536) + 2 ^ 52 * (p.len % 256) + (if p.cnt then 2 ^ 60 else 0) + 2 ^ 64 * p.addr.toNat
    + 2 ^ 128 * p.ctr.toNat + 2 ^ 192 * p.launch.toNat + 2 ^ 256 * (p.loom % 256) + 2 ^ 264 * p.tag.toNat
    + 2 ^ 288 * (p.unit % 2 ^ 32) + 2 ^ 320 * (p.sub % 16) + 2 ^ 324 * (p.cause % 16) + 2 ^ 328 * (p.thi % 2 ^ 28))

/-- The header's fields, without data. -/
def Packet.ofHeader (b : List Byte) : Packet :=
  let x := BitVec.ofNat 384 (leValue b)
  { op := bf x 3 0, vc := bf x 5 4, dst := bf x 17 6, src := bf x 29 18, hops := bf x 35 30, ctx := bf x 51 36,
    len := bf x 59 52, cnt := x.getLsbD 60, addr := bd x 64, ctr := bd x 128, launch := bd x 192, loom := bf x 263 256,
    tag := x.extractLsb' 264 24, unit := bf x 319 288, sub := bf x 323 320, cause := bf x 327 324, thi := bf x 355 328,
    data := [] }

/-- Data slots that a header announces: by op, and by its len (R449). -/
def Packet.dataSlots (p : Packet) : Nat :=
  match p.op with
  | 0 | 2 => (p.len + 15) / 16
  | 3 => if p.sub = 10 then 2 else 1
  | 4 | 10 => 1
  | 7 => 1 + (p.len + 15) / 16
  | 9 => 2
  | _ => 0

/-- Bytes to whole slots. -/
def padSlots (b : List Byte) : List Byte := b ++ List.replicate ((16 - b.length % 16) % 16) 0

/-! ## Routes (R368, R369) -/

def State.modFabric (s : State) (f : Fabric → Fabric) : State := { s with fabric := f s.fabric }
def State.port (s : State) (p : Nat) : FabPort := SMap.getD s.fabric.ports p FabPort.reset

/-- The port by which packets to a node leave; none: the node is absent, or its port is, since it has retired (R32). -/
def State.routePort (s : State) (n : Nat) : Option Nat :=
  let e := SMap.getD s.fabric.route n 0
  let p := (e.extractLsb' 0 7).toNat
  if e.getLsbD 15 && p < Config.ports && (s.port p).state != .retired then some p else none
def State.setPort (s : State) (p : Nat) (x : FabPort) : State :=
  s.modFabric fun f => { f with ports := SMap.put f.ports p x }
def State.modPort (s : State) (p : Nat) (g : FabPort → FabPort) : State := s.setPort p (g (s.port p))

/-- A packet for this package reaches it. -/
def State.deliver (s : State) (p : Packet) : State := s.modFabric fun f => { f with inbound := f.inbound ++ [p] }

/-- The refusal of a packet's unit, to the unit's source: a request's sender, a response's destination (R276, R368, R447,
R449). -/
def Packet.refusal (p : Packet) (cause : Nat) : Packet :=
  { p with op := 6, dst := if p.isResponse then p.dst else p.src, src := if p.isResponse then p.src else p.dst, hops := 0,
           len := 0, cnt := false, cause := cause, data := [], via := none }

/-- Put a packet on its way: delivered here, held for a route change, queued at its port, or, where the node is absent or
the packet would make its 64th hop, none. -/
def State.forward (s : State) (p : Packet) : Option State :=
  if p.dst = s.node.toNat then some (s.deliver p)
  else if s.fabric.changes.any fun c => c.node == p.dst && c.vc == p.vc then
    some (s.modFabric fun f => { f with waiting := f.waiting ++ [p] })
  else if p.hops ≥ 63 then none
  else
    match s.routePort p.dst with
    | none => none
    | some port => some (s.modPort port fun x => { x with queue := x.queue ++ [{ p with hops := p.hops + 1 }] })

/-- Refuse a packet's unit at its source, where a route leads there (R276, R368, R447). -/
def State.refuse (s : State) (p : Packet) (cause : Nat) : State := (s.forward (p.refusal cause)).getD s

/-- The slots that a packet held at its receive port are free: their credits are owed to the pool that it spent (R450). -/
def State.freeSlots (s : State) (p : Packet) : State :=
  match p.via with
  | none => s
  | some (port, sh) => s.modPort port fun x => { x with owed := x.owed ++ [(p.pool, sh, p.slots)] }

/-- Send a packet, or refuse it (R276, R368). -/
def State.sendPacket (s : State) (p : Packet) : State := (s.forward p).getD ((s.freeSlots p).refuse p 8)

/-- A response to a request. -/
def Packet.reply (p : Packet) (op : Nat) (data : List Byte) : Packet :=
  { p with op := op, dst := p.src, src := p.dst, hops := 0, via := none, cnt := false, len := if op = 2 then p.len else 0, data := data }

/-! ## The CRC (R438) -/

/-- The polynomial of R438, its bits reversed. -/
def crcPoly : Nat := 0xC96C5795D7870F42
/-- One bit of the reflected division. -/
def crcBit (c : Nat) : Nat := if c % 2 = 1 then (c / 2) ^^^ crcPoly else c / 2
/-- One byte. -/
def crcByte (c : Nat) (b : Byte) : Nat := (List.range 8).foldl (fun c _ => crcBit c) (c ^^^ b.toNat)
/-- CRC-64 of bytes. -/
def crc64 (bs : List Byte) : Nat := (bs.foldl crcByte (2 ^ 64 - 1)) ^^^ (2 ^ 64 - 1)

/-! ## Flits (R437, R440) -/

/-- A flit's header fields. -/
structure FlitHead where
  seq : BitVec 16
  ack : BitVec 16
  av : Bool
  nak : Bool
  type : Nat
  crd : Nat
  cpool : Nat
  csh : Bool
deriving DecidableEq, Repr

def FlitHead.bits (h : FlitHead) : Nat :=
  h.seq.toNat + 2 ^ 16 * h.ack.toNat + (if h.av then 2 ^ 32 else 0) + (if h.nak then 2 ^ 33 else 0) + 2 ^ 34 * (h.type % 4)
    + 2 ^ 36 * (h.crd % 256) + 2 ^ 44 * (h.cpool % 8) + (if h.csh then 2 ^ 47 else 0)

def FlitHead.ofBits (x : DWord) : FlitHead :=
  { seq := x.extractLsb' 0 16, ack := x.extractLsb' 16 16, av := x.getLsbD 32, nak := x.getLsbD 33, type := bf x 35 34,
    crd := bf x 43 36, cpool := bf x 46 44, csh := x.getLsbD 47 }

/-- A whole flit: header, 176 bytes of payload, CRC. -/
def flitBytes (h : FlitHead) (payload : List Byte) : List Byte :=
  let b := leBytes 8 h.bits ++ (payload ++ List.replicate 176 0).take 176
  b ++ leBytes 8 (crc64 b)

/-- The header of the next flit of a type, with the ack and the credits owed (R440, R450). -/
def FabPort.head (x : FabPort) (type : Nat) (nak : Bool) : FlitHead :=
  let (pool, sh, n) := x.owed.head?.getD (0, false, 0)
  { seq := if type = 2 then 0 else x.nextSeq, ack := x.expect - 1, av := x.acceptedAny, nak := nak, type := type,
    crd := min n 255, cpool := if sh then 0 else pool, csh := sh }

/-- What sending a flit leaves at the port: the credits it returned, and for a data or control flit its number. -/
def FabPort.sent (x : FabPort) (type : Nat) (bytes : List Byte) (p : Option Packet) : FabPort :=
  let owed := match x.owed with
    | [] => []
    | (q, sh, n) :: t => if n > 255 then (q, sh, n - 255) :: t else t
  let inUse := match x.owed with
    | (q, false, n) :: _ => modAt x.inUse q (· - min n 255)
    | _ => x.inUse
  if type = 2 then { x with owed := owed, inUse := inUse, unreported := 0 }
  else
    { x with owed := owed, inUse := inUse, unreported := 0, unacked := x.unacked ++ [(x.nextSeq, bytes)], nextSeq := x.nextSeq + 1,
             flying := match p with | none => x.flying | some p => x.flying ++ [(x.nextSeq, p)] }

/-- The die of a port (R14). -/
def portDie (port : Nat) : Nat := port / 24

/-- The die from whose fabric gateway a packet for a node leaves (R368); `home` where the node is absent or this one. -/
def State.leaveDie (s : State) (home node : Nat) : Nat :=
  if node = s.node.toNat then home else match s.routePort node with | some p => portDie p | none => home

/-- The die at which a packet is here: that of the port it came by, or of the loom that sent it (R17). -/
def Packet.die (p : Packet) : Nat := match p.via with | some (port, _) => portDie port | none => dieOf p.loom

/-- Send a flit. -/
def State.emitFlit (s : State) (port type : Nat) (nak : Bool) (payload : List Byte) (p : Option Packet) : State :=
  let x := s.port port
  let b := flitBytes (x.head type nak) payload
  let s1 := s.setPort port (x.sent type b p)
  { s1 with outbox := s1.outbox ++ [Out.flit port b] }.countDie (portDie port) 0x47 1

/-- Credits that a packet may take: whether from the shared pool; none while neither pool has them (R450). -/
def FabPort.credit (x : FabPort) (p : Packet) : Option Bool :=
  let own := (if p.isResponse then x.respCredits else x.reqCredits).getD p.vc 0
  if own ≥ p.slots then some false else if x.shared ≥ p.slots then some true else none

/-- Take them. -/
def FabPort.spend (x : FabPort) (p : Packet) (sh : Bool) : FabPort :=
  if sh then { x with shared := x.shared - p.slots }
  else if p.isResponse then { x with respCredits := modAt x.respCredits p.vc (· - p.slots) }
  else { x with reqCredits := modAt x.reqCredits p.vc (· - p.slots) }

/-- The first packet of a port's queue that has credit and no packet of its channel and pool before it (R330, R450). -/
def FabPort.next (x : FabPort) : Option (Nat × Packet × Bool) :=
  x.queue.zipIdx.findSome? fun q =>
    if (x.queue.take q.2).any fun r => r.vc == q.1.vc && r.isResponse == q.1.isResponse then none
    else (x.credit q.1).map fun sh => (q.2, q.1, sh)

/-- A null header, which ends a flit's packets (R448). -/
def nullSlot : List Byte := leBytes 16 0xF

/-- Payloads of a packet: 11 slots a flit, the last ended by a null header. -/
def payloads : Nat → List Byte → List (List Byte)
  | 0, _ => []
  | k + 1, b =>
    if b.length ≤ 176 then [if b.length < 176 then b ++ nullSlot else b]
    else b.take 176 :: payloads k (b.drop 176)

/-- A flit sent again carries the port's present ack (R440), and a CRC to match. -/
def reacked (b : List Byte) (x : FabPort) : List Byte :=
  let h := FlitHead.ofBits (BitVec.ofNat 64 (leValue (b.take 8)))
  flitBytes { h with ack := x.expect - 1, av := x.acceptedAny } ((b.drop 8).take 176)

/-- Send a flit again (R442), counted and paid from the port's replay budget (R410, R412). -/
def State.resendFlit (s : State) (port : Nat) (n : BitVec 16) : State :=
  match (s.port port).unacked.find? fun f => f.1 == n with
  | none => s
  | some f =>
    let s1 := { s with outbox := s.outbox ++ [Out.flit port (reacked f.2 (s.port port))] }
    (((s1.countDie (portDie port) 0x47 1).countDie (portDie port) 0x49 1).dieError (portDie port) (17 + 3 * (port % 24))).busy 4
      port

/-- The payload of a control flit (R437). -/
def FabPort.control (x : FabPort) : List Byte := leBytes 16 x.live.toNat

/-- The control flit of a changed live mask, with its NAK (R441, R444): at once, or once fewer than 512 flits are
unacknowledged (R440). -/
def State.sendMask (s : State) (port : Nat) : State :=
  let x := s.port port
  if x.unacked.length ≥ 512 then s.setPort port { x with maskDue := true }
  else (s.emitFlit port 1 true x.control none).modPort port fun x => { x with maskDue := false, nakd := true }

/-- Send what a port has to send while it is up: flits to be sent again, as far as its budget lets it; then packets, while it
has credit and fewer than 512 flits unacknowledged (R440, R442, R450). -/
def State.drainPort : Nat → State → Nat → State
  | 0, s, _ => s
  | k + 1, s, port =>
    let x := s.port port
    if x.state ≠ .up then s
    else if !x.toResend.isEmpty then
      match x.toResend with
      | n :: rest =>
        if s.unheld 4 port then State.drainPort k ((s.resendFlit port n).modPort port fun x => { x with toResend := rest }) port
        else s
      | [] => s
    else if x.maskDue && x.unacked.length < 512 then State.drainPort k (s.sendMask port) port
    else
      match x.next with
      | none => s
      | some (i, p, sh) =>
        let ps := payloads 4 (p.header ++ padSlots p.data)
        if x.unacked.length + ps.length > 512 then s
        else
          let s1 := (s.setPort port { (x.spend p sh) with queue := x.queue.eraseIdx i }).freeSlots p
          let p := { p with via := none }
          State.drainPort k (ps.zipIdx.foldl (fun s q =>
            s.emitFlit port 0 false q.1 (if q.2 + 1 = ps.length then some p else none)) s1) port

/-- Packets leave every port that can send. -/
def State.drainPorts (s : State) : State :=
  s.fabric.ports.foldl (fun s q => s.drainPort (q.2.queue.length + q.2.toResend.length + 2) q.1) s

end Sys2Proof.Machine
end

