-- ==== Sys2Proof/Machine/Boards.lean ====
section
/-! DEFINITION. Stall boards, solicit, the census and responders (14_stall_boards_and_census.md R372 to R391). -/

namespace Sys2Proof.Machine

/-! ## Handles and matches (R373, R380) -/

/-- The handle of an entry. -/
def boardHandle (i : Nat) (gen : BitVec 16) : Word := BitVec.ofNat 32 (i + 65536 * gen.toNat)

/-- The entry that a handle names, unless it is stale. -/
def Loom.named (x : Loom) (ctx : Nat) (h : Word) : Option (Nat × Board) :=
  let i := h.toNat % 512
  let e := x.entry i
  if h.toNat / 512 % 128 ≠ 0 ∨ e.state = .free ∨ e.rsv ∨ e.ctx ≠ ctx ∨ e.gen ≠ h.extractLsb' 16 16 then none
  else some (i, e)

/-- An entry matches a key of a context (R380). -/
def Board.matches (e : Board) (ctx : Nat) (key : DWord) : Bool :=
  e.state != .free && !e.rsv && e.ctx == ctx && (key ^^^ e.key) &&& e.mask == 0

/-- The lowest free, unreserved entry (R375). -/
def Loom.freeEntry? (x : Loom) : Option Nat :=
  (List.range Config.boardEntries).find? fun i => (x.entry i).state == .free && !(x.entry i).rsv

/-! ## sb.post (R375) -/

/-- The view of a loom's board in a context: no window. -/
def boardView (l ctx : Nat) : View := { loom := l, ctx := ctx, agent := .core l, share := some (0, 0), frame := none }

/-- A responder area that no entry may have, or that cannot be written: unaligned, or on a page that R375 refuses. -/
def State.areaBad (s : State) (l ctx : Nat) (a : DWord) : Bool :=
  a.toNat % 128 != 0 ||
    match s.spot (boardView l ctx) a.toNat with
    | .page x _ =>
      !pteWritable x.pte || pteCompressed x.pte || pteHost x.pte
    | _ => true

/-- The first fault of a kind-2 range, page by page: a translation fault of R254, or a stall-board fault. -/
def State.marketFault (s : State) (l ctx : Nat) (base : DWord) (len : Nat) : Option Cause :=
  (List.range (len / 2 ^ 19 + 2)).findSome? fun k =>
    let va := (base.toNat + min (k * 2 ^ 19) (len - 1)) % 2 ^ 64
    match s.spot (boardView l ctx) va with
    | .page x _ => if pteMarket x.pte then none else some { cause := 0x1A }
    | .bad 30 => some { cause := 0x0A, detail := BitVec.ofNat 64 va }
    | .bad 10 => some { cause := 0x09, detail := BitVec.ofNat 64 va }
    | _ => some { cause := 0x1A }

/-- The range that a kind-1 entry of a context names (R375). -/
def Loom.postRange (x : Loom) (ctx : Nat) (key : DWord) : Option (Nat × Own) :=
  x.owners.find? fun p => p.2.ctx == ctx && p.2.key == key && [OwnState.pinned, .attached, .spilled].contains p.2.state

/-- sb.post's cases, in order (R375). -/
def State.postFault (s : State) (x : Iss) (b : BitVec 512) : Option Cause :=
  let bad : Option Cause := some { cause := 0x1A }
  let addr := bd b 128
  let len := bf b 223 192
  match bf b 225 224 with
  | 3 => bad
  | kind =>
    if s.areaBad x.l x.w.ctx (bd b 320) then bad
    else if kind == 0 && (len == 0
        || (match s.teamOf x.l x.w with | none => true | some t => addr.toNat + len > t.shareSize)) then bad
    else if kind = 1 ∧ ((s.loom x.l).postRange x.w.ctx addr).isNone then bad
    else
      match (if kind = 2 then (if len = 0 then bad else s.marketFault x.l x.w.ctx addr len) else none) with
      | some c => some c
      | none => if ((s.loom x.l).freeEntry?).isNone then bad else none

/-- The entry that sb.post makes of a block. -/
def State.posted (s : State) (x : Iss) (b : BitVec 512) (old : Board) : Board :=
  let kind := bf b 225 224
  let addr := bd b 128
  let t := s.teamOf x.l x.w
  let r := (s.loom x.l).postRange x.w.ctx addr
  { old with
    state := match kind, r with | 1, some (_, o) => if o.state = .spilled then .spilled else .valid | _, _ => .valid,
    kind := kind, team := x.w.team.getD 0, owner := if kind = 0 then t.map (·.id) else none,
    busy := false, rsv := false, ctx := x.w.ctx, gen := old.gen + 1, tgt := 0, key := bd b 0, mask := bd b 64,
    addr := match kind, t with | 0, some t => addr + BitVec.ofNat 64 t.shareBase | _, _ => addr,
    len := match kind, r with | 1, some (_, o) => BitVec.ofNat 32 o.t | _, _ => b.extractLsb' 192 32,
    hnd := bd b 256, area := bd b 320, was := .free, serial := s.fresh }

def execSbPost (h : Guard) (d a : Reg) (s : State) : Result :=
  issue (.sbPost h d a) (macroBody fun x s =>
    loadL (x.w.pair a x.lane) 64 64 (fun n s =>
      let b := BitVec.ofNat 512 n
      match s.postFault x b, (s.loom x.l).freeEntry? with
      | none, some i =>
        let e := s.posted x b ((s.loom x.l).entry i)
        let s1 := { (s.modLoom x.l fun y => y.setEntry i e) with fresh := s.fresh + 1 }
        .ok ((s1.sideEffect x.l x.w).setL x d (boardHandle i e.gen))
      | some c, _ => .trap { c with lane := some x.lane }
      | none, none => faultL x 0x1A) x s) s

/-! ## sb.find and sb.wdr (R376, R377) -/

def execSbFind (h : Guard) (d a b : Reg) (s : State) : Result :=
  issue (.sbFind h d a b) (macroBody fun x s =>
    let first := if b = 255 then 0 else (x.w.lane b x.lane).toNat % 512
    let key := x.w.pair a x.lane
    match (List.range Config.boardEntries).find? fun i =>
        first ≤ i && ((s.loom x.l).entry i).matches x.w.ctx key with
    | none => .ok (s.setL x d 0xFFFFFFFF)
    | some i => .ok (s.setL x d (boardHandle i ((s.loom x.l).entry i).gen))) s

/-- An entry that a withdrawal must wait for (R377). -/
def Loom.wdrWaits (x : Loom) (i : Nat) : Bool := (x.entry i).state == .moving || x.entryBusy i

def execSbWdr (h : Guard) (d a : Reg) (s : State) : Result :=
  issue (.sbWdr h d a) (macroBody fun x s =>
    let t := s.sideEffect x.l x.w
    let hd := x.w.lane a x.lane
    match (s.loom x.l).named x.w.ctx hd with
    | none => .ok (t.setL x d 1)
    | some (i, _) =>
      if (s.loom x.l).wdrWaits i then
        .begins (s.modWeft x.l x.k fun w => { w with wait := .sbWdr x.pc x.mask d x.act hd })
      else .ok ((t.modLoom x.l fun y => y.freeEntry i).setL x d 0)) s

/-- SB_WDR_FREE: a waiting withdrawal issues, once its entry is neither moving nor busy, or has left (R377). -/
def execSbWdrFree (l k : Nat) (s : State) : Result :=
  match s.weft? l k with
  | none => .next s
  | some w =>
    match w.wait with
    | .sbWdr pc _ d act hd =>
      let done (s : State) (v : Word) : Result :=
        .next (((s.sideEffect l w).waitIssues l k w pc act).finishWait l k pc d (BitVec.ofNat 32 (2 ^ lowestLane act)) 0
          (some fun _ => v))
      (match (s.loom l).named w.ctx hd with
        | none => done s 1
        | some (i, _) => if (s.loom l).wdrWaits i then .next s else done (s.modLoom l fun y => y.freeEntry i) 0)
    | _ => .next s

/-! ## sb.move (R378, R379) -/

/-- The entry and range that a handle lets move: not stale, of kind 1 or 2, not moving, its range pinned or spilled here. -/
def State.movable (s : State) (l ctx : Nat) (h : Word) : Option (Nat × Board × Option (Nat × Own)) :=
  match (s.loom l).named ctx h with
  | none => none
  | some (i, e) =>
    if e.kind = 0 ∨ e.state = .moving then none
    else if e.kind = 1 then
      match (s.loom l).postRange ctx e.addr with
      | some (k, o) => if o.state = .attached then none else some (i, e, some (k, o))
      | none => none
    else some (i, e, none)

def execSbMove (h : Guard) (d b c : Reg) (s : State) : Result :=
  issue (.sbMove h d b c) (macroBody fun x s =>
    let hd := x.w.lane b x.lane
    let tl := (x.w.lane c x.lane).toNat
    if s.queueFull x.l .copy then .hold
    else
      match s.movable x.l x.w.ctx hd with
      | none => faultL x 0x1A
      | some (i, _, r) =>
        if tl ≥ Config.looms ∨ tl = x.l then faultL x 0x1A
        else
          let n := match r with | some (_, o) => if o.state = .pinned then 64 * o.t + 2 else 2 | none => 2
          acceptOp x { newOp s x (.sbMove h d b c) with
            opb := hd.setWidth 64, opc := BitVec.ofNat 64 tl, total := n, parts := [x.l, i, tl, 0, 0, 0] } [] true s) s

/-- Unit 0: the checks again, and the reservations (R378). -/
def State.moveStart (s : State) (o : Op) : State :=
  let fault := s.applyUnit o 0 (.fault 0x1A 0 0)
  match o.parts with
  | sl :: _ :: tl :: _ =>
    match s.movable sl o.ctx (o.opb.extractLsb' 0 32) with
    | none => fault
    | some (se, e, r) =>
      match (s.loom tl).freeEntry?, r with
      | none, _ => fault
      | some te, none =>
        let s1 := (s.modLoom tl fun x => x.setEntry te { x.entry te with rsv := true }).modLoom sl fun x =>
          x.setEntry se { e with state := .moving, was := e.state, tgt := tl }
        let s2 := s1.modOp o.loom .copy o.id fun q => { q with parts := [sl, se, tl, te + 1, 0, 0] }
        s2.applyUnit o 1 (.did s2 0 [])
      | some te, some (so, w) =>
        match (s.loom tl).freeOwn with
        | none => fault
        | some to_ =>
          let free := (s.loom tl).freeTiles
          let tiles := if w.state = .pinned ∧ o.total > 2 ∧ free.length ≥ w.t then free.take w.t else []
          let s1 := s.modLoom tl fun x =>
            { (x.setEntry te { x.entry te with rsv := true }) with
              owners := SMap.put x.owners to_ { w with state := .moving, was := .free, tiles := tiles } }
          let s2 := s1.modLoom sl fun x =>
            { (x.setEntry se { e with state := .moving, was := e.state, tgt := tl }) with
              owners := SMap.put x.owners so { w with state := .moving, was := w.state } }
          let s3 := s2.modOp o.loom .copy o.id fun q => { q with parts := [sl, se, tl, te + 1, so + 1, to_ + 1] }
          s3.applyUnit o 1 (.did s3 0 [])
  | _ => fault

/-- Write row u of a range to its spill address (R203, R378). -/
def State.spillRow (s : State) (o : Op) (l : Nat) (w : Own) (u : Nat) : State :=
  let wd := w.fmt.width
  let v := spillView l w.ctx
  let a := rowAddr w.spill wd (u - 1)
  match s.writeCase v false false a 0 (64 * wd) with
  | some g => s.applyUnit o u g.out
  | none =>
    let n := (rowPlaces (u - 1)).reverse.foldl (fun acc p => acc * 2 ^ wd + (s.loom l).cell w p.1 p.2) 0
    s.applyUnit o (u + 1) (.did ((s.putBits v a 0 (64 * wd) n).noteEngine v false (bitAcc a 0 (64 * wd)).1) 0 [])

/-- A row unit of a move (R378). -/
def State.moveRow (s : State) (o : Op) (u : Nat) : State :=
  match o.parts with
  | [sl, _, tl, te, so, to_] =>
    if te = 0 ∨ so = 0 then s.applyUnit o u (.fault 0x1A 0 0)
    else
      match SMap.find? (s.loom sl).owners (so - 1), SMap.find? (s.loom tl).owners (to_ - 1) with
      | some w, some t =>
        if w.was ≠ .pinned then s.applyUnit o (u + 1) (.did s 0 [])
        else if s.cellsError sl w (rowPlaces (u - 1)) then s.applyUnit o u (.fault tileError 0 0)
        else if t.tiles.isEmpty then s.spillRow o sl w u
        else
          s.applyUnit o (u + 1) (.did ((s.setCells tl t ((rowPlaces (u - 1)).map fun p =>
            (p.1, p.2, (s.loom sl).cell w p.1 p.2))).crossDies (dieOf sl) (dieOf tl) (8 * w.fmt.width)) 0 [])
      | _, _ => s.applyUnit o u (.fault 0x1A 0 0)
  | _ => s.applyUnit o u (.fault 0x1A 0 0)

/-- A unit of sb.move other than the last. -/
def State.moveUnit (s : State) (o : Op) (u : Nat) : State := if u = 0 then s.moveStart o else s.moveRow o u

/-- The last unit's effect: the source freed, the target set (R378). `w` and `t` are the two ownership entries. -/
def State.moveSet (s : State) (o : Op) (u sl se tl te : Nat) (rng : Option (Nat × Own × Nat × Own)) : State :=
  let e := (s.loom sl).entry se
  let e' : Board :=
    { e with rsv := false, gen := e.gen + 1, tgt := 0, was := .free, busy := false,
             state := match rng with | some (_, _, _, t) => if t.tiles.isEmpty then .spilled else .valid | none => .valid }
  let s1 := (s.modLoom sl fun x => x.freeEntry se).modLoom tl fun x => x.setEntry te e'
  let s2 := match rng with
    | none => s1
    | some (so, w, to_, t) =>
      let t' := { w with state := if t.tiles.isEmpty then .spilled else .pinned, tiles := t.tiles, was := .free,
                         gen := w.gen + 1, team := 0 }
      (s1.freeOwn sl so).setOwn tl to_ t'
  let s3 := s2.modOp o.loom .copy o.id fun q =>
    { q with result := (boardHandle te e'.gen).setWidth 64, parts := [] }
  s3.applyUnit o (u + 1) (.did s3 0 [])

/-- The last unit of a move: it waits for the entry's responders (R378). -/
def State.moveCommit (s : State) (o : Op) (u : Nat) : State :=
  match o.parts with
  | [sl, se, tl, te, so, to_] =>
    if te = 0 then s.applyUnit o u (.fault 0x1A 0 0)
    else if (s.loom sl).entryBusy se then s
    else if so = 0 then s.moveSet o u sl se tl (te - 1) none
    else
      match SMap.find? (s.loom sl).owners (so - 1), SMap.find? (s.loom tl).owners (to_ - 1) with
      | some w, some t =>
        if w.was = .pinned ∧ o.total = 2 then
          match s.spillRange sl w with
          | .wait => s
          | .fail c va => s.applyUnit o u (.fault c 0 va)
          | .ok s1 => s1.moveSet o u sl se tl (te - 1) (some (so - 1, w, to_ - 1, t))
        else s.moveSet o u sl se tl (te - 1) (some (so - 1, w, to_ - 1, t))
      | _, _ => s.applyUnit o u (.fault 0x1A 0 0)
  | _ => s.applyUnit o u (.fault 0x1A 0 0)

/-- SB_MOVE_COMMIT: the copy engine's operation `idx` of a loom commits its move, all other units being complete (R378). -/
def execSbMoveCommit (l idx : Nat) (s : State) : Result :=
  match (s.loom l).copyQ[idx]? with
  | none => .next s
  | some o =>
    match o.instr with
    | .sbMove .. =>
      let u := s.progress o
      if u + 1 = o.total ∧ !o.enter ∧ !o.discard ∧ s.copyUnheld l then .next ((s.moveCommit o u).copyBusy l) else .next s
    | _ => .next s

/-! ## solicit (R381, R382) -/

/-- The nodes that a group-scope solicit reaches beside the package's own (R382). -/
def State.groupNodes (s : State) : List Nat :=
  (s.fabric.route.filter fun p => p.2.getLsbD 15 && p.1 != s.node.toNat).map (·.1)

/-- A free census slot of the package (R381, R403). -/
def State.censusSlot (s : State) : Option Nat :=
  (List.range Config.censusSlots).find? fun n => (SMap.find? s.census (censusKey s.node.toNat n)).isNone

/-- Tags of census packets have bit 23 set, those of operations have not (log entry 34). -/
def censusTag (slot : Nat) : BitVec 24 := BitVec.ofNat 24 (2 ^ 23 + slot)

/-- The request that a group-scope solicit sends to a node (R449). -/
def censusRequestTo (s : State) (c : Census) (slot node : Nat) : Packet :=
  { op := 9, vc := 0, dst := node, src := s.node.toNat, hops := 0, ctx := c.ctx, len := 0, cnt := false, addr := 0, ctr := 0,
    launch := 0, loom := c.asker, tag := censusTag slot, unit := 0, sub := c.op, cause := 0, thi := 0,
    data := leBytes 8 c.key.toNat ++ leBytes 8 c.handler.toNat ++ leBytes 8 c.arg.toNat
      ++ [BitVec.ofNat 8 c.allot, BitVec.ofNat 8 slot] ++ List.replicate 6 0 }

/-- The census slot that a solicit takes. -/
def newCensus (x : Iss) (b : BitVec 512) (box : Mailbox) (nodes : List Nat) : Census :=
  { counted := 0, answered := 0, value := 0, flags := 0, op := bf b 203 201, pkgs := 1 + nodes.length, asker := x.l,
    ctx := x.w.ctx, got := false, first := (0, 0, 0), key := bd b 0, handler := bd b 64, arg := bd b 128,
    allot := bf b 199 192, group := b.getLsbD 200, box := box, here := true, nodes := nodes }

def execSolicit (h : Guard) (a b : Reg) (s : State) : Result :=
  issue (.solicit h a b) (macroBody fun x s =>
    let off := (x.w.lane b x.lane).toNat
    let va := BitVec.ofNat 64 (0xFFF * 2 ^ 52 + off)
    match s.censusSlot with
    | none => .hold
    | some slot =>
      if (x.w.pair a x.lane).toNat % 64 ≠ 0 then faultL x 0x08 (x.w.pair a x.lane)
      else if off % 16 ≠ 0 then faultL x 0x08 va
      else if !mailboxOk s x off 16 then faultL x 0x09 va
      else
        loadL (x.w.pair a x.lane) 64 64 (fun n s =>
          let blk := BitVec.ofNat 512 n
          if bf blk 203 201 ≥ 6 || !allotOk (bf blk 199 192) then faultL x 0x1B
          else
            let box := mailboxAt s x off
            let c := newCensus x blk box (if blk.getLsbD 200 then s.groupNodes else [])
            match s.writeMailbox box 8 (leBytes 4 0) with
            | none => .hold
            | some s1 =>
              let s2 := { s1 with census := SMap.put s1.census (censusKey s1.node.toNat slot) c }
              .ok ((c.nodes.foldl (fun s n => s.sendPacket (censusRequestTo s c slot n)) s2).sideEffect x.l x.w)) x s) s

/-! ## The census point (R382 to R384) -/

/-- The spawn that a counted entry gets. -/
def spawnOf (key : Nat) (c : Census) (i : Nat) (e : Board) : Spawn :=
  { ctx := c.ctx, node := key / 256, census := key % 256, entry := i, serial := e.serial, skey := c.key, handler := c.handler,
    arg := c.arg, allot := c.allot, asker := c.asker, mov := e.state == .moving, was := e.state, written := false, flagged := false,
    queued := none }

/-- A board's entries that match are counted: busy, with a spawn each. -/
def Loom.count (x : Loom) (key : Nat) (c : Census) : Loom :=
  let hits := x.board.filter fun p => p.2.matches c.ctx c.key
  { x with board := x.board.map fun p => if p.2.matches c.ctx c.key then (p.1, { p.2 with busy := true }) else p,
           spawns := x.spawns ++ hits.map fun p => spawnOf key c p.1 p.2 }

/-- CENSUS_POINT of a census, by its key: 256 · asking node + slot (R382). -/
def execCensusPoint (key : Nat) (s : State) : Result :=
  match SMap.find? s.census key with
  | none => .next s
  | some c =>
    if !c.here then .next s
    else
      let n := s.looms.foldl (fun n p => n + (p.2.board.filter fun q => q.2.matches c.ctx c.key).length) 0
      .next { s with
        looms := s.looms.map fun p => (p.1, p.2.count key c),
        census := SMap.put s.census key { c with here := false, pkgs := c.pkgs - 1, counted := c.counted + n } }

/-! ## Spawning a responder (R383 to R385) -/

/-- The state of an ownership entry, or the one that a move on its way would return it to (R379). -/
def Own.resting (o : Own) : OwnState := if o.state = .moving then o.was else o.state
/-- A spilled range that has been filled: pinned, or moving as a pinned one (R383). -/
def Own.refilled (o : Own) : Own := if o.state = .moving then { o with was := .pinned } else { o with state := .pinned }

/-- The entries of a refilled range: valid, or moving as valid ones, with a new generation (R383). -/
def Loom.refillKey (x : Loom) (ctx : Nat) (key : DWord) : Loom :=
  (x.keyEntries ctx key).foldl (fun x i =>
    let b := x.entry i
    x.setEntry i (if b.state = .moving then { b with was := .valid, gen := b.gen + 1 } else
      { b with state := .valid, gen := b.gen + 1 })) x

/-- A refill for a census of the spilled range that an entry names (R383): none while it waits; else the state, and whether
the state could not be made resident. -/
def State.censusRefill (s : State) (l : Nat) (e : Board) : Option (State × Bool) :=
  match (s.loom l).owners.find? fun p =>
      p.2.ctx == e.ctx && p.2.key == e.addr && p.2.resting != .working && !p.2.reserved with
  | none => some (s, true)
  | some (k, o) =>
    if o.resting ≠ .spilled then some (s, false)
    else
      match s.evict 33 l o.t with
      | none => none
      | some s1 =>
        let free := (s1.loom l).freeTiles
        if free.length < o.t then some (s1, true)
        else
          let o' := { o with tiles := free.take o.t, gen := o.gen + 1 }
          match s1.fillRange l o' o.spill with
          | .wait => none
          | .fail _ _ => some (s1, true)
          | .ok s2 => some ((s2.setOwn l k o'.refilled).modLoom l fun x => x.refillKey e.ctx e.addr, false)

/-- The 128 bytes of a responder area (R385). -/
def areaBytes (l i : Nat) (e : Board) (p : Spawn) (flag : Bool) (stamp : DWord) : List Byte :=
  let addr := if e.kind = 0 ∧ e.state ≠ .spilled then e.addr + BitVec.ofNat 64 (0xFFF * 2 ^ 52) else e.addr
  leBytes 8 (if e.hnd = 0 then p.handler else e.hnd).toNat ++ leBytes 8 (e.area + 32).toNat
    ++ leBytes 8 (l * 2 ^ 32 + 2 * 2 ^ 40 + p.allot * 2 ^ 48) ++ leBytes 8 stamp.toNat
    ++ leBytes 8 p.skey.toNat ++ leBytes 8 p.arg.toNat ++ leBytes 8 e.key.toNat ++ leBytes 8 addr.toNat
    ++ leBytes 8 (e.len.toNat + 2 ^ 32 * i + 2 ^ 41 * e.kind + (if flag then 2 ^ 43 else 0) + (if p.mov then 2 ^ 44 else 0)
        + 2 ^ 48 * e.gen.toNat)
    ++ leBytes 8 (p.asker + 256 * p.node) ++ leBytes 48 0

/-- Replace a spawn of a loom, or drop it. -/
def Loom.setSpawn (x : Loom) (p : Spawn) (q : Option Spawn) : Loom :=
  { x with spawns := x.spawns.flatMap fun y => if y = p then q.toList else [y] }

/-- The spawn of an entry that is next: the earliest whose posting has no record queued and no responder running (R384). -/
def Loom.nextSpawn (x : Loom) (i : Nat) : Option Spawn :=
  x.spawns.find? fun p =>
    p.entry == i && p.queued.isNone
      && !(x.spawns.any fun q => q.entry == i && q.serial == p.serial && q.queued.isSome)
      && !(x.wefts.any fun w => match w.2.responder with
            | some r => r.entry == i && r.serial == p.serial | none => false)

/-- A spawn that comes to no responder is answered with no value and mailbox flag bit 2; the entry is no longer busy
(R385). -/
def State.spawnFails (s : State) (l i : Nat) (p : Spawn) : State :=
  let s1 := s.modLoom l fun x =>
    let x := x.setSpawn p none
    let e := x.entry i
    if e.serial = p.serial then x.setEntry i { e with busy := false } else x
  s1.censusAnswered (censusKey p.node p.census) none 4 (s.node.toNat, l, i)

/-- The record of a written area goes to a queue, or waits for one (R384). -/
def State.spawnQueue (s : State) (l i : Nat) (e : Board) (p : Spawn) : State :=
  match s.enqueue e.ctx l false e.area with
  | none => s.modLoom l fun x => x.setSpawn p (some { p with written := true })
  | some s1 => s1.modLoom l fun x =>
      (x.setSpawn p (some { p with written := true, queued := some e.area })).setEntry i { x.entry i with busy := true }

/-- RESPONDER_SPAWN: the next spawn of a board entry is made (R383 to R385). -/
def execResponderSpawn (l i : Nat) (s : State) : Result :=
  match (s.loom l).nextSpawn i with
  | none => .next s
  | some p =>
    let e := (s.loom l).entry i
    if e.serial ≠ p.serial then .next (s.spawnFails l i p)
    else if !s.serves e.ctx then .next s
    else if p.written then .next (s.spawnQueue l i e p)
    else
      let v := boardView l e.ctx
      let c : Acc := { lane := 0, va := e.area, len := 128 }
      if s.areaBad l e.ctx e.area ∨ (s.accCase v true c).1 < 70 then .next (s.spawnFails l i p)
      else if (s.accCase v true c).1 = 70 then .next s
      else if (s.spots v c).any (s.readError l) then .next (s.spawnFails l i p)
      else
        let r := if p.was ≠ .spilled then some (s, false)
          else if e.kind = 1 then s.censusRefill l e else some (s, true)
        match r with
        | none => .next s
        | some (s1, flag) =>
          let e1 := (s1.loom l).entry i
          let q := { p with flagged := flag }
          let s2 := ((s1.writeBytesVa v e1.area (areaBytes l i e1 p flag s1.stamp)).tick1).modLoom l fun x =>
            x.setSpawn p (some q)
          .next (s2.spawnQueue l i e1 q)

/-! ## respond (R386) and the answer (R387, R388) -/

def execRespond (h : Guard) (a : Reg) (s : State) : Result :=
  issue (.respond h a) (macroBody fun x s =>
    match x.w.responder with
    | none => faultL x 0x1B
    | some r =>
      if r.value.isSome then faultL x 0x1B
      else .ok (s.modWeft x.l x.k fun w => { w with responder := some { r with value := some (x.w.lane a x.lane) } })) s

/-- The value of a census with the answers it has (R387). -/
def Census.result (c : Census) : Word :=
  if c.got then c.value else if c.op = 1 then 0xFFFFFFFF else 0

/-- The mailbox of a census (R388). -/
def Census.bytes (c : Census) : List Byte :=
  let fl := c.flags ||| (if c.counted = 0 then 1 else 0)
  leBytes 4 c.counted ++ leBytes 4 c.result.toNat ++ leBytes 4 1 ++ leBytes 4 fl.toNat

/-- The answer of this package's part of another package's census (R449): bit 115 says that some answer had a value
(log entry 34). -/
def censusReply (s : State) (key : Nat) (c : Census) : Packet :=
  { op := 10, vc := 0, dst := key / 256, src := s.node.toNat, hops := 0, ctx := c.ctx, len := 0, cnt := false, addr := 0,
    ctr := 0, launch := 0, loom := c.asker, tag := censusTag (key % 256), unit := 0, sub := c.op, cause := 0, thi := 0,
    data := leBytes 4 c.counted ++ leBytes 4 c.answered ++ leBytes 4 c.result.toNat
      ++ leBytes 4 (c.flags.toNat % 65536 + 65536 * (c.op % 8) + (if c.got then 2 ^ 19 else 0)) }

/-- Write the mailboxes of censuses that are complete, and send the answers of others' censuses (R388, R403). The asking
loom's L1 is emptied before. A mailbox whose team or weft is gone takes nothing. -/
def State.censusAll (s : State) : State :=
  s.census.foldl (fun s q =>
    let (key, c) := q
    if c.here || c.answered < c.counted || c.pkgs != 0 then s
    else if key / 256 ≠ s.node.toNat then
      let p := censusReply s key c
      { (s.crossDies (dieOf c.asker) (s.leaveDie (dieOf c.asker) p.dst) (16 * p.slots)).sendPacket p with
        census := SMap.del s.census key }
    else
      match s.writeMailbox c.box 0 c.bytes with
      | none => s
      | some s1 => { s1.dropL1 c.asker with census := SMap.del s1.census key }) s

end Sys2Proof.Machine
end

