-- ==== Sys2Proof/Machine/Counters.lean ====
section
/-! DEFINITION. waitoc, arrival counters and event counters (15_counters.md R392 to R413). -/

namespace Sys2Proof.Machine

/-! ## waitoc (R395) -/

def execWaitoc (h : Guard) (cls : OcClass) (n : BitVec 6) (s : State) : Result :=
  issue (.waitoc h cls n) (macroBody fun x s => if x.w.oc.get cls ≤ n.toNat then .ok s else .hold) s

/-! ## Armed words (R396 to R400) -/

/-- Where an armed word may lie: loom memory, or market memory. -/
inductive ArmWord where
  | loom (a : Nat)
  | market (a : Nat)
deriving DecidableEq, Repr

/-- The word that an address names for arm and await, or the fault or park that its address meets (R397). -/
def State.armWord (s : State) (x : Iss) (va : DWord) : Except Effect ArmWord :=
  let v := s.view x
  if va.toNat % 8 ≠ 0 then .error (faultL x 0x08 va)
  else
    match s.spot v va.toNat with
    | .page y pa =>
      if y.space != .market then .error (faultL x 0x1C)
      else
        match s.checkAccs v false false [{ lane := x.lane, va := va, len := 8 }] with
        | .pass => .ok (.market pa)
        | .park => .error .park
        | .fault c => .error (.trap c)
    | .lm a => .ok (.loom a)
    | .frame b i => .ok (.loom (b + i))
    | .bad n => .error (faultL x (causeOfCase n) va)

/-- The places of a word's arm table. -/
def ArmWord.places (x : Iss) : ArmWord → List ArmAt
  | .loom _ => (List.range Config.loomArmEntries).map (ArmAt.loom x.l)
  | .market a => (List.range Config.bankArmEntries).map (ArmAt.bank (marketBank a))
/-- A word's offset. -/
def ArmWord.addr : ArmWord → Nat
  | .loom a | .market a => a
def ArmWord.isLoom : ArmWord → Bool
  | .loom _ => true
  | .market _ => false

/-- The handle that an arm entry records: a continuation-record weft has no team (log entry 34). -/
def armTeam (x : Iss) : Nat := x.w.team.getD 1024
/-- The team whose heddle a binding names; a continuation-record weft is known by its slot, above the handles (R60). -/
def bindTeam (x : Iss) : Nat := x.w.team.getD (1024 + x.k)

/-- The entry of a word, with its place. -/
def State.armEntry (s : State) (x : Iss) (wd : ArmWord) : Option (ArmAt × Arm) :=
  (wd.places x).findSome? fun p =>
    match s.armAt p with
    | some e => if e.addr = wd.addr then some (p, e) else none
    | none => none

/-- The entry belongs to the issuing team, or for market memory to its context. -/
def Arm.own (e : Arm) (x : Iss) (wd : ArmWord) : Bool := e.ctx == x.w.ctx && (!wd.isLoom || e.team == armTeam x)

/-- The status and effect of arm (R397). -/
def armSet (d : Reg) (target : DWord) (wd : ArmWord) (x : Iss) (s : State) : Effect :=
  match s.armEntry x wd with
  | some (p, e) =>
    if e.own x wd then .ok ((s.setArm p (some { e with target := target })).setL x d 0) else .ok (s.setL x d 2)
  | none =>
    match (wd.places x).find? fun p => (s.armAt p).isNone with
    | none => .ok (s.setL x d 1)
    | some p =>
      .ok ((s.setArm p (some { addr := wd.addr, target := target, h := 0, hv := false, hcnt := 0, team := armTeam x,
                               ctx := x.w.ctx, bteam := 0, bloom := 0 })).setL x d 0)

/-- The status and effect of arm.clr (R397). -/
def armClear (d : Reg) (wd : ArmWord) (x : Iss) (s : State) : Effect :=
  match s.armEntry x wd with
  | some (p, e) =>
    if e.own x wd then .ok (((s.releaseAwait 1 (s.armWaiters p)).setArm p none).setL x d 0) else .ok (s.setL x d 2)
  | none => .ok (s.setL x d 2)

def execArm (h : Guard) (clr : Bool) (d a b : Reg) (s : State) : Result :=
  issue (.arm h clr d a b) (macroBody fun x s =>
    match s.armWord x (x.w.pair a x.lane) with
    | .error e => e
    | .ok wd => if clr then armClear d wd x s else armSet d (x.w.pair b x.lane) wd x s) s

/-- The weft is a live member of heddle `hd` of its team; the heddle 0 of a continuation-record weft is itself (R60). -/
def State.memberOf (s : State) (x : Iss) (hd : Nat) : Bool :=
  match x.w.team with
  | none => hd == 0
  | some t => match (s.loom x.l).heddleOf t hd with | none => false | some (_, e) => e.mask.contains x.k

/-- The weft was saved in an await on this word, which an arrival add in the swap image has satisfied, and issues for the first
time since (R431). -/
def State.awaitMet (s : State) (x : Iss) (wd : ArmWord) : Bool :=
  match x.w.awaited, wd, s.teamOf x.l x.w with
  | some (off, true), .loom a, some t => t.shareBase + off == a
  | _, _, _ => false

/-- await's wait on an entry, bound to a heddle or not (R399). -/
def awaitOn (hd : Option (BitVec 8)) (d : Reg) (p : ArmAt) (e : Arm) (met : Bool) (x : Iss) (s : State) : Effect :=
  let waits (s : State) (bound : Bool) : Effect :=
    .waits (s.modWeft x.l x.k fun w => { (w.issued x.pc) with wait := .await x.pc p d x.lane bound })
  match hd with
  | none => if met then .ok (s.setL x d 0) else waits s false
  | some hd =>
    if !s.memberOf x hd.toNat || (e.hv && (e.h != hd.toNat || e.bloom != x.l || e.bteam != bindTeam x)) then faultL x 0x16
    else
      waits (s.setArm p (some { e with hv := true, h := hd.toNat, bloom := x.l, bteam := bindTeam x, hcnt := e.hcnt + 1,
                                       met := e.met || met })) true

def execAwait (h : Guard) (hd : Option (BitVec 8)) (d a : Reg) (s : State) : Result :=
  issue (.await h hd d a) (macroBody fun x s =>
    match s.armWord x (x.w.pair a x.lane) with
    | .error e => e
    | .ok wd =>
      match s.armEntry x wd with
      | some (p, e) => if e.own x wd then awaitOn hd d p e (s.awaitMet x wd) x s else .ok (s.setL x d 1)
      | none => .ok (s.setL x d 1)) s

/-! ## arrive (R398) -/

def execArrive (h : Guard) (a b : Reg) (s : State) : Result :=
  issue (.arrive h a b) (macroBody fun x s =>
    let va := x.w.pair a x.lane
    if va.toNat % 8 ≠ 0 then faultL x 0x08 va
    else
      accessBody true true false (fun x => [{ lane := x.lane, va := va, len := 8 }]) (fun v x s =>
        .ok ((s.sideEffect x.l x.w).writeVa v va 8 ((s.readVa v va 8 + (x.w.lane b x.lane).toNat) % 2 ^ 64))) x s) s

/-! ## Event counters (R404 to R407) -/

/-- The sources of a loom counter and of a die counter (R405); 0 releases the counter (R406). -/
def loomSource (src : Nat) : Bool := src ≤ 0x13
def dieSource (src : Nat) : Bool := src == 0 || (0x40 ≤ src && src ≤ 0x4D)

/-- A counter not listed. -/
def EvCounter.zero : EvCounter := { count := 0, src := 0, all := false, ctx := 0 }

/-- Counter k of a loom, or of its base die (R404). -/
def State.evCounter (s : State) (l k : Nat) : EvCounter :=
  if k < 8 then SMap.getD (s.loom l).counters k EvCounter.zero
  else SMap.getD s.dieCounters (16 * (l / 48) + (k - 8)) EvCounter.zero
def State.setEvCounter (s : State) (l k : Nat) (c : EvCounter) : State :=
  if k < 8 then s.modLoom l fun x => { x with counters := SMap.set x.counters EvCounter.zero k c }
  else { s with dieCounters := SMap.set s.dieCounters EvCounter.zero (16 * (l / 48) + (k - 8)) c }

/-- A counter of another context, in user mode (R407). -/
def evOther (x : Iss) (c : EvCounter) : Bool := !x.w.sv && c.ctx != x.w.ctx

def execEvsel (h : Guard) (d : Reg) (k src : BitVec 8) (s : State) : Result :=
  issue (.evsel h d k src) (macroBody fun x s =>
    let n := k.toNat
    let code := src.toNat % 128
    let c := s.evCounter x.l n
    if c.src ≠ 0 ∧ evOther x c then .ok (s.setL x d 1)
    else if !(if n < 8 then loomSource code else dieSource code) then .ok (s.setL x d 2)
    else
      .ok ((s.setEvCounter x.l n { count := 0, src := BitVec.ofNat 7 code, all := src.getLsbD 7, ctx := x.w.ctx }).setL x
        d 0)) s

def execEvrd (h : Guard) (d : Reg) (k : BitVec 8) (s : State) : Result :=
  issue (.evrd h d k) (fun x s =>
    let c := s.evCounter x.l k.toNat
    pairBody d (fun _ _ _ => if evOther x c then 0 else c.count.setWidth 64) x s) s

def execEvclr (h : Guard) (d : Reg) (k : BitVec 8) (s : State) : Result :=
  issue (.evclr h d k) (macroBody fun x s =>
    let c := s.evCounter x.l k.toNat
    if evOther x c then .ok (s.setL x d 1)
    else .ok ((s.setEvCounter x.l k.toNat { c with count := 0 }).setL x d 0)) s

end Sys2Proof.Machine
end

