-- ==== Sys2Proof/Machine/Fabric.lean ====
section
/-! DEFINITION. Fabric operations at their source, and the packets that reach this package: units, responses, refusals,
reductions and the census of other packages (10_memory_instructions.md R275 to R282, 14 R387, 17 R449). -/

namespace Sys2Proof.Machine

/-! ## The fabric block (R275) -/

structure FabPlan where
  laddr : DWord
  raddr : DWord
  launch : DWord
  len : Nat
  node : Nat
  vc : Nat
  cnt : Bool
  ctr : DWord
  route : DWord
  thi : Nat

def FabPlan.ofBlock (b : BitVec 512) : FabPlan :=
  { laddr := bd b 0, raddr := bd b 64, launch := bd b 128, len := bf b 223 192, node := bf b 235 224, vc := bf b 237 236,
    cnt := b.getLsbD 238, ctr := bd b 256, route := bd b 320, thi := bf b 411 384 }

def Op.fabPlan (o : Op) : FabPlan := FabPlan.ofBlock o.block

/-- Elements of an xred unit (R281). -/
def redK (f : Fmt) : Nat := 1024 / f.width

/-- Bytes of unit u of a fabric operation, and for xred its elements (R277, R279, R281). -/
def Op.fabUnitLen (o : Op) (u : Nat) : Nat :=
  let p := o.fabPlan
  match o.instr with
  | .xatom .. => p.len
  | .xred .. => min (redK (Fmt.ofDef (o.defn 0))) (p.len - u * redK (Fmt.ofDef (o.defn 0)))
  | _ => min 128 (p.len - 128 * u)

/-! ## Issue (R264, R275, R277, R279, R280) -/

/-- Issue of a fabric operation whose block is aligned: the rest of its checks and what it captures. -/
def fabBody (a : Reg) (k : DWord → BitVec 512 → FabPlan → Iss → State → Effect) : Iss → State → Effect :=
  macroBody fun x s =>
    if s.queueFull x.l .fab then .hold
    else
      loadL (x.w.pair a x.lane) 64 64 (fun n s =>
        let b := BitVec.ofNat 512 n
        let p := FabPlan.ofBlock b
        if p.cnt && p.ctr.toNat % 8 != 0 then faultL x 0x08 p.ctr else k (x.w.pair a x.lane) b p x s) x s

/-- A new fabric operation enters its queue, with a fresh tag (R448). -/
def fabAdmit (x : Iss) (o : Op) (sps : List Span) (s : State) : Effect :=
  acceptOp x { o with tag := BitVec.ofNat 24 (s.fabric.nextTag.toNat % 2 ^ 23) } sps true
    (s.modFabric fun f => { f with nextTag := f.nextTag + 1 })

/-- xput and xget: N is ⌈len/128⌉, below 2^32 (R277). -/
def xferBody (i : Instr) (a : Reg) : Iss → State → Effect :=
  fabBody a fun addr b p x s =>
    fabAdmit x { newOp s x i with opa := addr, block := b, total := (p.len + 127) / 128 } [] s

def execXput (h : Guard) (d a : Reg) (s : State) : Result := issue (.xput h d a) (xferBody (.xput h d a) a) s
def execXget (h : Guard) (d a : Reg) (s : State) : Result := issue (.xget h d a) (xferBody (.xget h d a) a) s

/-- Codes of remote atomics (R279). -/
def atomCode : AtomOp → Nat
  | .add => 0 | .min => 1 | .max => 2 | .and => 3 | .or => 4 | .xor => 5 | .xchg => 6 | .cas => 7 | .inc => 8 | .dec => 9
  | .fadd => 10
def atomOf : Nat → AtomOp
  | 0 => .add | 1 => .min | 2 => .max | 3 => .and | 4 => .or | 5 => .xor | 6 => .xchg | 7 => .cas | 8 => .inc | 9 => .dec
  | _ => .fadd

/-- Registers that an 8-byte xatom reads beside those of its word: the odd ones of its pairs (R100, R279). -/
def pairHighs (op : AtomOp) (b c : Reg) : List Reg := (if op = .cas then [b + 1, c + 1] else [b + 1]).filter (· != 255)

/-- The checks of an 8-byte xatom's odd registers, which its block alone names: pending ones hold it (R134), a word in
uncorrectable error traps, a corrected one counts (R119). -/
def highBody (rs : List Reg) (k : Iss → State → Effect) (x : Iss) (s : State) : Effect :=
  if rs.any (s.pending x.l x.k).contains then .hold
  else
    match rs.find? fun r => (SMap.find? x.w.poison (regKey r x.lane)).isSome with
    | some r => .trap { cause := 0x06, code := r.toNat, lane := some x.lane, index := x.lane }
    | none =>
      k x ((rs.filter fun r => x.w.soft.contains (regKey r x.lane)).foldl (fun s _ =>
        (s.loomError x.l 0).countLoom x.l 0x13 x.w.ctx 1) s)

/-- A register of an 8-byte xatom's pairs is the send or the receive register (R335). -/
def pairsPort (w : Weft) (op : AtomOp) (b c : Reg) : Bool :=
  match w.port with
  | none => false
  | some p => (if op = .cas then [b, b + 1, c, c + 1] else [b, b + 1]).any fun r => r == p.s || r == p.r

def execXatom (h : Guard) (op : AtomOp) (n : BitVec 4) (d a b c : Reg) (s : State) : Result :=
  let i : Instr := .xatom h op n d a b c
  issue (.xatom h op n d a b c) (fabBody a fun addr blk p x s =>
    if p.len ≠ 4 ∧ p.len ≠ 8 then faultL x 0x10
    else if p.len = 8 ∧ (b.toNat % 2 = 1 ∨ op = .cas ∧ c.toNat % 2 = 1 ∨ pairsPort x.w op b c) then faultL x 0x02
    else
      highBody (if p.len = 8 then pairHighs op b c else []) (fun x s =>
        if op = .fadd ∧ !faddSlot (Fmt.ofDef (x.w.fmt n)) then faultL x 0x07
        else
          let val (r : Reg) : DWord := if p.len = 8 then x.w.pair r x.lane else (x.w.lane r x.lane).setWidth 64
          fabAdmit x { newOp s x i with
            opa := addr, opb := val b, opc := if op = .cas then val c else 0, block := blk, defs := padDefs [x.w.fmt n],
            total := 1 } [] s) x s) s

/-- Fields of a route record (R280). -/
def routeId (r : List Byte) : Word := BitVec.ofNat 32 (leValue (r.take 4))
def routeCount (r : List Byte) : Nat := leValue ((r.drop 4).take 2) % 2 ^ 13
def routeMask (r : List Byte) : Nat := leValue ((r.drop 8).take 24)
def routeRoot (r : List Byte) : Nat := leValue ((r.drop 32).take 2) % 4096
def routeList (r : List Byte) : List Nat :=
  (List.range (routeCount r)).map fun k => leValue ((r.drop (64 + 2 * k)).take 2) % 4096

/-- xred's issue. DESIGN CHOICE (log entry 30): R280 gives the route record no alignment; the model asks 64 bytes of it, as
R264 does of the block, and faults with 0x08. -/
def execXred (h : Guard) (op : XredOp) (n : BitVec 4) (d a : Reg) (s : State) : Result :=
  let i : Instr := .xred h op n d a
  issue (.xred h op n d a) (macroBody fun x s =>
    let f := Fmt.ofDef (x.w.fmt n)
    if !(f.isFloat || f.isInt) then .trap { cause := 0x07 }
    else
      fabBody a (fun addr blk p x s =>
        loadL p.route 64 64 (fun r0 s =>
          let head := leBytes 64 r0
          let np := routeCount head
          if np = 0 ∨ np > 4096 ∨ routeMask head = 0 then faultL x 0x10
          else
            accessBody true false false (fun x => [{ lane := x.lane, va := p.route + 64, len := 2 * np }]) (fun v x s =>
              let rec_ := head ++ s.bytesVa v (p.route + 64) (2 * np)
              if !(routeList rec_).contains (routeRoot rec_) then faultL x 0x10
              else
                let total := (p.len + redK f - 1) / redK f
                fabAdmit x { newOp s x i with
                  opa := addr, block := blk, defs := padDefs [x.w.fmt n], total := total, contributor := x.l,
                  route := rec_ } [] s) x s) x s) x s) s

/-! ## A unit leaves its source (R277, R279, R281) -/

/-- The operation that a package's packet names, by loom and tag. -/
def State.fabOp (s : State) (l : Nat) (tag : BitVec 24) : Option Op := (s.loom l).fabQ.find? fun o => o.tag == tag

/-- A window address (R276). -/
def isWindow (a : DWord) : Bool := a.toNat / 2 ^ 52 == 0xFFF

/-- The header of a unit's packet; thi where an address is a window's (R275). -/
def Op.packet (o : Op) (s : State) (op u : Nat) (data : List Byte) : Packet :=
  let p := o.fabPlan
  { op := op, vc := p.vc, dst := p.node, src := s.node.toNat, hops := 0, ctx := o.ctx, len := o.fabUnitLen u, cnt := p.cnt,
    addr := p.raddr + BitVec.ofNat 64 (128 * u), ctr := p.ctr, launch := p.launch, loom := o.loom, tag := o.tag, unit := u,
    sub := 0, cause := 0, thi := if isWindow p.raddr || (p.cnt && isWindow p.ctr) then p.thi else 0, data := data }

/-- The next unit to send: after the last one sent, or from the progress register. -/
def State.nextUnit (s : State) (o : Op) : Nat :=
  o.sent.foldl (fun m u => max m (u + 1)) (s.progress o)

/-- Send a unit's packet and remember it: it crosses to the die whose gateway takes it (R17, R281, R368). -/
def State.sendUnit (s : State) (o : Op) (u : Nat) (p : Packet) : State :=
  let s1 := (s.modOp o.loom .fab o.id fun q => { q with sent := q.sent ++ [u] }).countLoom o.loom 0x0E o.ctx 1
  let die := match o.instr with | .xred .. => dieOf o.contributor | _ => s.leaveDie (dieOf o.loom) p.dst
  (s1.crossDies (dieOf o.loom) die (16 * p.slots)).sendPacket p

/-- Read a unit's local bytes, then send it; a fault waits until every earlier unit is acknowledged (R265). -/
def State.sendRead (s : State) (o : Op) (u bit w : Nat) (k : State → Nat → State) : State :=
  match s.readBits (s.opView o) false false o.fabPlan.laddr bit w with
  | .val n => k (s.noteEngine (s.opView o) false (bitAcc o.fabPlan.laddr bit w).1 false) n
  | .wait => s
  | .fault c code d => if s.progress o = u then s.opFault o c code d else s

/-- What a reduction's packet tells of E and the route, which R282 compares: E plus the CRC of the route (log entry 36). -/
def redCheck (elems : Nat) (route : List Byte) : Nat := (elems + crc64 route) % 2 ^ 32

/-- Data slot 0 of a reduction's packet: the definition, the collective, and the check word in its last bytes (R449; log entry
36). -/
def redHead (def_ : DWord) (id : Word) (check : Nat) : List Byte :=
  leBytes 8 def_.toNat ++ leBytes 4 id.toNat ++ leBytes 4 check

/-- A unit of the fabric gateway: the next packet of operation o (R277, R279, R281). -/
def State.fabUnit (s : State) (o : Op) : State :=
  let u := s.nextUnit o
  if u ≥ o.total ∨ o.refused.isSome ∨ o.discard then s
  else
    match o.instr with
    | .xput .. =>
      s.sendRead o u (1024 * u) (8 * o.fabUnitLen u) fun s n => s.sendUnit o u (o.packet s 0 u (leBytes (o.fabUnitLen u) n))
    | .xget .. => s.sendUnit o u (o.packet s 1 u [])
    | .xatom _ op .. =>
      s.sendUnit o u { o.packet s 3 u (leBytes 8 o.opb.toNat ++ leBytes 8 o.opc.toNat
        ++ (if op = .fadd then leBytes 16 (o.defn 0).toNat else [])) with sub := atomCode op }
    | .xred _ op .. =>
      let f := Fmt.ofDef (o.defn 0)
      let bytes := (o.fabUnitLen u * f.width + 7) / 8
      s.sendRead o u (u * redK f * f.width) (o.fabUnitLen u * f.width) fun s n =>
        s.sendUnit o u { o.packet s 7 u (redHead (o.defn 0) (routeId o.route) (redCheck o.fabPlan.len o.route)
            ++ leBytes bytes n) with
          dst := s.node.toNat, addr := o.fabPlan.raddr, len := bytes, aux := o.contributor,
          sub := match op with | .sum => 0 | .max => 1 | .min => 2 }
    | _ => s

/-! ## What comes back to the source (R276, R277, R279) -/

/-- Consecutive units from n on that are acknowledged. -/
def ackedFrom (acked : List Nat) : Nat → Nat → Nat
  | 0, n => n
  | k + 1, n => if acked.contains n then ackedFrom acked k (n + 1) else n

/-- Unit u of an operation is acknowledged: progress passes every unit acknowledged in order; a refusal that waited for
its turn faults the operation (R125, R276, R277). -/
def State.unitAcked (s : State) (o : Op) (u : Nat) : State :=
  let acked := if o.acked.contains u then o.acked else u :: o.acked
  let p := ackedFrom acked acked.length (s.progress o)
  let s1 := s.setProgress o p
  let s2 := s1.modOp o.loom .fab o.id fun q =>
    { q with sent := q.sent.filter (· ≥ p), acked := acked.filter (· ≥ p) }
  match s2.fabOp o.loom o.tag with
  | some q => if q.refused = some p ∧ !q.discard then s2.opFault q 0x14 0 0 else s2
  | none => s2

/-- Unit u of an operation is refused (R276). -/
def State.unitRefused (s : State) (o : Op) (u : Nat) : State :=
  if o.discard then
    s.modOp o.loom .fab o.id fun q => { q with acked := u :: q.acked }
  else if s.progress o = u then s.opFault o 0x14 0 0
  else s.modOp o.loom .fab o.id fun q => { q with refused := some (min u (q.refused.getD u)) }

/-- Packets of one route keep their order (R278): source, loom, channel and kind of packet. -/
def Packet.sameRoute (p q : Packet) : Bool :=
  p.src == q.src && p.loom == q.loom && p.vc == q.vc && p.isResponse == q.isResponse

/-- Packet i of those delivered here, if it is one of the ops given and no earlier packet of its route waits. -/
def State.inboundAt (s : State) (i : Nat) (ops : List Nat) : Option Packet :=
  match s.fabric.inbound[i]? with
  | none => none
  | some p =>
    if ops.contains p.op ∧ !((s.fabric.inbound.take i).any fun q => q.sameRoute p) then some p else none

/-- Packet i has been performed: its slots are free, and a response has crossed to its loom's die (R17, R450). -/
def State.takeInbound (s : State) (i : Nat) : State :=
  match s.fabric.inbound[i]? with
  | none => s
  | some p =>
    let s1 := (s.modFabric fun f => { f with inbound := f.inbound.eraseIdx i }).freeSlots p
    if p.isResponse then s1.crossDies p.die (dieOf p.loom) (16 * p.slots) else s1

/-- FABRIC_COMPLETION: the source receives a unit's acknowledgement (R277). -/
def execFabricCompletion (i : Nat) (s : State) : Result :=
  match s.inboundAt i [5] with
  | none => .next s
  | some p =>
    let s1 := s.takeInbound i
    match s1.fabOp p.loom p.tag with
    | none => .next s1
    | some o => .next (s1.unitAcked o p.unit)

/-- The arrival add of a unit at its source (R277), compared with the armed words (R396). -/
def State.countArrival (s : State) (v : View) (ctr : DWord) (n : Nat) : State :=
  ((s.writeVa v ctr 8 ((s.readVa v ctr 8 + n) % 2 ^ 64)).checkArms).noteEngine v false ⟨0, ctr, 8, 1⟩

/-- What the arrival add meets: the cases of its write, and an uncorrectable error of the word that it reads (R193, R211,
R215). -/
def State.addCase (s : State) (v : View) (ctr : DWord) : Option Got :=
  match s.writeCase v false false ctr 0 64 with
  | some g => some g
  | none => match s.readBits v false false ctr 0 64 with | .val _ => none | g => some g

/-- FABRIC_READ_RESPONSE: the source writes a unit of an xget, and adds to its arrival counter (R265, R277). -/
def execFabricReadResponse (i : Nat) (s : State) : Result :=
  match s.inboundAt i [2] with
  | none => .next s
  | some p =>
    match s.fabOp p.loom p.tag with
    | none => .next (s.takeInbound i)
    | some o =>
      if o.discard then .next ((s.takeInbound i).unitAcked o p.unit)
      else
        let v := s.opView o
        let f := o.fabPlan
        let n := o.fabUnitLen p.unit
        let fail (c : Nat) (d : DWord) : Result :=
          if s.progress o = p.unit then .next ((s.takeInbound i).opFault o c 0 d) else .next s
        match s.writeCase v false false f.laddr (1024 * p.unit) (8 * n) with
        | some (.fault c _ d) => fail c d
        | some _ => .next s
        | none =>
          match (if f.cnt then s.addCase v f.ctr else none) with
          | some (.fault c _ d) => fail c d
          | some _ => .next s
          | none =>
            let a := (bitAcc f.laddr (1024 * p.unit) (8 * n)).1
            let s1 := (s.takeInbound i).putBits v f.laddr (1024 * p.unit) (8 * n) (leValue (p.data.take n))
            let s2 := (s1.settleMarks v a (spanCovers f.laddr 0 (1024 * p.unit + 8 * n))).noteEngine v false a
            let s3 := if f.cnt then s2.countArrival v f.ctr n else s2
            .next (s3.unitAcked o p.unit)

/-- FABRIC_ATOMIC_RESPONSE: the old value of a remote atomic, and for .fadd its flags and record (R279). -/
def execFabricAtomicResponse (i : Nat) (s : State) : Result :=
  match s.inboundAt i [4] with
  | none => .next s
  | some p =>
    let s1 := s.takeInbound i
    match s1.fabOp p.loom p.tag with
    | none => .next s1
    | some o =>
      let code := p.launch.toNat / 256 % 256
      let s2 := s1.opRecords o (o.convRecs (if code = 0 then [] else [(0, code)]))
      let s3 := s2.modOp o.loom .fab o.id fun q =>
        { q with result := BitVec.ofNat 64 (leValue (p.data.take 8)), parts := [1], flags := q.flags ||| BitVec.ofNat 6 p.launch.toNat }
      match s3.fabOp p.loom p.tag with
      | none => .next s3
      | some q => .next (s3.unitAcked q p.unit)

/-! ## The destination of a unit (R276) -/

/-- Where a remote address lies at this package: refused, held, in a placed team's share, or at a virtual address. -/
inductive Remote where
  | refused (order : Nat)
  | held
  | lm (loom base : Nat)
  | va (v : View) (a : DWord)

/-- The launch that a completion signal address names in a context (R276). -/
def State.signalled (s : State) (ctx : Nat) (a : DWord) : Option Launch :=
  s.launches.find? fun x => x.ctx == ctx && x.lrec.signal == a && x.refusal == 0

/-- A virtual address of n bytes at the destination: the cases of R254 in its order, a field that only supervisor mode
writes (R6; log entry 36), and errors: of a read any word of it, of a write what refuses a store (R211, R215). -/
def State.remoteVa (s : State) (ctx : Nat) (read store : Bool) (a : DWord) (n align : Nat) : Remote :=
  let v := deviceView ctx
  let c := (s.accCase v store ⟨0, a, n, align⟩).1
  let sps := s.spots v ⟨0, a, n, 1⟩
  if c < 70 then .refused (c / 10)
  else if c = 70 then .held
  else if store && s.touchesSv sps then .refused 12
  else if (store && s.writeError 0 sps) || (read && s.deviceError ctx a n) then .refused 14
  else .va v a

/-- Bytes of a share: a read meets an uncorrectable word, a write one that it covers in part (R193). -/
def State.shareError (s : State) (l base n : Nat) (read store : Bool) : Bool :=
  let sps := (List.range n).map fun k => Spot.lm (base + k)
  (read && sps.any (s.readError l)) || (store && s.writeError l sps)

/-- The destination of n bytes of a packet's address, or of its arrival counter (R276, R278). -/
def State.remote (s : State) (p : Packet) (read store : Bool) (a : DWord) (n align : Nat) : Remote :=
  if !isWindow a then s.remoteVa p.ctx read store a n align
  else
    let off := a.toNat % 2 ^ 20
    let team := a.toNat / 2 ^ 20 % 2 ^ 32 + 2 ^ 32 * p.thi
    match s.signalled p.ctx p.launch with
    | none => .refused 7
    | some x =>
      if team ≥ x.total then .refused 7
      else
        let id : TeamId := { queue := x.queue, count := x.count, n := team }
        match s.findTeam id with
        | some (l, h) =>
          (match s.team? l h with
            | none => .refused 7
            | some t =>
              if off % align ≠ 0 ∨ off + n > t.shareSize then .refused 2
              else if s.shareError l (t.shareBase + off) n read store then .refused 14
              else .lm l (t.shareBase + off))
        | none =>
          match x.swapped.find? fun v => v.team.id == id with
          | none => .refused 7
          | some v =>
            if off % align ≠ 0 ∨ off + n > v.team.shareSize then .refused 2
            else s.remoteVa x.ctx read store (v.team.swap + BitVec.ofNat 64 (imageShare v.team.slots.length + off)) n 1

/-- The word of an arm entry in a swap image holds its target (R431). -/
def State.imageReached (s : State) (v : Saved) (e : Arm) : Bool :=
  e.target.toNat ≤ s.readVa (deviceView v.team.ctx) (v.team.swap + BitVec.ofNat 64 (imageShare v.team.slots.length + e.addr)) 8

/-- The wefts of a saved team that await a word whose target is reached return at their first issue (R400, R431). -/
def State.imageArms (s : State) (v : Saved) : Saved :=
  let met := (v.arms.filter (s.imageReached v)).map (·.addr)
  if met.isEmpty then v
  else { v with wefts := v.wefts.map fun p => (p.1, { p.2 with awaited := p.2.awaited.map fun w => (w.1, w.2 || met.contains w.1) }) }

/-- The arm entries of swapped-out teams compared with their image words (R400, R431). -/
def State.checkImages (s : State) : State :=
  { s with launches := s.launches.map fun x => { x with swapped := x.swapped.map s.imageArms } }

/-- Read and write at a remote place; a write is compared with the armed words (R396, R400). -/
def State.remoteRead (s : State) (r : Remote) (n : Nat) : Nat :=
  match r with
  | .lm l b => Memory.readLe (s.loom l).mem b n
  | .va v a => s.readVa v a n
  | _ => 0
def State.remoteWrite (s : State) (r : Remote) (n x : Nat) : State :=
  match r with
  | .lm l b => (s.storeSpots l (((List.range n).map fun k => Spot.lm (b + k)).zip (leBytes n x))).checkArms
  | .va v a => ((s.writeVa v a n x).checkArms).checkImages
  | _ => s

/-- What an access of n bytes at a remote place, made from a die, leaves behind it: crossings, TLB, L2, counts, and of a read the
corrected errors that it met (R17, R190, R212, R405). -/
def State.noteRemote (s : State) (from_ : Nat) (r : Remote) (n ctx : Nat) (write : Bool) : State :=
  match r with
  | .lm l b =>
    if write then s.crossDies from_ (dieOf l) n
    else (s.crossDies (dieOf l) from_ n).softSpots l ctx ((List.range n).map fun k => Spot.lm (b + k))
  | .va v a =>
    let s1 := s.noteFrom from_ v ⟨0, a, n, 1⟩ write
    if write then s1 else s1.noteSoft v [⟨0, a, n, 1⟩]
  | _ => s

/-- The add to an arrival counter at the destination (R277). -/
def State.remoteAdd (s : State) (from_ : Nat) (r : Remote) (ctx n : Nat) : State :=
  ((s.noteRemote from_ r 8 ctx false).remoteWrite r 8 ((s.remoteRead r 8 + n) % 2 ^ 64)).noteRemote from_ r 8 ctx true

/-- The destination refuses the later units of an operation whose unit it refused (R276). -/
def State.refusesOp (s : State) (p : Packet) : Bool := s.fabric.refusing.contains (p.src, p.loom, p.tag)

/-- One more operation whose later units are refused. -/
def addRefused (xs : List (Nat × Nat × BitVec 24)) (x : Nat × Nat × BitVec 24) : List (Nat × Nat × BitVec 24) :=
  if xs.contains x then xs else xs ++ [x]

/-- Refuse a unit at the destination, and every later unit of its operation. -/
def State.refuseUnit (s : State) (i : Nat) (p : Packet) (cause : Nat) : State :=
  let s1 := (s.takeInbound i).modFabric fun f =>
    { f with refusing := addRefused f.refusing (p.src, p.loom, p.tag) }
  s1.refuse p cause

/-- Perform a unit at its destination: its place, then its arrival counter's, then `k` (R276, R277). -/
def State.atDestination (s : State) (i : Nat) (p : Packet) (read store : Bool) (n align : Nat)
    (k : Remote → State → State × Packet) : Result :=
  if s.refusesOp p then .next (s.refuseUnit i p 10)
  else
    match s.remote p read store p.addr n align with
    | .refused c => .next (s.refuseUnit i p c)
    | .held => .next s
    | r =>
      match (if p.cnt ∧ p.op ≠ 1 then s.remote p true true p.ctr 8 8 else .lm 0 0) with
      | .refused c => .next (s.refuseUnit i p c)
      | .held => .next s
      | c =>
        let (s1, reply) := k r (s.takeInbound i)
        let t1 := if read then s1.noteRemote p.die r n p.ctx false else s1
        let t2 := if store then t1.noteRemote p.die r n p.ctx true else t1
        .next ((if p.cnt ∧ p.op ≠ 1 then t2.remoteAdd p.die c p.ctx p.len else t2).sendPacket reply)

/-- FABRIC_WRITE_UNIT: the destination writes a unit of an xput and makes its arrival add (R277). -/
def execFabricWriteUnit (i : Nat) (s : State) : Result :=
  match s.inboundAt i [0] with
  | none => .next s
  | some p =>
    s.atDestination i p false true p.len 1 fun r s => (s.remoteWrite r p.len (leValue (p.data.take p.len)), p.reply 5 [])

/-- FABRIC_READ_REQUEST: the destination serves a unit of an xget (R277). -/
def execFabricReadRequest (i : Nat) (s : State) : Result :=
  match s.inboundAt i [1] with
  | none => .next s
  | some p => s.atDestination i p true false p.len 1 fun r s => (s, p.reply 2 (leBytes p.len (s.remoteRead r p.len)))

/-- FABRIC_ATOMIC_REQUEST: the destination performs a remote atomic (R279). -/
def execFabricAtomicRequest (i : Nat) (s : State) : Result :=
  match s.inboundAt i [3] with
  | none => .next s
  | some p =>
    let op := atomOf p.sub
    let f := Fmt.ofDef (BitVec.ofNat 64 (leValue ((p.data.drop 16).take 8)))
    let n := if op = .fadd then f.width / 8 else p.len
    s.atDestination i p true true n n fun r s =>
      let old := s.remoteRead r n
      let v := leValue (p.data.take 8)
      let c := leValue ((p.data.drop 8).take 8)
      if op = .fadd then
        let a := f.decode old
        let b := f.decode (v % 2 ^ f.width)
        let sm := sumNums f.rdn [a, b]
        let q := f.round sm.1 false
        let fl := q.flags ||| sm.2 ||| a.readFlags ||| b.readFlags
        (s.remoteWrite r n q.bits,
          { p.reply 4 (leBytes 16 old) with launch := BitVec.ofNat 64 (fl.toNat + 256 * q.record.getD 0) })
      else
        let w := 8 * n
        let new := atomNew op w old (v % 2 ^ w) (c % 2 ^ w)
        (if op = .cas ∧ old ≠ c % 2 ^ w then s else s.remoteWrite r n new, { p.reply 4 (leBytes 16 old) with launch := 0 })

/-! ## Reductions (R280 to R282) -/

/-- A contribution packet's definition, collective and elements. -/
def Packet.redDef (p : Packet) : DWord := BitVec.ofNat 64 (leValue (p.data.take 8))
def Packet.redId (p : Packet) : Word := BitVec.ofNat 32 (leValue ((p.data.drop 8).take 4))
def Packet.redCheck (p : Packet) : Nat := leValue ((p.data.drop 12).take 4)
/-- Its contributor index, its operation, and the flags of the steps behind a partial, in the places of its header that no rule
gives a reduction: cause, and the upper half of sub (log entry 36). -/
def Packet.redFrom (p : Packet) : Nat := p.aux % 256
def Packet.redOp (p : Packet) : Nat := p.sub % 4
def Packet.redFlags (p : Packet) : BitVec 6 := BitVec.ofNat 6 (p.cause + 16 * (p.sub / 4))

/-- The collective that a packet belongs to, as it stands or as its first contribution makes it. -/
def State.collective (s : State) (p : Packet) : Collective :=
  (s.fabric.collectives.find? fun c => c.ctx == p.ctx && c.id == p.redId).getD
    { ctx := p.ctx, id := p.redId, op := p.redOp, def_ := p.redDef, check := p.redCheck, elems := 0, raddr := p.addr, ctr := p.ctr,
      cnt := p.cnt, route := [], launch := p.launch, thi := p.thi, got := [], done := [], flags := 0 }

def State.setCollective (s : State) (c : Collective) : State :=
  s.modFabric fun f =>
    { f with collectives := c :: f.collectives.filter fun d => !(d.ctx == c.ctx && d.id == c.id) }

/-- A packet carries the attributes of its collective (R282), and comes from a package of its route. DESIGN CHOICE (log entry 36):
of another package only partials come, so that a package that is not the root judges its own contributions by the first of
them. -/
def Collective.agrees (c : Collective) (p : Packet) (elems : Nat) (route : List Byte) : Bool :=
  c.op == p.redOp && c.def_ == p.redDef && c.check == p.redCheck && c.raddr == p.addr && c.ctr == p.ctr && c.cnt == p.cnt
    && (route.isEmpty || c.route.isEmpty || (c.route == route && c.elems == elems))
    && (c.route.isEmpty || (routeList c.route).contains p.src)

/-- Elements of packed bytes. -/
def unpackElems (w n : Nat) (b : List Byte) : List Nat := (List.range n).map fun k => leValue b >>> (k * w) % 2 ^ w
def packElems (w : Nat) (es : List Nat) : List Byte :=
  leBytes ((es.length * w + 7) / 8) (es.reverse.foldl (fun acc e => acc * 2 ^ w + e % 2 ^ w) 0)

/-- The operation of hred's fold that an xred operation is (R281, R343). -/
def redStep : Nat → Nat
  | 0 => 0 | 1 => 2 | _ => 1

/-- Fold vectors element by element: values, flags, and records as (element, code) (R281). -/
def foldVectors (op : Nat) (f : Fmt) : List (List Nat) → List Nat × BitVec 6 × List (Nat × Nat)
  | [] => ([], 0, [])
  | v :: vs =>
    vs.foldl (fun acc x =>
      let rs := (acc.1.zip x).map fun q => hredStep (redStep op) f q.1 q.2
      (rs.map (·.1), rs.foldl (fun fl r => fl ||| r.2.1) acc.2.1,
        acc.2.2 ++ (rs.zipIdx.flatMap fun r => (r.1.2.2.toList).map fun c => (r.2, c)))) (v, 0, [])

/-- Contributions of a unit from a node, repeats apart. -/
def Collective.from_ (c : Collective) (node unit : Nat) : List Contribution :=
  c.got.filter fun g => g.node == node && g.unit == unit && !g.data.isEmpty

/-- The contributor looms. -/
def Collective.looms (c : Collective) : List Nat :=
  (List.range Config.looms).filter fun l => (routeMask c.route).testBit l

/-- This package's partial of a unit, once every contributor's data is here (R281). -/
def Collective.partial_ (c : Collective) (node unit : Nat) : Option (List Nat × BitVec 6 × List (Nat × Nat)) :=
  let f := Fmt.ofDef c.def_
  let n := min (redK f) (c.elems - unit * redK f)
  let have_ := c.from_ node unit
  if c.route.isEmpty ∨ !(c.looms.all fun l => have_.any fun g => g.loom == l) then none
  else
    let vec (l : Nat) : List Nat :=
      match have_.find? fun g => g.loom == l with
      | none => []
      | some g => unpackElems f.width n g.data
    let ts := ((List.range 4).map fun q => (c.looms.filter fun l => l / 48 == q).map vec).filter fun v => !v.isEmpty
    let folds := ts.map (foldVectors c.op f)
    let top := foldVectors c.op f (folds.map (·.1))
    some (top.1, folds.foldl (fun fl r => fl ||| r.2.1) top.2.1, folds.flatMap (·.2.2) ++ top.2.2)

/-- The partial of a listed package at the root: its own, or the packet that package sent. -/
def Collective.part (c : Collective) (self node unit : Nat) : Option (List Nat × BitVec 6 × List (Nat × Nat)) :=
  if node = self then c.partial_ node unit
  else
    let f := Fmt.ofDef c.def_
    let n := min (redK f) (c.elems - unit * redK f)
    (c.from_ node unit).head?.map fun g => (unpackElems f.width n g.data, g.flags, [])

/-- The result of a unit at the root, once every package's partial is here (R281). -/
def Collective.result (c : Collective) (self unit : Nat) : Option (List Nat × BitVec 6 × List (Nat × Nat)) :=
  if c.route.isEmpty ∨ routeRoot c.route ≠ self then none
  else
    let ps := (routeList c.route).map fun n => c.part self n unit
    if ps.any Option.isNone then none
    else
      let qs := ps.filterMap fun x => x
      let top := foldVectors c.op (Fmt.ofDef c.def_) (qs.map (·.1))
      some (top.1, qs.foldl (fun fl r => fl ||| r.2.1) top.2.1, qs.flatMap (·.2.2) ++ top.2.2)

/-- Packets that answer contributions recorded here: completions, or refusals. -/
def Collective.answers (c : Collective) (self op cause : Nat) (fl : BitVec 6) (gs : List Contribution) : List Packet :=
  gs.map fun g =>
    { op := op, vc := 0, dst := g.node, src := self, hops := 0, ctx := c.ctx, len := 0, cnt := false, addr := c.raddr,
      ctr := 0, launch := BitVec.ofNat 64 fl.toNat, loom := g.at_, tag := g.tag, unit := g.unit, sub := 0, cause := cause,
      thi := 0, data := [] }

/-- A unit of a collective is complete here: everyone recorded for it is answered. DESIGN CHOICE (log entry 30): R282 does not
say when a gateway forgets a collective; the model keeps it, with its done units, until its context is torn down or one of its
units is refused. -/
def State.answerUnit (s : State) (c : Collective) (unit : Nat) (fl : BitVec 6) : State :=
  let gs := c.got.filter fun g => g.unit == unit
  let s1 := (c.answers s.node.toNat 8 0 fl gs).foldl (fun s p => s.sendPacket p) s
  s1.setCollective
    { c with done := unit :: c.done, flags := c.flags ||| fl, got := c.got.filter fun g => g.unit != unit }

/-- A unit of a collective is refused: everyone recorded here is, their later units are too (R276), and the collective is
forgotten, so that contributions issued again make it anew. -/
def State.refuseCollective (s : State) (c : Collective) (cause : Nat) : State :=
  let s1 := (c.answers s.node.toNat 6 cause 0 c.got).foldl (fun s p => s.sendPacket p) s
  s1.modFabric fun f =>
    { f with collectives := f.collectives.filter (fun d => !(d.ctx == c.ctx && d.id == c.id)),
             refusing := c.got.foldl (fun xs g => addRefused xs (g.node, g.at_, g.tag)) f.refusing }

/-- The bits of unit `unit` of the packed result: its first bit behind raddr, and how many (R80, R281). -/
def Collective.bits (c : Collective) (unit n : Nat) : Nat × Nat :=
  let f := Fmt.ofDef c.def_
  (unit * redK f * f.width, n * f.width)

/-- The lowest die of a collective's contributors (R281). -/
def Collective.homeDie (c : Collective) : Nat := dieOf (c.looms.head?.getD 0)

/-- The root writes a unit's result and adds to its arrival counter, and answers everyone (R281, R282): none while a page
is not resident. DESIGN CHOICE (log entry 36): no one weft issues the root's steps, and their conversion records carry pc, slot and
lane 0 and the lowest contributing loom. -/
def State.reduceUnit (s : State) (c : Collective) (p : Packet) (unit : Nat) (r : List Nat × BitVec 6 × List (Nat × Nat)) :
    Option State :=
  let f := Fmt.ofDef c.def_
  let (bit, w) := c.bits unit r.1.length
  let bytes := (bit % 8 + w + 7) / 8
  let q := { p with launch := c.launch, thi := c.thi }
  match s.remote q false true (c.raddr + BitVec.ofNat 64 (bit / 8)) bytes 1,
      (if c.cnt then s.remote q true true c.ctr 8 8 else .lm 0 0) with
  | .refused k, _ => some (s.refuseCollective c k)
  | _, .refused k => some (s.refuseCollective c k)
  | .held, _ => none
  | _, .held => none
  | x, y =>
    let s1 := s.remoteWrite x bytes (replaceBits (s.remoteRead x bytes) (bit % 8) w (leValue (packElems f.width r.1)))
    let s1 := s1.noteRemote c.homeDie x bytes c.ctx true
    let s2 := if c.cnt then s1.remoteAdd c.homeDie y c.ctx ((w + 7) / 8) else s1
    let s3 := s2.convRecords c.ctx (r.2.2.map fun e =>
      { pc := 0, slot := 0, lane := 0, engine := true, loom := c.looms.head?.getD 0, code := e.2,
        element := unit * redK f + e.1 })
    some (s3.answerUnit c unit r.2.1)

/-- The dies' folds travel to the lowest contributing die of the package (R17, R281). -/
def State.foldCrossings (s : State) (c : Collective) (bytes : Nat) : State :=
  (List.range 4).foldl (fun s q => if c.looms.any fun l => dieOf l == q then s.crossDies q c.homeDie bytes else s) s

/-- This package's partial goes to the root (R281). -/
def partialPacket (s : State) (c : Collective) (p : Packet) (unit : Nat) (r : List Nat × BitVec 6 × List (Nat × Nat)) : Packet :=
  let bytes := packElems (Fmt.ofDef c.def_).width r.1
  { p with dst := routeRoot c.route, src := s.node.toNat, hops := 0, len := bytes.length, unit := unit,
           sub := c.op + 4 * (r.2.1.toNat / 16), cause := r.2.1.toNat % 16, aux := 0, via := none,
           data := redHead c.def_ c.id c.check ++ bytes }

/-- What a new contribution completes: a unit's result at the root, or this package's partial elsewhere. -/
def State.reduceNext (s : State) (c : Collective) (p : Packet) : Option State :=
  let self := s.node.toNat
  let s1 := s.setCollective c
  match c.result self p.unit with
  | some r => (s1.foldCrossings c (16 * p.slots)).reduceUnit c p p.unit r
  | none =>
    if p.src ≠ self ∨ c.route.isEmpty ∨ routeRoot c.route = self then some s1
    else
      match c.partial_ self p.unit with
      | none => some s1
      | some r =>
        let q := partialPacket s c p p.unit r
        some (((s1.foldCrossings c (16 * q.slots)).crossDies c.homeDie (s.leaveDie c.homeDie q.dst) (16 * q.slots)).sendPacket q)

/-- REDUCTION_CONTRIBUTION: a gateway takes a contribution of this package, or a partial of another (R281, R282). A repeat
from one contributor carries no data; it retires with the others. -/
def execReductionContribution (i : Nat) (s : State) : Result :=
  match s.inboundAt i [7] with
  | none => .next s
  | some p =>
    let own := p.src == s.node.toNat
    let (elems, route) := match (if own then s.fabOp p.loom p.tag else none) with
      | some o => (o.fabPlan.len, o.route)
      | none => (0, [])
    let c := s.collective p
    let c := if c.route.isEmpty then { c with route := route, elems := elems } else c
    let s1 := s.takeInbound i
    if s.refusesOp p then .next (s.refuseUnit i p 10)
    else if !c.agrees p elems route then .next (s.refuseUnit i p 11)
    else if c.done.contains p.unit then
      .next (s1.sendPacket { p.reply 8 [] with launch := BitVec.ofNat 64 c.flags.toNat })
    else
      let dup := !(c.got.all fun g => !(g.node == p.src && g.loom == p.redFrom && g.unit == p.unit))
      let g : Contribution := { node := p.src, loom := p.redFrom, at_ := p.loom, tag := p.tag, unit := p.unit,
                                data := if dup then [] else p.data.drop 16, flags := p.redFlags }
      match s1.reduceNext { c with got := c.got ++ [g] } p with
      | none => .next s
      | some s2 => .next (s2.countDie (if own then dieOf p.redFrom % 4 else c.homeDie) 0x4B 1)

/-- The collective of an answer that this package's own partial brought back: the root's answer names the loom and tag of a
contribution recorded here (R448). -/
def State.answered (s : State) (p : Packet) : Option Collective :=
  if p.src = s.node.toNat then none
  else s.fabric.collectives.find? fun c =>
    c.ctx == p.ctx && c.got.any fun g => g.node == s.node.toNat && g.at_ == p.loom && g.tag == p.tag && g.unit == p.unit

/-- REDUCTION_COMPLETION: a unit's result is visible; it is passed to this package's contributors (R282). -/
def execReductionCompletion (i : Nat) (s : State) : Result :=
  match s.inboundAt i [8] with
  | none => .next s
  | some p =>
    let s1 := s.takeInbound i
    let fl := BitVec.ofNat 6 p.launch.toNat
    match s1.answered p with
    | some c => .next (s1.answerUnit c p.unit fl)
    | none =>
      match s1.fabOp p.loom p.tag with
      | none => .next s1
      | some o =>
        let s2 := s1.modOp o.loom .fab o.id fun q => { q with flags := q.flags ||| fl }
        match s2.fabOp p.loom p.tag with
        | none => .next s2
        | some q => .next (s2.unitAcked q p.unit)

/-! ## The census of other packages (R382, R387, R388) -/

/-- CENSUS_REQUEST: another package's solicit reaches this one, whose census point is still to pass (R382). -/
def execCensusRequest (i : Nat) (s : State) : Result :=
  match s.inboundAt i [9] with
  | none => .next s
  | some p =>
    let w (k : Nat) : DWord := BitVec.ofNat 64 (leValue ((p.data.drop (8 * k)).take 8))
    let c : Census :=
      { counted := 0, answered := 0, value := 0, flags := 0, op := p.sub, pkgs := 1, asker := p.loom, ctx := p.ctx,
        got := false, first := (0, 0, 0), key := w 0, handler := w 1, arg := w 2, allot := (w 3).toNat % 256, group := true,
        box := .gone, here := true, nodes := [] }
    .next { s.takeInbound i with census := SMap.put s.census (censusKey p.src ((w 3).toNat / 256 % 256)) c }

/-- Combine a package's result into a census (R387). -/
def Census.combine (c : Census) (v : Word) (got : Bool) (from_ : Nat) : Census :=
  if !got then c
  else if c.op = 4 then { c with value := c.value + v, got := true }
  else c.fold v (from_, 0, 0)

/-- CENSUS_ANSWER: a package's result is combined at the asker's gateway (R387). -/
def execCensusAnswer (i : Nat) (s : State) : Result :=
  match s.inboundAt i [10] with
  | none => .next s
  | some p =>
    let s1 := s.takeInbound i
    let key := censusKey s.node.toNat (p.tag.toNat % 256)
    let x := leValue (p.data.take 16)
    match SMap.find? s1.census key with
    | none => .next s1
    | some c =>
      if !c.nodes.contains p.src then .next s1
      else
        let c1 := c.combine (BitVec.ofNat 32 (x / 2 ^ 64)) (x.testBit 115) p.src
        let c2 : Census :=
          { c1 with counted := c1.counted + x % 2 ^ 32, answered := c1.answered + x / 2 ^ 32 % 2 ^ 32, pkgs := c1.pkgs - 1,
                    flags := c1.flags ||| (BitVec.ofNat 16 (x / 2 ^ 96) &&& 0xE), nodes := c1.nodes.erase p.src }
        .next ({ s1 with census := SMap.put s1.census key c2 }.countDie (dieOf c.asker) 0x4B 1)

/-! ## Refusals (R276, R282, R388) -/

/-- FABRIC_REFUSAL: the source receives a refusal: of an operation's unit, of this package's partial, or of a census
request. -/
def execFabricRefusal (i : Nat) (s : State) : Result :=
  match s.inboundAt i [6] with
  | none => .next s
  | some p =>
    let s1 := s.takeInbound i
    if p.tag.getLsbD 23 then
      let key := censusKey s.node.toNat (p.tag.toNat % 256)
      match SMap.find? s1.census key with
      | none => .next s1
      | some c =>
        if !c.nodes.contains p.src then .next s1
        else
          let c1 : Census := { c with pkgs := c.pkgs - 1, flags := c.flags ||| 16, nodes := c.nodes.erase p.src }
          .next { s1 with census := SMap.put s1.census key c1 }
    else
      match s1.answered p with
      | some c => .next (s1.refuseCollective c p.cause)
      | none =>
        match s1.fabOp p.loom p.tag with
        | none => .next s1
        | some o => .next (s1.unitRefused o p.unit)

end Sys2Proof.Machine
end

