-- ==== Sys2Proof/Machine/Traps.lean ====
section
/-! DEFINITION. Asynchronous traps and TRAP_ENTRY, the return from a trap with its replay queue, the replay-queue
instructions, setidem, halt and trap (16_traps_and_preemption.md R416 to R425, R433, R434). -/

namespace Sys2Proof.Machine

/-! ## Taking a trap that is due (R416, R417) -/

/-- An asynchronous trap that finds no frame memory: the team is to be saved, or ends with 0xF4 (R417). -/
def State.asyncWaits (s : State) (l : Nat) (w : Weft) : State :=
  match w.team with
  | none => s
  | some h =>
    match s.team? l h with
    | none => s
    | some t =>
      if s.imageState t.ctx t.swap t.imageBytes = .unusable then s.terminateTeam l h
      else s.setStop l h fun o => o.getD .save

/-- The head of an asynchronous trap's frame: that of replay entry 0 (R419). -/
def Faulted.head (f : Faulted) : TrapHead :=
  { pc := f.op.pc, cause := f.cause, code := f.code, async := true, lane := f.op.lane, index := f.index, detail := f.detail }

/-- Raise the asynchronous trap of a weft's faulted operations (R416, R417). -/
def State.raiseAsync (s : State) (l k : Nat) : State :=
  match s.weft? l k with
  | none => s
  | some w =>
    match w.faulted with
    | [] => s
    | f :: _ =>
      match s.takeTrap l k f.head with
      | .entered s' => s'
      | .terminate x => s.terminate l k x x none f.op.pc
      | .waits => s.asyncWaits l w

/-- The weft's next trap is asynchronous: an operation has faulted, and no handler runs (R416, R418). -/
def Weft.trapNext (w : Weft) : Bool := !w.faulted.isEmpty && !w.sv && w.frame.isNone

/-- The weft waits in something that an asynchronous trap lets end first (R416): the waits of its second row, and a flit
whose instruction has completed but for the send. -/
def Weft.trapHeld (w : Weft) : Bool :=
  match w.wait with
  | .none | .sbWdr .. | .full .. => false
  | _ => true

/-- An asynchronous trap is to be taken before any further issue (R416). -/
def Weft.asyncDue (w : Weft) : Bool := w.trapNext && w.ended.isNone && !w.trapHeld

/-- Take the trap that is pending or due, if one is (R416, R417). -/
def State.takeDue (s : State) (l k : Nat) (w : Weft) : Option State :=
  match w.trap with
  | some r => some (s.raise l k r.pc r.lane r.cause)
  | none => if w.asyncDue then some (s.raiseAsync l k) else none

/-- TRAP_ENTRY: a weft takes the trap that waits for frame memory, or the asynchronous trap of its faulted operations
(R416, R417). -/
def execTrapEntry (l k : Nat) (s : State) : Result :=
  match s.weft? l k with
  | none => .next s
  | some w => if s.halted l w then .next s else .next ((s.takeDue l k w).getD s)

/-! ## Re-entry of a replay entry (R422) -/

/-- N of an operation, from what it holds. -/
def State.opTotal (s : State) (o : Op) : Nat :=
  match o.instr with
  | .copy .. | .gather .. | .scatter .. => o.copyPlan.total
  | .cmpst .. | .expld .. => o.cmpPlan.n
  | .xput .. | .xget .. => (o.fabPlan.len + 127) / 128
  | .xatom .. => 1
  | .xred .. => (o.fabPlan.len + redK (Fmt.ofDef (o.defn 0)) - 1) / redK (Fmt.ofDef (o.defn 0))
  | .bankop .. => o.bankPlan.n
  | .sbMove .. => o.total
  | _ => s.matrixTotal o

/-- The intervals of memory that an operation touches (R196). -/
def State.opSpans (s : State) (o : Op) : List Span :=
  match o.instr with
  | .copy .. | .gather .. | .scatter .. => o.copyPlan.spans
  | .cmpst .. | .expld .. => o.cmpPlan.spans
  | .xput .. | .xget .. | .xatom .. | .xred .. | .bankop .. | .sbMove .. => []
  | _ => s.matrixSpans o

/-- A captured block address that is not aligned to its block (R264). -/
def Op.blockFault (o : Op) (n : Nat) : Option Cause :=
  if o.opa.toNat % n ≠ 0 then some { cause := 0x08, lane := some o.lane, detail := o.opa } else none

/-- The checks of a fabric operation on what it captured (R275, R279, R280). -/
def State.fabCheck (o : Op) : Option Cause :=
  let p := o.fabPlan
  let fault (c : Nat) (d : DWord := 0) : Option Cause := some { cause := c, lane := some o.lane, detail := d }
  let f := Fmt.ofDef (o.defn 0)
  if p.cnt && p.ctr.toNat % 8 != 0 then fault 0x08 p.ctr
  else
    match o.instr with
    | .xatom _ op _ _ _ b c =>
      if p.len ≠ 4 ∧ p.len ≠ 8 then fault 0x10
      else if p.len = 8 ∧ (b.toNat % 2 = 1 ∨ op = .cas ∧ c.toNat % 2 = 1) then fault 0x02
      else if op = .fadd ∧ !faddSlot f then fault 0x07
      else none
    | .xred .. => if !(f.isFloat || f.isInt) then fault 0x07 else none
    | _ => none

/-- The issue checks of an operation, applied to what its entry holds (R422). A malformed code that only an index record
not captured could give is taken as none. -/
def State.reCheck (s : State) (o : Op) : Option Cause :=
  match o.instr with
  | .copy .. | .gather .. | .scatter .. =>
    let isScatter := match o.instr with | .scatter .. => true | _ => false
    let t := Tensor.ofBits (o.record (if isScatter then 0 else 1))
    (o.blockFault 64).orElse fun _ => s.copyCheck o (({ t with kidx := 7 } : Tensor).code t 0)
  | .cmpst .. | .expld .. => o.blockFault 32
  | .mma .. | .mmaSp .. | .mmaDy .. | .delta .. => (o.blockFault 64).orElse fun _ => s.matrixCheck o
  | .aspill .. | .afill .. | .ascale .. | .acvt .. => s.matrixCheck o
  | .xput .. | .xget .. | .xatom .. | .xred .. => (o.blockFault 64).orElse fun _ => State.fabCheck o
  | .bankop .. => o.bankPlan.check o.lane
  | .sbMove .. =>
    let src := o.parts.getD 0 o.loom
    if o.parts.getD 3 0 = 0
        ∧ ((s.movable src o.ctx (o.opb.extractLsb' 0 32)).isNone ∨ o.opc.toNat ≥ Config.looms ∨ o.opc.toNat = src) then
      some { cause := 0x1A, lane := some o.lane }
    else none
  | _ => some { cause := 0x02, lane := some o.lane }

/-- What becomes of a replay entry at iret (R422). -/
inductive ReEntry where
  | drop
  | enter (o : Op)
  | keep (o : Op) (c : Cause)

/-- The operation as it re-enters: nothing of its first life but its captures, its identity, the flags and, of a matrix operation,
the status bits of the units that it has done (R77, R294), the source elements that an overlapping copy has read ahead (R269) and,
for sb.move, its unit count, its source loom and its reservations (R378). -/
def State.fresh? (s : State) (o : Op) (i : Instr) (legacy : Bool) : Op :=
  let kept := if o.cls = OcClass.mat then o.result else 0
  let o1 := { o with instr := i, legacy := legacy, result := kept, sending := none, sent := [], acked := [], refused := none,
                     merging := false, discard := false, enter := false, started := false }
  let o2 := match i with
    | .sbMove .. =>
      if o1.parts.length = 6 ∧ o1.parts.getD 3 0 ≠ 0 then o1
      else { o1 with parts := [o1.parts.getD 0 o.loom, 0, o.opc.toNat, 0, 0, 0] }
    | .bankop .. => s.bankCommand o1
    | _ => { o1 with parts := [] }
  { o2 with total := s.opTotal o2 }

/-- A replay entry is decoded through the table as it stands, and checked (R107, R415, R422). -/
def State.reEntry (s : State) (w : Weft) (o : Op) : ReEntry :=
  let fault (c : Nat) (code : Nat := 0) : ReEntry := .keep o { cause := c, code := code, lane := some o.lane }
  if o.cls = .bank then .drop
  else
    match decodeWith (s.entryFor w.ctx o.word) o.word with
    | .illegalKind => fault 0x02
    | .badFields canon _ => if roleOk w.role canon then fault 0x02 else fault 0x03
    | .ok i legacy =>
      if (engineOf i).isNone then fault 0x02
      else if (match needsRole i with | none => false | some r => w.role != r) then fault 0x03
      else if portIllegal w i then fault 0x02
      else
        match lowestOut w i with
        | some r => fault 0x05 r.toNat
        | none =>
          let q := s.fresh? o i legacy
          match s.reCheck q with
          | some c => .keep q c
          | none => .enter q

/-- An operation re-enters its engine (R422): its counter goes up, its footprint is entered where there is room, its records
come behind those of what has issued since, and a fabric operation takes a new tag. -/
def State.reinject (s : State) (o : Op) : State :=
  let fp := if s.progress o ≥ o.total then [] else (s.opView o).footprint o.id (s.opSpans o)
  let room := (s.loom o.loom).ranges.length + fp.length ≤ Config.rangeEntries
  let o1 := { o with enter := !room }
  let o2 := if o.cls = .fab then { o1 with tag := BitVec.ofNat 24 (s.fabric.nextTag.toNat % 2 ^ 23) } else o1
  let s1 := if o.cls = .fab then s.modFabric fun f => { f with nextTag := f.nextTag + 1 } else s
  let s2 := s1.modLoom o.loom fun y =>
    { (y.setQueue o.cls (y.queue o.cls ++ [o2])) with ranges := if room then y.ranges ++ fp else y.ranges }
  s2.modWeft o.loom o.slot fun w => (w.opens o).queueRecs o

/-- The index of a frame's replay entry. -/
def State.replayIndex (s : State) (l b e : Nat) : Nat := Memory.readLe (s.loom l).mem (b + 1024 + 512 * e + 20) 4

/-- What iret's loop over the replay entries comes to (R422): the state with those that have re-entered, the entries kept, and
those that it has not reached since one waits, for a command-queue entry or for what an earlier operation of its team still
holds (R286). -/
structure Returned where
  state : State
  kept : List Faulted
  rest : List (Op × Nat)

/-- An entry that is to re-enter must wait: its queue is full, or it touches what an operation of its team still holds (R286,
R329). The re-entry is an issue (R422), so that every operation in flight is an earlier one; those of its own weft that have
faulted and not re-entered are issued again after it. -/
def State.reEntryWaits (s : State) (w : Weft) (l : Nat) (o : Op) : Bool :=
  s.queueFull l o.cls
    || (s.modWeft l o.slot fun w => { w with replay := [], faulted := [] }).interlocked l w opTouch (opTouch o) s.fresh

/-- The loop of iret over the replay entries, one after another (R422). -/
def State.iretLoop (s : State) (w : Weft) (l b : Nat) : List (Op × Nat) → List Faulted → Returned
  | [], kept => ⟨s, kept, []⟩
  | (o, e) :: rest, kept =>
    match s.reEntry w o with
    | .drop => State.iretLoop s w l b rest kept
    | .keep o c =>
      State.iretLoop s w l b rest
        (kept ++ [{ op := o, cause := c.cause, code := c.code, index := s.replayIndex l b e, detail := c.detail,
                    report := false }])
    | .enter o =>
      if s.reEntryWaits w l o then ⟨s, kept, (o, e) :: rest⟩ else State.iretLoop (s.reinject o) w l b rest kept

/-- The frame's replay entries that an iret which waits has not re-entered: those kept, then those not reached, as bytes too
(R420). -/
def State.keepReplay (s : State) (l k b : Nat) (kept : List Faulted) (rest : List (Op × Nat)) : State :=
  let m := (s.loom l).mem
  let later := rest.map fun p => Memory.readBytes m (b + 1024 + 512 * p.2) 512
  let entries := (kept.map fun f => f.bytes f.op.cls) ++ later
  let s1 := (s.modLm l fun m => Memory.writeBytes m (b + 1024) (entries.flatten)).setRcount l b entries.length
  s1.modWeft l k fun w => { w with replay := kept.map (·.op) ++ rest.map (·.1) }

def execIret (s : State) : Result :=
  issue .iret (fun x s =>
    match x.w.frame with
    | none => .left (s.terminate x.l x.k 0xF1 0xF1 none x.pc)
    | some b =>
      let r := (s.modWeft x.l x.k fun w => { w with replay := [] }).iretLoop x.w x.l b x.w.replay.zipIdx []
      if !r.rest.isEmpty then .holdIn (r.state.keepReplay x.l x.k b r.kept r.rest)
      else
        let s2 := r.state.modWeft x.l x.k fun w => { w with replay := r.kept.map (·.op) }
        if !s.frameOk x.l b x.w.frameLanes then .left (s2.terminate x.l x.k 0xF1 0xF1 none x.pc)
        else
          let s3 := (s2.returnFromTrap x.l x.k).modWeft x.l x.k fun w =>
            { w with replay := [], faulted := r.kept ++ w.faulted }
          .left (if r.kept.isEmpty then s3 else s3.raiseAsync x.l x.k)) s

/-! ## rq.rd, rq.wr, rq.drop (R434) -/

/-- Word k of replay entry e of a frame: its loom-memory address, if there is such a word. -/
def State.replayWord (s : State) (l : Nat) (frame : Option Nat) (e k : Word) : Option Nat :=
  match frame with
  | none => none
  | some b => if e.toNat < s.rcount l b ∧ k.toNat < 128 then some (b + 1024 + 512 * e.toNat + 4 * k.toNat) else none

def execRqRd (h : Guard) (d a b : Reg) (s : State) : Result :=
  issue (.rqRd h d a b) (fun x s =>
    regBody d (fun w x i =>
      match s.replayWord x.l w.frame (w.lane a i) (w.lane b i) with
      | none => 0
      | some p => BitVec.ofNat 32 (Memory.readLe (s.loom x.l).mem p 4)) x s) s

/-- Words of a replay entry that rq.wr may write (R434). -/
def replayWritable (k : Nat) : Bool := (6 ≤ k && k ≤ 11) || (16 ≤ k && k ≤ 125)

/-- The fields of an operation as its replay entry now holds them (R420). -/
def State.rereadOp (s : State) (l p : Nat) (o : Op) : Op :=
  let m := (s.loom l).mem
  let d (at_ : Nat) : DWord := BitVec.ofNat 64 (Memory.readLe m (p + at_) 8)
  { o with
    opa := d 24, opb := d 32, opc := d 40, defs := (List.range 8).map fun i => d (64 + 8 * i),
    block := BitVec.ofNat 512 (Memory.readLe m (p + 128) 64),
    recs := (List.range 3).map fun i => BitVec.ofNat 832 (Memory.readLe m (p + 192 + 104 * i) 104) }

def execRqWr (h : Guard) (d a b : Reg) (s : State) : Result :=
  issue (.rqWr h d a b) (fun x s =>
    match x.w.frame with
    | none => .ok s
    | some base =>
      let s1 := (lanesOf x.act).foldl (fun s i =>
        match s.replayWord x.l x.w.frame (x.w.lane a i) (x.w.lane b i) with
        | some p =>
          if replayWritable (x.w.lane b i).toNat then s.modLm x.l fun m => Memory.writeLe m p 4 (x.w.lane d i).toNat else s
        | none => s) s
      .ok (s1.modWeft x.l x.k fun w =>
        { w with replay := w.replay.zipIdx.map fun q => s1.rereadOp x.l (base + 1024 + 512 * q.2) q.1 })) s

/-- Remove entry e of a frame's n: the later ones move down (R434). -/
def State.dropReplay (s : State) (l b e n : Nat) : State :=
  (s.modLm l fun m =>
    Memory.writeBytes m (b + 1024 + 512 * e) (Memory.readBytes m (b + 1024 + 512 * (e + 1)) (512 * (n - 1 - e)))).setRcount
      l b (n - 1)

def execRqDrop (h : Guard) (d a : Reg) (s : State) : Result :=
  issue (.rqDrop h d a) (macroBody fun x s =>
    let e := (x.w.lane a x.lane).toNat
    match x.w.frame with
    | none => .ok (s.setL x d 0xFFFFFFFF)
    | some b =>
      let n := s.rcount x.l b
      if e ≥ n then .ok (s.setL x d 0xFFFFFFFF)
      else
        let s1 := match x.w.replay[e]? with
          | some o => (match o.instr with | .sbMove .. => s.cancelMove o | _ => s)
          | none => s
        let s2 := (s1.dropReplay x.l b e n).modWeft x.l x.k fun w => { w with replay := w.replay.eraseIdx e }
        .ok ((s2.setL x d (BitVec.ofNat 32 (n - 1))).fillReplay 1 x.l x.k)) s

/-! ## trap, setidem, halt (R434) -/

def execTrap (h : Guard) (c : BitVec 8) (s : State) : Result :=
  issue (.trap h c) (macroBody fun x s => .after s { cause := 0x1E, code := c.toNat, lane := some x.lane }) s

def execSetidem (h : Guard) (a : Reg) (s : State) : Result :=
  issue (.setidem h a) (macroBody fun x s =>
    .ok (s.modOwnTeam x fun t => { t with idem := (x.w.lane a x.lane).getLsbD 0 })) s

/-- The other live wefts of the issuing weft's team. -/
def State.teamMates (s : State) (x : Iss) : List (Nat × Weft) :=
  match x.w.team with
  | none => []
  | some h => (s.liveWefts x.l h).filter fun p => p.1 != x.k && p.2.ended.isNone

def execHalt (h : Guard) (team : Bool) (c : BitVec 8) (s : State) : Result :=
  issue (.halt h team c) (macroBody fun x s =>
    let s1 := if team then (s.teamMates x).foldl (fun s p =>
        s.terminate x.l p.1 0xF2 0xF2 (some c.toNat) p.2.firstPc) s else s
    .left (s1.terminate x.l x.k 0xF2 0xF2 (some c.toNat) x.pc)) s

end Sys2Proof.Machine
end

