-- ==== Sys2Proof/Machine/Units.lean ====
section
/-! DEFINITION. The engines' steps: a unit of an operation, its retirement, and a bank command's part (05 R125, 09 R245,
10 R265 to R281, 08 R214, 11 R287, 15 R394, R410). -/

namespace Sys2Proof.Machine

/-- The team of an operation's weft has been stopped: its operations stop at a unit boundary, but for sb.move (R429). -/
def State.opStopped (s : State) (o : Op) : Bool :=
  match s.weft? o.loom o.slot with
  | none => true
  | some w =>
    match s.teamOf o.loom w with
    | none => false
    | some t => t.stop.isSome && (match o.instr with | .sbMove .. => false | _ => true)

/-- The destination node of a fabric operation: an xred's is its route record's root (R275, R280). -/
def Op.fabNode (o : Op) : Nat := match o.instr with | .xred .. => routeRoot o.route | _ => o.fabPlan.node

/-- A packet of an earlier fabric operation of the loom, to the same node on the same channel, is still to be sent (R278). -/
def State.routeBehind (s : State) (before : List Op) (o : Op) : Bool :=
  o.cls == .fab && before.any fun p =>
    p.fabNode == o.fabNode && p.fabPlan.vc == o.fabPlan.vc && !p.discard
      && (List.range p.total).any fun u => s.progress p ≤ u && !p.sent.contains u

/-- The engine may perform a unit of the operation at an index of its queue: the matrix engine takes its operations one at a
time (R287); another takes those of a weft in issue order (R244), starts its operations in queue order (R329), and none behind a
re-entered operation whose footprint has found no room (R196). -/
def State.unitReady (s : State) (l : Nat) (cls : OcClass) (idx : Nat) (o : Op) : Bool :=
  let before := ((s.loom l).queue cls).take idx
  cls != .bank && !o.discard && !o.merging && !s.opStopped o && !before.any (·.enter)
    && (if cls = .mat then before.isEmpty else !before.any fun p => p.slot == o.slot && !s.opDone p)
    && (o.started || before.all fun p => p.started || p.discard || s.opDone p || s.opStopped p)
    && !s.routeBehind before o

/-- A re-entered operation enters its footprint, where the range scoreboard has room (R196, R422). -/
def State.enterRanges (s : State) (o : Op) : State :=
  let fp := (s.opView o).footprint o.id (s.opSpans o)
  if (s.loom o.loom).ranges.length + fp.length > Config.rangeEntries then s
  else
    (s.modLoom o.loom fun x => { x with ranges := x.ranges ++ fp }).modOp o.loom o.cls o.id fun q => { q with enter := false }

/-- One unit of an operation, by its engine. -/
def State.unitOf (s : State) (o : Op) (u : Nat) : State :=
  match o.instr with
  | .copy .. | .gather .. | .scatter .. => s.copyUnit o u
  | .cmpst .. | .expld .. => s.cmpUnit o u
  | .xput .. | .xget .. | .xatom .. | .xred .. => s.fabUnit o
  | .bankop .. => s
  | .sbMove .. => if u + 1 = o.total then s else s.moveUnit o u
  | _ => s.matrixUnit o u

/-- The cells that unit u of a matrix-engine operation reads. -/
def Op.cellsRead (o : Op) (r : Own) (u : Nat) : List (Nat × Nat) :=
  let box (m n : Nat) : List (Nat × Nat) := (List.range m).flatMap fun i => (List.range n).map fun j => (i, j)
  match o.instr with
  | .mma .. | .mmaSp .. | .mmaDy .. => box o.mmaPlan.m o.mmaPlan.n
  | .delta .. => box o.deltaPlan.dv o.deltaPlan.dk
  | .aspill .. | .ascale .. => rowPlaces u
  | .acvt .. => r.places
  | _ => []

/-- The corrected errors that unit u of an operation meets in tile slots and cells (R412; log entry 32): one for each slot
that it reads from, and one for each cell. -/
def State.softReads (s : State) (o : Op) (u : Nat) : Nat :=
  if s.mem.marks.isEmpty then 0
  else
    (((opTouch o).tr.filterMap (s.tileOf o)).eraseDups.filter fun p => s.mem.markAt (.tile o.loom p) == some false).length
      + (match s.opRange o with | none => 0 | some (_, r) => s.softCells o.loom r (o.cellsRead r u))
      + (match o.instr, o.parts with
          | .sbMove .., sl :: _ :: _ :: _ :: so :: _ =>
            (match SMap.find? (s.loom sl).owners (so - 1) with
              | some w => if 0 < u ∧ w.was = .pinned then s.softCells sl w (rowPlaces (u - 1)) else 0
              | none => 0)
          | _, _ => 0)

/-- One unit, with the corrected errors that it met where it is done. -/
def State.unitDone (s : State) (o : Op) (u : Nat) : State :=
  let t := s.unitOf o u
  if u < t.progress o then t.countSofts o.loom o.ctx (s.softReads o u) else t

/-- ENGINE_UNIT: the engine of a class performs a progress unit of the operation at an index of its queue (R125, R265).
The copy engine's units are its budgeted busy cycles (R410). -/
def execEngineUnit (l : Nat) (cls : OcClass) (idx : Nat) (s : State) : Result :=
  match ((s.loom l).queue cls)[idx]? with
  | none => .next s
  | some o =>
    if !s.unitReady l cls idx o then .next s
    else if o.enter then .next (s.enterRanges o)
    else if s.progress o ≥ o.total then .next s
    else if cls = .copy && !s.copyUnheld l then .next s
    else
      let o := { o with started := true }
      let t := (s.modOp l cls o.id fun _ => o).unitDone o (s.progress o)
      .next (if cls = .copy then t.copyBusy l else t)

/-! ## Retirement -/

/-- The single-register result that an operation writes at its retirement: none where it had no unit left at issue (R125, R272,
R279, R378). -/
def Op.result1 (o : Op) : Option (Reg × Word) :=
  match o.instr with
  | .cmpst _ _ _ _ b | .expld _ _ _ _ b | .xatom _ _ _ _ _ b _ =>
    if o.parts.isEmpty then none else some (b, o.result.extractLsb' 0 32)
  | .sbMove _ _ b _ => if o.parts.isEmpty then some (b, o.result.extractLsb' 0 32) else none
  | _ => none

/-- The register results of a retirement; of an xatom of 8 bytes, both words. -/
def Op.results (o : Op) (w : Weft) : Weft :=
  match o.result1 with
  | none => w
  | some (b, v) =>
    let w1 := w.opResult b o.lane v
    match o.instr with
    | .xatom .. => if o.fabPlan.len = 8 then w1.opResult (b + 1) o.lane (o.result.extractLsb' 32 32) else w1
    | _ => w1

/-- What an operation sends where its result register is the send register: its result, or a matrix operation's status bits
(R294, R335). -/
def Op.sent1 (o : Op) : Option (Reg × Word) :=
  match o.instr with
  | .mma _ _ _ b | .mmaSp _ _ _ b | .mmaDy _ _ _ b | .delta _ _ _ b =>
    if o.started then some (b, o.result.extractLsb' 0 32) else none
  | _ => o.result1

/-- The flit that an operation's result is (R335): its result register is the send register, as at its issue; the header is that
of the issue, and the other lanes are zero. -/
def Op.flit (o : Op) (w : Weft) : Option (Word × List Word) :=
  match o.header, o.sent1, w.port with
  | some h, some (b, v), some p =>
    if b = p.s ∧ !(w.held.isEmpty && w.spilled.isEmpty) then
      some (h, (List.range 32).map fun i => if i = o.lane then v else 0)
    else none
  | _, _, _ => none

/-- A retirement whose result is a flit: it waits for room at the port, and the flit goes with it; a port that is not open, or
that has closed while the flit waited, refuses it with the message fault, and the send is discarded (R335, R336; log entry 33). -/
def State.retireFlit (s : State) (o : Op) (header : Word) (flit : List Word) : State :=
  match s.portOf o.ctx header with
  | none => s.opFault o 0x19 0 0
  | some (tl, tk, tp) =>
    if o.sending = some true then s.opFault o 0x19 0 0
    else if tp.flits.length ≥ tp.quota then s.modOp o.loom o.cls o.id fun q => { q with sending := some false }
    else (s.retireOp o fun w => w).sendFlit o.loom tl tk flit

/-- A bank command that met an uncorrectable word: a replay entry with report set (R215, R420). -/
def State.bankReport (s : State) (o : Op) : State :=
  match o.refused with
  | none => s
  | some e =>
    (s.modWeft o.loom o.slot fun w =>
      if w.ended.isSome then w
      else
        { w with faulted := w.faulted ++
            [{ op := o, cause := 0x0E, code := 0, index := e, detail := (o.bankPlan.place e).1, report := true }] }).fillReplay
      9 o.loom o.slot

/-- A discarded operation may leave its engine: no merge of it has begun, and every unit it sent is acknowledged (R423,
R428). -/
def Op.gone (o : Op) : Bool := !o.merging && o.sent.all o.acked.contains

/-- OPERATION_RETIREMENT: the operation at an index of a class's queue retires, in the issue order of its weft's (R245,
R394); a discarded one leaves (R423). -/
def execOperationRetirement (l : Nat) (cls : OcClass) (idx : Nat) (s : State) : Result :=
  match ((s.loom l).queue cls)[idx]? with
  | none => .next s
  | some o =>
    if o.discard then .next (if o.gone then s.retireOp o fun w => w else s)
    else if !s.canRetire o then .next s
    else
      match (s.weft? o.loom o.slot).bind o.flit with
      | some (h, flit) => .next (s.retireFlit o h flit)
      | none => .next ((s.retireOp o o.results).bankReport o)

/-! ## BANK_COMMAND_PART -/

/-- The part at a bank may be performed: earlier commands of the loom have none left at that bank (R214). -/
def State.partReady (s : State) (l idx bank : Nat) : Bool :=
  !(((s.loom l).bankQ.take idx).any fun p => p.parts.contains bank)

/-- BANK_COMMAND_PART: a bank unit performs its part of the command at an index of a loom's bank queue (R214, R274), as
its budget lets it (R410). -/
def execBankCommandPart (l idx bank : Nat) (s : State) : Result :=
  match (s.loom l).bankQ[idx]? with
  | none => .next s
  | some o =>
    if o.parts.contains bank && s.partReady l idx bank && s.unheld 1 bank && s.bankReady (s.opView o) o.bankPlan then
      .next ((s.bankPart o bank).busy 1 bank)
    else .next s

end Sys2Proof.Machine
end

