-- ==== Sys2Proof/Machine/WeftSteps.lean ====
section
/-! DEFINITION. Steps of one weft between its issues: the end of a weft, starving entries, the frontier's spill area and the
end of a pass over a yielded weft (02 R40 to R42, R45, 06 R160, R161). -/

namespace Sys2Proof.Machine

/-- WEFT_END: a weft ends once its frontier is empty and its operations have retired (R45, R160, R423). -/
def execWeftEnd (l k : Nat) (s : State) : Result :=
  match s.weft? l k with
  | none => .next s
  | some w => .next (if s.canEnd l k w then s.endWeft l k else s)

/-- The weft may issue once its frontier is in place: its wait, if any, is of an instruction that has not issued, and no trap
lets that wait end first (R416). In the waits of instructions that have issued, entries stay where they are. -/
def Weft.mayIssue (w : Weft) : Bool :=
  match w.wait with
  | .none | .sbWdr .. | .full .. => true
  | .parked _ | .vgrow .. => !w.trapNext
  | _ => false

/-- Entries are to move before the weft's next issue (R40). -/
def Weft.movesDue (w : Weft) : Bool := w.mayIssue && w.needsSpill

/-- Move entries until R40 holds, write the spill area, and count the entries spilled. -/
def State.settleWeft (s : State) (l k : Nat) (w : Weft) : State :=
  let (w', n) := w.settleFrontier 64 0
  ((s.setWeft l k w').modLm l fun m => Memory.writeBytes m w.spillBase w'.spillBytes).countLoom l 0x06 w.ctx n

/-- FRONTIER_SPILL_RETURN: entries move between the hardware and the spill area, as R40 asks before an issue. -/
def execFrontierSpillReturn (l k : Nat) (s : State) : Result :=
  match s.weft? l k with
  | none => .next s
  | some w => .next (if w.movesDue then s.settleWeft l k w else s)

/-- ENTRY_STARVING: an entry whose age has reached 65,536 ranks ahead of every other (R42): its age says so, and one that is
spilled comes into the hardware (R40; log entry 28). -/
def execEntryStarving (l k : Nat) (s : State) : Result :=
  match s.weft? l k with
  | none => .next s
  | some w => .next (if w.spilled.any Entry.starving && w.movesDue then s.settleWeft l k w else s)

/-- The pass over a yielded weft is over (R161). -/
def YieldPass.over (y : YieldPass) : Bool := y.slots.isEmpty || y.left == 0

/-- YIELD_PASS_END: the quadrant passes over the weft no longer (R161). -/
def execYieldPassEnd (l k : Nat) (s : State) : Result :=
  match s.weft? l k with
  | none => .next s
  | some w =>
    match w.yielded with
    | none => .next s
    | some y => .next (if y.over then s.setWeft l k { w with yielded := none } else s)

end Sys2Proof.Machine
end

