-- ==== Sys2Proof/Machine/Place.lean ====
section
/-! DEFINITION. The distributor: launch records and their refusal, the draw, placement, pre-emption's choice and the flush of
a team (02 R46, R48 to R50, R63, 06 R165, 12 R316 to R321, 16 R426 to R428, R432). -/

namespace Sys2Proof.Machine

/-! ## Launch records (R50, R317) -/

/-- A record's fields, with its heddle map. -/
def LaunchRec.ofBits (r : BitVec 2048) (map : List DWord) : LaunchRec :=
  { entry := bd r 0, gx := bf r 95 64, gy := bf r 127 96, gz := bf r 159 128, wefts := bf r 167 160, allot := bf r 175 168,
    tickets := bf r 191 176, idem := r.getLsbD 198, lmem := bf r 231 200, nhed := bf r 239 232, nring := bf r 243 240,
    stages := (List.range (min 8 (bf r 243 240))).map fun g => bf r (252 + 5 * g) (248 + 5 * g),
    expect := bf r 351 304, swap := bd r 384, signal := bd r 448, hedmap := map,
    roles := (List.range (min 64 (bf r 167 160))).map fun w => bf r (577 + 2 * w) (576 + 2 * w),
    fmts := (List.range 15).map fun k => bd r (704 + 64 * k) }

/-- Loom-memory bytes of a share in whole runs of 256 (R46). -/
def runBytes (n : Nat) : Nat := (n + 255) / 256 * 256

/-- The map names a weft at or above W, an empty heddle, or a weft more than four times (R50). -/
def LaunchRec.badHeddles (r : LaunchRec) : Bool :=
  r.hedmap.any (fun m => m == 0 || m.toNat ≥ 2 ^ r.wefts)
    || (List.range r.wefts).any fun w => (r.hedmap.filter fun m => m.getLsbD w).length > 4

/-- The refusal case of a record, 0 for none (R50, R317, R318); of several, the lowest code (log entry 33). -/
def LaunchRec.refusal (r : LaunchRec) (mapBad : Bool) : Nat :=
  if r.gx > 2 ^ 20 ∨ r.gy > 2 ^ 20 ∨ r.gz > 2 ^ 20 then 1
  else if r.wefts = 0 ∨ r.wefts > 64 then 2
  else if r.roles.contains 3 then 3
  else if !allotOk r.allot then 4
  else if r.wefts * blocksOf r.allot > Config.registerBlocks
      ∨ runBytes r.lmem + 256 * r.wefts > Config.loomMemoryBytes then 5
  else if mapBad || r.badHeddles then 6
  else if r.nring > 8 ∨ r.stages.any fun n => n == 0 || n > 16 then 7
  else if r.fmts.zipIdx.any fun p => (Fmt.ofDef p.1).rejected (p.2 + 1) then 8
  else 0

/-- A taken record as a launch (R49, R50). -/
def newLaunch (q n ctx : Nat) (r : LaunchRec) (ref : Nat) : Launch :=
  { queue := q, count := n, ctx := ctx, lrec := r, total := if ref = 0 then r.gx * r.gy * r.gz else 0, next := 0, again := [],
    returned := [], swapped := [], retired := 0, refusal := ref, signalled := false }

/-- What taking a record comes to (R316). -/
inductive Taken where
  | held
  | fault (s : State)
  | ok (s : State)

/-- Take record head of a queue (R316). -/
def State.takeRecord (s : State) (q : Nat) : Taken :=
  let ctx := s.queueCtx q
  let a := s.recordAddr q (s.queueHead q)
  match s.deviceCase ctx false a 256 with
  | 70 => .held
  | 90 =>
    if s.deviceError ctx a 256 then .fault (s.queueFault q)
    else
      let v := deviceView ctx
      let r := BitVec.ofNat 2048 (s.readVa v a 256)
      let n := bf r 239 232
      let hm := bd r 512
      let hc := if n = 0 then 90 else s.deviceCase ctx false hm (8 * n)
      if hc = 70 then .held
      else
        let bad := n != 0 && (hc != 90 || s.deviceError ctx hm (8 * n))
        let map := if bad then [] else (List.range n).map fun k => BitVec.ofNat 64 (s.readVa v (hm + BitVec.ofNat 64 (8 * k)) 8)
        let x := LaunchRec.ofBits r map
        let s1 := { s with launches := s.launches ++ [newLaunch q (s.queueHead q).toNat ctx x (x.refusal bad)] }
        .ok ((s1.setQueueField q 11 2 x.tickets).setQueueField q 16 8 ((s.queueHead q).toNat + 1))
  | _ => .fault (s.queueFault q)

/-! ## The draw (R320, R321) -/

/-- The team that a queue has to place now (R321): its oldest launch's earliest swapped-out team, a flushed team, or an
unplaced one. -/
def State.queuePick (s : State) (q : Nat) : Option Pick :=
  let ls := s.launches.filter fun x => x.queue == q
  ((ls.findSome? fun x => x.swapped.head?.map fun v => Pick.swapped v.team.id).orElse fun _ =>
    ls.findSome? fun x => x.again.head?.map fun a => Pick.fresh ⟨q, x.count, a.1⟩).orElse fun _ =>
    ls.findSome? fun x => x.unplaced.map fun n => Pick.fresh ⟨q, x.count, n⟩

/-- A queue has work (R320, R455). -/
def State.hasWork (s : State) (q : Nat) : Bool :=
  s.queueEn q && s.serves (s.queueCtx q) && ((s.queuePick q).isSome || s.queueHead q != s.queueTail q)

/-- The generator's step (R320). -/
def xorshift (x : Word) : Word :=
  let x1 := x ^^^ (x <<< 13)
  let x2 := x1 ^^^ (x1 >>> 17)
  x2 ^^^ (x2 <<< 5)

/-- The lottery over queues with their tickets. -/
def lottery : List (Nat × Nat) → Nat → Option Nat
  | [], _ => none
  | (q, n) :: t, r => if r < n then some q else lottery t (r - n)

/-- The winner of a draw among the queues with work, with their tickets, and the index of the last zero-ticket winner
(R320). -/
def drawWinner (qs : List (Nat × Nat)) (x : Word) (z : Nat) : Option Nat × Nat :=
  let total := qs.foldl (fun n p => n + p.2) 0
  if total > 0 then (lottery qs (x.toNat % total), z)
  else
    let w := (((qs.map (·.1)).find? fun q => z < q).orElse fun _ => (qs.head?).map (·.1))
    (w, w.getD z)

/-- What a draw finds at its winner: a team, nothing, or a record that it cannot take yet. -/
inductive Found where
  | team (p : Pick)
  | nothing
  | held
deriving DecidableEq, Repr

/-- The team of the winner, taking records until one is found (R321); the records taken meanwhile, refused or of a zero
dimension, stay taken. -/
def State.findPick : Nat → State → Nat → State × Found
  | 0, s, _ => (s, .nothing)
  | k + 1, s, q =>
    match s.queuePick q with
    | some p => (s, .team p)
    | none =>
      if s.queueHead q = s.queueTail q ∨ !s.queueEn q then (s, .nothing)
      else
        match s.takeRecord q with
        | .held => (s, .held)
        | .fault s' => (s', .nothing)
        | .ok s' => State.findPick k s' q

/-! ## What a team needs, and whether a loom has it (R46, R165, R167) -/

/-- What must be free on a loom at once: of loom memory a run for the share, one of 256 bytes for each weft, and one for each
trap frame (R46, R417). `frames`, `quota` and `arms` are of a saved team alone (R336, R400). -/
structure Need where
  wefts : Nat
  blocks : Nat
  share : Nat
  frames : Nat
  heddles : Nat
  stages : Nat
  quota : Nat
  arms : Nat
deriving DecidableEq, Repr

/-- The need of a team placed from the start (R46). -/
def LaunchRec.need (r : LaunchRec) : Need :=
  { wefts := r.wefts, blocks := r.wefts * blocksOf r.allot, share := r.lmem, frames := 0, heddles := 1 + r.nhed,
    stages := r.stages.foldl (· + ·) 0, quota := 0, arms := 0 }

/-- A weft has a trap that waits for frame memory (R417). -/
def Weft.wantsFrame (w : Weft) : Bool := w.trap.isSome || (!w.faulted.isEmpty && w.frame.isNone && !w.sv)

/-- The need of a saved team (R46, R167, R336, R400, R417): a run for each frame, and one for each pending trap. -/
def Saved.need (v : Saved) : Need :=
  let frames := (v.wefts.filter fun p => p.2.frame.isSome).length + (v.wefts.filter fun p => p.2.wantsFrame).length
  { wefts := v.wefts.length, blocks := v.wefts.foldl (fun n p => n + blocksOf p.2.allot) 0,
    share := v.team.shareSize, frames := frames,
    heddles := v.heddles.length, stages := v.team.rings.foldl (fun n r => n + r.length) 0,
    quota := v.wefts.foldl (fun n p => n + (p.2.port.map (·.quota)).getD 0) 0, arms := v.arms.length }

/-- Runs for sizes, first fit (R191, R192). -/
def allocRuns : List (Nat × Nat) → List Nat → Option (List Nat)
  | _, [] => some []
  | runs, n :: t =>
    match findRun runs n with
    | none => none
    | some b => (allocRuns ((b, n) :: runs) t).map (b :: ·)

/-- The runs of a team: its share, spill areas and frames (R46). The share stands at the lowest place that leaves room for the
frames, which are placed before the small spill areas: if the free runs hold them all in any way, they hold them so. -/
def allocTeam (runs : List (Nat × Nat)) (share spills frames : Nat) : Option (List Nat) :=
  (runStarts runs share).findSome? fun b =>
    match allocRuns ((b, share) :: runs) (List.replicate frames Config.frameBytes) with
    | none => none
    | some fs =>
      (allocRuns (fs.map (fun f => (f, Config.frameBytes)) ++ (b, share) :: runs) (List.replicate spills 256)).map fun ss =>
        b :: ss ++ fs

/-- Blocks that the waiting vgrows of a loom need (R165). -/
def Loom.owed (x : Loom) : Nat :=
  x.growers.foldl (fun n k =>
    match SMap.find? x.wefts k with
    | some w => (match w.wait with | .vgrow _ _ _ m _ _ => n + (blocksOf m - blocksOf w.allot) | _ => n)
    | none => n) 0

/-- Stage-ring stages of the teams of a loom. -/
def Loom.usedStages (x : Loom) : Nat :=
  x.teams.foldl (fun n t => n + t.2.rings.foldl (fun m r => m + r.length) 0) 0

/-- The bases of the runs, if the loom has everything that a need names. -/
def Loom.fits (x : Loom) (n : Need) : Option (List Nat) :=
  if x.wefts.length + n.wefts ≤ Config.weftSlots ∧ n.blocks + x.owed ≤ x.freeBlocks
      ∧ x.heddles.length + n.heddles ≤ Config.heddleEntries ∧ x.usedStages + n.stages ≤ Config.ringStages
      ∧ x.quotas + n.quota ≤ 64 ∧ x.arms.length + n.arms ≤ Config.loomArmEntries then
    allocTeam x.runs n.share n.wefts n.frames
  else none

/-- The lowest free slots from one on. -/
def Loom.freeSlots (x : Loom) (slot0 n : Nat) : List Nat :=
  ((List.range Config.weftSlots).filter fun k => slot0 ≤ k && (SMap.find? x.wefts k).isNone).take n

/-- The lowest free keys of the heddle table. -/
def Loom.freeHeddles (x : Loom) (n : Nat) : List Nat :=
  ((List.range Config.heddleEntries).filter fun k => (SMap.find? x.heddles k).isNone).take n

/-- A saved team, wherever its launch is. -/
def State.saved? (s : State) (id : TeamId) : Option Saved :=
  (s.launches.flatMap (·.swapped)).find? fun v => v.team.id == id

/-- What the distributor's pick needs. -/
def State.pickNeed (s : State) : Pick → Option Need
  | .fresh id => (s.launch? id.queue (BitVec.ofNat 64 id.count)).map fun x => x.lrec.need
  | .swapped id => (s.saved? id).map Saved.need

/-! ## Pre-emption (R63, R426, R432) -/

/-- The ways of R426. -/
inductive Way where
  | drain | flush | save
deriving DecidableEq, Repr

/-- Q of R63. -/
def State.quantum (s : State) : Nat := 2 ^ s.mgmt.settings.qlog

/-- The way in which a team is pre-empted, if one applies (R426). -/
def State.way (s : State) (t : Team) : Option Way :=
  let expect := ((s.launch? t.id.queue (BitVec.ofNat 64 t.id.count)).map fun x => x.lrec.expect).getD 0
  if expect ≠ 0 ∧ t.issued < expect ∧ expect - t.issued < s.mgmt.settings.drain ∧ !t.drained then some .drain
  else if t.idem ∧ !t.sideEffect then some .flush
  else if s.imageState t.ctx t.swap t.imageBytes ≠ .unusable then some .save
  else none

/-- Every weft of a team has an empty frontier (R432). -/
def State.frontierless (s : State) (l h : Nat) : Bool :=
  (s.liveWefts l h).all fun p => p.2.held.isEmpty && p.2.spilled.isEmpty

/-- Stop a team for a save or a context switch; a team without a frontier retires by itself (R429, R432). -/
def State.stopTeam (s : State) (l h : Nat) : State :=
  if s.frontierless l h then s else s.setStop l h fun o => o.getD .save

/-- Discard the operations of a team's wefts (R428, R455). -/
def State.discardTeam (s : State) (l h : Nat) : State :=
  (s.liveWefts l h).foldl (fun s p => s.discardOps l p.1) s

/-- Pre-empt a team in its way (R426, R428, R432). -/
def State.preemptTeam (s : State) (l h : Nat) : State :=
  match s.team? l h with
  | none => s
  | some t =>
    if t.stop.isSome || s.frontierless l h then s
    else
      match s.way t with
      | none => s
      | some .drain => s.modTeam l h fun t => { t with drainUntil := some (s.clock + BitVec.ofNat 64 s.quantum) }
      | some .flush => (s.setStop l h fun _ => .flush).discardTeam l h
      | some .save => s.stopTeam l h

/-- A loom without a team and its ranges, as R63 judges what a pre-emption frees. -/
def Loom.without (x : Loom) (h : Nat) : Loom :=
  { (x.removeTeam h) with owners := x.owners.filter fun p => !p.2.heldBy h }

/-- The teams of a loom that may be pre-empted, longest resident first (R63). -/
def State.eligible (s : State) (l : Nat) : List Nat :=
  (sortBy (fun (a b : Nat × Team) => a.2.placedAt < b.2.placedAt || (a.2.placedAt == b.2.placedAt && a.1 ≤ b.1))
    ((s.loom l).teams.filter fun p =>
      (s.clock - p.2.placedAt).toNat ≥ s.quantum && p.2.stop.isNone && (s.way p.2).isSome)).map (·.1)

/-- The fewest of the teams, in order, without which a need fits. -/
def Loom.fewest (n : Need) : Loom → List Nat → List Nat → Option (List Nat)
  | x, [], acc => if (x.fits n).isSome then some acc.reverse else none
  | x, h :: t, acc => if (x.fits n).isSome then some acc.reverse else Loom.fewest n (x.without h) t (h :: acc)

/-- The loom that needs the fewest pre-emptions, the lowest among equals, and its teams (R63). -/
def State.choosePreempt (s : State) (n : Need) : Option (Nat × List Nat) :=
  s.looms.foldl (fun best p =>
    match Loom.fewest n p.2 (s.eligible p.1) [] with
    | none => best
    | some hs =>
      match best with
      | some b => if hs.length < b.2.length then some (p.1, hs) else best
      | none => some (p.1, hs)) none

/-- The chosen teams have not all gone, nor stayed after all. -/
def State.departing (s : State) : Bool :=
  match s.dist.preempting with
  | none => false
  | some (l, hs) =>
    hs.any fun h => match s.team? l h with | none => false | some t => t.stop.isSome || t.drainUntil.isSome

/-- Some loom has what a need names. -/
def State.someFits (s : State) (n : Need) : Bool := (List.range Config.looms).any fun l => ((s.loom l).fits n).isSome

/-- The pick of the last draw waits: pre-empt teams for it where no loom has room (R63). -/
def State.preemptCheck (s : State) (p : Pick) : State :=
  match s.pickNeed p with
  | none => { s with dist := { s.dist with waiting := none, preempting := none } }
  | some n =>
    if s.someFits n || s.departing then s
    else
      match s.choosePreempt n with
      | none => s
      | some (l, hs) =>
        hs.foldl (fun s h => s.preemptTeam l h) { s with dist := { s.dist with preempting := some (l, hs) } }

/-- Records that a queue still holds. -/
def State.queueLoad (s : State) (q : Nat) : Nat := (s.queueTail q - s.queueHead q).toNat

/-- What a draw finds at its winner (R321): the records are taken in a later turn where one cannot be taken yet. -/
def State.drawTake (s : State) (q : Nat) : State :=
  let r := s.findPick (s.queueLoad q + 1) q
  let drawn (p : Option Pick) (again : Option Nat) : State :=
    { r.1 with dist := { r.1.dist with waiting := p, drawn := again, preempting := none } }
  match r.2 with
  | .held => drawn none (some q)
  | .nothing => drawn none none
  | .team p => (drawn (some p) none).preemptCheck p

/-- DISTRIBUTOR_DRAW: one draw, which steps the generator (R320, R321), after the requests that can be answered (R324); none
while the team of the draw before waits (R63), and none before its winner's records are taken. -/
def execDistributorDraw (s : State) : Result :=
  if s.fetches.any fun f => s.fetchAnswer f != .held then .next s
  else
    match s.dist.waiting with
    | some p => .next (s.preemptCheck p)
    | none =>
      match s.dist.drawn with
      | some q => .next (s.drawTake q)
      | none =>
        let qs := (List.range 64).filter s.hasWork
        if qs.isEmpty then .next s
        else
          let x := xorshift s.dist.x
          let w := drawWinner (qs.map fun q => (q, s.queueTickets q)) x s.dist.z
          match w.1 with
          | none => .next s
          | some q => .next (({ s with dist := { s.dist with x := x, z := w.2 } } : State).drawTake q)

/-- TEAM_QUANTUM_EXPIRY: a team has been resident for Q cycles and may be pre-empted for the team that waits (R63). -/
def execTeamQuantumExpiry (l h : Nat) (s : State) : Result :=
  match s.team? l h, s.dist.waiting with
  | some t, some p => if (s.clock - t.placedAt).toNat ≥ s.quantum then .next (s.preemptCheck p) else .next s
  | _, _ => .next s

/-- DRAIN_EXPIRY: a drained team has not retired Q cycles later; the choice is made again without drain, which stays left out
while the draw's team waits (R426). -/
def execDrainExpiry (l h : Nat) (s : State) : Result :=
  match s.team? l h with
  | none => .next s
  | some t =>
    match t.drainUntil with
    | none => .next s
    | some u =>
      if s.clock.toNat < u.toNat then .next s
      else
        let s1 := (s.modTeam l h fun t => { t with drainUntil := none, drained := true }).preemptTeam l h
        .next (if s.dist.waiting.isNone then s1.drawOver else s1)

/-! ## Placement (R45, R46, R53, R333) -/

def roleOf : Nat → Role
  | 1 => .copy
  | 2 => .matrix
  | _ => .vector

/-- The slots f1 to f15 other than binary32 (R66), reserved bits zero (R69). -/
def LaunchRec.slotFmts (r : LaunchRec) : List (Nat × DWord) :=
  (r.fmts.zipIdx.filter fun p => cleanDef p.1 != binary32).map fun p => (p.2 + 1, cleanDef p.1)

/-- The wefts of a placement: slot and weft. -/
def LaunchRec.newWefts (r : LaunchRec) (ctx h : Nat) (slots spills : List Nat) : List (Nat × Weft) :=
  (slots.zip spills).zipIdx.map fun p =>
    (p.1.1, { newWeft ctx (some h) p.2 (roleOf (r.roles.getD p.2 0)) r.allot (pairTarget r.entry) p.1.2 with fmts := r.slotFmts })

/-- The heddle entries of a placement: heddle 0 and those of the map (R53, R341). -/
def LaunchRec.newHeddles (r : LaunchRec) (h : Nat) (slots : List Nat) : List Heddle :=
  let of_ (n : Nat) (mask : List Nat) : Heddle :=
    { mask := mask, team := h, num := n, acnt := 0, phase := false, op := .none, sub := 0, def_ := 0, vals := [], source := none,
      arrived := [] }
  of_ 0 slots :: r.hedmap.zipIdx.map fun m =>
    of_ (m.2 + 1) ((slots.zipIdx.filter fun k => m.1.getLsbD k.2).map (·.1))

/-- The team of a placement. -/
def State.newTeam (s : State) (x : Launch) (id : TeamId) (slots : List Nat) (base issued : Nat) (first : Bool) : Team :=
  let r := x.lrec
  let g := gridCoords r id.n
  { id := id, ctx := x.ctx, x := g.1, y := g.2.1, z := g.2.2, slots := slots, shareBase := base, shareSize := r.lmem,
    rings := r.stages.map fun n => List.replicate n ⟨false, 0, 1⟩, tiles := [], accs := [], nhed := r.nhed, idem := r.idem,
    sideEffect := false, issued := issued, placedAt := s.clock, drainUntil := none, drained := false, withdrawn := [],
    swap := r.swap + BitVec.ofNat 64 (id.n * imageBytes r.wefts r.lmem r.nhed), unstarted := first, stop := none }

/-- Loom memory that is given out holds zeros, and is in error no longer. -/
def State.clearLm (s : State) (l base size : Nat) : State :=
  let s1 := s.modLm l fun m => Memory.zero m base size
  if s1.mem.marks.isEmpty then s1
  else
    s1.modMem fun m => { m with marks := m.marks.filter fun p =>
      match p.1 with | .lmem l' u => !(l' == l && base / 8 ≤ u && u < (base + size + 7) / 8) | _ => true }

/-- Put heddles, wefts and a team on a loom. -/
def Loom.addTeam (x : Loom) (h : Nat) (t : Team) (ws : List (Nat × Weft)) (hs : List Heddle) : Loom :=
  { x with teams := SMap.put x.teams h t, wefts := ws.foldl (fun m p => SMap.put m p.1 p.2) x.wefts,
           heddles := ((x.freeHeddles hs.length).zip hs).foldl (fun m p => SMap.put m p.1 p.2) x.heddles }

/-- A placed team leaves its launch's lists. -/
def Launch.placed (x : Launch) (n : Nat) : Launch :=
  if x.again.any (fun a => a.1 == n) then { x with again := x.again.filter fun a => a.1 != n } else x.takeTeam n

/-- Place a team of a launch from the start. -/
def State.placeTeam (s : State) (l h : Nat) (x : Launch) (id : TeamId) (slots bases : List Nat) : State :=
  let was := x.again.find? fun a => a.1 == id.n
  let base := bases.headD 0
  let t := s.newTeam x id slots base ((was.map (·.2)).getD 0) was.isNone
  let s1 := (s.clearLm l base x.lrec.lmem).modLoom l fun y =>
    y.addTeam h t (x.lrec.newWefts x.ctx h slots bases.tail) (x.lrec.newHeddles h slots)
  ((s1.modLaunch id.queue id.count fun y => y.placed id.n).countLoom l 0x11 x.ctx 1).drawOver

/-- TEAM_PLACEMENT: the team of the draw is placed from the entry PC on a loom that has what it needs (R46). -/
def execTeamPlacement (l h slot0 : Nat) (s : State) : Result :=
  match s.dist.waiting with
  | some (.fresh id) =>
    (match s.launch? id.queue (BitVec.ofNat 64 id.count) with
      | none => .next s
      | some x =>
        if l ≥ Config.looms ∨ h ≥ 1024 ∨ (s.team? l h).isSome then .next s
        else
          match (s.loom l).fits x.lrec.need with
          | none => .next s
          | some bases =>
            let slots := (s.loom l).freeSlots slot0 x.lrec.wefts
            if slots.length < x.lrec.wefts then .next s else .next (s.placeTeam l h x id slots bases))
  | _ => .next s

/-! ## Flush (R428) -/

/-- Unplaced teams go back to their launches (R324). -/
def State.returnTeams (s : State) (ids : List TeamId) : State :=
  ids.foldl (fun s i => s.modLaunch i.queue i.count fun x => { x with returned := x.returned ++ [i.n] }) s

/-- The wefts of a team leave what they wait in outside their own loom. -/
def State.leaveArms (s : State) (l h : Nat) : State := (s.liveWefts l h).foldl (fun s p => s.leaveArm l p.1) s

/-- Operations of a team that its engines still hold. -/
def State.teamOps (s : State) (l h : Nat) : List (OcClass × Op) :=
  (s.loom l).ops.filter fun p => match s.weft? l p.2.slot with | some w => w.team == some h | none => false

/-- TEAM_FLUSH: a flushed team leaves its loom and returns to its launch (R428), once its exit status word is zero (R424). -/
def execTeamFlush (l h : Nat) (s : State) : Result :=
  match s.team? l h with
  | none => .next s
  | some t =>
    if t.stop ≠ some .flush || t.unstarted || !(s.teamOps l h).isEmpty || (s.loom l).entriesBusy h then .next s
    else
      let s1 := (s.liveWefts l h).foldl (fun s p => s.cancelReplay p.2) (s.leaveArms l h)
      let s2 := s1.modLoom l fun x => ((x.releaseRanges h s.clock).releaseEntries h).removeTeam h
      let s3 := s2.modLaunch t.id.queue t.id.count fun x => { x with again := x.again ++ [(t.id.n, t.issued)] }
      .next ((s3.returnTeams t.withdrawn).dropBoxes fun b => !b.ofTeam t.id)

end Sys2Proof.Machine
end

