-- ==== Sys2Proof/Machine/Save.lean ====
section
/-! DEFINITION. The save of a team and its restore (11 R298, R299, R310, 12 R333, R336, 13 R346, 14 R379, 15 R400, 16 R429 to
R431; the swap image is log entry 12's). -/

namespace Sys2Proof.Machine

/-! ## What a save keeps -/

/-- A wait as the swap image keeps it: those whose instruction has not issued are gone (R165, R400). -/
def Wait.saved : Wait → Wait
  | .await .. | .vgrow .. | .sbWdr .. | .full .. => .none
  | w => w

/-- The loom-memory word of an await, as an offset of the share (R400). -/
def Wait.word (arms : List (Nat × Arm)) (base : Nat) : Wait → Option Nat
  | .await _ (.loom _ i) _ _ _ => (SMap.find? arms i).map fun e => e.addr - base
  | _ => Option.none

/-- A weft as the swap image keeps it; one saved again before it has issued keeps what its await has seen (R431). -/
def Weft.saved (w : Weft) (arms : List (Nat × Arm)) (base : Nat) : Weft :=
  { w with wait := w.wait.saved, yielded := none,
           awaited := match w.wait.word arms base with | some a => some (a, false) | none => w.awaited }

/-- An operation as the swap image keeps it: its slot is its weft's number. -/
def Op.saved (o : Op) (num : Nat) : Op := { o with slot := num, sent := [], acked := [], merging := false, enter := true, started := false }

/-- Slots to weft numbers, and back. -/
def numsOf (ws : List (Nat × Weft)) (ks : List Nat) : List Nat := ks.filterMap fun k => (SMap.find? ws k).map (·.num)
def slotsOf (slots : List (Nat × Nat)) (ns : List Nat) : List Nat := ns.filterMap fun n => SMap.find? slots n

/-- The ranges of a team, by their first logical tiles. -/
def Loom.rangesOf (x : Loom) (h : Nat) (t : Team) : List (Nat × Nat × Own) :=
  t.accs.filterMap fun p =>
    if p.2.2 = 0 then (SMap.find? x.owners p.2.1).bind fun o => if o.heldBy h then some (p.1, p.2.1, o) else none else none

/-- A working range with its cells; an attached one, spilled (R310). -/
def Loom.savedRange (x : Loom) (first : Nat) (o : Own) : SavedRange :=
  if o.state = .attached then { first := first, own := { o with tiles := [], gen := o.gen + 1 }, cells := [] }
  else
    { first := first, own := { o with tiles := [] },
      cells := o.tiles.zipIdx.flatMap fun q => (SMap.slice x.cells (4096 * q.1) (4096 * q.1 + 4096)).map fun c =>
        (4096 * q.2 + c.1, c.2) }

/-- The team as its swap image holds it. -/
def Loom.saveOf (x : Loom) (l h : Nat) (t : Team) : Saved :=
  let ws := x.wefts.filter fun p => p.2.team == some h
  { loom := l, team := t,
    wefts := ws.foldl (fun m p => SMap.put m p.2.num (p.2.saved x.arms t.shareBase)) [],
    heddles := (x.heddles.filter fun p => p.2.team == h).map fun p =>
      { p.2 with mask := numsOf ws p.2.mask, arrived := numsOf ws p.2.arrived },
    arms := (x.arms.filter fun p => p.2.team == h).map fun p => { p.2 with addr := p.2.addr - t.shareBase, hv := false, hcnt := 0, met := false },
    tiles := t.tiles.map fun p => (p.1, SMap.slice x.operand (4096 * p.2) (4096 * p.2 + 4096)),
    ranges := (x.rangesOf h t).map fun r => x.savedRange r.1 r.2.2,
    ops := x.ops.filterMap fun p => (SMap.find? ws p.2.slot).map fun w => p.2.saved w.num,
    frames := ws.filterMap fun p => p.2.frame.map fun b => (p.2.num, SMap.slice x.mem b (b + Config.frameBytes)) }

/-- Address of a team's share in its swap image. -/
def Team.imageShareAt (t : Team) : DWord := t.swap + BitVec.ofNat 64 (imageShare t.slots.length)

/-- The share's bytes go to the image; words in uncorrectable error stay so there (R429). -/
def State.saveShare (s : State) (l : Nat) (t : Team) : State :=
  let s1 := s.writeBytesVa (deviceView t.ctx) t.imageShareAt (Memory.readBytes (s.loom l).mem t.shareBase t.shareSize)
  if s.mem.marks.isEmpty then s1
  else
    (List.range t.shareSize).foldl (fun s1 k =>
      if s.mem.hard (.lmem l ((t.shareBase + k) / 8)) then
        match (s.spot (deviceView t.ctx) (t.imageShareAt.toNat + k)).unit 0 with
        | some e => s1.modMem fun m => m.setMark e true
        | none => s1
      else s1) s1

/-- The team's kind-0 entries are spilled to the image (R379). -/
def Loom.spillEntries (x : Loom) (h : Nat) (t : Team) : Loom :=
  { x with board := x.board.map fun (p : Nat × Board) =>
      if p.2.state = .valid ∧ p.2.kind = 0 ∧ p.2.team = h then
        let a := t.imageShareAt + (p.2.addr - BitVec.ofNat 64 t.shareBase)
        (p.1, { p.2 with state := .spilled, team := 0, addr := a, gen := p.2.gen + 1 })
      else p }

/-- Spill the attached ranges of a team to their spill addresses (R298, R310): none while one waits. -/
def State.spillAttached (s : State) (l h : Nat) : List (Nat × Nat × Own) → Option State
  | [] => some s
  | (_, e, o) :: rest =>
    if o.state ≠ .attached then State.spillAttached s l h rest
    else
      match s.spillRange l o with
      | .wait => none
      | .fail c _ => State.spillAttached (s.spillFailed l e o c) l h rest
      | .ok s1 => State.spillAttached (s1.modLoom l fun x => x.markKey o.ctx o.key .spilled true) l h rest

/-- Something of a team still runs that its save waits for (R429): a termination, bankop, sb.move or begun merge, sent fabric
units, or the responders of its entries (R383). -/
def State.saveBusy (s : State) (l h : Nat) (t : Team) : Bool :=
  let x := s.loom l
  t.unstarted || (s.liveWefts l h).any (fun p => p.2.ended.isSome) || x.entriesBusy h
    || (s.teamOps l h).any (fun p => p.2.runsOn || p.2.discard || (match p.2.instr with | .sbMove .. => true | _ => false))
    || (x.rangesOf h t).any fun r => r.2.2.state == .attached && x.keyBusy r.2.2.ctx r.2.2.key

/-- Take a saved team's operations, tiles and ranges off its loom, and then the team. -/
def Loom.dropSaved (x : Loom) (h : Nat) : Loom :=
  let mine (o : Op) : Bool := match SMap.find? x.wefts o.slot with | some w => w.team == some h | none => false
  let ids := (x.ops.filter fun p => mine p.2).map fun p => p.2.id
  let x1 := allClasses.foldl (fun x c => x.setQueue c ((x.queue c).filter fun o => !ids.contains o.id)) x
  { (x1.removeTeam h) with ranges := x1.ranges.filter (fun r => !ids.contains r.op),
                           owners := x1.owners.filter fun p => !p.2.heldBy h }

/-- TEAM_SAVE: a stopped team is written to its swap image and leaves its loom (R429, R430). -/
def execTeamSave (l h : Nat) (s : State) : Result :=
  match s.team? l h with
  | none => .next s
  | some t =>
    if t.stop ≠ some .save || s.saveBusy l h t || !s.swapUnheld l then .next s
    else
      match s.imageState t.ctx t.swap t.imageBytes with
      | .unusable => .next (s.terminateTeam l h)
      | .absent => .next s
      | .usable =>
        match s.spillAttached l h ((s.loom l).rangesOf h t) with
        | none => .next s
        | some s1 =>
          let s2 := (s1.saveShare l t).leaveArms l h
          let t' := ((s2.team? l h).getD t)
          let v := (s2.loom l).saveOf l h { t' with stop := none, drainUntil := none }
          let s3 := s2.modLoom l fun x => (x.spillEntries h t).dropSaved h
          let s4 := s3.modLaunch t.id.queue t.id.count fun x => { x with swapped := x.swapped ++ [v] }
          let s5 := ((s2.loom l).wefts.filter fun p => p.2.team == some h && p.2.port.isSome).foldl
            (fun s p => s.refuseSenders l p.1 p.2.ctx) s4
          .next ((s5.countLoom l 0x12 t.ctx 1).swapBusy l)

/-! ## Restore (R64, R310, R379, R400, R430) -/

/-- What a page of the image is to a restore (R430): only an invalid page or an address outside its space fails it. -/
def State.restorePage (s : State) (ctx va : Nat) : ImagePage :=
  match s.spot (deviceView ctx) va with
  | .page x pa =>
    if !pteResident x.pte then .absent
    else if pa ≥ x.space.bytes then .unusable
    else .usable
  | _ => .unusable

/-- The judgement of a saved team's image as a restore reads it: pages, and words in uncorrectable error (R430). -/
def State.restoreState (s : State) (t : Team) : ImagePage :=
  let bytes := t.imageBytes
  let pages := (pageStarts t.swap.toNat bytes).map fun a => s.restorePage t.ctx (a % 2 ^ 64)
  if pages.contains .unusable then .unusable
  else if pages.contains .absent then .absent
  else if (!s.mem.marks.isEmpty || !s.mgmt.linkUp) && s.deviceError t.ctx t.swap bytes then .unusable
  else .usable

/-- The board entries that go with a saved team: its kind-0 entries, and those of the keys of its attached ranges (R379). -/
def State.savedEntries (s : State) (v : Saved) : List Nat :=
  ((s.loom v.loom).board.filter fun p =>
    p.2.state == .spilled && ((p.2.kind == 0 && p.2.owner == some v.team.id)
      || (p.2.kind == 1 && p.2.ctx == v.team.ctx && v.ranges.any fun r => r.own.state == .attached && r.own.key == p.2.addr))).map
    (·.1)

/-- Drop a saved team from its launch. -/
def State.forgetSaved (s : State) (id : TeamId) : State :=
  s.modLaunch id.queue id.count fun x => { x with swapped := x.swapped.filter fun v => v.team.id != id }

/-- The exit statuses of a team whose restore fails: none while the word's page is not resident (R424, R430). -/
def State.failStatuses (s : State) (t : Team) : List (Nat × Weft) → Option State
  | [] => some s
  | (n, w) :: rest =>
    let frame := (SMap.find? (s.saved? t.id |>.map (·.frames) |>.getD []) n)
    let pc := match frame with | some m => BitVec.ofNat 64 (Memory.readLe m 0 8) | none => w.firstPc
    let code := match frame with | some m => Memory.readLe m 8 8 / 256 % 256 | none => 0
    let e : Exit := { exit := 0xF4, cause := 0xF4, code := code, pc := pc, written := true, seq := 0 }
    match s.writeExitStatus t.ctx t.swap n e with
    | none => none
    | some s1 => State.failStatuses s1 t rest

/-- A restore that cannot read its image: every weft ends with 0xF4, and the team retires (R430). -/
def State.restoreFails (s : State) (v : Saved) : Option State :=
  (s.failStatuses v.team v.wefts).map fun s1 =>
    let s2 := v.wefts.foldl (fun s p => s.cancelReplay p.2) s1
    let s3 := (s.savedEntries v).foldl (fun s i => s.modLoom v.loom fun x => x.freeEntry i) s2
    (((s3.forgetSaved v.team.id).retireIds (v.team.id :: v.team.withdrawn)).dropBoxes fun b => !b.ofTeam v.team.id).drawOver

/-- Physical tile slots of a loom that no team maps. -/
def Loom.freeSlotsOp (x : Loom) : List Nat :=
  let used := x.teams.flatMap fun p => p.2.tiles.map (·.2)
  (List.range Config.tileSlots).filter fun p => !used.contains p

/-- Free, unreserved board entries of a loom. -/
def Loom.freeEntries (x : Loom) : List Nat :=
  (List.range Config.boardEntries).filter fun i => (x.entry i).state == .free && !(x.entry i).rsv

/-- A loom has what a restore waits for beside R46: tile slots, command-queue entries, board entries, and no responder of the
entries that move (R310, R379, R383). -/
def State.restoreRoom (s : State) (l : Nat) (v : Saved) : Bool :=
  let x := s.loom l
  let es := s.savedEntries v
  v.tiles.length ≤ x.freeSlotsOp.length
    && allClasses.all (fun c => x.queueLoad c + (v.ops.filter fun o => o.cls == c).length
        + ((v.wefts.flatMap fun w => w.2.faulted.filter fun f => f.op.cls == c && !f.report).length) ≤ Config.commandQueueEntries)
    && (l == v.loom || es.length ≤ x.freeEntries.length)
    && es.all fun i => !(s.loom v.loom).entryBusy i

/-- Tiles of accumulator cells that are written whole are in error no longer (R204). -/
def State.clearCells (s : State) (l : Nat) (tiles : List Nat) : State :=
  s.modMem fun m => { m with marks := m.marks.filter fun p =>
    match p.1 with | .cell l' c => !(l' == l && tiles.contains (c / 4096)) | _ => true }

/-- Fill a saved range on its new loom, at an ownership entry (R310): none while it waits. -/
def State.restoreRange (s : State) (l h : Nat) (v : Saved) (r : SavedRange) : Option State :=
  match (s.loom l).freeOwn with
  | none => none
  | some e =>
    let tiles := (s.loom l).freeTiles.take r.own.t
    if tiles.length < r.own.t then none
    else
      let o : Own := { r.own with tiles := tiles, team := h }
      let map (s : State) : State := s.modTeam l h fun t =>
        { t with accs := (List.range o.t).foldl (fun m k => SMap.put m (r.first + k) (e, k)) t.accs }
      if o.state = .attached then
        match s.fillRange l { o with gen := o.gen + 1 } o.spill with
        | .wait => none
        | .ok s1 => some (map (s1.setOwn l e { o with gen := o.gen + 1 }))
        | .fail c _ =>
          let s1 := s.eventRecord 0x02 l o.ctx o.key (BitVec.ofNat 64 c)
          some (s1.modLoom v.loom fun x => x.dropKey o.ctx o.key)
      else
        let fill (m : List (Nat × Word)) (q : Nat × Nat) : List (Nat × Word) :=
          let m0 := SMap.dropRange m (4096 * q.1) (4096 * q.1 + 4096)
          (SMap.slice r.cells (4096 * q.2) (4096 * q.2 + 4096)).foldl (fun m c => SMap.put m (4096 * q.1 + c.1) c.2) m0
        let s1 := (s.modLoom l fun x => { x with cells := tiles.zipIdx.foldl fill x.cells }).clearCells l tiles
        some (map (s1.setOwn l e o))

/-- Fill every range. -/
def State.restoreRanges (s : State) (l h : Nat) (v : Saved) : List SavedRange → Option State
  | [] => some s
  | r :: rest =>
    match s.restoreRange l h v r with
    | none => none
    | some s1 => State.restoreRanges s1 l h v rest

/-- Put a saved team's tile slots into free ones (R310), which then are not in error (R200). -/
def State.restoreTiles (s : State) (l h : Nat) (v : Saved) : State :=
  (v.tiles.zip (s.loom l).freeSlotsOp).foldl (fun s q =>
    let s1 := s.modLoom l fun x =>
      let m0 := SMap.dropRange x.operand (4096 * q.2) (4096 * q.2 + 4096)
      { x with operand := q.1.2.foldl (fun (m : Mem) (b : Host.Cell) => Memory.write m (4096 * q.2 + b.1) b.2) m0 }
    (s1.modMem fun m => m.clearMark (.tile l q.2)).modTeam l h fun t => { t with tiles := SMap.put t.tiles q.1.1 q.2 }) s

/-- A board entry as a restore makes it valid (R379). -/
def Board.restored (b : Board) (h base : Nat) (share : DWord) : Board :=
  { b with state := .valid, gen := b.gen + 1, team := if b.kind = 0 then h else b.team,
           addr := if b.kind = 0 then BitVec.ofNat 64 base + (b.addr - share) else b.addr }

/-- Bring a saved team's entries to the board of its loom (R379). -/
def State.restoreEntries (s : State) (l h base : Nat) (v : Saved) : State :=
  let es := s.savedEntries v
  let places := if l = v.loom then es else (s.loom l).freeEntries
  (es.zip places).foldl (fun s p =>
    let b := (s.loom v.loom).entry p.1
    let s1 := if l = v.loom then s else s.modLoom v.loom fun x => x.freeEntry p.1
    s1.modLoom l fun x => x.setEntry p.2 (b.restored h base v.team.imageShareAt)) s

/-- A saved operation on its new loom: a fabric operation takes a new tag (R277). -/
def State.restoreOp (s : State) (l slot : Nat) (o : Op) : State :=
  let o1 := { o with loom := l, slot := slot }
  let o2 := if o.cls = .fab then { o1 with tag := BitVec.ofNat 24 (s.fabric.nextTag.toNat % 2 ^ 23) } else o1
  let s1 := if o.cls = .fab then s.modFabric fun f => { f with nextTag := f.nextTag + 1 } else s
  s1.modLoom l fun x => x.setQueue o.cls (x.queue o.cls ++ [o2])

/-- A saved weft in its new slot (R64). -/
def Weft.restored (w : Weft) (l h slot spill : Nat) (frame : Option Nat) : Weft :=
  { w with team := some h, spillBase := spill, frame := frame,
           replay := w.replay.map fun o => { o with loom := l, slot := slot },
           faulted := w.faulted.map fun f => { f with op := { f.op with loom := l, slot := slot } } }

/-- The check that a restore makes of a saved frontier (R422, R430). -/
def Weft.frontierOk (w : Weft) : Bool :=
  let es := w.held ++ w.spilled
  es.length ≤ 32 && entriesOk 0xFFFFFFFF es 0

/-- A saved team on its new loom, before its ranges, tiles and entries: `bases` are the share, the spill areas and the
frames. -/
def State.restoreTeam (s : State) (l h : Nat) (v : Saved) (slots bases : List Nat) : State :=
  let n := v.wefts.length
  let base := bases.headD 0
  let spills := (bases.drop 1).take n
  let frames := (v.frames.map (·.1)).zip (bases.drop (1 + n))
  let byNum := (v.wefts.map (·.1)).zip slots
  let ws := (v.wefts.zip (slots.zip spills)).map fun p =>
    (p.2.1, p.1.2.restored l h p.2.1 p.2.2 (SMap.find? frames p.1.1))
  let hs := v.heddles.map fun e => { e with team := h, mask := slotsOf byNum e.mask, arrived := slotsOf byNum e.arrived }
  let team := { v.team with
    slots := (List.range v.team.slots.length).map (fun n => (SMap.find? byNum n).getD Config.weftSlots),
    shareBase := base, tiles := [], accs := [], placedAt := s.clock, drainUntil := none, drained := false, stop := none }
  let share := s.bytesVa (deviceView v.team.ctx) v.team.imageShareAt v.team.shareSize
  let free := (List.range Config.loomArmEntries).filter fun i => (SMap.find? (s.loom l).arms i).isNone
  let s1 := (s.clearLm l base v.team.shareSize).modLm l fun m => Memory.writeBytes m base share
  let s2 := frames.foldl (fun s f =>
    match SMap.find? v.frames f.1 with
    | some m => (s.clearLm l f.2 Config.frameBytes).modLm l fun x => m.foldl (fun x b => Memory.write x (f.2 + b.1) b.2) x
    | none => s) s1
  let s3 := s2.modLoom l fun x =>
    { (x.addTeam h team ws hs) with
      arms := (v.arms.zip free).foldl (fun m a => SMap.put m a.2 { a.1 with addr := base + a.1.addr, team := h }) x.arms }
  let s4 := s3.modLm l fun m => ws.foldl (fun m p => Memory.writeBytes m p.2.spillBase p.2.spillBytes) m
  v.ops.foldl (fun s o => s.restoreOp l ((SMap.find? byNum o.slot).getD Config.weftSlots) o) s4

/-- Wefts whose saved frontier fails its check end (R430). -/
def State.checkFrontiers (s : State) (l h : Nat) : State :=
  (s.liveWefts l h).foldl (fun s p => if p.2.frontierOk then s else s.terminate l p.1 0xF4 0xF4 none p.2.firstPc) s

/-- TEAM_RESTORE: the swapped-out team of the draw is placed again on a loom that has what it needs (R64, R310, R430). -/
def execTeamRestore (l h slot0 : Nat) (s : State) : Result :=
  match s.dist.waiting with
  | some (.swapped id) =>
    (match s.saved? id with
      | none => .next s
      | some v =>
        let slots := (s.loom l).freeSlots slot0 v.wefts.length
        if l ≥ Config.looms || h ≥ 1024 || (s.team? l h).isSome || slots.length < v.wefts.length || !s.swapUnheld l
            || !s.restoreRoom l v then .next s
        else
          match (s.loom l).fits v.need, s.restoreState v.team with
          | none, _ => .next s
          | some _, .absent => .next s
          | some _, .unusable => .next ((s.restoreFails v).getD s)
          | some bases, .usable =>
            match s.evict 33 l (v.ranges.foldl (fun n r => n + r.own.t) 0) with
            | none => .next s
            | some s1 =>
              match (s1.restoreTeam l h v slots bases).restoreRanges l h v v.ranges with
              | none => .next s
              | some s2 =>
                let base := bases.headD 0
                let s3 := ((s2.restoreTiles l h v).restoreEntries l h base v).forgetSaved id
                .next ((((s3.checkFrontiers l h).countLoom l 0x11 v.team.ctx 1).swapBusy l).drawOver))
  | _ => .next s

end Sys2Proof.Machine
end

