-- ==== Sys2Proof/Machine/Contexts.lean ====
section
/-! DEFINITION. Contexts: creation, switch out, switch in and teardown, and what a running command waits for (17 R455, 05 R131,
13 R349, R361, R401; the register layout is log entry 20's). -/

namespace Sys2Proof.Machine

/-- Status of a command that runs (R455). -/
def ctxBusy : Nat := 0x80

/-- Set the command's status. -/
def State.setCtxStatus (s : State) (st : Nat) : State := { s with mgmt := { s.mgmt with ctxStatus := st } }

def State.modContext (s : State) (c : Nat) (f : Context → Context) : State :=
  match s.context? c with
  | none => s
  | some x => { s with contexts := SMap.put s.contexts c (f x) }

/-- Drop every TLB entry and cache line of a context number (R208, R361, R455). -/
def State.dropCtxLines (s : State) (c : Nat) : State :=
  let s1 := s.tlbAgents.foldl (fun s ag => s.setTlb ag ((s.tlb ag).filter fun e => e.ctx != c)) s
  { s1 with looms := s1.looms.map fun (p : Nat × Loom) =>
      (p.1, { p.2 with l1 := p.2.l1.filter (fun q => q.1 != c), icache := p.2.icache.filter (fun q => q.ctx != c),
                       ifills := p.2.ifills.filter fun q => q.1 != c }) }

/-- The decode-table entries 0x000 to 0x2FF of a new context: an image's, or those of R105. -/
def ctxEntries (d : CtxDesc) : List DecEntry :=
  let own := (List.range 768).map DecEntry.default
  match d.image with
  | none => own
  | some ws =>
    let es := (ws.take 768).map DecEntry.ofBits
    if es.length = 768 ∧ es.all Option.isSome then es.filterMap id else own

/-- The queue block of a new context, where its page is resident: cused, xseq and reserved fields are zero (R7, R327). -/
def State.placeQblock (s : State) (c : Nat) (q : DWord) : State :=
  match s.translate (.gateway 0) c q.toNat with
  | some x => if pteResident x.pte then s.placeRecords x.space (x.phys q.toNat) 64 contextPlaced else s
  | none => s

/-- CONTEXT_CREATE: command 1 (R455). -/
def execContextCreate (d : CtxDesc) (s : State) : Result :=
  let c := d.num.toNat
  let s0 := { s with mgmt := { s.mgmt with ctxDesc := d, ctxCommand := 1, ctxSubject := c } }
  if s.mgmt.ctxStatus = ctxBusy then .next s
  else if c = 0 ∨ (s.context? c).isSome then .next (s0.setCtxStatus 1)
  else if d.qblock = 0 ∨ d.qblock.toNat % 64 ≠ 0 then .next (s0.setCtxStatus 4)
  else
    let x : Context := { root := d.root, dtab := d.dtab, qblock := d.qblock, trapv := d.trapv, served := true, decode := [],
                         cmd := .none }
    let s1 := ({ s0 with contexts := SMap.put s0.contexts c x }.dropCtxLines c).setDecode c (ctxEntries d)
    let fixed := ((List.range 1024).drop 768).flatMap fun o => leBytes 2 (DecEntry.default o).toBits.toNat
    .next (((s1.modMem fun m => { m with hbm := Memory.writeBytes m.hbm (d.dtab.toNat + 1536) fixed }).placeQblock c
      d.qblock).setCtxStatus 0)

/-! ## Switch out (R429, R430, R455) -/

/-- The resident teams of a context: loom, handle and team. -/
def State.ctxTeams (s : State) (c : Nat) : List (Nat × Nat × Team) :=
  s.looms.flatMap fun p => (p.2.teams.filter fun t => t.2.ctx == c).map fun t => (p.1, t.1, t.2)

/-- The continuation-record wefts of a context: loom and slot. -/
def State.ctxRecords (s : State) (c : Nat) : List (Nat × Nat) :=
  s.looms.flatMap fun p => (p.2.wefts.filter fun w => w.2.ctx == c && w.2.team.isNone).map fun w => (p.1, w.1)

/-- A team of a context that is switched out: saved where its image is usable, else terminated (R430). -/
def State.switchTeam (s : State) (l h : Nat) (t : Team) : State :=
  if t.stop.isSome || s.frontierless l h then s
  else if s.imageState t.ctx t.swap t.imageBytes = .unusable then s.terminateTeam l h
  else s.stopTeam l h

/-- A draw's team of a context waits no more. -/
def State.dropPick (s : State) (c : Nat) : State :=
  let id := match s.dist.waiting with | some (.fresh i) | some (.swapped i) => some i | none => none
  match id.bind fun i => s.launch? i.queue (BitVec.ofNat 64 i.count) with
  | some x => if x.ctx = c then s.drawOver else s
  | none => s

/-- CONTEXT_SWITCH_OUT: command 2 (R455). -/
def execContextSwitchOut (ctx : BitVec 16) (s : State) : Result :=
  let c := ctx.toNat
  if s.mgmt.ctxStatus = ctxBusy then .next s
  else
    let s0 := { s with mgmt := { s.mgmt with ctxCommand := 2, ctxSubject := c } }
    if (s.context? c).isNone then .next (s0.setCtxStatus 1)
    else
      let s1 := ((s0.modContext c fun x => { x with served := false, cmd := .switchOut }).dropPick c).setCtxStatus ctxBusy
      .next ((s1.ctxTeams c).foldl (fun s p => s.switchTeam p.1 p.2.1 p.2.2) s1)

/-- Spill the pinned ranges of a context on a loom; the second part says that none is left (R299). -/
def State.spillPinned (s : State) (c l : Nat) : List (Nat × Own) → State × Bool
  | [] => (s, true)
  | (e, o) :: rest =>
    let (s1, ok) : State × Bool :=
      if o.ctx ≠ c ∨ o.state ≠ .pinned then (s, true)
      else if (s.loom l).keyBusy c o.key then (s, false)
      else
        match s.spillRange l o with
        | .wait => (s, false)
        | .fail cause _ => (s.spillFailed l e o cause, true)
        | .ok s' => (s'.modLoom l fun x => { (x.markKey c o.key .spilled false) with owners := SMap.put x.owners e o.spilled }, true)
    let (s2, ok') := State.spillPinned s1 c l rest
    (s2, ok && ok')

/-- Spill every pinned range of a context. -/
def State.spillCtx (s : State) (c : Nat) : State × Bool :=
  s.looms.foldl (fun acc p =>
    let (s1, ok) := acc.1.spillPinned c p.1 p.2.owners
    (s1, acc.2 && ok)) (s, true)

/-- A responder of the context's entries has not ended, or its record is queued. -/
def State.respondersLeft (s : State) (c : Nat) : Bool :=
  s.looms.any fun p => p.2.wefts.any fun w => w.2.ctx == c && w.2.responder.isSome

/-- A switch out goes on: when no team is resident and no record weft runs, the pinned ranges are spilled (R455). -/
def State.switchOutStep (s : State) (c : Nat) : State :=
  if !(s.ctxTeams c).isEmpty || !(s.ctxRecords c).isEmpty || s.respondersLeft c then s
  else
    let (s1, done) := s.spillCtx c
    if done then (s1.modContext c fun x => { x with cmd := .none }).setCtxStatus 0 else s1

/-- CONTEXT_SWITCH_IN: command 3 (R455). -/
def execContextSwitchIn (ctx : BitVec 16) (s : State) : Result :=
  let c := ctx.toNat
  if s.mgmt.ctxStatus = ctxBusy then .next s
  else
    let s0 := { s with mgmt := { s.mgmt with ctxCommand := 3, ctxSubject := c } }
    if (s.context? c).isNone then .next (s0.setCtxStatus 1)
    else .next ((s0.modContext c fun x => { x with served := true }).setCtxStatus 0)

/-! ## Teardown (R455) -/

/-- A queue of the context is enabled. -/
def State.queueEnabled (s : State) (c : Nat) : Bool := (List.range 64).any fun q => s.queueEn q && s.queueCtx q == c

/-- Discard the operations of every weft of a context. -/
def State.discardCtx (s : State) (c : Nat) : State :=
  s.looms.foldl (fun s p => (p.2.wefts.filter fun w => w.2.ctx == c).foldl (fun s w =>
    (s.cancelReplay w.2).discardOps p.1 w.1) s) s

/-- CONTEXT_TEARDOWN: command 4 (R455). -/
def execContextTeardown (ctx : BitVec 16) (s : State) : Result :=
  let c := ctx.toNat
  if s.mgmt.ctxStatus = ctxBusy then .next s
  else
    let s0 := { s with mgmt := { s.mgmt with ctxCommand := 4, ctxSubject := c } }
    if (s.context? c).isNone then .next (s0.setCtxStatus 1)
    else if s.queueEnabled c then .next (s0.setCtxStatus 2)
    else
      let s1 := ((s0.modContext c fun x => { x with served := false, cmd := .teardown }).dropPick c).setCtxStatus ctxBusy
      let s2 := (s1.ctxTeams c).foldl (fun s p => s.setStop p.1 p.2.1 fun _ => .teardown) s1
      .next (s2.discardCtx c)

/-- Operations of a context that its teardown waits for (R455). -/
def State.ctxOpsLeft (s : State) (c : Nat) : Bool := s.looms.any fun p => p.2.ops.any fun o => o.2.ctx == c

/-- Take everything of a context off a loom. -/
def Loom.dropCtx (x : Loom) (c : Nat) : Loom :=
  let hs := (x.teams.filter fun p => p.2.ctx == c).map (·.1)
  let x1 := hs.foldl (fun x h => x.removeTeam h) x
  let spawns := x1.spawns.filter fun p => p.ctx != c
  let board := x1.board.map fun p => if p.2.ctx = c then (p.1, Board.freeWith p.2.gen) else p
  { x1 with wefts := x1.wefts.filter (fun p => p.2.ctx != c),
            growers := x1.growers.filter (fun k => match SMap.find? x1.wefts k with | some w => w.ctx != c | none => true),
            owners := x1.owners.filter (fun p => p.2.ctx != c), board := board, spawns := spawns,
            ready := x1.ready.filter (fun r => r.1 != c), arms := x1.arms.filter (fun p => p.2.ctx != c) }

/-- Discard everything of a context (R351, R401, R403, R455). -/
def State.dropContext (s : State) (c : Nat) : State :=
  let s1 := s.setQblock c 12 4 0
  { s1 with
    contexts := SMap.del s1.contexts c,
    looms := s1.looms.map (fun (p : Nat × Loom) => (p.1, p.2.dropCtx c)),
    launches := s1.launches.filter (fun x => x.ctx != c),
    fetches := s1.fetches.filter (fun f => f.ctx != c),
    census := s1.census.filter (fun p => p.2.ctx != c),
    bankArms := s1.bankArms.filter (fun p => p.2.ctx != c),
    fabric := { s1.fabric with collectives := s1.fabric.collectives.filter fun g => g.ctx != c } }

/-- A teardown goes on: when every acknowledgement, bankop and merge has come, the context is discarded (R455). -/
def State.teardownStep (s : State) (c : Nat) : State :=
  if s.ctxOpsLeft c then s else (s.dropContext c).setCtxStatus 0

/-- The context commands that run (R455). -/
def State.contextsAll (s : State) : State :=
  s.contexts.foldl (fun s p =>
    match p.2.cmd with
    | .none => s
    | .switchOut => s.switchOutStep p.1
    | .teardown => s.teardownStep p.1) s

end Sys2Proof.Machine
end

