-- ==== Sys2Proof/Machine/Link.lean ====
section
/-! DEFINITION. The fabric's links: flits received, acknowledgement and replay, credits, loss of light, retraining, retirement,
and the port, node and route registers (13 R369, R370, 15 R411, 17 R436 to R447, R450, R452, R461, R465; log entry 18). -/

namespace Sys2Proof.Machine

/-! ## Retirement and retraining (R411, R446, R447) -/

/-- The source of a port's event records (R339). -/
def portSrc (port : Nat) : Nat := 0xC0 + portDie port

/-- A port is in the port retirement record (R461). -/
def State.portRecorded (s : State) (port : Nat) : Bool := s.mgmt.portRecord.getLsbD port

/-- A port retires: routes cleared, an event record, the retirement record, and the waiting units refused (R447). -/
def State.retirePort (s : State) (port : Nat) : State :=
  let x := s.port port
  let lost := x.flying.map (·.2) ++ x.queue
  let s1 := s.setPort port { x with
    state := .retired, live := 0, txMask := 0, suspect := 0, ctlBusy := false, ctlResult := x.ctlBusy || x.ctlResult, queue := [], flying := [],
    unacked := [], toResend := [], partialIn := [] }
  let s2 := s1.modFabric fun f => { f with route := f.route.map fun e =>
    if (e.2.extractLsb' 0 7).toNat = port then (e.1, e.2 &&& 0x7FFF) else e }
  let s3 := s2.eventRecord 0x05 (portSrc port) 0 (BitVec.ofNat 64 port) 0
  let s4 := { s3 with mgmt := { s3.mgmt with portRecord := s3.mgmt.portRecord ||| BitVec.ofNat 96 (2 ^ port) } }
  lost.foldl (fun s p => (s.freeSlots p).refuse p 8) s4

/-- A retraining: a token and an event record, or retirement where no token is left (R411, R446). -/
def State.retrain (s : State) (port : Nat) : State :=
  let x := s.port port
  if x.tokens = 0 then s.retirePort port
  else
    let s1 := s.setPort port { x with state := .training, tokens := x.tokens - 1, toResend := [] }
    (s1.eventRecord 0x04 (portSrc port) 0 (BitVec.ofNat 64 port) (BitVec.ofNat 64 (x.tokens - 1))).dieError (portDie port)
      (18 + 3 * (port % 24))

/-- Every unacknowledged flit is to be sent again (R442). -/
def FabPort.resendAll (x : FabPort) : FabPort := { x with toResend := x.unacked.map (·.1) }

/-- A NAK or a timeout (R442). -/
def State.resendOrRetrain (s : State) (port : Nat) : State :=
  let x := s.port port
  if x.unacked.isEmpty then s
  else if x.resends ≥ 3 then s.retrain port
  else s.setPort port { x.resendAll with resends := x.resends + 1 }

/-! ## Receiving (R440, R441, R448, R450) -/

/-- Flits up to a number are acknowledged (R440). -/
def FabPort.acked (x : FabPort) (a : BitVec 16) : FabPort :=
  if x.unacked.any fun f => f.1 == a then
    let rest := (x.unacked.dropWhile fun f => f.1 != a).tail
    let kept (n : BitVec 16) : Bool := rest.any fun f => f.1 == n
    { x with unacked := rest, flying := x.flying.filter (fun f => kept f.1), toResend := x.toResend.filter kept, resends := 0 }
  else x

/-- Credits that a flit returns (R450). -/
def FabPort.credited (x : FabPort) (h : FlitHead) : FabPort :=
  if h.csh then { x with shared := x.shared + h.crd }
  else if h.cpool ≥ 4 then { x with respCredits := modAt x.respCredits (h.cpool - 4) (· + h.crd) }
  else { x with reqCredits := modAt x.reqCredits h.cpool (· + h.crd) }

/-- What the slots of data flits hold: whole packets, the slots of one that has not ended, and whether an op is reserved
(R448, R449). -/
structure Unpacked where
  packets : List Packet
  rest : List (List Byte)
  bad : Bool

/-- Packets from slots (R448). -/
def unpackSlots : Nat → List (List Byte) → Unpacked
  | 0, slots => ⟨[], slots, false⟩
  | k + 1, slots =>
    match slots with
    | [] => ⟨[], [], false⟩
    | h :: _ =>
      let op := (h.getD 0 0).toNat % 16
      if op = 15 then ⟨[], [], false⟩
      else if op ≥ 11 then ⟨[], [], true⟩
      else if slots.length < 3 then ⟨[], slots, false⟩
      else
        let p := Packet.ofHeader (slots.take 3).flatten
        let n := 3 + p.dataSlots
        if slots.length < n then ⟨[], slots, false⟩
        else
          let bytes := ((slots.take n).drop 3).flatten
          let data := if p.op ≤ 2 then bytes.take p.len else if p.op = 7 then bytes.take (16 + p.len) else bytes
          let u := unpackSlots k (slots.drop n)
          { u with packets := { p with data := data } :: u.packets }

/-- The 16-byte slots of a payload. -/
def slots16 (b : List Byte) : List (List Byte) := (List.range 11).map fun i => (b.drop (16 * i)).take 16

/-- A packet that has arrived at a port: delivered, or forwarded, across the dies where its port lies on another (R17, R368). -/
def State.arrive (s : State) (port : Nat) (p : Packet) : State :=
  if p.dst = s.node.toNat then s.deliver p
  else (s.crossDies (portDie port) (s.leaveDie (portDie port) p.dst) (16 * p.slots)).sendPacket p

/-- A packet takes its slots at the port that receives it: of its channel's pool, or of the shared pool where its own has not so
many that are free and reported so (R450). DESIGN CHOICE (log entry 18): no field of a flit or packet says which pool the
transmitter spent, and the receiver takes the one that R450's order gives. -/
def FabPort.place (x : FabPort) (port : Nat) (p : Packet) : FabPort × Packet :=
  if x.inUse.getD p.pool 0 + p.slots ≤ 352 then
    ({ x with inUse := modAt x.inUse p.pool (· + p.slots) }, { p with via := some (port, false) })
  else (x, { p with via := some (port, true) })

/-- The packets of a flit take their slots. -/
def FabPort.placeAll (x : FabPort) (port : Nat) (ps : List Packet) : FabPort × List Packet :=
  ps.foldl (fun acc p => let r := acc.1.place port p; (r.1, acc.2 ++ [r.2])) (x, [])

/-- A NAK, if its condition holds (R441). -/
def State.nakIf (s : State) (port : Nat) : State :=
  let x := s.port port
  if x.nakd || x.suspect != 0 || x.state != .up then s
  else (s.emitFlit port 2 true [] none).modPort port fun x => { x with nakd := true }

/-- The wavelengths of a mask. -/
def waves (m : BitVec 24) : List Nat := (List.range 24).filter fun i => m.getLsbD i

/-- Event records of kind 0x03 for wavelengths (R339, R444). -/
def State.lostWaves (s : State) (port : Nat) (m : BitVec 24) : State :=
  (waves m).foldl (fun s w => s.eventRecord 0x03 (portSrc port) 0 (BitVec.ofNat 64 port) (BitVec.ofNat 64 w)) s

/-- The peer's new live mask: adopted, recorded, and the unacknowledged flits sent again (R442, R444). -/
def State.peerMask (s : State) (port : Nat) (m : BitVec 24) : State :=
  let x := s.port port
  if m = x.txMask then s
  else (s.setPort port { x.resendAll with txMask := m, resends := 0 }).lostWaves port (x.txMask &&& ~~~m)

/-- An accepted flit: its packets, or its mask; the port reports it (R440, R441). -/
def State.acceptFlit (s : State) (port : Nat) (h : FlitHead) (u : Unpacked) (mask : BitVec 24) : State :=
  let (x, ps) := (s.port port).placeAll port u.packets
  let s1 := s.setPort port
    { x with expect := x.expect + 1, nakd := false, acceptedAny := true, unreported := x.unreported + 1,
             partialIn := if h.type = 0 then u.rest else x.partialIn }
  let s2 := if h.type = 1 then s1.peerMask port mask else ps.foldl (fun s p => s.arrive port p) s1
  if (s2.port port).unreported ≥ 32 then s2.emitFlit port 2 false [] none else s2

/-- FLIT_RECEIVE: a flit reaches an up port; `got` names the beats that were received (R438, R441, R442, R450). -/
def execFlitReceive (port : Nat) (flit : BitVec 1536) (got : BitVec 24) (s : State) : Result :=
  let x := s.port port
  if port ≥ Config.ports ∨ x.state ≠ .up then .next s
  else
    let s := s.countDie (portDie port) 0x48 1
    let bytes := leBytes 192 flit.toNat
    let h := FlitHead.ofBits (flit.extractLsb' 0 64)
    -- a flit of which a beat was not received matches no CRC (R438)
    let crcOk := got == 0xFFFFFF && leValue (bytes.drop 184) == crc64 (bytes.take 184)
    let slots := if h.type = 0 then slots16 ((bytes.drop 8).take 176) else []
    let u := if h.type = 0 then unpackSlots 5 (x.partialIn ++ slots) else ⟨[], [], false⟩
    let s0 := if crcOk then s else s.dieError (portDie port) (16 + 3 * (port % 24))
    -- only the flit that is next is read as packets (R441, R449)
    if !crcOk || h.type == 3 || (h.seq == x.expect && u.bad) then .next (s0.nakIf port)
    else
      let s1 := s.modPort port fun x =>
        let x := if h.av then x.acked h.ack else x
        if h.type = 2 ∨ h.seq = x.expect then x.credited h else x
      let s2 := if h.type = 2 then s1
        else if h.seq ≠ x.expect then s1.nakIf port
        else s1.acceptFlit port h u (flit.extractLsb' 64 24)
      -- a new mask is no NAK for the count (R442)
      let newMask := h.type == 1 && h.seq == x.expect && flit.extractLsb' 64 24 != x.txMask
      .next (if h.nak && !newMask then s2.resendOrRetrain port else s2)

/-- REPLAY_TIMEOUT: no acknowledgement has advanced for 4 µs (R442). -/
def execReplayTimeout (port : Nat) (s : State) : Result :=
  if port < Config.ports ∧ (s.port port).state = .up then .next (s.resendOrRetrain port) else .next s

/-- ACK_TIMER: a flit that carries the ack (R440). -/
def execAckTimer (port : Nat) (s : State) : Result :=
  if port < Config.ports ∧ (s.port port).state = .up then .next (s.emitFlit port 2 false [] none) else .next s

/-! ## Loss of light (R443 to R445) -/

/-- WAVELENGTH_SUSPECT: a live wavelength's power falls. -/
def execWavelengthSuspect (port w : Nat) (s : State) : Result :=
  let x := s.port port
  if port < Config.ports ∧ x.state = .up ∧ x.live.getLsbD w then
    .next (s.setPort port { x with suspect := x.suspect ||| BitVec.ofNat 24 (2 ^ w) })
  else .next s

/-- WAVELENGTH_LIVE_AGAIN: its power returns within 1 µs. -/
def execWavelengthLiveAgain (port w : Nat) (s : State) : Result :=
  let x := s.port port
  if port < Config.ports ∧ w < 24 then
    .next (s.setPort port { x with suspect := x.suspect &&& ~~~(BitVec.ofNat 24 (2 ^ w)) })
  else .next s

/-- WAVELENGTH_DEAD: suspect wavelengths are marked dead, in one step (R444); with none left the port retrains (R445). -/
def execWavelengthDead (port : Nat) (mask : BitVec 24) (s : State) : Result :=
  let x := s.port port
  let dead := mask &&& x.suspect &&& x.live
  if port ≥ Config.ports ∨ x.state ≠ .up ∨ dead = 0 then .next s
  else
    let y := { x with live := x.live &&& ~~~dead, suspect := x.suspect &&& ~~~dead }
    let s1 := ((s.setPort port y).sendMask port).lostWaves port dead
    .next (if y.live = 0 then s1.retrain port else s1)

/-- PORT_RETRAIN: the port must retrain (R446). -/
def execPortRetrain (port : Nat) (s : State) : Result :=
  if port < Config.ports ∧ (s.port port).state = .up then .next (s.retrain port) else .next s

/-- A training of a port has ended (R436, R445, R446): with no live wavelength in either direction it retires, and with none to
receive it retrains. A command that waited for it is done (R465). -/
def State.trained (s : State) (t : PortTraining) : State :=
  if t.live = 0 ∧ t.tx = 0 then s.retirePort t.port
  else
    let s1 := s.modPort t.port fun x =>
      { x.resendAll with state := .up, live := t.live, txMask := t.tx, suspect := 0, pnode := t.pnode, pport := t.pport,
                         resends := 0, ctlBusy := false, ctlResult := if x.ctlBusy then false else x.ctlResult, maskDue := false }
    if t.live = 0 then s1.retrain t.port else s1

/-- PORT_TRAINING_COMPLETE. -/
def execPortTrainingComplete (t : PortTraining) (s : State) : Result :=
  if t.port < Config.ports ∧ (s.port t.port).state = .training then .next (s.trained t) else .next s

/-- TOKEN_RESTORE: the bucket's timer has expired (R411). -/
def execTokenRestore (port : Nat) (s : State) : Result :=
  let x := s.port port
  if port < Config.ports ∧ x.tokens < 8 ∧ x.timer ≥ 2 ^ 37 then
    .next (s.setPort port { x with tokens := x.tokens + 1, timer := 0 })
  else .next s

/-! ## Port commands (R452, R465) -/

/-- A valid route entry names a port. -/
def State.routed (s : State) (port : Nat) : Bool :=
  s.fabric.route.any fun e => e.2.getLsbD 15 && (e.2.extractLsb' 0 7).toNat == port

/-- PORT_SET_OFFLINE: PORTCTL command 1 (R452, R465). -/
def execPortSetOffline (port : Nat) (s : State) : Result :=
  let x := s.port port
  if port ≥ Config.ports ∨ x.ctlBusy then .next s
  else if x.state = .retired || !x.unacked.isEmpty || s.routed port then
    .next (s.setPort port { x with ctlCmd := 1, ctlResult := true })
  else .next (s.setPort port { x with ctlCmd := 1, ctlResult := false, state := .offline, live := 0, txMask := 0, suspect := 0 })

/-- PORT_BRING_UP: PORTCTL command 2: an offline port trains without a token (R452, R465). -/
def execPortBringUp (port : Nat) (s : State) : Result :=
  let x := s.port port
  if port ≥ Config.ports ∨ x.ctlBusy then .next s
  else
    match x.state with
    | .retired => .next (s.setPort port { x with ctlCmd := 2, ctlResult := true })
    | .offline => .next (s.setPort port { x with ctlCmd := 2, ctlResult := false, ctlBusy := true, state := .training })
    | _ => .next (s.setPort port { x with ctlCmd := 2, ctlResult := false })

/-! ## Node and route registers (R131, R369, R370, R462) -/

/-- NODE_WRITE. -/
def execNodeWrite (n : BitVec 12) (s : State) : Result := .next { s with node := n }

/-- ROUTE_WRITE: a changed port takes effect for each channel once what was sent before is acknowledged (R369). -/
def execRouteWrite (node : Nat) (v : BitVec 16) (s : State) : Result :=
  if node ≥ 4096 then .next s
  else
    let old := SMap.getD s.fabric.route node 0
    let new := v &&& 0x807F
    let pending (vc : Nat) : Bool := s.fabric.changes.any fun c => c.node == node && c.vc == vc
    .next (s.modFabric fun f =>
      { f with route := SMap.put f.route node new,
               changes := if old.extractLsb' 0 7 = new.extractLsb' 0 7 then f.changes
                 else f.changes ++ ((List.range 4).filter fun vc => !pending vc).map fun vc =>
                   { node := node, vc := vc, old := old, new := new } })

/-- Packets sent toward a node on a channel and not acknowledged. -/
def State.onTheWay (s : State) (node vc : Nat) : Bool :=
  s.fabric.ports.any fun p =>
    (p.2.flying.any fun q => q.2.dst == node && q.2.vc == vc) || p.2.queue.any fun q => q.dst == node && q.vc == vc

/-- ROUTE_CHANGE_EFFECT: the packets held for a change leave by the new route (R369). -/
def execRouteChangeEffect (node vc : Nat) (s : State) : Result :=
  if !(s.fabric.changes.any fun c => c.node == node && c.vc == vc) || s.onTheWay node vc then .next s
  else
    let mine (p : Packet) : Bool := p.dst == node && p.vc == vc
    let held := s.fabric.waiting.filter mine
    let s1 := s.modFabric fun f =>
      { f with changes := f.changes.filter (fun c => !(c.node == node && c.vc == vc)),
               waiting := f.waiting.filter fun p => !mine p }
    .next (held.foldl (fun s p => s.sendPacket p) s1)

end Sys2Proof.Machine
end

