-- ==== Sys2Proof/Machine/BringUp.lean ====
section
/-! DEFINITION. Power, bring-up, verification and measurement (01 R31 to R33, 17 R457 to R461, R463; the functions that the manual
names and does not give are Config's, log entry 16). -/

namespace Sys2Proof.Machine

/-! ## Reset (R31, R459, R463) -/

/-- The package at stage 1 with what outlives a reset: the root firmware's persistent state (R459, R461), the host's own
memory, and the model's fields. -/
def State.restarted (s : State) (powered : Bool) : State :=
  let m := Mgmt.reset
  let budgets := (m.budgets.zip s.mgmt.budgets).map fun (p : Budget × Budget) => { p.1 with floor := p.2.floor }
  { State.reset with
    mem := { Memories.reset with host := s.mem.host },
    mgmt := { m with portRecord := s.mgmt.portRecord, budgets := budgets, powered := powered },
    agenda := s.agenda, turn := s.turn, fresh := s.fresh, outbox := s.outbox }

/-- POWER_ON: rails come up, and the package is at stage 1 (R31). -/
def execPowerOn (s : State) : Result := .next (if s.mgmt.powered then s else s.restarted true)

/-- POWER_OFF: every volatile state is lost (R33). -/
def execPowerOff (s : State) : Result := .next (s.restarted false)

/-- RESET_REQUEST: a host write of 0xB0C5 to RSTREQ (R463). -/
def execResetRequest (s : State) : Result := .next (s.restarted true)

/-- Change the management registers. -/
def State.modMgmt (s : State) (f : Mgmt → Mgmt) : State := { s with mgmt := f s.mgmt }

/-- EXLEM_LINK_TRAINED: stage 2; the root firmware of stage 1 has measured the boot ROM (R31, R459). -/
def execExlemLinkTrained (s : State) : Result :=
  if s.mgmt.stage ≠ 1 then .next s
  else .next (s.modMgmt fun m => { m with stage := 2, linkUp := true, m0 := Config.bootRomDigest })

/-! ## Verification (R457, R458) -/

/-- Bytes of a flash image. -/
def flashField (i : FlashImage) (off n : Nat) : List Byte := (i.bytes.drop off).take n
def flashNum (i : FlashImage) (off n : Nat) : Nat := leValue (flashField i off n)
/-- The body that follows the header. -/
def flashBody (i : FlashImage) : List Byte := flashField i 4096 (flashNum i 8 8)
/-- The public key, and the signature by its length (R457). -/
def flashKey (i : FlashImage) : List Byte := flashField i 96 1793
def flashSigBytes (i : FlashImage) : Nat := flashNum i 1889 2

/-- The reason code of the first step of R458 that fails; 0 when none does. -/
def flashReason (i : FlashImage) : Nat :=
  if flashField i 0 4 ≠ [0x42, 0x5A, 0x53, 0x46] || (flashField i 94 2 ++ flashField i 3939 157).any (· != 0) then 5
  else if !Config.keySlots.contains (Config.shake256 (flashKey i) 32) then 1
  else if flashSigBytes i < 1 || flashSigBytes i > 2048 || !Config.falconVerify (flashKey i) (flashField i 0 96)
      (flashField i 1891 (flashSigBytes i)) then 3
  else if flashNum i 4 4 < Config.minSvn then 4
  else if Config.shake256 (flashBody i) 64 ≠ flashField i 16 64 then 2
  else if !i.readOk then 6
  else 0

/-- A budget after the root firmware writes its floor: no less than it (R409). -/
def Budget.setFloor (b : Budget) (v : Nat) : Budget :=
  let f := v % 2 ^ 14
  { b with floor := f, budget := if f > b.budget then min f 8192 else b.budget }

/-- FIRMWARE_VERIFICATION: stage 3, and, on success, stage 4 (R31, R32, R458, R459). -/
def execFirmwareVerification (img : FlashImage) (s : State) : Result :=
  if s.mgmt.stage ≠ 2 then .next s
  else
    let s1 := s.modMgmt fun m => { m with stage := 3, m1 := BitVec.ofNat 512 (leValue (Config.shake256 (flashField img 0 96) 64)) }
    match flashReason img with
    | 0 =>
      .next (s1.modMgmt fun m =>
        { m with stage := 4, svn := flashNum img 4 4,
                 budgets := m.budgets.zipIdx.map fun (p : Budget × Nat) => p.1.setFloor (flashNum img (80 + 2 * p.2) 2) })
    | r => .next (s1.modMgmt fun m => { m with fail := true, reason := r })

/-! ## Stages 5 to 7 (R31 to R33) -/

/-- MEMORY_ZEROING: stage 5: every memory holds zero, and looms and tables their reset values. -/
def execMemoryZeroing (s : State) : Result :=
  if s.mgmt.stage ≠ 4 then .next s
  else
    .next ({ s with looms := [], mem := { Memories.reset with host := s.mem.host }, bankArms := [], dieCounters := [] }.modMgmt fun m =>
      { m with stage := 5, errors := [] })

/-- A port of stage 6: recorded ones are retired without training, and so are those that do not train (R32, R461). -/
def State.bringPort (s : State) (ts : List PortTraining) (port : Nat) : State :=
  if s.portRecorded port then s.modPort port fun x => { x with state := .retired }
  else
    match ts.find? fun t => t.port == port with
    | some t => s.trained t
    | none => s.retirePort port

/-- FABRIC_BRING_UP: stage 6: the ports train, the route table is loaded and the node number set (R31, R131, R370). -/
def execFabricBringUp (ports : List PortTraining) (routes : List (Nat × BitVec 16)) (node : BitVec 12) (s : State) : Result :=
  if s.mgmt.stage ≠ 5 then .next s
  else
    let s1 := (List.range Config.ports).foldl (fun s p => s.bringPort ports p) s
    let s2 := s1.modFabric fun f =>
      { f with route := routes.foldl (fun m e => if e.1 < 4096 then SMap.put m e.1 (e.2 &&& 0x807F) else m) f.route }
    .next ({ s2 with node := node }.modMgmt fun m => { m with stage := 6 })

/-- LAUNCH_QUEUES_ENABLE: stage 7: the service firmware has placed the queue control blocks, and the distributor draws (R31,
R314; log entry 20), their reserved and device fields zero (R7). -/
def execLaunchQueuesEnable (base : DWord) (s : State) : Result :=
  if s.mgmt.stage ≠ 6 ∨ base = 0 ∨ base.toNat % 4096 ≠ 0 then .next s
  else
    .next (({ s with qbase := base }.placeRecords .hbm base.toNat 4096 fun k => launchPlaced (k % 64)).modMgmt fun m =>
      { m with stage := 7 })

end Sys2Proof.Machine
end

