-- ==== Sys2Proof/Machine/Integer.lean ====
section
/-! DEFINITION. Integer, logic, bit-field and immediate instructions, codes 0x000 to 0x03B (06_integer_and_control.md
R137 to R147), and the system registers that movs reads (05_registers.md R129, R130). -/

namespace Sys2Proof.Machine

/-! ## The functions of R140 to R143 -/

/-- x clamped to lo .. hi. -/
def clampInt (lo hi x : Int) : Int := if x < lo then lo else if x > hi then hi else x

/-- A sum or difference by its saturation mode (R140): `u` on unsigned values, `s` on signed ones. -/
def satResult (m : Sat) (u s : Int) : Word :=
  match m with
  | .wrap => trunc32 u
  | .sats => trunc32 (clampInt (-(2 ^ 31)) (2 ^ 31 - 1) s)
  | .satu => trunc32 (clampInt 0 (2 ^ 32 - 1) u)

def addSat (m : Sat) (x y : Word) : Word := satResult m (x.toNat + y.toNat) (sx x + sx y)
def subSat (m : Sat) (x y : Word) : Word := satResult m ((x.toNat : Int) - y.toNat) (sx x - sx y)

/-- imulh (R140). -/
def mulHigh (s : Bool) (x y : Word) : Word :=
  if s then trunc32 ((sx x * sx y) / 2 ^ 32) else BitVec.ofNat 32 (x.toNat * y.toNat / 2 ^ 32)

/-- idiv (R141). -/
def divWord (s : Bool) (x y : Word) : Word :=
  if y = 0 then 0xFFFFFFFF
  else if s then trunc32 ((sx x).tdiv (sx y)) else BitVec.ofNat 32 (x.toNat / y.toNat)

/-- irem (R141). -/
def remWord (s : Bool) (x y : Word) : Word :=
  if y = 0 then x
  else if s then trunc32 (sx x - (sx x).tdiv (sx y) * sx y) else BitVec.ofNat 32 (x.toNat % y.toNat)

/-- x < y, signed or unsigned. -/
def wordLt (s : Bool) (x y : Word) : Bool := if s then sx x < sx y else x.toNat < y.toNat

def minWord (s : Bool) (x y : Word) : Word := if wordLt s y x then y else x
def maxWord (s : Bool) (x y : Word) : Word := if wordLt s x y then y else x

/-- logic3: bit j is t[4·x_j + 2·y_j + z_j] (R140). -/
def logic3Word (t : BitVec 8) (x y z : Word) : Word :=
  maskOf fun j => t.getLsbD ((if x.getLsbD j then 4 else 0) + (if y.getLsbD j then 2 else 0)
    + if z.getLsbD j then 1 else 0)

/-- A shift count: y unsigned, mod 32 under the legacy bit (R108, R142). -/
def shiftCount (legacy : Bool) (y : Nat) : Nat := if legacy then y % 32 else y

/-- shl, shr and sar by a count (R142). -/
def shlWord (x : Word) (n : Nat) : Word := if n < 32 then x <<< n else 0
def shrWord (x : Word) (n : Nat) : Word := if n < 32 then x >>> n else 0
def sarWord (x : Word) (n : Nat) : Word := x.sshiftRight (min n 32)
/-- rot: left by n mod 32 (R140). -/
def rotWord (x : Word) (n : Nat) : Word := x.rotateLeft (n % 32)

/-- Number of one bits. -/
def popcWord (x : Word) : Word := BitVec.ofNat 32 ((List.range 32).filter fun j => x.getLsbD j).length
/-- Zero bits above the highest one bit. -/
def clzWord (x : Word) : Word := BitVec.ofNat 32 (((List.range 32).map (31 - ·)).takeWhile fun j => !x.getLsbD j).length
/-- Zero bits below the lowest one bit. -/
def ctzWord (x : Word) : Word := BitVec.ofNat 32 ((List.range 32).takeWhile fun j => !x.getLsbD j).length
/-- Bit j becomes bit 31 − j. -/
def brevWord (x : Word) : Word := maskOf fun j => x.getLsbD (31 - j)

/-- The length L of a field (R143). -/
def fieldLen (y : Word) : Nat :=
  let p := (y.extractLsb' 0 8).toNat
  if p < 32 then min (y.extractLsb' 8 8).toNat (32 - p) else 0

/-- bfx (R143). -/
def bfxWord (s : Bool) (x y : Word) : Word :=
  let l := fieldLen y
  if l = 0 then 0
  else
    let f := x.toNat / 2 ^ (y.extractLsb' 0 8).toNat % 2 ^ l
    if s && f.testBit (l - 1) then trunc32 ((f : Int) - 2 ^ l) else BitVec.ofNat 32 f

/-- bfi (R143). -/
def bfiWord (x y z : Word) : Word :=
  let l := fieldLen y
  if l = 0 then z
  else
    let p := (y.extractLsb' 0 8).toNat
    let m := BitVec.ofNat 32 ((2 ^ l - 1) * 2 ^ p)
    (z &&& ~~~m) ||| ((x <<< p) &&& m)

/-- icmp's condition (R144). -/
def icmpWord (c : Cond) (s : Bool) (x y : Word) : Word :=
  ofBool32 (match c with
    | .eq => x == y
    | .ne => x != y
    | .lt => wordLt s x y
    | .le => !wordLt s y x
    | .gt => wordLt s y x
    | .ge => !wordLt s x y)

/-- sel: bit 0 of z chooses x (R140). -/
def selWord (x y z : Word) : Word := if z.getLsbD 0 then x else y

/-- imad64's product and sum (R145). -/
def mad64 (s : Bool) (x y : Word) (z : DWord) : DWord :=
  if s then trunc64 (sx x * sx y + z.toNat) else trunc64 ((x.toNat : Int) * y.toNat + z.toNat)

/-- movhi (R147). -/
def movhiWord (x : Word) (k : BitVec 28) : Word := (k.extractLsb' 0 16) ++ (x.extractLsb' 0 16)

/-! ## 32-bit instructions -/

def execIadd (h : Guard) (d a b : Reg) (m : Sat) (s : State) : Result :=
  issue (.iadd h d a b m) (regBody d fun w _ i => addSat m (w.lane a i) (w.lane b i)) s
def execIsub (h : Guard) (d a b : Reg) (m : Sat) (s : State) : Result :=
  issue (.isub h d a b m) (regBody d fun w _ i => subSat m (w.lane a i) (w.lane b i)) s
def execImul (h : Guard) (d a b : Reg) (s : State) : Result :=
  issue (.imul h d a b) (regBody d fun w _ i => w.lane a i * w.lane b i) s
def execImulh (h : Guard) (d a b : Reg) (sg : Bool) (s : State) : Result :=
  issue (.imulh h d a b sg) (regBody d fun w _ i => mulHigh sg (w.lane a i) (w.lane b i)) s
def execImad (h : Guard) (d a b c : Reg) (s : State) : Result :=
  issue (.imad h d a b c) (regBody d fun w _ i => w.lane a i * w.lane b i + w.lane c i) s
def execIdiv (h : Guard) (d a b : Reg) (sg : Bool) (s : State) : Result :=
  issue (.idiv h d a b sg) (regBody d fun w _ i => divWord sg (w.lane a i) (w.lane b i)) s
def execIrem (h : Guard) (d a b : Reg) (sg : Bool) (s : State) : Result :=
  issue (.irem h d a b sg) (regBody d fun w _ i => remWord sg (w.lane a i) (w.lane b i)) s
def execImin (h : Guard) (d a b : Reg) (sg : Bool) (s : State) : Result :=
  issue (.imin h d a b sg) (regBody d fun w _ i => minWord sg (w.lane a i) (w.lane b i)) s
def execImax (h : Guard) (d a b : Reg) (sg : Bool) (s : State) : Result :=
  issue (.imax h d a b sg) (regBody d fun w _ i => maxWord sg (w.lane a i) (w.lane b i)) s
def execIabs (h : Guard) (d a : Reg) (s : State) : Result :=
  issue (.iabs h d a) (regBody d fun w _ i => trunc32 (sx (w.lane a i)).natAbs) s
def execIneg (h : Guard) (d a : Reg) (s : State) : Result :=
  issue (.ineg h d a) (regBody d fun w _ i => -(w.lane a i)) s
def execIand (h : Guard) (d a b : Reg) (s : State) : Result :=
  issue (.iand h d a b) (regBody d fun w _ i => w.lane a i &&& w.lane b i) s
def execIor (h : Guard) (d a b : Reg) (s : State) : Result :=
  issue (.ior h d a b) (regBody d fun w _ i => w.lane a i ||| w.lane b i) s
def execIxor (h : Guard) (d a b : Reg) (s : State) : Result :=
  issue (.ixor h d a b) (regBody d fun w _ i => w.lane a i ^^^ w.lane b i) s
def execInot (h : Guard) (d a : Reg) (s : State) : Result :=
  issue (.inot h d a) (regBody d fun w _ i => ~~~(w.lane a i)) s
def execLogic3 (h : Guard) (d a b c : Reg) (t : BitVec 8) (s : State) : Result :=
  issue (.logic3 h d a b c t) (regBody d fun w _ i => logic3Word t (w.lane a i) (w.lane b i) (w.lane c i)) s
def execShl (h : Guard) (d a b : Reg) (s : State) : Result :=
  issue (.shl h d a b) (regBody d fun w x i => shlWord (w.lane a i) (shiftCount x.legacy (w.lane b i).toNat)) s
def execShr (h : Guard) (d a b : Reg) (s : State) : Result :=
  issue (.shr h d a b) (regBody d fun w x i => shrWord (w.lane a i) (shiftCount x.legacy (w.lane b i).toNat)) s
def execSar (h : Guard) (d a b : Reg) (s : State) : Result :=
  issue (.sar h d a b) (regBody d fun w x i => sarWord (w.lane a i) (shiftCount x.legacy (w.lane b i).toNat)) s
def execRot (h : Guard) (d a b : Reg) (s : State) : Result :=
  issue (.rot h d a b) (regBody d fun w _ i => rotWord (w.lane a i) (w.lane b i).toNat) s
def execPopc (h : Guard) (d a : Reg) (s : State) : Result :=
  issue (.popc h d a) (regBody d fun w _ i => popcWord (w.lane a i)) s
def execClz (h : Guard) (d a : Reg) (s : State) : Result :=
  issue (.clz h d a) (regBody d fun w _ i => clzWord (w.lane a i)) s
def execCtz (h : Guard) (d a : Reg) (s : State) : Result :=
  issue (.ctz h d a) (regBody d fun w _ i => ctzWord (w.lane a i)) s
def execBrev (h : Guard) (d a : Reg) (s : State) : Result :=
  issue (.brev h d a) (regBody d fun w _ i => brevWord (w.lane a i)) s
def execBfx (h : Guard) (d a b : Reg) (sg : Bool) (s : State) : Result :=
  issue (.bfx h d a b sg) (regBody d fun w _ i => bfxWord sg (w.lane a i) (w.lane b i)) s
def execBfi (h : Guard) (d a b c : Reg) (s : State) : Result :=
  issue (.bfi h d a b c) (regBody d fun w _ i => bfiWord (w.lane a i) (w.lane b i) (w.lane c i)) s
def execIcmp (h : Guard) (d a b : Reg) (cond : Cond) (sg : Bool) (s : State) : Result :=
  issue (.icmp h d a b cond sg) (regBody d fun w _ i => icmpWord cond sg (w.lane a i) (w.lane b i)) s
def execSel (h : Guard) (d a b c : Reg) (s : State) : Result :=
  issue (.sel h d a b c) (regBody d fun w _ i => selWord (w.lane a i) (w.lane b i) (w.lane c i)) s
def execMov (h : Guard) (d a : Reg) (s : State) : Result :=
  issue (.mov h d a) (regBody d fun w _ i => w.lane a i) s

/-! ## 64-bit instructions (R145) -/

def execIadd64 (h : Guard) (d a b : Reg) (s : State) : Result :=
  issue (.iadd64 h d a b) (pairBody d fun w _ i => w.pair a i + w.pair b i) s
def execImad64 (h : Guard) (d a b c : Reg) (sg : Bool) (s : State) : Result :=
  issue (.imad64 h d a b c sg) (pairBody d fun w _ i => mad64 sg (w.lane a i) (w.lane b i) (w.pair c i)) s
def execShl64 (h : Guard) (d a b : Reg) (s : State) : Result :=
  issue (.shl64 h d a b) (pairBody d fun w _ i =>
    let y := (w.lane b i).toNat
    if y ≥ 64 then 0 else w.pair a i <<< y) s

/-! ## System registers (R129, R146) -/

def Role.code : Role → Nat
  | .vector => 0 | .copy => 1 | .matrix => 2

/-- The value that lane `i` reads from a system register (R129). -/
def sysRead (s : State) (x : Iss) (r : SysReg) (i : Nat) : DWord :=
  let w := x.w
  match r with
  | .lane => BitVec.ofNat 64 i
  | .weft => BitVec.ofNat 64 (w.num + 65536 * x.k)
  | .team =>
    (match s.teamOf x.l w with
      | none => 0
      | some t => BitVec.ofNat 64 (t.x + 2 ^ 20 * t.y + 2 ^ 40 * t.z))
  | .loom => BitVec.ofNat 64 x.l
  | .die => BitVec.ofNat 64 (x.l / 48)
  | .node => s.node.setWidth 64
  | .clock => s.clock
  | .active => x.act.setWidth 64
  | .role => BitVec.ofNat 64 w.role.code
  | .allot => BitVec.ofNat 64 w.allot
  | .prio => x.prio.setWidth 64
  | .ctx => BitVec.ofNat 64 (w.ctx + if w.sv then 65536 else 0)
  | .fpx => w.fpx.setWidth 64

/-- The register is read into a pair (R129). -/
def sysWide (r : SysReg) : Bool := r == .team || r == .clock

def execMovs (h : Guard) (d : Reg) (r : SysReg) (s : State) : Result :=
  issue (.movs h d r) (fun x s =>
    if sysWide r then pairBody d (fun _ x i => sysRead s x r i) x s
    else regBody d (fun _ x i => (sysRead s x r i).setWidth 32) x s) s

/-! ## Immediate forms (R147) -/

def execIaddImm (h : Guard) (d a : Reg) (k : BitVec 28) (s : State) : Result :=
  issue (.iaddImm h d a k) (regBody d fun w _ i => w.lane a i + sext28 k) s
def execImulImm (h : Guard) (d a : Reg) (k : BitVec 28) (s : State) : Result :=
  issue (.imulImm h d a k) (regBody d fun w _ i => w.lane a i * sext28 k) s
def execAndImm (h : Guard) (d a : Reg) (k : BitVec 28) (s : State) : Result :=
  issue (.andImm h d a k) (regBody d fun w _ i => w.lane a i &&& sext28 k) s
def execOrImm (h : Guard) (d a : Reg) (k : BitVec 28) (s : State) : Result :=
  issue (.orImm h d a k) (regBody d fun w _ i => w.lane a i ||| sext28 k) s
def execXorImm (h : Guard) (d a : Reg) (k : BitVec 28) (s : State) : Result :=
  issue (.xorImm h d a k) (regBody d fun w _ i => w.lane a i ^^^ sext28 k) s
def execShlImm (h : Guard) (d a : Reg) (k : BitVec 28) (s : State) : Result :=
  issue (.shlImm h d a k) (regBody d fun w x i => shlWord (w.lane a i) (shiftCount x.legacy (sext28 k).toNat)) s
def execShrImm (h : Guard) (d a : Reg) (k : BitVec 28) (s : State) : Result :=
  issue (.shrImm h d a k) (regBody d fun w x i => shrWord (w.lane a i) (shiftCount x.legacy (sext28 k).toNat)) s
def execSarImm (h : Guard) (d a : Reg) (k : BitVec 28) (s : State) : Result :=
  issue (.sarImm h d a k) (regBody d fun w x i => sarWord (w.lane a i) (shiftCount x.legacy (sext28 k).toNat)) s
def execRotImm (h : Guard) (d a : Reg) (k : BitVec 28) (s : State) : Result :=
  issue (.rotImm h d a k) (regBody d fun w _ i => rotWord (w.lane a i) (sext28 k).toNat) s
def execMovi (h : Guard) (d : Reg) (k : BitVec 28) (s : State) : Result :=
  issue (.movi h d k) (regBody d fun _ _ _ => sext28 k) s
def execMovhi (h : Guard) (d a : Reg) (k : BitVec 28) (s : State) : Result :=
  issue (.movhi h d a k) (regBody d fun w _ i => movhiWord (w.lane a i) k) s
def execLea (h : Guard) (d a : Reg) (k : BitVec 28) (s : State) : Result :=
  issue (.lea h d a k) (pairBody d fun w _ i => w.pair a i + sext28d k) s

end Sys2Proof.Machine
end

