-- ==== Sys2Proof/Machine/Lanes.lean ====
section
/-! DEFINITION. Lane exchange, codes 0x040 to 0x045 (06_integer_and_control.md R148 to R154). -/

namespace Sys2Proof.Machine

/-- The lane that shfl reads for lane i (R149). -/
def shflSource (m : ShflMode) (i y : Nat) : Nat :=
  match m with
  | .idx => y % 32
  | .up => if y ≤ i then i - y else i
  | .down => if i + y ≤ 31 then i + y else i
  | .xor => i ^^^ (y % 32)

/-- m of R150: the active lanes whose word has bit 0 set. -/
def ballotMask (w : Weft) (a : Reg) (act : Word) : Word := act &&& maskOf fun j => (w.lane a j).getLsbD 0

/-- vote (R151). -/
def voteWord (m : VoteMode) (b act : Word) : Word :=
  ofBool32 (match m with
    | .any => b != 0
    | .all => b == act
    | .eq => b == 0 || b == act)

/-- lprefix: the sum over the active lanes below i (R152). -/
def prefixSum (w : Weft) (a : Reg) (act : Word) (i : Nat) : Word :=
  ((List.range i).filter fun j => act.getLsbD j).foldl (fun acc j => acc + w.lane a j) 0

def execShfl (h : Guard) (d a b : Reg) (m : ShflMode) (s : State) : Result :=
  issue (.shfl h d a b m) (regBody d fun w _ i => w.lane a (shflSource m i (w.lane b i).toNat)) s
def execBallot (h : Guard) (d a : Reg) (s : State) : Result :=
  issue (.ballot h d a) (regBody d fun w x _ => ballotMask w a x.act) s
def execVote (h : Guard) (d a : Reg) (m : VoteMode) (s : State) : Result :=
  issue (.vote h d a m) (regBody d fun w x _ => voteWord m (ballotMask w a x.act) x.act) s
def execLprefix (h : Guard) (d a : Reg) (s : State) : Result :=
  issue (.lprefix h d a) (regBody d fun w x i => prefixSum w a x.act i) s
def execBcast (h : Guard) (d a b : Reg) (s : State) : Result :=
  issue (.bcast h d a b) (regBody d fun w x _ => w.lane a ((w.lane b x.lane).toNat % 32)) s
def execElect (h : Guard) (d : Reg) (s : State) : Result :=
  issue (.elect h d) (regBody d fun _ x i => ofBool32 (i == x.lane)) s

end Sys2Proof.Machine
end

