-- ==== Sys2Proof/Machine/Manage.lean ====
section
/-! DEFINITION. The management registers and the activities of the management controller: power and temperature, budgets,
scrubbing, migration, event sampling, soft errors, attestation and measurement, the invalidation port, the event queue block,
and the host's accesses through its window (08 R190, R217, 12 R339, 13 R362, R365, 15 R408 to R412, 17 R453, R454, R459, R460,
R462 to R466; register layouts that the manual does not give are log entry 20's). -/

namespace Sys2Proof.Machine

/-! ## Power and budgets (R409, R410, R464) -/

/-- Every instance's remaining count becomes its budget (R410). -/
def State.periodReload (s : State) : State :=
  { s with
    mgmt := { s.mgmt with budgets := s.mgmt.budgets.map (fun b => { b with now := b.budget }), used := [] },
    looms := s.looms.map fun (p : Nat × Loom) => (p.1, { p.2 with copyUsed := 0, swapUsed := 0 }) }

/-- The hottest die, in whole degrees. -/
def hottest (ts : List (BitVec 12)) : Nat := ts.foldl (fun m t => max m (t.toNat / 16)) 0

/-- The thermal trip latches (R464). -/
def State.tripNow (s : State) : State :=
  if s.mgmt.trip then s
  else
    let s1 := s.modMgmt fun m => { m with trip := true, wh := 64 }
    { s1 with outbox := s1.outbox ++ [Out.powerOffRequest] }

/-- The end of a period: power and temperatures, withheld cycles, and the trip (R464). -/
def State.powerUpdate (s : State) (pw : BitVec 16) (temps : List (BitVec 12)) : State :=
  let m := s.mgmt
  let t := hottest temps
  let high := pw.toNat > m.plim || t ≥ m.tlim || m.flow
  let wh := if m.trip then 64 else if high then min 64 (m.wh + 1) else m.wh - 1
  let s1 := s.modMgmt fun m => { m with pw := pw.toNat, temps := (temps ++ List.replicate 4 0).take 4, tmax := t, wh := wh }
  if t ≥ 115 then s1.tripNow else s1

/-- The clock is at the start of a period (R410). -/
def State.periodStart (s : State) : Bool := s.clock.toNat % Config.period == 0

/-- BUDGET_PERIOD_START: a period ends and the next begins (R410, R464). -/
def execBudgetPeriodStart (pw : BitVec 16) (temps : List (BitVec 12)) (s : State) : Result :=
  if s.periodStart then .next ((s.powerUpdate pw temps).periodReload) else .next s

/-- THERMAL_TRIP: a die reaches 115 °C (R464). -/
def execThermalTrip (die : Nat) (s : State) : Result :=
  if die < 4 then
    .next ((s.modMgmt fun m => { m with temps := setAt m.temps die 1840, tmax := max m.tmax 115 }).tripNow)
  else .next s

/-- COOLANT_FLOW_ALARM: the board's alarm inputs change (R462). -/
def execCoolantFlowAlarm (flow leak : Bool) (s : State) : Result := .next (s.modMgmt fun m => { m with flow := flow, leak := leak })

/-- A budget as the service firmware writes it (R409). -/
def Budget.write (b : Budget) (v : Nat) : Budget := { b with budget := min 8192 (max (v % 2 ^ 14) (max b.floor 1)) }

/-- BUDGET_WRITE: the service firmware writes a budget, or the root firmware a floor (R409). -/
def execBudgetWrite (act : Nat) (v : BitVec 16) (floor : Bool) (s : State) : Result :=
  .next (s.modMgmt fun m =>
    { m with budgets := modAt m.budgets act fun b => if floor then b.setFloor v.toNat else b.write v.toNat })

/-! ## Background activities (R190, R217, R365, R408) -/

/-- Error counter 8 of a base die: scrub passes completed (R412). -/
def scrubCounter : Nat := 8

/-- MEMORY_SCRUB: the scrubber reads the next line, rewrites corrected words, and leaves what it cannot correct poisoned
(R217). -/
def execMemoryScrub (addr : Nat) (s : State) : Result :=
  let ctrl := hbmStack addr
  if addr ≠ s.mgmt.scrubAt ∨ !s.unheld 5 ctrl then .next s
  else
    let e := markOf .hbm addr
    let s1 := match s.mem.markAt e with
      | some false =>
        let (die, k) := errCounter .hbm addr false
        (((s.modMem fun m => m.clearMark e).dieError die k).countDie die 0x4C 1).countDie die 0x44 1
      | some true =>
        let (die, k) := errCounter .hbm addr true
        (s.dieError die k).countDie die 0x4D 1
      | none => s
    let s2 := (s1.busy 5 ctrl).countDie (ctrl / 2) 0x43 1
    if addr + 128 < Config.hbmBytes then .next (s2.modMgmt fun m => { m with scrubAt := addr + 128 })
    else .next (((List.range 4).foldl (fun s d => s.dieError d scrubCounter) s2).modMgmt fun m => { m with scrubAt := 0 })

/-- Bytes of an interval of a memory put in place of those of another. -/
def Memory.copyRange (m : Mem) (src dst n : Nat) : Mem :=
  (SMap.slice m src (src + n)).foldl (fun m c => SMap.put m (dst + c.1) c.2) (SMap.dropRange m dst (dst + n))

/-- A physical page is copied, with the marks of its words and the metadata of its blocks. -/
def Memories.copyPage (m : Memories) (sp : Space) (src dst n : Nat) : Memories :=
  let u := if sp = .market then 8 else 128
  let m1 := m.setOf sp (Memory.copyRange (m.of sp) src dst n)
  let inside (e : ErrAt) (base : Nat) : Option Nat :=
    match e with
    | .phys sp' k => if sp' = sp ∧ base ≤ k * u ∧ k * u < base + n then some (k - base / u) else none
    | _ => none
  let kept := m.marks.filter fun e => (inside e.1 dst).isNone
  let moved := m.marks.filterMap fun e => (inside e.1 src).map fun k => (ErrAt.phys sp (dst / u + k), e.2)
  let blocks := if sp = .hbm then
      (SMap.slice m.blockMeta (src / 4096) ((src + n) / 4096)).foldl (fun b c => SMap.put b (dst / 4096 + c.1) c.2)
        (SMap.dropRange m.blockMeta (dst / 4096) ((dst + n) / 4096))
    else m.blockMeta
  { m1 with marks := moved ++ kept, blockMeta := blocks }

/-- The lines of a physical page leave the L2, modified ones written back (R212, R365). -/
def State.leaveLines (s : State) (sp : Space) (src n : Nat) : State :=
  (s.mem.l2.filter fun q => q.host == (sp == .host) && sp != .market && src / 128 ≤ q.line && q.line < (src + n) / 128).foldl
    (fun s q => s.l2Leaves q) s

/-- The HBM lines that the migration copier reads and writes (R405). -/
def State.countCopied (s : State) (sp : Space) (src dst n : Nat) : State :=
  if s.dieCounters.isEmpty || sp != .hbm then s
  else (List.range (n / 128)).foldl (fun s k =>
      (s.countDie (hbmStack (src + 128 * k) / 2) 0x43 1).countDie (hbmStack (dst + 128 * k) / 2) 0x44 1) s

/-- MIGRATION_COPY: step 3 of R365, for a page whose leaf is valid and not resident, once no invalidation of its context is
under way and no pending-table entry of the page is held. -/
def execMigrationCopy (ctx : BitVec 16) (va newPpn : Nat) (s : State) : Result :=
  match s.currentLeaf ctx.toNat va with
  | none => .next s
  | some x =>
    let n := 2 ^ levelShift x.level
    let src := ptePpn x.pte * 2 ^ 19
    let dst := newPpn * 2 ^ 19
    let die := match x.space with | .market => marketBank src / 64 | .hbm => hbmStack src / 2 | .host => 0
    let held := s.mem.pending.any fun p => x.space == .hbm && src ≤ p.2.block * 4096 && p.2.block * 4096 < src + n
    if pteResident x.pte || x.space == .host || src + n > x.space.bytes || dst + n > x.space.bytes || held
        || s.invs.any (fun v => v.ctx == ctx.toNat) || !s.unheld 2 die then .next s
    else .next (((s.leaveLines x.space src n).modMem fun m => m.copyPage x.space src dst n).busy 2 die |>.countCopied x.space src dst n)

/-- Bytes of one sample: the clock, the counters of every loom, and those of every base die (log entry 19). -/
def State.sample (s : State) : List Byte :=
  leBytes 8 s.clock.toNat
    ++ (List.range Config.looms).flatMap (fun l => (List.range 8).flatMap fun k =>
        leBytes 8 (((SMap.find? (s.loom l).counters k).map (·.count.toNat)).getD 0))
    ++ (List.range 64).flatMap fun k => leBytes 8 (((SMap.find? s.dieCounters k).map (·.count.toNat)).getD 0)

/-- EVENT_SAMPLING: the counters' values go to the sample buffer (R408; log entry 19). -/
def execEventSampling (s : State) : Result :=
  let size := s.mgmt.settings.sampleSize.toNat / 16384
  if size = 0 ∨ !s.unheld 6 0 then .next s
  else
    let a := s.mgmt.settings.sampleBase.toNat + 16384 * (s.mgmt.samples % size)
    let s1 := s.modMem fun m => { m with hbm := Memory.writeBytes m.hbm (a % Config.hbmBytes) s.sample }
    .next ((s1.modMgmt fun m => { m with samples := m.samples + 1 }).busy 6 0)

/-- The place of a soft error in one of the marked memories; an L1 or L2 line lies in its array only while it is held. -/
def errAt : ErrLoc → Option ErrAt
  | .reg .. => none
  | .lmem l a => if l < Config.looms ∧ a < Config.loomMemoryBytes then some (.lmem l (a / 8)) else none
  | .tile l t => if l < Config.looms ∧ t < Config.tileSlots then some (.tile l t) else none
  | .cell l t c => if l < Config.looms ∧ t < Config.accTiles ∧ c < 4096 then some (.cell l (4096 * t + c)) else none
  | .l1 l c n => if l < Config.looms then some (.l1 l c n) else none
  | .icache l c n => if l < Config.looms then some (.icache l c n) else none
  | .l2 h n => some (.l2 h n)
  | .hbm a => if a < Config.hbmBytes then some (markOf .hbm a) else none
  | .market a => if a < Config.marketBytes then some (markOf .market a) else none
  | .host a => if a < Config.hostBytes then some (markOf .host a) else none

/-- The line of a cache is held, so that a place of it can be in error (R190, R205, R208, R211); other memories always are. -/
def State.holdsPlace (s : State) : ErrAt → Bool
  | .l1 l c n => (s.loom l).l1.contains (c, n)
  | .icache l c n => (s.loom l).icache.any fun x => x.ctx == c && x.line == n
  | .l2 h n => s.mem.l2.any fun x => x.host == h && x.line == n
  | _ => true

/-- Where a soft error of the state leaves its mark. -/
def State.softPlace (s : State) (loc : ErrLoc) : Option ErrAt := (errAt loc).filter s.holdsPlace

/-- SOFT_ERROR: a stored word is in error until it is written (R119, R190). -/
def execSoftError (loc : ErrLoc) (unc : Bool) (s : State) : Result :=
  match loc with
  | .reg l k r lane =>
    .next (s.modWeft l k fun w =>
      let key := regKey r lane
      if lane ≥ 32 ∨ r = 255 ∨ (SMap.find? w.poison key).isSome then w
      else if unc then { w with poison := SMap.put w.poison key false, soft := w.soft.filter (· != key) }
      else if w.soft.contains key then w
      else { w with soft := key :: w.soft })
  | _ =>
    match s.softPlace loc with
    | none => .next s
    | some e => .next (s.modMem fun m => m.setMark e (unc || m.hard e))

/-! ## The event queue block (R339) -/

/-- The block after a write of one of its words: 0 ebase, 1 elog, 3 hc, 4 fc; the host writes only hc. -/
def Evq.write (q : Evq) (word : Nat) (v : DWord) (byHost : Bool) : Evq :=
  if byHost && word != 3 then q
  else
    match word with
    | 0 => { q with ebase := v }
    | 1 =>
      let n := v.toNat % 32
      { q with elog := if n = 0 then 0 else if n ≤ 5 then 6 else if n ≥ 21 then 20 else n, el := 0 }
    | 3 => { q with hc := v }
    | 4 => { q with fc := v }
    | _ => q

/-- EVQ_WRITE. -/
def execEvqWrite (word : Nat) (v : DWord) (byHost : Bool) (s : State) : Result :=
  .next (s.modMgmt fun m => { m with evq := m.evq.write word v byHost })

/-! ## The invalidation port (R362, R462) -/

/-- INVALIDATION_PORT: the service firmware's tlbinv, for any context. -/
def execInvalidationPort (ctx : BitVec 16) (m : TlbMode) (va : DWord) (n : Word) (s : State) : Result :=
  let v : Inv := { id := s.fresh, ctx := ctx.toNat, mode := m, va := if m = .ctx then 0 else va,
                   count := if m = .range then n else 0 }
  let mode := match m with | .page => 0 | .range => 1 | .ctx => 2
  .next ({ s with invs := s.invs ++ [v], fresh := s.fresh + 1 }.modMgmt fun g =>
    { g with invCtx := ctx.toNat, invMode := mode, invVa := va, invCount := n, invBusy := g.invBusy ++ [v.id] })

/-! ## Attestation and measurement (R459, R460) -/

/-- The 280 bytes of a report (R460). -/
def Mgmt.report (m : Mgmt) (nonce : BitVec 256) : List Byte :=
  leBytes 4 1 ++ leBytes 4 m.svn ++ leBytes 16 Config.serial.toNat ++ leBytes 32 nonce.toNat
    ++ leBytes 64 m.m0.toNat ++ leBytes 64 m.m1.toNat ++ leBytes 64 m.m2.toNat ++ leBytes 12 m.portRecord.toNat
    ++ (m.budgets.flatMap fun b => leBytes 2 b.floor) ++ leBytes 6 0

/-- ATTEST_REQUEST: command 1 (R460). -/
def execAttestRequest (nonce : BitVec 256) (s : State) : Result :=
  .next (s.modMgmt fun m =>
    let r := m.report nonce
    { m with attest := { m.attest with nonce := nonce, command := 1, status := 0, report := r,
                                       signature := Config.falconSign (Config.shake256 r 64) } })

/-- ATTEST_READ_CERT: command 2 (R460). -/
def execAttestReadCert (s : State) : Result :=
  .next (s.modMgmt fun m => { m with attest := { m.attest with command := 2, status := 0, certificate := Config.certificate } })

/-- MEASUREMENT_EXTEND: the service firmware, which runs from stage 4, extends M2 (R459). -/
def execMeasurementExtend (x : List Byte) (s : State) : Result :=
  if s.mgmt.stage < 4 then .next s
  else .next (s.modMgmt fun m => { m with m2 := BitVec.ofNat 512 (leValue (Config.shake256 (leBytes 64 m.m2.toNat ++ x) 64)) })

/-! ## Registers (R462 to R466) -/

/-- Retired ports. -/
def State.retiredPorts (s : State) : Nat := (s.fabric.ports.filter fun p => p.2.state == .retired).length

/-- BOOTST (R463). -/
def State.bootst (s : State) : Nat :=
  let m := s.mgmt
  m.stage % 8 + (if m.fail then 8 else 0) + 16 * (m.reason % 16) + 256 * (s.retiredPorts % 128)
    + (if m.trip then 2 ^ 15 else 0) + 2 ^ 16 * (m.svn % 2 ^ 16)

/-- PWRLIM and PWRST (R464). -/
def Mgmt.pwrlim (m : Mgmt) : Nat := m.plim % 4096 + 2 ^ 16 * (m.tlim % 256)
def Mgmt.pwrst (m : Mgmt) : Nat :=
  m.pw % 2 ^ 16 + 2 ^ 16 * (m.wh % 128) + (if m.trip then 2 ^ 23 else 0) + 2 ^ 24 * (m.tmax % 256)

def PortState.code : PortState → Nat
  | .training => 0 | .up => 1 | .offline => 2 | .retired => 3

/-- PORTST and PORTCTL (R465). -/
def FabPort.portst (x : FabPort) : Nat :=
  x.state.code + 4 * x.live.toNat + 2 ^ 26 * (x.tokens % 16) + 2 ^ 30 * x.pnode.toNat + 2 ^ 42 * x.pport.toNat
def FabPort.portctl (x : FabPort) : Nat :=
  x.ctlCmd % 4 + (if x.ctlBusy then 4 else 0) + (if x.ctlResult then 8 else 0)

/-- The event queue block's 64-bit words (R339). -/
def Evq.word (q : Evq) : Nat → Nat
  | 0 => q.ebase.toNat
  | 1 => q.elog
  | 2 => q.ep.toNat
  | 3 => q.hc.toNat
  | 4 => q.fc.toNat
  | 5 => q.el.toNat
  | _ => 0

/-- The loom whose error counters ERRCNT shows: that of the INSPECT selector (log entry 20). -/
def Mgmt.errLoom (m : Mgmt) : Nat := bf m.inspect 23 16

/-- Error counter n of ERRCNT: 128 of each base die, then the seven of one loom (R412; log entry 20). -/
def State.errcnt (s : State) (n : Nat) : Nat :=
  if n < 512 then (SMap.getD s.mgmt.errors (1024 * (n / 128) + n % 128) 0).toNat
  else if n < 519 then (SMap.getD (s.loom s.mgmt.errLoom).errors (n - 512) 0).toNat
  else 0

/-- What the buffer of the attestation mailbox holds: the certificate after command 2, else the report and its signature
(R460, R462). -/
def Attest.buffer (a : Attest) : List Byte := if a.command = 2 then a.certificate else a.report ++ a.signature

/-- The 4,096 bytes of the attestation mailbox: nonce at 0, command at 32, status at 40, the buffer at 48 (R460, R462; log entry
20). -/
def Attest.bytes (a : Attest) : List Byte :=
  leBytes 32 a.nonce.toNat ++ leBytes 8 a.command ++ leBytes 8 a.status ++ (a.buffer ++ List.replicate 4048 0).take 4048

/-! ### The entries that INSPECT shows, as their tables lay them out -/

def OwnState.code : OwnState → Nat
  | .free => 0 | .working => 1 | .pinned => 2 | .attached => 3 | .spilled => 4 | .moving => 5
/-- An ownership entry (R352). -/
def Own.bits (o : Own) : Nat :=
  o.state.code + 2 ^ 3 * (o.t % 64) + 2 ^ 16 * (o.ctx % 2 ^ 16) + 2 ^ 32 * o.gen.toNat + 2 ^ 48 * (o.team % 2 ^ 10)
    + 2 ^ 64 * o.key.toNat + 2 ^ 128 * o.spill.toNat + 2 ^ 192 * o.def_.toNat
    + 2 ^ 256 * o.tiles.reverse.foldl (fun a q => 2 ^ 5 * a + q % 2 ^ 5) 0 + 2 ^ 448 * o.dtime.toNat

def BoardState.code : BoardState → Nat
  | .free => 0 | .valid => 1 | .moving => 2 | .spilled => 3
/-- A stall-board entry (R372). -/
def Board.bits (e : Board) : Nat :=
  e.state.code + 2 ^ 2 * (e.kind % 4) + 2 ^ 4 * (e.team % 2 ^ 10) + (if e.busy then 2 ^ 14 else 0) + (if e.rsv then 2 ^ 15 else 0)
    + 2 ^ 16 * (e.ctx % 2 ^ 16) + 2 ^ 32 * e.gen.toNat + 2 ^ 48 * (e.tgt % 2 ^ 8) + 2 ^ 64 * e.key.toNat + 2 ^ 128 * e.mask.toNat
    + 2 ^ 192 * e.addr.toNat + 2 ^ 256 * e.len.toNat + 2 ^ 288 * e.hnd.toNat + 2 ^ 352 * e.area.toNat

/-- A census slot (R403). -/
def Census.bits (c : Census) : Nat :=
  c.counted % 2 ^ 32 + 2 ^ 32 * (c.answered % 2 ^ 32) + 2 ^ 64 * c.value.toNat + 2 ^ 96 * c.flags.toNat + 2 ^ 112 * (c.op % 8)
    + 2 ^ 115 + 2 ^ 116 * (c.pkgs % 2 ^ 13) + 2 ^ 129 * (c.asker % 2 ^ 8) + 2 ^ 137 * (c.ctx % 2 ^ 16)

/-- A pending-table entry (R367). -/
def Pending.bits (p : Pending) : Nat :=
  1 + 2 * (p.block % 2 ^ 27) + 2 ^ 28 * (p.src % 2 ^ 8) + 2 ^ 36 * (p.waiting % 2 ^ 12)

/-- An arm entry (R396). -/
def Arm.bits (e : Arm) (market : Bool) : Nat :=
  e.addr % 2 ^ 64 + 2 ^ 64 * e.target.toNat + 2 ^ 128 + (if market then 2 ^ 129 else 0) + 2 ^ 130 * (e.h % 2 ^ 8)
    + (if e.hv then 2 ^ 138 else 0) + 2 ^ 139 * (e.hcnt % 2 ^ 7) + 2 ^ 146 * (e.team % 2 ^ 10) + 2 ^ 156 * (e.ctx % 2 ^ 16)
    + 2 ^ 172 * (e.bteam % 2 ^ 10) + 2 ^ 182 * (e.bloom % 2 ^ 8)

/-- INSPECT's window: the entry of the selector's table [26:24], loom, controller or bank [23:16] and index [15:0] (R462; log
entry 20). -/
def State.inspected (s : State) : Nat :=
  let v := s.mgmt.inspect
  let i := bf v 15 0
  let at_ := bf v 23 16
  match bf v 26 24 with
  | 0 => ((SMap.find? (s.loom at_).owners i).map Own.bits).getD 0
  | 1 => ((s.loom at_).entry i).bits
  | 2 => ((SMap.find? s.census (censusKey s.node.toNat i)).map Census.bits).getD 0
  | 3 => if i < 64 then ((SMap.find? s.mem.pending (64 * at_ + i)).map Pending.bits).getD 0 else 0
  | 4 => ((s.armAt (.loom at_ i)).map fun e => e.bits false).getD 0
  | 5 => if i < 8 then ((s.armAt (.bank at_ i)).map fun e => e.bits true).getD 0 else 0
  | _ => 0

/-- The registers that the host reads (R462). -/
def hostReads (r : Nat) : Bool :=
  r == 0 || r == 8 || (0x100 ≤ r && r < 0x138) || (0x1000 ≤ r && r < 0x1600) || (0x3000 ≤ r && r < 0x3040)
    || (0x6000 ≤ r && r < 0x8000)

/-- The 64-bit management register at r, as the service firmware reads it (R462; log entry 20). -/
def State.mgmtReg (s : State) (r : Nat) : Nat :=
  let m := s.mgmt
  if r = 0 then s.bootst
  else if r = 8 then m.rstreq.toNat
  else if r = 0x100 then m.pwrlim
  else if r = 0x108 then m.pwrst
  else if 0x110 ≤ r ∧ r < 0x130 then (m.temps.getD ((r - 0x110) / 8) 0).toNat
  else if r = 0x130 then (if m.flow then 1 else 0) + (if m.leak then 2 else 0)
  else if 0x1000 ≤ r ∧ r < 0x1600 then
    let x := s.port ((r - 0x1000) / 16)
    if r % 16 = 0 then x.portst else x.portctl
  else if 0x2000 ≤ r ∧ r < 0x2030 then
    [m.settings.seed.toNat, m.settings.qlog, m.settings.drain, m.settings.scrub, m.settings.sampleBase.toNat,
      m.settings.sampleSize.toNat].getD ((r - 0x2000) / 8) 0
  else if 0x2100 ≤ r ∧ r < 0x2138 then ((m.budgets[(r - 0x2100) / 8]?).map fun b => b.budget + 2 ^ 16 * b.floor).getD 0
  else if 0x3000 ≤ r ∧ r < 0x3040 then m.evq.word ((r - 0x3000) / 8)
  else if r = 0x3100 then s.node.toNat
  else if 0x4000 ≤ r ∧ r < 0x6000 then
    (List.range 4).foldl (fun a k => a + 2 ^ (16 * k) * (SMap.getD s.fabric.route ((r - 0x4000) / 2 + k) 0).toNat) 0
  else if 0x6000 ≤ r ∧ r < 0x7000 then s.errcnt ((r - 0x6000) / 4) + 2 ^ 32 * s.errcnt ((r - 0x6000) / 4 + 1)
  else if 0x7000 ≤ r ∧ r < 0x8000 then leValue ((m.attest.bytes.drop (r - 0x7000)).take 8)
  else if 0x8000 ≤ r ∧ r < 0x8030 then
    [m.ctxDesc.num.toNat, m.ctxDesc.root.toNat, m.ctxDesc.dtab.toNat, m.ctxDesc.qblock.toNat, m.ctxDesc.trapv.toNat,
      m.ctxCommand + 2 ^ 8 * m.ctxStatus].getD ((r - 0x8000) / 8) 0
  else if r = 0x9000 then m.inspect.toNat
  else if 0x9008 ≤ r ∧ r < 0x9048 then s.inspected / 2 ^ (8 * (r - 0x9008)) % 2 ^ 64
  else if 0xA000 ≤ r ∧ r < 0xA028 then
    [m.invCtx, m.invMode, m.invVa.toNat, m.invCount.toNat, if m.invBusy.isEmpty then 0 else 1].getD ((r - 0xA000) / 8) 0
  else 0

/-- The 64-bit management register at r, as the host reads it: where it may not, zero (R462). -/
def State.hostReg (s : State) (r : Nat) : Nat := if hostReads r then s.mgmtReg r else 0

/-- Clear an error counter of ERRCNT (R412). -/
def State.clearErrcnt (s : State) (n : Nat) : State :=
  if n < 512 then s.modMgmt fun m => { m with errors := SMap.del m.errors (1024 * (n / 128) + n % 128) }
  else s.modLoom s.mgmt.errLoom fun x => { x with errors := SMap.del x.errors (n - 512) }

/-- A value held within limits (R466). -/
def clamp (lo hi v : Nat) : Nat := max lo (min hi v)

/-- The multiple of 4 KiB nearest to a value, the higher of two (R466; log entry 20). -/
def nearest4k (v : DWord) : DWord := BitVec.ofNat 64 (min ((v.toNat + 2048) / 4096 * 4096) (2 ^ 64 - 4096))

/-- A write of the service firmware to a setting (R466). -/
def State.writeSetting (s : State) (r : Nat) (v : DWord) : State :=
  let set (f : Settings → Settings) : State := s.modMgmt fun m => { m with settings := f m.settings }
  if r = 0x2000 then
    let seed : Word := if v.extractLsb' 0 32 = 0 then 1 else v.extractLsb' 0 32
    { set (fun x => { x with seed := seed }) with dist := { s.dist with x := seed } }
  else if r = 0x2008 then set fun x => { x with qlog := clamp 16 26 v.toNat }
  else if r = 0x2010 then set fun x => { x with drain := clamp (2 ^ 10) (2 ^ 32 - 1) v.toNat }
  else if r = 0x2018 then set fun x => { x with scrub := clamp (2 ^ 10) (2 ^ 40) v.toNat }
  else if r = 0x2020 then set fun x => { x with sampleBase := nearest4k v }
  else if r = 0x2028 then set fun x => { x with sampleSize := nearest4k v }
  else s

/-- A command written to the context command register (R455). -/
def State.ctxCommand (s : State) (v : Nat) : Result :=
  let d := s.mgmt.ctxDesc
  if s.mgmt.ctxStatus = ctxBusy then .next s
  else
    match v with
    | 1 => execContextCreate d s
    | 2 => execContextSwitchOut d.num s
    | 3 => execContextSwitchIn d.num s
    | 4 => execContextTeardown d.num s
    | _ => .next ((s.modMgmt fun m => { m with ctxCommand := v }).setCtxStatus 3)

/-- Write a word of the context descriptor registers (log entry 20). -/
def writeDesc (d : CtxDesc) (k : Nat) (v : DWord) : CtxDesc :=
  match k with
  | 0 => { d with num := v.extractLsb' 0 16 }
  | 1 => { d with root := v }
  | 2 => { d with dtab := v }
  | 3 => { d with qblock := v }
  | 4 => { d with trapv := v }
  | _ => d

/-- MANAGEMENT_REGISTER_WRITE: the service firmware writes a register that has no step of its own (R412, R455, R462, R464,
R466). -/
def execManagementRegisterWrite (r : Nat) (v : DWord) (s : State) : Result :=
  if r = 0x100 then
    let t := bf v 23 16
    .next (s.modMgmt fun m => { m with plim := min 3800 (bf v 11 0), tlim := if 60 ≤ t ∧ t ≤ 105 then t else 105 })
  else if 0x2000 ≤ r ∧ r < 0x2030 then .next (s.writeSetting r v)
  else if 0x6000 ≤ r ∧ r < 0x7000 then .next (s.clearErrcnt ((r - 0x6000) / 4))
  else if 0x1000 ≤ r ∧ r < 0x1600 ∧ r % 16 = 8 ∧ (v.toNat % 4 = 0 ∨ v.toNat % 4 = 3) then
    .next (s.modPort ((r - 0x1000) / 16) fun x => { x with ctlCmd := v.toNat % 4 })
  else if 0x8000 ≤ r ∧ r < 0x8028 then
    .next (s.modMgmt fun m => { m with ctxDesc := writeDesc m.ctxDesc ((r - 0x8000) / 8) v })
  else if r = 0x8028 then s.ctxCommand v.toNat
  else if r = 0x9000 then .next (s.modMgmt fun m => { m with inspect := v })
  else .next s

/-! ## The host's window (R30, R453, R454) -/

/-- Window offset of the market memory and of the management registers (R453). -/
def marketOff : Nat := 2 ^ 39
def regOff : Nat := 2 ^ 39 + 2 ^ 28

/-- A size of a host access, at an aligned offset (R453). -/
def hostSize (off n : Nat) : Bool := (n == 1 || n == 2 || n == 4 || n == 8) && off % n == 0

/-- A host access to the block of an HBM byte that merges hold goes to its controller and waits there (R227, R453). -/
def hostRequest (kind : ReqKind) (off n v : Nat) : Merge :=
  { block := off / 4096, vaBlock := BitVec.ofNat 64 off, bits := v, mask := 0, loom := 0, op := 0, unit := n, flags := 0, recs := [],
    entry := none, kind := kind }

/-- The byte at a window offset. -/
def State.hostByte (s : State) (off : Nat) : Byte :=
  if off < marketOff then s.readPhys .hbm off
  else if off < regOff then s.readPhys .market (off - marketOff)
  else if off < regOff + 2 ^ 20 then
    let r := off - regOff
    BitVec.ofNat 8 (s.hostReg (r / 8 * 8) / 256 ^ (r % 8))
  else 0

/-- HOST_LOAD: n bytes at a window offset go to the host (R453). -/
def execHostLoad (off n : Nat) (s : State) : Result :=
  if hostSize off n && s.mgmt.linkUp then
    if off < marketOff ∧ s.blockBusy (off / 4096) then .next (s.request [hostRequest .hostLoad off n 0])
    else
    let v := leValue ((List.range n).map fun k => s.hostByte (off + k))
    .next { s with outbox := s.outbox ++ [Out.hostData (BitVec.ofNat 64 v)] }
  else .next s

/-- A host write to the management registers: RSTREQ, hc and the attestation mailbox take it (R460, R462). -/
def State.hostRegWrite (s : State) (r : Nat) (data : List Byte) : Result :=
  let v := leValue data
  if r = 8 ∧ data.length ≥ 2 then (if v % 2 ^ 16 = 0xB0C5 then execResetRequest s else .next s)
  else if 0x3018 ≤ r ∧ r < 0x3020 then
    let x := replaceBits s.mgmt.evq.hc.toNat (8 * (r - 0x3018)) (8 * data.length) v
    execEvqWrite 3 (BitVec.ofNat 64 x) true s
  else if 0x7000 ≤ r ∧ r < 0x7020 then
    .next (s.modMgmt fun m => { m with attest := { m.attest with
      nonce := BitVec.ofNat 256 (replaceBits m.attest.nonce.toNat (8 * (r - 0x7000)) (8 * data.length) v) } })
  else if r = 0x7020 then
    (if v % 256 = 1 then execAttestRequest s.mgmt.attest.nonce s
     else if v % 256 = 2 then execAttestReadCert s
     else .next (s.modMgmt fun m => { m with attest := { m.attest with command := v % 256 } }))
  else .next s

/-- HOST_STORE: a host store through the window takes effect at its point of coherence (R453). -/
def execHostStore (off : Nat) (data : List Byte) (s : State) : Result :=
  if !hostSize off data.length || !s.mgmt.linkUp then .next s
  else if off < marketOff then
    .next (if s.blockBusy (off / 4096) then s.request [hostRequest .hostStore off data.length (leValue data)]
      else s.hostWrite .hbm off data)
  else if off < regOff then .next (s.hostWrite .market (off - marketOff) data)
  else if off < regOff + 2 ^ 20 then s.hostRegWrite (off - regOff) data
  else .next s

/-- HOST_COHERENCE_REQUEST: the host takes a host line to read it, or to write it with the bytes given (R30, R212). -/
def execHostCoherenceRequest (line : Nat) (data : Option (List Byte)) (s : State) : Result :=
  match data with
  | none => .next s
  | some b =>
    if b.length ≠ 128 ∨ line * 128 ≥ Config.hostBytes ∨ !s.mgmt.linkUp then .next s
    else
      let s1 := s.hostWrite .host (line * 128) b
      .next (s1.modMem fun m =>
        { (m.clearMark (.phys .host line)).clearMark (.l2 true line) with l2 := m.l2.filter fun q => !(q.host && q.line == line) })

/-- LINK_FAILURE: the Exlem Link fails after stage 2 (R454). -/
def execLinkFailure (s : State) : Result :=
  if s.mgmt.stage ≥ 2 then .next (s.modMgmt fun m => { m with linkUp := false }) else .next s

end Sys2Proof.Machine
end

