-- ==== Sys2Proof/Machine/Dispatch.lean ====
section
/-! DEFINITION. exec: one arm for each constructor of Instr, each one call of its meaning. -/

namespace Sys2Proof.Machine

/-- The meaning of an instruction, or of a step of the device, in a state. -/
def exec (i : Instr) (s : State) : Host.Outcome State Fault Refusal :=
  match i with
  | .iadd h d a b m => Sys2Proof.Machine.execIadd h d a b m s
  | .isub h d a b m => Sys2Proof.Machine.execIsub h d a b m s
  | .imul h d a b => Sys2Proof.Machine.execImul h d a b s
  | .imulh h d a b x => Sys2Proof.Machine.execImulh h d a b x s
  | .imad h d a b c => Sys2Proof.Machine.execImad h d a b c s
  | .idiv h d a b x => Sys2Proof.Machine.execIdiv h d a b x s
  | .irem h d a b x => Sys2Proof.Machine.execIrem h d a b x s
  | .imin h d a b x => Sys2Proof.Machine.execImin h d a b x s
  | .imax h d a b x => Sys2Proof.Machine.execImax h d a b x s
  | .iabs h d a => Sys2Proof.Machine.execIabs h d a s
  | .ineg h d a => Sys2Proof.Machine.execIneg h d a s
  | .iand h d a b => Sys2Proof.Machine.execIand h d a b s
  | .ior h d a b => Sys2Proof.Machine.execIor h d a b s
  | .ixor h d a b => Sys2Proof.Machine.execIxor h d a b s
  | .inot h d a => Sys2Proof.Machine.execInot h d a s
  | .logic3 h d a b c t => Sys2Proof.Machine.execLogic3 h d a b c t s
  | .shl h d a b => Sys2Proof.Machine.execShl h d a b s
  | .shr h d a b => Sys2Proof.Machine.execShr h d a b s
  | .sar h d a b => Sys2Proof.Machine.execSar h d a b s
  | .rot h d a b => Sys2Proof.Machine.execRot h d a b s
  | .popc h d a => Sys2Proof.Machine.execPopc h d a s
  | .clz h d a => Sys2Proof.Machine.execClz h d a s
  | .ctz h d a => Sys2Proof.Machine.execCtz h d a s
  | .brev h d a => Sys2Proof.Machine.execBrev h d a s
  | .bfx h d a b x => Sys2Proof.Machine.execBfx h d a b x s
  | .bfi h d a b c => Sys2Proof.Machine.execBfi h d a b c s
  | .icmp h d a b cond x => Sys2Proof.Machine.execIcmp h d a b cond x s
  | .sel h d a b c => Sys2Proof.Machine.execSel h d a b c s
  | .mov h d a => Sys2Proof.Machine.execMov h d a s
  | .movs h d r => Sys2Proof.Machine.execMovs h d r s
  | .iadd64 h d a b => Sys2Proof.Machine.execIadd64 h d a b s
  | .imad64 h d a b c x => Sys2Proof.Machine.execImad64 h d a b c x s
  | .shl64 h d a b => Sys2Proof.Machine.execShl64 h d a b s
  | .iaddImm h d a k => Sys2Proof.Machine.execIaddImm h d a k s
  | .imulImm h d a k => Sys2Proof.Machine.execImulImm h d a k s
  | .andImm h d a k => Sys2Proof.Machine.execAndImm h d a k s
  | .orImm h d a k => Sys2Proof.Machine.execOrImm h d a k s
  | .xorImm h d a k => Sys2Proof.Machine.execXorImm h d a k s
  | .shlImm h d a k => Sys2Proof.Machine.execShlImm h d a k s
  | .shrImm h d a k => Sys2Proof.Machine.execShrImm h d a k s
  | .sarImm h d a k => Sys2Proof.Machine.execSarImm h d a k s
  | .rotImm h d a k => Sys2Proof.Machine.execRotImm h d a k s
  | .movi h d k => Sys2Proof.Machine.execMovi h d k s
  | .movhi h d a k => Sys2Proof.Machine.execMovhi h d a k s
  | .lea h d a k => Sys2Proof.Machine.execLea h d a k s
  | .shfl h d a b m => Sys2Proof.Machine.execShfl h d a b m s
  | .ballot h d a => Sys2Proof.Machine.execBallot h d a s
  | .vote h d a m => Sys2Proof.Machine.execVote h d a m s
  | .lprefix h d a => Sys2Proof.Machine.execLprefix h d a s
  | .bcast h d a b => Sys2Proof.Machine.execBcast h d a b s
  | .elect h d => Sys2Proof.Machine.execElect h d s
  | .br h p off => Sys2Proof.Machine.execBr h p off s
  | .brc h a p off => Sys2Proof.Machine.execBrc h a p off s
  | .jmp h d a p => Sys2Proof.Machine.execJmp h d a p s
  | .call h d p off => Sys2Proof.Machine.execCall h d p off s
  | .ret h a p => Sys2Proof.Machine.execRet h a p s
  | .prio p => Sys2Proof.Machine.execPrio p s
  | .exit h => Sys2Proof.Machine.execExit h s
  | .yield h => Sys2Proof.Machine.execYield h s
  | .nop h => Sys2Proof.Machine.execNop h s
  | .brk h c => Sys2Proof.Machine.execBrk h c s
  | .vgrow h d n => Sys2Proof.Machine.execVgrow h d n s
  | .vshrink h n => Sys2Proof.Machine.execVshrink h n s
  | .fadd h n d a b => Sys2Proof.Machine.execFadd h n d a b s
  | .fsub h n d a b => Sys2Proof.Machine.execFsub h n d a b s
  | .fmul h n d a b => Sys2Proof.Machine.execFmul h n d a b s
  | .fma h n d a b c => Sys2Proof.Machine.execFma h n d a b c s
  | .fmin h n d a b => Sys2Proof.Machine.execFmin h n d a b s
  | .fmax h n d a b => Sys2Proof.Machine.execFmax h n d a b s
  | .fabs h n d a => Sys2Proof.Machine.execFabs h n d a s
  | .fneg h n d a => Sys2Proof.Machine.execFneg h n d a s
  | .fcmp h cond n d a b => Sys2Proof.Machine.execFcmp h cond n d a b s
  | .fclass h n d a k => Sys2Proof.Machine.execFclass h n d a k s
  | .fdiv h n d a b => Sys2Proof.Machine.execFdiv h n d a b s
  | .frcp h n d a => Sys2Proof.Machine.execFrcp h n d a s
  | .fsqrt h n d a => Sys2Proof.Machine.execFsqrt h n d a s
  | .frsq h n d a => Sys2Proof.Machine.execFrsq h n d a s
  | .fexp2 h n d a => Sys2Proof.Machine.execFexp2 h n d a s
  | .flog2 h n d a => Sys2Proof.Machine.execFlog2 h n d a s
  | .fsinpi h n d a => Sys2Proof.Machine.execFsinpi h n d a s
  | .fcospi h n d a => Sys2Proof.Machine.execFcospi h n d a s
  | .ftanh h n d a => Sys2Proof.Machine.execFtanh h n d a s
  | .fround h rm n d a => Sys2Proof.Machine.execFround h rm n d a s
  | .fscale h n d a b => Sys2Proof.Machine.execFscale h n d a b s
  | .fcvt h n src d a b o => Sys2Proof.Machine.execFcvt h n src d a b o s
  | .ftoi h rm x n d a k => Sys2Proof.Machine.execFtoi h rm x n d a k s
  | .itof h x n d a => Sys2Proof.Machine.execItof h x n d a s
  | .fpack h n d a b k => Sys2Proof.Machine.execFpack h n d a b k s
  | .funpack h x n d a k => Sys2Proof.Machine.execFunpack h x n d a k s
  | .fdot h n acc d a b c => Sys2Proof.Machine.execFdot h n acc d a b c s
  | .setfmt h n a => Sys2Proof.Machine.execSetfmt h n a s
  | .getfmt h n d => Sys2Proof.Machine.execGetfmt h n d s
  | .fflags h d mask => Sys2Proof.Machine.execFflags h d mask s
  | .ld h d a b imm w acq => Sys2Proof.Machine.execLd h d a b imm w acq s
  | .st h d a b imm w rel => Sys2Proof.Machine.execSt h d a b imm w rel s
  | .ldw h n d a b imm => Sys2Proof.Machine.execLdw h n d a b imm s
  | .stw h n d a b imm => Sys2Proof.Machine.execStw h n d a b imm s
  | .ldResid h d a m imm w acq => Sys2Proof.Machine.execLdResid h d a m imm w acq s
  | .ldwResid h n d a m imm => Sys2Proof.Machine.execLdwResid h n d a m imm s
  | .fence h sc => Sys2Proof.Machine.execFence h sc s
  | .pagein h a b imm => Sys2Proof.Machine.execPagein h a b imm s
  | .probe h d a b imm => Sys2Proof.Machine.execProbe h d a b imm s
  | .atomAdd h d a b imm w64 o => Sys2Proof.Machine.execAtomAdd h d a b imm w64 o s
  | .atomMin h d a b imm w64 o => Sys2Proof.Machine.execAtomMin h d a b imm w64 o s
  | .atomMax h d a b imm w64 o => Sys2Proof.Machine.execAtomMax h d a b imm w64 o s
  | .atomAnd h d a b imm w64 o => Sys2Proof.Machine.execAtomAnd h d a b imm w64 o s
  | .atomOr h d a b imm w64 o => Sys2Proof.Machine.execAtomOr h d a b imm w64 o s
  | .atomXor h d a b imm w64 o => Sys2Proof.Machine.execAtomXor h d a b imm w64 o s
  | .atomXchg h d a b imm w64 o => Sys2Proof.Machine.execAtomXchg h d a b imm w64 o s
  | .atomCas h d a b imm w64 o => Sys2Proof.Machine.execAtomCas h d a b imm w64 o s
  | .atomInc h d a b imm w64 o => Sys2Proof.Machine.execAtomInc h d a b imm w64 o s
  | .atomDec h d a b imm w64 o => Sys2Proof.Machine.execAtomDec h d a b imm w64 o s
  | .atomFadd h n d a b imm o => Sys2Proof.Machine.execAtomFadd h n d a b imm o s
  | .copy h t n d a => Sys2Proof.Machine.execCopy h t n d a s
  | .gather h t n d a => Sys2Proof.Machine.execGather h t n d a s
  | .scatter h t n d a => Sys2Proof.Machine.execScatter h t n d a s
  | .cmpst h n d a b => Sys2Proof.Machine.execCmpst h n d a b s
  | .expld h n d a b => Sys2Proof.Machine.execExpld h n d a b s
  | .xput h d a => Sys2Proof.Machine.execXput h d a s
  | .xget h d a => Sys2Proof.Machine.execXget h d a s
  | .xatom h op n d a b c => Sys2Proof.Machine.execXatom h op n d a b c s
  | .xred h op n d a => Sys2Proof.Machine.execXred h op n d a s
  | .bankop h op n a b c => Sys2Proof.Machine.execBankop h op n a b c s
  | .mma h d a b => Sys2Proof.Machine.execMma h d a b s
  | .mmaSp h d a b => Sys2Proof.Machine.execMmaSp h d a b s
  | .mmaDy h d a b => Sys2Proof.Machine.execMmaDy h d a b s
  | .delta h d a b => Sys2Proof.Machine.execDelta h d a b s
  | .aspill h d a t => Sys2Proof.Machine.execAspill h d a t s
  | .afill h d a t => Sys2Proof.Machine.execAfill h d a t s
  | .ascale h n d a t => Sys2Proof.Machine.execAscale h n d a t s
  | .acvt h n d t => Sys2Proof.Machine.execAcvt h n d t s
  | .tclaim h acc n d t cnt => Sys2Proof.Machine.execTclaim h acc n d t cnt s
  | .trel h acc t cnt => Sys2Proof.Machine.execTrel h acc t cnt s
  | .pin h d a b t => Sys2Proof.Machine.execPin h d a b t s
  | .unpin h t => Sys2Proof.Machine.execUnpin h t s
  | .attach h d a t => Sys2Proof.Machine.execAttach h d a t s
  | .detach h t => Sys2Proof.Machine.execDetach h t s
  | .aread h d a b t => Sys2Proof.Machine.execAread h d a b t s
  | .awrite h d a b t => Sys2Proof.Machine.execAwrite h d a b t s
  | .azero h t => Sys2Proof.Machine.execAzero h t s
  | .launch h d a b => Sys2Proof.Machine.execLaunch h d a b s
  | .fetchw h a b c => Sys2Proof.Machine.execFetchw h a b c s
  | .spawn h d a => Sys2Proof.Machine.execSpawn h d a s
  | .join h d a => Sys2Proof.Machine.execJoin h d a s
  | .msgmap h d x r hd q => Sys2Proof.Machine.execMsgmap h d x r hd q s
  | .msgunmap h d => Sys2Proof.Machine.execMsgunmap h d s
  | .ringInit h g a => Sys2Proof.Machine.execRingInit h g a s
  | .ringSig h g b cls => Sys2Proof.Machine.execRingSig h g b cls s
  | .ringWait h g b a => Sys2Proof.Machine.execRingWait h g b a s
  | .hbar h hd => Sys2Proof.Machine.execHbar h hd s
  | .hvote h m d a hd => Sys2Proof.Machine.execHvote h m d a hd s
  | .hred h op n d a hd => Sys2Proof.Machine.execHred h op n d a hd s
  | .hbcast h src d a hd => Sys2Proof.Machine.execHbcast h src d a hd s
  | .hset h hd a => Sys2Proof.Machine.execHset h hd a s
  | .dtload h d a => Sys2Proof.Machine.execDtload h d a s
  | .dtread h d a => Sys2Proof.Machine.execDtread h d a s
  | .tlbinv h m a b => Sys2Proof.Machine.execTlbinv h m a b s
  | .tlbsync h => Sys2Proof.Machine.execTlbsync h s
  | .recChk h d a => Sys2Proof.Machine.execRecChk h d a s
  | .sbPost h d a => Sys2Proof.Machine.execSbPost h d a s
  | .sbWdr h d a => Sys2Proof.Machine.execSbWdr h d a s
  | .sbFind h d a b => Sys2Proof.Machine.execSbFind h d a b s
  | .solicit h a b => Sys2Proof.Machine.execSolicit h a b s
  | .respond h a => Sys2Proof.Machine.execRespond h a s
  | .sbMove h d b c => Sys2Proof.Machine.execSbMove h d b c s
  | .waitoc h cls n => Sys2Proof.Machine.execWaitoc h cls n s
  | .arm h clr d a b => Sys2Proof.Machine.execArm h clr d a b s
  | .await h hd d a => Sys2Proof.Machine.execAwait h hd d a s
  | .arrive h a b => Sys2Proof.Machine.execArrive h a b s
  | .evsel h d k src => Sys2Proof.Machine.execEvsel h d k src s
  | .evrd h d k => Sys2Proof.Machine.execEvrd h d k s
  | .evclr h d k => Sys2Proof.Machine.execEvclr h d k s
  | .trap h c => Sys2Proof.Machine.execTrap h c s
  | .iret => Sys2Proof.Machine.execIret s
  | .rqRd h d a b => Sys2Proof.Machine.execRqRd h d a b s
  | .rqWr h d a b => Sys2Proof.Machine.execRqWr h d a b s
  | .rqDrop h d a => Sys2Proof.Machine.execRqDrop h d a s
  | .setidem h a => Sys2Proof.Machine.execSetidem h a s
  | .halt h team c => Sys2Proof.Machine.execHalt h team c s
  | .ipref h n off => Sys2Proof.Machine.execIpref h n off s
  | .dpref h a b imm => Sys2Proof.Machine.execDpref h a b imm s
  | .unassignedHint code => Sys2Proof.Machine.execUnassignedHint code s
  | .trapEntry loom slot => Sys2Proof.Machine.execTrapEntry loom slot s
  | .weftEnd loom slot => Sys2Proof.Machine.execWeftEnd loom slot s
  | .entryStarving loom slot => Sys2Proof.Machine.execEntryStarving loom slot s
  | .frontierSpillReturn loom slot => Sys2Proof.Machine.execFrontierSpillReturn loom slot s
  | .yieldPassEnd loom slot => Sys2Proof.Machine.execYieldPassEnd loom slot s
  | .vgrowBlocksObtained loom slot => Sys2Proof.Machine.execVgrowBlocksObtained loom slot s
  | .vgrowTimeout loom slot => Sys2Proof.Machine.execVgrowTimeout loom slot s
  | .instructionCacheFill loom ctx line => Sys2Proof.Machine.execInstructionCacheFill loom ctx line s
  | .engineUnit loom cls idx => Sys2Proof.Machine.execEngineUnit loom cls idx s
  | .operationRetirement loom cls idx => Sys2Proof.Machine.execOperationRetirement loom cls idx s
  | .bankCommandPart loom idx bank => Sys2Proof.Machine.execBankCommandPart loom idx bank s
  | .blockMerge ctrl => Sys2Proof.Machine.execBlockMerge ctrl s
  | .sbMoveCommit loom idx => Sys2Proof.Machine.execSbMoveCommit loom idx s
  | .sbWdrFree loom slot => Sys2Proof.Machine.execSbWdrFree loom slot s
  | .hsetCommit loom slot => Sys2Proof.Machine.execHsetCommit loom slot s
  | .continuationEnqueue loom slot => Sys2Proof.Machine.execContinuationEnqueue loom slot s
  | .recordTake loom slot => Sys2Proof.Machine.execRecordTake loom slot s
  | .fetchwAnswer j => Sys2Proof.Machine.execFetchwAnswer j s
  | .messageSend loom slot => Sys2Proof.Machine.execMessageSend loom slot s
  | .distributorDraw => Sys2Proof.Machine.execDistributorDraw s
  | .drainExpiry loom team => Sys2Proof.Machine.execDrainExpiry loom team s
  | .teamFlush loom team => Sys2Proof.Machine.execTeamFlush loom team s
  | .teamSave loom team => Sys2Proof.Machine.execTeamSave loom team s
  | .teamPlacement loom team slot0 => Sys2Proof.Machine.execTeamPlacement loom team slot0 s
  | .teamRestore loom team slot0 => Sys2Proof.Machine.execTeamRestore loom team slot0 s
  | .hostStore off data => Sys2Proof.Machine.execHostStore off data s
  | .hostLoad off n => Sys2Proof.Machine.execHostLoad off n s
  | .hostCoherenceRequest line data => Sys2Proof.Machine.execHostCoherenceRequest line data s
  | .linkFailure => Sys2Proof.Machine.execLinkFailure s
  | .censusPoint slot => Sys2Proof.Machine.execCensusPoint slot s
  | .responderSpawn loom idx => Sys2Proof.Machine.execResponderSpawn loom idx s
  | .fabricWriteUnit j => Sys2Proof.Machine.execFabricWriteUnit j s
  | .fabricReadRequest j => Sys2Proof.Machine.execFabricReadRequest j s
  | .fabricReadResponse j => Sys2Proof.Machine.execFabricReadResponse j s
  | .fabricAtomicRequest j => Sys2Proof.Machine.execFabricAtomicRequest j s
  | .fabricAtomicResponse j => Sys2Proof.Machine.execFabricAtomicResponse j s
  | .fabricCompletion j => Sys2Proof.Machine.execFabricCompletion j s
  | .fabricRefusal j => Sys2Proof.Machine.execFabricRefusal j s
  | .reductionContribution j => Sys2Proof.Machine.execReductionContribution j s
  | .reductionCompletion j => Sys2Proof.Machine.execReductionCompletion j s
  | .censusRequest j => Sys2Proof.Machine.execCensusRequest j s
  | .censusAnswer j => Sys2Proof.Machine.execCensusAnswer j s
  | .routeChangeEffect node vc => Sys2Proof.Machine.execRouteChangeEffect node vc s
  | .flitReceive port flit got => Sys2Proof.Machine.execFlitReceive port flit got s
  | .replayTimeout port => Sys2Proof.Machine.execReplayTimeout port s
  | .ackTimer port => Sys2Proof.Machine.execAckTimer port s
  | .wavelengthSuspect port w => Sys2Proof.Machine.execWavelengthSuspect port w s
  | .wavelengthLiveAgain port w => Sys2Proof.Machine.execWavelengthLiveAgain port w s
  | .wavelengthDead port mask => Sys2Proof.Machine.execWavelengthDead port mask s
  | .portRetrain port => Sys2Proof.Machine.execPortRetrain port s
  | .portTrainingComplete t => Sys2Proof.Machine.execPortTrainingComplete t s
  | .tokenRestore port => Sys2Proof.Machine.execTokenRestore port s
  | .budgetPeriodStart pw temps => Sys2Proof.Machine.execBudgetPeriodStart pw temps s
  | .thermalTrip die => Sys2Proof.Machine.execThermalTrip die s
  | .memoryScrub addr => Sys2Proof.Machine.execMemoryScrub addr s
  | .migrationCopy ctx va newPpn => Sys2Proof.Machine.execMigrationCopy ctx va newPpn s
  | .eventSampling => Sys2Proof.Machine.execEventSampling s
  | .tlbinvComplete j => Sys2Proof.Machine.execTlbinvComplete j s
  | .powerOn => Sys2Proof.Machine.execPowerOn s
  | .exlemLinkTrained => Sys2Proof.Machine.execExlemLinkTrained s
  | .firmwareVerification img => Sys2Proof.Machine.execFirmwareVerification img s
  | .memoryZeroing => Sys2Proof.Machine.execMemoryZeroing s
  | .fabricBringUp ports routes node => Sys2Proof.Machine.execFabricBringUp ports routes node s
  | .launchQueuesEnable base => Sys2Proof.Machine.execLaunchQueuesEnable base s
  | .resetRequest => Sys2Proof.Machine.execResetRequest s
  | .portSetOffline port => Sys2Proof.Machine.execPortSetOffline port s
  | .portBringUp port => Sys2Proof.Machine.execPortBringUp port s
  | .evqWrite word v byHost => Sys2Proof.Machine.execEvqWrite word v byHost s
  | .nodeWrite n => Sys2Proof.Machine.execNodeWrite n s
  | .routeWrite node v => Sys2Proof.Machine.execRouteWrite node v s
  | .budgetWrite act v floor => Sys2Proof.Machine.execBudgetWrite act v floor s
  | .invalidationPort ctx m va n => Sys2Proof.Machine.execInvalidationPort ctx m va n s
  | .attestRequest nonce => Sys2Proof.Machine.execAttestRequest nonce s
  | .attestReadCert => Sys2Proof.Machine.execAttestReadCert s
  | .measurementExtend x => Sys2Proof.Machine.execMeasurementExtend x s
  | .contextCreate d => Sys2Proof.Machine.execContextCreate d s
  | .contextSwitchOut ctx => Sys2Proof.Machine.execContextSwitchOut ctx s
  | .contextSwitchIn ctx => Sys2Proof.Machine.execContextSwitchIn ctx s
  | .contextTeardown ctx => Sys2Proof.Machine.execContextTeardown ctx s
  | .managementRegisterWrite r v => Sys2Proof.Machine.execManagementRegisterWrite r v s
  | .teamQuantumExpiry loom team => Sys2Proof.Machine.execTeamQuantumExpiry loom team s
  | .tlbFillAhead ag ctx va => Sys2Proof.Machine.execTlbFillAhead ag ctx va s
  | .softError loc uncorrectable => Sys2Proof.Machine.execSoftError loc uncorrectable s
  | .powerOff => Sys2Proof.Machine.execPowerOff s
  | .coolantFlowAlarm flow leak => Sys2Proof.Machine.execCoolantFlowAlarm flow leak s

end Sys2Proof.Machine
end

