-- ==== Sys2Proof/Machine/Turns.lean ====
section
/-! DEFINITION. One step of the package: a cycle of the core clock in which one turn is taken, or each of the package's own in
turn, by a weft that issues or by a step of the device or of the outside (02 R36 to R44, R105, R106, R158, R161, R404, R410,
R415; log entries 1, 2, 23, 25). `run` stands for exec throughout: Machine/Step.lean supplies it. -/

namespace Sys2Proof.Machine

/-! ## A cycle passes (R42, R161, R404, R410, R411) -/

/-- Issue cycles are withheld (R19, R464). -/
def State.withheld (s : State) : Bool := s.clock.toNat % 64 < s.mgmt.wh

/-- A cycle of an entry that does not issue (R42, R132). -/
def Entry.older (e : Entry) : Entry := { e with age := min (e.age + 1) Config.maxAge }

/-- A cycle of a resident weft: its entries age (R42), and a pass over it has an issue cycle less (R161). -/
def Weft.older (w : Weft) (withheld : Bool) : Weft :=
  { w with held := w.held.map Entry.older, spilled := w.spilled.map Entry.older,
           yielded := if withheld then w.yielded else w.yielded.map fun y => { y with left := y.left - 1 } }

/-- A cycle of a loom: its wefts, and event sources 0x01 and 0x02. -/
def Loom.older (x : Loom) (withheld : Bool) : Loom :=
  let cs := bumpCounters x.counters (fun _ => true) 0x01 0 1
  { x with wefts := x.wefts.map fun (p : Nat × Weft) => (p.1, p.2.older withheld),
           counters := if withheld then bumpCounters cs (fun _ => true) 0x02 0 1 else cs }

/-- A cycle of a port: the timer of its bucket (R411). -/
def FabPort.older (x : FabPort) : FabPort :=
  if x.tokens < 8 then { x with timer := min (x.timer + 1) (2 ^ 37) } else x

/-- The clock goes on by one cycle. -/
def State.ticked (s : State) : State :=
  let s1 := { s with clock := s.clock + 1 }
  let wh := s1.withheld
  { s1 with
    looms := s1.looms.map fun (p : Nat × Loom) => (p.1, p.2.older wh),
    fabric := { s1.fabric with ports := s1.fabric.ports.map fun (p : Nat × FabPort) => (p.1, p.2.older) },
    dieCounters := bumpCounters s1.dieCounters (fun _ => true) 0x40 0 1 }

/-- A period of budgets and power begins by itself, with the power and temperatures last measured, where no turn brings new
ones (R410, R464; log entry 21). -/
def State.periodTick (s : State) (t : Turn) : State :=
  let brings := match t with | .event (.budgetPeriodStart _ _) => true | _ => false
  if s.periodStart && !brings then (s.powerUpdate (BitVec.ofNat 16 s.mgmt.pw) s.mgmt.temps).periodReload else s

/-! ## A weft issues (R44, R105, R106, R158, R415) -/

/-- A weft takes no turn: it has ended, its team has stopped, its quadrant passes over it, or the cycle is withheld. -/
def State.turnBarred (s : State) (l : Nat) (w : Weft) : Bool :=
  w.ended.isSome || s.halted l w || s.withheld || (match w.yielded with | none => false | some y => !y.over)

/-- The entry whose instruction a weft issues: the first held one (R36, R42). Where it waits for an instruction that has not
issued, that instruction's entry is tried again, unless a starving one is ahead of it (R42): a parked one (R254) and one whose
flit finds no room (R335) from the start, one in vgrow or sb.wdr where other lanes have joined its entry (R39); else those two
issue when their waits end (`State.waitEnd`). None while the weft waits in something that has issued, and none but the parked or
growing one while a faulted operation's trap waits for it (R416). -/
def Weft.issueEntry (w : Weft) : Option Entry :=
  let first := firstEntry w.held
  let starved (pc : DWord) := if w.trapNext then none else first.filter fun e => e.starving && e.pc != pc
  match w.wait with
  | .none => first
  | .parked pc | .full pc _ _ => (starved pc).orElse fun _ => (w.held.find? fun e => e.pc == pc).orElse fun _ => first
  | .vgrow pc mask .. | .sbWdr pc mask .. =>
    (starved pc).orElse fun _ =>
      match w.held.find? fun e => e.pc == pc with
      | none => first
      | some e => if e.mask = mask then none else some e
  | _ => none

/-- The step in which an instruction that waits issues, where its wait can end now: a vgrow or an sb.wdr (R165, R377). -/
def State.waitEnd (s : State) (l k : Nat) (w : Weft) : Option Instr :=
  match w.wait with
  | .vgrow _ _ _ n _ since =>
    if 4096 ≤ (s.clock - since).toNat then some (.vgrowTimeout l k)
    else if (s.loom l).growers.head? = some k ∧ blocksOf n - blocksOf w.allot ≤ (s.loom l).freeBlocks then
      some (.vgrowBlocksObtained l k)
    else none
  | .sbWdr _ _ _ _ hd =>
    match (s.loom l).named w.ctx hd with
    | none => some (.sbWdrFree l k)
    | some (i, _) => if (s.loom l).wdrWaits i then none else some (.sbWdrFree l k)
  | _ => none

/-- Cause 0x02 or 0x03 of a word that decodes to no instruction: the role comes first (R106, R415). -/
def decodeCause (role : Role) : Decoded → Option Cause
  | .ok _ _ => none
  | .illegalKind => some { cause := 0x02 }
  | .badFields canon _ => some (if roleOk role canon then { cause := 0x02 } else { cause := 0x03 })

/-- The instruction that an entry's word decodes to, issued. `s` holds the fetched line. -/
def State.issueWord (run : Instr → State → Result) (s : State) (l k : Nat) (w : Weft) (e : Entry) (word : DWord) : Result :=
  let dec := decodeWith (s.entryFor w.ctx word) word
  match dec with
  | .ok i legacy =>
    let c : Issue := { loom := l, slot := k, pc := e.pc, mask := e.mask, prio := e.prio, word := word,
                       canon := (s.entryFor w.ctx word).canon, legacy := legacy }
    (match run i { s with cur := some c } with
      | .next t => .next { t with cur := none }
      | r => r)
  | d =>
    match decodeCause w.role d with
    | none => .next s
    | some c => .next (s.raise l k e.pc (faultLane e.mask (w.active (fGuard word) e.mask)) c)

/-- The fetch of an entry's word, and its issue. A page not resident leaves the weft unready (R158), and so does a line whose fill
is under way (R476). -/
def State.issueAt (run : Instr → State → Result) (s : State) (l k : Nat) (w : Weft) (e : Entry) : Result :=
  match s.fetchPage l w.ctx e.pc with
  | .fault => .next (s.raise l k e.pc (lowestLane e.mask) { cause := 0x01 })
  | .absent => .next s
  | .ok leaf pa =>
    if s.fillUnderWay l w.ctx (e.pc.toNat / lineBytes) then .next s
    else
      let f := s.fetchWord l w.ctx e.pc leaf pa
      f.1.issueWord run l k w e f.2

/-- A weft waits for its instruction to issue, which it lacks a page, blocks, an entry or a port's room for (R44). -/
def Weft.unissued (w : Weft) : Bool :=
  match w.wait with
  | .parked _ | .vgrow .. | .sbWdr .. | .full .. => true
  | _ => false

/-- The weft in a slot has issued, or taken a trap, between two states: it is not as it was, and has not merely begun to wait
for its instruction's issue. -/
def issuedBetween (s t : State) (l k : Nat) : Bool :=
  match s.weft? l k, t.weft? l k with
  | none, _ => false
  | some _, none => true
  | some a, some b => b != a && !b.unissued

/-- A weft that has issued another instruction waits in vgrow no longer (R165). -/
def State.ungrown (s : State) (l k : Nat) : State :=
  match s.weft? l k with
  | none => s
  | some w =>
    match w.wait with
    | .vgrow .. => s
    | _ => s.modLoom l fun x => { x with growers := x.growers.filter (· != k) }

/-- One attempt of a weft, and whether it was ready: a trap that is due (R416), else a move of its frontier (R40), else the
issue of its entry, or of the instruction whose wait has ended. -/
def State.attempt (run : Instr → State → Result) (s : State) (l k : Nat) : Result × Bool :=
  match s.weft? l k with
  | none => (.next s, false)
  | some w =>
    if s.turnBarred l w then (.next s, false)
    else
      match s.takeDue l k w with
      | some s' => (.next s', issuedBetween s s' l k)
      | none =>
        if w.movesDue then (.next (s.settleWeft l k w), false)
        else
          let r := match w.issueEntry with
            | some e => s.issueAt run l k w e
            | none =>
              match s.waitEnd l k w with
              | some i => run i s
              | none => .next s
          match r with
          | .next t => if (s.loom l).growers.isEmpty then (.next t, issuedBetween s t l k)
                       else (.next (t.ungrown l k), issuedBetween s t l k)
          | r => (r, true)

/-- A weft is ready: an attempt, after its frontier's moves, issues (R44). -/
def State.ready (run : Instr → State → Result) (s : State) (l k : Nat) : Bool :=
  let s1 := match s.weft? l k with
    | none => s
    | some w => if w.movesDue then s.settleWeft l k w else s
  (s1.attempt run l k).2

/-- A loom with no pass under way over a yielded weft. -/
def State.unyielded (s : State) (l : Nat) : State :=
  s.modLoom l fun x => { x with wefts := x.wefts.map fun p => (p.1, { p.2 with yielded := none }) }

/-- A pass just begun waits for the wefts that were ready when yield issued alone, those under a pass of their own among them
(R161). -/
def State.yieldedNow (run : Instr → State → Result) (s t : State) (l k : Nat) : State :=
  match t.weft? l k with
  | none => t
  | some w =>
    match w.yielded with
    | none => t
    | some y =>
      if y.left = yieldCycles then
        t.setWeft l k { w with yielded := some { y with slots := y.slots.filter fun j => (s.unyielded l).ready run l j } }
      else t

/-- The first ready weft of the slots given issues (R44): what the attempts before it leave stands. With none ready the
quadrant's cycle counts as event 0x05 (R405). -/
def State.issueFirst (run : Instr → State → Result) (s : State) (l : Nat) : List Nat → Result
  | [] => .next (if s.withheld then s else s.countLoom l 0x05 0 1)
  | k :: ks =>
    match s.attempt run l k with
    | (.next t, true) => .next (s.yieldedNow run t l k)
    | (.next t, false) => t.issueFirst run l ks
    | (r, _) => r

/-- The slots of a quadrant after the one it last issued from, round (R44). -/
def Loom.scan (x : Loom) (q : Nat) : List Nat :=
  let ks := (x.wefts.map (·.1)).filter fun k => k % 4 == q
  ks.filter (fun k => x.last.getD q 1023 < k) ++ ks.filter fun k => k ≤ x.last.getD q 1023

/-- The cycle of a quadrant. -/
def State.issueTurn (run : Instr → State → Result) (s : State) (l q : Nat) : Result :=
  s.issueFirst run l ((s.loom l).scan (q % 4))

/-! ## A turn, and what follows from it -/

/-- The stage of R31 that must be complete before a step can come: what is usable before it is not there. -/
def eventStage : Instr → Nat
  | .powerOn | .powerOff | .softError .. | .thermalTrip _ | .coolantFlowAlarm .. | .budgetPeriodStart .. => 0
  | .exlemLinkTrained => 1
  | .firmwareVerification _ | .resetRequest | .linkFailure | .attestRequest _ | .attestReadCert => 2
  | .hostStore off _ | .hostLoad off _ => if off < 2 ^ 39 + 2 ^ 28 then 5 else if off < 2 ^ 39 + 2 ^ 28 + 16 then 2 else 4
  -- the commands of contexts read and write HBM, as samples do
  | .managementRegisterWrite r _ => if r = 0x8028 then 5 else 4
  | .memoryZeroing | .nodeWrite _ | .budgetWrite .. | .evqWrite .. | .measurementExtend _ => 4
  | .flitReceive .. | .replayTimeout _ | .ackTimer _ | .wavelengthSuspect .. | .wavelengthLiveAgain .. | .wavelengthDead ..
  | .portRetrain _ | .portTrainingComplete _ | .tokenRestore _ | .portSetOffline _ | .portBringUp _ | .routeWrite ..
  | .routeChangeEffect .. | .launchQueuesEnable _ => 6
  | _ => 5

/-- What a package that stays at stage 3 still admits: the boot status registers, a reset, and the power (R32). -/
def afterFailure : Instr → Bool
  | .powerOn | .powerOff | .resetRequest => true
  | .hostStore off _ | .hostLoad off _ => 2 ^ 39 + 2 ^ 28 ≤ off && off < 2 ^ 39 + 2 ^ 28 + 16
  | _ => false

/-- Steps in which an instruction issues: they come in its quadrant's cycle (R44), through `State.attempt`. -/
def isWaitEnd : Instr → Bool
  | .vgrowBlocksObtained .. | .vgrowTimeout .. | .sbWdrFree .. => true
  | _ => false

/-- A step can come at this stage of the bring-up (R31, R32). -/
def State.admits (s : State) (i : Instr) : Bool :=
  i.isEvent && !isWaitEnd i && (s.mgmt.powered || i == .powerOn) && eventStage i ≤ s.mgmt.stage && (!s.mgmt.fail || afterFailure i)

/-- A turn: what its stage does not admit does not come (R31, R32). -/
def State.turnTaken (run : Instr → State → Result) (s : State) (t : Turn) : Result :=
  match t with
  | .issue l q => if s.mgmt.powered && !s.mgmt.fail then s.issueTurn run l q else .next s
  | .event i => if s.admits i then run i s else .next s

/-- Enabled queues that hold more records than they have room for fault (R315). -/
def State.queuesAll (s : State) : State :=
  if s.qbase = 0 then s
  else
    (List.range 64).foldl (fun s q =>
      if s.queueEn q && s.queueLoad q > 2 ^ s.queueCap q then s.queueFault q else s) s

/-- What follows at once from a turn: releases and ends, census answers, flits to send, queues, context commands. -/
def State.settled (s : State) : State := ((((s.settle).censusAll).drainPorts).queuesAll).contextsAll

/-- A turn in its cycle. -/
def takeTurn (run : Instr → State → Result) (s : State) (t : Turn) : Result :=
  let s1 := if s.mgmt.powered then (s.ticked).periodTick t else s
  match s1.turnTaken run t with
  | .next s2 => .next s2.settled
  | r => r

/-! ## The turns that the device may take by itself (log entry 1) -/

/-- The quadrants of a loom that have wefts. -/
def Loom.quadrantTurns (x : Loom) (l : Nat) : List Turn :=
  ((List.range 4).filter fun q => !(x.scan q).isEmpty).map fun q => .issue l q

/-- Steps of one weft beside its issues. -/
def weftTurns (l k : Nat) (w : Weft) : List Instr :=
  [.trapEntry l k, .weftEnd l k]
    ++ (if w.movesDue then [.frontierSpillReturn l k] else [])
    ++ (match w.yielded with | some y => if y.over then [.yieldPassEnd l k] else [] | none => [])
    ++ (match w.wait with
        | .hset .. => [.hsetCommit l k]
        | .enqueue .. => [.continuationEnqueue l k]
        | .send .. => [.messageSend l k]
        | _ => [])

/-- Steps of a loom's engines and tables. -/
def State.loomTurns (s : State) (l : Nat) : List Instr :=
  let x := s.loom l
  (allClasses.flatMap fun c => (List.range (x.queue c).length).flatMap fun i =>
      [Instr.operationRetirement l c i] ++ (if c = .bank then [] else [Instr.engineUnit l c i]))
    ++ (x.copyQ.zipIdx.filterMap fun p => match p.1.instr with | .sbMove .. => some (Instr.sbMoveCommit l p.2) | _ => none)
    ++ (x.bankQ.zipIdx.flatMap fun p => p.1.parts.map fun b => Instr.bankCommandPart l p.2 b)
    ++ (x.ifills.map fun p => Instr.instructionCacheFill l (BitVec.ofNat 16 p.1) p.2)
    ++ (if (s.nextRecord l).isNone then [] else (((x.freeSlots 0 1).head?).map fun k => Instr.recordTake l k).toList)
    ++ ((x.spawns.map (·.entry)).eraseDups.map fun i => Instr.responderSpawn l i)
    ++ (x.teams.flatMap fun p =>
        (if p.2.drainUntil.isSome then [Instr.drainExpiry l p.1] else [])
          ++ (match p.2.stop with
              | some .flush => [Instr.teamFlush l p.1]
              | some .save => [Instr.teamSave l p.1]
              | _ => []))
    ++ x.wefts.flatMap fun p => weftTurns l p.1 p.2

/-- The lowest handle that no team of a loom has. -/
def Loom.freeHandle (x : Loom) : Nat := ((List.range 1024).find? fun h => (SMap.find? x.teams h).isNone).getD 1024

/-- The distributor's steps: a draw, and a placement on each loom that has what the team needs (R46, R320): the first that
comes to pass takes it. -/
def State.distributorTurns (s : State) : List Instr :=
  .distributorDraw ::
    match s.dist.waiting with
    | none => []
    | some p =>
      match s.pickNeed p with
      | none => []
      | some n =>
        ((List.range Config.looms).filter fun l => ((s.loom l).fits n).isSome).map fun l =>
          match p with
          | .fresh _ => .teamPlacement l (s.loom l).freeHandle 0
          | .swapped _ => .teamRestore l (s.loom l).freeHandle 0

/-- The step of an arrived packet, by its operation (R448). -/
def inboundTurn (i : Nat) (p : Packet) : List Instr :=
  match p.op with
  | 0 => [.fabricWriteUnit i]
  | 1 => [.fabricReadRequest i]
  | 2 => [.fabricReadResponse i]
  | 3 => [.fabricAtomicRequest i]
  | 4 => [.fabricAtomicResponse i]
  | 5 => [.fabricCompletion i]
  | 6 => [.fabricRefusal i]
  | 7 => [.reductionContribution i]
  | 8 => [.reductionCompletion i]
  | 9 => [.censusRequest i]
  | 10 => [.censusAnswer i]
  | _ => []

/-- The cycles of the quadrants that have wefts. -/
def State.issueTurns (s : State) : List Turn := s.looms.flatMap fun p => p.2.quadrantTurns p.1

/-- Every other turn that the package may take without an input from outside. -/
def State.eventTurns (s : State) : List Turn :=
  ((s.looms.flatMap fun p => s.loomTurns p.1)
      ++ (if s.mem.merges.isEmpty then [] else (List.range 8).map Instr.blockMerge)
      ++ (if s.launches.isEmpty && s.qbase == 0 && s.dist.waiting.isNone then [] else s.distributorTurns)
      ++ ((List.range s.fetches.length).map Instr.fetchwAnswer)
      ++ (s.fabric.inbound.zipIdx.flatMap fun p => inboundTurn p.2 p.1)
      ++ ((s.census.filter fun p => p.2.here).map fun p => Instr.censusPoint p.1)
      ++ (s.fabric.changes.map fun c => Instr.routeChangeEffect c.node c.vc)
      ++ ((s.fabric.ports.filter fun p => p.2.timer ≥ 2 ^ 37).map fun p => Instr.tokenRestore p.1)
      ++ ((s.fabric.ports.filter fun p => p.2.unreported > 0).map fun p => Instr.ackTimer p.1)
      ++ ((List.range s.invs.length).map Instr.tlbinvComplete)).map Turn.event

/-- A list from a place on, round. -/
def rotated {α : Type} (n : Nat) (xs : List α) : List α := xs.drop (n % xs.length) ++ xs.take (n % xs.length)

/-- The turns of a cycle in which the package goes on by itself: each that it may take, once, beginning at a place that moves on
with every such cycle. No agent is passed over for ever (R65). The quadrants come first: what an operation that retires in the
cycle leaves, its flags among it, comes after the reads of that cycle's issues (R186). -/
def State.ownTurns (s : State) : List Turn := rotated s.turn s.issueTurns ++ rotated s.turn s.eventTurns

/-- Turns of one cycle, one after another. -/
def takeTurns (run : Instr → State → Result) (s : State) (ts : List Turn) : Result :=
  ts.foldl (fun r t =>
    match r with
    | .next s =>
      (match s.turnTaken run t with
        | .next s' => .next s'.settled
        | r => r)
    | r => r) (.next s)

/-- A cycle of the package by itself. -/
def takeCycle (run : Instr → State → Result) (s : State) : Result :=
  if !s.mgmt.powered then .next s
  else
    let s1 := (({ s with turn := s.turn + 1 }).ticked).periodTick (.issue 0 0)
    takeTurns run s1.settled s1.settled.ownTurns

/-- ONE STEP, with `run` for exec: the agenda's next turn, or, where the agenda is empty, a cycle in which every agent of the
package takes its turn (log entry 1). -/
def takeStep (run : Instr → State → Result) (s : State) : Result :=
  match s.agenda with
  | t :: rest => takeTurn run { s with agenda := rest } t
  | [] => takeCycle run s

/-! ## Placing one instruction (log entry 14) -/

/-- A valid, resident, writable and executable leaf of kind RC that maps the first 2^41 bytes of HBM to themselves (R359). -/
def placedLeaf : Nat := 0x2C7

/-- Where the placed word lies. -/
def placedPc : Nat := 0x20000

/-- The context, the weft and the team that run a placed word: context 1, slot 0 and handle 0 of loom 0. -/
def placedContext : Context :=
  { root := 0x10000, dtab := 0x38000, qblock := 0x30000, trapv := 0x21000, served := true, decode := [], cmd := .none }

def placedWeft (i : Option Instr) : Weft :=
  let role := (i.bind needsRole).getD .vector
  let sv := (i.map isPrivileged).getD false
  { newWeft 1 (some 0) 0 role 255 (BitVec.ofNat 64 placedPc) 4096 with
    sv := sv, frame := if sv then some 8192 else none }

def placedTeam (clock : DWord) : Team :=
  { id := ⟨0, 0, 0⟩, ctx := 1, x := 0, y := 0, z := 0, slots := [0], shareBase := 0, shareSize := 4096, rings := [], tiles := [],
    accs := [], nhed := 0, idem := false, sideEffect := false, issued := 0, placedAt := clock, drainUntil := none,
    drained := false, withdrawn := [], swap := 0, unstarted := false, stop := none }

/-- Nothing withholds the next cycle. -/
def Mgmt.cool (m : Mgmt) : Mgmt :=
  { m with powered := true, stage := 7, wh := 0, trip := false, flow := false, pw := 0, temps := [0, 0, 0, 0], tlim := 100 }

/-- The state in which the next step fetches a word, and issues it: the host's placement (log entry 14). -/
def State.placeWord (s : State) (i : Option Instr) (word : Nat) : State :=
  let hbm := Memory.writeLe (Memory.writeLe s.mem.hbm 0x10000 8 placedLeaf) placedPc 8 word
  let x := s.loom 0
  let hd : Heddle := { mask := [0], team := 0, num := 0, acnt := 0, phase := false, op := .none, sub := 0, def_ := 0, vals := [],
                       source := none, arrived := [] }
  let y : Loom :=
    { x with wefts := SMap.put x.wefts 0 (placedWeft i), teams := SMap.put x.teams 0 (placedTeam s.clock),
             heddles := SMap.put x.heddles 0 hd, tlbCore := [], icache := [] }
  { s with mem := { s.mem with hbm := hbm }, contexts := SMap.put s.contexts 1 placedContext, looms := SMap.put s.looms 0 y,
           mgmt := s.mgmt.cool, agenda := [.issue 0 0] }

end Sys2Proof.Machine
end

