-- ==== Sys2Proof/Machine/Step.lean ====
section
/-! DEFINITION. The step of the package, and the placement of one word for the host (log entries 1, 14). -/

namespace Sys2Proof.Machine

/-- One step of the package: one turn, in one cycle of the core clock. -/
def step : State → Host.Outcome State Fault Refusal := takeStep exec

/-- The state with a word of the opcode table placed where the next step fetches it (log entry 14). -/
def State.withFetchWord (s : State) (nbits w : Nat) : State :=
  s.placeWord (Sys2Proof.decodeTableWord nbits w) (w % 2 ^ nbits)

end Sys2Proof.Machine
end

