-- ==== Sys2Proof/Safety.lean ====
section
/-! DEFINITION. What counts as a safe run, and the terms in which statements speak of an instruction's issue: when it issues
and raises nothing, what its lanes then hold, and what it leaves alone. -/

namespace Sys2Proof.Machine

/-! ## Runs -/

/-- An outcome is a next state. -/
def goesOn (r : Result) : Prop := ∃ t, r = Host.Outcome.next t

/-- A run of a number of steps meets no fault and no refusal. -/
def SafeRun : Nat → State → Prop
  | 0, _ => True
  | n + 1, s => ∃ t, step s = Host.Outcome.next t ∧ SafeRun n t

/-- Every memory of a loom is in canonical form. -/
def Loom.memWf (x : Loom) : Bool := Memory.wf x.mem && Memory.wf x.operand

/-- Every memory of the package is in canonical form: addresses rise, and no zero byte is listed. -/
def State.memWf (s : State) : Bool :=
  Memory.wf s.mem.hbm && Memory.wf s.mem.market && Memory.wf s.mem.host && s.looms.all fun p => p.2.memWf

/-! ## An issue -/

/-- The lanes in which an instruction of the issuing weft acts (R137). -/
def Issue.act (c : Issue) (w : Weft) (i : Instr) : Word := w.active (guardOf i) c.mask

/-- What the body of an instruction sees (Machine/Issue.lean). -/
def Issue.iss (c : Issue) (w : Weft) (i : Instr) : Iss :=
  { l := c.loom, k := c.slot, w := w, pc := c.pc, mask := c.mask, prio := c.prio, act := c.act w i,
    lane := lowestLane (c.act w i), legacy := c.legacy, word := c.word }

/-- The instruction names neither the send nor the receive register of the weft's message port (R335). -/
def portClear (w : Weft) (i : Instr) : Bool :=
  match w.port with
  | none => true
  | some p => (allUses i).all fun u => u.regs.all fun r => r != p.s && r != p.r

/-- No word of a register that the instruction reads is in uncorrectable error, and none is corrected at its reading (R119). -/
def sourcesSound (w : Weft) (i : Instr) : Bool :=
  (allUses i).all fun u => !u.src || u.regs.all fun r => (List.range 32).all fun j =>
    (SMap.find? w.poison (regKey r j)).isNone && !w.soft.contains (regKey r j)

/-- An instruction is being issued, no register that it names is pending (R134, R135), and no check of R415's items 3 to 7
stops it: the weft has the instruction's role and mode, its registers lie below the allotment, no word that it may read is in
error, it names no register of its weft's message port, and it is no store or bank command of a user-mode weft to a field of
supervisor mode (R6). -/
structure Issuing (s : State) (i : Instr) (c : Issue) (w : Weft) : Prop where
  cur : s.cur = some c
  weft : s.weft? c.loom c.slot = some w
  ready : s.regsHold c.loom c.slot w i (c.act w i) = false
  noPort : portClear w i = true
  sound : sourcesSound w i = true
  inAllot : ∀ u ∈ allUses i, w.outOfRange u.r = false
  role : ∀ r, needsRole i = some r → w.role = r
  mode : isPrivileged i = true → w.sv = true
  fields : s.svDenied c.loom w i (c.act w i) = none

/-! ## What an issue leaves alone -/

/-- A weft but for the pass over it. -/
def Weft.unyielded (w : Weft) : Weft := { w with yielded := none }

/-- A team of which one more instruction has issued. -/
def Team.oneMore (t : Team) : Team := { t with issued := t.issued + 1 }

/-- The package is as before but for loom `l`; the loom is as before but for its event counters, the slots that its quadrants
issued from last, the issuing team's count and the issuing weft, in slot `k`. -/
structure OnlyWeft (s t : State) (l k : Nat) (w : Weft) : Prop where
  rest : t = { s with looms := t.looms }
  looms : ∀ l', l' ≠ l → t.loom l' = s.loom l'
  loom : t.loom l =
    { s.loom l with wefts := (t.loom l).wefts, teams := (t.loom l).teams, counters := (t.loom l).counters,
                    last := (t.loom l).last }
  wefts : ∀ j, j ≠ k → (t.weft? l j).map Weft.unyielded = (s.weft? l j).map Weft.unyielded
  teams : ∀ h, t.team? l h = if w.team = some h then (s.team? l h).map Team.oneMore else s.team? l h

/-- A weft after an instruction that writes registers: all but its registers, their error marks, its frontier, its flags and
its wait are as before; it has issued, so that what an await of its saved life had met is used up (R431). -/
def OnlyRegs (w w' : Weft) : Prop :=
  w' = { w with regs := w'.regs, poison := w'.poison, soft := w'.soft, held := w'.held, fpx := w'.fpx, wait := .none,
                yielded := w'.yielded, awaited := none }

/-- Register `d` holds `val j` in every lane j of `act`; every other register and lane is as before. v255 takes no value
(R101). -/
def LanesWritten (w w' : Weft) (act : Word) (d : Reg) (val : Nat → Word) : Prop :=
  ∀ r j, j < 32 → w'.lane r j = if r = d ∧ d ≠ 255 ∧ act.getLsbD j then val j else w.lane r j

/-- As `LanesWritten`, of a register pair from an even register `d` on (R98, R120); a pair at v254 keeps its low word
alone. -/
def PairsWritten (w w' : Weft) (act : Word) (d : Reg) (val : Nat → DWord) : Prop :=
  ∀ r j, j < 32 → w'.lane r j =
    if r = d ∧ act.getLsbD j then (val j).extractLsb' 0 32
    else if r = d + 1 ∧ d + 1 ≠ 255 ∧ act.getLsbD j then (val j).extractLsb' 32 32
    else w.lane r j

/-- The instruction has completed: its weft's frontier holds the entries given, its flags are in s.fpx (R77), and nothing but
its registers has changed. -/
structure Finished (s t : State) (c : Issue) (w w' : Weft) (held : List Entry) (fl : BitVec 6) : Prop where
  weft : t.weft? c.loom c.slot = some w'
  only : OnlyRegs w w'
  frontier : w'.held = held
  flags : w'.fpx = w.fpx ||| fl
  state : OnlyWeft s t c.loom c.slot w

/-- It has completed, and its entry has advanced by one instruction (R38). -/
abbrev Completed (s t : State) (c : Issue) (w w' : Weft) (fl : BitVec 6) : Prop :=
  Finished s t c w w' (w.advance c.pc).held fl

end Sys2Proof.Machine
end

