-- ==== Sys2Proof/Rules/Outcome.lean ====
section
/-! DEFINITION. The outcomes that statements give an instruction: what it writes, and that it leaves everything else as it
was. -/

namespace Sys2Proof.Rules

open Sys2Proof.Machine

/-- The instruction completes and writes register `d` in its active lanes. -/
def WritesReg (s : State) (i : Instr) (c : Issue) (w : Weft) (d : Reg) (val : Nat → Word) : Prop :=
  ∃ t w', exec i s = .next t ∧ Completed s t c w w' 0 ∧ LanesWritten w w' (c.act w i) d val

/-- The instruction completes and writes the register pair from `d` on in its active lanes. -/
def WritesPair (s : State) (i : Instr) (c : Issue) (w : Weft) (d : Reg) (val : Nat → DWord) : Prop :=
  ∃ t w', exec i s = .next t ∧ Completed s t c w w' 0 ∧ PairsWritten w w' (c.act w i) d val

/-- The instruction completes and changes nothing but its entry. -/
def WritesNothing (s : State) (i : Instr) (c : Issue) (w : Weft) : Prop :=
  ∃ t w', exec i s = .next t ∧ Completed s t c w w' 0 ∧ w'.regs = w.regs

/-- The mask of one lane. -/
def oneLane (n : Nat) : Word := BitVec.ofNat 32 (2 ^ n)

/-- THE GENERAL FORM. `s1` is the state before with the instruction's effects outside its registers and its entry made; its
weft there is `w1`. The instruction completes: it leaves `s1` but for the advance of its entry, the flags `fl`, and the words
`val` that register `d` takes in the lanes of `m` (none for v255). -/
def CompletesAs (s : State) (i : Instr) (c : Issue) (s1 : State) (w1 : Weft) (fl : BitVec 6) (m : Word) (d : Reg)
    (val : Nat → Word) : Prop :=
  s1.weft? c.loom c.slot = some w1
    ∧ ∃ t w', exec i s = .next t ∧ Completed s1 t c w1 w' fl ∧ LanesWritten w1 w' m d val

/-- As `CompletesAs`, with a register pair. -/
def CompletesPair (s : State) (i : Instr) (c : Issue) (s1 : State) (w1 : Weft) (m : Word) (d : Reg) (val : Nat → DWord) :
    Prop :=
  s1.weft? c.loom c.slot = some w1
    ∧ ∃ t w', exec i s = .next t ∧ Completed s1 t c w1 w' 0 ∧ PairsWritten w1 w' m d val

/-- The instruction has issued and its weft waits, or it has dealt with its entry itself: it leaves `s1`, in which its weft is
`w1`, but for the counts of its issue (R44, R404, R426). -/
def IssuesAs (s : State) (i : Instr) (c : Issue) (w : Weft) (s1 : State) : Prop :=
  ∃ t, exec i s = .next t ∧ OnlyWeft s1 t c.loom c.slot w
    ∧ (t.weft? c.loom c.slot).map Weft.unyielded = (s1.weft? c.loom c.slot).map Weft.unyielded

/-- The instruction completes with the entries `es` in place of its own (R155). -/
def Transfers (s : State) (i : Instr) (c : Issue) (w : Weft) (es : List Entry) : Prop :=
  ∃ t w', exec i s = .next t ∧ Finished s t c w w' (w.replaceEntry c.pc es).held 0 ∧ w'.regs = w.regs

/-- As `Transfers`, with the link PC + 8 written to the pair from `d` on in the active lanes (R157). -/
def TransfersLinked (s : State) (i : Instr) (c : Issue) (w : Weft) (es : List Entry) (d : Reg) : Prop :=
  ∃ t w', exec i s = .next t ∧ Finished s t c w w' (w.replaceEntry c.pc es).held 0
    ∧ PairsWritten w w' (c.act w i) d fun _ => c.pc + 8

/-- The instruction does not complete: its weft takes the precise trap `e` (R415 to R418), whose frame, where it names no
lane, names the lowest active one (R419). -/
def Traps (s : State) (i : Instr) (c : Issue) (w : Weft) (e : Cause) : Prop :=
  exec i s = .next ((s.noteTrap c.loom w i e).raise c.loom c.slot c.pc (faultLane c.mask (c.act w i)) e)

/-- The instruction has not issued; its weft tries it again (R134, R44): nothing changes. -/
def Holds (s : State) (i : Instr) : Prop := exec i s = .next s

end Sys2Proof.Rules
end

