-- ==== Sys2Proof/Rules/Control.lean ====
section
/-! DEFINITION. The entries that control transfers form, as R155 to R160 state them. -/

namespace Sys2Proof.Rules

open Sys2Proof.Machine

/-- P of R156: the priority in the word; under the legacy bit the entry's own (R108). -/
def priorityOf (c : Issue) (p : BitVec 12) : BitVec 12 := if c.legacy then c.prio else p

/-- The target PC + 8 · offset16 (R156). -/
def relativeTarget (c : Issue) (off : BitVec 16) : DWord := BitVec.ofInt 64 ((c.pc.toNat : Int) + 8 * off.toInt)

/-- The target of a pair: bits [2:0] ignored (R156). -/
def pairTargetOf (w : Weft) (a : Reg) (j : Nat) : DWord := BitVec.ofNat 64 ((w.pair a j).toNat / 8 * 8)

/-- The falling lanes' entry (R155). -/
def fallingEntry (c : Issue) (taken : Word) : Entry :=
  { pc := c.pc + 8, prio := c.prio, mask := c.mask &&& ~~~taken, age := 0 }

/-- The lanes of `act` whose word of `a` has bit 0 set (R156). -/
def takenLanes (w : Weft) (a : Reg) (act : Word) : Word :=
  BitVec.ofFnLE fun (j : Fin 32) => act.getLsbD j && (w.lane a j).getLsbD 0

/-- The entries that an instruction forms, an entry of no lane being none (R155). Lanes of one target are given one entry
each: entries of one PC merge by R39. -/
def transferRule (c : Issue) (w : Weft) (i : Instr) : Option (List Entry) :=
  let act := c.act w i
  let entry (target : DWord) (p : BitVec 12) (m : Word) : Entry := { pc := target, prio := priorityOf c p, mask := m, age := 0 }
  let each (a : Reg) (p : BitVec 12) : List Entry :=
    ((List.range 32).filter fun j => act.getLsbD j).map fun j => entry (pairTargetOf w a j) p (oneLane j)
  match i with
  | .br _ p off => some [entry (relativeTarget c off) p act, fallingEntry c act]
  | .brc _ a p off => some [entry (relativeTarget c off) p (takenLanes w a act), fallingEntry c (takenLanes w a act)]
  | .jmp _ _ a p => some (each a p ++ [fallingEntry c act])
  | .call _ _ p off => some [entry (relativeTarget c off) p act, fallingEntry c act]
  | .ret _ a p => some (each a p ++ [fallingEntry c act])
  | .prio p => some [{ pc := c.pc + 8, prio := p, mask := c.mask, age := 0 }]
  | .exit _ => some [fallingEntry c act]
  | _ => none

/-- The link register of call, and of jmp with d other than 255 (R157). -/
def linkOf : Instr → Option Reg
  | .call _ d _ _ => some d
  | .jmp _ d _ _ => if d = 255 then none else some d
  | _ => none

/-- A frontier as R36 has it: no mask empty, no lane in two entries, and R39: one entry at a PC. -/
def FrontierOk (es : List Entry) : Prop :=
  (∀ e ∈ es, e.mask ≠ 0) ∧ es.Pairwise (fun a b => a.mask &&& b.mask = 0 ∧ a.pc ≠ b.pc)

end Sys2Proof.Rules
end

