-- ==== Sys2Proof/Rules/Format.lean ====
section
/-! DEFINITION. The results, flags and records of slot-named arithmetic, as R168 to R186 state them: what each element of each
lane becomes, over the exact values, Round and Decode of R71 to R76. -/

namespace Sys2Proof.Rules

open Sys2Proof.Machine

/-- The definition of a format slot of the weft (R67). -/
def slotOf (w : Weft) (n : BitVec 4) : Fmt := Fmt.ofDef (w.fmt n)

/-- Round of an exact value that an operation gave with its flags; a signalling NaN among the operands read sets NV
(R71, R77). -/
def roundOf (f : Fmt) (v : Machine.Num × BitVec 6) (read : List Machine.Num) : Rounded :=
  let r := f.round v.1 false
  { r with flags := r.flags ||| v.2 ||| (if read.any fun x => x = .nan true then NV else 0) }

/-- The flags of a list of results. -/
def flagsOf (rs : List Rounded) : BitVec 6 := rs.foldl (fun f r => f ||| r.flags) 0

/-- The instruction completes with the flags `fl`, leaving `s1`, in which its weft is `w1`, but that its conversion records are
appended: at once, or behind those that the weft's earlier operations may still append (R84, R86). -/
def Records (s : State) (i : Instr) (c : Issue) (s1 : State) (w1 : Weft) (recs : List ConvRec) (fl : BitVec 6) : Prop :=
  ∃ w2, w2 = { w1 with recQ := w2.recQ } ∧ (w1.recQ = [] → w2 = w1)
    ∧ CompletesAs s i c (s1.vectorRecords c.loom c.slot w1.ctx recs) w2 fl 0 255 fun _ => 0

/-- THE ELEMENT RULE (R168, R170): lane i of `d` takes the P results of its elements packed in the slot's width, element 0
lowest; the flags of every active lane are set; the results' records are appended in the order of lanes, then elements. -/
def WritesElements (s : State) (i : Instr) (c : Issue) (w : Weft) (width : Nat) (d : Reg) (g : Nat → List Rounded) : Prop :=
  let lanes := (List.range 32).filter fun j => (c.act w i).getLsbD j
  let recs : List ConvRec := lanes.flatMap fun j => (g j).zipIdx.filterMap fun p => p.1.record.map fun code =>
    { pc := c.pc, slot := c.slot, lane := j, engine := false, loom := c.loom, code := code, element := p.2 }
  ∃ w1, w1 = { w with regs := w1.regs, poison := w1.poison, soft := w1.soft }
    ∧ LanesWritten w w1 (c.act w i) d (fun j => packLane width ((g j).map (·.bits)))
    ∧ Records s i c (s.setWeft c.loom c.slot w1) w1 recs (flagsOf (lanes.flatMap g))

/-- R173 to R175: the element-wise instructions: the slot, the destination, and the result of element j of lane i. -/
def elementRule (c : Issue) (w : Weft) : Instr → Option (BitVec 4 × Reg × (Nat → Nat → Rounded))
  | .fadd _ n d a b => some (n, d, fun i j =>
      let f := slotOf w n; let x := f.elemNum (w.lane a i) j; let y := f.elemNum (w.lane b i) j
      roundOf f (sumNums f.rdn [x, y]) [x, y])
  | .fsub _ n d a b => some (n, d, fun i j =>
      let f := slotOf w n; let x := f.elemNum (w.lane a i) j; let y := f.elemNum (w.lane b i) j
      roundOf f (sumNums f.rdn [x, y.neg]) [x, y])
  | .fmul _ n d a b => some (n, d, fun i j =>
      let f := slotOf w n; let x := f.elemNum (w.lane a i) j; let y := f.elemNum (w.lane b i) j
      roundOf f (mulNum x y) [x, y])
  | .fma _ n d a b cc => some (n, d, fun i j =>
      let f := slotOf w n; let x := f.elemNum (w.lane a i) j; let y := f.elemNum (w.lane b i) j
      let z := f.elemNum (w.lane cc i) j
      let v := sumNums f.rdn [(mulNum x y).1, z]
      roundOf f (v.1, (mulNum x y).2 ||| v.2) [x, y, z])
  | .fmin _ n d a b => some (n, d, fun i j =>
      let f := slotOf w n; let x := f.elemNum (w.lane a i) j; let y := f.elemNum (w.lane b i) j
      roundOf f (minMaxNum false c.legacy x y, 0) [x, y])
  | .fmax _ n d a b => some (n, d, fun i j =>
      let f := slotOf w n; let x := f.elemNum (w.lane a i) j; let y := f.elemNum (w.lane b i) j
      roundOf f (minMaxNum true c.legacy x y, 0) [x, y])
  | .fabs _ n d a => some (n, d, fun i j =>
      let f := slotOf w n; let x := f.elemNum (w.lane a i) j
      roundOf f (x.abs, 0) [x])
  | .fneg _ n d a => some (n, d, fun i j =>
      let f := slotOf w n; let x := f.elemNum (w.lane a i) j
      roundOf f (x.neg, 0) [x])
  | .fscale _ n d a b => some (n, d, fun i j =>
      let f := slotOf w n; let x := f.elemNum (w.lane a i) j
      roundOf f (scaleNum (w.lane b i).toInt x, 0) [x])
  | .fround _ rm n d a => some (n, d, fun i j =>
      let f := slotOf w n; let x := f.elemNum (w.lane a i) j
      match x with
      | .fin neg m e =>
        roundOf f (.fin neg (roundInt (rmCode f rm) neg m e).1 0, if (roundInt (rmCode f rm) neg m e).2 then NX else 0) []
      | v => roundOf f (v, 0) [v])
  | _ => none

/-- R176: the instructions of float slots alone. -/
def floatRule (w : Weft) : Instr → Option (BitVec 4 × Reg × (Nat → Nat → Rounded))
  | .fdiv _ n d a b => some (n, d, fun i j =>
      let f := slotOf w n; let x := f.elemNum (w.lane a i) j; let y := f.elemNum (w.lane b i) j
      (fdivNum f x y).add (x.readFlags ||| y.readFlags))
  | .frcp _ n d a => some (n, d, fun i j =>
      let f := slotOf w n; let x := f.elemNum (w.lane a i) j
      (frcpNum f x).add x.readFlags)
  | .fsqrt _ n d a => some (n, d, fun i j =>
      let f := slotOf w n; let x := f.elemNum (w.lane a i) j
      (fsqrtNum f x).add x.readFlags)
  | .frsq _ n d a => some (n, d, fun i j =>
      let f := slotOf w n; let x := f.elemNum (w.lane a i) j
      (frsqNum f x).add x.readFlags)
  | .fexp2 _ n d a => some (n, d, fun i j =>
      let f := slotOf w n; let code := elem (w.lane a i) j f.width; let x := f.decode code
      (fexp2Num f (w.fmt n) (BitVec.ofNat 32 code) x).add x.readFlags)
  | .flog2 _ n d a => some (n, d, fun i j =>
      let f := slotOf w n; let code := elem (w.lane a i) j f.width; let x := f.decode code
      (flog2Num f (w.fmt n) (BitVec.ofNat 32 code) x).add x.readFlags)
  | .fsinpi _ n d a => some (n, d, fun i j =>
      let f := slotOf w n; let code := elem (w.lane a i) j f.width; let x := f.decode code
      (fsinpiNum f (w.fmt n) (BitVec.ofNat 32 code) x).add x.readFlags)
  | .fcospi _ n d a => some (n, d, fun i j =>
      let f := slotOf w n; let code := elem (w.lane a i) j f.width; let x := f.decode code
      (fcospiNum f (w.fmt n) (BitVec.ofNat 32 code) x).add x.readFlags)
  | .ftanh _ n d a => some (n, d, fun i j =>
      let f := slotOf w n; let code := elem (w.lane a i) j f.width; let x := f.decode code
      (ftanhNum f (w.fmt n) (BitVec.ofNat 32 code) x).add x.readFlags)
  | _ => none

/-- Element k of the sources a and b of fcvt taken together, from the offset on; none beyond both (R179). -/
def convertedFrom (src : Fmt) (la lb : Word) (k : Nat) : Option Nat :=
  if k < src.perLane then some (elem la k src.width)
  else if k < 2 * src.perLane then some (elem lb (k - src.perLane) src.width) else none

/-- The exact sum of R183: an accumulator element and the products of a lane, rounded once. -/
def dotted (f fa : Fmt) (la lb lc : Word) : Rounded :=
  let t := fa.elemNum lc 0
  let xs := (List.range f.perLane).map (f.elemNum la)
  let ys := (List.range f.perLane).map (f.elemNum lb)
  let ps := List.zipWith mulNum xs ys
  let v := sumNums fa.rdn (t :: ps.map (·.1))
  roundOf fa (v.1, ps.foldl (fun fl p => fl ||| p.2) v.2) (t :: (xs ++ ys))

/-- R179, R181 and R183: the conversions whose source and destination differ: the destination slot, the destination, the
format check, and lane i's results. -/
def convertRule (c : Issue) (w : Weft) : Instr → Option (BitVec 4 × Reg × Bool × (Nat → List Rounded))
  | .fcvt _ n src d a b o => some (n, d, true, fun i =>
      let f := slotOf w n; let fs := slotOf w src
      (List.range f.perLane).map fun j =>
        match convertedFrom fs (w.lane a i) (w.lane b i) (o.toNat + j) with
        | none => { bits := f.zeroCode false, flags := 0 }
        | some code =>
          let r := roundOf f (fs.decode code, 0) [fs.decode code]
          if c.legacy ∧ r.record = some 1 then { r with record := none } else r)
  | .itof _ sg n d a => some (n, d, true, fun i =>
      let v : Int := if sg then (w.lane a i).toInt else (w.lane a i).toNat
      [(slotOf w n).round (.ofInt v) false])
  | .fdot _ n acc d a b cc => some (acc, d, !(slotOf w acc).isDyadic, fun i =>
      [dotted (slotOf w n) (slotOf w acc) (w.lane a i) (w.lane b i) (w.lane cc i)])
  | _ => none

/-- The comparison of R177: its outcome, and whether it signals: NV for a signalling NaN in every mode, and for any NaN in
the four that order. -/
def comparison (k : FCond) (x y : Machine.Num) : Bool × Bool :=
  let un := x.isNan || y.isNan
  let sig := x = .nan true || y = .nan true
  match k with
  | .eq => (!un && eqNum x y, sig)
  | .ne => (un || !eqNum x y, sig)
  | .lt => (!un && ltNum x y, un)
  | .le => (!un && (ltNum x y || eqNum x y), un)
  | .gt => (!un && ltNum y x, un)
  | .ge => (!un && (ltNum y x || eqNum x y), un)
  | .un => (un, sig)
  | .or => (!un, sig)

/-- R177, R178, R180 and R182: the instructions whose result is a word that is no packed lane: the destination, the slot and
element that the format check names, the word of lane i, and the flags of lane i. -/
def wordRule (w : Weft) : Instr → Option (Reg × Bool × (Nat → Word) × (Nat → BitVec 6))
  | .fcmp _ k n d a b =>
    let f := slotOf w n
    let out (i j : Nat) := comparison k (f.elemNum (w.lane a i) j) (f.elemNum (w.lane b i) j)
    some (d, true, fun i => BitVec.ofFnLE fun (j : Fin 32) => j.val < f.perLane && (out i j.val).1,
      fun i => if (List.range f.perLane).any fun j => (out i j).2 then NV else 0)
  | .fclass _ n d a k =>
    let f := slotOf w n
    some (d, k.toNat < f.perLane, fun i => BitVec.ofNat 32 (2 ^ classBit f (f.elemNum (w.lane a i) k.toNat)), fun _ => 0)
  | .ftoi _ rm sg n d a k =>
    let f := slotOf w n
    some (d, k.toNat < f.perLane, fun i => (ftoiNum f rm sg (f.elemNum (w.lane a i) k.toNat)).1,
      fun i => (ftoiNum f rm sg (f.elemNum (w.lane a i) k.toNat)).2)
  | .fpack _ n d a b k =>
    let f := slotOf w n
    some (d, k.toNat < f.perLane, fun i => packLane f.width ((List.range f.perLane).map fun j =>
      if j = k.toNat then (w.lane a i).toNat % 2 ^ f.width else elem (w.lane b i) j f.width), fun _ => 0)
  | .funpack _ sg n d a k =>
    let f := slotOf w n
    some (d, k.toNat < f.perLane, fun i =>
      let code := elem (w.lane a i) k.toNat f.width
      BitVec.ofInt 32 (if sg ∧ code.testBit (f.width - 1) then (code : Int) - 2 ^ f.width else code), fun _ => 0)
  | _ => none

/-! ## Values as rational numbers (R71, R73) -/

/-- The rational number that a finite value stands for. -/
def ratOf : Machine.Num → Option ℚ
  | .fin neg m e => some ((if neg then -1 else 1) * m * (2 : ℚ) ^ e)
  | _ => none

end Sys2Proof.Rules
end

