-- ==== Sys2Proof/Rules/Memory.lean ====
section
/-! DEFINITION. The accesses, the results and the stored bytes of the memory instructions and the atomics, as R251 to R262
state them. -/

namespace Sys2Proof.Rules

open Sys2Proof.Machine

/-! ## Places and bytes -/

/-- A place that holds a byte: of a physical space, or of a loom's memory. -/
inductive Place where
  | phys (sp : Space) (a : Nat)
  | lm (l a : Nat)
deriving DecidableEq, Repr

/-- The byte at a place. -/
def byteAt (s : State) : Place → Byte
  | .phys sp a => s.readPhys sp a
  | .lm l a => s.readLm l a

/-- Where a spot's byte lies, for a loom (R191, R419). -/
def placeOf (l : Nat) : Spot → Option Place
  | .bad _ => none
  | .lm a => some (.lm l a)
  | .frame b i => some (.lm l (b + i))
  | .page x pa => some (.phys x.space pa)

/-- What a store of byte `v` makes of the byte at a spot: of the header word of a trap frame only fcount, bits [5:0],
changes (R419), and the reserved bits [127:125] of its frontier entries stay zero (R7, R132); of a queue block only the fields
that software writes change (R6, R314, R327), `bs` being the blocks. -/
def storedByte (bs : List DevBlock) (v old : Byte) (sp : Spot) : Byte :=
  match sp with
  | .frame _ i =>
    if i = 24 then (old &&& 0xC0) ||| (v &&& 0x3F)
    else if 24 ≤ i ∧ i < 32 then old
    else if 256 ≤ i ∧ i < 768 ∧ i % 16 = 15 then v &&& 0x1F else v
  | _ =>
    match fieldAt bs sp with
    | none => v
    | some (sv, rw) => (old &&& ~~~(sv ||| rw)) ||| (v &&& (sv ||| rw))

/-- The bytes after one byte is stored at a spot. -/
def afterByte (bs : List DevBlock) (l : Nat) (m : Place → Byte) (sp : Spot) (v : Byte) : Place → Byte :=
  fun p => if placeOf l sp = some p then storedByte bs v (m p) sp else m p

/-- The bytes after an n-byte value is stored, low byte first. -/
def afterStore (bs : List DevBlock) (l : Nat) (m : Place → Byte) (sps : List Spot) (n : Nat) : Place → Byte :=
  sps.zipIdx.foldl (fun m x => afterByte bs l m x.1 (BitVec.ofNat 8 (n / 256 ^ x.2))) m

/-- The value read at some spots, low byte first; zero where there is no byte. -/
def valueAt (l : Nat) (m : Place → Byte) (sps : List Spot) : Nat :=
  (sps.zipIdx.map fun x => ((placeOf l x.1).elim 0 fun p => (m p).toNat) * 256 ^ x.2).sum

/-! ## An instruction's accesses -/

/-- The accesses of a memory instruction: whether it loads, stores, is a resid form, and each active lane's bytes. -/
structure Accesses where
  load : Bool
  store : Bool
  resid : Bool
  list : List Acc

/-- The active lanes in ascending order. -/
def activeLanes (act : Word) : List Nat := (List.range 32).filter fun j => act.getLsbD j

/-- Lane i's address of the indexed forms, Pair(a, i) + sext(Lane(b, i)) + sext(imm16), the index left out for b = 255
(R98). -/
def addressOf (w : Weft) (a b : Reg) (imm : BitVec 16) (i : Nat) : DWord :=
  BitVec.ofInt 64 ((w.pair a i).toNat + (if b = 255 then 0 else (w.lane b i).toInt) + imm.toInt)

/-- The first bit of lane i's elements of ldw and stw, from byte B(i): (n0(i) mod 2^32) · w (R252). -/
def firstBit (w : Weft) (f : Fmt) (b : Reg) (i : Nat) : Nat := (if b = 255 then 0 else (w.lane b i).toNat) * f.width

/-- The bytes that hold lane i's P elements (R252). -/
def packedAt (w : Weft) (f : Fmt) (a b : Reg) (imm : BitVec 16) (i : Nat) : Acc :=
  { lane := i, va := BitVec.ofInt 64 ((w.pair a i).toNat + imm.toInt + (firstBit w f b i / 8 : Nat)),
    len := (firstBit w f b i % 8 + f.perLane * f.width + 7) / 8 }

/-- The accesses of each instruction (R251 to R253, R256, R258). -/
def accessRule (w : Weft) (act : Word) (i : Instr) : Option Accesses :=
  let plain (n al : Nat) (f : Nat → DWord) : List Acc :=
    (activeLanes act).map fun j => { lane := j, va := f j, len := n, align := al }
  let atomic (a b : Reg) (imm : BitVec 16) (n : Nat) : Option Accesses :=
    some ⟨true, true, false, plain n n (addressOf w a b imm)⟩
  match i with
  | .ld _ _ a b imm wd _ => some ⟨true, false, false, plain (widthBytes wd) 1 (addressOf w a b imm)⟩
  | .st _ _ a b imm wd _ => some ⟨false, true, false, plain (widthBytes wd) 1 (addressOf w a b imm)⟩
  | .ldw _ n _ a b imm => some ⟨true, false, false, (activeLanes act).map (packedAt w (slotOf w n) a b imm)⟩
  | .stw _ n _ a b imm => some ⟨false, true, false, (activeLanes act).map (packedAt w (slotOf w n) a b imm)⟩
  | .ldResid _ _ a _ imm wd _ => some ⟨true, false, true, plain (widthBytes wd) 1 (addressOf w a 255 imm)⟩
  | .ldwResid _ n _ a _ imm => some ⟨true, false, true, (activeLanes act).map (packedAt w (slotOf w n) a 255 imm)⟩
  | .atomAdd _ _ a b imm q _ | .atomMin _ _ a b imm q _ | .atomMax _ _ a b imm q _ | .atomAnd _ _ a b imm q _
  | .atomOr _ _ a b imm q _ | .atomXor _ _ a b imm q _ | .atomXchg _ _ a b imm q _ | .atomInc _ _ a b imm q _
  | .atomDec _ _ a b imm q _ => atomic a b imm (if q then 8 else 4)
  | .atomCas _ _ a _ imm q _ => atomic a 255 imm (if q then 8 else 4)
  | .atomFadd _ n _ a b imm _ => if faddSlot (slotOf w n) then atomic a b imm ((slotOf w n).width / 8) else none
  | _ => none

/-- The view of the issuing weft (R47, R60, R419). -/
def viewAt (s : State) (c : Issue) (w : Weft) : View := s.viewOf c.loom w

/-- The order of R254, times ten, that an access meets: 25 unaligned, else the least of its bytes' orders; 90 none. -/
def accessOrder (s : State) (v : View) (store : Bool) (a : Acc) : Nat :=
  a.bytes.foldl (fun best b => min best ((s.spot v b).caseOf store)) (if a.va.toNat % a.align = 0 then 90 else 25)

/-- The instruction is not held: no entry of the range scoreboard overlaps it (R197) and no bank command of its loom goes
before it (R214, R247). -/
def NotHeld (s : State) (v : View) (x : Accesses) : Prop :=
  s.rangeHolds v x.load x.store x.list = false ∧ s.bankHolds v x.list = false

/-- A lane's access meets an error (R193, R205, R211, R215, R454): a load or atomic reads a byte of a unit in uncorrectable
error, but that a load reads nothing behind a line that its loom's L1 holds; a store or atomic writes part of a loom-memory word
in error, of which the instruction's lanes together write fewer than its 8 bytes; host memory is lost with its link. -/
def MeetsError (s : State) (v : View) (x : Accesses) (a : Acc) : Prop :=
  let lost (sp : Spot) : Prop := ∃ y pa, sp = .page y pa ∧ y.space = .host ∧ s.mgmt.linkUp = false
  let all := (x.list.flatMap (s.spots v)).eraseDups
  x.load = true ∧ (∃ b ∈ a.bytes, (s.spot v b).caseOf false = 90
      ∧ ((∃ e ∈ (s.spot v b).units v.loom, s.mem.hard e = true) ∨ lost (s.spot v b))
      ∧ (x.store = false → s.l1Serves v b = false))
  ∨ x.store = true ∧ ∃ b ∈ a.bytes, lost (s.spot v b) ∨ ∃ l u, (s.spot v b).unit v.loom = some (.lmem l u)
      ∧ s.mem.hard (.lmem l u) = true ∧ unitCount v.loom all (.lmem l u) < 8

/-- No active lane meets a case of R254 that stops the instruction, and none meets an uncorrectable error. -/
def TakesEffect (s : State) (v : View) (x : Accesses) : Prop :=
  NotHeld s v x ∧ (∀ a ∈ x.list, accessOrder s v x.store a = 90 ∨ x.resid ∧ accessOrder s v x.store a = 70)
    ∧ ∀ a ∈ x.list, ¬ MeetsError s v x a

/-- The state after an instruction's accesses have been noted: TLB, L1 and L2 tags, event and error counters (R205, R361,
R405, R412), with the fences about an access to an SO page (R236). -/
def noted (s : State) (v : View) (x : Accesses) : State :=
  (s.noteSo v (x.load && !x.store) x.store x.list).noteSoft v x.list (s.servedBytes v (x.load && !x.store) x.list)

/-- The lanes' spots. -/
def spotsOf (s : State) (v : View) (x : Accesses) : List (Nat × List Spot) := x.list.map fun a => (a.lane, s.spots v a)

/-- `s1` is `s0` but for bytes of memory and the error marks of units written whole (R193, R211, R215). -/
structure OnlyBytes (s0 s1 : State) : Prop where
  rest : s1 = { s0 with mem := s1.mem, looms := s1.looms }
  loom : ∀ l, s1.loom l = { s0.loom l with mem := (s1.loom l).mem }
  mem : s1.mem = { s0.mem with hbm := s1.mem.hbm, market := s1.mem.market, host := s1.mem.host, marks := s1.mem.marks }

/-- One lane's store of an n-byte value: each place holds what the store leaves there, every other byte is as before, and then
the armed words are compared with their targets (R396). -/
def LaneStored (s0 s1 : State) (l : Nat) (sps : List Spot) (n : Nat) : Prop :=
  ∃ t, OnlyBytes s0 t ∧ (∀ p, byteAt t p = afterStore s0.devBlocks l (byteAt s0) sps n p) ∧ s1 = t.checkArms

/-- STORES AND ATOMICS (R255, R257): lane by lane, in ascending order, from `s0` to `s1`: what `new` makes of the old value of a
lane's bytes is stored there. `olds` are the lanes' old values. At the end error marks of units written whole are gone
(R193, R211, R215). -/
def LanesStored (l : Nat) (new : Nat → Nat → Option Nat) (s0 s1 : State) :
    List (Nat × List Spot) → List (Nat × Nat) → Prop
  | [], olds => olds = [] ∧ s1 = { s0 with mem := { s0.mem with marks := s1.mem.marks } }
  | (j, sps) :: rest, olds =>
    let old := valueAt l (byteAt s0) sps
    ∃ t olds', olds = (j, old) :: olds' ∧ (match new j old with | none => t = s0 | some n => LaneStored s0 t l sps n)
      ∧ LanesStored l new t s1 rest olds'

/-- The issuing weft after lanes have stored: as before, unless it was itself in an await that a store ends. -/
def SameUnlessAwaiting (w w2 : Weft) : Prop := (∀ pc a d n b, w.wait ≠ .await pc a d n b) → w2 = w

/-! ## Results -/

/-- The acquiring loads and atomics (R251, R256). -/
def acquiring : Instr → Bool
  | .ld _ _ _ _ _ _ acq | .ldResid _ _ _ _ _ _ acq => acq
  | .atomAdd _ _ _ _ _ _ o | .atomMin _ _ _ _ _ _ o | .atomMax _ _ _ _ _ _ o | .atomAnd _ _ _ _ _ _ o
  | .atomOr _ _ _ _ _ _ o | .atomXor _ _ _ _ _ _ o | .atomXchg _ _ _ _ _ _ o | .atomInc _ _ _ _ _ _ o
  | .atomDec _ _ _ _ _ _ o | .atomCas _ _ _ _ _ _ o | .atomFadd _ _ _ _ _ _ o => o = .acq ∨ o = .acqrel
  | _ => false

/-- A load's destination, and the value that lane i receives, read in the state given (R252, R253). -/
def loadRule (s : State) (v : View) (w : Weft) : Instr → Option (Reg × (Nat → Nat))
  | .ld _ d a b imm wd _ => some (d, fun i =>
      valueAt v.loom (byteAt s) (s.spots v ⟨i, addressOf w a b imm i, widthBytes wd, 1⟩))
  | .ldw _ n d a b imm => some (d, fun i =>
      let f := slotOf w n
      valueAt v.loom (byteAt s) (s.spots v (packedAt w f a b imm i)) / 2 ^ (firstBit w f b i % 8)
        % 2 ^ (f.perLane * f.width))
  | _ => none

/-- A resid load's destination, its residency register, the value that lane i receives, and the residency bits of lane i
that it clears: an element with a byte on a page that is not resident reads as zero (R122, R254). -/
def residRule (s : State) (v : View) (w : Weft) : Instr → Option (Reg × Reg × (Nat → Nat) × (Nat → Word))
  | .ldResid _ d a m imm wd _ =>
    let at_ (i : Nat) : Acc := ⟨i, addressOf w a 255 imm i, widthBytes wd, 1⟩
    some (d, m, fun i => if accessOrder s v false (at_ i) = 70 then 0 else valueAt v.loom (byteAt s) (s.spots v (at_ i)),
      fun i => if accessOrder s v false (at_ i) = 70 then 1 else 0)
  | .ldwResid _ n d a m imm =>
    let f := slotOf w n
    let at_ (i j : Nat) : Acc :=
      ⟨i, BitVec.ofInt 64 ((w.pair a i).toNat + imm.toInt + (j * f.width / 8 : Nat)),
        (j * f.width % 8 + f.width + 7) / 8, 1⟩
    some (d, m, fun i => (packLane f.width ((List.range f.perLane).map fun j =>
        if accessOrder s v false (at_ i j) = 70 then 0
        else valueAt v.loom (byteAt s) (s.spots v (at_ i j)) / 2 ^ (j * f.width % 8) % 2 ^ f.width)).toNat,
      fun i => BitVec.ofFnLE fun (j : Fin 32) => j.val < f.perLane && accessOrder s v false (at_ i j.val) == 70)
  | _ => none

/-- A load of a pair. -/
def loadsPair : Instr → Bool
  | .ld _ _ _ _ _ .b64 _ | .ldResid _ _ _ _ _ .b64 _ => true
  | _ => false

/-- What a store leaves of the old value of a lane's bytes (R252, R253). -/
def storeRule (w : Weft) : Instr → Option (Nat → Nat → Nat)
  | .st _ d _ _ _ wd _ => some fun i _ => if wd = .b64 then (w.pair d i).toNat else (w.lane d i).toNat
  | .stw _ n d _ b _ => some fun i old =>
      let f := slotOf w n
      let k := firstBit w f b i % 8
      old % 2 ^ k + 2 ^ k * ((w.lane d i).toNat % 2 ^ (f.perLane * f.width))
        + 2 ^ (k + f.perLane * f.width) * (old / 2 ^ (k + f.perLane * f.width))
  | _ => none

/-- The signed value of a width of bits. -/
def signedOf (bits x : Nat) : Int := if x < 2 ^ (bits - 1) then x else (x : Int) - 2 ^ bits

/-- R257: an atomic's destination, whether it is of 64 bits, and n for lane i and the old value o: none writes nothing. -/
def atomicRule (w : Weft) (i : Instr) : Option (Reg × Bool × (Nat → Nat → Option Nat)) :=
  let v (d : Reg) (q : Bool) (j : Nat) : Nat := if q then (w.pair d j).toNat else (w.lane d j).toNat
  let bits (q : Bool) : Nat := if q then 64 else 32
  match i with
  | .atomAdd _ d _ _ _ q _ => some (d, q, fun j o => some ((o + v d q j) % 2 ^ bits q))
  | .atomMin _ d _ _ _ q _ => some (d, q, fun j o =>
      some (if signedOf (bits q) (v d q j) < signedOf (bits q) o then v d q j else o))
  | .atomMax _ d _ _ _ q _ => some (d, q, fun j o =>
      some (if signedOf (bits q) o < signedOf (bits q) (v d q j) then v d q j else o))
  | .atomAnd _ d _ _ _ q _ => some (d, q, fun j o => some (o &&& v d q j))
  | .atomOr _ d _ _ _ q _ => some (d, q, fun j o => some (o ||| v d q j))
  | .atomXor _ d _ _ _ q _ => some (d, q, fun j o => some (o ^^^ v d q j))
  | .atomXchg _ d _ _ _ q _ => some (d, q, fun j _ => some (v d q j))
  | .atomCas _ d _ b _ q _ => some (d, q, fun j o => if o = v b q j then some (v d q j) else none)
  | .atomInc _ d _ _ _ q _ => some (d, q, fun j o => some (if v d q j ≤ o then 0 else o + 1))
  | .atomDec _ d _ _ _ q _ => some (d, q, fun j o => some (if o = 0 ∨ v d q j < o then v d q j else o - 1))
  | _ => none

/-- The old value of lane i among those of the lane rule. -/
def oldOf (olds : List (Nat × Nat)) (i : Nat) : Nat := ((olds.find? fun p => p.1 = i).map (·.2)).getD 0

/-- probe (R262): bits [8:0] of the leaf that the page table now gives; a window offset within the share reads as a valid,
resident, writable RC leaf (a record weft's window is its loom's held memory, R60). -/
def probeRule (s : State) (c : Issue) (w : Weft) (va : DWord) : Word :=
  let off := va.toNat - 0xFFF * 2 ^ 52
  if va.toNat < 2 ^ 52 then
    match s.currentLeaf w.ctx va.toNat with
    | none => 0
    | some x => BitVec.ofNat 32 (x.pte.toNat % 512)
  else if va.toNat < 0xFFF * 2 ^ 52 then 0
  else
    match s.teamOf c.loom w with
    | some t => if off < t.shareSize then 0x47 else 0
    | none => if off < 786432 ∧ (s.loom c.loom).heldFor w.ctx off then 0x47 else 0

/-- A hint's fill changes no visible state (R260): memory's bytes, wefts, teams, contexts and devices are as before; what may
differ is TLBs, cache tags, fills in progress and event counters. -/
structure OnlyFills (s s1 : State) (l : Nat) : Prop where
  rest : s1 = { s with mem := s1.mem, looms := s1.looms, dieCounters := s1.dieCounters }
  mem : s1.mem = { s.mem with l2 := s1.mem.l2, marks := s1.mem.marks }
  loom : s1.loom l =
    { s.loom l with tlbCore := (s1.loom l).tlbCore, l1 := (s1.loom l).l1, counters := (s1.loom l).counters,
                    ifills := (s1.loom l).ifills, icache := (s1.loom l).icache, errors := (s1.loom l).errors }
  looms : ∀ k, k ≠ l → s1.loom k = s.loom k

end Sys2Proof.Rules
end

