-- ==== Sys2Proof/Rules/Engine.lean ====
section
/-! DEFINITION. What an engine operation captures at issue, and the state that its issue leaves (10 R263 to R265, 08 R198,
12 R329, 15 R393). -/

namespace Sys2Proof.Rules

open Sys2Proof.Machine

/-- Lane L of R57: the lowest active lane. -/
def laneL (c : Issue) (w : Weft) (i : Instr) : Nat := lowestLane (c.act w i)

/-- The instruction completes, leaves `s1` with the weft `w1`, and writes Lane(d, L). -/
def Gives (s : State) (i : Instr) (c : Issue) (w : Weft) (s1 : State) (w1 : Weft) (d : Reg) (v : Word) : Prop :=
  CompletesAs s i c s1 w1 0 (oneLane (laneL c w i)) d fun _ => v

/-- The instruction completes, leaves `s1` with the weft `w1`, and writes no register. -/
def Does (s : State) (i : Instr) (c : Issue) (s1 : State) (w1 : Weft) : Prop :=
  CompletesAs s i c s1 w1 0 0 255 fun _ => 0

/-- A fault at lane L (R57, R419). -/
def faultAtL (c : Issue) (w : Weft) (i : Instr) (cause : Nat) (detail : DWord := 0) (code : Nat := 0) : Cause :=
  { cause := cause, code := code, lane := some (laneL c w i), detail := detail }

/-! ## Reads at issue (R264) -/

/-- The access of n bytes at an address in lane L. -/
def blockAt (c : Issue) (w : Weft) (i : Instr) (addr : DWord) (n : Nat) : Accesses :=
  ⟨true, false, false, [{ lane := laneL c w i, va := addr, len := n }]⟩

/-- In `s` the n bytes at an aligned address are read: `s1` is the state then, `val` the value. -/
def Reads (c : Issue) (w : Weft) (i : Instr) (s : State) (addr : DWord) (n align : Nat) (s1 : State) (val : Nat) : Prop :=
  addr.toNat % align = 0 ∧ TakesEffect s (viewAt s c w) (blockAt c w i addr n)
    ∧ s1 = noted s (viewAt s c w) (blockAt c w i addr n)
    ∧ val = valueAt c.loom (byteAt s1) (s1.spots (viewAt s c w) ⟨0, addr, n, 1⟩)

/-- A tensor or index record is read: 104 bytes aligned to 128 (R354). -/
def ReadsRecord (c : Issue) (w : Weft) (i : Instr) (s : State) (addr : DWord) (s1 : State) (r : BitVec 832) : Prop :=
  ∃ n, Reads c w i s addr 104 128 s1 n ∧ r = BitVec.ofNat 832 n

/-- A record's index record is read, where it names one (R356). -/
def ReadsIndex (c : Issue) (w : Weft) (i : Instr) (s : State) (t : Tensor) (s1 : State) (r : BitVec 832) : Prop :=
  if t.hasIndex then ReadsRecord c w i s t.irec s1 r else s1 = s ∧ r = 0

/-! ## An operation enters its engine -/

/-- An operation as an issue forms it, before it has captured anything: its instruction and word, its weft, its context and
team, its PC, lane L and active lanes (R263). -/
def baseOp (s : State) (c : Issue) (w : Weft) (i : Instr) : Op :=
  { id := s.fresh, loom := c.loom, slot := c.slot, ctx := w.ctx, team := (s.teamOf c.loom w).map (·.id), instr := i,
    word := c.word, pc := c.pc, legacy := c.legacy, lane := laneL c w i, mask := c.act w i, opa := 0, opb := 0, opc := 0,
    defs := [], block := 0, recs := [], total := 0, flags := 0, result := 0, tag := 0, sent := [], acked := [],
    refused := none, contributor := 0, parts := [], merging := false, discard := false, early := [], route := [],
    enter := false, started := false, header := none, partRecs := [] }

/-- Eight captured definitions, zero where there is none (R420). -/
def eightDefs (ds : List DWord) : List DWord := (List.range 8).map fun k => ds.getD k 0

/-- The definition of a definition's scale slot; zero where it names none (R67). -/
def scaleOf (w : Weft) (d : DWord) : DWord :=
  if d.extractLsb' 40 6 = 0 then 0 else w.fmt (d.extractLsb' 46 4)

/-- The footprint that an operation enters in the range scoreboard: none where no unit is left (R125, R196, R198). -/
def footprintOf (s : State) (o : Op) (spans : List Span) : List Range :=
  if o.total ≤ s.progress o then [] else (s.opView o).footprint o.id spans

/-- A weft whose operation has entered: its class counter is one more (R393), and the records of an operation that may append
any come behind those of the weft's earlier ones (R86). -/
def opened (w : Weft) (o : Op) : Weft :=
  { w with oc := w.oc.set o.cls (w.oc.get o.cls + 1),
           recQ := if recording o.instr then w.recQ ++ [{ op := some o.id, recs := [] }] else w.recQ }

/-- The state after an operation has entered its engine from `s0`: its queue holds it last, its footprint stands in the range
scoreboard, its class counter is one more, and, where `mark` or where it may write to a page that is not UO, its team's
side-effect bit is set (R198, R263, R393, R427). -/
def entered (s0 : State) (c : Issue) (w : Weft) (o : Op) (spans : List Span) (mark : Bool) : State :=
  let s1 := s0.modLoom c.loom fun y =>
    { (y.setQueue o.cls (y.queue o.cls ++ [o])) with ranges := y.ranges ++ footprintOf s0 o spans }
  let s2 := s1.setWeft c.loom c.slot (opened w o)
  let s3 := { s2 with fresh := s2.fresh + 1 }
  if mark ∨ s0.writesOut (s0.opView o) spans = true then s3.sideEffect c.loom w else s3

/-- The operation issues from `s0` (Rules above), or, where the range scoreboard has no room for its footprint, waits
(R198). -/
def Accepted (s : State) (i : Instr) (c : Issue) (w : Weft) (s0 : State) (o : Op) (spans : List Span) (mark : Bool) : Prop :=
  if (s0.loom c.loom).ranges.length + (footprintOf s0 o spans).length ≤ 128 then
    Does s i c (entered s0 c w o spans mark) (opened w o)
  else Holds s i

/-- What every engine operation does first (R57, R329): nothing with no active lane; it waits while its queue is full. -/
def Enters (s : State) (i : Instr) (c : Issue) (w : Weft) (cls : OcClass) (rest : Prop) : Prop :=
  (c.act w i = 0 → WritesNothing s i c w)
  ∧ (c.act w i ≠ 0 → 32 ≤ (s.loom c.loom).queueLoad cls → Holds s i)
  ∧ (c.act w i ≠ 0 → (s.loom c.loom).queueLoad cls < 32 → rest)

/-! ## The blocks and records of each operation -/

/-- What a copy, gather or scatter captures from its block, records and index records: its operation, and the code of the
record that it does not index (R266, R356, R420). -/
def copyCaptures (s : State) (c : Issue) (w : Weft) (i : Instr) (t : TileSide) (n : BitVec 4) (a : Reg) (blk : Nat)
    (r0 r1 i0 i1 : BitVec 832) : Op × Nat :=
  let isScatter := match i with | .scatter .. => true | _ => false
  let own := if isScatter then i1 else i0
  let other := if isScatter then i0 else i1
  let slotDef (r : BitVec 832) : DWord := w.fmt (r.extractLsb' 64 4)
  let d0 := if t = .ts then w.fmt n else slotDef r0
  let d1 := if t = .td then w.fmt n else slotDef r1
  let o : Op :=
    { baseOp s c w i with opa := w.pair a (laneL c w i), block := BitVec.ofNat 512 blk, recs := [r0, r1, own],
                          defs := eightDefs [d0, d1, slotDef own, scaleOf w d0, scaleOf w d1] }
  ({ o with total := o.copyPlan.total },
    (Tensor.ofBits (if isScatter then r0 else r1)).code (Tensor.ofBits other) (slotDef other))

/-- Slots of a matrix block: fields of R291 and of R304. -/
def blockSlots (i : Instr) (b : BitVec 512) : List (BitVec 4) :=
  match i with
  | .delta .. => [b.extractLsb' 41 4, b.extractLsb' 45 4, b.extractLsb' 49 4, b.extractLsb' 53 4, b.extractLsb' 57 4]
  | _ => [b.extractLsb' 20 4, b.extractLsb' 24 4]

/-- The operand that a row operation captures, and the definitions (R306 to R308). -/
def rowCaptures (w : Weft) (lane : Nat) : Instr → Option (DWord × List DWord)
  | .aspill _ _ a _ | .afill _ _ a _ => some (w.pair a lane, [])
  | .ascale _ n _ a _ => some ((w.lane a lane).setWidth 64, [w.fmt n, scaleOf w (w.fmt n)])
  | .acvt _ n _ _ => some (0, [w.fmt n, scaleOf w (w.fmt n)])
  | _ => none

/-- A matrix-engine operation that has captured what it needs: held by an earlier one of its team that touches the same slots
or ranges (R286), refused by its checks, or entered (R287). -/
def MatrixIssues (s : State) (i : Instr) (c : Issue) (w : Weft) (s0 : State) (o : Op) : Prop :=
  (s0.interlocked c.loom w opTouch (opTouch o) s0.fresh = true → Holds s i)
  ∧ (s0.interlocked c.loom w opTouch (opTouch o) s0.fresh = false → ∀ e, s0.matrixCheck o = some e → Traps s i c w e)
  ∧ (s0.interlocked c.loom w opTouch (opTouch o) s0.fresh = false → s0.matrixCheck o = none →
      Accepted s i c w s0 { o with total := s0.matrixTotal o } (s0.matrixSpans o) false)

end Sys2Proof.Rules
end

