-- ==== Sys2Proof/Rules/Heddle.lean ====
section
/-! DEFINITION. What arrives at a heddle and what its phase delivers (13 R341 to R343). -/

namespace Sys2Proof.Rules

open Sys2Proof.Machine

/-- The heddle number, the result register and the arrival of each instruction (R341, R343): hvote brings its active lanes and
those that vote, hred the element or the word of lane L, a source of hbcast its words. -/
def arrivalOf (c : Issue) (w : Weft) (i : Instr) : Option (BitVec 8 × Reg × Arrival) :=
  let act := c.act w i
  match i with
  | .hbar _ hd => some (hd, 255, { op := .hbar, sub := 0, def_ := 0, val := none, src := none })
  | .hvote _ m d a hd =>
    let votes := act &&& maskOf fun j => (w.lane a j).getLsbD 0
    some (hd, d, { op := .hvote, sub := match m with | .any => 0 | .all => 1 | .cnt => 2, def_ := 0,
                   val := some (act ++ votes), src := none })
  | .hred _ op n d a hd =>
    let word := (w.lane a (laneL c w i)).toNat
    let whole (k : Nat) : Option (BitVec 8 × Reg × Arrival) :=
      some (hd, d, { op := .hred, sub := k, def_ := 0, val := some (BitVec.ofNat 64 word), src := none })
    let elem (k : Nat) : Option (BitVec 8 × Reg × Arrival) :=
      if (slotOf w n).kind ≠ 0 ∧ (slotOf w n).kind ≠ 1 then none
      else some (hd, d, { op := .hred, sub := k, def_ := w.fmt n,
                          val := some (BitVec.ofNat 64 (word % 2 ^ (slotOf w n).width)), src := none })
    match op with
    | .sum => elem 0 | .min => elem 1 | .max => elem 2
    | .iadd => whole 3 | .and => whole 4 | .or => whole 5 | .xor => whole 6
  | .hbcast _ src d a hd =>
    some (hd, d, { op := .hbcast, sub := 0, def_ := 0, val := none,
                   src := if src then some ((List.range 32).map fun j => if act.getLsbD j then w.lane a j else 0) else none })
  | _ => none

/-- The values of a phase, in ascending order of weft numbers, as it has them: low words of votes are the lanes that vote, high
words the active lanes. -/
def phaseWords (e : Heddle) : List Nat := e.vals.map fun p => p.2.toNat

/-- The result that a phase writes in lane j of each member (R343); a fold with a format is `hredFold`'s. -/
def phaseResult (e : Heddle) (j : Nat) : Word :=
  let vs := phaseWords e
  match e.op, e.sub with
  | .hvote, 0 => if ∃ x ∈ vs, x % 2 ^ 32 ≠ 0 then 1 else 0
  | .hvote, 1 => if ∀ x ∈ vs, x % 2 ^ 32 = x / 2 ^ 32 then 1 else 0
  | .hvote, _ => BitVec.ofNat 32 (vs.map fun x => ((List.range 32).filter fun k => x.testBit k).length).sum
  | .hred, 3 => BitVec.ofNat 32 vs.sum
  | .hred, 4 => BitVec.ofNat 32 (vs.tail.foldl (· &&& ·) (vs.headD 0))
  | .hred, 5 => BitVec.ofNat 32 (vs.foldl (· ||| ·) 0)
  | .hred, 6 => BitVec.ofNat 32 (vs.foldl (· ^^^ ·) 0)
  | .hred, k => BitVec.ofNat 32 (hredFold k (Fmt.ofDef e.def_) vs).1
  | .hbcast, _ => match e.source with | none => 0 | some (_, ws) => ws.getD j 0
  | _, _ => 0

end Sys2Proof.Rules
end

