-- ==== Sys2Proof/Rules/Integer.lean ====
section
/-! DEFINITION. The results of the integer, logic, bit-field and immediate instructions and of lane exchange, as R139 to R154
state them: for each instruction its destination and the word that it writes in lane j. -/

namespace Sys2Proof.Rules

open Sys2Proof.Machine

/-- A word of an integer, modulo 2^32. -/
def wordOf (n : Int) : Word := BitVec.ofInt 32 n
/-- The nearest value of a range. -/
def clampTo (lo hi n : Int) : Int := max lo (min hi n)
/-- A word from its bits. -/
def wordOfBits (f : Nat → Bool) : Word := BitVec.ofFnLE fun (j : Fin 32) => f j.val
/-- The value of a word, signed or not. -/
def valueOf (signed : Bool) (x : Word) : Int := if signed then x.toInt else x.toNat

/-- The sum or difference `u` of unsigned and `v` of signed values, by the saturation mode (R140). -/
def saturated (m : Sat) (u v : Int) : Word :=
  match m with
  | .wrap => wordOf u
  | .sats => wordOf (clampTo (-(2 ^ 31)) (2 ^ 31 - 1) v)
  | .satu => wordOf (clampTo 0 (2 ^ 32 - 1) u)

/-- R140 and R141: iadd to ineg. -/
def arithmeticRule (w : Weft) : Instr → Option (Reg × (Nat → Word))
  | .iadd _ d a b m => some (d, fun j => saturated m ((w.lane a j).toNat + (w.lane b j).toNat)
      ((w.lane a j).toInt + (w.lane b j).toInt))
  | .isub _ d a b m => some (d, fun j => saturated m ((w.lane a j).toNat - (w.lane b j).toNat)
      ((w.lane a j).toInt - (w.lane b j).toInt))
  | .imul _ d a b => some (d, fun j => wordOf ((w.lane a j).toNat * (w.lane b j).toNat))
  | .imulh _ d a b s => some (d, fun j => wordOf ((valueOf s (w.lane a j) * valueOf s (w.lane b j)).fdiv (2 ^ 32)))
  | .imad _ d a b c => some (d, fun j => wordOf ((w.lane a j).toNat * (w.lane b j).toNat + (w.lane c j).toNat))
  | .idiv _ d a b s => some (d, fun j =>
      if w.lane b j = 0 then 0xFFFFFFFF else wordOf ((valueOf s (w.lane a j)).tdiv (valueOf s (w.lane b j))))
  | .irem _ d a b s => some (d, fun j =>
      if w.lane b j = 0 then w.lane a j else wordOf ((valueOf s (w.lane a j)).tmod (valueOf s (w.lane b j))))
  | .imin _ d a b s => some (d, fun j => if valueOf s (w.lane a j) ≤ valueOf s (w.lane b j) then w.lane a j else w.lane b j)
  | .imax _ d a b s => some (d, fun j => if valueOf s (w.lane b j) ≤ valueOf s (w.lane a j) then w.lane a j else w.lane b j)
  | .iabs _ d a => some (d, fun j => wordOf ((w.lane a j).toInt.natAbs))
  | .ineg _ d a => some (d, fun j => wordOf (-((w.lane a j).toNat : Int)))
  | _ => none

/-- mov, and iadd to ineg: instructions of which a statement speaks of their operands at a message port (R335). -/
def portRule (w : Weft) (i : Instr) : Option (Reg × (Nat → Word)) :=
  match i with
  | .mov _ d a => some (d, w.lane a)
  | i => arithmeticRule w i

/-- A shift count (R142): y unsigned, modulo 32 under the legacy bit (R108). -/
def countOf (legacy : Bool) (y : Word) : Nat := if legacy then y.toNat % 32 else y.toNat

/-- R142's functions of a word and a count. -/
def shiftedLeft (x : Word) (n : Nat) : Word := if n < 32 then wordOf (x.toNat * 2 ^ n) else 0
def shiftedRight (x : Word) (n : Nat) : Word := if n < 32 then wordOf (x.toNat / 2 ^ n) else 0
def shiftedSigned (x : Word) (n : Nat) : Word :=
  if n < 32 then wordOf (x.toInt.fdiv (2 ^ n)) else if x.getLsbD 31 then 0xFFFFFFFF else 0
/-- x rotated left by n modulo 32: bit j comes from bit j − n. -/
def rotated (x : Word) (n : Nat) : Word := wordOfBits fun j => x.getLsbD ((j + 32 - n % 32) % 32)

/-- R140 and R142: and to brev. -/
def logicRule (c : Issue) (w : Weft) : Instr → Option (Reg × (Nat → Word))
  | .iand _ d a b => some (d, fun j => wordOfBits fun k => (w.lane a j).getLsbD k && (w.lane b j).getLsbD k)
  | .ior _ d a b => some (d, fun j => wordOfBits fun k => (w.lane a j).getLsbD k || (w.lane b j).getLsbD k)
  | .ixor _ d a b => some (d, fun j => wordOfBits fun k => (w.lane a j).getLsbD k != (w.lane b j).getLsbD k)
  | .inot _ d a => some (d, fun j => wordOfBits fun k => !(w.lane a j).getLsbD k)
  | .logic3 _ d a b cc t => some (d, fun j => wordOfBits fun k =>
      t.getLsbD (4 * ((w.lane a j).getLsbD k).toNat + 2 * ((w.lane b j).getLsbD k).toNat
        + ((w.lane cc j).getLsbD k).toNat))
  | .shl _ d a b => some (d, fun j => shiftedLeft (w.lane a j) (countOf c.legacy (w.lane b j)))
  | .shr _ d a b => some (d, fun j => shiftedRight (w.lane a j) (countOf c.legacy (w.lane b j)))
  | .sar _ d a b => some (d, fun j => shiftedSigned (w.lane a j) (countOf c.legacy (w.lane b j)))
  | .rot _ d a b => some (d, fun j => rotated (w.lane a j) (w.lane b j).toNat)
  | .popc _ d a => some (d, fun j => wordOf ((List.range 32).countP fun k => (w.lane a j).getLsbD k))
  | .clz _ d a => some (d, fun j => if w.lane a j = 0 then 32 else wordOf (31 - Nat.log2 (w.lane a j).toNat))
  | .ctz _ d a => some (d, fun j => wordOf (((List.range 32).find? fun k => (w.lane a j).getLsbD k).getD 32))
  | .brev _ d a => some (d, fun j => wordOfBits fun k => (w.lane a j).getLsbD (31 - k))
  | _ => none

/-- Position p and clipped length L of R143's field. -/
def bitRange (y : Word) : Nat × Nat :=
  let p := y.toNat % 256
  (p, if p < 32 then min (y.toNat / 256 % 256) (32 - p) else 0)

/-- icmp's condition (R144). -/
def conditionHolds (k : Cond) (x y : Int) : Bool :=
  match k with
  | .eq => x = y | .ne => x ≠ y | .lt => x < y | .le => x ≤ y | .gt => x > y | .ge => x ≥ y

/-- R140, R143 and R144: bfx to mov. -/
def selectRule (w : Weft) : Instr → Option (Reg × (Nat → Word))
  | .bfx _ d a b s => some (d, fun j =>
      let (p, l) := bitRange (w.lane b j)
      if l = 0 then 0
      else
        let f := (w.lane a j).toNat / 2 ^ p % 2 ^ l
        if s ∧ f.testBit (l - 1) then wordOf ((f : Int) - 2 ^ l) else wordOf f)
  | .bfi _ d a b c => some (d, fun j =>
      let (p, l) := bitRange (w.lane b j)
      if l = 0 then w.lane c j
      else wordOfBits fun k => if p ≤ k ∧ k < p + l then (w.lane a j).getLsbD (k - p) else (w.lane c j).getLsbD k)
  | .icmp _ d a b k s => some (d, fun j =>
      if conditionHolds k (valueOf s (w.lane a j)) (valueOf s (w.lane b j)) then 1 else 0)
  | .sel _ d a b c => some (d, fun j => if (w.lane c j).getLsbD 0 then w.lane a j else w.lane b j)
  | .mov _ d a => some (d, fun j => w.lane a j)
  | _ => none

/-- R147: the immediate forms but lea; k is imm28 sign-extended to 32 bits. -/
def immediateRule (c : Issue) (w : Weft) : Instr → Option (Reg × (Nat → Word))
  | .iaddImm _ d a k => some (d, fun j => wordOf ((w.lane a j).toNat + k.toInt))
  | .imulImm _ d a k => some (d, fun j => wordOf ((w.lane a j).toNat * k.toInt))
  | .andImm _ d a k => some (d, fun j => wordOfBits fun n => (w.lane a j).getLsbD n && (k.signExtend 32).getLsbD n)
  | .orImm _ d a k => some (d, fun j => wordOfBits fun n => (w.lane a j).getLsbD n || (k.signExtend 32).getLsbD n)
  | .xorImm _ d a k => some (d, fun j => wordOfBits fun n => (w.lane a j).getLsbD n != (k.signExtend 32).getLsbD n)
  | .shlImm _ d a k => some (d, fun j => shiftedLeft (w.lane a j) (countOf c.legacy (k.signExtend 32)))
  | .shrImm _ d a k => some (d, fun j => shiftedRight (w.lane a j) (countOf c.legacy (k.signExtend 32)))
  | .sarImm _ d a k => some (d, fun j => shiftedSigned (w.lane a j) (countOf c.legacy (k.signExtend 32)))
  | .rotImm _ d a k => some (d, fun j => rotated (w.lane a j) (k.signExtend 32).toNat)
  | .movi _ d k => some (d, fun _ => wordOf k.toInt)
  | .movhi _ d a k => some (d, fun j => wordOf (k.toNat % 2 ^ 16 * 2 ^ 16 + (w.lane a j).toNat % 2 ^ 16))
  | _ => none

/-- R145 and R147: the pair forms. -/
def pairRule (w : Weft) : Instr → Option (Reg × (Nat → DWord))
  | .iadd64 _ d a b => some (d, fun j => BitVec.ofNat 64 ((w.pair a j).toNat + (w.pair b j).toNat))
  | .imad64 _ d a b c s => some (d, fun j =>
      BitVec.ofInt 64 (valueOf s (w.lane a j) * valueOf s (w.lane b j) + (w.pair c j).toNat))
  | .shl64 _ d a b => some (d, fun j =>
      if (w.lane b j).toNat ≥ 64 then 0 else BitVec.ofNat 64 ((w.pair a j).toNat * 2 ^ (w.lane b j).toNat))
  | .lea _ d a k => some (d, fun j => BitVec.ofInt 64 ((w.pair a j).toNat + k.toInt))
  | _ => none

/-- The value that lane j reads from a system register (R129). -/
def systemValue (s : State) (c : Issue) (w : Weft) (act : Word) (r : SysReg) (j : Nat) : Nat :=
  match r with
  | .lane => j
  | .weft => w.num + 2 ^ 16 * c.slot
  | .team => match s.teamOf c.loom w with | none => 0 | some t => t.x + 2 ^ 20 * t.y + 2 ^ 40 * t.z
  | .loom => c.loom
  | .die => c.loom / 48
  | .node => s.node.toNat
  | .clock => s.clock.toNat
  | .active => act.toNat
  | .role => match w.role with | .vector => 0 | .copy => 1 | .matrix => 2
  | .allot => w.allot
  | .prio => c.prio.toNat
  | .ctx => w.ctx + if w.sv then 2 ^ 16 else 0
  | .fpx => w.fpx.toNat

/-- The active lanes below i. -/
def activeBelow (act : Word) (i : Nat) : List Nat := (List.range i).filter fun j => act.getLsbD j

/-- m of R150. -/
def ballotOf (w : Weft) (a : Reg) (act : Word) : Word :=
  wordOfBits fun j => act.getLsbD j && (w.lane a j).getLsbD 0

/-- The lowest active lane, if there is one (R57). -/
def lowestActive (act : Word) : Option Nat := (List.range 32).find? fun j => act.getLsbD j

/-- R149 to R154: lane exchange. -/
def laneRule (c : Issue) (w : Weft) (i : Instr) : Option (Reg × (Nat → Word)) :=
  let act := c.act w i
  match i with
  | .shfl _ d a b m => some (d, fun j =>
      let y := (w.lane b j).toNat
      w.lane a (match m with
        | .idx => y % 32
        | .up => if y ≤ j then j - y else j
        | .down => if j + y ≤ 31 then j + y else j
        | .xor => j ^^^ (y % 32)))
  | .ballot _ d a => some (d, fun _ => ballotOf w a act)
  | .vote _ d a m => some (d, fun _ =>
      let b := ballotOf w a act
      match m with
      | .any => if b ≠ 0 then 1 else 0
      | .all => if b = act then 1 else 0
      | .eq => if b = 0 ∨ b = act then 1 else 0)
  | .lprefix _ d a => some (d, fun j => wordOf ((activeBelow act j).map fun k => (w.lane a k).toNat).sum)
  | .bcast _ d a b => some (d, fun _ => w.lane a ((w.lane b ((lowestActive act).getD 0)).toNat % 32))
  | .elect _ d => some (d, fun j => if lowestActive act = some j then 1 else 0)
  | _ => none

end Sys2Proof.Rules
end

