-- ==== Sys2Proof/Rules/Teams.lean ====
section
/-! DEFINITION. What a placement makes, how a team is pre-empted, what a save keeps and a restore gives back, and what the context
commands leave (02 R35, R45, R46, R63, R64, R66, 16 R426, R428 to R430, 17 R455). -/

namespace Sys2Proof.Rules

open Sys2Proof.Machine

/-! ## Placement (R35, R45, R46, R53, R66) -/

/-- A placed weft starts with one entry at the entry PC, of priority 4095, age 0 and every lane; its registers read zero (log entry
4); f0 is binary32, and f1 to f15 are the image's, reserved bits zero. -/
structure FreshWeft (x : Launch) (h n : Nat) (w : Weft) : Prop where
  held : w.held = [{ pc := pairTarget x.lrec.entry, mask := 0xFFFFFFFF, prio := 4095, age := 0 }]
  spilled : w.spilled = []
  num : w.num = n
  ctx : w.ctx = x.ctx
  team : w.team = some h
  role : w.role = match x.lrec.roles.getD n 0 with | 1 => Role.copy | 2 => .matrix | _ => .vector
  allot : w.allot = x.lrec.allot
  user : w.sv = false
  regs : ∀ r i, w.lane r i = 0
  slot0 : w.fmt 0 = binary32
  slots : ∀ k < 15, x.lrec.fmts.length = 15 → w.fmt (BitVec.ofNat 4 (k + 1)) = cleanDef (x.lrec.fmts.getD k 0)
  flags : w.fpx = 0
  idle : w.wait = .none ∧ w.port = none ∧ w.frame = none ∧ w.oc = {}

/-- Placing team `id` of launch x on loom l under handle h: in the slots given stand its wefts, its team has the coordinates of its
index, a zeroed share, empty rings and no claims, and heddle 0 has every weft. -/
def PlacementMakes : Prop :=
  ∀ (s : State) (l h : Nat) (x : Launch) (id : TeamId) (slots bases : List Nat),
    slots.Nodup → slots.length = x.lrec.wefts → bases.length = 1 + x.lrec.wefts →
    let t := s.placeTeam l h x id slots bases
    let base := bases.headD 0
    (∀ n < x.lrec.wefts, ∃ w, t.weft? l (slots.getD n 0) = some w ∧ FreshWeft x h n w)
    ∧ (∃ tm, t.team? l h = some tm ∧ tm.id = id ∧ tm.ctx = x.ctx
        ∧ tm.x = id.n % x.lrec.gx ∧ tm.y = id.n / x.lrec.gx % x.lrec.gy ∧ tm.z = id.n / x.lrec.gx / x.lrec.gy
        ∧ tm.slots = slots ∧ tm.shareBase = base ∧ tm.shareSize = x.lrec.lmem ∧ tm.tiles = [] ∧ tm.accs = []
        ∧ tm.rings = x.lrec.stages.map (fun n => List.replicate n { phase := false, count := 0, expected := 1 })
        ∧ tm.sideEffect = false ∧ tm.stop = none ∧ tm.placedAt = s.clock)
    ∧ (∀ a, base ≤ a → a < base + x.lrec.lmem → t.readLm l a = 0)
    ∧ (1 + x.lrec.hedmap.length ≤ ((s.loom l).freeHeddles (1 + x.lrec.hedmap.length)).length →
      ∃ k e, SMap.find? (t.loom l).heddles k = some e ∧ e.team = h ∧ e.num = 0 ∧ e.mask = slots ∧ e.acnt = 0)
    ∧ t.dist.waiting = none

/-! ## Pre-emption (R63, R426, R428) -/

/-- The way of R426: drain where the team has nearly issued what its launch expects, flush where it may start again, save where its
image is usable. -/
def WayRule : Prop :=
  ∀ (s : State) (t : Team),
    let expect := ((s.launch? t.id.queue (BitVec.ofNat 64 t.id.count)).map fun x => x.lrec.expect).getD 0
    let drains : Prop := expect ≠ 0 ∧ t.issued < expect ∧ expect - t.issued < s.mgmt.settings.drain ∧ t.drained = false
    let flushes : Prop := t.idem = true ∧ t.sideEffect = false
    let saves : Prop := s.imageState t.ctx t.swap t.imageBytes ≠ .unusable
    (drains → s.way t = some .drain) ∧ (¬ drains → flushes → s.way t = some .flush)
    ∧ (¬ drains → ¬ flushes → saves → s.way t = some .save) ∧ (¬ drains → ¬ flushes → ¬ saves → s.way t = none)

/-- A pre-empted team: drained teams have Q more cycles, a flushed one stops and its operations are discarded, a saved one stops; one
that has stopped, has no frontier or has no way is left alone. -/
def PreemptRule : Prop :=
  ∀ (s : State) l h t, s.team? l h = some t →
    let free : Prop := t.stop = none ∧ s.frontierless l h = false
    (¬ free ∨ s.way t = none → s.preemptTeam l h = s)
    ∧ (free → s.way t = some .drain →
      s.preemptTeam l h = s.modTeam l h fun q => { q with drainUntil := some (s.clock + BitVec.ofNat 64 s.quantum) })
    ∧ (free → s.way t = some .flush → ∀ tm, (s.preemptTeam l h).team? l h = some tm → tm.stop = some .flush)
    ∧ (free → s.way t = some .save → s.preemptTeam l h = s.setStop l h fun o => o.getD .save)

/-- Which teams are pre-empted for a pick that no loom has room for (R63): those of a loom that have been resident for Q cycles,
longest first, as many as make room, on the loom that needs the fewest. -/
def ChoiceRule : Prop :=
  (∀ (s : State) l h, h ∈ s.eligible l ↔ ∃ t, (h, t) ∈ (s.loom l).teams ∧ s.quantum ≤ (s.clock - t.placedAt).toNat
    ∧ t.stop = none ∧ s.way t ≠ none)
  ∧ (∀ (s : State) l, ((s.loom l).teams.map (·.1)).Nodup → (s.eligible l).Pairwise fun a b =>
    ∀ ta tb, s.team? l a = some ta → s.team? l b = some tb → ta.placedAt ≤ tb.placedAt)
  ∧ (∀ (s : State) p n, s.pickNeed p = some n →
    (s.someFits n = true ∨ s.departing = true ∨ s.choosePreempt n = none → s.preemptCheck p = s)
    ∧ ∀ l hs, s.someFits n = false → s.departing = false → s.choosePreempt n = some (l, hs) →
      s.preemptCheck p = hs.foldl (fun u h => u.preemptTeam l h) { s with dist := { s.dist with preempting := some (l, hs) } })
  ∧ (∀ (s : State) n l hs, s.choosePreempt n = some (l, hs) →
    (∃ x rest, (l, x) ∈ s.looms ∧ s.eligible l = hs ++ rest ∧ ((hs.foldl Loom.without x).fits n).isSome = true)
    ∧ ∀ l' x' hs' rest', (l', x') ∈ s.looms → s.eligible l' = hs' ++ rest' →
        ((hs'.foldl Loom.without x').fits n).isSome = true → hs.length ≤ hs'.length)

/-! ## Save and restore (R64, R310, R429, R430) -/

/-- The weft that a restore places is the one that the save took, but for its place: a wait whose instruction has not issued is gone,
and it issues again. -/
structure SameWeft (w w' : Weft) (h : Nat) : Prop where
  num : w'.num = w.num
  regs : w'.regs = w.regs ∧ w'.poison = w.poison ∧ w'.soft = w.soft
  fmts : w'.fmts = w.fmts ∧ w'.fpx = w.fpx
  frontier : w'.held = w.held ∧ w'.spilled = w.spilled
  fixed : w'.ctx = w.ctx ∧ w'.role = w.role ∧ w'.allot = w.allot ∧ w'.sv = w.sv
  ops : w'.oc = w.oc ∧ w'.invs = w.invs ∧ w'.deferred = w.deferred ∧ w'.port = w.port ∧ w'.frameLanes = w.frameLanes
  team : w'.team = some h
  wait : w'.wait = match w.wait with | .await .. | .vgrow .. | .sbWdr .. | .full .. => .none | q => q

/-- A team that loom x0 saved from handle h0 and that is placed on loom l under handle h: each of its wefts stands in one of the slots,
and each of its heddles stands, with the same state, and holds the same wefts. -/
def RestoreGives : Prop :=
  ∀ (x : Loom) (l0 h0 : Nat) (tm : Team) (s : State) (l h : Nat) (slots bases : List Nat),
    let v := x.saveOf l0 h0 tm
    let t := s.restoreTeam l h v slots bases
    let mine (p : Nat × Weft) : Prop := p ∈ x.wefts ∧ p.2.team = some h0
    (∀ p q, mine p → mine q → p.2.num = q.2.num → p = q) → (x.wefts.map (·.1)).Nodup →
    slots.Nodup → slots.length = v.wefts.length → 1 + v.wefts.length ≤ bases.length →
    (∀ p, mine p → ∃ k w', k ∈ slots ∧ t.weft? l k = some w' ∧ SameWeft p.2 w' h)
    ∧ (v.heddles.length ≤ ((s.loom l).freeHeddles v.heddles.length).length →
      ∀ a e, (a, e) ∈ x.heddles → e.team = h0 → ∃ a' e', SMap.find? (t.loom l).heddles a' = some e'
        ∧ e' = { e with team := h, mask := e'.mask, arrived := e'.arrived }
        ∧ ∀ p, mine p → p.1 ∈ e.mask → ∃ k w', k ∈ e'.mask ∧ t.weft? l k = some w' ∧ w'.num = p.2.num)

/-- A range that was working when its team was saved: the image holds its cells, and the restore puts them into new tiles, mapped under
the same logical numbers (R310). -/
def RangeGives : Prop :=
  (∀ (x : Loom) first o, o.state ≠ .attached → (x.savedRange first o).first = first
    ∧ (x.savedRange first o).own = { o with tiles := [] }
    ∧ ∀ q < o.tiles.length, ∀ c < 4096,
        SMap.getD (x.savedRange first o).cells (4096 * q + c) 0 = SMap.getD x.cells (4096 * o.tiles.getD q 0 + c) 0)
  ∧ ∀ (s : State) l h v (r : SavedRange) s1 tm, r.own.state ≠ .attached → (r.cells.map (·.1)).Nodup →
    s.team? l h = some tm → s.restoreRange l h v r = some s1 →
    ∃ e o tm', SMap.find? (s1.loom l).owners e = some o ∧ o = { r.own with tiles := o.tiles, team := h }
      ∧ o.tiles.length = r.own.t ∧ s1.team? l h = some tm'
      ∧ (∀ q < r.own.t, ∀ c < 4096,
          SMap.getD (s1.loom l).cells (4096 * o.tiles.getD q 0 + c) 0 = SMap.getD r.cells (4096 * q + c) 0)
      ∧ ∀ k < r.own.t, SMap.find? tm'.accs (r.first + k) = some (e, k)

/-- The later steps of a restore leave the wefts and heddles of the loom as they are. -/
def RestoreKeeps : Prop :=
  (∀ (s s1 : State) l h v rs, s.restoreRanges l h v rs = some s1 →
    (∀ k, s1.weft? l k = s.weft? l k) ∧ (s1.loom l).heddles = (s.loom l).heddles)
  ∧ (∀ (s : State) l h v, (∀ k, (s.restoreTiles l h v).weft? l k = s.weft? l k)
    ∧ ((s.restoreTiles l h v).loom l).heddles = (s.loom l).heddles)
  ∧ ∀ (s : State) l h base v, (∀ k, (s.restoreEntries l h base v).weft? l k = s.weft? l k)
    ∧ ((s.restoreEntries l h base v).loom l).heddles = (s.loom l).heddles

/-! ## Context commands (R455) -/

/-- No translation buffer, L1 or instruction cache holds anything of a context number, and no fill of it is under way. -/
def NothingHeld (t : State) (c : Nat) : Prop :=
  (∀ ag, ∀ e ∈ t.tlb ag, e.ctx ≠ c)
  ∧ ∀ p ∈ t.looms, (∀ q ∈ p.2.l1, q.1 ≠ c) ∧ (∀ q ∈ p.2.icache, q.ctx ≠ c) ∧ ∀ q ∈ p.2.ifills, q.1 ≠ c

/-- A switch out saves each team of the context that has a frontier and has not stopped: it stops for the save, or is terminated where
its image is unusable (R430). -/
def SwitchRule : Prop :=
  ∀ (s : State) l h t, s.team? l h = some t →
    (t.stop ≠ none ∨ s.frontierless l h = true → s.switchTeam l h t = s)
    ∧ (t.stop = none → s.frontierless l h = false → s.imageState t.ctx t.swap t.imageBytes = .unusable →
      s.switchTeam l h t = s.terminateTeam l h)
    ∧ (t.stop = none → s.frontierless l h = false → s.imageState t.ctx t.swap t.imageBytes ≠ .unusable →
      ∀ tm, (s.switchTeam l h t).team? l h = some tm → tm.stop = some .save)

/-- How a switch out and a teardown that run come to their end. A switch out waits for the teams and record wefts of its context, and
then until its pinned ranges are spilled. A teardown waits for the operations that its context has in flight, and then nothing of
the context is left. -/
def CommandEnds : Prop :=
  (∀ (s : State) c x, (s.contexts.map (·.1)).Nodup → s.context? c = some x →
    (∀ p ∈ s.contexts, p.1 ≠ c → p.2.cmd = .none) →
    (x.cmd = .none → s.contextsAll = s) ∧ (x.cmd = .switchOut → s.contextsAll = s.switchOutStep c)
    ∧ (x.cmd = .teardown → s.contextsAll = s.teardownStep c))
  ∧ (∀ (s : State) c x, s.context? c = some x →
    let idle : Prop := s.ctxTeams c = [] ∧ s.ctxRecords c = [] ∧ s.respondersLeft c = false
    (¬ idle → s.switchOutStep c = s)
    ∧ (idle → ∀ s1, s.spillCtx c = (s1, false) → s.switchOutStep c = s1)
    ∧ (idle → ∀ s1, s.spillCtx c = (s1, true) → ∃ y, (s.switchOutStep c).context? c = some y ∧ y = { x with cmd := .none }
        ∧ (s.switchOutStep c).mgmt.ctxStatus = 0))
  ∧ (∀ (s : State) c, (s.ctxOpsLeft c = true → s.teardownStep c = s)
    ∧ (s.ctxOpsLeft c = false →
      let t := s.teardownStep c
      t.mgmt.ctxStatus = 0 ∧ t.context? c = none ∧ (∀ x ∈ t.launches, x.ctx ≠ c) ∧ (∀ f ∈ t.fetches, f.ctx ≠ c)
      ∧ (∀ p ∈ t.census, p.2.ctx ≠ c) ∧ (∀ p ∈ t.bankArms, p.2.ctx ≠ c)
      ∧ ∀ p ∈ t.looms, (∀ q ∈ p.2.wefts, q.2.ctx ≠ c) ∧ (∀ q ∈ p.2.owners, q.2.ctx ≠ c)
        ∧ (∀ q ∈ p.2.arms, q.2.ctx ≠ c) ∧ (∀ q ∈ p.2.spawns, q.ctx ≠ c) ∧ (∀ r ∈ p.2.ready, r.1 ≠ c)
        ∧ ∀ q ∈ p.2.board, q.2.state ≠ .free → q.2.ctx ≠ c))

end Sys2Proof.Rules
end

