-- ==== Sys2Proof/Rules/Units.lean ====
section
/-! DEFINITION. What a unit of an engine's operation reads and what it leaves: the elements of the copy and gather engines, the
cells and tile elements of the matrix engine, a bank's part of a command, the packets of the fabric gateway and the commit of a
move (10 R265 to R281, 11 R289 to R308, 14 R378). -/

namespace Sys2Proof.Rules

open Sys2Proof.Machine

/-! ## Bits of memory and of tile slots -/

/-- The bytes that hold w bits at a bit offset from a base (R80). -/
def bytesHolding (base : DWord) (bit w : Nat) : Acc :=
  { lane := 0, va := base + BitVec.ofNat 64 (bit / 8), len := (bit % 8 + w + 7) / 8 }

/-- n is what an engine reads in w bits of memory: every byte lies on a page that it may read and in no unit in error. -/
def MemHolds (s : State) (v : View) (base : DWord) (bit w n : Nat) : Prop :=
  let a := bytesHolding base bit w
  (∀ va ∈ a.bytes, (s.spot v va).engineCase false false false = 90)
    ∧ (∀ sp ∈ s.spots v a, s.readError v.loom sp = false)
    ∧ n = valueAt v.loom (byteAt s) (s.spots v a) / 2 ^ (bit % 8) % 2 ^ w

/-- n is what copy reads in w bits of compressed memory, where the controllers' requests do not hold their blocks (R222, R227). -/
def BlockHolds (s : State) (v : View) (who : Nat) (base : DWord) (bit w n : Nat) : Prop :=
  let a := bytesHolding base bit w
  (∀ va ∈ a.bytes, (s.spot v va).engineCase false true true = 90)
    ∧ ∃ f : Nat → Byte, (∀ va ∈ a.bytes, ∃ b bs, (s.spot v va).block = some b ∧ s.blockBusy b = false
        ∧ (∀ m ∈ s.mem.merges, m.kind = .read → m.op = who → m.block ≠ b)
        ∧ s.blockError b = false ∧ s.block b = some bs ∧ f va = bs.getD (va % 4096) 0)
      ∧ n = leValue (a.bytes.map f) / 2 ^ (bit % 8) % 2 ^ w

/-- A bit of a loom's operand memory. -/
def operandBit (s : State) (l a : Nat) : Bool := (Memory.read (s.loom l).operand (a / 8)).getLsbD (a % 8)

/-- n is the w-bit element at a bit offset from the first bit of a logical tile slot: its bits lie in mapped slots that are not in
error (R200, R292). -/
def TileHolds (s : State) (o : Op) (first bit w n : Nat) : Prop :=
  0 < w ∧ w ≤ 32768 ∧ n < 2 ^ w ∧ ∀ j < w, ∃ q, s.tileOf o (first + (bit + j) / 32768) = some q
    ∧ s.mem.hard (.tile o.loom q) = false ∧ n.testBit j = operandBit s o.loom (32768 * q + (bit + j) % 32768)

/-- Operand memory after a w-bit element is written at a bit offset from a logical slot; a bit of a slot that is not mapped goes
nowhere. -/
def elementWritten (s : State) (o : Op) (first bit w val : Nat) (m : Nat → Bool) (a : Nat) : Bool :=
  match (List.range w).find? fun j =>
      (s.tileOf o (first + (bit + j) / 32768)).map (fun q => 32768 * q + (bit + j) % 32768) == some a with
  | some j => val.testBit j
  | none => m a

/-- An engine may write an access: every byte lies on a page that it may write, on no field that only supervisor mode writes for a
user-mode weft (R6), and in no loom-memory word in error that it would write only in part (R193). -/
def EngineWrites (s : State) (v : View) (a : Acc) : Prop :=
  (∀ va ∈ a.bytes, (s.spot v va).engineCase true false false = 90)
    ∧ (v.sv = true ∨ ∀ sp ∈ s.spots v a, ∀ q, fieldAt s.devBlocks sp = some q → q.1 = 0)
    ∧ s.writeError v.loom (s.spots v a) = false

/-- w bits of n put at a bit of an old value. -/
def putIn (old bit w n : Nat) : Nat :=
  old % 2 ^ bit + 2 ^ bit * (n % 2 ^ w) + 2 ^ (bit + w) * (old / 2 ^ (bit + w))

/-- From `s0`, w bits of n are put at a bit offset from a base, the armed words are compared, and no other byte of memory differs
in `t` (R81, R396). -/
def PutInto (s0 t : State) (v : View) (base : DWord) (bit w n : Nat) : Prop :=
  let sps := s0.spots v (bytesHolding base bit w)
  ∃ t1, LaneStored s0 t1 v.loom sps (putIn (valueAt v.loom (byteAt s0) sps) (bit % 8) w n) ∧ ∀ p, byteAt t p = byteAt t1 p

/-! ## What every unit does -/

/-- Progress(d) is u + 1 (R125), where d is a register that can be written. -/
def Advanced (s t : State) (o : Op) (u : Nat) : Prop :=
  ∀ d w, progressReg o.instr = some d → d ≠ 255 → s.weft? o.loom o.slot = some w → (∀ p, w.port = some p → d ≠ p.r) →
    t.progress o = (u + 1) % 2 ^ 32

/-- Unit u is complete: progress has risen, and the operation's entry in its queue has changed by `g` (R77, R125). -/
def Worked (s t : State) (o : Op) (u : Nat) (g : Op → Op) : Prop :=
  Advanced s t o u
    ∧ (t.loom o.loom).queue o.cls = ((s.loom o.loom).queue o.cls).map fun q => if q.id = o.id then g q else q

/-- Its flags gather in the operation. -/
def withFlags (fl : BitVec 6) (q : Op) : Op := { q with flags := q.flags ||| fl }

/-! ## copy, gather and scatter (R266 to R271) -/

/-- A coordinate wraps at its dimension. -/
def wrapped (c : Int) (d : Nat) : Nat := (c % (d : Int)).toNat

/-- x[k] of a unit: its coordinate in the extended box, dimension 0 fastest, less the halo (R268). -/
def unitX (p : CopyPlan) (u k : Nat) : Int :=
  if k < p.ext.length then
    ((u / (p.ext.take k).prod % p.ext.getD k 1 : Nat) : Int) - (if k ≤ 1 then (p.h : Int) else 0)
  else 0

/-- An element's offset from its coordinates (R355). -/
def offsetOf (t : Tensor) (c : Nat → Nat) : Nat := ((List.range t.rank).map fun k => c k * t.stride.getD k 0).sum

/-- n is the element of a side at an element offset. -/
def ElementIs (s : State) (o : Op) (x : Side) (off n : Nat) : Prop :=
  match x.tile with
  | some k => (off + 1) * x.w ≤ 32768 ∧ TileHolds s o k (off * x.w) x.w n
  | none =>
    if x.t.comp then (∃ h t m d a, o.instr = .copy h t m d a) ∧ BlockHolds s (s.opView o) o.id x.t.base (off * x.w) x.w n
    else MemHolds s (s.opView o) x.t.base (off * x.w) x.w n

/-- The index element for coordinate x is the integer m: what does not decode to a finite value counts as 0 (R271). -/
def IndexIs (s : State) (o : Op) (p : CopyPlan) (x m : Int) : Prop :=
  ∃ n, ElementIs s o p.idx (wrapped x (p.idx.t.dim.getD 0 1) * p.idx.t.stride.getD 0 0) n
    ∧ m = match p.idx.fmt.decode n with | .fin neg k _ => if neg then -(k : Int) else k | _ => 0

/-- A value times its scale: a NaN scale makes a NaN and sets NV (R82). -/
def scaledBy (v c : Machine.Num) : Machine.Num × BitVec 6 := if c.isNan then (.nan false, NV) else mulNum v c

/-- r is what a source element n converts to: its bits where source and destination are one format, else its value, with its scale,
rounded once (R82 to R84, R268). -/
def Converted (s : State) (o : Op) (p : CopyPlan) (soff n : Nat) (r : Rounded) : Prop :=
  if p.same then r = { bits := n, flags := 0 }
  else
    let v := p.src.fmt.decode n
    match p.scale with
    | none => r = roundOf p.dst.fmt (v, 0) [v]
    | some f => ∃ m, MemHolds s (s.opView o) p.src.t.sbase (soff / 2 ^ p.src.fmt.sblk * f.width) f.width m
        ∧ r = roundOf p.dst.fmt (scaledBy v (f.decode m)) [v]

/-- The unit's place lies in the halo: it writes padding (R268). -/
def InHalo (p : CopyPlan) (u : Nat) : Prop :=
  ∃ k < 2, k < p.ext.length ∧ (unitX p u k < 0 ∨ (p.dst.t.box.getD k 0 : Int) ≤ unitX p u k)

/-- Unit u writes r at element offset `off` of the destination (R268, R269, R271): padding in the halo, else the element read
early where one was, else the source element as it converts. -/
def CopyGives (s : State) (o : Op) (u off : Nat) (r : Rounded) : Prop :=
  let p := o.copyPlan
  (∃ md : Int, (∀ k, p.scatterK = some k → IndexIs s o p (unitX p u k) md)
    ∧ off = offsetOf p.dst.t fun k =>
        wrapped (p.dor.getD k 0 + (if p.scatterK = some k then md else unitX p u k)) (p.dst.t.dim.getD k 1))
  ∧ ((InHalo p u ∧ r = { bits := p.dst.t.padvalue % 2 ^ p.dst.w, flags := 0 })
    ∨ (¬ InHalo p u ∧ ∃ e, o.early.find? (fun e => e.1 == u) = some e ∧ r = { bits := e.2.toNat, flags := 0 })
    ∨ (¬ InHalo p u ∧ o.early.find? (fun e => e.1 == u) = none ∧ ∃ ms : Int,
        (∀ k, p.gatherK = some k → IndexIs s o p (unitX p u k) ms)
        ∧ let soff := offsetOf p.src.t fun k =>
            wrapped (p.so.getD k 0 + (if p.gatherK = some k then ms else unitX p u (p.src.t.perm.getD k 0)))
              (p.src.t.dim.getD k 1)
          ∃ n, ElementIs s o p.src soff n ∧ Converted s o p soff n r))

/-- A unit of copy, gather or scatter, but for one that writes compressed memory, whose runs the controllers write
(`EngineSteps`): an overlapping straight copy reads the elements of all its units first; a unit then writes its element, and no
other bit, of a tile slot or of memory, and progress rises. -/
def CopyUnits : Prop :=
  ∀ (s : State) (o : Op) (u : Nat),
    (∃ h t n d a, o.instr = .copy h t n d a ∨ o.instr = .gather h t n d a ∨ o.instr = .scatter h t n d a) →
    let p := o.copyPlan
    let v := s.opView o
    let t := s.unitDone o u
    (p.straight = true → p.overlaps = true → o.early = [] → ∀ (off : Nat → Nat) (r : Nat → Rounded),
      (∀ k < p.total - u, CopyGives s o (u + k) (off k) (r k)) →
      (t.loom o.loom).queue o.cls = ((s.loom o.loom).queue o.cls).map (fun q => if q.id = o.id then
          { q with early := (List.range (p.total - u)).map fun k => (u + k, BitVec.ofNat 32 (r k).bits) } else q)
        ∧ ∀ x, byteAt t x = byteAt s x)
    ∧ ∀ off r, (o.early ≠ [] ∨ p.straight = false ∨ p.overlaps = false) → CopyGives s o u off r → r.record = none →
      (∀ k q, p.dst.tile = some k → s.tileOf o k = some q → (off + 1) * p.dst.w ≤ 32768 →
        Worked s t o u (withFlags r.flags) ∧ (∀ x, byteAt t x = byteAt s x)
        ∧ ∀ a, operandBit t o.loom a = elementWritten s o k (off * p.dst.w) p.dst.w r.bits (operandBit s o.loom) a)
      ∧ (p.dst.tile = none → p.dst.t.comp = false → EngineWrites s v (bytesHolding p.dst.t.base (off * p.dst.w) p.dst.w) →
        let s0 := s.noteSource o p u
        s0.spots v (bytesHolding p.dst.t.base (off * p.dst.w) p.dst.w) = s.spots v (bytesHolding p.dst.t.base (off * p.dst.w) p.dst.w) →
        Worked s t o u (withFlags r.flags) ∧ PutInto s0 t v p.dst.t.base (off * p.dst.w) p.dst.w r.bits
        ∧ ∀ x, byteAt s0 x = byteAt s x)

/-! ## cmpst and expld (R272) -/

/-- A unit of cmpst or expld: k elements are flagged before it. One that is not flagged writes nothing; a flagged one goes from
its place in the source to its place in the destination, and k rises. -/
def CompressUnits : Prop :=
  ∀ (s : State) (o : Op) (u k b : Nat) (dense : Bool),
    (match o.instr with | .cmpst .. => dense = true | .expld .. => dense = false | _ => False) →
    let p := o.cmpPlan
    let v := s.opView o
    let t := s.unitDone o u
    (if o.parts = [u] then k = o.result.toNat
      else ∃ m : Nat → Nat, (∀ j < u, MemHolds s v p.mask j 1 (m j)) ∧ k = ((List.range u).map m).sum) →
    MemHolds s v p.mask u 1 b →
    (b = 0 → Worked s t o u (fun q => { q with result := BitVec.ofNat 64 k, parts := [u + 1] })
      ∧ ∀ x, byteAt t x = byteAt s x)
    ∧ ∀ n, b = 1 →
      let from_ := (if dense then u else k) * p.w
      let to_ := (if dense then k else u) * p.w
      MemHolds s v p.src from_ p.w n → EngineWrites s v (bytesHolding p.dst to_ p.w) →
      let s0 := (s.noteEngine v false (bytesHolding p.mask u 1) false).noteEngine v false (bytesHolding p.src from_ p.w) false
      s0.spots v (bytesHolding p.dst to_ p.w) = s.spots v (bytesHolding p.dst to_ p.w) →
      Worked s t o u (fun q => { q with result := BitVec.ofNat 64 (k + 1), parts := [u + 1] })
      ∧ PutInto s0 t v p.dst to_ p.w n ∧ ∀ x, byteAt s0 x = byteAt s x

/-! ## A bank's part of a command (R273, R274) -/

/-- What a bank makes of an element (R273). -/
def bankCode (p : BankPlan) (legacy : Bool) (bits : Nat) : Rounded :=
  let e := p.f.decode bits
  let y := p.f.decode (p.x % 2 ^ p.f.width)
  match p.op with
  | .add => roundOf p.f (sumNums p.f.rdn [e, y]) [e, y]
  | .scale => roundOf p.f (mulNum e y) [e, y]
  | .cvt => roundOf p.fc (e, 0) [e]
  | .max => roundOf p.f (minMaxNum true legacy e y, 0) [e, y]
  | .min => roundOf p.f (minMaxNum false legacy e y, 0) [e, y]
  | .zero => { bits := p.f.zeroCode false, flags := 0 }
  | .transp => { bits := bits, flags := 0 }

/-- The 256 bytes of a row with its 8 × 8 words transposed: word (r, c) of the result is word (c, r). -/
def transposed (n : Nat) : Nat :=
  ((List.range 256).map fun i => n / 256 ^ (4 * (8 * (i / 4 % 8) + i / 32) + i % 4) % 256 * 256 ^ i).sum

/-- The bytes after a bank command's element e. -/
def afterElement (s : State) (o : Op) (m : Place → Byte) (e : Nat) : Place → Byte :=
  let p := o.bankPlan
  let sps := s.spots (s.opView o) (bytesHolding p.addr (e * p.w) p.w)
  let old := valueAt o.loom m sps
  afterStore s.devBlocks o.loom m sps
    (if p.op = .transp then transposed old
      else putIn old (e * p.w % 8) p.w (bankCode p o.legacy (old / 2 ^ (e * p.w % 8) % 2 ^ p.w)).bits)

/-- A bank's part: its elements in ascending order, each in place; the part is then done (R214, R274). An element in uncorrectable
error ends the part with nothing written but the event record in host memory: the command is refused at its lowest such element
(R215, R339). -/
def BankParts : Prop :=
  ∀ (s : State) (o : Op) (bank : Nat), (∃ h op n a b c, o.instr = .bankop h op n a b c) → bank ∈ o.parts →
    let p := o.bankPlan
    let v := s.opView o
    let es := (List.range p.n).filter fun e => s.elemBank v p e == some bank
    let spots (e : Nat) := s.spots v (bytesHolding p.addr (e * p.w) p.w)
    let bad (e : Nat) : Prop := ∃ sp ∈ spots e, s.readError o.loom sp = true
    let t := s.bankPart o bank
    let left (q : Op) : Op := { q with parts := q.parts.filter (· != bank) }
    s.bankReady v p = true → p.check o.lane = none → o.partRecs = [] →
    (∀ q ∈ (s.loom o.loom).bankQ, q.id = o.id → q = o) →
    ((∀ e ∈ es, ¬ bad e) → (v.sv = true ∨ ∀ e ∈ es, ∀ sp ∈ spots e, ∀ q, fieldAt s.devBlocks sp = some q → q.1 = 0) →
      (∀ x, (bankCode p o.legacy x).record = none) →
      (∃ t1, OnlyBytes s t1 ∧ (∀ x, byteAt t1 x = es.foldl (afterElement s o) (byteAt s) x)
        ∧ ∀ x, byteAt t x = byteAt t1.checkArms x)
      ∧ ∃ fl, (t.loom o.loom).bankQ = (s.loom o.loom).bankQ.map fun q =>
          if q.id = o.id then withFlags fl (left q) else q)
    ∧ (∀ pre e post, es = pre ++ e :: post → bad e → (∀ x ∈ pre, ¬ bad x) →
      (∀ x, (∀ k, x ≠ .phys .host k) → byteAt t x = byteAt s x)
      ∧ (t.loom o.loom).bankQ = (s.loom o.loom).bankQ.map fun q =>
          if q.id = o.id then { left q with refused := some (q.refused.getD e) } else q)

/-! ## The matrix engine (R89 to R91, R292 to R308) -/

/-- The k-group rule (R89 to R91): the result of an accumulator and the products of a group. `nv`: a product is 0 · ∞, or an operand
is a signalling NaN. -/
def GroupGives (f : Fmt) (c : Machine.Num) (ps : List Machine.Num) (nv : Bool) (r : Rounded) : Prop :=
  let all := c :: ps
  let special : Prop := nv = true ∨ (∃ x ∈ all, x.isNan = true) ∨ (.inf false ∈ all ∧ .inf true ∈ all)
  (special → r.bits = f.nanOut.bits ∧ r.record = f.nanOut.record
    ∧ (let signals : Prop := nv = true ∨ c = .nan true ∨ (.inf false ∈ all ∧ .inf true ∈ all)
      (signals → r.flags = f.nanOut.flags ||| NV) ∧ (¬ signals → r.flags = f.nanOut.flags)))
  ∧ (¬ special → ∀ sg, .inf sg ∈ all → r = f.round (.inf sg) false)
  ∧ (¬ special → (∀ sg, .inf sg ∉ all) →
    ∃ val : Machine.Num → ℚ, (∀ x ∈ all, ratOf x = some (val x))
      -- an integer or fixed slot sums exactly
      ∧ (f.kind = 1 → ∃ neg m e, ratOf (.fin neg m e) = some (all.map val).sum ∧ r = f.round (.fin neg m e) false)
      -- a float slot sums in its window, bits emax down to emax − Mc − 8
      ∧ (f.kind = 0 → (∀ x ∈ all, val x = 0) → ∃ neg, r = f.round (.fin neg 0 0) false)
      ∧ (f.kind = 0 → (∃ x ∈ all, val x ≠ 0) → ∃ emax : Int,
          (∃ x ∈ all, (2 : ℚ) ^ emax ≤ |val x|) ∧ (∀ x ∈ all, |val x| < (2 : ℚ) ^ (emax + 1))
          ∧ let u := (2 : ℚ) ^ (emax - f.m - 8)
            let cut (x : Machine.Num) : ℚ := (if val x < 0 then -1 else 1) * (⌊|val x| / u⌋ * u)
            let sum := (all.map cut).sum
            ∃ sticky : Bool, (sticky = true ↔ ∃ x ∈ all, cut x ≠ val x)
            ∧ ∃ q : Rounded, r = { q with flags := q.flags ||| (if sticky then NX else 0) }
              ∧ (sum = 0 → q = f.round (.fin (f.rnd = 2) 0 0) false)
              ∧ (sum ≠ 0 → ∃ neg m e, ratOf (.fin neg m e) = some sum ∧ q = f.round (.fin neg m e) sticky)))

/-- x is the value of an operand element of tile slots, with its scale where it has one, and whether a signalling NaN or a bad scale
sets NV (R82, R292). -/
def OperandIs (s : State) (o : Op) (first bit : Nat) (f : Fmt) (scale : Option (DWord × Fmt))
    (x : Machine.Num × Bool) : Prop :=
  ∃ n, TileHolds s o first bit f.width n ∧
    let v := f.decode n
    match scale with
    | none => x = (v, decide (v = .nan true))
    | some (base, sf) => ∃ m, MemHolds s (s.opView o) base (bit / f.width / 2 ^ f.sblk * sf.width) sf.width m
        ∧ x = ((scaledBy v (sf.decode m)).1, (scaledBy v (sf.decode m)).2 != 0 || decide (v = .nan true))

/-- The scale array of an operand, where its slot is scaled (R292). -/
def scalesOf (f : Fmt) (base : DWord) (sf : Fmt) : Option (DWord × Fmt) := if f.sblk = 0 then none else some (base, sf)

/-- The cells of a loom after those of a list of places of a range take new elements, their upper bits zero (R203). -/
def cellsAfter (s : State) (l : Nat) (r : Own) (ps : List (Nat × Nat)) (val : Nat → Nat → Nat) : List (Nat × Word) :=
  ps.foldl (fun m p => SMap.set m 0 (r.cellKey p.1 p.2) (BitVec.ofNat 32 (val p.1 p.2 % 2 ^ r.fmt.width)))
    (s.loom l).cells

/-- Rows by columns. -/
def boxOf (m n : Nat) : List (Nat × Nat) := (List.range m).flatMap fun i => (List.range n).map fun j => (i, j)

/-- A k-group of products into a cell. -/
def groupCell (s : State) (l : Nat) (r : Own) (i j : Nat) (ps : List ((Machine.Num × Bool) × (Machine.Num × Bool))) :
    Rounded :=
  groupRound r.fmt (r.fmt.decode ((s.loom l).cell r i j)) (ps.map fun q => (mulNum q.1.1 q.2.1).1)
    (ps.any fun q => (mulNum q.1.1 q.2.1).2 != 0 || q.1.2 || q.2.2)

/-- mma and mma.dy: k-group u adds to every cell (i, j) the products of A(i, κ) and B(κ, j), κ from 16u on, all read before any cell
is written (R292 to R294). -/
def DenseUnits : Prop :=
  ∀ (s : State) (o : Op) (u e : Nat) (r : Own) (A B : Nat → Nat → Machine.Num × Bool) h d a b,
    (o.instr = .mma h d a b ∨ o.instr = .mmaDy h d a b) → s.opRange o = some (e, r) →
    let p := o.mmaPlan
    let ks := ((List.range 16).map (· + 16 * u)).filter (· < p.k)
    (∀ i < p.m, ∀ κ ∈ ks, OperandIs s o p.aslot ((if p.tra then κ * p.m + i else i * p.k + κ) * p.fa.width) p.fa
      (scalesOf p.fa p.sa p.fsa) (A i κ)) →
    (∀ j < p.n, ∀ κ ∈ ks, OperandIs s o p.bslot ((if p.trb then j * p.k + κ else κ * p.n + j) * p.fb.width) p.fb
      (scalesOf p.fb p.sb p.fsb) (B κ j)) →
    (∀ i < p.m, ∀ j < p.n, s.cellError o.loom r i j = false) →
    let cell (i j : Nat) : Rounded := groupCell s o.loom r i j (ks.map fun κ => (A i κ, B κ j))
    let t := s.unitDone o u
    Worked s t o u (withFlags (flagsOf ((boxOf p.m p.n).map fun q => cell q.1 q.2)))
    ∧ (t.loom o.loom).cells = cellsAfter s o.loom r (boxOf p.m p.n) fun i j => (cell i j).bits

/-- mma.sp: A's stored elements take the depths that their metadata give; a reserved code's element counts for nothing and sets the
status bit (R294, R295). -/
def SparseUnits : Prop :=
  ∀ (s : State) (o : Op) (u e : Nat) (r : Own) (A B : Nat → Nat → Machine.Num × Bool) (E : Nat → Nat → Nat) h d a b,
    o.instr = .mmaSp h d a b → s.opRange o = some (e, r) →
    let p := o.mmaPlan
    let ks := ((List.range 16).map (· + 16 * u)).filter (· < p.k)
    let sts := ((List.range 8).map (· + 8 * u)).filter (· < p.k / 2)
    let top := if p.pat then 7 else 3
    let depth (i st : Nat) : Nat := (if p.pat then 8 * (st / 4) else 4 * (st / 2)) + E i st
    (∀ i < p.m, ∀ st ∈ sts, TileHolds s o p.mslot ((i * (p.k / 2) + st) * 4) 4 (E i st)
      ∧ OperandIs s o p.aslot ((i * (p.k / 2) + st) * p.fa.width) p.fa (scalesOf p.fa p.sa p.fsa) (A i st)) →
    (∀ j < p.n, ∀ κ ∈ ks, OperandIs s o p.bslot ((if p.trb then j * p.k + κ else κ * p.n + j) * p.fb.width) p.fb
      (scalesOf p.fb p.sb p.fsb) (B κ j)) →
    (∀ i < p.m, ∀ j < p.n, s.cellError o.loom r i j = false) →
    let cell (i j : Nat) : Rounded := groupCell s o.loom r i j
      ((sts.filter fun st => E i st ≤ top ∧ depth i st ∈ ks).map fun st => (A i st, B (depth i st) j))
    let reserved : Bool := (List.range p.m).any fun i => sts.any fun st => top < E i st
    let t := s.unitDone o u
    Worked s t o u (fun q => withFlags (flagsOf ((boxOf p.m p.n).map fun q => cell q.1 q.2))
      { q with result := if reserved ∧ b ≠ 255 ∧ o.header.isSome then q.result ||| 1 else q.result })
    ∧ (t.loom o.loom).cells = cellsAfter s o.loom r (boxOf p.m p.n) (fun i j => (cell i j).bits)
    ∧ ∀ w w', s.weft? o.loom o.slot = some w → t.weft? o.loom o.slot = some w' → b ≠ 255 → b ≠ d →
        (∀ q, w.port = some q → b ≠ q.r) → o.lane < 32 →
        w'.raw b o.lane = if reserved ∧ o.header = none then w.raw b o.lane ||| 1 else w.raw b o.lane

/-- Dot of R305: from +0, in k-groups of ascending j. The encoding and the flags. -/
def dotOf (f : Fmt) (ps : List ((Machine.Num × Bool) × (Machine.Num × Bool))) : Nat × BitVec 6 :=
  (List.range ((ps.length + 15) / 16)).foldl (fun acc g =>
    let qs := (ps.drop (16 * g)).take 16
    let r := groupRound f (f.decode acc.1) (qs.map fun q => (mulNum q.1.1 q.2.1).1)
      (qs.any fun q => (mulNum q.1.1 q.2.1).2 != 0 || q.1.2 || q.2.2)
    (r.bits, acc.2 ||| r.flags)) (f.zeroCode false, 0)

/-- A product of several factors: NaN where one is, or where a zero meets an infinity, which sets NV (R305). -/
def productOf (xs : List Machine.Num) : Machine.Num × BitVec 6 :=
  let clash : Bool := xs.any Num.isZero && xs.any Num.isInf
  (if xs.any Num.isNan || clash then .nan false else xs.foldl (fun acc x => (mulNum acc x).1) (.fin false 1 0),
    if clash then NV else 0)

/-- The new S(i, j) of R305: α·S − α·β·u·k + β·v·k, rounded once. -/
def updated (f : Fmt) (s u k v α β : Machine.Num) : Rounded :=
  let t1 := productOf [α, s]
  let t2 := productOf [α, β, u, k]
  let t3 := productOf [β, v, k]
  let sum := sumNums f.rdn [t1.1, t2.1.neg, t3.1]
  roundOf f (sum.1, sum.2 ||| t1.2 ||| t2.2 ||| t3.2) [α, s, β, u, k, v]

/-- delta, token t: phase 0 writes U, the products of S's rows and k; phase 1 updates S, all reads first; phase 2 writes the token's
row of O, from the S of phase 1 (R304, R305). -/
def DeltaUnits : Prop :=
  ∀ (s : State) (o : Op) (tok e : Nat) (r : Own) (K Q U V : Nat → Machine.Num × Bool) (α β : Machine.Num × Bool) h d a b,
    o.instr = .delta h d a b → s.opRange o = some (e, r) →
    let p := o.deltaPlan
    let ws := r.fmt.width
    let row (i : Nat) (X : Nat → Machine.Num × Bool) : Nat × BitVec 6 :=
      dotOf r.fmt ((List.range p.dk).map fun j =>
        let c := r.fmt.decode ((s.loom o.loom).cell r i j)
        ((c, decide (c = .nan true)), X j))
    let flagsFor (f : Nat → BitVec 6) : BitVec 6 := (List.range p.dv).foldl (fun acc i => acc ||| f i) 0
    (∀ i < p.dv, ∀ j < p.dk, s.cellError o.loom r i j = false) →
    ((∀ j < p.dk, OperandIs s o p.kslot ((tok * p.dk + j) * p.fk.width) p.fk none (K j)) →
      let t := s.unitDone o (3 * tok)
      Worked s t o (3 * tok) (withFlags (flagsFor fun i => (row i K).2)) ∧ (t.loom o.loom).cells = (s.loom o.loom).cells
      ∧ ∀ x, operandBit t o.loom x = (List.range p.dv).foldl (fun m i =>
          elementWritten s o p.uslot (i * ws) ws (row i K).1 m) (operandBit s o.loom) x)
    ∧ ((∀ j < p.dk, OperandIs s o p.kslot ((tok * p.dk + j) * p.fk.width) p.fk none (K j)) →
      (∀ i < p.dv, OperandIs s o p.uslot (i * ws) r.fmt none (U i)
        ∧ OperandIs s o p.vslot ((tok * p.dv + i) * p.fv.width) p.fv none (V i)) →
      OperandIs s o p.abslot (tok * p.fab.width) p.fab none α → OperandIs s o p.abslot ((p.c + tok) * p.fab.width) p.fab none β →
      let cell (i j : Nat) : Rounded :=
        updated r.fmt (r.fmt.decode ((s.loom o.loom).cell r i j)) (U i).1 (K j).1 (V i).1 α.1 β.1
      let t := s.unitDone o (3 * tok + 1)
      Worked s t o (3 * tok + 1) (withFlags (flagsOf ((boxOf p.dv p.dk).map fun q => cell q.1 q.2)))
      ∧ (t.loom o.loom).cells = cellsAfter s o.loom r (boxOf p.dv p.dk) (fun i j => (cell i j).bits)
      ∧ ∀ x, operandBit t o.loom x = operandBit s o.loom x)
    ∧ ((∀ j < p.dk, OperandIs s o p.qslot ((tok * p.dk + j) * p.fq.width) p.fq none (Q j)) →
      let out (i : Nat) : Rounded := let c := r.fmt.decode (row i Q).1; roundOf p.fo (c, 0) [c]
      let t := s.unitDone o (3 * tok + 2)
      Worked s t o (3 * tok + 2) (withFlags (flagsFor fun i => (out i).flags ||| (row i Q).2))
      ∧ (t.loom o.loom).cells = (s.loom o.loom).cells
      ∧ ∀ x, operandBit t o.loom x = (List.range p.dv).foldl (fun m i =>
          elementWritten s o p.oslot ((tok * p.dv + i) * p.fo.width) p.fo.width (out i).bits m) (operandBit s o.loom) x)

/-- The 64 places of unit u of a row operation: row u mod 64 of tile ⌊u/64⌋ (R306). -/
def placesOf (u : Nat) : List (Nat × Nat) := (List.range 64).map fun c => (u % 64, 64 * (u / 64) + c)

/-- aspill, afill, ascale and acvt (R306 to R308): a unit writes its row to memory, or reads it, or scales it; acvt's one unit
converts every cell and the range's definition. -/
def RowUnits : Prop :=
  ∀ (s : State) (o : Op) (u e : Nat) (r : Own), s.opRange o = some (e, r) →
    let w := r.fmt.width
    let v := s.opView o
    let at_ : DWord := o.opa + BitVec.ofNat 64 (512 * w * (u / 64) + 8 * w * (u % 64))
    let value (p : Nat × Nat) : Machine.Num := r.fmt.decode ((s.loom o.loom).cell r p.1 p.2)
    let sound (ps : List (Nat × Nat)) : Prop := ∀ p ∈ ps, s.cellError o.loom r p.1 p.2 = false
    let t := s.unitDone o u
    (∀ h d a n, o.instr = .aspill h d a n → sound (placesOf u) → EngineWrites s v (bytesHolding at_ 0 (64 * w)) →
      Worked s t o u id ∧ PutInto s t v at_ 0 (64 * w)
        ((placesOf u).zipIdx.map fun p => (s.loom o.loom).cell r p.1.1 p.1.2 * 2 ^ (w * p.2)).sum)
    ∧ (∀ h d a n x, o.instr = .afill h d a n → MemHolds s v at_ 0 (64 * w) x →
      Worked s t o u id
      ∧ (t.loom o.loom).cells = cellsAfter s o.loom r (placesOf u) fun _ c => x / 2 ^ (w * (c % 64)) % 2 ^ w)
    ∧ (∀ h n d a k, o.instr = .ascale h n d a k → sound (placesOf u) →
      let f := Fmt.ofDef (o.defn 0)
      let x := f.decode ((o.opa.extractLsb' 0 32).toNat % 2 ^ f.width)
      let cell (p : Nat × Nat) : Rounded := roundOf r.fmt (mulNum (value p) x) [value p, x]
      Worked s t o u (withFlags (flagsOf ((placesOf u).map cell)))
      ∧ (t.loom o.loom).cells = cellsAfter s o.loom r (placesOf u) fun i j => (cell (i, j)).bits)
    ∧ (∀ h n d k, o.instr = .acvt h n d k → sound (boxOf 64 (64 * r.t)) →
      let r' : Own := { r with def_ := o.defn 0 }
      let cell (p : Nat × Nat) : Rounded := roundOf r'.fmt (value p, 0) [value p]
      Worked s t o u (withFlags (flagsOf ((boxOf 64 (64 * r.t)).map cell)))
      ∧ (t.loom o.loom).cells = cellsAfter s o.loom r' (boxOf 64 (64 * r.t)) (fun i j => (cell (i, j)).bits)
      ∧ SMap.find? (t.loom o.loom).owners e = some r')

/-- What the matrix engine's units leave. -/
def MatrixUnits : Prop :=
  (∀ f c ps nv, GroupGives f c ps nv (groupRound f c ps nv)) ∧ DenseUnits ∧ SparseUnits ∧ DeltaUnits ∧ RowUnits

/-! ## The fabric gateway's packets (R275 to R281, R449) -/

/-- The next unit that an operation sends: behind the last one sent, and not before its progress. -/
def NextUnit (s : State) (o : Op) (u : Nat) : Prop :=
  s.progress o ≤ u ∧ (∀ x ∈ o.sent, x < u) ∧ (u = s.progress o ∨ ∃ x ∈ o.sent, u = x + 1)

/-- A packet of unit u leaves its loom for the gateway of a die. -/
def packetSent (s0 : State) (o : Op) (u die : Nat) (p : Packet) : State :=
  (((s0.modOp o.loom .fab o.id fun q => { q with sent := q.sent ++ [u] }).countLoom o.loom 0x0E o.ctx 1).crossDies
    (dieOf o.loom) die (16 * p.slots)).sendPacket p

/-- A unit of a fabric operation: it sends the packet of its next unit, with the operation's fields; xput's carries the local bytes,
xatom's the operands, and xred's, to this package's own root, the elements behind the definition, the collective and the check word.
The fields that R448 and R449 do not give follow log entry 36. -/
def FabricUnits : Prop :=
  ∀ (s : State) (o : Op) (u : Nat), NextUnit s o u → u < o.total → o.refused = none → o.discard = false →
    let p := o.fabPlan
    let v := s.opView o
    let window (x : DWord) : Prop := x.toNat / 2 ^ 52 = 0xFFF
    let base : Packet :=
      { op := 0, vc := p.vc, dst := p.node, src := s.node.toNat, hops := 0, ctx := o.ctx, len := min 128 (p.len - 128 * u),
        cnt := p.cnt, addr := p.raddr + BitVec.ofNat 64 (128 * u), ctr := p.ctr, launch := p.launch, loom := o.loom,
        tag := o.tag, unit := u, sub := 0, cause := 0,
        thi := if window p.raddr ∨ (p.cnt = true ∧ window p.ctr) then p.thi else 0, data := [] }
    let t := s.unitDone o (s.progress o)
    (∀ h d a n, o.instr = .xput h d a → MemHolds s v p.laddr (1024 * u) (8 * base.len) n →
      let s0 := s.noteEngine v false (bytesHolding p.laddr (1024 * u) (8 * base.len)) false
      t = packetSent s0 o u (s0.leaveDie (dieOf o.loom) p.node) { base with data := leBytes base.len n })
    ∧ (∀ h d a, o.instr = .xget h d a →
      t = packetSent s o u (s.leaveDie (dieOf o.loom) p.node) { base with op := 1 })
    ∧ (∀ h op n d a b c, o.instr = .xatom h op n d a b c →
      t = packetSent s o u (s.leaveDie (dieOf o.loom) p.node)
        { base with op := 3, len := p.len, sub := atomCode op,
                    data := leBytes 8 o.opb.toNat ++ leBytes 8 o.opc.toNat
                      ++ (if op = .fadd then leBytes 16 (o.defn 0).toNat else []) })
    ∧ (∀ h op n d a x, o.instr = .xred h op n d a →
      let w := (Fmt.ofDef (o.defn 0)).width
      let k := 1024 / w
      let count := min k (p.len - u * k)
      let bytes := (count * w + 7) / 8
      MemHolds s v p.laddr (u * k * w) (count * w) x →
      t = packetSent (s.noteEngine v false (bytesHolding p.laddr (u * k * w) (count * w)) false) o u (dieOf o.contributor)
        { base with op := 7, dst := s.node.toNat, addr := p.raddr, len := bytes, aux := o.contributor,
                    sub := match op with | .sum => 0 | .max => 1 | .min => 2,
                    data := leBytes 8 (o.defn 0).toNat ++ leBytes 4 (leValue (o.route.take 4))
                      ++ leBytes 4 ((p.len + crc64 o.route) % 2 ^ 32) ++ leBytes bytes x })

/-! ## The commit of a move (R378) -/

/-- The last unit of sb.move: in one step the source entry and its range are free, and the reserved target entries stand for them with
a new generation; the result is the target's handle. A range that has no row units is spilled first. -/
def MoveCommits : Prop :=
  ∀ (s : State) (o : Op) (u sl se tl te so to_ : Nat), (∃ h d b c, o.instr = .sbMove h d b c) →
    o.parts = [sl, se, tl, te + 1, so, to_] → sl ≠ tl → (s.loom sl).entryBusy se = false →
    let e := (s.loom sl).entry se
    let t := s.moveCommit o u
    let moved (st : BoardState) : Prop :=
      Worked s t o u (fun q => { q with result := (boardHandle te (e.gen + 1)).setWidth 64, parts := [] })
      ∧ ((t.loom sl).entry se).state = .free
      ∧ (t.loom tl).entry te = { e with rsv := false, gen := e.gen + 1, tgt := 0, was := .free, busy := false, state := st }
    (so = 0 → moved .valid)
    ∧ ∀ a b w r, so = a + 1 → to_ = b + 1 → SMap.find? (s.loom sl).owners a = some w →
      SMap.find? (s.loom tl).owners b = some r →
      (w.was = .pinned → o.total = 2 → ∃ s1, s.spillRange sl w = .ok s1) →
      moved (if r.tiles = [] then .spilled else .valid)
      ∧ SMap.find? (t.loom sl).owners a = none
      ∧ SMap.find? (t.loom tl).owners b = some { w with
          state := if r.tiles = [] then .spilled else .pinned, tiles := r.tiles, was := .free, gen := w.gen + 1, team := 0 }

end Sys2Proof.Rules
end

