-- ==== Sys2Proof/Certificates/Slice0/Obligations.lean ====
section
/-! DEFINITION. The statements about the model, one for each obligation of OBLIGATIONS.json: what an instruction writes,
what it leaves alone, where it traps, and what the steps of the device do. -/

section

open Sys2Proof Sys2Proof.Machine Sys2Proof.Rules

/-! ## The machine -/

/-- R129, R320, R368, R409, R463, R464, R466: reset. The clock and the node number are zero, the activity budgets full, the
settings and limits as their tables say, the route table empty. R66: a new weft's slot f0 is binary32, as are its others before a
placement loads f1 to f15 from its image's defaults; a weft of a continuation record keeps them so (R60). That its registers read
zero is the model's choice (log entry 4 and INVENTORY.md), as are log entries 16 (every link is down at reset) and 22. -/
def Obligations.ResetState : Prop :=
  State.reset.clock = 0 ∧ State.reset.node = 0 ∧ State.reset.dist.x = 1 ∧ State.reset.mgmt.settings.qlog = 22
    ∧ State.reset.mgmt.stage = 1 ∧ State.reset.mgmt.plim = 3800 ∧ State.reset.mgmt.tlim = 100
    ∧ (∀ b ∈ State.reset.mgmt.budgets, b.budget = 8192 ∧ b.floor = 0) ∧ State.reset.mgmt.settings.drain = 2 ^ 16
    ∧ State.reset.mgmt.settings.scrub = 2 ^ 24 ∧ State.reset.fabric.route = [] ∧ State.reset.looms = []
    ∧ State.reset.contexts = [] ∧ State.reset.memWf = true ∧ State.reset.cur = none
    ∧ ∀ ctx team num role allot pc spill r j, (newWeft ctx team num role allot pc spill).lane r j = 0
      ∧ (newWeft ctx team num role allot pc spill).fmt r.toNat = binary32
      ∧ (newWeft ctx team num role allot pc spill).fpx = 0

/-- R36, R44, R105, R158: when a quadrant's cycle has come, and one of its wefts is the first in round-robin order that is
ready, its entry is due and its word decodes to an instruction, a step is the meaning of that instruction at the state with the
clock advanced, the line fetched and the entry noted as issuing; what follows is the same for every instruction. A line that ipref brings is
waited for (R476). R31: a step of
the device that comes at a stage which admits it is its meaning. That a turn of the agenda is one core cycle is the model's (log
entries 1 and 2). -/
def Obligations.StepRunsDecoded : Prop :=
  (∀ (s s1 f : State) (rest : List Turn) (l q k : Nat) (before after : List Nat) (w : Weft) (e : Entry) (leaf : Leaf)
    (pa : Nat) (word : DWord) (i : Instr) (legacy : Bool),
    s.agenda = .issue l q :: rest → s.mgmt.powered = true →
    s1 = ({ s with agenda := rest } : State).ticked.periodTick (.issue l q) → s1.mgmt.powered = true → s1.mgmt.fail = false →
    (s1.loom l).scan (q % 4) = before ++ k :: after → (∀ j ∈ before, s1.attempt exec l j = (.next s1, false)) →
    s1.weft? l k = some w →
    s1.turnBarred l w = false → s1.takeDue l k w = none → w.movesDue = false → w.issueEntry = some e →
    s1.fetchPage l w.ctx e.pc = .ok leaf pa → s1.fillUnderWay l w.ctx (e.pc.toNat / 256) = false →
    s1.fetchWord l w.ctx e.pc leaf pa = (f, word) →
    decodeWith (f.entryFor w.ctx word) word = .ok i legacy →
    let cur : Issue := { loom := l, slot := k, pc := e.pc, mask := e.mask, prio := e.prio, word := word,
                         canon := (f.entryFor w.ctx word).canon, legacy := legacy }
    ∀ t, exec i { f with cur := some cur } = .next t → issuedBetween s1 { t with cur := none } l k = true →
      let t1 : State := if (s1.loom l).growers.isEmpty then { t with cur := none } else ({ t with cur := none } : State).ungrown l k
      step s = .next (s1.yieldedNow exec t1 l k).settled)
  ∧ (∀ (s s1 t : State) (rest : List Turn) (i : Instr),
    s.agenda = .event i :: rest → s.mgmt.powered = true →
    s1 = ({ s with agenda := rest } : State).ticked.periodTick (.event i) → s1.admits i = true → exec i s1 = .next t →
      step s = .next t.settled)

/-- R93, R95, R97, R104: words written out field by field from the encoding tables decode to the instructions they stand for.
-/
def Obligations.WordsDecode : Prop :=
  -- iadd v3, v1, v2: opcode 0x000, g 255, d 3, a 1, b 2
  decode (0#4 ++ 0#4 ++ 0#4 ++ 0#8 ++ 2#8 ++ 1#8 ++ 3#8 ++ 0#1 ++ 0#1 ++ 255#8 ++ 0x000#10) = .ok (.iadd ⟨255, false⟩ 3 1 2 .wrap)
  -- iadd v3, v1, −5 under guard v7 inverted: opcode 0x030
  ∧ decode ((-5#28) ++ 1#8 ++ 3#8 ++ 0#1 ++ 1#1 ++ 7#8 ++ 0x030#10) = .ok (.iaddImm ⟨7, true⟩ 3 1 (-5))
  -- br two instructions back, prio 9: opcode 0x050
  ∧ decode ((-2#16) ++ 9#12 ++ 0#8 ++ 0#8 ++ 0#1 ++ 0#1 ++ 255#8 ++ 0x050#10) = .ok (.br ⟨255, false⟩ 9 (-2))
  -- ld.acq.b64 v4, [v2 + v6 + 16]: opcode 0x100, ordering 1, width 3
  ∧ decode (1#2 ++ 3#2 ++ 16#16 ++ 6#8 ++ 2#8 ++ 4#8 ++ 0#1 ++ 0#1 ++ 255#8 ++ 0x100#10)
      = .ok (.ld ⟨255, false⟩ 4 2 6 16 .b64 true)
  -- fence.package, Example 2 of R259
  ∧ decode 0x040000000003FD06 = .ok (.fence ⟨255, false⟩ .package)
  -- fma.f3 v8, v9, v10, v11: opcode 0x083, slot 3
  ∧ decode (0#4 ++ 0#4 ++ 3#4 ++ 11#8 ++ 10#8 ++ 9#8 ++ 8#8 ++ 0#1 ++ 0#1 ++ 255#8 ++ 0x083#10)
      = .ok (.fma ⟨255, false⟩ 3 8 9 10 11)
  -- aspill v8, v2, range 5: opcode 0x184, c 5
  ∧ (∃ i, decode (0#4 ++ 0#4 ++ 0#4 ++ 5#8 ++ 0#8 ++ 2#8 ++ 8#8 ++ 0#1 ++ 0#1 ++ 255#8 ++ 0x184#10) = .ok i
      ∧ i = .aspill ⟨255, false⟩ 8 2 5)
  -- halt.team 9: opcode 0x206
  ∧ decode (0#4 ++ 1#4 ++ 0#4 ++ 9#8 ++ 0#8 ++ 0#8 ++ 0#8 ++ 0#1 ++ 0#1 ++ 255#8 ++ 0x206#10)
      = .ok (.halt ⟨255, false⟩ true 9)
  -- code 0x021 is unassigned, 0x380 reserved, and 0x302 a hint
  ∧ (decode (255#54 ++ 0x021#10)).toOption = none ∧ (decode (255#54 ++ 0x380#10)).toOption = none
  ∧ decode (255#54 ++ 0x302#10) = .ok (.unassignedHint 0x302)

/-- R93 to R104: decoding reads back what the encoder writes, for every well-formed instruction with every operand. Steps of
the device have no word. -/
def Obligations.DecodeEncode : Prop :=
  ∀ i : Instr, i.flaw = none → i.isEvent = false → decode (encode i) = .ok i

/-- A step always gives a next state: an instruction that cannot go on traps or waits, and no state of the package stops the
model. The model's own property: log entries 1 and 23. -/
def Obligations.StepGoesOn : Prop :=
  ∀ s : State, ∃ t, step s = .next t

/-- R187: the memories stay canonical: after every step, addresses rise in the list of each memory and no zero byte is listed.
That an unlisted byte reads zero is the model's choice (log entry 4). -/
def Obligations.MemoryStaysCanonical : Prop :=
  ∀ s t : State, s.memWf = true → step s = .next t → t.memWf = true

/-! ## Integer, lane and control instructions -/

/-- R140 and R141: iadd to ineg write their result in the active lanes of d and change nothing else. R140, R142 and R108: the
same of and to brev. -/
def Obligations.IntegerArithmetic : Prop :=
  (∀ s i c w d val, Issuing s i c w → arithmeticRule w i = some (d, val) → WritesReg s i c w d val)
  ∧ (∀ s i c w d val, Issuing s i c w → logicRule c w i = some (d, val) → WritesReg s i c w d val)

/-- R140, R143 and R144: bfx, bfi, icmp, sel, mov. R147 and R108: the immediate forms. -/
def Obligations.SelectionAndImmediates : Prop :=
  (∀ s i c w d val, Issuing s i c w → selectRule w i = some (d, val) → WritesReg s i c w d val)
  ∧ (∀ s i c w d val, Issuing s i c w → immediateRule c w i = some (d, val) → WritesReg s i c w d val)

/-- R145 and R147: iadd64, imad64, shl64 and lea write a register pair. -/
def Obligations.PairForms : Prop :=
  ∀ s i c w d val, Issuing s i c w → i.flaw = none → pairRule w i = some (d, val) → WritesPair s i c w d val

/-- R129: movs reads the system registers: a pair for s.team and s.clock. -/
def Obligations.SystemRegisters : Prop :=
  ∀ s c w h d (r : SysReg), Issuing s (.movs h d r) c w → (Instr.movs h d r).flaw = none →
    let i : Instr := .movs h d r
    if r = .team ∨ r = .clock then WritesPair s i c w d fun j => BitVec.ofNat 64 (systemValue s c w (c.act w i) r j)
    else WritesReg s i c w d fun j => BitVec.ofNat 32 (systemValue s c w (c.act w i) r j)

/-- R149 to R154: lane exchange. -/
def Obligations.LaneExchange : Prop :=
  ∀ s i c w d val, Issuing s i c w → laneRule c w i = some (d, val) → WritesReg s i c w d val

/-- R155, R156, R159 and R160: br, brc, ret, prio, exit, and jmp without a link replace the issuing entry and change nothing
else. R155 to R157: call, and jmp with a link, also write PC + 8 to the link pair in the transferring lanes. -/
def Obligations.ControlTransfers : Prop :=
  (∀ s i c w es, Issuing s i c w → linkOf i = none → transferRule c w i = some es → Transfers s i c w es)
  ∧ (∀ s i c w d es, Issuing s i c w → i.flaw = none → linkOf i = some d → transferRule c w i = some es →
    TransfersLinked s i c w es d)

/-- R36 and R39: replacing the entry at a PC by entries whose lanes it held keeps the frontier well formed. -/
def Obligations.FrontierKept : Prop :=
  ∀ (w : Weft) (e : Entry) (es : List Entry), FrontierOk w.held → e ∈ w.held →
    (∀ a ∈ es, a.mask &&& ~~~e.mask = 0) → es.Pairwise (fun a b => a.mask &&& b.mask = 0) →
    FrontierOk (w.replaceEntry e.pc es).held

/-- R161 and R162: nop advances its entry and changes nothing else; yield also notes the
resident wefts of its quadrant but itself, when a lane is active, with its 1,024 cycles and its own; of these its pass waits for
the ones that were ready. R103 and R260: a hint advances its entry, writes no register, is never held and never traps, and changes
no visible state. The wefts noted by yield follow log entry 25; the line fill within a step log entry 7. -/
def Obligations.NopYieldAndHints : Prop :=
  (∀ s c w h, Issuing s (.nop h) c w → WritesNothing s (.nop h) c w)
  ∧ (∀ s c w h, Issuing s (.yield h) c w →
      ∃ t w', exec (.yield h) s = .next t ∧ Completed s t c w w' 0 ∧ w'.regs = w.regs
        ∧ (c.act w (.yield h) = 0 → w'.yielded.map (·.left) = w.yielded.map (·.left))
        ∧ (c.act w (.yield h) ≠ 0 → w'.yielded = some
            { slots := ((s.loom c.loom).wefts.filter fun p =>
                p.1 != c.slot && p.1 % 4 == c.slot % 4 && p.2.ended.isNone).map (·.1),
              left := 1025 }))
  ∧ (∀ (s t : State) l k w y, t.weft? l k = some w → w.yielded = some y → y.left = 1025 →
      s.yieldedNow exec t l k = t.setWeft l k
        { w with yielded := some { y with slots := y.slots.filter fun j => (s.unyielded l).ready exec l j } })
  ∧ (∀ s i c w, s.cur = some c → s.weft? c.loom c.slot = some w →
    (match i with | .ipref .. | .dpref .. | .unassignedHint _ => True | _ => False) →
    ∃ s1 t w', OnlyFills s s1 c.loom ∧ exec i s = .next t ∧ Completed s1 t c w w' 0 ∧ w'.regs = w.regs)

/-- R163 and R434: brk and trap complete, and then raise their trap, which records their PC and code; with no active lane they
change nothing. -/
def Obligations.Breakpoints : Prop :=
  ∀ s c w h code, ∀ i cause, (i = .brk h code ∧ cause = 0x1D ∨ i = .trap h code ∧ cause = 0x1E) → Issuing s i c w →
    (c.act w i = 0 → WritesNothing s i c w)
    ∧ (c.act w i ≠ 0 → ∃ t w' lane, lowestActive (c.act w i) = some lane ∧ Completed s t c w w' 0 ∧ w'.regs = w.regs
        ∧ exec i s = .next (t.raise c.loom c.slot c.pc lane { cause := cause, code := code.toNat, lane := some lane }))

/-- R164 and R165: vgrow. Its registers are obtained at once where no earlier one waits and the blocks are free; a smaller n
traps; else the weft waits to issue it, behind the others. R164 and R166: vshrink discards the registers from n up and frees their blocks;
it waits while one of them is pending. That a smaller n traps is the reading of log entry 27. -/
def Obligations.Allotment : Prop :=
  (∀ s c w h d n, Issuing s (.vgrow h d n) c w →
    let i : Instr := .vgrow h d n
    let need := blocksOf n.toNat - blocksOf w.allot
    let others := (s.loom c.loom).growers.filter (· != c.slot)
    (c.act w i = 0 → WritesNothing s i c w)
    ∧ (c.act w i ≠ 0 → n.toNat < w.allot → Traps s i c w { cause := 0x02 })
    ∧ (c.act w i ≠ 0 → w.allot ≤ n.toNat →
        (need = 0 ∨ others = [] ∧ need ≤ (s.loom c.loom).freeBlocks) →
        CompletesAs s i c (s.setWeft c.loom c.slot { w with allot := n.toNat }) { w with allot := n.toNat } 0 (c.act w i) d
          fun _ => 0)
    ∧ (c.act w i ≠ 0 → w.allot ≤ n.toNat →
        ¬ (need = 0 ∨ others = [] ∧ need ≤ (s.loom c.loom).freeBlocks) →
        exec i s = .next ((s.modLoom c.loom fun y => { y with growers := others ++ [c.slot] }).setWeft c.loom c.slot
          ({ w with wait := .vgrow c.pc c.mask d n.toNat (c.act w i) s.clock } : Weft))))
  ∧ (∀ s c w h n, Issuing s (.vshrink h n) c w →
    let i : Instr := .vshrink h n
    let w1 : Weft := { w with allot := n.toNat, regs := w.regs.filter (fun p => p.1 < 32 * n.toNat),
                              poison := w.poison.filter (fun p => p.1 < 32 * n.toNat),
                              soft := w.soft.filter (· < 32 * n.toNat) }
    let waits : Prop := ∃ r ∈ s.pending c.loom c.slot, n.toNat ≤ r.toNat ∧ r.toNat < w.allot
    let barred : Prop := w.allot < n.toNat ∨ portAtOrAbove w n.toNat = true
    (c.act w i = 0 → WritesNothing s i c w)
    ∧ (c.act w i ≠ 0 → barred → Traps s i c w { cause := 0x02 })
    ∧ (c.act w i ≠ 0 → ¬ barred → waits → Holds s i)
    ∧ (c.act w i ≠ 0 → ¬ barred → ¬ waits → n.toNat < w.allot → CompletesAs s i c (s.setWeft c.loom c.slot w1) w1 0 0 255
        fun _ => 0)
    ∧ (c.act w i ≠ 0 → ¬ barred → n.toNat = w.allot → WritesNothing s i c w))

/-! ## Slot-named arithmetic -/

/-- R168, R170, R173 to R175: fadd to fround give each element's result, rounded once, with the flags and records of every
active lane, and change nothing else. Flags reach s.fpx in the step of their issue (log entries 8 and 9). -/
def Obligations.ElementArithmetic : Prop :=
  ∀ s i c w n d g, Issuing s i c w → elementRule c w i = some (n, d, g) →
    WritesElements s i c w (slotOf w n).width d fun j => (List.range (slotOf w n).perLane).map (g j)

/-- R169 and R176: fdiv to ftanh, of a float slot; any other kind of slot is a format fault. The transcendental results are log
entry 15's. -/
def Obligations.FloatFunctions : Prop :=
  ∀ s i c w n d g, Issuing s i c w → floatRule w i = some (n, d, g) →
    ((slotOf w n).kind = 0 →
      WritesElements s i c w (slotOf w n).width d fun j => (List.range (slotOf w n).perLane).map (g j))
    ∧ ((slotOf w n).kind ≠ 0 → Traps s i c w { cause := 0x07 })

/-- R179, R181 and R183: fcvt, itof and fdot. -/
def Obligations.Conversions : Prop :=
  ∀ s i c w n d ok g, Issuing s i c w → convertRule c w i = some (n, d, ok, g) →
    (ok = true → WritesElements s i c w (slotOf w n).width d g)
    ∧ (ok = false → Traps s i c w { cause := 0x07 })

/-- R177, R178, R180 and R182: fcmp, fclass, ftoi, fpack, funpack; an element beyond the slot's P is a format fault. -/
def Obligations.WordResults : Prop :=
  ∀ s i c w d ok val fl, Issuing s i c w → wordRule w i = some (d, ok, val, fl) →
    (ok = true → CompletesAs s i c s w ((activeLanes (c.act w i)).foldl (fun f j => f ||| fl j) 0) (c.act w i) d val)
    ∧ (ok = false → Traps s i c w { cause := 0x07 })

/-- R184: setfmt sets a slot to the lowest active lane's definition, reserved bits zero; a rejected one is a format fault.
R185: getfmt reads a slot. R186: fflags reads s.fpx and clears the flags of its mask. Flags reach s.fpx in the step of their
issue (log entry 9). -/
def Obligations.FormatSlots : Prop :=
  (∀ s c w h n a, Issuing s (.setfmt h n a) c w →
    let i : Instr := .setfmt h n a
    (c.act w i = 0 → WritesNothing s i c w)
    ∧ ∀ l, lowestActive (c.act w i) = some l →
        ((Fmt.ofDef (w.pair a l)).rejected n.toNat = true → Traps s i c w { cause := 0x07, lane := some l })
        ∧ ((Fmt.ofDef (w.pair a l)).rejected n.toNat = false →
            let w1 : Weft := { w with fmts := SMap.set w.fmts binary32 n.toNat (cleanDef (w.pair a l)) }
            (n ≠ 0 → w1.fmt n = cleanDef (w.pair a l))
            ∧ CompletesAs s i c (s.setWeft c.loom c.slot w1) w1 0 0 255 fun _ => 0))
  ∧ (∀ s c w h n d, Issuing s (.getfmt h n d) c w → (Instr.getfmt h n d).flaw = none →
      WritesPair s (.getfmt h n d) c w d fun _ => cleanDef (w.fmt n))
  ∧ (∀ s c w h d mask, Issuing s (.fflags h d mask) c w →
      let i : Instr := .fflags h d mask
      let w1 : Weft := { w with fpx := w.fpx &&& ~~~(mask.setWidth 6) }
      (c.act w i = 0 → WritesNothing s i c w)
      ∧ (c.act w i ≠ 0 →
        CompletesAs s i c (s.setWeft c.loom c.slot w1) w1 0 (c.act w i) d fun _ => w.fpx.setWidth 32))

/-! ## Memory instructions and atomics -/

/-- R98, R251 to R253: ld and ldw write, in the active lanes, what the lanes' bytes hold, low byte first. R122, R123, R254: the
resid forms read zero for an element that is not resident, and clear its bit of the residency register. No byte of
memory changes. Memory is seen in the strongest order (log entry 3). -/
def Obligations.Loads : Prop :=
  (∀ (s : State) (v : View) (x : Accesses) (q : Bool) p,
    byteAt (noted s v x) p = byteAt s p ∧ byteAt ((noted s v x).acquire v q x.list) p = byteAt s p)
  ∧ (∀ s i c w x d val, Issuing s i c w → i.flaw = none → accessRule w (c.act w i) i = some x →
    TakesEffect s (viewAt s c w) x →
    let s0 := noted s (viewAt s c w) x
    loadRule s0 (viewAt s c w) w i = some (d, val) →
    let s1 := s0.acquire (viewAt s c w) (acquiring i) x.list
    if loadsPair i then CompletesPair s i c s1 w (c.act w i) d fun j => BitVec.ofNat 64 (val j)
    else CompletesAs s i c s1 w 0 (c.act w i) d fun j => BitVec.ofNat 32 (val j))
  ∧ (∀ s i c w x d m val gone, Issuing s i c w → i.flaw = none → accessRule w (c.act w i) i = some x →
    TakesEffect s (viewAt s c w) x →
    let s0 := noted s (viewAt s c w) x
    residRule s0 (viewAt s c w) w i = some (d, m, val, gone) →
    let s1 := s0.acquire (viewAt s c w) (acquiring i) x.list
    ∃ w1, w1 = { w with regs := w1.regs, poison := w1.poison, soft := w1.soft }
      ∧ (if loadsPair i then PairsWritten w w1 (c.act w i) d fun j => BitVec.ofNat 64 (val j)
        else LanesWritten w w1 (c.act w i) d fun j => BitVec.ofNat 32 (val j))
      ∧ CompletesAs s i c (s1.setWeft c.loom c.slot w1) w1 0 (c.act w i) m fun j => w.lane m j &&& ~~~(gone j))

/-- R252, R253, R255, R427: st and stw store the lanes' bytes in ascending order of lanes; every other byte of every memory and
every register is as before. A store to an SO, RC or market page sets the team's side-effect bit. Memory is seen in the
strongest order (log entry 3). -/
def Obligations.Stores : Prop :=
  (∀ (s : State) (v : View) (x : Accesses) p, byteAt (noted s v x) p = byteAt s p)
  ∧ ∀ s i c w x new, Issuing s i c w → accessRule w (c.act w i) i = some x → TakesEffect s (viewAt s c w) x →
    storeRule w i = some new →
    let s0 := noted s (viewAt s c w) x
    let s1 := if s0.sideEffectStore (viewAt s c w) x.list then s0.sideEffect c.loom w else s0
    ∃ s2 w2 olds, LanesStored c.loom (fun j old => some (new j old)) s1 s2 (spotsOf s0 (viewAt s c w) x) olds
      ∧ SameUnlessAwaiting w w2 ∧ CompletesAs s i c s2 w2 0 0 255 fun _ => 0

/-- R255 to R257, R427: an atomic reads and writes each lane's location in ascending order of lanes, and d receives the old
values. Its team's side-effect bit is set. Memory is seen in the strongest order (log entry 3). -/
def Obligations.Atomics : Prop :=
  (∀ (s : State) (v : View) (x : Accesses) (q : Bool) p,
    byteAt (noted s v x) p = byteAt s p ∧ byteAt (s.acquire v q x.list) p = byteAt s p)
  ∧ ∀ s i c w x d q new, Issuing s i c w → i.flaw = none → accessRule w (c.act w i) i = some x →
    TakesEffect s (viewAt s c w) x → atomicRule w i = some (d, q, new) → c.act w i ≠ 0 →
    let s0 := noted s (viewAt s c w) x
    ∃ s2 w2 olds, LanesStored c.loom new (s0.sideEffect c.loom w) s2 (spotsOf s0 (viewAt s c w) x) olds
      ∧ SameUnlessAwaiting w w2
      ∧ let s3 := s2.acquire (viewAt s c w) (acquiring i) x.list
        if q then CompletesPair s i c s3 w2 (c.act w i) d fun j => BitVec.ofNat 64 (oldOf olds j)
        else CompletesAs s i c s3 w2 0 (c.act w i) d fun j => BitVec.ofNat 32 (oldOf olds j)

/-- R258: atom.fadd adds at each lane's location in ascending order of lanes, each sum rounded once in the slot; d receives the
old codes. Any slot but a float or integer one of 8, 16 or 32 bits is a format fault. -/
def Obligations.FloatAtomic : Prop :=
  ∀ s c w h n d a b imm o, Issuing s (.atomFadd h n d a b imm o) c w →
    let i : Instr := .atomFadd h n d a b imm o
    let f := slotOf w n
    (f.kind = 2 ∨ f.width ≠ 8 ∧ f.width ≠ 16 ∧ f.width ≠ 32 → Traps s i c w { cause := 0x07 })
    ∧ ∀ x, accessRule w (c.act w i) i = some x → TakesEffect s (viewAt s c w) x → c.act w i ≠ 0 →
      let sum (j old : Nat) : Rounded :=
        roundOf f (sumNums f.rdn [f.decode old, f.elemNum (w.lane d j) 0]) [f.decode old, f.elemNum (w.lane d j) 0]
      let s0 := noted s (viewAt s c w) x
      let new (j old : Nat) : Option Nat := some (sum j old).bits
      let recs (olds : List (Nat × Nat)) : List ConvRec := olds.filterMap fun p => (sum p.1 p.2).record.map fun code =>
        { pc := c.pc, slot := c.slot, lane := p.1, engine := false, loom := c.loom, code := code, element := 0 }
      ∃ s2 w2 olds w1, LanesStored c.loom new (s0.sideEffect c.loom w) s2 (spotsOf s0 (viewAt s c w) x) olds
        ∧ SameUnlessAwaiting w w2 ∧ s2.weft? c.loom c.slot = some w2
        ∧ w1 = { w2 with regs := w1.regs, poison := w1.poison, soft := w1.soft }
        ∧ LanesWritten w2 w1 (c.act w i) d (fun j => BitVec.ofNat 32 (oldOf olds j))
        ∧ Records s i c ((s2.acquire (viewAt s c w) (acquiring i) x.list).setWeft c.loom c.slot w1) w1 (recs olds)
            (flagsOf (olds.map fun p => sum p.1 p.2))

/-- R255: a memory instruction with no active lane makes no access and changes nothing, but that an atomic sets its team's
side-effect bit whatever its lanes (R427). R6: a user-mode store to a field of a queue block that only supervisor mode writes is
the privilege fault of R415's item 6, at the lowest lane that would write one. R193, R211, R215: an access that meets an
uncorrectable error is a memory-error fault at the lowest lane that meets it, with its address. R254: an access of an active lane that meets a case of orders 1 to 6, or 2½, is a precise fault: the first
order that any lane meets, at the lowest lane that meets it; nothing else changes. R254, order 7: where a page is not resident and nothing comes before it, the weft parks: no lane
takes effect, and the instruction issues again. The range scoreboard (R197) holds an instruction before any check. -/
def Obligations.AccessStops : Prop :=
  (∀ s i c w x, Issuing s i c w → accessRule w (c.act w i) i = some x → c.act w i = 0 →
    CompletesAs s i c (if x.load && x.store then s.sideEffect c.loom w else s) w 0 0 255 fun _ => 0)
  ∧ (∀ (s : State) i (c : Issue) w x, accessRule w (c.act w i) i = some x →
    let sv (a : Acc) : Prop := ∃ sp ∈ s.spots (viewAt s c w) a, ∃ q, fieldAt s.devBlocks sp = some q ∧ q.1 ≠ 0
    (x.store = false ∨ w.sv = true ∨ (∀ a ∈ x.list, ¬ sv a) → s.svDenied c.loom w i (c.act w i) = none)
    ∧ ∀ (a : Acc) pre post, x.store = true → w.sv = false → x.list = pre ++ a :: post → sv a → (∀ b ∈ pre, ¬ sv b) →
      s.svDenied c.loom w i (c.act w i) = some { cause := 0x04, lane := some a.lane, index := a.lane })
  ∧ (∀ s i c w x (a : Acc) (pre post : List Acc), Issuing s i c w → accessRule w (c.act w i) i = some x →
    NotHeld s (viewAt s c w) x →
    (∀ b ∈ x.list, accessOrder s (viewAt s c w) x.store b = 90 ∨ x.resid ∧ accessOrder s (viewAt s c w) x.store b = 70) →
    x.list = pre ++ a :: post → MeetsError s (viewAt s c w) x a → (∀ b ∈ pre, ¬ MeetsError s (viewAt s c w) x b) →
    Traps s i c w { cause := 0x0E, lane := some a.lane, index := a.lane, detail := a.va })
  ∧ (∀ s i c w x (a : Acc) (pre post : List Acc), Issuing s i c w → accessRule w (c.act w i) i = some x →
    NotHeld s (viewAt s c w) x → x.list = pre ++ a :: post →
    let order := accessOrder s (viewAt s c w) x.store
    order a < 70 → (∀ b ∈ pre, order a < order b) → (∀ b ∈ post, order a ≤ order b) →
    ∃ va, (order a = 25 → va = a.va.toNat)
      ∧ (order a ≠ 25 → va ∈ a.bytes ∧ (s.spot (viewAt s c w) va).caseOf x.store = order a)
      ∧ Traps s i c w { cause := causeOfCase (order a), lane := some a.lane, index := a.lane, detail := BitVec.ofNat 64 va })
  ∧ (∀ s i c w x, Issuing s i c w → accessRule w (c.act w i) i = some x → NotHeld s (viewAt s c w) x →
    x.resid = false →
    (∃ a ∈ x.list, accessOrder s (viewAt s c w) x.store a = 70) →
    (∀ a ∈ x.list, 70 ≤ accessOrder s (viewAt s c w) x.store a) →
    exec i s = .next (s.setWeft c.loom c.slot { w with wait := .parked c.pc }))
  ∧ (∀ s i c w x, Issuing s i c w → accessRule w (c.act w i) i = some x →
    s.rangeHolds (viewAt s c w) x.load x.store x.list = true →
    exec i s = .next (s.countLoom c.loom 0x0B w.ctx 1))

/-- R206, R259 to R262: fence empties the loom's L1 at die scope or wider; pagein posts one residency request for each page
that is valid and not resident, or faults, at orders 1 to 4 of R254 alone, at the lowest lane of the first order met; probe reads the leaf that translates each lane's address. -/
def Obligations.FenceAndPaging : Prop :=
  (∀ s c w h sc, Issuing s (.fence h sc) c w →
    let i : Instr := .fence h sc
    CompletesAs s i c (if c.act w i ≠ 0 ∧ (sc = .die ∨ sc = .package ∨ sc = .group ∨ sc = .system) then
        s.modLoom c.loom fun x => { x with l1 := [] } else s) w 0 0 255 fun _ => 0)
  ∧ (∀ s c w h a b imm, Issuing s (.pagein h a b imm) c w →
    let i : Instr := .pagein h a b imm
    let vas := (activeLanes (c.act w i)).map (addressOf w a b imm)
    (∀ va ∈ vas, 50 ≤ (s.spot (viewAt s c w) va.toNat).caseOf false) →
    let pages := (vas.filterMap fun va =>
      match s.spot (viewAt s c w) va.toNat with
      | .page x _ => if pteResident x.pte then none else some (x.base va.toNat)
      | _ => none).eraseDups
    CompletesAs s i c (pages.foldl (fun s p => s.eventRecord 0x01 c.loom w.ctx (BitVec.ofNat 64 p) 0) s) w 0 0 255
      fun _ => 0)
  ∧ (∀ s c w h a b imm j (pre post : List Nat), Issuing s (.pagein h a b imm) c w →
    let i : Instr := .pagein h a b imm
    let order (k : Nat) : Nat := (s.spot (viewAt s c w) (addressOf w a b imm k).toNat).caseOf false
    activeLanes (c.act w i) = pre ++ j :: post → order j < 50 → (∀ k ∈ pre, order j < order k) →
    (∀ k ∈ post, order j ≤ order k) →
    Traps s i c w { cause := causeOfCase (order j), lane := some j, index := j, detail := addressOf w a b imm j })
  ∧ (∀ s c w h d a b imm, Issuing s (.probe h d a b imm) c w →
    WritesReg s (.probe h d a b imm) c w d fun j => probeRule s c w (addressOf w a b imm j))

/-! ## Engine operations -/

/-- R264 to R266, R286, R329, R356: copy, gather and scatter read their block, their records and the index records that these
name, all at issue; then they wait for earlier operations on their tile slots, fault, or enter their engine. The order of the
checks is log entry 29's. R82 to R84, R125, R267 to R271: a unit writes its element, of a tile slot or of memory, and progress
rises (`CopyUnits`); an overlapping straight copy first reads them all. -/
def Obligations.CopyIssue : Prop :=
  CopyUnits ∧ ∀ s c w h t n d a (i : Instr), (i = .copy h t n d a ∨ i = .gather h t n d a ∨ i = .scatter h t n d a) →
    Issuing s i c w →
    Enters s i c w ((engineOf i).getD .copy)
      (∀ s0 s1 s2 s3 s4 blk r0 r1 i0 i1, Reads c w i s (w.pair a (laneL c w i)) 64 64 s0 blk →
        (if t = .ts then s1 = s0 ∧ r0 = 0 else ReadsRecord c w i s0 (BitVec.ofNat 64 blk) s1 r0) →
        (if t = .td then s2 = s1 ∧ r1 = 0 else ReadsRecord c w i s1 (BitVec.ofNat 64 (blk / 2 ^ 64)) s2 r1) →
        (if t = .ts then s3 = s2 ∧ i0 = 0 else ReadsIndex c w i s2 (Tensor.ofBits r0) s3 i0) →
        (if t = .td then s4 = s3 ∧ i1 = 0 else ReadsIndex c w i s3 (Tensor.ofBits r1) s4 i1) →
        let (o, other) := copyCaptures s4 c w i t n a blk r0 r1 i0 i1
        (s4.interlocked c.loom w opTouch o.copyTouch o.id = true → Holds s i)
        ∧ (s4.interlocked c.loom w opTouch o.copyTouch o.id = false →
            (∀ e, s4.copyCheck o other = some e → Traps s i c w e)
            ∧ (s4.copyCheck o other = none → Accepted s i c w s4 o o.copyPlan.spans false)))

/-- R264, R272: cmpst and expld read their block and enter the gather engine, with N units. No result is written where the
progress register holds N already (log entry 30). A unit counts its mask bit and, where it is set, writes its element, and
progress rises (`CompressUnits`). -/
def Obligations.CompressIssue : Prop :=
  CompressUnits ∧ ∀ s c w h n d a b (i : Instr), (i = .cmpst h n d a b ∨ i = .expld h n d a b) → Issuing s i c w →
    Enters s i c w .gath
      (∀ s0 blk, Reads c w i s (w.pair a (laneL c w i)) 32 32 s0 blk →
        let o : Op := { baseOp s0 c w i with
          opa := w.pair a (laneL c w i), block := BitVec.ofNat 512 blk, defs := eightDefs [w.fmt n, scaleOf w (w.fmt n)],
          total := blk / 2 ^ 192 % 2 ^ 32 }
        Accepted s i c w s0 o o.cmpPlan.spans false)

/-- R264, R275, R277, R279: xput, xget and xatom read their block, fault on a counter that is not aligned (and xatom on a
length, a pair or a slot that it does not take, a pair register of its port among them; one of 8 bytes waits for the odd
registers of its pairs, R134, and takes a register-data fault on one in error, R119), or enter the
gateway's queue with the next tag. xatom's own checks are log
entry 29's. R277 to R281, R449: a unit sends its packet (`FabricUnits`; log entry 36). -/
def Obligations.FabricIssue : Prop :=
  FabricUnits ∧ ∀ s c w a (i : Instr), (match i with | .xput _ _ b | .xget _ _ b | .xatom _ _ _ _ b _ _ => b = a | _ => False) →
    Issuing s i c w →
    Enters s i c w .fab
      (∀ s0 blk, Reads c w i s (w.pair a (laneL c w i)) 64 64 s0 blk →
        let b := BitVec.ofNat 512 blk
        let p := FabPlan.ofBlock b
        let s1 : State := { s0 with fabric := { s0.fabric with nextTag := s0.fabric.nextTag + 1 } }
        let o : Op := { baseOp s0 c w i with
          opa := w.pair a (laneL c w i), block := b, tag := BitVec.ofNat 24 (s0.fabric.nextTag.toNat % 2 ^ 23) }
        (p.cnt = true ∧ p.ctr.toNat % 8 ≠ 0 → Traps s i c w (faultAtL c w i 0x08 p.ctr))
        ∧ (p.cnt = false ∨ p.ctr.toNat % 8 = 0 →
          match i with
          | .xatom _ op n _ _ rb rc =>
            let val (r : Reg) : DWord :=
              if p.len = 8 then w.pair r (laneL c w i) else (w.lane r (laneL c w i)).setWidth 64
            let pairs : List Reg := if op = .cas then [rb, rb + 1, rc, rc + 1] else [rb, rb + 1]
            let highs : List Reg := (if op = .cas then [rb + 1, rc + 1] else [rb + 1]).filter (· != 255)
            let odd : Prop := p.len = 8 ∧ (rb.toNat % 2 = 1 ∨ op = .cas ∧ rc.toNat % 2 = 1
              ∨ ∃ q, w.port = some q ∧ ∃ r ∈ pairs, r = q.s ∨ r = q.r)
            let waits : Prop := p.len = 8 ∧ ∃ r ∈ highs, r ∈ s.pending c.loom c.slot
            let bad (r : Reg) : Prop := (SMap.find? w.poison (regKey r (laneL c w i))).isSome = true
            let sound : Prop := p.len = 8 → ∀ r ∈ highs, ¬ bad r
            let clean : Prop := p.len = 8 → ∀ r ∈ highs, regKey r (laneL c w i) ∉ w.soft
            (p.len ≠ 4 ∧ p.len ≠ 8 → Traps s i c w (faultAtL c w i 0x10))
            ∧ (p.len = 4 ∨ p.len = 8 → (odd → Traps s i c w (faultAtL c w i 0x02))
              ∧ (¬ odd → waits → Holds s i)
              ∧ (¬ odd → ¬ waits → ∀ pre r post, p.len = 8 → highs = pre ++ r :: post → bad r → (∀ q ∈ pre, ¬ bad q) →
                Traps s i c w { cause := 0x06, code := r.toNat, lane := some (laneL c w i), index := laneL c w i })
              ∧ (¬ odd → ¬ waits → sound → op = .fadd → faddSlot (slotOf w n) = false → Traps s i c w (faultAtL c w i 0x07))
              ∧ (¬ odd → ¬ waits → sound → clean → (op = .fadd → faddSlot (slotOf w n) = true) →
                Accepted s i c w s1 { o with opb := val rb, opc := if op = .cas then val rc else 0,
                                             defs := eightDefs [w.fmt n], total := 1 } [] true))
          | _ => Accepted s i c w s1 { o with total := (p.len + 127) / 128 } [] true))

/-- R280, R281: xred reads its block and its route record, faults on a record that is empty, too long or without its root, or
on a slot that is no float or integer slot, or enters the gateway's queue. Record checks and codes follow log entry 29. -/
def Obligations.ReductionIssue : Prop :=
  ∀ s c w h op n d a, Issuing s (.xred h op n d a) c w →
    let i : Instr := .xred h op n d a
    (c.act w i = 0 → WritesNothing s i c w)
    ∧ (c.act w i ≠ 0 → (slotOf w n).kind ≠ 0 ∧ (slotOf w n).kind ≠ 1 → Traps s i c w { cause := 0x07 })
    ∧ ((slotOf w n).kind = 0 ∨ (slotOf w n).kind = 1 →
      Enters s i c w .fab
        (∀ s0 blk, Reads c w i s (w.pair a (laneL c w i)) 64 64 s0 blk →
          let b := BitVec.ofNat 512 blk
          let p := FabPlan.ofBlock b
          (p.cnt = true ∧ p.ctr.toNat % 8 ≠ 0 → Traps s i c w (faultAtL c w i 0x08 p.ctr))
          ∧ ((p.cnt = false ∨ p.ctr.toNat % 8 = 0) → ∀ s1 head, Reads c w i s0 p.route 64 64 s1 head →
            let np := head / 2 ^ 32 % 2 ^ 13
            (np = 0 ∨ 4096 < np ∨ head / 2 ^ 64 % 2 ^ 192 = 0 → Traps s i c w (faultAtL c w i 0x10))
            ∧ (1 ≤ np → np ≤ 4096 → head / 2 ^ 64 % 2 ^ 192 ≠ 0 →
              ∀ s2 ids, Reads c w i s1 (p.route + 64) (2 * np) 1 s2 ids →
              let named : Prop := ∃ k < np, ids / 2 ^ (16 * k) % 4096 = head / 2 ^ 256 % 4096
              (¬ named → Traps s i c w (faultAtL c w i 0x10))
              ∧ (named → Accepted s i c w { s2 with fabric := { s2.fabric with nextTag := s2.fabric.nextTag + 1 } }
                  { baseOp s2 c w i with
                    opa := w.pair a (laneL c w i), block := b, defs := eightDefs [w.fmt n], contributor := c.loom,
                    total := (p.len + 1024 / (slotOf w n).width - 1) / (1024 / (slotOf w n).width),
                    route := leBytes 64 head ++ leBytes (2 * np) ids,
                    tag := BitVec.ofNat 24 (s2.fabric.nextTag.toNat % 2 ^ 23) } [] true)))))

/-- R273, R274: bankop captures its operands, faults on a format, an alignment or a page that is not writable market memory,
parks on a page that is not resident, or is sent to every bank of its range, keeping the leaves that it was checked under. R6: in
user mode a range with a field that only supervisor mode writes is the privilege fault of R415's item 6. R378: sb.move faults on a handle that names no
movable entry or on a loom that is none or its own; else it enters the copy engine with a unit for the start, one for each row
of a pinned range, and one for the end. A window address gives bankop cause 0x15 (log entry 29). A bank's part makes its
elements in place, in ascending order (`BankParts`), and the last unit of a move frees the source and sets the target
(`MoveCommits`). -/
def Obligations.BankAndMoveIssue : Prop :=
  BankParts ∧ MoveCommits ∧ (∀ s c w h op n a b cc, Issuing s (.bankop h op n a b cc) c w →
    let i : Instr := .bankop h op n a b cc
    let l := laneL c w i
    let o : Op := { baseOp s c w i with
      opa := w.pair a l, opb := (w.lane b l).setWidth 64,
      opc := if op = .cvt ∨ op = .zero ∨ op = .transp then 0 else (w.lane cc l).setWidth 64,
      defs := eightDefs [w.fmt n, if op = .cvt then w.fmt (cc.extractLsb' 0 4) else 0] }
    let p := o.bankPlan
    let v := s.opView o
    Enters s i c w .bank
      ((∀ e, p.check l = some e → Traps s i c w e)
      ∧ (p.check l = none →
        let k := (s.bankCases v p).1
        let at_ := BitVec.ofNat 64 (s.bankCases v p).2
        (k = 55 → Traps s i c w (faultAtL c w i 0x15))
        ∧ (k ≠ 55 → k < 70 → Traps s i c w (faultAtL c w i (causeOfCase k) at_))
        ∧ (k = 70 → exec i s = .next (s.setWeft c.loom c.slot { w with wait := .parked c.pc }))
        ∧ (70 < k → Accepted s i c w s
            { o with total := p.n, parts := s.commandBanks v p,
                     leaves := (pageStarts p.addr.toNat p.bytes).filterMap fun va =>
                       match s.spot v (va % 2 ^ 64) with
                       | .page x _ => some (va % 2 ^ 64 / 2 ^ 19, (x.pte, x.level))
                       | _ => none } [] true))))
  ∧ (∀ (s : State) (c : Issue) w h op n a b cc,
    let i : Instr := .bankop h op n a b cc
    let l := laneL c w i
    let bytes := ((w.lane b l).toNat * (if op = .transp then 2048 else (slotOf w n).width) + 7) / 8
    let sv (k : Nat) : Prop := ∃ q, fieldAt s.devBlocks (s.spot (viewAt s c w) (((w.pair a l).toNat + k) % 2 ^ 64)) = some q ∧ q.1 ≠ 0
    (c.act w i = 0 ∨ w.sv = true → s.svDenied c.loom w i (c.act w i) = none)
    ∧ (c.act w i ≠ 0 → w.sv = false → ∀ k < bytes, sv k →
        s.svDenied c.loom w i (c.act w i) = some { cause := 0x04, lane := some l, index := l }))
  ∧ (∀ s c w h d b cc, Issuing s (.sbMove h d b cc) c w →
    let i : Instr := .sbMove h d b cc
    let hd := w.lane b (laneL c w i)
    let tl := (w.lane cc (laneL c w i)).toNat
    Enters s i c w .copy
      ((s.movable c.loom w.ctx hd = none → Traps s i c w (faultAtL c w i 0x1A))
      ∧ ∀ k e r, s.movable c.loom w.ctx hd = some (k, e, r) →
        (192 ≤ tl ∨ tl = c.loom → Traps s i c w (faultAtL c w i 0x1A))
        ∧ (tl < 192 → tl ≠ c.loom → Accepted s i c w s { baseOp s c w i with
            opb := hd.setWidth 64, opc := BitVec.ofNat 64 tl,
            total := match r with | some (_, q) => if q.state = .pinned then 64 * q.t + 2 else 2 | none => 2,
            parts := [c.loom, k, tl, 0, 0, 0] } [] true)))

/-- R264, R286, R287, R291, R304: mma, mma.sp, mma.dy and delta read their block, and issue or fault by it. R286, R287, R306 to
R308: aspill, afill, ascale and acvt issue or fault by the range that they name. R89 to R91, R125, R292 to R308: a unit leaves the
cells, and delta's the tile elements, that its rule gives, and progress rises (`MatrixUnits`). -/
def Obligations.MatrixIssue : Prop :=
  MatrixUnits ∧ (∀ s c w h d a b (i : Instr),
    (i = .mma h d a b ∨ i = .mmaSp h d a b ∨ i = .mmaDy h d a b ∨ i = .delta h d a b) → Issuing s i c w →
    Enters s i c w .mat
      (∀ s0 blk, Reads c w i s (w.pair a (laneL c w i)) 64 64 s0 blk →
        let ds := (blockSlots i (BitVec.ofNat 512 blk)).map w.fmt
        MatrixIssues s i c w s0 { baseOp s0 c w i with
          opa := w.pair a (laneL c w i), block := BitVec.ofNat 512 blk, defs := eightDefs (ds ++ ds.map (scaleOf w)) }))
  ∧ (∀ s i c w opa ds, Issuing s i c w → rowCaptures w (laneL c w i) i = some (opa, ds) →
    Enters s i c w .mat (MatrixIssues s i c w s { baseOp s c w i with opa := opa, defs := eightDefs ds }))

/-! ## Tile slots and accumulator ranges -/

/-- R289, R290: tclaim and trel of tile slots. A claim maps free slots, lowest first, to the numbers named: status 2 where a
number is mapped already, 1 where too few slots are free. A release waits for operations on the slots, and faults on a number
that is not mapped. -/
def Obligations.TileClaims : Prop :=
  (∀ s c w h n d t cnt hd tm, Issuing s (.tclaim h false n d t cnt) c w → w.team = some hd →
    s.team? c.loom hd = some tm →
    let i : Instr := .tclaim h false n d t cnt
    let used := (s.loom c.loom).teams.flatMap fun p => p.2.tiles.map (·.2)
    let free := (List.range 64).filter fun p => !used.contains p
    let ns := (List.range cnt.toNat).map fun k => k + t.toNat
    let taken : Prop := ∃ k ∈ ns, (SMap.find? tm.tiles k).isSome = true
    (c.act w i = 0 → WritesNothing s i c w)
    ∧ (c.act w i ≠ 0 → taken → Gives s i c w s w d 2)
    ∧ (c.act w i ≠ 0 → ¬ taken → free.length < cnt.toNat → Gives s i c w s w d 1)
    ∧ (c.act w i ≠ 0 → ¬ taken → cnt.toNat ≤ free.length →
        Gives s i c w (s.modTeam c.loom hd fun q =>
          { q with tiles := (ns.zip free).foldl (fun m p => SMap.put m p.1 p.2) q.tiles }) w d 0))
  ∧ (∀ s c w h t cnt hd tm, Issuing s (.trel h false t cnt) c w → w.team = some hd → s.team? c.loom hd = some tm →
    let i : Instr := .trel h false t cnt
    let ns := (List.range cnt.toNat).map fun k => k + t.toNat
    let busy := s.interlocked c.loom w opTouch { tw := ns } s.fresh
    (c.act w i = 0 → WritesNothing s i c w)
    ∧ (c.act w i ≠ 0 → busy = true → Holds s i)
    ∧ (c.act w i ≠ 0 → busy = false → (∃ k ∈ ns, SMap.find? tm.tiles k = none) → Traps s i c w (faultAtL c w i 0x12))
    ∧ (c.act w i ≠ 0 → busy = false → (∀ k ∈ ns, (SMap.find? tm.tiles k).isSome = true) →
        Does s i c (s.modTeam c.loom hd fun q => { q with tiles := ns.foldl (fun m k => SMap.del m k) q.tiles }) w))

/-- R288 to R290, R299: tclaim.acc opens a working range whose cells are the definition's +0, after pinned ranges have been
evicted to make room; trel.acc frees one. The order of statuses is log entry 31's. -/
def Obligations.RangeClaims : Prop :=
  (∀ s c w h n d t cnt hd tm, Issuing s (.tclaim h true n d t cnt) c w → w.team = some hd →
    s.team? c.loom hd = some tm →
    let i : Instr := .tclaim h true n d t cnt
    let ns := (List.range cnt.toNat).map fun k => k + t.toNat
    let taken : Prop := ∃ k ∈ ns, (SMap.find? tm.accs k).isSome = true
    let bad := (slotOf w n).kind ≠ 0 ∧ (slotOf w n).kind ≠ 1 ∨ (slotOf w n).sblk ≠ 0 ∨ 32 < (slotOf w n).width
    (c.act w i = 0 → WritesNothing s i c w)
    ∧ (c.act w i ≠ 0 → bad → Traps s i c w (faultAtL c w i 0x07))
    ∧ (c.act w i ≠ 0 → ¬ bad → taken → Gives s i c w s w d 2)
    ∧ (c.act w i ≠ 0 → ¬ bad → ¬ taken → s.evict 33 c.loom cnt.toNat = none → Holds s i)
    ∧ (c.act w i ≠ 0 → ¬ bad → ¬ taken → ∀ s1, s.evict 33 c.loom cnt.toNat = some s1 →
        s1.weft? c.loom c.slot = some w →
        ((s1.loom c.loom).freeOwn = none ∨ (s1.loom c.loom).freeTiles.length < cnt.toNat → Gives s i c w s1 w d 1)
        ∧ ∀ e, (s1.loom c.loom).freeOwn = some e → cnt.toNat ≤ (s1.loom c.loom).freeTiles.length →
          let o : Own := { state := .working, t := cnt.toNat, ctx := w.ctx, gen := 0, team := hd, key := 0, spill := 0,
                           def_ := w.fmt n, tiles := (s1.loom c.loom).freeTiles.take cnt.toNat, dtime := 0, was := .free }
          let s2 := s1.modLoom c.loom fun y => { y with owners := SMap.put y.owners e o }
          let s3 := s2.setCells c.loom o (o.places.map fun p => (p.1, p.2, (slotOf w n).zeroCode false))
          Gives s i c w (s3.modTeam c.loom hd fun q =>
            { q with accs := (List.range cnt.toNat).foldl (fun m k => SMap.put m (t.toNat + k) (e, k)) q.accs }) w d 0))
  ∧ (∀ s c w h t cnt hd, Issuing s (.trel h true t cnt) c w → w.team = some hd →
    let i : Instr := .trel h true t cnt
    let busy := s.interlocked c.loom w opTouch { aw := [t.toNat], frees := true } s.fresh
    let r := s.rangeAt c.loom c.slot t.toNat
    (c.act w i = 0 → WritesNothing s i c w)
    ∧ (c.act w i ≠ 0 → busy = true → Holds s i)
    ∧ (c.act w i ≠ 0 → busy = false → (∀ e o, r = some (e, o) → o.state ≠ .working ∨ o.t ≠ cnt.toNat) →
        Traps s i c w (faultAtL c w i 0x13))
    ∧ (c.act w i ≠ 0 → busy = false → ∀ e o, r = some (e, o) → o.state = .working → o.t = cnt.toNat →
        Does s i c ((s.modLoom c.loom fun y => { y with owners := SMap.del y.owners e }).modTeam c.loom hd fun q =>
          { q with accs := q.accs.filter fun p => p.2.1 != e }) w))

/-- R300 to R302: pin gives a working range a key and a spill area; unpin takes them back; detach leaves it pinned and
unmapped. Each sets the side-effect bit. A range in another state is an accumulator fault, unpin and detach wait for every earlier
operation on the range, and none does anything with no lane active (R57). -/
def Obligations.Pins : Prop :=
  (∀ s i c w, (match i with | .pin .. | .unpin .. | .detach .. => True | _ => False) → Issuing s i c w → c.act w i = 0 →
    WritesNothing s i c w)
  ∧ (∀ s i c w (t : BitVec 8), ((∃ h, i = .unpin h t) ∨ ∃ h, i = .detach h t) → Issuing s i c w → c.act w i ≠ 0 →
    s.interlocked c.loom w opTouch { aw := [t.toNat], frees := true } s.fresh = true → Holds s i)
  ∧ (∀ s c w h d a b t, Issuing s (.pin h d a b t) c w → c.act w (.pin h d a b t) ≠ 0 →
    (∀ e o, s.rangeAt c.loom c.slot t.toNat = some (e, o) → o.state ≠ .working) →
    Traps s (.pin h d a b t) c w (faultAtL c w (.pin h d a b t) 0x13))
  ∧ (∀ s c w h d a b t e o, Issuing s (.pin h d a b t) c w → c.act w (.pin h d a b t) ≠ 0 →
    s.rangeAt c.loom c.slot t.toNat = some (e, o) → o.state = .working →
    let i : Instr := .pin h d a b t
    let key := w.pair a (laneL c w i)
    let area := w.pair b (laneL c w i)
    let s0 := s.sideEffect c.loom w
    (((s0.loom c.loom).keyed w.ctx key).isSome = true → Gives s i c w s0 w d 1)
    ∧ (((s0.loom c.loom).keyed w.ctx key).isSome = false → s0.spillUnusable c.loom w.ctx area o.imageBytes = true →
        Gives s i c w s0 w d 2)
    ∧ (((s0.loom c.loom).keyed w.ctx key).isSome = false → s0.spillUnusable c.loom w.ctx area o.imageBytes = false →
        Gives s i c w (s0.setOwn c.loom e { o with state := .attached, key := key, spill := area, gen := o.gen + 1 }) w d 0))
  ∧ (∀ s c w h t, Issuing s (.unpin h t) c w → c.act w (.unpin h t) ≠ 0 →
    s.interlocked c.loom w opTouch { aw := [t.toNat], frees := true } s.fresh = false →
    let i : Instr := .unpin h t
    let r := s.rangeAt c.loom c.slot t.toNat
    ((∀ e o, r = some (e, o) → o.state ≠ .attached) → Traps s i c w (faultAtL c w i 0x13))
    ∧ ∀ e o, r = some (e, o) → o.state = .attached →
      ((s.loom c.loom).keyBusy o.ctx o.key = true → Holds s i)
      ∧ ((s.loom c.loom).keyBusy o.ctx o.key = false →
        Does s i c (((s.modLoom c.loom fun y => y.dropKey o.ctx o.key).setOwn c.loom e
          { o with state := .working, key := 0 }).sideEffect c.loom w) w))
  ∧ (∀ s c w h t hd, Issuing s (.detach h t) c w → c.act w (.detach h t) ≠ 0 → w.team = some hd →
    s.interlocked c.loom w opTouch { aw := [t.toNat], frees := true } s.fresh = false →
    let i : Instr := .detach h t
    let r := s.rangeAt c.loom c.slot t.toNat
    ((∀ e o, r = some (e, o) → o.state ≠ .attached) → Traps s i c w (faultAtL c w i 0x13))
    ∧ ∀ e o, r = some (e, o) → o.state = .attached →
      Does s i c (((s.setOwn c.loom e { o with state := .pinned, team := 0, dtime := s.clock }).modTeam c.loom hd fun q =>
        { q with accs := q.accs.filter fun p => p.2.1 != e }).sideEffect c.loom w) w)

/-- R298, R301: attach maps a pinned range at t; status 2 where no range has the key, 3 where it is attached, 4 where a number
is mapped or beyond the 32; it waits while the range moves. A spilled range is filled from its area first: it waits for room or
for a page, and a fill that fails is its fault. With no lane active it does nothing. The order of statuses is log entry 31's. -/
def Obligations.Attaches : Prop :=
  (∀ s c w h d a t, Issuing s (.attach h d a t) c w → c.act w (.attach h d a t) = 0 →
    WritesNothing s (.attach h d a t) c w)
  ∧ ∀ s c w h d a t hd tm, Issuing s (.attach h d a t) c w → c.act w (.attach h d a t) ≠ 0 → w.team = some hd →
    s.team? c.loom hd = some tm →
    let i : Instr := .attach h d a t
    let found := (s.loom c.loom).keyed w.ctx (w.pair a (laneL c w i))
    let mapped (s1 : State) (e : Nat) (o : Own) : State :=
      (s1.setOwn c.loom e { o with state := .attached, team := hd }).modTeam c.loom hd fun q =>
        { q with accs := (List.range o.t).foldl (fun m k => SMap.put m (t.toNat + k) (e, k)) q.accs }
    (found = none → Gives s i c w s w d 2)
    ∧ ∀ e o, found = some (e, o) →
      let clash : Prop := 32 < t.toNat + o.t ∨ ∃ k < o.t, (SMap.find? tm.accs (k + t.toNat)).isSome = true
      (o.state = .moving → Holds s i)
      ∧ (o.state = .attached → Gives s i c w s w d 3)
      ∧ (o.state = .pinned ∨ o.state = .spilled → clash → Gives s i c w s w d 4)
      ∧ (o.state = .pinned → ¬ clash → Gives s i c w (mapped s e o) w d 0)
      ∧ (o.state = .spilled → ¬ clash → s.evict 33 c.loom o.t = none → Holds s i)
      ∧ (o.state = .spilled → ¬ clash → ∀ s1, s.evict 33 c.loom o.t = some s1 → o.t ≤ (s1.loom c.loom).freeTiles.length →
          let o' := { o with tiles := (s1.loom c.loom).freeTiles.take o.t, gen := o.gen + 1 }
          (s1.fillRange c.loom o' o.spill = .wait → Holds s i)
          ∧ ∀ cause va, s1.fillRange c.loom o' o.spill = .fail cause va → Traps s i c w (faultAtL c w i cause va))
      ∧ (o.state = .spilled → ¬ clash → ∀ s1, s.evict 33 c.loom o.t = some s1 → s1.weft? c.loom c.slot = some w →
          ((s1.loom c.loom).freeTiles.length < o.t → Gives s i c w s1 w d 1)
          ∧ (o.t ≤ (s1.loom c.loom).freeTiles.length → ∀ s2,
              let o' := { o with tiles := (s1.loom c.loom).freeTiles.take o.t, gen := o.gen + 1 }
              s1.fillRange c.loom o' o.spill = .ok s2 → s2.weft? c.loom c.slot = some w →
              Gives s i c w (mapped (s2.modLoom c.loom fun y => y.markKey o.ctx o.key .valid true) e o') w d 0))

/-- R309: aread reads each lane's cell, row and column taken modulo the range's; awrite writes the lanes' cells in ascending
order; azero sets every cell to the definition's +0. Nothing else changes. Each waits for the operations on its range; a number
that maps no range of the team, working or attached, is an accumulator fault, and a cell in error a memory-error fault of aread,
at the lowest lane that reads one. azero does nothing with no lane active (R57). Interlocks and range checks follow log entries
29 and 31. -/
def Obligations.CellAccess : Prop :=
  (∀ s i c w (t : BitVec 8) (touch : Touch) (lane : Option Nat), (match i with
      | .aread _ _ _ _ u => u = t ∧ touch = { ar := [t.toNat] } ∧ lane = none
      | .awrite _ _ _ _ u => u = t ∧ touch = { aw := [t.toNat] } ∧ lane = none
      | .azero _ u => u = t ∧ touch = { aw := [t.toNat] } ∧ lane = some (laneL c w i) ∧ c.act w i ≠ 0
      | _ => False) → Issuing s i c w →
    (s.interlocked c.loom w opTouch touch s.fresh = true → Holds s i)
    ∧ (s.interlocked c.loom w opTouch touch s.fresh = false →
        (∀ e o, s.rangeAt c.loom c.slot t.toNat = some (e, o) → o.state ≠ .working ∧ o.state ≠ .attached) →
        Traps s i c w { cause := 0x13, lane := lane }))
  ∧ (∀ s c w h t, Issuing s (.azero h t) c w → c.act w (.azero h t) = 0 → WritesNothing s (.azero h t) c w)
  ∧ (∀ s c w h d a b t e o, Issuing s (.aread h d a b t) c w →
    s.interlocked c.loom w opTouch { ar := [t.toNat] } s.fresh = false →
    s.rangeAt c.loom c.slot t.toNat = some (e, o) → (o.state = .working ∨ o.state = .attached) →
    let i : Instr := .aread h d a b t
    let mark (j : Nat) : Option Bool :=
      s.mem.markAt (.cell c.loom (o.cellKey ((w.lane a j).toNat % 64) ((w.lane b j).toNat % (64 * o.t))))
    ((∀ j ∈ activeLanes (c.act w i), mark j = none) →
      WritesReg s i c w d fun j =>
        BitVec.ofNat 32 ((s.loom c.loom).cell o ((w.lane a j).toNat % 64) ((w.lane b j).toNat % (64 * o.t))))
    ∧ ∀ pre j post, activeLanes (c.act w i) = pre ++ j :: post → mark j = some true → (∀ k ∈ pre, mark k ≠ some true) →
      Traps s i c w { cause := 0x0E, lane := some j, index := j })
  ∧ (∀ s c w h d a b t e o, Issuing s (.awrite h d a b t) c w →
    s.interlocked c.loom w opTouch { aw := [t.toNat] } s.fresh = false →
    s.rangeAt c.loom c.slot t.toNat = some (e, o) → (o.state = .working ∨ o.state = .attached) →
    let i : Instr := .awrite h d a b t
    Does s i c (s.setCells c.loom o ((activeLanes (c.act w i)).map fun j =>
      ((w.lane a j).toNat % 64, (w.lane b j).toNat % (64 * o.t), (w.lane d j).toNat))) w)
  ∧ (∀ s c w h t e o, Issuing s (.azero h t) c w → c.act w (.azero h t) ≠ 0 →
    s.interlocked c.loom w opTouch { aw := [t.toNat] } s.fresh = false →
    s.rangeAt c.loom c.slot t.toNat = some (e, o) → (o.state = .working ∨ o.state = .attached) →
    Does s (.azero h t) c (s.setCells c.loom o (o.places.map fun p => (p.1, p.2, o.fmt.zeroCode false))) w)
  ∧ (∀ (s : State) (l : Nat) (o : Own) (cs : List (Nat × Nat × Nat)) (key : Nat), (s.setCells l o cs).loom l
        = { s.loom l with cells := ((s.setCells l o cs).loom l).cells }
      ∧ SMap.getD ((s.setCells l o cs).loom l).cells key 0
        = cs.foldl (fun v x => if o.cellKey x.1 x.2.1 = key then BitVec.ofNat 32 (x.2.2 % 2 ^ o.fmt.width) else v)
            (SMap.getD (s.loom l).cells key 0))

/-! ## Launches, continuation records, rings, messages -/

/-- R314, R315, R322, R427: launch reads its record, appends it to the queue that it names, and writes its status: 2 for a
queue of another context or one not enabled, 3 for one that takes none from the device, 1 for a full one. A slot whose page is
not resident parks the weft. R60, R323: fetchw zeroes its mailbox's ready word and leaves its request with the distributor; it
waits while its loom has sixteen, and faults on a mailbox that is not aligned or not in the window. The order of launch's
statuses, 2, 3, 1, and a slot that cannot be written are log entry 33's. -/
def Obligations.LaunchesAndRequests : Prop :=
  (∀ s c w h d a b, Issuing s (.launch h d a b) c w → (Instr.launch h d a b).flaw = none →
    let i : Instr := .launch h d a b
    let addr := w.pair a (laneL c w i)
    (c.act w i = 0 → WritesNothing s i c w)
    ∧ (c.act w i ≠ 0 → addr.toNat % 256 ≠ 0 → Traps s i c w (faultAtL c w i 0x08 addr))
    ∧ (c.act w i ≠ 0 → ∀ s0 rec, Reads c w i s addr 256 256 s0 rec →
      let q := rec / 2 ^ 192 % 64
      let s1 := s0.sideEffect c.loom w
      let off : Prop := s1.queueCtx q ≠ w.ctx ∨ s1.queueEn q = false
      let full : Prop := (s1.queueTail q - s1.queueHead q).toNat = 2 ^ s1.queueCap q
      let slot := s1.queueBase q + BitVec.ofNat 64 (256 * ((s1.queueTail q).toNat % 2 ^ s1.queueCap q))
      let case := s1.deviceCase w.ctx true slot 256
      (off → Gives s i c w s1 w d 2)
      ∧ (¬ off → s1.queueDev q = false → Gives s i c w s1 w d 3)
      ∧ (¬ off → s1.queueDev q = true → full → Gives s i c w s1 w d 1)
      ∧ (¬ off → s1.queueDev q = true → ¬ full → case = 70 →
          exec i s = .next (s.setWeft c.loom c.slot { w with wait := .parked c.pc }))
      ∧ (¬ off → s1.queueDev q = true → ¬ full → case ≠ 70 →
          let s2 := if case = 90 then s1.writeVa (deviceView w.ctx) slot 256 rec else s1
          let s3 := s2.setQueueField q 24 8 (s1.queueTail q + 1).toNat
          ∃ w1, w1 = { w with regs := w1.regs, poison := w1.poison, soft := w1.soft }
            ∧ LanesWritten w w1 (oneLane (laneL c w i)) d (fun _ => 0)
            ∧ (b = 255 → Does s i c (s3.setWeft c.loom c.slot w1) w1)
            ∧ (b ≠ 255 → CompletesPair s i c (s3.setWeft c.loom c.slot w1) w1 (oneLane (laneL c w i)) b fun _ =>
                s1.queueTail q))))
  ∧ (∀ s c w h a b cc, Issuing s (.fetchw h a b cc) c w →
    let i : Instr := .fetchw h a b cc
    let off := (w.lane cc (laneL c w i)).toNat
    let va := BitVec.ofNat 64 (0xFFF * 2 ^ 52 + off)
    let busy : Prop := 16 ≤ (s.fetches.filter fun f => f.loom == c.loom).length
    let inside : Prop := ∀ k < 16,
      (s.spot { viewAt s c w with frame := none } (0xFFF * 2 ^ 52 + off + k)).caseOf false = 90
    let box : Mailbox := match s.teamOf c.loom w with | some t => .team t.id off | none => .record c.loom c.slot off
    (c.act w i = 0 → WritesNothing s i c w)
    ∧ (c.act w i ≠ 0 → busy → Holds s i)
    ∧ (c.act w i ≠ 0 → ¬ busy → off % 16 ≠ 0 → Traps s i c w (faultAtL c w i 0x08 va))
    ∧ (c.act w i ≠ 0 → ¬ busy → off % 16 = 0 → ¬ inside → Traps s i c w (faultAtL c w i 0x09 va))
    ∧ (c.act w i ≠ 0 → ¬ busy → off % 16 = 0 → inside → ∀ s1, s.writeMailbox box 8 (leBytes 4 0) = some s1 →
        s1.weft? c.loom c.slot = some w →
        Does s i c { s1 with fetches := s1.fetches ++ [{ loom := c.loom, slot := c.slot, ctx := w.ctx,
                                                          queue := (w.lane b (laneL c w i)).toNat % 64,
                                                          count := w.pair a (laneL c w i), box := box }] } w))

/-- R59, R325, R326, R427: spawn and join. A record is queued once: its link is stamped, and its address placed; where it
cannot be placed the weft waits. join counts the record's join down first; a record that fails its check is not queued. The
link's stamp is a free value (log entry 10). -/
def Obligations.Continuations : Prop :=
  ∀ s c w h d a (i : Instr), (i = .spawn h d a ∨ i = .join h d a) → Issuing s i c w →
    let addr := w.pair a (laneL c w i)
    let x : Accesses := ⟨true, true, false, [{ lane := laneL c w i, va := addr, len := 32 }]⟩
    let v := viewAt s c w
    (c.act w i = 0 → WritesNothing s i c w)
    ∧ (c.act w i ≠ 0 → addr.toNat % 32 ≠ 0 → Traps s i c w (faultAtL c w i 0x08 addr))
    ∧ (c.act w i ≠ 0 → addr.toNat % 32 = 0 → TakesEffect s v x →
      let r := ContRec.ofBits ((noted s v x).readVa v addr 32)
      let s0 := (noted s v x).sideEffect c.loom w
      let bad : Prop := allotOk r.allot = false ∨ 191 < r.loom ∧ r.anyloom = false
      let queued (s1 : State) (val : Word) : Prop :=
        let s2 : State := { s1.writeVa v (addr + 24) 8 s1.stamp.toNat with fresh := s1.fresh + 1 }
        (∀ s3, s2.enqueue w.ctx r.loom r.anyloom addr = some s3 → s3.weft? c.loom c.slot = some w →
          Gives s i c w s3 w d val)
        ∧ (s2.enqueue w.ctx r.loom r.anyloom addr = none →
          IssuesAs s i c w ((s2.setWeft c.loom c.slot
            ({ w with wait := .enqueue c.pc d (laneL c w i) val addr } : Weft)).modWeft c.loom c.slot fun v => v.issued c.pc))
      (i = .spawn h d a →
        (r.link ≠ 0 → Traps s i c w (faultAtL c w i 0x18))
        ∧ (r.link = 0 → r.join ≠ 0 → Gives s i c w s0 w d 1)
        ∧ (r.link = 0 → r.join = 0 → bad → Traps s i c w (faultAtL c w i 0x18))
        ∧ (r.link = 0 → r.join = 0 → ¬ bad → queued s0 0))
      ∧ (i = .join h d a →
        let s1 := s0.writeVa v (addr + 16) 4 (r.join - 1).toNat
        (r.join = 0 → Gives s i c w s0 w d 0xFFFFFFFF)
        ∧ (r.join ≠ 0 → r.join ≠ 1 → Gives s i c w s1 w d (r.join - 1))
        ∧ (r.join = 1 → bad →
          exec i s = .next (s1.raise c.loom c.slot c.pc (faultLane c.mask (c.act w i)) (faultAtL c w i 0x18)))
        ∧ (r.join = 1 → ¬ bad → queued s1 0)))

/-- R331, R332: ring.init resets every stage of a ring; ring.sig counts one arrival, whose count at expected starts over and
flips the phase, or leaves it to the weft's operations of its class; ring.wait goes on once the stage has the phase. A ring or
a stage that the team does not have is a ring fault. -/
def Obligations.Rings : Prop :=
  (∀ s c w h g a, Issuing s (.ringInit h g a) c w → c.act w (.ringInit h g a) ≠ 0 →
    let i : Instr := .ringInit h g a
    let e := (w.lane a (laneL c w i)).toNat % 65536
    (w.team = none → Traps s i c w (faultAtL c w i 0x17))
    ∧ ∀ hd tm, w.team = some hd → s.team? c.loom hd = some tm →
      (tm.rings.length ≤ g.toNat ∨ e = 0 → Traps s i c w (faultAtL c w i 0x17))
      ∧ ∀ r, tm.rings[g.toNat]? = some r → e ≠ 0 →
        Does s i c (s.modTeam c.loom hd fun t => { t with rings := t.rings.set g.toNat (r.map fun _ => ⟨false, 0, e⟩) }) w)
  ∧ (∀ s c w h g b cls, Issuing s (.ringSig h g b cls) c w → c.act w (.ringSig h g b cls) ≠ 0 →
    let i : Instr := .ringSig h g b cls
    let st := (w.lane b (laneL c w i)).toNat
    let ops := match cls with | none => [] | some k => s.liveOps c.loom c.slot w k
    let counted (q : Stage) : Stage :=
      if q.count + 1 < q.expected then { q with count := q.count + 1 } else { q with count := 0, phase := !q.phase }
    (w.team = none → Traps s i c w (faultAtL c w i 0x17))
    ∧ ∀ hd tm, w.team = some hd → s.team? c.loom hd = some tm →
      (tm.rings.length ≤ g.toNat → Traps s i c w (faultAtL c w i 0x17))
      ∧ ∀ r, tm.rings[g.toNat]? = some r →
        (r.length ≤ st → Traps s i c w (faultAtL c w i 0x17))
        ∧ ∀ q, r[st]? = some q →
          (ops = [] → Does s i c (s.modTeam c.loom hd fun t =>
            { t with rings := t.rings.set g.toNat (r.set st (counted q)) }) w)
          ∧ (ops ≠ [] → ∀ k, cls = some k →
            let w1 : Weft := { w with deferred := w.deferred ++ [{ cls := k, ops := ops, g := g.toNat, stage := st }] }
            Does s i c (s.setWeft c.loom c.slot w1) w1))
  ∧ (∀ s c w h g b a hd tm, Issuing s (.ringWait h g b a) c w → c.act w (.ringWait h g b a) ≠ 0 →
    w.team = some hd → s.team? c.loom hd = some tm →
    let i : Instr := .ringWait h g b a
    let st := (w.lane b (laneL c w i)).toNat
    let ph := (w.lane a (laneL c w i)).getLsbD 0
    (tm.rings.length ≤ g.toNat → Traps s i c w (faultAtL c w i 0x17))
    ∧ ∀ r, tm.rings[g.toNat]? = some r →
      (r.length ≤ st → Traps s i c w (faultAtL c w i 0x17))
      ∧ ∀ q, r[st]? = some q →
        (q.phase = ph → WritesNothing s i c w)
        ∧ (q.phase ≠ ph → IssuesAs s i c w ((s.setWeft c.loom c.slot
            ({ w with wait := .ring c.pc g.toNat st ph } : Weft)).modWeft c.loom c.slot fun v => v.issued c.pc)))

/-- R334: msgmap opens the weft's port: status 2 where it has one, 1 where the loom's quotas would pass 64; it waits while a
register that it maps is pending, and traps on one beyond the allotment. R336: msgunmap closes it and counts the flits
discarded; those that wait to enter it are refused, the results of operations among them. R335: a mov or an integer
instruction, iadd to ineg, whose destination is the send register sends one flit, with its result in the active lanes and zero in
the others, to the port that the header names: a port that is not open is a message fault, a full one leaves the weft not ready.
One that reads the receive register takes the oldest flit, lane i reading its word i, or waits for one. Status 2 comes before 1 (log entry 33). -/
def Obligations.Messages : Prop :=
  (∀ s c w h d sr r hd q, Issuing s (.msgmap h d sr r hd q) c w → c.act w (.msgmap h d sr r hd q) ≠ 0 →
    let i : Instr := .msgmap h d sr r hd q
    let out : Prop := w.outOfRange sr = true ∨ w.outOfRange r = true ∨ w.outOfRange hd = true
    let waits : Prop := sr ∈ s.pending c.loom c.slot ∨ r ∈ s.pending c.loom c.slot
    (out → Traps s i c w { cause := 0x02 })
    ∧ (¬ out → waits → Holds s i)
    ∧ (¬ out → ¬ waits → w.port.isSome = true → Gives s i c w s w d 2)
    ∧ (¬ out → ¬ waits → w.port = none → 64 < (s.loom c.loom).quotas + q.toNat → Gives s i c w s w d 1)
    ∧ (¬ out → ¬ waits → w.port = none → (s.loom c.loom).quotas + q.toNat ≤ 64 →
        ∃ w1, w1 = { w with regs := w1.regs, poison := w1.poison, soft := w1.soft }
          ∧ LanesWritten w w1 (oneLane (laneL c w i)) d (fun _ => 0)
          ∧ let w2 : Weft := { w1 with port := some { s := sr, r := r, h := hd, quota := q.toNat, flits := [] } }
            Does s i c (s.setWeft c.loom c.slot w2) w2))
  ∧ (∀ s c w h d, Issuing s (.msgunmap h d) c w → c.act w (.msgunmap h d) ≠ 0 →
    let i : Instr := .msgunmap h d
    let s0 := (s.setWeft c.loom c.slot ({ w with port := none } : Weft)).refuseResults c.loom c.slot w.ctx
    let s1 := (s0.sendersTo c.loom c.slot w.ctx).foldl (fun u q =>
      (u.modWeft q.1 q.2.1 fun v => { v with wait := .none }).raise q.1 q.2.1 q.2.2.1 q.2.2.2
        { cause := 0x19, lane := some q.2.2.2 }) s0
    (w.port = none → Gives s i c w s w d 0)
    ∧ ∀ p w1, w.port = some p → s1.weft? c.loom c.slot = some w1 →
        Gives s i c w s1 w1 d (BitVec.ofNat 32 p.flits.length))
  ∧ (∀ (s : State) l k ctx l' cls, ((s.refuseResults l k ctx).loom l').queue cls = ((s.loom l').queue cls).map fun o =>
      if o.ctx = ctx ∧ o.sending.isSome = true ∧ (o.header.any fun h => h.toNat % 256 == l && h.toNat / 256 % 1024 == k) = true
      then { o with sending := some true } else o)
  ∧ (∀ (s : State) l k w pc header act fl, s.weft? l k = some w →
      (w.wait = .send pc header act fl ∨ w.wait = .full pc header act) →
      (l, k, pc, lowestLane act) ∈ s.sendersTo (header.toNat % 256) (header.toNat / 256 % 1024) w.ctx)
  ∧ (∀ s c w h d sr r hd q, Issuing s (.msgmap h d sr r hd q) c w → c.act w (.msgmap h d sr r hd q) = 0 →
      WritesNothing s (.msgmap h d sr r hd q) c w)
  ∧ (∀ s c w h d, Issuing s (.msgunmap h d) c w → c.act w (.msgunmap h d) = 0 → WritesNothing s (.msgunmap h d) c w)
  ∧ (∀ s i c w d val p, s.cur = some c → s.weft? c.loom c.slot = some w → w.port = some p → w.poison = [] → w.soft = [] →
    portRule w i = some (d, val) →
    s.regsHold c.loom c.slot w i (c.act w i) = false → (∀ u ∈ allUses i, w.outOfRange u.r = false) → c.act w i ≠ 0 →
    p.s ≠ p.r → p.h ≠ p.s → p.h ≠ p.r → (guardOf i).g ≠ p.r →
    let reads : Prop := ∃ u ∈ operandUses i, u.src = true ∧ u.r = p.r
    let flit := (List.range 32).map fun j => if (c.act w i).getLsbD j then val j else 0
    let header := w.lane p.h (laneL c w i)
    (d = p.s → p.s ≠ 255 → ¬ reads →
      (s.portOf w.ctx header = none →
        exec i s = .next (s.raise c.loom c.slot c.pc (laneL c w i) { cause := 0x19, lane := some (laneL c w i) }))
      ∧ ∀ l k q, s.portOf w.ctx header = some (l, k, q) →
        (q.quota ≤ q.flits.length →
          exec i s = .next (s.setWeft c.loom c.slot { w with wait := .full c.pc header (c.act w i) }))
        ∧ (q.flits.length < q.quota →
          ∃ t w', exec i s = .next t ∧ t.weft? c.loom c.slot = some w' ∧ w'.held = (w.advance c.pc).held
            ∧ (∀ r j, j < 32 → w'.raw r j = w.raw r j)
            ∧ t.portOf w.ctx header = some (l, k, { q with flits := q.flits ++ [flit] })))
    ∧ (d ≠ p.s → reads → p.r ≠ 255 →
      (p.flits = [] → Holds s i)
      ∧ ∀ f rest, p.flits = f :: rest → (∀ j, w.lane p.r j = f.getD j 0) ∧
        ∃ t w', exec i s = .next t ∧ t.weft? c.loom c.slot = some w' ∧ w'.held = (w.advance c.pc).held
          ∧ w'.port = some { p with flits := rest }
          ∧ ∀ j < 32, (c.act w i).getLsbD j = true → d ≠ 255 → d ≠ p.r → w'.lane d j = val j))

/-! ## Tables -/

/-- R57, R60, R342 to R344: hbar, hvote, hred and hbcast arrive at a heddle of their team that their weft belongs to; the last
of its members to arrive completes the phase, the others wait. An arrival that does not agree with the phase is a heddle fault.
The heddle 0 of a continuation-record weft is itself alone. R345: hset writes a heddle's mask at once where no arrival is
pending, and else waits. Heddle 0, an empty set, a number of no live weft, and a weft that is in four others are heddle faults.
A record weft's heddle 0 alone, and checks with no active lane, are log entry 33's. -/
def Obligations.Heddles : Prop :=
  (∀ s i c w hd d a, Issuing s i c w → arrivalOf c w i = some (hd, d, a) →
    (c.act w i = 0 → WritesNothing s i c w)
    ∧ (c.act w i ≠ 0 → w.team = none →
      (hd ≠ 0 → Traps s i c w (faultAtL c w i 0x16))
      ∧ (hd = 0 → CompletesAs s i c s w 0 (c.act w i) (if a.op = .hbar then 255 else d)
          (phaseResult ((soloHeddle c.slot).arrive c.slot 0 a))))
    ∧ (c.act w i ≠ 0 → ∀ t, w.team = some t →
      ((s.loom c.loom).heddleOf t hd.toNat = none → Traps s i c w (faultAtL c w i 0x16))
      ∧ ∀ key e, (s.loom c.loom).heddleOf t hd.toNat = some (key, e) →
        let differs : Prop := e.op ≠ .none ∧ (e.op ≠ a.op ∨ a.op ≠ .hbcast ∧ (e.sub ≠ a.sub ∨ e.def_ ≠ a.def_))
        let second : Prop := a.src.isSome = true ∧ e.source.isSome = true
        let e' : Heddle := { e with
          op := a.op, def_ := a.def_, acnt := e.acnt + 1, arrived := e.arrived ++ [c.slot],
          sub := if a.op = .hbcast then (if a.src.isSome || e.source.isSome then 1 else 0) else a.sub,
          vals := match a.val with | none => e.vals | some v => SMap.put e.vals w.num v,
          source := match a.src with | none => e.source | some ws => some (w.num, ws) }
        let s1 := (s.modLoom c.loom fun y => { y with heddles := SMap.put y.heddles key e' }).modWeft c.loom c.slot fun v =>
          { (v.issued c.pc) with wait := .heddle c.pc hd.toNat d (c.act w i) (laneL c w i) }
        (c.slot ∉ e.mask ∨ differs ∨ second → Traps s i c w (faultAtL c w i 0x16))
        ∧ (c.slot ∈ e.mask → ¬ differs → ¬ second → IssuesAs s i c w
            ((if e.acnt + 1 = e.mask.length then s1.completePhase c.loom key else s1).modWeft c.loom c.slot fun v =>
              v.issued c.pc))))
  ∧ (∀ s c w h op n d a hd, Issuing s (.hred h op n d a hd) c w → arrivalOf c w (.hred h op n d a hd) = none →
      let i : Instr := .hred h op n d a hd
      (c.act w i = 0 → WritesNothing s i c w) ∧ (c.act w i ≠ 0 → Traps s i c w { cause := 0x07 }))
  ∧ (∀ s c w h hd a, Issuing s (.hset h hd a) c w →
    let i : Instr := .hset h hd a
    let set := w.pair a (laneL c w i)
    (c.act w i = 0 → WritesNothing s i c w)
    ∧ (c.act w i ≠ 0 → w.team = none → Traps s i c w (faultAtL c w i 0x16))
    ∧ (c.act w i ≠ 0 → ∀ t, w.team = some t →
      ((s.loom c.loom).heddleOf t hd.toNat = none → Traps s i c w (faultAtL c w i 0x16))
      ∧ ∀ key e, (s.loom c.loom).heddleOf t hd.toNat = some (key, e) →
        let members := ((s.loom c.loom).wefts.filter fun p => p.2.team == some t && p.2.ended.isNone && set.getLsbD p.2.num).map
          (·.1)
        let others (k : Nat) : Nat := ((s.loom c.loom).heddles.filter fun p =>
          p.2.team == t && p.2.num != 0 && p.2.num != hd.toNat && p.2.mask.contains k).length
        let bad : Prop := hd = 0 ∨ set = 0 ∨ members.length ≠ ((List.range 64).filter fun n => set.getLsbD n).length
          ∨ ∃ k ∈ members, 4 ≤ others k
        (bad → Traps s i c w (faultAtL c w i 0x16))
        ∧ (¬ bad → e.acnt = 0 →
          Does s i c (s.modLoom c.loom fun y => { y with heddles := SMap.put y.heddles key { e with mask := members } }) w)
        ∧ (¬ bad → e.acnt ≠ 0 → IssuesAs s i c w ((s.setWeft c.loom c.slot
            ({ w with wait := .hset c.pc hd.toNat set } : Weft)).modWeft c.loom c.slot fun v => v.issued c.pc))))

/-- R342, R343: a phase that completes writes its result in the active lanes of every member that has arrived, and advances it;
the heddle is between phases, its phase bit flipped. The result is the votes', the fold's or the source's. -/
def Obligations.HeddlePhases : Prop :=
  (∀ e f j, j < 32 → heddleResult e = some f → f j = phaseResult e j)
  ∧ (∀ e, heddleResult e = none ↔ e.op = .none ∨ e.op = .hbar)
  ∧ ∀ (s : State) l key e, SMap.find? (s.loom l).heddles key = some e → e.arrived.Nodup →
    let t := s.completePhase l key
    (∃ e', SMap.find? (t.loom l).heddles key = some e' ∧ e'.phase = !e.phase ∧ e'.acnt = 0 ∧ e'.op = .none
      ∧ e'.mask = e.mask ∧ e'.arrived = [])
    ∧ (∀ k w pc hd d act lane, k ∈ e.arrived → s.weft? l k = some w → w.wait = .heddle pc hd d act lane → w.port = none →
        ∃ w', t.weft? l k = some w' ∧ w'.wait = .none ∧ w'.held = (w.finish pc).held
          ∧ LanesWritten w w' act (if heddleResult e = none then 255 else d) (phaseResult e))
    ∧ (∀ k, k ∉ e.arrived → t.weft? l k = s.weft? l k) ∧ (∀ l', l' ≠ l → t.loom l' = s.loom l')

/-- R348 to R350: dtload replaces the decode table of the context, unless an entry of the image is malformed, whose lowest
number it reports; dtread reads the entry of each lane's code. R358 and R361 to R364: rec.chk gives the code of a record and of
its index record; tlbinv leaves an invalidation pending and completes; tlbsync goes on, as an acquire, once none of the weft's
is pending. Readings of log entries 27 and 29. -/
def Obligations.TableInstructions : Prop :=
  (∀ s c w h d a, Issuing s (.dtload h d a) c w →
    let i : Instr := .dtload h d a
    let addr := w.pair a (laneL c w i)
    (c.act w i = 0 → WritesNothing s i c w)
    ∧ (c.act w i ≠ 0 → addr.toNat % 64 ≠ 0 → Traps s i c w (faultAtL c w i 0x08 addr))
    ∧ (c.act w i ≠ 0 → ∀ s0 n, Reads c w i s addr 1536 64 s0 n →
      let entry (k : Nat) : Option DecEntry := DecEntry.ofBits (BitVec.ofNat 16 (n / 2 ^ (16 * k)))
      let s1 := s0.sideEffect c.loom w
      (∀ k < 768, entry k = none → (∀ j < k, entry j ≠ none) →
        Gives s i c w s1 w d (0x80000000 + BitVec.ofNat 32 k))
      ∧ ((∀ k < 768, entry k ≠ none) →
        Gives s i c w (s1.setDecode w.ctx ((List.range 768).filterMap entry)) w d 0)))
  ∧ (∀ s c w h d a, Issuing s (.dtread h d a) c w →
    WritesReg s (.dtread h d a) c w d fun j =>
      match s.context? w.ctx with
      | none => 0
      | some x => (x.decEntry ((w.lane a j).toNat % 1024)).toBits.setWidth 32)
  ∧ (∀ s c w h d a s0 r s1 ix, Issuing s (.recChk h d a) c w → c.act w (.recChk h d a) ≠ 0 →
    let i : Instr := .recChk h d a
    ReadsRecord c w i s (w.pair a (laneL c w i)) s0 r → ReadsIndex c w i s0 (Tensor.ofBits r) s1 ix →
    Gives s i c w s1 w d (BitVec.ofNat 32 ((Tensor.ofBits r).code (Tensor.ofBits ix) (w.fmt (ix.extractLsb' 64 4)))))
  ∧ (∀ s c w h d a, Issuing s (.recChk h d a) c w →
    let i : Instr := .recChk h d a
    (c.act w i = 0 → WritesNothing s i c w)
    ∧ (c.act w i ≠ 0 → (w.pair a (laneL c w i)).toNat % 128 ≠ 0 →
        Traps s i c w (faultAtL c w i 0x08 (w.pair a (laneL c w i)))))
  ∧ (∀ s c w h m a b, Issuing s (.tlbinv h m a b) c w →
    let i : Instr := .tlbinv h m a b
    let v : Inv := { id := s.fresh, ctx := w.ctx, mode := m, va := if m = .ctx then 0 else w.pair a (laneL c w i),
                     count := if m = .range then w.lane b (laneL c w i) else 0 }
    let w1 : Weft := { w with invs := w.invs ++ [s.fresh] }
    (c.act w i = 0 → WritesNothing s i c w)
    ∧ (c.act w i ≠ 0 →
      Does s i c ((({ s with invs := s.invs ++ [v], fresh := s.fresh + 1 } : State).setWeft c.loom c.slot w1).sideEffect
        c.loom w) w1))
  ∧ (∀ s c w h, Issuing s (.tlbsync h) c w →
    let i : Instr := .tlbsync h
    (c.act w i = 0 → WritesNothing s i c w)
    ∧ (c.act w i ≠ 0 → w.invs ≠ [] → Holds s i)
    ∧ (c.act w i ≠ 0 → w.invs = [] → Does s i c (s.modLoom c.loom fun y => { y with l1 := [] }) w))

/-! ## Stall boards -/

/-- R373 to R377, R427: sb.post writes the lowest free entry of the loom's board and gives its handle, or raises a stall-board
fault; sb.find gives the lowest entry from the first asked on that matches; sb.wdr frees an entry, 1 for a stale handle, or
waits to issue while the entry moves or has a responder. R381, R382, R386, R403: solicit takes a census slot, zeroes its mailbox's ready
word and, at group scope, asks the group's other packages; it waits while no slot is free. respond notes a responder's one
answer; a second, or one of no responder, is a census fault. Readings of log entry 34. -/
def Obligations.Boards : Prop :=
  (∀ s c w h d a s0 n, Issuing s (.sbPost h d a) c w → c.act w (.sbPost h d a) ≠ 0 →
    let i : Instr := .sbPost h d a
    Reads c w i s (w.pair a (laneL c w i)) 64 64 s0 n →
    let b := BitVec.ofNat 512 n
    (∀ e, s0.postFault (c.iss w i) b = some e → Traps s i c w { e with lane := some (laneL c w i) })
    ∧ (s0.postFault (c.iss w i) b = none → ∀ k, (s0.loom c.loom).freeEntry? = some k →
      let e := s0.posted (c.iss w i) b ((s0.loom c.loom).entry k)
      let s1 : State := { s0.modLoom c.loom fun y => y.setEntry k e with fresh := s0.fresh + 1 }
      Gives s i c w (s1.sideEffect c.loom w) w d (BitVec.ofNat 32 (k + 65536 * e.gen.toNat))
        ∧ e.gen = ((s0.loom c.loom).entry k).gen + 1 ∧ e.ctx = w.ctx ∧ e.kind = n / 2 ^ 224 % 4 ∧ e.team = w.team.getD 0
        ∧ e.key = BitVec.ofNat 64 n ∧ e.mask = BitVec.ofNat 64 (n / 2 ^ 64) ∧ e.hnd = BitVec.ofNat 64 (n / 2 ^ 256)
        ∧ e.area = BitVec.ofNat 64 (n / 2 ^ 320) ∧ e.busy = false
        ∧ (e.state = .valid ∨ e.kind = 1 ∧ e.state = .spilled)))
  ∧ (∀ s c w h d a b, Issuing s (.sbFind h d a b) c w → c.act w (.sbFind h d a b) ≠ 0 →
    let i : Instr := .sbFind h d a b
    let first := if b = 255 then 0 else (w.lane b (laneL c w i)).toNat % 512
    let hit (k : Nat) : Prop := first ≤ k ∧ k < 512
      ∧ ((s.loom c.loom).entry k).matches w.ctx (w.pair a (laneL c w i)) = true
    (∀ k, hit k → (∀ j < k, ¬ hit j) →
      Gives s i c w s w d (BitVec.ofNat 32 (k + 65536 * ((s.loom c.loom).entry k).gen.toNat)))
    ∧ ((∀ k, ¬ hit k) → Gives s i c w s w d 0xFFFFFFFF))
  ∧ (∀ s c w h d a, Issuing s (.sbWdr h d a) c w → c.act w (.sbWdr h d a) ≠ 0 →
    let i : Instr := .sbWdr h d a
    let hd := w.lane a (laneL c w i)
    let s0 := s.sideEffect c.loom w
    ((s.loom c.loom).named w.ctx hd = none → Gives s i c w s0 w d 1)
    ∧ ∀ k e, (s.loom c.loom).named w.ctx hd = some (k, e) →
      let held : Prop := e.state = .moving ∨ (s.loom c.loom).entryBusy k = true
      (held → exec i s = .next (s.setWeft c.loom c.slot { w with wait := .sbWdr c.pc c.mask d (c.act w i) hd }))
      ∧ (¬ held → Gives s i c w (s0.modLoom c.loom fun y => y.freeEntry k) w d 0))
  ∧ (∀ s c w i, Issuing s i c w → c.act w i = 0 →
    (match i with | .sbPost .. | .sbFind .. | .sbWdr .. => True | _ => False) → WritesNothing s i c w)
  ∧ (∀ s c w h a b, Issuing s (.solicit h a b) c w → c.act w (.solicit h a b) ≠ 0 →
    let i : Instr := .solicit h a b
    let addr := w.pair a (laneL c w i)
    let off := (w.lane b (laneL c w i)).toNat
    let inside : Prop := ∀ k < 16,
      (s.spot { viewAt s c w with frame := none } (0xFFF * 2 ^ 52 + off + k)).caseOf false = 90
    let box : Mailbox := match s.teamOf c.loom w with | some t => .team t.id off | none => .record c.loom c.slot off
    (s.censusSlot = none → Holds s i)
    ∧ ∀ slot, s.censusSlot = some slot →
      (addr.toNat % 64 ≠ 0 → Traps s i c w (faultAtL c w i 0x08 addr))
      ∧ (addr.toNat % 64 = 0 → off % 16 ≠ 0 →
          Traps s i c w (faultAtL c w i 0x08 (BitVec.ofNat 64 (0xFFF * 2 ^ 52 + off))))
      ∧ (addr.toNat % 64 = 0 → off % 16 = 0 → ¬ inside →
          Traps s i c w (faultAtL c w i 0x09 (BitVec.ofNat 64 (0xFFF * 2 ^ 52 + off))))
      ∧ (off % 16 = 0 → inside → ∀ s0 n, Reads c w i s addr 64 64 s0 n →
        let op := n / 2 ^ 201 % 8
        let allot := n / 2 ^ 192 % 256
        let group := (BitVec.ofNat 512 n).getLsbD 200
        let nodes := if group then s0.groupNodes else []
        let q : Census :=
          { counted := 0, answered := 0, value := 0, flags := 0, op := op, pkgs := 1 + nodes.length, asker := c.loom,
            ctx := w.ctx, got := false, first := (0, 0, 0), key := BitVec.ofNat 64 n, handler := BitVec.ofNat 64 (n / 2 ^ 64),
            arg := BitVec.ofNat 64 (n / 2 ^ 128), allot := allot, group := group, box := box, here := true, nodes := nodes }
        (6 ≤ op ∨ allotOk allot = false → Traps s i c w (faultAtL c w i 0x1B))
        ∧ (op < 6 → allotOk allot = true → ∀ s1, s0.writeMailbox box 8 (leBytes 4 0) = some s1 →
          s1.weft? c.loom c.slot = some w →
          let s2 : State := { s1 with census := SMap.put s1.census (256 * s1.node.toNat + slot) q }
          Does s i c ((nodes.foldl (fun t k => t.sendPacket (censusRequestTo s0 q slot k)) s2).sideEffect c.loom w) w)))
  ∧ (∀ s c w h a, Issuing s (.respond h a) c w → c.act w (.respond h a) ≠ 0 →
    let i : Instr := .respond h a
    (w.responder = none → Traps s i c w (faultAtL c w i 0x1B))
    ∧ ∀ r, w.responder = some r →
      (r.value ≠ none → Traps s i c w (faultAtL c w i 0x1B))
      ∧ (r.value = none →
        let w1 : Weft := { w with responder := some { r with value := some (w.lane a (laneL c w i)) } }
        Does s i c (s.setWeft c.loom c.slot w1) w1))
  ∧ (∀ s c w i, Issuing s i c w → c.act w i = 0 →
    (match i with | .solicit .. | .respond .. => True | _ => False) → WritesNothing s i c w)

/-! ## Counters -/

/-- R396 to R400: arm gives a word a target, or a new entry of its arm table; arm.clr releases its waiters with status 1 and
frees it; a word of another team, or for market memory of another context, is left as it is. await waits on an armed word;
bound to a heddle, it counts itself in. R399: once the word has reached its target every weft that waits on it goes on with
status 0, those bound to a heddle once all its members wait, and then the binding is gone; what follows each step compares every
armed word. R431: one whose word reached its target in the swap image does not wait. R395, R398: waitoc goes on once its class's count is at most n; arrive
adds its operand to an aligned word as one access and sets the side-effect bit. The order of the checks, and arm tables of loom
words, are log entry 34's. -/
def Obligations.ArmedWords : Prop :=
  (∀ s c w h clr d a b wd, Issuing s (.arm h clr d a b) c w → c.act w (.arm h clr d a b) ≠ 0 →
    let i : Instr := .arm h clr d a b
    let x := c.iss w i
    s.armWord x (w.pair a (laneL c w i)) = .ok wd →
    (∀ p e, s.armEntry x wd = some (p, e) →
      let own : Prop := e.ctx = w.ctx ∧ (wd.isLoom = true → e.team = w.team.getD 1024)
      (¬ own → Gives s i c w s w d 2)
      ∧ (own → clr = false → Gives s i c w (s.setArm p (some { e with target := w.pair b (laneL c w i) })) w d 0)
      ∧ (own → clr = true → ∀ s1, s.releaseAwait 1 (s.armWaiters p) = s1 → s1.weft? c.loom c.slot = some w →
          Gives s i c w (s1.setArm p none) w d 0))
    ∧ (s.armEntry x wd = none →
      (clr = true → Gives s i c w s w d 2)
      ∧ (clr = false → ((wd.places x).find? fun p => (s.armAt p).isNone) = none → Gives s i c w s w d 1)
      ∧ (clr = false → ∀ p, ((wd.places x).find? fun p => (s.armAt p).isNone) = some p →
        Gives s i c w (s.setArm p (some { addr := wd.addr, target := w.pair b (laneL c w i), h := 0, hv := false, hcnt := 0,
                                          team := w.team.getD 1024, ctx := w.ctx, bteam := 0, bloom := 0 })) w d 0)))
  ∧ (∀ s c w h hd d a wd, Issuing s (.await h hd d a) c w → c.act w (.await h hd d a) ≠ 0 →
    let i : Instr := .await h hd d a
    let x := c.iss w i
    s.armWord x (w.pair a (laneL c w i)) = .ok wd →
    (s.armEntry x wd = none → Gives s i c w s w d 1)
    ∧ ∀ p e, s.armEntry x wd = some (p, e) →
      let own : Prop := e.ctx = w.ctx ∧ (wd.isLoom = true → e.team = w.team.getD 1024)
      let waiting (s1 : State) (bound : Bool) : Prop :=
        IssuesAs s i c w ((s1.modWeft c.loom c.slot fun v =>
          { (v.issued c.pc) with wait := .await c.pc p d (laneL c w i) bound }).modWeft c.loom c.slot fun v => v.issued c.pc)
      let met := s.awaitMet x wd
      let team := w.team.getD (1024 + c.slot)
      (¬ own → Gives s i c w s w d 1)
      ∧ (own → hd = none → (met = true → Gives s i c w s w d 0) ∧ (met = false → waiting s false))
      ∧ (own → ∀ g, hd = some g →
        let bad : Prop := s.memberOf x g.toNat = false
          ∨ e.hv = true ∧ (e.h ≠ g.toNat ∨ e.bloom ≠ c.loom ∨ e.bteam ≠ team)
        (bad → Traps s i c w (faultAtL c w i 0x16))
        ∧ (¬ bad → waiting (s.setArm p (some { e with hv := true, h := g.toNat, bloom := c.loom, bteam := team,
                                                      hcnt := e.hcnt + 1, met := e.met || met })) true)))
  ∧ (∀ s c w i a, Issuing s i c w →
    (match i with | .arm _ _ _ r _ => r = a | .await _ _ _ r => r = a | _ => False) →
    let va := w.pair a (laneL c w i)
    (c.act w i = 0 → WritesNothing s i c w)
    ∧ (c.act w i ≠ 0 → va.toNat % 8 ≠ 0 → Traps s i c w (faultAtL c w i 0x08 va))
    ∧ (c.act w i ≠ 0 → va.toNat % 8 = 0 → ∀ y pa, s.spot (viewAt s c w) va.toNat = .page y pa → y.space ≠ .market →
        Traps s i c w (faultAtL c w i 0x1C)))
  ∧ (∀ s c w h cls n, Issuing s (.waitoc h cls n) c w →
    let i : Instr := .waitoc h cls n
    (c.act w i = 0 ∨ w.oc.get cls ≤ n.toNat → WritesNothing s i c w)
    ∧ (c.act w i ≠ 0 → n.toNat < w.oc.get cls → Holds s i))
  ∧ (∀ s c w h a b, Issuing s (.arrive h a b) c w →
    let i : Instr := .arrive h a b
    let va := w.pair a (laneL c w i)
    let v := viewAt s c w
    let x : Accesses := ⟨true, true, false, [{ lane := laneL c w i, va := va, len := 8 }]⟩
    (c.act w i = 0 → WritesNothing s i c w)
    ∧ (c.act w i ≠ 0 → va.toNat % 8 ≠ 0 → Traps s i c w (faultAtL c w i 0x08 va))
    ∧ (c.act w i ≠ 0 → va.toNat % 8 = 0 → TakesEffect s v x →
      let s0 := (noted s v x).sideEffect c.loom w
      let sps := s0.spots v { lane := laneL c w i, va := va, len := 8 }
      let new := (valueAt c.loom (byteAt s0) sps + (w.lane b (laneL c w i)).toNat) % 2 ^ 64
      ∃ s2, OnlyBytes s0 s2 ∧ (∀ p, byteAt s2 p = afterStore s0.devBlocks c.loom (byteAt s0) sps new p)
        ∧ Does s i c s2 w))
  -- release
  ∧ (∀ (s : State) p e, s.armAt p = some e →
    let value := match p with | .loom l _ => Memory.readLe (s.loom l).mem e.addr 8 | .bank _ _ => Memory.readLe s.mem.market e.addr 8
    let reached : Prop := e.target.toNat ≤ value
    let all : Prop := e.hv = true ∧ e.hcnt = s.armBcnt e ∧ (reached ∨ e.met = true)
    let t := s.checkArm p
    let goesOn (bound : Bool) : Prop := ∀ l k w pc d lane, s.weft? l k = some w → w.wait = .await pc p d lane bound →
      w.port = none → ∃ w', t.weft? l k = some w' ∧ w'.wait = .none ∧ w'.held = (w.finish pc).held
        ∧ LanesWritten w w' (oneLane lane) d fun _ => 0
    (reached → goesOn false) ∧ (all → goesOn true)
    ∧ (all → t.armAt p = some { e with hv := false, hcnt := 0, met := false })
    ∧ (¬ reached → ¬ all → t = s)
    ∧ ((∀ q ∈ s.armWaiters p, q.2.2 = true) → ¬ all → t = s))
  ∧ (∀ s : State, s.checkArms = s.armPlaces.foldl (fun u p => u.checkArm p) s
    ∧ s.settled = (((s.checkArms.recordsAll.deferredAll.ringAll.exitAll.startAll.retireAll.signalAll.censusAll).drainPorts).queuesAll).contextsAll)
  ∧ (∀ (s : State) p, (s.armAt p).isSome = true → (∀ b j, p = .bank b j → j < 8) → p ∈ s.armPlaces)

/-- R404 to R407: evsel selects a counter's source and zeroes it; evrd reads a counter in every active lane; evclr zeroes one.
In user mode a counter of another context has status 1, and reads 0; a source that the counter does not have has status 2. A die
counter, or the all-contexts flag, is privileged: user mode takes the privilege fault (IssueChecks). Status 1 comes before 2 (log
entry 35); counts are exact (log entry 24). -/
def Obligations.EventCounters : Prop :=
  (∀ s c w h d k src, Issuing s (.evsel h d k src) c w → k.toNat < 24 →
    let i : Instr := .evsel h d k src
    let old := s.evCounter c.loom k.toNat
    let code := src.toNat % 128
    let other : Prop := w.sv = false ∧ old.src ≠ 0 ∧ old.ctx ≠ w.ctx
    let none_ : Prop := if k.toNat < 8 then 0x13 < code else code ≠ 0 ∧ (code < 0x40 ∨ 0x4D < code)
    let new : EvCounter := { count := 0, src := BitVec.ofNat 7 code, all := src.getLsbD 7, ctx := w.ctx }
    (c.act w i = 0 → WritesNothing s i c w)
    ∧ (c.act w i ≠ 0 → other → Gives s i c w s w d 1)
    ∧ (c.act w i ≠ 0 → ¬ other → none_ → Gives s i c w s w d 2)
    ∧ (c.act w i ≠ 0 → ¬ other → ¬ none_ →
        Gives s i c w (s.setEvCounter c.loom k.toNat new) w d 0
        ∧ ∃ t, exec i s = .next t ∧ let q := t.evCounter c.loom k.toNat
            q.src = new.src ∧ q.all = new.all ∧ q.ctx = new.ctx ∧ (code ≠ 3 → code ≠ 4 → code ≠ 7 → q.count = 0)))
  ∧ (∀ s c w h d k, Issuing s (.evrd h d k) c w → (Instr.evrd h d k).flaw = none →
    let q := s.evCounter c.loom k.toNat
    let other : Prop := w.sv = false ∧ q.ctx ≠ w.ctx
    (other → WritesPair s (.evrd h d k) c w d fun _ => 0)
    ∧ (¬ other → WritesPair s (.evrd h d k) c w d fun _ => q.count.setWidth 64))
  ∧ (∀ s c w h d k, Issuing s (.evclr h d k) c w → k.toNat < 24 →
    let i : Instr := .evclr h d k
    let q := s.evCounter c.loom k.toNat
    let other : Prop := w.sv = false ∧ q.ctx ≠ w.ctx
    (c.act w i = 0 → WritesNothing s i c w)
    ∧ (c.act w i ≠ 0 → other → Gives s i c w s w d 1)
    ∧ (c.act w i ≠ 0 → ¬ other →
        Gives s i c w (s.setEvCounter c.loom k.toNat { q with count := 0 }) w d 0
        ∧ ∃ t, exec i s = .next t ∧ (q.src.toNat ≠ 3 → q.src.toNat ≠ 4 → q.src.toNat ≠ 7 →
            (t.evCounter c.loom k.toNat).count = 0)))
  ∧ (∀ h d k src, (isPrivileged (.evsel h d k src) = true ↔ 8 ≤ k.toNat ∨ src.getLsbD 7 = true)
      ∧ (isPrivileged (.evrd h d k) = true ↔ 8 ≤ k.toNat) ∧ (isPrivileged (.evclr h d k) = true ↔ 8 ≤ k.toNat))

/-! ## Traps -/

/-- R417 to R419, R423: taking a precise trap. In supervisor mode it is a double trap, and with a trap vector of zero there is
no handler: the weft is terminated. With room for a frame, the weft enters its handler in supervisor mode with one entry of all
its lanes, and the frame holds the PC, the cause, the detail, the counts and the frontier's entries in order. Memory outside
the frame is as before. Bytes of the frame that no rule names are zero, and a vector's bits [2:0] do not reach the PC (log entry
37). -/
def Obligations.TrapEntry : Prop :=
  ∀ (s : State) l k pc lane e w, s.weft? l k = some w →
    let vector := ((s.context? w.ctx).map (·.trapv)).getD 0
    let head := preciseHead e pc lane
    (w.sv = true → s.raise l k pc lane e = s.terminate l k 0xF0 e.cause none pc)
    ∧ (w.sv = false → vector = 0 → s.raise l k pc lane e = s.terminate l k 0xF3 0xF3 none pc)
    ∧ (w.sv = false → vector ≠ 0 → ∀ b, findRun (s.loom l).runs 5120 = some b → w.faulted = [] →
      let es := frontierOrder (w.held ++ w.spilled)
      let t := s.raise l k pc lane e
      let at_ (o n : Nat) : Nat := Memory.readLe (t.loom l).mem (b + o) n
      (∃ w', t.weft? l k = some w' ∧ w'.sv = true ∧ w'.frame = some b ∧ w'.wait = .none ∧ w'.spilled = []
        ∧ w'.held = [{ pc := vector &&& ~~~7#64, mask := if w.liveLanes = 0 then 0xFFFFFFFF else w.liveLanes,
                       prio := 4095, age := 0 }]
        ∧ w' = { w with sv := true, frame := some b, frameLanes := w.liveLanes, trap := none, wait := .none, spilled := [],
                        held := w'.held })
      ∧ at_ 0 8 = pc.toNat ∧ at_ 8 1 = head.cause % 256 ∧ at_ 9 1 = head.code % 256
      ∧ at_ 10 2 = 2 * (head.lane % 32) ∧ at_ 12 4 = head.index % 2 ^ 32 ∧ at_ 16 8 = head.detail.toNat
      ∧ (es.length < 64 → at_ 24 1 % 64 = es.length)
      ∧ (es.length ≤ 32 → ∀ j x, es[j]? = some x → at_ (256 + 16 * j) 8 = x.pc.toNat ∧ at_ (264 + 16 * j) 4 = x.mask.toNat
          ∧ at_ (268 + 16 * j) 4 % 4096 = x.prio.toNat)
      ∧ (es.length ≤ 32 → ∀ a, a < b ∨ b + 5120 ≤ a → Memory.read (t.loom l).mem a = Memory.read (s.loom l).mem a)
      ∧ (∀ l', l' ≠ l → t.loom l' = s.loom l') ∧ t.mem = s.mem)
    ∧ (w.sv = false → vector ≠ 0 → findRun (s.loom l).runs 5120 = none →
        s.raise l k pc lane e = s.trapWaits l k { cause := e, pc := pc, lane := lane })

/-- R422, R423: iret. Without a frame, or with a frame whose frontier is malformed, the weft is terminated; else the frontier
that the frame holds comes back, user mode with it, and the frame is freed. Replay entries re-enter their engines one by one,
or are kept for the asynchronous trap that follows; where one must wait, iret has not issued, and those after it stay in the
frame. Re-entry's checks are log entry 37's. -/
def Obligations.TrapReturn : Prop :=
  ∀ s c w, Issuing s .iret c w →
    (w.frame = none → IssuesAs s .iret c w (s.terminate c.loom c.slot 0xF1 0xF1 none c.pc))
    ∧ ∀ b, w.frame = some b →
      let entry (j : Nat) : Entry :=
        let m := (s.loom c.loom).mem
        { pc := BitVec.ofNat 64 (Memory.readLe m (b + 256 + 16 * j) 8),
          mask := BitVec.ofNat 32 (Memory.readLe m (b + 264 + 16 * j) 4),
          prio := BitVec.ofNat 12 (Memory.readLe m (b + 268 + 16 * j) 4),
          age := Memory.readLe m (b + 268 + 16 * j) 4 / 2 ^ 12 % 2 ^ 17 }
      let es := (List.range (Memory.readLe (s.loom c.loom).mem (b + 24) 1 % 64)).map entry
      let ok : Prop := (1 ≤ es.length ∧ es.length ≤ 32 ∨ es = [] ∧ w.frameLanes = 0)
        ∧ (∀ x ∈ es, x.mask ≠ 0 ∧ x.mask &&& ~~~w.frameLanes = 0 ∧ x.pc &&& 7 = 0)
        ∧ es.Pairwise fun x y => x.mask &&& y.mask = 0
      let home : Weft := { w with sv := false, frame := none, frameLanes := 0, held := (restoreFrontier es).1,
                                  spilled := (restoreFrontier es).2 }
      (w.replay = [] → ok → IssuesAs s .iret c w
          ((s.modLm c.loom fun m => Memory.writeBytes m w.spillBase home.spillBytes).setWeft c.loom c.slot home))
      ∧ (w.replay = [] → ¬ ok → IssuesAs s .iret c w ((s.setWeft c.loom c.slot w).terminate c.loom c.slot 0xF1 0xF1 none c.pc))
      ∧ (w.replay ≠ [] →
        let r := (s.setWeft c.loom c.slot { w with replay := [] }).iretLoop w c.loom b w.replay.zipIdx []
        let s2 := r.state.modWeft c.loom c.slot fun v => { v with replay := r.kept.map (·.op) }
        let s3 := (s2.returnFromTrap c.loom c.slot).modWeft c.loom c.slot fun v =>
          { v with replay := [], faulted := r.kept ++ v.faulted }
        (r.rest ≠ [] → exec .iret s = .next (r.state.keepReplay c.loom c.slot b r.kept r.rest))
        ∧ (r.rest = [] → ¬ ok → IssuesAs s .iret c w (s2.terminate c.loom c.slot 0xF1 0xF1 none c.pc))
        ∧ (r.rest = [] → ok → IssuesAs s .iret c w (if r.kept = [] then s3 else s3.raiseAsync c.loom c.slot)))

/-- R420, R434: rq.rd reads words of the frame's replay entries, zero where there is none; rq.wr writes words 6 to 11 and 16 to
125 of one, lane by lane; rq.drop removes an entry and gives the count that is left. R423, R427, R434: setidem writes its
team's idempotent bit; halt terminates its weft, and halt.team its team's others before it, with exit cause 0xF2 and the code
given. The entry that rq.drop vacates keeps its bytes (log entry 37); a mate's exit PC is log entry 26's. -/
def Obligations.SupervisorInstructions : Prop :=
  (∀ s c w h d a b, Issuing s (.rqRd h d a b) c w →
    WritesReg s (.rqRd h d a b) c w d fun j =>
      match w.frame with
      | none => 0
      | some f =>
        if (w.lane a j).toNat < s.rcount c.loom f ∧ (w.lane b j).toNat < 128 then
          BitVec.ofNat 32 (Memory.readLe (s.loom c.loom).mem (f + 1024 + 512 * (w.lane a j).toNat + 4 * (w.lane b j).toNat) 4)
        else 0)
  ∧ (∀ s c w h d a b, Issuing s (.rqWr h d a b) c w →
    let i : Instr := .rqWr h d a b
    (w.frame = none → WritesNothing s i c w)
    ∧ ∀ f, w.frame = some f →
      let put (t : State) (j : Nat) : State :=
        let e := (w.lane a j).toNat
        let k := (w.lane b j).toNat
        if e < t.rcount c.loom f ∧ (6 ≤ k ∧ k ≤ 11 ∨ 16 ≤ k ∧ k ≤ 125) then
          t.modLm c.loom fun m => Memory.writeLe m (f + 1024 + 512 * e + 4 * k) 4 (w.lane d j).toNat
        else t
      let s1 := (activeLanes (c.act w i)).foldl put s
      let w1 : Weft := { w with replay := w.replay.zipIdx.map fun q => s1.rereadOp c.loom (f + 1024 + 512 * q.2) q.1 }
      Does s i c (s1.setWeft c.loom c.slot w1) w1)
  ∧ (∀ s c w h d a, Issuing s (.rqDrop h d a) c w → c.act w (.rqDrop h d a) ≠ 0 →
    let i : Instr := .rqDrop h d a
    let e := (w.lane a (laneL c w i)).toNat
    (w.frame = none → Gives s i c w s w d 0xFFFFFFFF)
    ∧ ∀ f, w.frame = some f →
      let n := s.rcount c.loom f
      (n ≤ e → Gives s i c w s w d 0xFFFFFFFF)
      ∧ (e < n → w.faulted = [] → (∀ o, w.replay[e]? = some o → (match o.instr with | .sbMove .. => False | _ => True)) →
        let w1 : Weft := { w with replay := w.replay.eraseIdx e }
        Gives s i c w ((s.dropReplay c.loom f e n).setWeft c.loom c.slot w1) w1 d (BitVec.ofNat 32 (n - 1)))
      ∧ (e < n → ∃ t, exec i s = .next t))
  ∧ (∀ s c w h d a, Issuing s (.rqDrop h d a) c w → c.act w (.rqDrop h d a) = 0 →
      WritesNothing s (.rqDrop h d a) c w)
  ∧ (∀ s c w h a, Issuing s (.setidem h a) c w →
    let i : Instr := .setidem h a
    (c.act w i = 0 ∨ w.team = none → WritesNothing s i c w)
    ∧ (c.act w i ≠ 0 → ∀ t, w.team = some t →
        Does s i c (s.modTeam c.loom t fun q => { q with idem := (w.lane a (laneL c w i)).getLsbD 0 }) w))
  ∧ (∀ s c w h team code, Issuing s (.halt h team code) c w →
    let i : Instr := .halt h team code
    let mates : List (Nat × Weft) := match w.team with
      | none => []
      | some t => (s.loom c.loom).wefts.filter fun p => p.2.team == some t && p.1 != c.slot && p.2.ended.isNone
    let s1 := if team then mates.foldl (fun t p => t.terminate c.loom p.1 0xF2 0xF2 (some code.toNat) p.2.firstPc) s else s
    (c.act w i = 0 → WritesNothing s i c w)
    ∧ (c.act w i ≠ 0 → IssuesAs s i c w (s1.terminate c.loom c.slot 0xF2 0xF2 (some code.toNat) c.pc)))
  ∧ (∀ (s : State) l k exit cause code pc w, s.weft? l k = some w → w.ended = none →
    ∃ w' x, (s.terminate l k exit cause code pc).weft? l k = some w' ∧ w'.ended = some x ∧ x.exit = exit ∧ x.cause = cause
      ∧ w'.held = [] ∧ w'.spilled = [] ∧ w'.frame = none ∧ w'.trap = none ∧ w'.port = none
      ∧ (∀ q, code = some q → x.code = q) ∧ (w.frame = none → x.pc = pc))

/-- R119, R335, R415, R425: the checks of an instruction before its own, in their order. One of whose registers is pending is
held (R134). Hints and steps of the device have none. -/
def Obligations.IssueChecks : Prop :=
  ∀ s i c w, s.cur = some c → s.weft? c.loom c.slot = some w → i.isEvent = false →
    (match i with | .ipref .. | .dpref .. | .unassignedHint _ => False | _ => True) →
    let held : Prop := s.regsHold c.loom c.slot w i (c.act w i) = true ∨ portHolds w i (c.act w i) = true
    let wrongRole : Prop := ∃ r, needsRole i = some r ∧ w.role ≠ r
    let beyond : Prop := ∃ u ∈ allUses i, w.outOfRange u.r = true
    let denied : Prop := isPrivileged i = true ∧ w.sv = false
    (held → Holds s i)
    ∧ (¬ held → wrongRole → Traps s i c w { cause := 0x03 })
    ∧ (¬ held → ¬ wrongRole → portIllegal w i = true → Traps s i c w { cause := 0x02 })
    ∧ (¬ held → ¬ wrongRole → portIllegal w i = false → beyond →
        ∃ u ∈ allUses i, w.outOfRange u.r = true ∧ (∀ q ∈ allUses i, w.outOfRange q.r = true → u.r ≤ q.r)
          ∧ Traps s i c w { cause := 0x05, code := u.r.toNat })
    ∧ (¬ held → ¬ wrongRole → portIllegal w i = false → ¬ beyond → denied → Traps s i c w { cause := 0x04 })
    ∧ (¬ held → ¬ wrongRole → portIllegal w i = false → ¬ beyond → ¬ denied →
        ∀ e, s.svDenied c.loom w i (c.act w i) = some e → Traps s i c w e)
    ∧ (¬ held → ¬ wrongRole → portIllegal w i = false → ¬ beyond → ¬ denied → s.svDenied c.loom w i (c.act w i) = none →
        ∀ r lane, eccTrap w i c.mask (c.act w i) = some (r, lane) →
          Traps s i c w { cause := 0x06, code := r.toNat, lane := some lane, index := lane })

/-! ## Steps of the device -/

/-- R40 to R42, R45, R160, R161, R165, R208, R325, R335, R345, R377, R416: the steps of one weft. Each has its effect where it
is due, and changes nothing where it is not (log entry 23). The steps of a weft are for wefts that there are, and a line fill
for one that was asked for (R208, log entry 23). -/
def Obligations.WeftSteps : Prop :=
  (∀ (s : State) l k w, s.weft? l k = some w →
    -- a trap that waits for frame memory, or is due, is taken
    (s.halted l w = false → ∀ t, s.takeDue l k w = some t → exec (.trapEntry l k) s = .next t)
    ∧ (s.halted l w = true ∨ s.takeDue l k w = none → exec (.trapEntry l k) s = .next s)
    -- the end of a weft frees its slot and its spill area
    ∧ (w.held = [] → w.spilled = [] → w.trap = none → w.faulted = [] → (s.loom l).opsOf k = [] →
        (∀ o ∈ w.replay, o.cls = .bank) → (∀ x, w.ended = some x → x.written = true) → w.wait = .none →
        (∀ h, w.team = some h → ∃ t, s.team? l h = some t ∧ t.unstarted = false) →
        ∃ t, exec (.weftEnd l k) s = .next t ∧ t.weft? l k = none
          ∧ ∀ a, w.spillBase ≤ a → a < w.spillBase + 256 → Memory.read (t.loom l).mem a = 0)
    ∧ (w.held ≠ [] ∨ w.spilled ≠ [] ∨ w.wait ≠ .none ∨ w.trap.isSome = true ∨ w.faulted ≠ [] ∨ (s.loom l).opsOf k ≠ [] →
        exec (.weftEnd l k) s = .next s)
    -- entries move between the hardware and the spill area, whose bytes are the spilled entries
    ∧ (let w1 := (w.settleFrontier 64 0).1
      let moved := ((s.setWeft l k w1).modLm l fun m => Memory.writeBytes m w.spillBase w1.spillBytes).countLoom l 0x06 w.ctx
        (w.settleFrontier 64 0).2
      (w.mayIssue = true → w.needsSpill = true → exec (.frontierSpillReturn l k) s = .next moved)
      ∧ (w.mayIssue = false ∨ w.needsSpill = false → exec (.frontierSpillReturn l k) s = .next s)
      ∧ (w.mayIssue = true → w.needsSpill = true → (∃ e ∈ w.spilled, e.starving = true) →
          exec (.entryStarving l k) s = .next moved)
      ∧ (w.mayIssue = false ∨ w.needsSpill = false ∨ (∀ e ∈ w.spilled, e.starving = false) →
          exec (.entryStarving l k) s = .next s))
    -- a pass over a yielded weft ends
    ∧ (∀ y, w.yielded = some y → (y.slots = [] ∨ y.left = 0) →
        exec (.yieldPassEnd l k) s = .next (s.setWeft l k { w with yielded := none }))
    ∧ ((∀ y, w.yielded = some y → y.slots ≠ [] ∧ y.left ≠ 0) → exec (.yieldPassEnd l k) s = .next s)
    -- a waiting vgrow obtains its blocks, the earliest of its loom alone, or fails after 4,096 cycles; none ends while its team
    -- is stopped
    ∧ (∀ pc mask d n act since, w.wait = .vgrow pc mask d n act since →
      let due := (s.loom l).growers.head? = some k ∧ blocksOf n - blocksOf w.allot ≤ (s.loom l).freeBlocks
        ∧ (s.clock - since).toNat < 4096 ∧ s.halted l w = false
      let late := 4096 ≤ (s.clock - since).toNat ∧ s.halted l w = false
      let counted := ((s.modLoom l fun x => { x with growers := x.growers.filter (· != k) }).countIssue l k w act
        (w.starvingAt pc)).modWeft l k fun v => v.issued pc
      (due → exec (.vgrowBlocksObtained l k) s = .next ((counted.modWeft l k fun v => { v with allot := n }).finishWait
          l k pc d act 0 (some fun _ => 0)))
      ∧ (¬ due → exec (.vgrowBlocksObtained l k) s = .next s)
      ∧ (late → exec (.vgrowTimeout l k) s = .next ((counted.modWeft l k fun v => { v with allot := v.allot }).finishWait
          l k pc d act 0 (some fun _ => 1)))
      ∧ (¬ late → exec (.vgrowTimeout l k) s = .next s))
    -- a waiting hset writes its mask once no arrival is pending
    ∧ (∀ pc hd set t, w.wait = .hset pc hd set → w.team = some t → ∀ key e, (s.loom l).heddleOf t hd = some (key, e) →
      (e.acnt = 0 → exec (.hsetCommit l k) s = .next ((s.modLoom l fun y =>
        { y with heddles := SMap.put y.heddles key { e with mask := s.setSlots l t set } }).finishWait l k pc 255 0 0 none))
      ∧ (e.acnt ≠ 0 → exec (.hsetCommit l k) s = .next s))
    -- a weft that waits in spawn or join places its record
    ∧ (∀ pc d lane val addr, w.wait = .enqueue pc d lane val addr →
      let r := ContRec.ofBits (s.readVa (s.viewOf l w) addr 32)
      (∀ s1, s.enqueue w.ctx r.loom r.anyloom addr = some s1 →
        exec (.continuationEnqueue l k) s = .next (s1.finishWait l k pc d (oneLane lane) 0 (some fun _ => val)))
      ∧ (s.enqueue w.ctx r.loom r.anyloom addr = none → exec (.continuationEnqueue l k) s = .next s))
    -- a waiting withdrawal issues, and frees its entry
    ∧ (∀ pc mask d act hd, w.wait = .sbWdr pc mask d act hd →
      let issues (u : State) (v : Word) : State :=
        (((u.sideEffect l w).countIssue l k w act (w.starvingAt pc)).modWeft l k fun q => q.issued pc).finishWait l k pc d
          (oneLane (lowestLane act)) 0 (some fun _ => v)
      ((s.loom l).named w.ctx hd = none → exec (.sbWdrFree l k) s = .next (issues s 1))
      ∧ ∀ j e, (s.loom l).named w.ctx hd = some (j, e) →
        (e.state ≠ .moving → (s.loom l).entryBusy j = false → exec (.sbWdrFree l k) s
          = .next (issues (s.modLoom l fun y => y.freeEntry j) 0))
        ∧ (e.state = .moving ∨ (s.loom l).entryBusy j = true → exec (.sbWdrFree l k) s = .next s))
    ∧ (w.wait = .none → ∀ i ∈ [Instr.vgrowBlocksObtained l k, .vgrowTimeout l k, .hsetCommit l k, .continuationEnqueue l k,
        .sbWdrFree l k, .messageSend l k], exec i s = .next s)
    -- a flit that waits for room is accepted, or refused where its port has closed
    ∧ (∀ pc header act fl, w.wait = .send pc header act fl →
      (s.portOf w.ctx header = none → exec (.messageSend l k) s
        = .next ((s.setWeft l k { w with wait := .none }).raise l k pc (lowestLane act)
            { cause := 0x19, lane := some (lowestLane act) }))
      ∧ ∀ tl tk q, s.portOf w.ctx header = some (tl, tk, q) →
        (q.quota ≤ q.flits.length → exec (.messageSend l k) s = .next s)
        ∧ (q.flits.length < q.quota →
          ∃ t w', exec (.messageSend l k) s = .next t ∧ t.weft? l k = some w' ∧ w'.wait = .none
            ∧ w'.held = (w.finish pc).held ∧ w'.fpx = w.fpx
            ∧ t.portOf w.ctx header = some (tl, tk, { q with flits := q.flits ++ [fl] }))))
  ∧ (∀ (s : State) l k, s.weft? l k = none → ∀ i ∈ [Instr.trapEntry l k, .weftEnd l k, .frontierSpillReturn l k,
      .entryStarving l k, .yieldPassEnd l k, .vgrowBlocksObtained l k, .vgrowTimeout l k, .hsetCommit l k,
      .continuationEnqueue l k, .sbWdrFree l k, .messageSend l k], exec i s = .next s)
  ∧ (∀ (s : State) l (ctx : BitVec 16) line,
    let pc := BitVec.ofNat 64 (line * 256)
    let s1 := s.modLoom l fun y => { y with ifills := y.ifills.erase (ctx.toNat, line) }
    ((ctx.toNat, line) ∉ (s.loom l).ifills → exec (.instructionCacheFill l ctx line) s = .next s)
    ∧ ((ctx.toNat, line) ∈ (s.loom l).ifills →
      (∀ leaf pa, s1.fetchPage l ctx.toNat pc = .ok leaf pa →
        ∃ t x, exec (.instructionCacheFill l ctx line) s = .next t
          ∧ (t.loom l).line? ctx.toNat line = some x ∧ x.bytes = s.lineFrom leaf.space pa)
      ∧ ((∀ leaf pa, s1.fetchPage l ctx.toNat pc ≠ .ok leaf pa) →
          exec (.instructionCacheFill l ctx line) s = .next s1)))

/-- R44, R60, R125, R214, R226, R244, R245, R265, R287, R324, R326, R361, R363, R378, R382 to R385, R394, R410, R423: the steps
of the engines, of the distributor's answers, of the translation buffers and of the census. Log entries 1, 23, 30 and 32 hold
the readings in it. -/
def Obligations.EngineSteps : Prop :=
  -- a progress unit of an engine's operation
  (∀ (s : State) l cls idx o, ((s.loom l).queue cls)[idx]? = some o →
    let before := ((s.loom l).queue cls).take idx
    let first : Prop := if cls = .mat then before = []
      else ∀ p ∈ before, p.slot = o.slot → s.opDone p = true
    let ready : Prop := cls ≠ .bank ∧ o.discard = false ∧ o.merging = false ∧ s.opStopped o = false
      ∧ (∀ p ∈ before, p.enter = false) ∧ first
      ∧ (o.started = true ∨ ∀ p ∈ before, p.started = true ∨ p.discard = true ∨ s.opDone p = true ∨ s.opStopped p = true)
      ∧ s.routeBehind before o = false
    let o1 : Op := { o with started := true }
    let done := (s.modOp l cls o.id fun _ => o1).unitDone o1 (s.progress o)
    (¬ ready → exec (.engineUnit l cls idx) s = .next s)
    ∧ (ready → o.enter = true → exec (.engineUnit l cls idx) s = .next (s.enterRanges o))
    ∧ (ready → o.enter = false → o.total ≤ s.progress o → exec (.engineUnit l cls idx) s = .next s)
    ∧ (ready → o.enter = false → s.progress o < o.total → cls ≠ .copy → exec (.engineUnit l cls idx) s = .next done)
    ∧ (ready → o.enter = false → s.progress o < o.total → cls = .copy → s.copyUnheld l = true →
        exec (.engineUnit l cls idx) s = .next (done.copyBusy l))
    ∧ (ready → o.enter = false → s.progress o < o.total → cls = .copy → s.copyUnheld l = false →
        exec (.engineUnit l cls idx) s = .next s)
    -- the retirement of an operation: behind those of its weft and class, its records appended
    ∧ (let due : Prop := s.opDone o = true ∧ o.enter = false ∧ o.merging = false ∧ s.recsWait o = false
        ∧ ∀ p ∈ ((s.loom o.loom).queue o.cls).takeWhile (fun q => q.id != o.id), p.slot ≠ o.slot
      (o.discard = false → due → o.header = none → o.refused = none →
        ∀ w, (s.removeOp o.loom o.cls o.id).weft? o.loom o.slot = some w →
        exec (.operationRetirement l cls idx) s = .next ((s.removeOp o.loom o.cls o.id).setWeft o.loom o.slot
          (let v := if w.ended.isSome then w else o.results { w with fpx := w.fpx ||| o.flags }
          { v with oc := v.oc.set o.cls (v.oc.get o.cls - 1) })))
      -- one whose result is a flit goes with its flit, or waits for room, or is refused
      ∧ (o.discard = false → due → ∀ w h flit, s.weft? o.loom o.slot = some w → o.flit w = some (h, flit) →
        (s.portOf o.ctx h = none ∨ o.sending = some true →
          exec (.operationRetirement l cls idx) s = .next (s.opFault o 0x19 0 0))
        ∧ ∀ tl tk q, s.portOf o.ctx h = some (tl, tk, q) → o.sending ≠ some true →
          (q.quota ≤ q.flits.length → exec (.operationRetirement l cls idx) s
              = .next (s.modOp o.loom o.cls o.id fun x => { x with sending := some false }))
          ∧ (q.flits.length < q.quota → exec (.operationRetirement l cls idx) s
              = .next ((s.retireOp o fun v => v).sendFlit o.loom tl tk flit)))
      ∧ (o.discard = false → ¬ due → exec (.operationRetirement l cls idx) s = .next s))
    -- a discarded operation leaves once nothing of it runs
    ∧ (o.discard = true → o.merging = false → (∀ u ∈ o.sent, u ∈ o.acked) →
        ∀ w, (s.removeOp o.loom o.cls o.id).weft? o.loom o.slot = some w →
        exec (.operationRetirement l cls idx) s
          = .next ((s.removeOp o.loom o.cls o.id).setWeft o.loom o.slot { w with oc := w.oc.set o.cls (w.oc.get o.cls - 1) }))
    ∧ (o.discard = true → (o.merging = true ∨ ∃ u ∈ o.sent, u ∉ o.acked) →
        exec (.operationRetirement l cls idx) s = .next s))
  -- a bank performs its part of a command
  ∧ (∀ (s : State) l idx bank o, (s.loom l).bankQ[idx]? = some o →
    let ready : Prop := bank ∈ o.parts ∧ (∀ p ∈ (s.loom l).bankQ.take idx, bank ∉ p.parts) ∧ s.unheld 1 bank = true
      ∧ s.bankReady (s.opView o) o.bankPlan = true
    (ready → exec (.bankCommandPart l idx bank) s = .next ((s.bankPart o bank).busy 1 bank))
    ∧ (¬ ready → exec (.bankCommandPart l idx bank) s = .next s))
  -- a controller writes a block: it merges a run into it, or writes it whole
  ∧ (∀ (s : State) ctrl, (s.heldMerge ctrl = none → exec (.blockMerge ctrl) s = .next s)
    ∧ (∀ m, s.heldMerge ctrl = some m → m.kind ≠ .whole → (s.takeBlock m.block).1 ≠ 0 →
        let cause := (s.takeBlock m.block).1
        (s.mergeOp m = none → exec (.blockMerge ctrl) s = .next (s.freeMerge ctrl m))
        ∧ ∀ o, s.mergeOp m = some o →
          (o.discard = false → exec (.blockMerge ctrl) s
            = .next ((s.freeMerge ctrl m).opFault o cause 0 (if cause = 0x0F then m.vaBlock else m.vaBlock <<< 12)))
          ∧ (o.discard = true → exec (.blockMerge ctrl) s
            = .next ((s.freeMerge ctrl m).modOp o.loom o.cls o.id fun q => { q with merging := false })))
    ∧ (∀ m, s.heldMerge ctrl = some m → (m.kind = .whole ∨ (s.takeBlock m.block).1 = 0) →
        let old := if m.kind = .whole then 0 else (s.takeBlock m.block).2
        let read := ((SMap.getD s.mem.blockMeta m.block 0).extractLsb' 0 6).toNat
        let s0 := if m.kind = .part then s.softBlock 0 m.block else s
        let s1 := (s0.writeBlock m.block (leBytes 4096 (old - (old &&& m.mask) + m.bits))).countMerge ctrl m read
        let s2 := s1.freeMerge ctrl m
        (s.mergeOp m = none → exec (.blockMerge ctrl) s = .next s2)
        ∧ ∀ o, s.mergeOp m = some o →
          let s3 := if m.kind = .whole then s2.modOp o.loom o.cls o.id fun q => { q with wrote := m.vaBlock :: q.wrote } else s2
          ((∃ x ∈ s3.mem.merges, x.ofOp = some m.op) → exec (.blockMerge ctrl) s = .next s3)
          ∧ ((∀ x ∈ s3.mem.merges, x.ofOp ≠ some m.op) → exec (.blockMerge ctrl) s
              = .next ((s3.applyUnit o m.unit (.did s3 m.flags m.recs)).modOp o.loom o.cls o.id fun q =>
                  { q with merging := false }))))
  -- the last unit of a move
  ∧ (∀ (s : State) l idx o, (s.loom l).copyQ[idx]? = some o → (∃ h d b cc, o.instr = .sbMove h d b cc) →
    let due : Prop := s.progress o + 1 = o.total ∧ o.enter = false ∧ o.discard = false ∧ s.copyUnheld l = true
    (due → exec (.sbMoveCommit l idx) s = .next ((s.moveCommit o (s.progress o)).copyBusy l))
    ∧ (¬ due → exec (.sbMoveCommit l idx) s = .next s))
  -- a loom takes the next record
  ∧ (∀ (s : State) l k, (s.nextRecord l = none → exec (.recordTake l k) s = .next s)
    ∧ ∀ j ctx a, s.nextRecord l = some (.ready j ctx a) →
      let r := ContRec.ofBits (s.readVa (recordView l ctx) a 32)
      (s.recordFits l k r.allot = none → exec (.recordTake l k) s = .next s)
      ∧ ∀ spill, s.recordFits l k r.allot = some spill → ∃ t w, exec (.recordTake l k) s = .next t
        ∧ t.weft? l k = some w ∧ w.ctx = ctx ∧ w.team = none ∧ w.allot = r.allot ∧ w.role = .vector ∧ w.sv = false
        ∧ w.held = [{ pc := pairTarget r.code, mask := 0xFFFFFFFF, prio := 4095, age := 0 }]
        ∧ (t.loom l).ready = (s.loom l).ready.eraseIdx j
        ∧ ∀ n < 32, w.pair 0 n = r.frame)
  -- the distributor answers a request
  ∧ (∀ (s : State) j f, s.fetches[j]? = some f → s.fetchAnswer f ≠ .held →
    (∀ g ∈ s.fetches.take j, s.fetchAnswer g = .held) → ∀ s1,
    s.writeMailbox f.box 0 (answerBytes ((s.launch? f.queue f.count).map (·.lrec)) (s.fetchAnswer f)) = some s1 →
    let s2 : State := { s1 with fetches := s1.fetches.eraseIdx j }
    (∀ n, s.fetchAnswer f = .team n →
      let id : TeamId := { queue := f.queue, count := f.count.toNat, n := n }
      exec (.fetchwAnswer j) s
        = .next (((s2.modLaunch f.queue f.count.toNat fun x => x.takeTeam n).giveTeam f.box id).withdrawPick id))
    ∧ ((∀ n, s.fetchAnswer f ≠ .team n) → exec (.fetchwAnswer j) s = .next s2))
  -- an invalidation completes, and a translation buffer fills
  ∧ (∀ (s : State) j v, s.invs[j]? = some v →
    (s.invWaits v = true → exec (.tlbinvComplete j) s = .next s)
    ∧ (s.invWaits v = false → ∃ t, exec (.tlbinvComplete j) s = .next t
        ∧ (∀ l k w, t.weft? l k = some w → v.id ∉ w.invs)
        ∧ (∀ x ∈ t.launches, ∀ y ∈ x.swapped, ∀ p ∈ y.wefts, v.id ∉ p.2.invs)
        ∧ v.id ∉ t.mgmt.invBusy ∧ t.invs = s.invs.eraseIdx j))
  ∧ (∀ (s : State) ag ctx va, exec (.tlbFillAhead ag ctx va) s
      = .next (if agentOk ag = true ∧ va.toNat < 2 ^ 52 then s.fillTlb ag ctx.toNat va.toNat else s))
  -- the census point: every matching entry of the package is counted, busy, and gets its spawn
  ∧ (∀ (s : State) key q, SMap.find? s.census key = some q →
    let hits (x : Loom) : List (Nat × Board) := x.board.filter fun p => p.2.matches q.ctx q.key
    (q.here = false → exec (.censusPoint key) s = .next s)
    ∧ (q.here = true → ∃ t, exec (.censusPoint key) s = .next t
        ∧ SMap.find? t.census key = some { q with here := false, pkgs := q.pkgs - 1,
                                                  counted := q.counted + (s.looms.map fun p => (hits p.2).length).sum }
        ∧ ∀ l x, SMap.find? s.looms l = some x →
          (t.loom l).spawns = x.spawns ++ (hits x).map (fun p => spawnOf key q p.1 p.2)
          ∧ ∀ p ∈ hits x, (p.1, { p.2 with busy := true }) ∈ (t.loom l).board))
  -- the next spawn of an entry
  ∧ (∀ (s : State) l j, ((s.loom l).nextSpawn j = none → exec (.responderSpawn l j) s = .next s)
    ∧ ∀ p, (s.loom l).nextSpawn j = some p →
      let e := (s.loom l).entry j
      (e.serial ≠ p.serial → exec (.responderSpawn l j) s = .next (s.spawnFails l j p))
      ∧ (e.serial = p.serial → s.serves e.ctx = false → exec (.responderSpawn l j) s = .next s)
      ∧ (e.serial = p.serial → s.serves e.ctx = true → p.written = true →
          exec (.responderSpawn l j) s = .next (s.spawnQueue l j e p))
      ∧ (e.serial = p.serial → s.serves e.ctx = true → p.written = false → s.areaBad l e.ctx e.area = true →
          exec (.responderSpawn l j) s = .next (s.spawnFails l j p))
      ∧ (e.serial = p.serial → s.serves e.ctx = true → p.written = false → s.areaBad l e.ctx e.area = false →
          let v := boardView l e.ctx
          let area : Acc := { lane := 0, va := e.area, len := 128 }
          let case := (s.accCase v true area).1
          (case < 70 → exec (.responderSpawn l j) s = .next (s.spawnFails l j p))
          ∧ (case = 70 → exec (.responderSpawn l j) s = .next s)
          ∧ (70 < case → (∃ sp ∈ s.spots v area, s.readError l sp = true) →
              exec (.responderSpawn l j) s = .next (s.spawnFails l j p))
          ∧ (70 < case → (∀ sp ∈ s.spots v area, s.readError l sp = false) → p.was ≠ .spilled →
            let s1 := (s.writeBytesVa v e.area (areaBytes l j e p false s.stamp)).tick1
            exec (.responderSpawn l j) s
              = .next ((s1.modLoom l fun x => x.setSpawn p (some { p with flagged := false })).spawnQueue l j e
                  { p with flagged := false }))))

/-- R35, R45, R46, R53, R63, R64, R66, R310, R320, R321, R324, R424, R426, R428 to R432: the steps of the distributor; what a
placement makes, which teams are pre-empted and in which way, and that a restore gives back the wefts, the heddles and the working
ranges that the save took. Log entries 12, 23, 26 and 33 hold the readings in it. -/
def Obligations.DistributorSteps : Prop :=
  (PlacementMakes ∧ WayRule ∧ PreemptRule ∧ ChoiceRule ∧ RestoreGives ∧ RangeGives ∧ RestoreKeeps)
  -- a draw: after the requests that can be answered; one team at a time; the generator's step, the winner, its next team
  ∧ (∀ s : State, ((∃ f ∈ s.fetches, s.fetchAnswer f ≠ .held) → exec .distributorDraw s = .next s)
    ∧ ((∀ f ∈ s.fetches, s.fetchAnswer f = .held) →
      (∀ p, s.dist.waiting = some p → exec .distributorDraw s = .next (s.preemptCheck p))
      -- a winner whose record could not be taken yet is the winner still; else the generator steps, and the draw has its winner
      ∧ (s.dist.waiting = none → ∀ q, s.dist.drawn = some q → exec .distributorDraw s = .next (s.drawTake q))
      ∧ (s.dist.waiting = none → s.dist.drawn = none →
        let qs := (List.range 64).filter s.hasWork
        let x := xorshift s.dist.x
        let won := drawWinner (qs.map fun q => (q, s.queueTickets q)) x s.dist.z
        (qs = [] → exec .distributorDraw s = .next s)
        ∧ ∀ q, qs ≠ [] → won.1 = some q →
          exec .distributorDraw s = .next (({ s with dist := { s.dist with x := x, z := won.2 } } : State).drawTake q))))
  -- what the winner has to place
  ∧ (∀ (s : State) q,
    let s1 := (s.findPick (s.queueLoad q + 1) q).1
    let found := (s.findPick (s.queueLoad q + 1) q).2
    let drawn (w : Option Pick) (again : Option Nat) : State :=
      { s1 with dist := { s1.dist with waiting := w, drawn := again, preempting := none } }
    (found = .held → s.drawTake q = drawn none (some q)) ∧ (found = .nothing → s.drawTake q = drawn none none)
    ∧ ∀ p, found = .team p → s.drawTake q = (drawn (some p) none).preemptCheck p)
  -- the draw's winner: by tickets, or in turn where no queue with work has any
  ∧ (∀ (qs : List (Nat × Nat)) x z, let total := (qs.map (·.2)).sum
    (total = 0 → ∀ q n rest, qs = (q, n) :: rest → (∀ p ∈ qs, p.1 ≤ z) → drawWinner qs x z = (some q, q))
    ∧ (0 < total → ∃ q, drawWinner qs x z = (some q, z) ∧ ∃ before n after, qs = before ++ (q, n) :: after
        ∧ (before.map (·.2)).sum ≤ x.toNat % total ∧ x.toNat % total < (before.map (·.2)).sum + n))
  ∧ (∀ x : Word, xorshift x = (let a := x ^^^ x <<< 13; let b := a ^^^ a >>> 17; b ^^^ b <<< 5))
  -- a quantum, and a drain, that have passed
  ∧ (∀ (s : State) l h t p, s.team? l h = some t → s.dist.waiting = some p →
    (s.quantum ≤ (s.clock - t.placedAt).toNat → exec (.teamQuantumExpiry l h) s = .next (s.preemptCheck p))
    ∧ ((s.clock - t.placedAt).toNat < s.quantum → exec (.teamQuantumExpiry l h) s = .next s))
  ∧ (∀ (s : State) l h t, s.team? l h = some t →
    (t.drainUntil = none → exec (.drainExpiry l h) s = .next s)
    ∧ ∀ u, t.drainUntil = some u →
      (s.clock.toNat < u.toNat → exec (.drainExpiry l h) s = .next s)
      ∧ (u.toNat ≤ s.clock.toNat →
        let again := (s.modTeam l h fun q => { q with drainUntil := none, drained := true }).preemptTeam l h
        (s.dist.waiting ≠ none → exec (.drainExpiry l h) s = .next again)
        ∧ (s.dist.waiting = none → exec (.drainExpiry l h) s = .next again.drawOver)))
  -- a placement from the entry PC
  ∧ (∀ (s : State) l h k id x bases, s.dist.waiting = some (.fresh id) →
    s.launch? id.queue (BitVec.ofNat 64 id.count) = some x → l < 192 → h < 1024 → s.team? l h = none →
    (s.loom l).fits x.lrec.need = some bases →
    let slots := (s.loom l).freeSlots k x.lrec.wefts
    (slots.length < x.lrec.wefts → exec (.teamPlacement l h k) s = .next s)
    ∧ (x.lrec.wefts ≤ slots.length → exec (.teamPlacement l h k) s = .next (s.placeTeam l h x id slots bases)))
  -- a flushed team returns to its launch
  ∧ (∀ (s : State) l h t, s.team? l h = some t →
    (t.stop ≠ some .flush ∨ t.unstarted = true ∨ s.teamOps l h ≠ [] ∨ (s.loom l).entriesBusy h = true →
      exec (.teamFlush l h) s = .next s)
    ∧ (t.stop = some .flush → t.unstarted = false → s.teamOps l h = [] → (s.loom l).entriesBusy h = false →
      let s1 := (s.liveWefts l h).foldl (fun u p => u.cancelReplay p.2) (s.leaveArms l h)
      let s2 := s1.modLoom l fun x => ((x.releaseRanges h s.clock).releaseEntries h).removeTeam h
      let s3 := s2.modLaunch t.id.queue t.id.count fun x => { x with again := x.again ++ [(t.id.n, t.issued)] }
      exec (.teamFlush l h) s = .next ((s3.returnTeams t.withdrawn).dropBoxes fun b => !b.ofTeam t.id)))
  -- a stopped team is saved to its image
  ∧ (∀ (s : State) l h t, s.team? l h = some t →
    let ready : Prop := t.stop = some .save ∧ s.saveBusy l h t = false ∧ s.swapUnheld l = true
    (¬ ready → exec (.teamSave l h) s = .next s)
    ∧ (ready → s.imageState t.ctx t.swap t.imageBytes = .unusable → exec (.teamSave l h) s = .next (s.terminateTeam l h))
    ∧ (ready → s.imageState t.ctx t.swap t.imageBytes = .absent → exec (.teamSave l h) s = .next s)
    ∧ (ready → s.imageState t.ctx t.swap t.imageBytes = .usable →
      ∀ s1, s.spillAttached l h ((s.loom l).rangesOf h t) = some s1 →
      let s2 := (s1.saveShare l t).leaveArms l h
      let v := (s2.loom l).saveOf l h { (s2.team? l h).getD t with stop := none, drainUntil := none }
      let s3 := s2.modLoom l fun x => (x.spillEntries h t).dropSaved h
      let s4 := s3.modLaunch t.id.queue t.id.count fun x => { x with swapped := x.swapped ++ [v] }
      let s5 := ((s2.loom l).wefts.filter fun p => p.2.team == some h && p.2.port.isSome).foldl
        (fun u p => u.refuseSenders l p.1 p.2.ctx) s4
      exec (.teamSave l h) s = .next ((s5.countLoom l 0x12 t.ctx 1).swapBusy l)))
  -- a swapped-out team is restored, where the loom has what it needs
  ∧ (∀ (s : State) l h k id v, s.dist.waiting = some (.swapped id) → s.saved? id = some v →
    (s.restoreRoom l v = false ∨ s.swapUnheld l = false ∨ (s.loom l).fits v.need = none) →
    exec (.teamRestore l h k) s = .next s)
  ∧ (∀ (s : State) l h k id v bases, s.dist.waiting = some (.swapped id) → s.saved? id = some v → l < 192 → h < 1024 →
    s.team? l h = none → s.swapUnheld l = true → s.restoreRoom l v = true → (s.loom l).fits v.need = some bases →
    let slots := (s.loom l).freeSlots k v.wefts.length
    v.wefts.length ≤ slots.length →
    (s.restoreState v.team = .absent → exec (.teamRestore l h k) s = .next s)
    ∧ (s.restoreState v.team = .unusable → ∀ s1, s.restoreFails v = some s1 → exec (.teamRestore l h k) s = .next s1)
    ∧ (s.restoreState v.team = .usable → ∀ s1, s.evict 33 l (v.ranges.foldl (fun n r => n + r.own.t) 0) = some s1 →
      ∀ s2, (s1.restoreTeam l h v slots bases).restoreRanges l h v v.ranges = some s2 →
      let s3 := ((s2.restoreTiles l h v).restoreEntries l h (bases.headD 0) v).forgetSaved id
      exec (.teamRestore l h k) s
        = .next ((((s3.checkFrontiers l h).countLoom l 0x11 v.team.ctx 1).swapBusy l).drawOver)))

/-- R66, R105, R131, R349, R455: the context commands. Each is refused while one runs, and has status 1 for a number that names
no context (for a creation, one that does); a creation has status 4 for a queue block that is zero or unaligned, a teardown 2
while a queue of the context is enabled. A creation takes its decode table from the descriptor's image where it gives one, else
R105's, and drops what translation buffers and caches hold of the number; a switch out ends when the context's teams are saved and
its pinned ranges spilled, a teardown when its operations are gone, and then nothing of the context is left. The register layout is
log entry 20's. -/
def Obligations.ContextCommands : Prop :=
  SwitchRule ∧ CommandEnds ∧ ∀ s : State,
    (s.mgmt.ctxStatus = 0x80 → (∀ d, exec (.contextCreate d) s = .next s) ∧ ∀ n, exec (.contextSwitchOut n) s = .next s
      ∧ exec (.contextSwitchIn n) s = .next s ∧ exec (.contextTeardown n) s = .next s)
    ∧ (s.mgmt.ctxStatus ≠ 0x80 →
      (∀ d : CtxDesc,
        let named (st : Nat) : State :=
          { s with mgmt := { s.mgmt with ctxDesc := d, ctxCommand := 1, ctxSubject := d.num.toNat, ctxStatus := st } }
        (d.num = 0 ∨ (s.context? d.num.toNat).isSome = true → exec (.contextCreate d) s = .next (named 1))
        ∧ (d.num ≠ 0 → s.context? d.num.toNat = none → d.qblock = 0 ∨ d.qblock.toNat % 64 ≠ 0 →
            exec (.contextCreate d) s = .next (named 4))
        ∧ (d.num ≠ 0 → s.context? d.num.toNat = none → d.qblock ≠ 0 → d.qblock.toNat % 64 = 0 →
          ∃ t x, exec (.contextCreate d) s = .next t ∧ t.context? d.num.toNat = some x ∧ x.root = d.root ∧ x.dtab = d.dtab
            ∧ x.qblock = d.qblock ∧ x.trapv = d.trapv ∧ x.served = true ∧ t.mgmt.ctxStatus = 0
            ∧ NothingHeld t d.num.toNat
            ∧ ((d.image = none ∨ ∃ ws, d.image = some ws ∧ (ws.length < 768 ∨ ∃ u ∈ ws.take 768, DecEntry.ofBits u = none)) →
              ∀ o < 768, x.decEntry o = DecEntry.default o)
            ∧ ∀ ws, d.image = some ws → 768 ≤ ws.length → (∀ u ∈ ws.take 768, DecEntry.ofBits u ≠ none) →
              ∀ o < 768, some (x.decEntry o) = DecEntry.ofBits (ws.getD o 0)))
      ∧ (∀ n : BitVec 16,
        let named (cmd st : Nat) : State :=
          { s with mgmt := { s.mgmt with ctxCommand := cmd, ctxSubject := n.toNat, ctxStatus := st } }
        (s.context? n.toNat = none → exec (.contextSwitchOut n) s = .next (named 2 1)
          ∧ exec (.contextSwitchIn n) s = .next (named 3 1) ∧ exec (.contextTeardown n) s = .next (named 4 1))
        ∧ ∀ x, s.context? n.toNat = some x →
          let holding (cmd st : Nat) (y : Context) : State :=
            { named cmd st with contexts := SMap.put s.contexts n.toNat y }
          exec (.contextSwitchIn n) s = .next (holding 3 0 { x with served := true })
          ∧ (s.queueEnabled n.toNat = true → exec (.contextTeardown n) s = .next (named 4 2))
          ∧ (s.dist.waiting = none →
            let out := holding 2 0x80 { x with served := false, cmd := .switchOut }
            exec (.contextSwitchOut n) s
              = .next ((out.ctxTeams n.toNat).foldl (fun u p => u.switchTeam p.1 p.2.1 p.2.2) out))
          ∧ (s.dist.waiting = none → s.queueEnabled n.toNat = false →
            let down := holding 4 0x80 { x with served := false, cmd := .teardown }
            exec (.contextTeardown n) s = .next (((down.ctxTeams n.toNat).foldl (fun u p =>
              u.setStop p.1 p.2.1 fun _ => .teardown) down).discardCtx n.toNat))))

/-- R276 to R282, R367 to R369, R382, R387, R388, R449: the packets that have arrived. A packet waits behind an earlier one of
its route; a unit is performed at its destination and answered, refused there, or held while its page is not resident. Packet
fields that no rule places are log entry 36's. -/
def Obligations.PacketSteps : Prop :=
  -- a packet of another kind, or behind one of its route, is not performed
  (∀ (s : State) j, (∀ ops, s.inboundAt j ops = none) →
    ∀ i ∈ [Instr.fabricWriteUnit j, .fabricReadRequest j, .fabricReadResponse j, .fabricAtomicRequest j,
      .fabricAtomicResponse j, .fabricCompletion j, .fabricRefusal j, .reductionContribution j, .reductionCompletion j,
      .censusRequest j, .censusAnswer j], exec i s = .next s)
  -- requests for a unit: refused after an earlier refusal of its operation, or as its place is
  ∧ (∀ (s : State) j p (i : Instr) store, (i = .fabricWriteUnit j ∧ p.op = 0 ∧ store = true
      ∨ i = .fabricReadRequest j ∧ p.op = 1 ∧ store = false) → s.inboundAt j [p.op] = some p →
    let taken := s.takeInbound j
    let place := s.remote p (!store) store p.addr p.len 1
    (s.refusesOp p = true → exec i s = .next (s.refuseUnit j p 10))
    ∧ (s.refusesOp p = false →
      (∀ k, place = .refused k → exec i s = .next (s.refuseUnit j p k))
      ∧ (place = .held → exec i s = .next s)
      ∧ (i = .fabricReadRequest j → ∀ v a, place = .va v a →
          exec i s = .next ((taken.noteRemote p.die place p.len p.ctx false).sendPacket
            (p.reply 2 (leBytes p.len (taken.readVa v a p.len)))))
      ∧ (i = .fabricReadRequest j → ∀ l b, place = .lm l b →
          exec i s = .next ((taken.noteRemote p.die place p.len p.ctx false).sendPacket
            (p.reply 2 (leBytes p.len (Memory.readLe (taken.loom l).mem b p.len)))))
      ∧ (i = .fabricWriteUnit j → (∀ k, place ≠ .refused k) → place ≠ .held →
        let s1 := (taken.remoteWrite place p.len (leValue (p.data.take p.len))).noteRemote p.die place p.len p.ctx true
        let count := s.remote p true true p.ctr 8 8
        (p.cnt = false → exec i s = .next (s1.sendPacket (p.reply 5 [])))
        ∧ (p.cnt = true → (∀ k, count ≠ .refused k) → count ≠ .held → exec i s
            = .next ((((s1.noteRemote p.die count 8 p.ctx false).remoteWrite count 8
                ((s1.remoteRead count 8 + p.len) % 2 ^ 64)).noteRemote p.die count 8 p.ctx true).sendPacket (p.reply 5 [])))
        ∧ (p.cnt = true → ∀ k, count = .refused k → exec i s = .next (s.refuseUnit j p k))
        ∧ (p.cnt = true → count = .held → exec i s = .next s))))
  -- a write at a remote place: its bytes, as a store writes them, and no others
  ∧ (∀ (s : State) l b n x,
    LaneStored s (s.remoteWrite (.lm l b) n x) l ((List.range n).map fun k => Spot.lm (b + k)) x)
  ∧ (∀ (s : State) v a n x, (∀ sp ∈ s.spots v ⟨0, a, n, 1⟩, ∀ q, fieldAt s.devBlocks sp = some q → q.1 = 0) →
    ∃ t, LaneStored s t v.loom (s.spots v ⟨0, a, n, 1⟩) x ∧ ∀ q, byteAt (s.remoteWrite (.va v a) n x) q = byteAt t q)
  ∧ (∀ (s : State) f r n ctx q write, byteAt (s.noteRemote f r n ctx write) q = byteAt s q)
  -- a remote atomic: the integer operations
  ∧ (∀ (s : State) j p, s.inboundAt j [3] = some p → s.refusesOp p = false → p.cnt = false → atomOf p.sub ≠ .fadd →
    ∀ r, s.remote p true true p.addr p.len p.len = r → (∀ k, r ≠ .refused k) → r ≠ .held →
    let taken := s.takeInbound j
    let old := taken.remoteRead r p.len
    let m := 2 ^ (8 * p.len)
    let v := leValue (p.data.take 8) % m
    let cmp := leValue ((p.data.drop 8).take 8) % m
    let new := atomNew (atomOf p.sub) (8 * p.len) old v cmp
    let reply := { p.reply 4 (leBytes 16 old) with launch := 0 }
    let done := if atomOf p.sub = .cas ∧ old ≠ cmp then taken else taken.remoteWrite r p.len new
    exec (.fabricAtomicRequest j) s = .next
      (((done.noteRemote p.die r p.len p.ctx false).noteRemote p.die r p.len p.ctx true).sendPacket reply))
  -- answers at the source
  ∧ (∀ (s : State) j p, s.inboundAt j [5] = some p →
    ((s.takeInbound j).fabOp p.loom p.tag = none → exec (.fabricCompletion j) s = .next (s.takeInbound j))
    ∧ ∀ o, (s.takeInbound j).fabOp p.loom p.tag = some o →
        exec (.fabricCompletion j) s = .next ((s.takeInbound j).unitAcked o p.unit))
  ∧ (∀ (s : State) j p, s.inboundAt j [2] = some p →
    (s.fabOp p.loom p.tag = none → exec (.fabricReadResponse j) s = .next (s.takeInbound j))
    ∧ (∀ o, s.fabOp p.loom p.tag = some o → o.discard = true →
        exec (.fabricReadResponse j) s = .next ((s.takeInbound j).unitAcked o p.unit))
    ∧ ∀ o, s.fabOp p.loom p.tag = some o → o.discard = false →
      let v := s.opView o
      let f := o.fabPlan
      let n := o.fabUnitLen p.unit
      let a := (bitAcc f.laddr (1024 * p.unit) (8 * n)).1
      s.writeCase v false false f.laddr (1024 * p.unit) (8 * n) = none →
      (f.cnt = true → s.addCase v f.ctr = none) →
      let s1 := (s.takeInbound j).putBits v f.laddr (1024 * p.unit) (8 * n) (leValue (p.data.take n))
      let s2 := (s1.settleMarks v a (spanCovers f.laddr 0 (1024 * p.unit + 8 * n))).noteEngine v false a
      exec (.fabricReadResponse j) s = .next ((if f.cnt then s2.countArrival v f.ctr n else s2).unitAcked o p.unit))
  ∧ (∀ (s : State) j p, s.inboundAt j [4] = some p → p.launch.toNat / 256 % 256 = 0 →
    let s1 := s.takeInbound j
    (s1.fabOp p.loom p.tag = none → exec (.fabricAtomicResponse j) s = .next s1)
    ∧ ∀ o, s1.fabOp p.loom p.tag = some o →
      let s2 := s1.modOp o.loom .fab o.id fun q =>
        { q with result := BitVec.ofNat 64 (leValue (p.data.take 8)), parts := [1],
                 flags := q.flags ||| BitVec.ofNat 6 p.launch.toNat }
      ∀ q, s2.fabOp p.loom p.tag = some q → exec (.fabricAtomicResponse j) s = .next (s2.unitAcked q p.unit))
  ∧ (∀ (s : State) j p, s.inboundAt j [6] = some p → p.tag.getLsbD 23 = false →
    let s1 := s.takeInbound j
    (∀ q, s1.answered p = some q → exec (.fabricRefusal j) s = .next (s1.refuseCollective q p.cause))
    ∧ (s1.answered p = none → s1.fabOp p.loom p.tag = none → exec (.fabricRefusal j) s = .next s1)
    ∧ (s1.answered p = none → ∀ o, s1.fabOp p.loom p.tag = some o →
        exec (.fabricRefusal j) s = .next (s1.unitRefused o p.unit)))
  -- reductions: a contribution that disagrees, one of a unit that is done, and a new one; a result
  ∧ (∀ (s : State) j p, s.inboundAt j [7] = some p →
    let op := if p.src = s.node.toNat then s.fabOp p.loom p.tag else none
    let route := (op.map (·.route)).getD []
    let elems := (op.map fun x => x.fabPlan.len).getD 0
    let q0 := s.collective p
    let q := if q0.route = [] then { q0 with route := route, elems := elems } else q0
    let s1 := s.takeInbound j
    (s.refusesOp p = true → exec (.reductionContribution j) s = .next (s.refuseUnit j p 10))
    ∧ (s.refusesOp p = false →
      (q.agrees p elems route = false → exec (.reductionContribution j) s = .next (s.refuseUnit j p 11))
      ∧ (q.agrees p elems route = true → p.unit ∈ q.done → exec (.reductionContribution j) s
          = .next (s1.sendPacket { p.reply 8 [] with launch := BitVec.ofNat 64 q.flags.toNat }))
      ∧ (q.agrees p elems route = true → p.unit ∉ q.done →
        -- a repeat from one contributor carries no data: it retires with the others
        let again : Prop := ∃ g ∈ q.got, g.node = p.src ∧ g.loom = p.redFrom ∧ g.unit = p.unit
        ∀ g : Contribution, g.node = p.src → g.loom = p.redFrom → g.at_ = p.loom → g.tag = p.tag → g.unit = p.unit →
        (again → g.data = []) → (¬ again → g.data = p.data.drop 16) → g.flags = p.redFlags →
        let die := if p.src = s.node.toNat then dieOf p.redFrom % 4 else q.homeDie
        (∀ s2, s1.reduceNext { q with got := q.got ++ [g] } p = some s2 →
          exec (.reductionContribution j) s = .next (s2.countDie die 0x4B 1))
        ∧ (s1.reduceNext { q with got := q.got ++ [g] } p = none → exec (.reductionContribution j) s = .next s))))
  ∧ (∀ (s : State) j p, s.inboundAt j [8] = some p →
    let s1 := s.takeInbound j
    let fl := BitVec.ofNat 6 p.launch.toNat
    (∀ q, s1.answered p = some q → exec (.reductionCompletion j) s = .next (s1.answerUnit q p.unit fl))
    ∧ (s1.answered p = none → s1.fabOp p.loom p.tag = none → exec (.reductionCompletion j) s = .next s1)
    ∧ (s1.answered p = none → ∀ o, s1.fabOp p.loom p.tag = some o →
      let s2 := s1.modOp o.loom .fab o.id fun q => { q with flags := q.flags ||| fl }
      ∀ q, s2.fabOp p.loom p.tag = some q → exec (.reductionCompletion j) s = .next (s2.unitAcked q p.unit)))
  -- censuses of other packages
  ∧ (∀ (s : State) j p, s.inboundAt j [9] = some p →
    let w (k : Nat) : DWord := BitVec.ofNat 64 (leValue ((p.data.drop (8 * k)).take 8))
    let key := 256 * p.src + (w 3).toNat / 256 % 256
    ∃ t q, exec (.censusRequest j) s = .next t ∧ SMap.find? t.census key = some q ∧ q.here = true ∧ q.op = p.sub
      ∧ q.ctx = p.ctx ∧ q.key = w 0 ∧ q.handler = w 1 ∧ q.arg = w 2 ∧ q.allot = (w 3).toNat % 256 ∧ q.counted = 0
      ∧ q.pkgs = 1 ∧ t.fabric.inbound = s.fabric.inbound.eraseIdx j)
  ∧ (∀ (s : State) j p q, s.inboundAt j [10] = some p →
    let key := 256 * s.node.toNat + p.tag.toNat % 256
    let x := leValue (p.data.take 16)
    SMap.find? s.census key = some q →
    (p.src ∉ q.nodes → exec (.censusAnswer j) s = .next (s.takeInbound j))
    ∧ (p.src ∈ q.nodes → ∃ t q1, exec (.censusAnswer j) s = .next t ∧ SMap.find? t.census key = some q1
        ∧ q1.counted = q.counted + x % 2 ^ 32 ∧ q1.answered = q.answered + x / 2 ^ 32 % 2 ^ 32 ∧ q1.pkgs = q.pkgs - 1
        ∧ q1.nodes = q.nodes.erase p.src ∧ q1.flags = q.flags ||| (BitVec.ofNat 16 (x / 2 ^ 96) &&& 0xE)
        ∧ (x.testBit 115 = false → q1.value = q.value)))
  -- a changed route takes effect once what was sent before is acknowledged
  ∧ (∀ (s : State) node vc,
    let due : Prop := (∃ x ∈ s.fabric.changes, x.node = node ∧ x.vc = vc) ∧ s.onTheWay node vc = false
    let mine (p : Packet) : Bool := p.dst == node && p.vc == vc
    (¬ due → exec (.routeChangeEffect node vc) s = .next s)
    ∧ (due → exec (.routeChangeEffect node vc) s
        = .next ((s.fabric.waiting.filter mine).foldl (fun u p => u.sendPacket p)
            { s with fabric := { s.fabric with
                changes := s.fabric.changes.filter (fun x => !(x.node == node && x.vc == vc)),
                waiting := s.fabric.waiting.filter fun p => !mine p } })))

/-- R369, R370, R411, R436 to R447, R450, R452, R465: the links of the fabric, and the node, route and port registers. The link
layer's readings are log entry 18's. -/
def Obligations.LinkSteps : Prop :=
  -- a flit that fails, or that is not data, control or idle, is not read; the port asks for it again
  (∀ (s : State) n flit got, 96 ≤ n ∨ (s.port n).state ≠ .up → exec (.flitReceive n flit got) s = .next s)
  ∧ (∀ (s : State) n flit got, n < 96 → (s.port n).state = .up →
    let s0 := s.countDie (n / 24) 0x48 1
    let bytes := leBytes 192 flit.toNat
    let h := FlitHead.ofBits (flit.extractLsb' 0 64)
    -- a flit of which a beat was not received matches no CRC
    let good : Prop := got = 0xFFFFFF ∧ leValue (bytes.drop 184) = crc64 (bytes.take 184)
    (¬ good → exec (.flitReceive n flit got) s = .next ((s0.dieError (n / 24) (16 + 3 * (n % 24))).nakIf n))
    ∧ (good → h.type = 3 → exec (.flitReceive n flit got) s = .next (s0.nakIf n))
    -- an idle flit is read for its acknowledgement and its credits; it has no number
    ∧ (good → h.type = 2 → h.nak = false → exec (.flitReceive n flit got) s
        = .next (s0.modPort n fun x => (if h.av = true then x.acked h.ack else x).credited h))
    ∧ (good → h.type = 2 → h.nak = true → exec (.flitReceive n flit got) s
        = .next ((s0.modPort n fun x => (if h.av = true then x.acked h.ack else x).credited h).resendOrRetrain n))
    -- a control or data flit out of order is read for its acknowledgement and answered with a NAK; a control flit in order is accepted
    -- with its mask
    ∧ (good → (h.type = 0 ∨ h.type = 1) → h.nak = false → h.seq ≠ (s.port n).expect →
        exec (.flitReceive n flit got) s
          = .next ((s0.modPort n fun x => if h.av = true then x.acked h.ack else x).nakIf n))
    ∧ (good → h.type = 1 → h.nak = false → h.seq = (s.port n).expect →
        exec (.flitReceive n flit got) s
          = .next ((s0.modPort n fun x => (if h.av = true then x.acked h.ack else x).credited h).acceptFlit n h
              ⟨[], [], false⟩ (flit.extractLsb' 64 24)))
    -- one with a NAK asks for every unacknowledged flit again; with a new mask it is no NAK for the count
    ∧ (good → h.type = 1 → h.nak = true → h.seq = (s.port n).expect →
        let mask := flit.extractLsb' 64 24
        let s1 := (s0.modPort n fun x => (if h.av = true then x.acked h.ack else x).credited h).acceptFlit n h ⟨[], [], false⟩ mask
        (mask ≠ (s.port n).txMask → exec (.flitReceive n flit got) s = .next s1)
        ∧ (mask = (s.port n).txMask → exec (.flitReceive n flit got) s = .next (s1.resendOrRetrain n)))
    ∧ (good → h.type = 0 → h.nak = false → h.seq = (s.port n).expect →
        let u := unpackSlots 5 ((s.port n).partialIn ++ slots16 ((bytes.drop 8).take 176))
        (u.bad = true → exec (.flitReceive n flit got) s = .next (s0.nakIf n))
        ∧ (u.bad = false → exec (.flitReceive n flit got) s
          = .next ((s0.modPort n fun x => (if h.av = true then x.acked h.ack else x).credited h).acceptFlit n h u
              (flit.extractLsb' 64 24)))))
  -- acknowledgement: every unacknowledged flit up to the number given
  ∧ (∀ (x : FabPort) a, ((∀ f ∈ x.unacked, f.1 ≠ a) → x.acked a = x)
    ∧ ∀ before f after, x.unacked = before ++ f :: after → f.1 = a → (∀ g ∈ before, g.1 ≠ a) →
      (x.acked a).unacked = after ∧ (x.acked a).resends = 0)
  -- replay: at most three times in a row, then the port retrains
  ∧ (∀ (s : State) n,
    (n < 96 → (s.port n).state = .up →
      exec (.ackTimer n) s = .next (s.emitFlit n 2 false [] none)
      ∧ exec (.portRetrain n) s = .next (s.retrain n)
      ∧ ((s.port n).unacked = [] → exec (.replayTimeout n) s = .next s)
      ∧ ((s.port n).unacked ≠ [] → 3 ≤ (s.port n).resends → exec (.replayTimeout n) s = .next (s.retrain n))
      ∧ ((s.port n).unacked ≠ [] → (s.port n).resends < 3 → exec (.replayTimeout n) s
          = .next (s.setPort n { s.port n with toResend := (s.port n).unacked.map (·.1), resends := (s.port n).resends + 1 })))
    ∧ (96 ≤ n ∨ (s.port n).state ≠ .up → exec (.ackTimer n) s = .next s ∧ exec (.portRetrain n) s = .next s
        ∧ exec (.replayTimeout n) s = .next s))
  -- retraining takes a token; with none the port retires
  ∧ (∀ (s : State) n, ((s.port n).tokens = 0 → s.retrain n = s.retirePort n)
    ∧ ((s.port n).tokens ≠ 0 → ((s.retrain n).port n).state = .training
        ∧ ((s.retrain n).port n).tokens = (s.port n).tokens - 1))
  -- light
  ∧ (∀ (s : State) n k, n < 96 →
    ((s.port n).state = .up → (s.port n).live.getLsbD k = true → exec (.wavelengthSuspect n k) s
        = .next (s.setPort n { s.port n with suspect := (s.port n).suspect ||| BitVec.ofNat 24 (2 ^ k) }))
    ∧ ((s.port n).state ≠ .up ∨ (s.port n).live.getLsbD k = false → exec (.wavelengthSuspect n k) s = .next s)
    ∧ (k < 24 → exec (.wavelengthLiveAgain n k) s
        = .next (s.setPort n { s.port n with suspect := (s.port n).suspect &&& ~~~(BitVec.ofNat 24 (2 ^ k)) })))
  ∧ (∀ (s : State) n mask, n < 96 → (s.port n).state = .up →
    let dead := mask &&& (s.port n).suspect &&& (s.port n).live
    let y : FabPort := { s.port n with live := (s.port n).live &&& ~~~dead, suspect := (s.port n).suspect &&& ~~~dead }
    -- the mask goes in a control flit with a NAK: at once, or once fewer than 512 flits are unacknowledged
    let told := if 512 ≤ y.unacked.length then s.setPort n { y with maskDue := true }
      else ((s.setPort n y).emitFlit n 1 true (leBytes 16 y.live.toNat) none).modPort n fun x =>
        { x with maskDue := false, nakd := true }
    (dead = 0 → exec (.wavelengthDead n mask) s = .next s)
    ∧ (dead ≠ 0 → y.live = 0 → exec (.wavelengthDead n mask) s = .next ((told.lostWaves n dead).retrain n))
    ∧ (dead ≠ 0 → y.live ≠ 0 → exec (.wavelengthDead n mask) s = .next (told.lostWaves n dead)))
  -- training, tokens
  ∧ (∀ (s : State) (t : PortTraining), t.port < 96 → (s.port t.port).state = .training →
    (t.live = 0 → t.tx = 0 → exec (.portTrainingComplete t) s = .next (s.retirePort t.port))
    -- with light on transmit alone the port is up and retrains at once
    ∧ (t.live = 0 → t.tx ≠ 0 → ∃ u : State, exec (.portTrainingComplete t) s = .next (u.retrain t.port)
        ∧ (u.port t.port).live = 0 ∧ (u.port t.port).txMask = t.tx ∧ (u.port t.port).tokens = (s.port t.port).tokens)
    ∧ (t.live ≠ 0 → ∃ u, exec (.portTrainingComplete t) s = .next u ∧
        let x := u.port t.port
        x.state = .up ∧ x.live = t.live ∧ x.txMask = t.tx ∧ x.suspect = 0 ∧ x.pnode = t.pnode ∧ x.pport = t.pport
          ∧ x.ctlBusy = false ∧ x.ctlResult = (if (s.port t.port).ctlBusy then false else (s.port t.port).ctlResult)
          ∧ x.resends = 0 ∧ x.unacked = (s.port t.port).unacked ∧ x.toResend = (s.port t.port).unacked.map (·.1)))
  ∧ (∀ (s : State) (t : PortTraining), 96 ≤ t.port ∨ (s.port t.port).state ≠ .training →
      exec (.portTrainingComplete t) s = .next s)
  ∧ (∀ (s : State) n, (n < 96 → (s.port n).tokens < 8 → 2 ^ 37 ≤ (s.port n).timer → exec (.tokenRestore n) s
        = .next (s.setPort n { s.port n with tokens := (s.port n).tokens + 1, timer := 0 }))
    ∧ (8 ≤ (s.port n).tokens ∨ (s.port n).timer < 2 ^ 37 → exec (.tokenRestore n) s = .next s))
  -- port commands
  ∧ (∀ (s : State) n, n < 96 →
    let x := s.port n
    (x.ctlBusy = true → exec (.portSetOffline n) s = .next s ∧ exec (.portBringUp n) s = .next s)
    ∧ (x.ctlBusy = false →
      (x.state = .retired ∨ x.unacked ≠ [] ∨ s.routed n = true → exec (.portSetOffline n) s
          = .next (s.setPort n { x with ctlCmd := 1, ctlResult := true }))
      ∧ (x.state ≠ .retired → x.unacked = [] → s.routed n = false → exec (.portSetOffline n) s
          = .next (s.setPort n { x with ctlCmd := 1, ctlResult := false, state := .offline, live := 0, txMask := 0,
                                        suspect := 0 }))
      ∧ (x.state = .retired → exec (.portBringUp n) s = .next (s.setPort n { x with ctlCmd := 2, ctlResult := true }))
      ∧ (x.state = .offline → exec (.portBringUp n) s
          = .next (s.setPort n { x with ctlCmd := 2, ctlResult := false, ctlBusy := true, state := .training }))
      ∧ (x.state = .up ∨ x.state = .training → exec (.portBringUp n) s
          = .next (s.setPort n { x with ctlCmd := 2, ctlResult := false }))))
  -- the node register and the route table
  ∧ (∀ (s : State) v, exec (.nodeWrite v) s = .next { s with node := v })
  ∧ (∀ (s : State) node v, (4096 ≤ node → exec (.routeWrite node v) s = .next s)
    ∧ (node < 4096 →
      let old := SMap.getD s.fabric.route node 0
      let new := v &&& 0x807F
      let same : Prop := old.extractLsb' 0 7 = v.extractLsb' 0 7
      ∃ t, exec (.routeWrite node v) s = .next t ∧ SMap.find? t.fabric.route node = some new
        ∧ (∀ k, k ≠ node → SMap.find? t.fabric.route k = SMap.find? s.fabric.route k)
        ∧ (same → t.fabric.changes = s.fabric.changes)
        ∧ (¬ same → t.fabric.changes = s.fabric.changes
            ++ ((List.range 4).filter fun vc => !s.fabric.changes.any fun x => x.node == node && x.vc == vc).map fun vc =>
                { node := node, vc := vc, old := old, new := new })))

/-- R31 to R33, R66, R131, R314, R361, R457 to R461, R463: power, reset and the stages of bring-up. Readings of log entries 16
and 20. -/
def Obligations.BringUpSteps : Prop :=
  -- a reset leaves the package at stage 1, with the budgets' floors, the retired ports and the host's memory
  (∀ (s : State) i on, (i = .resetRequest ∧ on = true ∨ i = .powerOff ∧ on = false
      ∨ i = .powerOn ∧ on = true ∧ s.mgmt.powered = false) →
    ∃ t, exec i s = .next t ∧ t.mgmt.stage = 1 ∧ t.mgmt.powered = on ∧ t.mgmt.portRecord = s.mgmt.portRecord ∧ t.looms = []
      ∧ t.contexts = [] ∧ t.launches = [] ∧ t.mem.hbm = [] ∧ t.mem.market = [] ∧ t.mem.host = s.mem.host
      ∧ t.fabric.route = [] ∧ t.qbase = State.reset.qbase ∧ t.mgmt.plim = 3800 ∧ t.mgmt.tlim = 100 ∧ t.mgmt.trip = false
      ∧ (s.mgmt.budgets.length = 7 → t.mgmt.budgets.map (·.floor) = s.mgmt.budgets.map (·.floor)
          ∧ ∀ b ∈ t.mgmt.budgets, b.budget = 8192))
  ∧ (∀ s : State, s.mgmt.powered = true → exec .powerOn s = .next s)
  -- a step of bring-up out of its order does nothing
  ∧ (∀ (s : State) i n, (i = .exlemLinkTrained ∧ n = 1 ∨ (∃ f, i = .firmwareVerification f) ∧ n = 2 ∨ i = .memoryZeroing ∧ n = 4
      ∨ (∃ p r v, i = .fabricBringUp p r v) ∧ n = 5 ∨ (∃ b, i = .launchQueuesEnable b) ∧ n = 6) → s.mgmt.stage ≠ n →
    exec i s = .next s)
  ∧ (∀ s : State, s.mgmt.stage = 1 → exec .exlemLinkTrained s = .next
      { s with mgmt := { s.mgmt with stage := 2, linkUp := true, m0 := Config.bootRomDigest } })
  -- verification: the header is measured; the first check that fails gives the reason
  ∧ (∀ (s : State) f, s.mgmt.stage = 2 →
    let num (off n : Nat) : Nat := leValue ((f.bytes.drop off).take n)
    let m1 := BitVec.ofNat 512 (leValue (Config.shake256 (f.bytes.take 96) 64))
    ∃ t, exec (.firmwareVerification f) s = .next t ∧ t = { s with mgmt := t.mgmt } ∧ t.mgmt.m1 = m1
      ∧ t.mgmt = { s.mgmt with stage := t.mgmt.stage, m1 := m1, fail := t.mgmt.fail, reason := t.mgmt.reason, svn := t.mgmt.svn,
                               budgets := t.mgmt.budgets }
      ∧ t.mgmt.stage = (if flashReason f = 0 then 4 else 3)
      ∧ t.mgmt.fail = (if flashReason f = 0 then s.mgmt.fail else true)
      ∧ t.mgmt.reason = (if flashReason f = 0 then s.mgmt.reason else flashReason f)
      ∧ t.mgmt.svn = (if flashReason f = 0 then num 4 4 else s.mgmt.svn)
      ∧ t.mgmt.budgets.map (·.floor) = (if flashReason f = 0
          then (List.range s.mgmt.budgets.length).map fun k => num (80 + 2 * k) 2 % 2 ^ 14 else s.mgmt.budgets.map (·.floor)))
  ∧ (∀ f : FlashImage,
    let field (off n : Nat) : List Byte := (f.bytes.drop off).take n
    let num (off n : Nat) : Nat := leValue (field off n)
    (flashReason f = 0 ↔ field 0 4 = [0x42, 0x5A, 0x53, 0x46] ∧ (∀ b ∈ field 94 2 ++ field 3939 157, b = 0)
        ∧ Config.keySlots.contains (Config.shake256 (field 96 1793) 32) = true ∧ 1 ≤ num 1889 2 ∧ num 1889 2 ≤ 2048
        ∧ Config.falconVerify (field 96 1793) (field 0 96) (field 1891 (num 1889 2)) = true ∧ Config.minSvn ≤ num 4 4
        ∧ Config.shake256 (field 4096 (num 8 8)) 64 = field 16 64 ∧ f.readOk = true)
    ∧ (field 0 4 ≠ [0x42, 0x5A, 0x53, 0x46] → flashReason f = 5))
  -- zeroing, the fabric, the launch queues
  ∧ (∀ s : State, s.mgmt.stage = 4 → ∃ t, exec .memoryZeroing s = .next t ∧ t.mgmt.stage = 5 ∧ t.looms = []
      ∧ t.mem.hbm = [] ∧ t.mem.market = [] ∧ t.mem.host = s.mem.host ∧ t.bankArms = [] ∧ t.mgmt.errors = [])
  ∧ (∀ (s : State) ports routes v, s.mgmt.stage = 5 →
    let s1 := (List.range 96).foldl (fun u n =>
      if u.portRecorded n = true then u.modPort n fun x => { x with state := .retired }
      else match ports.find? fun t => t.port == n with
        | some t => u.trained t
        | none => u.retirePort n) s
    ∃ t, exec (.fabricBringUp ports routes v) s = .next t ∧ t.mgmt.stage = 6 ∧ t.node = v ∧ t.fabric.ports = s1.fabric.ports
      ∧ t.fabric.route = routes.foldl (fun m e => if e.1 < 4096 then SMap.put m e.1 (e.2 &&& 0x807F) else m) s1.fabric.route)
  ∧ (∀ (s : State) base, s.mgmt.stage = 6 →
    (base = 0 ∨ base.toNat % 4096 ≠ 0 → exec (.launchQueuesEnable base) s = .next s)
    -- the 64 blocks at the base keep what software wrote in them; their other bits are zero
    ∧ (base ≠ 0 → base.toNat % 4096 = 0 → Memory.wf s.mem.hbm = true → ∃ t, exec (.launchQueuesEnable base) s = .next t
        ∧ t.qbase = base ∧ t.mgmt = { s.mgmt with stage := 7 } ∧ t.looms = s.looms ∧ t.mem.market = s.mem.market
        ∧ (∀ k < 4096, t.readPhys .hbm (base.toNat + k) = s.readPhys .hbm (base.toNat + k) &&&
            (if k % 64 = 8 then 0x3F else if k % 64 ≤ 10 ∨ 24 ≤ k % 64 ∧ k % 64 < 32 then 0xFF else 0))
        ∧ ∀ a, a < base.toNat ∨ base.toNat + 4096 ≤ a → t.readPhys .hbm a = s.readPhys .hbm a))

/-- R30, R190, R211, R212, R217, R339, R362, R365, R408 to R410, R412, R453, R454, R460, R462, R464, R466: the host's accesses
and the activities and registers of the management controller. Readings of log entries 19 to 23. -/
def Obligations.ManagementSteps : Prop :=
  -- the host's loads and stores through its window
  (∀ (s : State) off n,
    let ok : Prop := (n = 1 ∨ n = 2 ∨ n = 4 ∨ n = 8) ∧ off % n = 0 ∧ s.mgmt.linkUp = true
    (¬ ok → exec (.hostLoad off n) s = .next s)
    ∧ (ok → off + n ≤ 2 ^ 39 → s.blockBusy (off / 4096) = false → exec (.hostLoad off n) s = .next
        { s with outbox := s.outbox ++ [Out.hostData (BitVec.ofNat 64 (leValue ((List.range n).map fun k =>
            s.readPhys .hbm (off + k))))] })
    -- one to a block that a merge holds waits at its controller
    ∧ (ok → off + n ≤ 2 ^ 39 → s.blockBusy (off / 4096) = true →
        exec (.hostLoad off n) s = .next (s.request [hostRequest .hostLoad off n 0]))
    ∧ (ok → 2 ^ 39 ≤ off → off + n ≤ 2 ^ 39 + 2 ^ 28 → exec (.hostLoad off n) s = .next
        { s with outbox := s.outbox ++ [Out.hostData (BitVec.ofNat 64 (leValue ((List.range n).map fun k =>
            s.readPhys .market (off - 2 ^ 39 + k))))] }))
  ∧ (∀ (s : State) off data,
    let n := data.length
    let ok : Prop := (n = 1 ∨ n = 2 ∨ n = 4 ∨ n = 8) ∧ off % n = 0 ∧ s.mgmt.linkUp = true
    (¬ ok → exec (.hostStore off data) s = .next s)
    ∧ (∀ sp a, s.devBlocks = [] → s.hostFielded sp a data = data)
    -- a store to HBM modifies the line in the L2; a compressed block's controller writes its frame
    ∧ (ok → off < 2 ^ 39 → s.blockBusy (off / 4096) = false → ∃ t, exec (.hostStore off data) s = .next t
        ∧ t.mem.hbm = Memory.writeBytes s.mem.hbm off (s.hostFielded .hbm off data)
        ∧ t.mem.market = s.mem.market ∧ t.looms = s.looms
        ∧ (SMap.getD s.mem.blockMeta (off / 4096) 0 = 0 → ∃ x ∈ t.mem.l2, x.host = false ∧ x.line = off / 128 ∧ x.dirty = true))
    ∧ (ok → off < 2 ^ 39 → s.blockBusy (off / 4096) = true → exec (.hostStore off data) s
        = .next (s.request [hostRequest .hostStore off n (leValue data)]))
    ∧ (ok → 2 ^ 39 ≤ off → off < 2 ^ 39 + 2 ^ 28 → ∃ t, exec (.hostStore off data) s = .next t
        ∧ t.mem.market = Memory.writeBytes s.mem.market (off - 2 ^ 39) (s.hostFielded .market (off - 2 ^ 39) data)
        ∧ t.mem.hbm = s.mem.hbm ∧ t.looms = s.looms
        -- a word that it writes whole is in error no longer
        ∧ (n = 8 → t.mem.hard (markOf .market (off - 2 ^ 39)) = false))
    ∧ (ok → off = 2 ^ 39 + 2 ^ 28 + 8 → 2 ≤ n → leValue data % 2 ^ 16 = 0xB0C5 →
        exec (.hostStore off data) s = exec .resetRequest s)
    ∧ (ok → 2 ^ 39 + 2 ^ 28 + 2 ^ 20 ≤ off → exec (.hostStore off data) s = .next s))
  ∧ (∀ (s : State) line, exec (.hostCoherenceRequest line none) s = .next s
    ∧ ∀ b, (b.length ≠ 128 ∨ s.mgmt.linkUp = false → exec (.hostCoherenceRequest line (some b)) s = .next s)
      ∧ (b.length = 128 → s.mgmt.linkUp = true → line * 128 < Config.hostBytes →
        ∃ t, exec (.hostCoherenceRequest line (some b)) s = .next t
          ∧ t.mem.host = Memory.writeBytes s.mem.host (line * 128) (s.hostFielded .host (line * 128) b)
          ∧ (∀ x ∈ t.mem.l2, ¬ (x.host = true ∧ x.line = line)) ∧ t.looms = s.looms))
  ∧ (∀ s : State, (2 ≤ s.mgmt.stage → exec .linkFailure s = .next { s with mgmt := { s.mgmt with linkUp := false } })
    ∧ (s.mgmt.stage < 2 → exec .linkFailure s = .next s))
  -- periods, power and temperature
  ∧ (∀ (s : State) pw temps,
    (s.periodStart = false → exec (.budgetPeriodStart pw temps) s = .next s)
    ∧ (s.periodStart = true →
      let hot := hottest temps
      let high : Prop := s.mgmt.plim < pw.toNat ∨ s.mgmt.tlim ≤ hot ∨ s.mgmt.flow = true
      ∃ t, exec (.budgetPeriodStart pw temps) s = .next t ∧ (∀ b ∈ t.mgmt.budgets, b.now = b.budget) ∧ t.mgmt.used = []
        ∧ t.mgmt.pw = pw.toNat ∧ t.mgmt.tmax = hot
        ∧ (s.mgmt.trip = false → hot < 115 → high → t.mgmt.wh = min 64 (s.mgmt.wh + 1))
        ∧ (s.mgmt.trip = false → hot < 115 → ¬ high → t.mgmt.wh = s.mgmt.wh - 1)
        ∧ (s.mgmt.trip = true → t.mgmt.wh = 64 ∧ t.mgmt.trip = true)
        ∧ (115 ≤ hot → t.mgmt.trip = true ∧ t.mgmt.wh = 64)))
  ∧ (∀ (s : State) die, (4 ≤ die → exec (.thermalTrip die) s = .next s)
    ∧ (die < 4 → ∃ t, exec (.thermalTrip die) s = .next t ∧ t.mgmt.trip = true ∧ 115 ≤ t.mgmt.tmax
        ∧ (s.mgmt.trip = false → t.mgmt.wh = 64 ∧ t.outbox = s.outbox ++ [Out.powerOffRequest])))
  ∧ (∀ (s : State) f l, exec (.coolantFlowAlarm f l) s = .next { s with mgmt := { s.mgmt with flow := f, leak := l } })
  ∧ (∀ (s : State) k v b, s.mgmt.budgets[k]? = some b →
    let set (x : Budget) : State := { s with mgmt := { s.mgmt with budgets := s.mgmt.budgets.set k x } }
    exec (.budgetWrite k v false) s
        = .next (set { b with budget := min 8192 (max (v.toNat % 2 ^ 14) (max b.floor 1)) })
      ∧ exec (.budgetWrite k v true) s
        = .next (set { b with floor := v.toNat % 2 ^ 14,
                              budget := if b.budget < v.toNat % 2 ^ 14 then min (v.toNat % 2 ^ 14) 8192 else b.budget }))
  -- scrubbing, migration, sampling, errors
  ∧ (∀ (s : State) a, (a ≠ s.mgmt.scrubAt ∨ s.unheld 5 (hbmStack a) = false → exec (.memoryScrub a) s = .next s)
    ∧ (a = s.mgmt.scrubAt → s.unheld 5 (hbmStack a) = true → ∃ t, exec (.memoryScrub a) s = .next t
        ∧ t.mem.hbm = s.mem.hbm ∧ t.mgmt.scrubAt = (if a + 128 < Config.hbmBytes then a + 128 else 0)
        ∧ (s.mem.markAt (markOf .hbm a) = none → t.mem = s.mem)))
  ∧ (∀ (s : State) ctx va ppn, (s.currentLeaf ctx.toNat va = none → exec (.migrationCopy ctx va ppn) s = .next s)
    ∧ ∀ x, s.currentLeaf ctx.toNat va = some x →
      let n := 2 ^ levelShift x.level
      let src := ptePpn x.pte * 2 ^ 19
      let dst := ppn * 2 ^ 19
      let die := match x.space with | .market => marketBank src / 64 | .hbm => hbmStack src / 2 | .host => 0
      let ready : Prop := pteResident x.pte = false ∧ x.space ≠ .host ∧ src + n ≤ x.space.bytes ∧ dst + n ≤ x.space.bytes
        ∧ (∀ p ∈ s.mem.pending, x.space = .hbm → ¬ (src ≤ p.2.block * 4096 ∧ p.2.block * 4096 < src + n))
        ∧ (∀ v ∈ s.invs, v.ctx ≠ ctx.toNat) ∧ s.unheld 2 die = true
      (ready → exec (.migrationCopy ctx va ppn) s
          = .next ((((s.leaveLines x.space src n).modMem fun m => m.copyPage x.space src dst n).busy 2 die).countCopied
              x.space src dst n))
      ∧ (¬ ready → exec (.migrationCopy ctx va ppn) s = .next s))
  ∧ (∀ s : State,
    let size := s.mgmt.settings.sampleSize.toNat / 16384
    let at_ := (s.mgmt.settings.sampleBase.toNat + 16384 * (s.mgmt.samples % size)) % Config.hbmBytes
    (size = 0 ∨ s.unheld 6 0 = false → exec .eventSampling s = .next s)
    ∧ (size ≠ 0 → s.unheld 6 0 = true → ∃ t, exec .eventSampling s = .next t
        ∧ t.mem.hbm = Memory.writeBytes s.mem.hbm at_ s.sample ∧ t.mgmt.samples = s.mgmt.samples + 1))
  ∧ (∀ (s : State) loc u, (∀ l k r j, loc ≠ .reg l k r j) →
    (errAt loc = none → exec (.softError loc u) s = .next s)
    ∧ (∀ e, errAt loc = some e → s.holdsPlace e = false → exec (.softError loc u) s = .next s)
    ∧ ∀ e, errAt loc = some e → s.holdsPlace e = true → exec (.softError loc u) s
        = .next { s with mem := s.mem.setMark e (u || s.mem.hard e) })
  ∧ (∀ (s : State) l k r j w, s.weft? l k = some w → j < 32 → r ≠ 255 → w.poison = [] → w.soft = [] →
    exec (.softError (.reg l k r j) true) s = .next (s.setWeft l k { w with poison := [(regKey r j, false)] })
      ∧ exec (.softError (.reg l k r j) false) s = .next (s.setWeft l k { w with soft := [regKey r j] }))
  -- the event queue block, the invalidation port
  ∧ (∀ (s : State) v,
    let q := s.mgmt.evq
    let set (x : Evq) : State := { s with mgmt := { s.mgmt with evq := x } }
    exec (.evqWrite 3 v true) s = .next (set { q with hc := v }) ∧ exec (.evqWrite 0 v false) s = .next (set { q with ebase := v })
      ∧ exec (.evqWrite 4 v false) s = .next (set { q with fc := v })
      ∧ (6 ≤ v.toNat % 32 → v.toNat % 32 ≤ 20 →
          exec (.evqWrite 1 v false) s = .next (set { q with elog := v.toNat % 32, el := 0 }))
      ∧ ∀ k, k ≠ 3 → exec (.evqWrite k v true) s = .next s)
  ∧ (∀ (s : State) ctx m va n, ∃ t, exec (.invalidationPort ctx m va n) s = .next t
      ∧ t.invs = s.invs ++ [{ id := s.fresh, ctx := ctx.toNat, mode := m, va := if m = .ctx then 0 else va,
                              count := if m = .range then n else 0 }]
      ∧ t.mgmt.invBusy = s.mgmt.invBusy ++ [s.fresh] ∧ t.mgmt.invCtx = ctx.toNat ∧ t.looms = s.looms ∧ t.mem = s.mem)
  -- attestation and measurement
  ∧ (∀ (s : State) nonce, exec (.attestRequest nonce) s = .next
      { s with mgmt := { s.mgmt with attest := { s.mgmt.attest with
          nonce := nonce, command := 1, status := 0, report := s.mgmt.report nonce,
          signature := Config.falconSign (Config.shake256 (s.mgmt.report nonce) 64) } } })
  ∧ (∀ s : State, exec .attestReadCert s = .next
      { s with mgmt := { s.mgmt with attest := { s.mgmt.attest with
          command := 2, status := 0, certificate := Config.certificate } } })
  ∧ (∀ (s : State) x, (s.mgmt.stage < 4 → exec (.measurementExtend x) s = .next s)
    ∧ (4 ≤ s.mgmt.stage → exec (.measurementExtend x) s = .next { s with mgmt := { s.mgmt with
        m2 := BitVec.ofNat 512 (leValue (Config.shake256 (leBytes 64 s.mgmt.m2.toNat ++ x) 64)) } }))
  -- registers that have no step of their own
  ∧ (∀ (s : State) (v : DWord),
    let setting (f : Settings → Settings) : State := { s with mgmt := { s.mgmt with settings := f s.mgmt.settings } }
    let n := v.toNat
    (exec (.managementRegisterWrite 0x100 v) s = .next { s with mgmt := { s.mgmt with
        plim := min 3800 (n % 2 ^ 12),
        tlim := if 60 ≤ n / 2 ^ 16 % 256 ∧ n / 2 ^ 16 % 256 ≤ 105 then n / 2 ^ 16 % 256 else 105 } })
      ∧ (n % 2 ^ 32 ≠ 0 → exec (.managementRegisterWrite 0x2000 v) s = .next
          { setting (fun x => { x with seed := BitVec.ofNat 32 n }) with dist := { s.dist with x := BitVec.ofNat 32 n } })
      ∧ (n % 2 ^ 32 = 0 → exec (.managementRegisterWrite 0x2000 v) s = .next
          { setting (fun x => { x with seed := 1 }) with dist := { s.dist with x := 1 } })
      ∧ exec (.managementRegisterWrite 0x2008 v) s = .next (setting fun x => { x with qlog := max 16 (min 26 n) })
      ∧ exec (.managementRegisterWrite 0x2010 v) s
          = .next (setting fun x => { x with drain := max (2 ^ 10) (min (2 ^ 32 - 1) n) })
      ∧ exec (.managementRegisterWrite 0x2018 v) s
          = .next (setting fun x => { x with scrub := max (2 ^ 10) (min (2 ^ 40) n) })
      -- the sample buffer: the multiple of 4 KiB nearest to the value, the higher of two (log entry 20)
      ∧ (n < 2 ^ 64 - 2048 → ∃ b, b % 4096 = 0 ∧ b ≤ n + 2048 ∧ n < b + 2048
          ∧ exec (.managementRegisterWrite 0x2020 v) s = .next (setting fun x => { x with sampleBase := BitVec.ofNat 64 b })
          ∧ exec (.managementRegisterWrite 0x2028 v) s = .next (setting fun x => { x with sampleSize := BitVec.ofNat 64 b }))
      ∧ exec (.managementRegisterWrite 0x9000 v) s = .next { s with mgmt := { s.mgmt with inspect := v } }
      ∧ (n = 1 → s.mgmt.ctxStatus ≠ 0x80 → exec (.managementRegisterWrite 0x8028 v) s = exec (.contextCreate s.mgmt.ctxDesc) s)
      ∧ (4 < n → s.mgmt.ctxStatus ≠ 0x80 → exec (.managementRegisterWrite 0x8028 v) s = .next
          { s with mgmt := { s.mgmt with ctxCommand := n, ctxStatus := 3 } })
      ∧ (∀ k < 519, ∃ t, exec (.managementRegisterWrite (0x6000 + 4 * k) v) s = .next t ∧ t.errcnt k = 0
          ∧ ∀ j < 519, j ≠ k → t.errcnt j = s.errcnt j))

end
end

