-- ==== Sys2Proof/Laws/Access.lean ====
section
/-! SUPPORT. The errors that an access meets: the rule of Rules/Memory.lean and the machine's test of it agree. -/

namespace Sys2Proof.Machine

open Rules

/-- A unit in uncorrectable error is marked. -/
theorem Memories.marks_of_hard {m : Memories} {e : ErrAt} (h : m.hard e = true) : m.marks.isEmpty = false := by
  cases hm : m.marks with
  | nil => simp [Memories.hard, Memories.markAt, hm] at h
  | cons => rfl

/-- Host memory is lost with its link (R454). -/
theorem State.hostLost_iff (s : State) (sp : Spot) :
    s.hostLost sp = true ↔ ∃ y pa, sp = .page y pa ∧ y.space = .host ∧ s.mgmt.linkUp = false := by
  cases sp <;> simp [State.hostLost]

/-- A byte cannot be read: a unit that holds it is in uncorrectable error, or it is lost. -/
theorem State.readError_iff (s : State) (l : Nat) (sp : Spot) :
    s.readError l sp = true ↔ (∃ e ∈ sp.units l, s.mem.hard e = true) ∨ s.hostLost sp = true := by
  simp only [State.readError, Bool.or_eq_true, Bool.and_eq_true, Bool.not_eq_true', List.any_eq_true]
  exact or_congr_left ⟨And.right, fun ⟨e, he, hh⟩ => ⟨Memories.marks_of_hard hh, e, he, hh⟩⟩

/-- The rule of a lane's error, as a test. -/
theorem meetsError_iff (s : State) (v : View) (x : Accesses) (a : Acc) :
    MeetsError s v x a ↔
      ((x.load && a.bytes.any fun va =>
        (s.spot v va).caseOf false == 90 && s.readError v.loom (s.spot v va) && !(!x.store && s.l1Serves v va))
      || (x.store && s.writeError v.loom (s.spots v a) (x.list.flatMap (s.spots v)))) = true := by
  have lost (sp : Spot) := (s.hostLost_iff sp).symm
  unfold MeetsError
  simp only [lost, Bool.or_eq_true, Bool.and_eq_true, List.any_eq_true, beq_iff_eq, Bool.not_eq_true', State.readError_iff,
    Bool.and_eq_false_imp, State.writeError, State.spots, List.mem_map, exists_exists_and_eq_and, and_assoc]
  refine or_congr Iff.rfl (and_congr_right fun _ => exists_congr fun b => and_congr_right fun _ => ?_)
  rw [or_comm]
  refine or_congr_left ?_
  split
  · next l u h => simp [h]
  · next h =>
    simp only [Bool.false_eq_true, iff_false]
    exact fun ⟨l, u, hu, _⟩ => h l u hu

/-- No lane of the access meets an error exactly where the machine finds none (R193, R211, R215). -/
theorem State.errorOf_none (s : State) (v : View) (x : Accesses) :
    s.errorOf v x.load x.store x.list = none ↔ ∀ a ∈ x.list, ¬ MeetsError s v x a := by
  simp only [State.errorOf, Option.map_eq_none_iff, List.find?_eq_none, meetsError_iff]

end Sys2Proof.Machine
end

