-- ==== Sys2Proof/Laws/SMap.lean ====
section
/-! SUPPORT. Sparse maps and byte memories: what a read gives after an update, and that the memories' canonical form is
kept. -/

namespace Sys2Proof.Machine

/-! ## Reading after an update -/

@[simp] theorem SMap.find?_put_self {α : Type} (m : List (Nat × α)) (k : Nat) (v : α) :
    SMap.find? (SMap.put m k v) k = some v := by
  induction m with
  | nil => simp [SMap.put, SMap.find?]
  | cons p t ih =>
    simp only [SMap.put]
    split
    · simp [SMap.find?]
    · split
      · simp [SMap.find?]
      · rename_i h1 h2
        simp [SMap.find?, ih, Ne.symm h2]

@[simp] theorem SMap.find?_put_ne {α : Type} (m : List (Nat × α)) {k j : Nat} (v : α) (h : k ≠ j) :
    SMap.find? (SMap.put m k v) j = SMap.find? m j := by
  induction m with
  | nil => simp [SMap.put, SMap.find?, h]
  | cons p t ih =>
    simp only [SMap.put]
    split
    · simp [SMap.find?, h]
    · split
      · rename_i h1 h2
        simp [SMap.find?, h, ← h2]
      · simp [SMap.find?, ih]

@[simp] theorem SMap.find?_del_self {α : Type} (m : List (Nat × α)) (k : Nat) : SMap.find? (SMap.del m k) k = none := by
  induction m with
  | nil => rfl
  | cons p t ih =>
    simp only [SMap.del]
    split
    · exact ih
    · rename_i h; simp [SMap.find?, h, ih]

@[simp] theorem SMap.find?_del_ne {α : Type} (m : List (Nat × α)) {k j : Nat} (h : k ≠ j) :
    SMap.find? (SMap.del m k) j = SMap.find? m j := by
  induction m with
  | nil => rfl
  | cons p t ih =>
    simp only [SMap.del]
    split
    · rename_i h1; simp [SMap.find?, ih, h1, h]
    · simp [SMap.find?, ih]

@[simp] theorem SMap.getD_put_self {α : Type} (m : List (Nat × α)) (k : Nat) (v d : α) :
    SMap.getD (SMap.put m k v) k d = v := by simp [SMap.getD]

@[simp] theorem SMap.getD_put_ne {α : Type} (m : List (Nat × α)) {k j : Nat} (v d : α) (h : k ≠ j) :
    SMap.getD (SMap.put m k v) j d = SMap.getD m j d := by simp [SMap.getD, h]

@[simp] theorem SMap.getD_set_self {α : Type} [DecidableEq α] (m : List (Nat × α)) (k : Nat) (v d : α) :
    SMap.getD (SMap.set m d k v) k d = v := by
  unfold SMap.set
  split
  · rename_i h; simp [SMap.getD, h]
  · simp

@[simp] theorem SMap.getD_set_ne {α : Type} [DecidableEq α] (m : List (Nat × α)) {k j : Nat} (v d : α) (h : k ≠ j) :
    SMap.getD (SMap.set m d k v) j d = SMap.getD m j d := by
  unfold SMap.set
  split <;> simp [SMap.getD, h]

theorem SMap.getD_set {α : Type} [DecidableEq α] (m : List (Nat × α)) (k j : Nat) (v d : α) :
    SMap.getD (SMap.set m d k v) j d = if k = j then v else SMap.getD m j d := by
  by_cases h : k = j
  · subst h; simp
  · simp [h]

theorem SMap.find?_filter_not {α : Type} (m : List (Nat × α)) (p : Nat → Bool) (k : Nat) :
    SMap.find? (m.filter fun q => !p q.1) k = if p k then none else SMap.find? m k := by
  induction m with
  | nil => simp [SMap.find?]
  | cons q t ih =>
    by_cases hq : p q.1
    · simp only [List.filter, hq, Bool.not_true, ih]
      by_cases h : q.1 = k
      · subst h; simp [hq]
      · simp [SMap.find?, h]
    · simp only [List.filter, hq, Bool.not_false]
      by_cases h : q.1 = k
      · subst h; simp [SMap.find?, hq]
      · simp [SMap.find?, h, ih]

/-- A map over the values alone, keys kept. -/
theorem SMap.find?_map {α β : Type} (m : List (Nat × α)) (f : α → β) (k : Nat) :
    SMap.find? (m.map fun p => (p.1, f p.2)) k = (SMap.find? m k).map f := by
  induction m with
  | nil => rfl
  | cons p t ih =>
    simp only [List.map, SMap.find?]
    split <;> simp [ih]

/-! ## Memories -/

theorem Memory.read_write (m : Mem) (a c : Nat) (b : Byte) :
    Memory.read (Memory.write m a b) c = if a = c then b else Memory.read m c := SMap.getD_set m a c b 0

theorem Memory.read_zero (m : Mem) (a n c : Nat) :
    Memory.read (Memory.zero m a n) c = if a ≤ c ∧ c < a + n then 0 else Memory.read m c := by
  have h := SMap.find?_filter_not m (fun x => decide (a ≤ x) && decide (x < a + n)) c
  simp only [Memory.read, SMap.getD, Memory.zero, SMap.dropRange]
  rw [h]
  by_cases hc : a ≤ c ∧ c < a + n
  · simp [hc]
  · simp [hc]

/-- Bytes outside those written are as before. -/
theorem Memory.read_writeBytes_out (bs : List Byte) :
    ∀ (m : Mem) (a c : Nat), c < a ∨ a + bs.length ≤ c → Memory.read (Memory.writeBytes m a bs) c = Memory.read m c := by
  induction bs with
  | nil => intro m a c _; rfl
  | cons b t ih =>
    intro m a c h
    simp only [List.length_cons] at h
    simp only [Memory.writeBytes]
    rw [ih _ _ _ (by omega), Memory.read_write, if_neg (by omega)]

/-- Bytes written read back. -/
theorem Memory.read_writeBytes_in (bs : List Byte) :
    ∀ (m : Mem) (a i : Nat), i < bs.length → Memory.read (Memory.writeBytes m a bs) (a + i) = bs.getD i 0 := by
  induction bs with
  | nil => intro m a i h; simp at h
  | cons b t ih =>
    intro m a i h
    simp only [Memory.writeBytes]
    cases i with
    | zero =>
      rw [Memory.read_writeBytes_out _ _ _ _ (by omega), Memory.read_write]
      simp
    | succ j =>
      have := ih (Memory.write m a b) (a + 1) j (by simpa using h)
      rw [show a + (j + 1) = a + 1 + j by omega, this]
      simp

@[simp] theorem leBytes_length (n v : Nat) : (leBytes n v).length = n := by
  induction n generalizing v with
  | zero => rfl
  | succ n ih => simp [leBytes, ih]

theorem leValue_leBytes (n v : Nat) : leValue (leBytes n v) = v % 256 ^ n := by
  induction n generalizing v with
  | zero => simp [leBytes, leValue, Nat.mod_one]
  | succ n ih =>
    simp only [leBytes, leValue, ih, BitVec.toNat_ofNat]
    rw [show (256 : Nat) ^ (n + 1) = 256 * 256 ^ n by rw [Nat.pow_succ, Nat.mul_comm], Nat.mod_mul]
    omega

/-- A little-endian value reads back, within its bytes. -/
theorem Memory.readLe_writeLe (m : Mem) (a n v : Nat) : Memory.readLe (Memory.writeLe m a n v) a n = v % 256 ^ n := by
  rw [← leValue_leBytes n v]
  unfold Memory.readLe Memory.writeLe Memory.readBytes
  congr 1
  apply List.ext_getElem
  · simp
  · intro i h1 h2
    have hi : i < (leBytes n v).length := h2
    simp only [List.getElem_map, List.getElem_range]
    rw [Memory.read_writeBytes_in _ _ _ _ hi]
    rw [List.getD_eq_getElem?_getD, List.getElem?_eq_getElem hi]
    rfl

/-- Bytes outside those of a little-endian value are as before. -/
theorem Memory.read_writeLe_out (m : Mem) (a n v c : Nat) (h : c < a ∨ a + n ≤ c) :
    Memory.read (Memory.writeLe m a n v) c = Memory.read m c :=
  Memory.read_writeBytes_out _ m a c (by simpa using h)

/-! ## The canonical form is kept -/

/-- Every key of a map is at least a bound. -/
def SMap.above {α : Type} (m : List (Nat × α)) (k : Nat) : Prop := ∀ p ∈ m, k ≤ p.1

theorem SMap.rising_cons {α : Type} (p : Nat × α) (t : List (Nat × α)) :
    SMap.rising (p :: t) = true ↔ SMap.above t (p.1 + 1) ∧ SMap.rising t = true := by
  induction t generalizing p with
  | nil => simp [SMap.rising, SMap.above]
  | cons q t ih =>
    obtain ⟨k, v⟩ := p
    obtain ⟨k', v'⟩ := q
    simp only [SMap.rising, Bool.and_eq_true, decide_eq_true_eq]
    constructor
    · rintro ⟨h1, h2⟩
      refine ⟨?_, h2⟩
      intro r hr
      rcases List.mem_cons.1 hr with h | h
      · subst h; exact h1
      · have := ((ih (k', v')).1 h2).1 r h
        simp only at this ⊢
        omega
    · rintro ⟨h1, h2⟩
      exact ⟨h1 (k', v') (by simp), h2⟩

theorem SMap.rising_filter {α : Type} (m : List (Nat × α)) (f : Nat × α → Bool) (h : SMap.rising m = true) :
    SMap.rising (m.filter f) = true := by
  induction m with
  | nil => simpa using h
  | cons p t ih =>
    obtain ⟨h1, h2⟩ := (SMap.rising_cons p t).1 h
    simp only [List.filter]
    split
    · exact (SMap.rising_cons _ _).2 ⟨fun q hq => h1 q (List.mem_of_mem_filter hq), ih h2⟩
    · exact ih h2

theorem SMap.above_put {α : Type} (m : List (Nat × α)) (k b : Nat) (v : α) (h : SMap.above m b) (hk : b ≤ k) :
    SMap.above (SMap.put m k v) b := by
  induction m with
  | nil => intro p hp; simp only [SMap.put, List.mem_singleton] at hp; subst hp; exact hk
  | cons q t ih =>
    have ht : SMap.above t b := fun p hp => h p (List.mem_cons_of_mem _ hp)
    simp only [SMap.put]
    split
    · intro p hp
      rcases List.mem_cons.1 hp with e | e
      · subst e; exact hk
      · exact h p e
    · split
      · intro p hp
        rcases List.mem_cons.1 hp with e | e
        · subst e; exact hk
        · exact ht p e
      · intro p hp
        rcases List.mem_cons.1 hp with e | e
        · subst e; exact h q (by simp)
        · exact ih ht p e

theorem SMap.rising_put {α : Type} (m : List (Nat × α)) (k : Nat) (v : α) (h : SMap.rising m = true) :
    SMap.rising (SMap.put m k v) = true := by
  induction m with
  | nil => rfl
  | cons q t ih =>
    obtain ⟨h1, h2⟩ := (SMap.rising_cons q t).1 h
    simp only [SMap.put]
    split
    · rename_i hlt
      refine (SMap.rising_cons _ _).2 ⟨?_, h⟩
      intro p hp
      rcases List.mem_cons.1 hp with e | e
      · subst e; exact hlt
      · have := h1 p e; simp only at this ⊢; omega
    · split
      · rename_i he
        refine (SMap.rising_cons _ _).2 ⟨?_, h2⟩
        simpa [he] using h1
      · rename_i hn he
        refine (SMap.rising_cons _ _).2 ⟨SMap.above_put _ _ _ _ h1 ?_, ih h2⟩
        simp only at hn he ⊢
        omega

theorem SMap.del_eq {α : Type} (m : List (Nat × α)) (k : Nat) : SMap.del m k = m.filter fun p => p.1 != k := by
  induction m with
  | nil => rfl
  | cons q t ih =>
    simp only [SMap.del, List.filter]
    split
    · rename_i h; simp [h, ih]
    · rename_i h
      have hb : (q.1 != k) = true := by simpa using h
      rw [hb, ih]

theorem SMap.mem_put {α : Type} {m : List (Nat × α)} {k : Nat} {v : α} {p : Nat × α} (h : p ∈ SMap.put m k v) :
    p = (k, v) ∨ p ∈ m := by
  induction m with
  | nil => exact .inl (by simpa [SMap.put] using h)
  | cons q t ih =>
    simp only [SMap.put] at h
    split at h
    · rcases List.mem_cons.1 h with e | e
      · exact .inl e
      · exact .inr e
    · split at h
      · rcases List.mem_cons.1 h with e | e
        · exact .inl e
        · exact .inr (List.mem_cons_of_mem _ e)
      · rcases List.mem_cons.1 h with e | e
        · exact .inr (by simp [e])
        · rcases ih e with e' | e'
          · exact .inl e'
          · exact .inr (List.mem_cons_of_mem _ e')

theorem Memory.wf_iff (m : Mem) : Memory.wf m = true ↔ SMap.rising m = true ∧ ∀ c ∈ m, c.2 ≠ 0 := by
  simp [Memory.wf]

theorem Memory.wf_filter (m : Mem) (f : Host.Cell → Bool) (h : Memory.wf m = true) : Memory.wf (m.filter f) = true := by
  rw [Memory.wf_iff] at h ⊢
  exact ⟨SMap.rising_filter m f h.1, fun c hc => h.2 c (List.mem_of_mem_filter hc)⟩

theorem Memory.wf_write (m : Mem) (a : Nat) (b : Byte) (h : Memory.wf m = true) : Memory.wf (Memory.write m a b) = true := by
  unfold Memory.write SMap.set
  split
  · rw [SMap.del_eq]; exact Memory.wf_filter m _ h
  · rename_i hb
    rw [Memory.wf_iff] at h ⊢
    refine ⟨SMap.rising_put m a b h.1, fun c hc => ?_⟩
    rcases SMap.mem_put hc with e | e
    · subst e; exact hb
    · exact h.2 c e

theorem Memory.wf_writeBytes (bs : List Byte) :
    ∀ (m : Mem) (a : Nat), Memory.wf m = true → Memory.wf (Memory.writeBytes m a bs) = true := by
  induction bs with
  | nil => intro m a h; exact h
  | cons b t ih => intro m a h; exact ih _ _ (Memory.wf_write m a b h)

theorem Memory.wf_writeLe (m : Mem) (a n v : Nat) (h : Memory.wf m = true) : Memory.wf (Memory.writeLe m a n v) = true :=
  Memory.wf_writeBytes _ m a h

theorem Memory.wf_zero (m : Mem) (a n : Nat) (h : Memory.wf m = true) : Memory.wf (Memory.zero m a n) = true :=
  Memory.wf_filter m _ h

end Sys2Proof.Machine
end

