-- ==== Sys2Proof/Laws/State.lean ====
section
/-! SUPPORT. The fields of State after each of its updates, and the looms, wefts and teams that they leave. -/

namespace Sys2Proof.Machine

/-! ## Fields -/

@[simp] theorem State.setLoom_clock (s : State) (l : Nat) (x : Loom) : (s.setLoom l x).clock = s.clock := rfl
@[simp] theorem State.setLoom_node (s : State) (l : Nat) (x : Loom) : (s.setLoom l x).node = s.node := rfl
@[simp] theorem State.setLoom_mem (s : State) (l : Nat) (x : Loom) : (s.setLoom l x).mem = s.mem := rfl
@[simp] theorem State.setLoom_contexts (s : State) (l : Nat) (x : Loom) : (s.setLoom l x).contexts = s.contexts := rfl
@[simp] theorem State.setLoom_qbase (s : State) (l : Nat) (x : Loom) : (s.setLoom l x).qbase = s.qbase := rfl
@[simp] theorem State.setLoom_launches (s : State) (l : Nat) (x : Loom) : (s.setLoom l x).launches = s.launches := rfl
@[simp] theorem State.setLoom_dist (s : State) (l : Nat) (x : Loom) : (s.setLoom l x).dist = s.dist := rfl
@[simp] theorem State.setLoom_fetches (s : State) (l : Nat) (x : Loom) : (s.setLoom l x).fetches = s.fetches := rfl
@[simp] theorem State.setLoom_census (s : State) (l : Nat) (x : Loom) : (s.setLoom l x).census = s.census := rfl
@[simp] theorem State.setLoom_fabric (s : State) (l : Nat) (x : Loom) : (s.setLoom l x).fabric = s.fabric := rfl
@[simp] theorem State.setLoom_bankArms (s : State) (l : Nat) (x : Loom) : (s.setLoom l x).bankArms = s.bankArms := rfl
@[simp] theorem State.setLoom_dieCounters (s : State) (l : Nat) (x : Loom) : (s.setLoom l x).dieCounters = s.dieCounters := rfl
@[simp] theorem State.setLoom_invs (s : State) (l : Nat) (x : Loom) : (s.setLoom l x).invs = s.invs := rfl
@[simp] theorem State.setLoom_mgmt (s : State) (l : Nat) (x : Loom) : (s.setLoom l x).mgmt = s.mgmt := rfl
@[simp] theorem State.setLoom_agenda (s : State) (l : Nat) (x : Loom) : (s.setLoom l x).agenda = s.agenda := rfl
@[simp] theorem State.setLoom_turn (s : State) (l : Nat) (x : Loom) : (s.setLoom l x).turn = s.turn := rfl
@[simp] theorem State.setLoom_cur (s : State) (l : Nat) (x : Loom) : (s.setLoom l x).cur = s.cur := rfl
@[simp] theorem State.setLoom_fresh (s : State) (l : Nat) (x : Loom) : (s.setLoom l x).fresh = s.fresh := rfl
@[simp] theorem State.setLoom_outbox (s : State) (l : Nat) (x : Loom) : (s.setLoom l x).outbox = s.outbox := rfl

@[simp] theorem State.modLoom_clock (s : State) (l : Nat) (f : Loom → Loom) : (s.modLoom l f).clock = s.clock := rfl
@[simp] theorem State.modLoom_node (s : State) (l : Nat) (f : Loom → Loom) : (s.modLoom l f).node = s.node := rfl
@[simp] theorem State.modLoom_mem (s : State) (l : Nat) (f : Loom → Loom) : (s.modLoom l f).mem = s.mem := rfl
@[simp] theorem State.modLoom_contexts (s : State) (l : Nat) (f : Loom → Loom) : (s.modLoom l f).contexts = s.contexts := rfl
@[simp] theorem State.modLoom_qbase (s : State) (l : Nat) (f : Loom → Loom) : (s.modLoom l f).qbase = s.qbase := rfl
@[simp] theorem State.modLoom_launches (s : State) (l : Nat) (f : Loom → Loom) : (s.modLoom l f).launches = s.launches := rfl
@[simp] theorem State.modLoom_dist (s : State) (l : Nat) (f : Loom → Loom) : (s.modLoom l f).dist = s.dist := rfl
@[simp] theorem State.modLoom_fetches (s : State) (l : Nat) (f : Loom → Loom) : (s.modLoom l f).fetches = s.fetches := rfl
@[simp] theorem State.modLoom_census (s : State) (l : Nat) (f : Loom → Loom) : (s.modLoom l f).census = s.census := rfl
@[simp] theorem State.modLoom_fabric (s : State) (l : Nat) (f : Loom → Loom) : (s.modLoom l f).fabric = s.fabric := rfl
@[simp] theorem State.modLoom_bankArms (s : State) (l : Nat) (f : Loom → Loom) : (s.modLoom l f).bankArms = s.bankArms := rfl
@[simp] theorem State.modLoom_dieCounters (s : State) (l : Nat) (f : Loom → Loom) : (s.modLoom l f).dieCounters = s.dieCounters := rfl
@[simp] theorem State.modLoom_invs (s : State) (l : Nat) (f : Loom → Loom) : (s.modLoom l f).invs = s.invs := rfl
@[simp] theorem State.modLoom_mgmt (s : State) (l : Nat) (f : Loom → Loom) : (s.modLoom l f).mgmt = s.mgmt := rfl
@[simp] theorem State.modLoom_agenda (s : State) (l : Nat) (f : Loom → Loom) : (s.modLoom l f).agenda = s.agenda := rfl
@[simp] theorem State.modLoom_turn (s : State) (l : Nat) (f : Loom → Loom) : (s.modLoom l f).turn = s.turn := rfl
@[simp] theorem State.modLoom_cur (s : State) (l : Nat) (f : Loom → Loom) : (s.modLoom l f).cur = s.cur := rfl
@[simp] theorem State.modLoom_fresh (s : State) (l : Nat) (f : Loom → Loom) : (s.modLoom l f).fresh = s.fresh := rfl
@[simp] theorem State.modLoom_outbox (s : State) (l : Nat) (f : Loom → Loom) : (s.modLoom l f).outbox = s.outbox := rfl

@[simp] theorem State.setWeft_clock (s : State) (l k : Nat) (w : Weft) : (s.setWeft l k w).clock = s.clock := rfl
@[simp] theorem State.setWeft_node (s : State) (l k : Nat) (w : Weft) : (s.setWeft l k w).node = s.node := rfl
@[simp] theorem State.setWeft_mem (s : State) (l k : Nat) (w : Weft) : (s.setWeft l k w).mem = s.mem := rfl
@[simp] theorem State.setWeft_contexts (s : State) (l k : Nat) (w : Weft) : (s.setWeft l k w).contexts = s.contexts := rfl
@[simp] theorem State.setWeft_qbase (s : State) (l k : Nat) (w : Weft) : (s.setWeft l k w).qbase = s.qbase := rfl
@[simp] theorem State.setWeft_launches (s : State) (l k : Nat) (w : Weft) : (s.setWeft l k w).launches = s.launches := rfl
@[simp] theorem State.setWeft_dist (s : State) (l k : Nat) (w : Weft) : (s.setWeft l k w).dist = s.dist := rfl
@[simp] theorem State.setWeft_fetches (s : State) (l k : Nat) (w : Weft) : (s.setWeft l k w).fetches = s.fetches := rfl
@[simp] theorem State.setWeft_census (s : State) (l k : Nat) (w : Weft) : (s.setWeft l k w).census = s.census := rfl
@[simp] theorem State.setWeft_fabric (s : State) (l k : Nat) (w : Weft) : (s.setWeft l k w).fabric = s.fabric := rfl
@[simp] theorem State.setWeft_bankArms (s : State) (l k : Nat) (w : Weft) : (s.setWeft l k w).bankArms = s.bankArms := rfl
@[simp] theorem State.setWeft_dieCounters (s : State) (l k : Nat) (w : Weft) : (s.setWeft l k w).dieCounters = s.dieCounters := rfl
@[simp] theorem State.setWeft_invs (s : State) (l k : Nat) (w : Weft) : (s.setWeft l k w).invs = s.invs := rfl
@[simp] theorem State.setWeft_mgmt (s : State) (l k : Nat) (w : Weft) : (s.setWeft l k w).mgmt = s.mgmt := rfl
@[simp] theorem State.setWeft_agenda (s : State) (l k : Nat) (w : Weft) : (s.setWeft l k w).agenda = s.agenda := rfl
@[simp] theorem State.setWeft_turn (s : State) (l k : Nat) (w : Weft) : (s.setWeft l k w).turn = s.turn := rfl
@[simp] theorem State.setWeft_cur (s : State) (l k : Nat) (w : Weft) : (s.setWeft l k w).cur = s.cur := rfl
@[simp] theorem State.setWeft_fresh (s : State) (l k : Nat) (w : Weft) : (s.setWeft l k w).fresh = s.fresh := rfl
@[simp] theorem State.setWeft_outbox (s : State) (l k : Nat) (w : Weft) : (s.setWeft l k w).outbox = s.outbox := rfl

@[simp] theorem State.modTeam_clock (s : State) (l h : Nat) (f : Team → Team) : (s.modTeam l h f).clock = s.clock := rfl
@[simp] theorem State.modTeam_node (s : State) (l h : Nat) (f : Team → Team) : (s.modTeam l h f).node = s.node := rfl
@[simp] theorem State.modTeam_mem (s : State) (l h : Nat) (f : Team → Team) : (s.modTeam l h f).mem = s.mem := rfl
@[simp] theorem State.modTeam_contexts (s : State) (l h : Nat) (f : Team → Team) : (s.modTeam l h f).contexts = s.contexts := rfl
@[simp] theorem State.modTeam_qbase (s : State) (l h : Nat) (f : Team → Team) : (s.modTeam l h f).qbase = s.qbase := rfl
@[simp] theorem State.modTeam_launches (s : State) (l h : Nat) (f : Team → Team) : (s.modTeam l h f).launches = s.launches := rfl
@[simp] theorem State.modTeam_dist (s : State) (l h : Nat) (f : Team → Team) : (s.modTeam l h f).dist = s.dist := rfl
@[simp] theorem State.modTeam_fetches (s : State) (l h : Nat) (f : Team → Team) : (s.modTeam l h f).fetches = s.fetches := rfl
@[simp] theorem State.modTeam_census (s : State) (l h : Nat) (f : Team → Team) : (s.modTeam l h f).census = s.census := rfl
@[simp] theorem State.modTeam_fabric (s : State) (l h : Nat) (f : Team → Team) : (s.modTeam l h f).fabric = s.fabric := rfl
@[simp] theorem State.modTeam_bankArms (s : State) (l h : Nat) (f : Team → Team) : (s.modTeam l h f).bankArms = s.bankArms := rfl
@[simp] theorem State.modTeam_dieCounters (s : State) (l h : Nat) (f : Team → Team) : (s.modTeam l h f).dieCounters = s.dieCounters := rfl
@[simp] theorem State.modTeam_invs (s : State) (l h : Nat) (f : Team → Team) : (s.modTeam l h f).invs = s.invs := rfl
@[simp] theorem State.modTeam_mgmt (s : State) (l h : Nat) (f : Team → Team) : (s.modTeam l h f).mgmt = s.mgmt := rfl
@[simp] theorem State.modTeam_agenda (s : State) (l h : Nat) (f : Team → Team) : (s.modTeam l h f).agenda = s.agenda := rfl
@[simp] theorem State.modTeam_turn (s : State) (l h : Nat) (f : Team → Team) : (s.modTeam l h f).turn = s.turn := rfl
@[simp] theorem State.modTeam_cur (s : State) (l h : Nat) (f : Team → Team) : (s.modTeam l h f).cur = s.cur := rfl
@[simp] theorem State.modTeam_fresh (s : State) (l h : Nat) (f : Team → Team) : (s.modTeam l h f).fresh = s.fresh := rfl
@[simp] theorem State.modTeam_outbox (s : State) (l h : Nat) (f : Team → Team) : (s.modTeam l h f).outbox = s.outbox := rfl

@[simp] theorem State.modLm_clock (s : State) (l : Nat) (f : Mem → Mem) : (s.modLm l f).clock = s.clock := rfl
@[simp] theorem State.modLm_node (s : State) (l : Nat) (f : Mem → Mem) : (s.modLm l f).node = s.node := rfl
@[simp] theorem State.modLm_mem (s : State) (l : Nat) (f : Mem → Mem) : (s.modLm l f).mem = s.mem := rfl
@[simp] theorem State.modLm_contexts (s : State) (l : Nat) (f : Mem → Mem) : (s.modLm l f).contexts = s.contexts := rfl
@[simp] theorem State.modLm_qbase (s : State) (l : Nat) (f : Mem → Mem) : (s.modLm l f).qbase = s.qbase := rfl
@[simp] theorem State.modLm_launches (s : State) (l : Nat) (f : Mem → Mem) : (s.modLm l f).launches = s.launches := rfl
@[simp] theorem State.modLm_dist (s : State) (l : Nat) (f : Mem → Mem) : (s.modLm l f).dist = s.dist := rfl
@[simp] theorem State.modLm_fetches (s : State) (l : Nat) (f : Mem → Mem) : (s.modLm l f).fetches = s.fetches := rfl
@[simp] theorem State.modLm_census (s : State) (l : Nat) (f : Mem → Mem) : (s.modLm l f).census = s.census := rfl
@[simp] theorem State.modLm_fabric (s : State) (l : Nat) (f : Mem → Mem) : (s.modLm l f).fabric = s.fabric := rfl
@[simp] theorem State.modLm_bankArms (s : State) (l : Nat) (f : Mem → Mem) : (s.modLm l f).bankArms = s.bankArms := rfl
@[simp] theorem State.modLm_dieCounters (s : State) (l : Nat) (f : Mem → Mem) : (s.modLm l f).dieCounters = s.dieCounters := rfl
@[simp] theorem State.modLm_invs (s : State) (l : Nat) (f : Mem → Mem) : (s.modLm l f).invs = s.invs := rfl
@[simp] theorem State.modLm_mgmt (s : State) (l : Nat) (f : Mem → Mem) : (s.modLm l f).mgmt = s.mgmt := rfl
@[simp] theorem State.modLm_agenda (s : State) (l : Nat) (f : Mem → Mem) : (s.modLm l f).agenda = s.agenda := rfl
@[simp] theorem State.modLm_turn (s : State) (l : Nat) (f : Mem → Mem) : (s.modLm l f).turn = s.turn := rfl
@[simp] theorem State.modLm_cur (s : State) (l : Nat) (f : Mem → Mem) : (s.modLm l f).cur = s.cur := rfl
@[simp] theorem State.modLm_fresh (s : State) (l : Nat) (f : Mem → Mem) : (s.modLm l f).fresh = s.fresh := rfl
@[simp] theorem State.modLm_outbox (s : State) (l : Nat) (f : Mem → Mem) : (s.modLm l f).outbox = s.outbox := rfl

@[simp] theorem State.modMem_clock (s : State) (f : Memories → Memories) : (s.modMem f).clock = s.clock := rfl
@[simp] theorem State.modMem_node (s : State) (f : Memories → Memories) : (s.modMem f).node = s.node := rfl
@[simp] theorem State.modMem_looms (s : State) (f : Memories → Memories) : (s.modMem f).looms = s.looms := rfl
@[simp] theorem State.modMem_contexts (s : State) (f : Memories → Memories) : (s.modMem f).contexts = s.contexts := rfl
@[simp] theorem State.modMem_qbase (s : State) (f : Memories → Memories) : (s.modMem f).qbase = s.qbase := rfl
@[simp] theorem State.modMem_launches (s : State) (f : Memories → Memories) : (s.modMem f).launches = s.launches := rfl
@[simp] theorem State.modMem_dist (s : State) (f : Memories → Memories) : (s.modMem f).dist = s.dist := rfl
@[simp] theorem State.modMem_fetches (s : State) (f : Memories → Memories) : (s.modMem f).fetches = s.fetches := rfl
@[simp] theorem State.modMem_census (s : State) (f : Memories → Memories) : (s.modMem f).census = s.census := rfl
@[simp] theorem State.modMem_fabric (s : State) (f : Memories → Memories) : (s.modMem f).fabric = s.fabric := rfl
@[simp] theorem State.modMem_bankArms (s : State) (f : Memories → Memories) : (s.modMem f).bankArms = s.bankArms := rfl
@[simp] theorem State.modMem_dieCounters (s : State) (f : Memories → Memories) : (s.modMem f).dieCounters = s.dieCounters := rfl
@[simp] theorem State.modMem_invs (s : State) (f : Memories → Memories) : (s.modMem f).invs = s.invs := rfl
@[simp] theorem State.modMem_mgmt (s : State) (f : Memories → Memories) : (s.modMem f).mgmt = s.mgmt := rfl
@[simp] theorem State.modMem_agenda (s : State) (f : Memories → Memories) : (s.modMem f).agenda = s.agenda := rfl
@[simp] theorem State.modMem_turn (s : State) (f : Memories → Memories) : (s.modMem f).turn = s.turn := rfl
@[simp] theorem State.modMem_cur (s : State) (f : Memories → Memories) : (s.modMem f).cur = s.cur := rfl
@[simp] theorem State.modMem_fresh (s : State) (f : Memories → Memories) : (s.modMem f).fresh = s.fresh := rfl
@[simp] theorem State.modMem_outbox (s : State) (f : Memories → Memories) : (s.modMem f).outbox = s.outbox := rfl

theorem State.modWeft_eq {s : State} {l k : Nat} {w : Weft} (f : Weft → Weft) (h : s.weft? l k = some w) :
    s.modWeft l k f = s.setWeft l k (f w) := by simp [State.modWeft, h]

theorem State.modWeft_none {s : State} {l k : Nat} (f : Weft → Weft) (h : s.weft? l k = none) : s.modWeft l k f = s := by
  simp [State.modWeft, h]

/-- An update of a weft touches the looms alone. -/
theorem State.modWeft_rest (s : State) (l k : Nat) (f : Weft → Weft) :
    s.modWeft l k f = { s with looms := (s.modWeft l k f).looms } := by
  unfold State.modWeft
  split <;> rfl

/-! ## Looms -/

@[simp] theorem State.loom_setLoom (s : State) (l : Nat) (x : Loom) : (s.setLoom l x).loom l = x := by
  simp [State.loom, State.setLoom]

@[simp] theorem State.loom_setLoom_ne (s : State) {l j : Nat} (x : Loom) (h : j ≠ l) :
    (s.setLoom l x).loom j = s.loom j := by
  simp [State.loom, State.setLoom, Ne.symm h]

@[simp] theorem State.loom_modLoom (s : State) (l : Nat) (f : Loom → Loom) : (s.modLoom l f).loom l = f (s.loom l) := by
  simp [State.modLoom]

@[simp] theorem State.loom_modLoom_ne (s : State) {l j : Nat} (f : Loom → Loom) (h : j ≠ l) :
    (s.modLoom l f).loom j = s.loom j := by
  simp [State.modLoom, h]

@[simp] theorem State.loom_setWeft (s : State) (l k : Nat) (w : Weft) :
    (s.setWeft l k w).loom l = { s.loom l with wefts := SMap.put (s.loom l).wefts k w } := by
  simp [State.setWeft]

@[simp] theorem State.loom_setWeft_ne (s : State) {l j : Nat} (k : Nat) (w : Weft) (h : j ≠ l) :
    (s.setWeft l k w).loom j = s.loom j := by
  simp [State.setWeft, h]

/-! ## Wefts and teams -/

@[simp] theorem State.weft?_setWeft (s : State) (l k : Nat) (w : Weft) : (s.setWeft l k w).weft? l k = some w := by
  simp [State.weft?]

@[simp] theorem State.weft?_setWeft_ne (s : State) (l : Nat) {k j : Nat} (w : Weft) (h : k ≠ j) :
    (s.setWeft l k w).weft? l j = s.weft? l j := by
  simp [State.weft?, h]

@[simp] theorem State.team?_setWeft (s : State) (l k h : Nat) (w : Weft) : (s.setWeft l k w).team? l h = s.team? l h := by
  simp [State.team?]

/-- A change of a loom that leaves its wefts leaves every weft. -/
theorem State.weft?_modLoom (s : State) (l k : Nat) (f : Loom → Loom) (h : (f (s.loom l)).wefts = (s.loom l).wefts) :
    (s.modLoom l f).weft? l k = s.weft? l k := by
  simp [State.weft?, h]

theorem State.team?_modTeam (s : State) (l h j : Nat) (f : Team → Team) :
    (s.modTeam l h f).team? l j = if h = j then (s.team? l j).map f else s.team? l j := by
  unfold State.modTeam State.team?
  rw [State.loom_modLoom]
  split
  · rename_i hn
    split
    · rename_i he; subst he; simp [hn]
    · rfl
  · rename_i t ht
    split
    · rename_i he; subst he; simp [ht]
    · rename_i he; simp [he]

@[simp] theorem State.weft?_modTeam (s : State) (l h k : Nat) (f : Team → Team) :
    (s.modTeam l h f).weft? l k = s.weft? l k := by
  unfold State.modTeam
  apply State.weft?_modLoom
  split <;> rfl

/-! ## Event counters -/

/-- Counting an event changes the loom's counters alone. -/
theorem State.countLoom_eq (s : State) (l src ctx n : Nat) :
    ∃ cs, s.countLoom l src ctx n = s ∧ cs = (s.loom l).counters
      ∨ s.countLoom l src ctx n = s.modLoom l fun x => { x with counters := cs } := by
  unfold State.countLoom
  split
  · exact ⟨_, .inl ⟨rfl, rfl⟩⟩
  · exact ⟨bumpCounters (s.loom l).counters (fun _ => true) src ctx n, .inr (by simp [State.modLoom])⟩

/-! ## Conversion records -/

@[simp] theorem State.vectorRecords_nil (s : State) (l k ctx : Nat) : s.vectorRecords l k ctx [] = s := by
  unfold State.vectorRecords
  cases s.weft? l k <;> rfl

end Sys2Proof.Machine
end

