-- ==== Sys2Proof/Laws/Device.lean ====
section
/-! SUPPORT. The fields of State after the updates of wefts, ports, die counters, the fabric and the management controller, and
what the scan of a quadrant and the refusal of a port's senders do. -/

namespace Sys2Proof.Machine

/-! ## Fields -/

@[simp] theorem State.modWeft_clock (s : State) (l k : Nat) (f : Weft → Weft) : (s.modWeft l k f).clock = s.clock := by
  unfold State.modWeft; split <;> rfl
@[simp] theorem State.modWeft_node (s : State) (l k : Nat) (f : Weft → Weft) : (s.modWeft l k f).node = s.node := by
  unfold State.modWeft; split <;> rfl
@[simp] theorem State.modWeft_mem (s : State) (l k : Nat) (f : Weft → Weft) : (s.modWeft l k f).mem = s.mem := by
  unfold State.modWeft; split <;> rfl
@[simp] theorem State.modWeft_contexts (s : State) (l k : Nat) (f : Weft → Weft) : (s.modWeft l k f).contexts = s.contexts := by
  unfold State.modWeft; split <;> rfl
@[simp] theorem State.modWeft_qbase (s : State) (l k : Nat) (f : Weft → Weft) : (s.modWeft l k f).qbase = s.qbase := by
  unfold State.modWeft; split <;> rfl
@[simp] theorem State.modWeft_launches (s : State) (l k : Nat) (f : Weft → Weft) : (s.modWeft l k f).launches = s.launches := by
  unfold State.modWeft; split <;> rfl
@[simp] theorem State.modWeft_dist (s : State) (l k : Nat) (f : Weft → Weft) : (s.modWeft l k f).dist = s.dist := by
  unfold State.modWeft; split <;> rfl
@[simp] theorem State.modWeft_fetches (s : State) (l k : Nat) (f : Weft → Weft) : (s.modWeft l k f).fetches = s.fetches := by
  unfold State.modWeft; split <;> rfl
@[simp] theorem State.modWeft_census (s : State) (l k : Nat) (f : Weft → Weft) : (s.modWeft l k f).census = s.census := by
  unfold State.modWeft; split <;> rfl
@[simp] theorem State.modWeft_fabric (s : State) (l k : Nat) (f : Weft → Weft) : (s.modWeft l k f).fabric = s.fabric := by
  unfold State.modWeft; split <;> rfl
@[simp] theorem State.modWeft_bankArms (s : State) (l k : Nat) (f : Weft → Weft) : (s.modWeft l k f).bankArms = s.bankArms := by
  unfold State.modWeft; split <;> rfl
@[simp] theorem State.modWeft_dieCounters (s : State) (l k : Nat) (f : Weft → Weft) : (s.modWeft l k f).dieCounters = s.dieCounters := by
  unfold State.modWeft; split <;> rfl
@[simp] theorem State.modWeft_invs (s : State) (l k : Nat) (f : Weft → Weft) : (s.modWeft l k f).invs = s.invs := by
  unfold State.modWeft; split <;> rfl
@[simp] theorem State.modWeft_mgmt (s : State) (l k : Nat) (f : Weft → Weft) : (s.modWeft l k f).mgmt = s.mgmt := by
  unfold State.modWeft; split <;> rfl
@[simp] theorem State.modWeft_agenda (s : State) (l k : Nat) (f : Weft → Weft) : (s.modWeft l k f).agenda = s.agenda := by
  unfold State.modWeft; split <;> rfl
@[simp] theorem State.modWeft_turn (s : State) (l k : Nat) (f : Weft → Weft) : (s.modWeft l k f).turn = s.turn := by
  unfold State.modWeft; split <;> rfl
@[simp] theorem State.modWeft_cur (s : State) (l k : Nat) (f : Weft → Weft) : (s.modWeft l k f).cur = s.cur := by
  unfold State.modWeft; split <;> rfl
@[simp] theorem State.modWeft_fresh (s : State) (l k : Nat) (f : Weft → Weft) : (s.modWeft l k f).fresh = s.fresh := by
  unfold State.modWeft; split <;> rfl
@[simp] theorem State.modWeft_outbox (s : State) (l k : Nat) (f : Weft → Weft) : (s.modWeft l k f).outbox = s.outbox := by
  unfold State.modWeft; split <;> rfl

@[simp] theorem State.modFabric_clock (s : State) (f : Fabric → Fabric) : (s.modFabric f).clock = s.clock := rfl
@[simp] theorem State.modFabric_node (s : State) (f : Fabric → Fabric) : (s.modFabric f).node = s.node := rfl
@[simp] theorem State.modFabric_looms (s : State) (f : Fabric → Fabric) : (s.modFabric f).looms = s.looms := rfl
@[simp] theorem State.modFabric_mem (s : State) (f : Fabric → Fabric) : (s.modFabric f).mem = s.mem := rfl
@[simp] theorem State.modFabric_contexts (s : State) (f : Fabric → Fabric) : (s.modFabric f).contexts = s.contexts := rfl
@[simp] theorem State.modFabric_qbase (s : State) (f : Fabric → Fabric) : (s.modFabric f).qbase = s.qbase := rfl
@[simp] theorem State.modFabric_launches (s : State) (f : Fabric → Fabric) : (s.modFabric f).launches = s.launches := rfl
@[simp] theorem State.modFabric_dist (s : State) (f : Fabric → Fabric) : (s.modFabric f).dist = s.dist := rfl
@[simp] theorem State.modFabric_fetches (s : State) (f : Fabric → Fabric) : (s.modFabric f).fetches = s.fetches := rfl
@[simp] theorem State.modFabric_census (s : State) (f : Fabric → Fabric) : (s.modFabric f).census = s.census := rfl
@[simp] theorem State.modFabric_bankArms (s : State) (f : Fabric → Fabric) : (s.modFabric f).bankArms = s.bankArms := rfl
@[simp] theorem State.modFabric_dieCounters (s : State) (f : Fabric → Fabric) : (s.modFabric f).dieCounters = s.dieCounters := rfl
@[simp] theorem State.modFabric_invs (s : State) (f : Fabric → Fabric) : (s.modFabric f).invs = s.invs := rfl
@[simp] theorem State.modFabric_mgmt (s : State) (f : Fabric → Fabric) : (s.modFabric f).mgmt = s.mgmt := rfl
@[simp] theorem State.modFabric_agenda (s : State) (f : Fabric → Fabric) : (s.modFabric f).agenda = s.agenda := rfl
@[simp] theorem State.modFabric_turn (s : State) (f : Fabric → Fabric) : (s.modFabric f).turn = s.turn := rfl
@[simp] theorem State.modFabric_cur (s : State) (f : Fabric → Fabric) : (s.modFabric f).cur = s.cur := rfl
@[simp] theorem State.modFabric_fresh (s : State) (f : Fabric → Fabric) : (s.modFabric f).fresh = s.fresh := rfl
@[simp] theorem State.modFabric_outbox (s : State) (f : Fabric → Fabric) : (s.modFabric f).outbox = s.outbox := rfl

@[simp] theorem State.setPort_clock (s : State) (p : Nat) (x : FabPort) : (s.setPort p x).clock = s.clock := rfl
@[simp] theorem State.setPort_node (s : State) (p : Nat) (x : FabPort) : (s.setPort p x).node = s.node := rfl
@[simp] theorem State.setPort_looms (s : State) (p : Nat) (x : FabPort) : (s.setPort p x).looms = s.looms := rfl
@[simp] theorem State.setPort_mem (s : State) (p : Nat) (x : FabPort) : (s.setPort p x).mem = s.mem := rfl
@[simp] theorem State.setPort_contexts (s : State) (p : Nat) (x : FabPort) : (s.setPort p x).contexts = s.contexts := rfl
@[simp] theorem State.setPort_qbase (s : State) (p : Nat) (x : FabPort) : (s.setPort p x).qbase = s.qbase := rfl
@[simp] theorem State.setPort_launches (s : State) (p : Nat) (x : FabPort) : (s.setPort p x).launches = s.launches := rfl
@[simp] theorem State.setPort_dist (s : State) (p : Nat) (x : FabPort) : (s.setPort p x).dist = s.dist := rfl
@[simp] theorem State.setPort_fetches (s : State) (p : Nat) (x : FabPort) : (s.setPort p x).fetches = s.fetches := rfl
@[simp] theorem State.setPort_census (s : State) (p : Nat) (x : FabPort) : (s.setPort p x).census = s.census := rfl
@[simp] theorem State.setPort_bankArms (s : State) (p : Nat) (x : FabPort) : (s.setPort p x).bankArms = s.bankArms := rfl
@[simp] theorem State.setPort_dieCounters (s : State) (p : Nat) (x : FabPort) : (s.setPort p x).dieCounters = s.dieCounters := rfl
@[simp] theorem State.setPort_invs (s : State) (p : Nat) (x : FabPort) : (s.setPort p x).invs = s.invs := rfl
@[simp] theorem State.setPort_mgmt (s : State) (p : Nat) (x : FabPort) : (s.setPort p x).mgmt = s.mgmt := rfl
@[simp] theorem State.setPort_agenda (s : State) (p : Nat) (x : FabPort) : (s.setPort p x).agenda = s.agenda := rfl
@[simp] theorem State.setPort_turn (s : State) (p : Nat) (x : FabPort) : (s.setPort p x).turn = s.turn := rfl
@[simp] theorem State.setPort_cur (s : State) (p : Nat) (x : FabPort) : (s.setPort p x).cur = s.cur := rfl
@[simp] theorem State.setPort_fresh (s : State) (p : Nat) (x : FabPort) : (s.setPort p x).fresh = s.fresh := rfl
@[simp] theorem State.setPort_outbox (s : State) (p : Nat) (x : FabPort) : (s.setPort p x).outbox = s.outbox := rfl

@[simp] theorem State.countDie_clock (s : State) (die src n : Nat) : (s.countDie die src n).clock = s.clock := rfl
@[simp] theorem State.countDie_node (s : State) (die src n : Nat) : (s.countDie die src n).node = s.node := rfl
@[simp] theorem State.countDie_looms (s : State) (die src n : Nat) : (s.countDie die src n).looms = s.looms := rfl
@[simp] theorem State.countDie_mem (s : State) (die src n : Nat) : (s.countDie die src n).mem = s.mem := rfl
@[simp] theorem State.countDie_contexts (s : State) (die src n : Nat) : (s.countDie die src n).contexts = s.contexts := rfl
@[simp] theorem State.countDie_qbase (s : State) (die src n : Nat) : (s.countDie die src n).qbase = s.qbase := rfl
@[simp] theorem State.countDie_launches (s : State) (die src n : Nat) : (s.countDie die src n).launches = s.launches := rfl
@[simp] theorem State.countDie_dist (s : State) (die src n : Nat) : (s.countDie die src n).dist = s.dist := rfl
@[simp] theorem State.countDie_fetches (s : State) (die src n : Nat) : (s.countDie die src n).fetches = s.fetches := rfl
@[simp] theorem State.countDie_census (s : State) (die src n : Nat) : (s.countDie die src n).census = s.census := rfl
@[simp] theorem State.countDie_fabric (s : State) (die src n : Nat) : (s.countDie die src n).fabric = s.fabric := rfl
@[simp] theorem State.countDie_bankArms (s : State) (die src n : Nat) : (s.countDie die src n).bankArms = s.bankArms := rfl
@[simp] theorem State.countDie_invs (s : State) (die src n : Nat) : (s.countDie die src n).invs = s.invs := rfl
@[simp] theorem State.countDie_mgmt (s : State) (die src n : Nat) : (s.countDie die src n).mgmt = s.mgmt := rfl
@[simp] theorem State.countDie_agenda (s : State) (die src n : Nat) : (s.countDie die src n).agenda = s.agenda := rfl
@[simp] theorem State.countDie_turn (s : State) (die src n : Nat) : (s.countDie die src n).turn = s.turn := rfl
@[simp] theorem State.countDie_cur (s : State) (die src n : Nat) : (s.countDie die src n).cur = s.cur := rfl
@[simp] theorem State.countDie_fresh (s : State) (die src n : Nat) : (s.countDie die src n).fresh = s.fresh := rfl
@[simp] theorem State.countDie_outbox (s : State) (die src n : Nat) : (s.countDie die src n).outbox = s.outbox := rfl

@[simp] theorem State.modMgmt_clock (s : State) (f : Mgmt → Mgmt) : (s.modMgmt f).clock = s.clock := rfl
@[simp] theorem State.modMgmt_node (s : State) (f : Mgmt → Mgmt) : (s.modMgmt f).node = s.node := rfl
@[simp] theorem State.modMgmt_looms (s : State) (f : Mgmt → Mgmt) : (s.modMgmt f).looms = s.looms := rfl
@[simp] theorem State.modMgmt_mem (s : State) (f : Mgmt → Mgmt) : (s.modMgmt f).mem = s.mem := rfl
@[simp] theorem State.modMgmt_contexts (s : State) (f : Mgmt → Mgmt) : (s.modMgmt f).contexts = s.contexts := rfl
@[simp] theorem State.modMgmt_qbase (s : State) (f : Mgmt → Mgmt) : (s.modMgmt f).qbase = s.qbase := rfl
@[simp] theorem State.modMgmt_launches (s : State) (f : Mgmt → Mgmt) : (s.modMgmt f).launches = s.launches := rfl
@[simp] theorem State.modMgmt_dist (s : State) (f : Mgmt → Mgmt) : (s.modMgmt f).dist = s.dist := rfl
@[simp] theorem State.modMgmt_fetches (s : State) (f : Mgmt → Mgmt) : (s.modMgmt f).fetches = s.fetches := rfl
@[simp] theorem State.modMgmt_census (s : State) (f : Mgmt → Mgmt) : (s.modMgmt f).census = s.census := rfl
@[simp] theorem State.modMgmt_fabric (s : State) (f : Mgmt → Mgmt) : (s.modMgmt f).fabric = s.fabric := rfl
@[simp] theorem State.modMgmt_bankArms (s : State) (f : Mgmt → Mgmt) : (s.modMgmt f).bankArms = s.bankArms := rfl
@[simp] theorem State.modMgmt_dieCounters (s : State) (f : Mgmt → Mgmt) : (s.modMgmt f).dieCounters = s.dieCounters := rfl
@[simp] theorem State.modMgmt_invs (s : State) (f : Mgmt → Mgmt) : (s.modMgmt f).invs = s.invs := rfl
@[simp] theorem State.modMgmt_agenda (s : State) (f : Mgmt → Mgmt) : (s.modMgmt f).agenda = s.agenda := rfl
@[simp] theorem State.modMgmt_turn (s : State) (f : Mgmt → Mgmt) : (s.modMgmt f).turn = s.turn := rfl
@[simp] theorem State.modMgmt_cur (s : State) (f : Mgmt → Mgmt) : (s.modMgmt f).cur = s.cur := rfl
@[simp] theorem State.modMgmt_fresh (s : State) (f : Mgmt → Mgmt) : (s.modMgmt f).fresh = s.fresh := rfl
@[simp] theorem State.modMgmt_outbox (s : State) (f : Mgmt → Mgmt) : (s.modMgmt f).outbox = s.outbox := rfl

@[simp] theorem State.modFabric_fabric (s : State) (f : Fabric → Fabric) : (s.modFabric f).fabric = f s.fabric := rfl
@[simp] theorem State.modMgmt_mgmt (s : State) (f : Mgmt → Mgmt) : (s.modMgmt f).mgmt = f s.mgmt := rfl

/-! ## Wefts and ports -/

@[simp] theorem State.weft?_modWeft (s : State) (l k : Nat) (f : Weft → Weft) :
    (s.modWeft l k f).weft? l k = (s.weft? l k).map f := by
  unfold State.modWeft
  split <;> rename_i h <;> simp [h]

@[simp] theorem State.weft?_modWeft_ne (s : State) (l : Nat) {k j : Nat} (f : Weft → Weft) (h : k ≠ j) :
    (s.modWeft l k f).weft? l j = s.weft? l j := by
  unfold State.modWeft
  split <;> simp [h]

@[simp] theorem State.port_setPort (s : State) (p : Nat) (x : FabPort) : (s.setPort p x).port p = x := by
  simp [State.port, State.setPort, SMap.getD]

@[simp] theorem State.port_setPort_ne (s : State) {p q : Nat} (x : FabPort) (h : p ≠ q) :
    (s.setPort p x).port q = s.port q := by
  simp [State.port, State.setPort, SMap.getD, h]

/-- A port that no waiting flit of a weft names refuses only engines' flits when it closes. -/
theorem State.refuseSenders_none (s : State) (l k ctx : Nat) (h : (s.refuseResults l k ctx).sendersTo l k ctx = []) :
    s.refuseSenders l k ctx = s.refuseResults l k ctx := by
  simp [State.refuseSenders, h]

/-! ## A quadrant's cycle (R44) -/

/-- Wefts that change nothing are passed over. -/
theorem State.issueFirst_skip (run : Instr → State → Result) (s : State) (l : Nat) (before ks : List Nat)
    (h : ∀ j ∈ before, s.attempt run l j = (.next s, false)) : s.issueFirst run l (before ++ ks) = s.issueFirst run l ks := by
  induction before with
  | nil => rfl
  | cons j t ih =>
    rw [List.cons_append, State.issueFirst, h j (List.mem_cons_self ..)]
    exact ih fun i hi => h i (List.mem_cons_of_mem _ hi)

/-- The first weft that issues ends the scan. -/
theorem State.issueFirst_issues (run : Instr → State → Result) {s t : State} {l k : Nat} (ks : List Nat)
    (h : s.attempt run l k = (.next t, true)) : s.issueFirst run l (k :: ks) = .next (s.yieldedNow run t l k) := by
  rw [State.issueFirst, h]

/-- A weft whose turn is not barred, that takes no trap and moves no entry, attempts its entry's instruction; the loom's wefts
here wait for no blocks. -/
theorem State.attempt_entry (run : Instr → State → Result) {s t : State} {l k : Nat} {w : Weft} {e : Entry}
    (hw : s.weft? l k = some w) (hb : s.turnBarred l w = false) (ht : s.takeDue l k w = none) (hm : w.movesDue = false)
    (he : w.issueEntry = some e) (hr : s.issueAt run l k w e = .next t)
    (hg : (s.loom l).growers = []) :
    s.attempt run l k = (.next t, issuedBetween s t l k) := by
  simp [State.attempt, hw, hb, ht, hm, he, hr, hg]

/-- A word that decodes to an instruction issues it. -/
theorem State.issueAt_decoded (run : Instr → State → Result) {s f t : State} {l k : Nat} {w : Weft} {e : Entry} {leaf : Leaf}
    {pa : Nat} {word : DWord} {i : Instr} {legacy : Bool} (hp : s.fetchPage l w.ctx e.pc = .ok leaf pa)
    (hu : s.fillUnderWay l w.ctx (e.pc.toNat / lineBytes) = false)
    (hf : s.fetchWord l w.ctx e.pc leaf pa = (f, word)) (hd : decodeWith (f.entryFor w.ctx word) word = .ok i legacy)
    (hr : run i { f with cur := some ({ loom := l, slot := k, pc := e.pc, mask := e.mask, prio := e.prio, word := word,
                                        canon := (f.entryFor w.ctx word).canon, legacy := legacy } : Issue) } = .next t) :
    s.issueAt run l k w e = .next { t with cur := none } := by
  simp [State.issueAt, hp, hu, hf, State.issueWord, hd, hr]

end Sys2Proof.Machine
end

