-- ==== Sys2Proof/Laws/Encode.lean ====
section
/-! SUPPORT. The fields of an encoded word read back (R95), and the codes of the field tables (R97, R99). -/

namespace Sys2Proof

/-! ## One lemma for each field of each format -/

@[simp] theorem fOp_encR (op : BitVec 10) (h : Guard) (d a b c : Reg) (slot mod : BitVec 4) :
    fOp (encR op h d a b c slot mod) = op := by
  rw [fOp, encR, BitVec.extractLsb'_append_eq_of_add_le (by decide)]
  exact BitVec.extractLsb'_eq_self

@[simp] theorem fG_encR (op : BitVec 10) (h : Guard) (d a b c : Reg) (slot mod : BitVec 4) :
    fG (encR op h d a b c slot mod) = h.g := by
  rw [fG, encR, BitVec.extractLsb'_append_eq_of_le (by decide), BitVec.extractLsb'_append_eq_of_add_le (by decide)]
  exact BitVec.extractLsb'_eq_self

@[simp] theorem fD_encR (op : BitVec 10) (h : Guard) (d a b c : Reg) (slot mod : BitVec 4) :
    fD (encR op h d a b c slot mod) = d := by
  rw [fD, encR, BitVec.extractLsb'_append_eq_of_le (by decide), BitVec.extractLsb'_append_eq_of_le (by decide),
    BitVec.extractLsb'_append_eq_of_le (by decide), BitVec.extractLsb'_append_eq_of_le (by decide),
    BitVec.extractLsb'_append_eq_of_add_le (by decide)]
  exact BitVec.extractLsb'_eq_self

@[simp] theorem fA_encR (op : BitVec 10) (h : Guard) (d a b c : Reg) (slot mod : BitVec 4) :
    fA (encR op h d a b c slot mod) = a := by
  rw [fA, encR, BitVec.extractLsb'_append_eq_of_le (by decide), BitVec.extractLsb'_append_eq_of_le (by decide),
    BitVec.extractLsb'_append_eq_of_le (by decide), BitVec.extractLsb'_append_eq_of_le (by decide),
    BitVec.extractLsb'_append_eq_of_le (by decide), BitVec.extractLsb'_append_eq_of_add_le (by decide)]
  exact BitVec.extractLsb'_eq_self

@[simp] theorem fB_encR (op : BitVec 10) (h : Guard) (d a b c : Reg) (slot mod : BitVec 4) :
    fB (encR op h d a b c slot mod) = b := by
  rw [fB, encR, BitVec.extractLsb'_append_eq_of_le (by decide), BitVec.extractLsb'_append_eq_of_le (by decide),
    BitVec.extractLsb'_append_eq_of_le (by decide), BitVec.extractLsb'_append_eq_of_le (by decide),
    BitVec.extractLsb'_append_eq_of_le (by decide), BitVec.extractLsb'_append_eq_of_le (by decide),
    BitVec.extractLsb'_append_eq_of_add_le (by decide)]
  exact BitVec.extractLsb'_eq_self

@[simp] theorem fC_encR (op : BitVec 10) (h : Guard) (d a b c : Reg) (slot mod : BitVec 4) :
    fC (encR op h d a b c slot mod) = c := by
  rw [fC, encR, BitVec.extractLsb'_append_eq_of_le (by decide), BitVec.extractLsb'_append_eq_of_le (by decide),
    BitVec.extractLsb'_append_eq_of_le (by decide), BitVec.extractLsb'_append_eq_of_le (by decide),
    BitVec.extractLsb'_append_eq_of_le (by decide), BitVec.extractLsb'_append_eq_of_le (by decide),
    BitVec.extractLsb'_append_eq_of_le (by decide), BitVec.extractLsb'_append_eq_of_add_le (by decide)]
  exact BitVec.extractLsb'_eq_self

@[simp] theorem fSlot_encR (op : BitVec 10) (h : Guard) (d a b c : Reg) (slot mod : BitVec 4) :
    fSlot (encR op h d a b c slot mod) = slot := by
  rw [fSlot, encR, BitVec.extractLsb'_append_eq_of_le (by decide), BitVec.extractLsb'_append_eq_of_le (by decide),
    BitVec.extractLsb'_append_eq_of_le (by decide), BitVec.extractLsb'_append_eq_of_le (by decide),
    BitVec.extractLsb'_append_eq_of_le (by decide), BitVec.extractLsb'_append_eq_of_le (by decide),
    BitVec.extractLsb'_append_eq_of_le (by decide), BitVec.extractLsb'_append_eq_of_le (by decide),
    BitVec.extractLsb'_append_eq_of_add_le (by decide)]
  exact BitVec.extractLsb'_eq_self

@[simp] theorem fMod_encR (op : BitVec 10) (h : Guard) (d a b c : Reg) (slot mod : BitVec 4) :
    fMod (encR op h d a b c slot mod) = mod := by
  rw [fMod, encR, BitVec.extractLsb'_append_eq_of_le (by decide), BitVec.extractLsb'_append_eq_of_le (by decide),
    BitVec.extractLsb'_append_eq_of_le (by decide), BitVec.extractLsb'_append_eq_of_le (by decide),
    BitVec.extractLsb'_append_eq_of_le (by decide), BitVec.extractLsb'_append_eq_of_le (by decide),
    BitVec.extractLsb'_append_eq_of_le (by decide), BitVec.extractLsb'_append_eq_of_le (by decide),
    BitVec.extractLsb'_append_eq_of_le (by decide), BitVec.extractLsb'_append_eq_of_add_le (by decide)]
  exact BitVec.extractLsb'_eq_self

@[simp] theorem fOp_encI (op : BitVec 10) (h : Guard) (d a : Reg) (k : BitVec 28) :
    fOp (encI op h d a k) = op := by
  rw [fOp, encI, BitVec.extractLsb'_append_eq_of_add_le (by decide)]
  exact BitVec.extractLsb'_eq_self

@[simp] theorem fG_encI (op : BitVec 10) (h : Guard) (d a : Reg) (k : BitVec 28) :
    fG (encI op h d a k) = h.g := by
  rw [fG, encI, BitVec.extractLsb'_append_eq_of_le (by decide), BitVec.extractLsb'_append_eq_of_add_le (by decide)]
  exact BitVec.extractLsb'_eq_self

@[simp] theorem fD_encI (op : BitVec 10) (h : Guard) (d a : Reg) (k : BitVec 28) :
    fD (encI op h d a k) = d := by
  rw [fD, encI, BitVec.extractLsb'_append_eq_of_le (by decide), BitVec.extractLsb'_append_eq_of_le (by decide),
    BitVec.extractLsb'_append_eq_of_le (by decide), BitVec.extractLsb'_append_eq_of_le (by decide),
    BitVec.extractLsb'_append_eq_of_add_le (by decide)]
  exact BitVec.extractLsb'_eq_self

@[simp] theorem fA_encI (op : BitVec 10) (h : Guard) (d a : Reg) (k : BitVec 28) :
    fA (encI op h d a k) = a := by
  rw [fA, encI, BitVec.extractLsb'_append_eq_of_le (by decide), BitVec.extractLsb'_append_eq_of_le (by decide),
    BitVec.extractLsb'_append_eq_of_le (by decide), BitVec.extractLsb'_append_eq_of_le (by decide),
    BitVec.extractLsb'_append_eq_of_le (by decide), BitVec.extractLsb'_append_eq_of_add_le (by decide)]
  exact BitVec.extractLsb'_eq_self

@[simp] theorem fImm28_encI (op : BitVec 10) (h : Guard) (d a : Reg) (k : BitVec 28) :
    fImm28 (encI op h d a k) = k := by
  rw [fImm28, encI, BitVec.extractLsb'_append_eq_of_le (by decide), BitVec.extractLsb'_append_eq_of_le (by decide),
    BitVec.extractLsb'_append_eq_of_le (by decide), BitVec.extractLsb'_append_eq_of_le (by decide),
    BitVec.extractLsb'_append_eq_of_le (by decide), BitVec.extractLsb'_append_eq_of_le (by decide)]
  exact BitVec.extractLsb'_eq_self

@[simp] theorem fOp_encM (op : BitVec 10) (h : Guard) (d a b : Reg) (imm : BitVec 16) (code : BitVec 4) :
    fOp (encM op h d a b imm code) = op := by
  rw [fOp, encM, BitVec.extractLsb'_append_eq_of_add_le (by decide)]
  exact BitVec.extractLsb'_eq_self

@[simp] theorem fG_encM (op : BitVec 10) (h : Guard) (d a b : Reg) (imm : BitVec 16) (code : BitVec 4) :
    fG (encM op h d a b imm code) = h.g := by
  rw [fG, encM, BitVec.extractLsb'_append_eq_of_le (by decide), BitVec.extractLsb'_append_eq_of_add_le (by decide)]
  exact BitVec.extractLsb'_eq_self

@[simp] theorem fD_encM (op : BitVec 10) (h : Guard) (d a b : Reg) (imm : BitVec 16) (code : BitVec 4) :
    fD (encM op h d a b imm code) = d := by
  rw [fD, encM, BitVec.extractLsb'_append_eq_of_le (by decide), BitVec.extractLsb'_append_eq_of_le (by decide),
    BitVec.extractLsb'_append_eq_of_le (by decide), BitVec.extractLsb'_append_eq_of_le (by decide),
    BitVec.extractLsb'_append_eq_of_add_le (by decide)]
  exact BitVec.extractLsb'_eq_self

@[simp] theorem fA_encM (op : BitVec 10) (h : Guard) (d a b : Reg) (imm : BitVec 16) (code : BitVec 4) :
    fA (encM op h d a b imm code) = a := by
  rw [fA, encM, BitVec.extractLsb'_append_eq_of_le (by decide), BitVec.extractLsb'_append_eq_of_le (by decide),
    BitVec.extractLsb'_append_eq_of_le (by decide), BitVec.extractLsb'_append_eq_of_le (by decide),
    BitVec.extractLsb'_append_eq_of_le (by decide), BitVec.extractLsb'_append_eq_of_add_le (by decide)]
  exact BitVec.extractLsb'_eq_self

@[simp] theorem fB_encM (op : BitVec 10) (h : Guard) (d a b : Reg) (imm : BitVec 16) (code : BitVec 4) :
    fB (encM op h d a b imm code) = b := by
  rw [fB, encM, BitVec.extractLsb'_append_eq_of_le (by decide), BitVec.extractLsb'_append_eq_of_le (by decide),
    BitVec.extractLsb'_append_eq_of_le (by decide), BitVec.extractLsb'_append_eq_of_le (by decide),
    BitVec.extractLsb'_append_eq_of_le (by decide), BitVec.extractLsb'_append_eq_of_le (by decide),
    BitVec.extractLsb'_append_eq_of_add_le (by decide)]
  exact BitVec.extractLsb'_eq_self

@[simp] theorem fImm16_encM (op : BitVec 10) (h : Guard) (d a b : Reg) (imm : BitVec 16) (code : BitVec 4) :
    fImm16 (encM op h d a b imm code) = imm := by
  rw [fImm16, encM, BitVec.extractLsb'_append_eq_of_le (by decide), BitVec.extractLsb'_append_eq_of_le (by decide),
    BitVec.extractLsb'_append_eq_of_le (by decide), BitVec.extractLsb'_append_eq_of_le (by decide),
    BitVec.extractLsb'_append_eq_of_le (by decide), BitVec.extractLsb'_append_eq_of_le (by decide),
    BitVec.extractLsb'_append_eq_of_le (by decide), BitVec.extractLsb'_append_eq_of_add_le (by decide)]
  exact BitVec.extractLsb'_eq_self

@[simp] theorem fCode_encM (op : BitVec 10) (h : Guard) (d a b : Reg) (imm : BitVec 16) (code : BitVec 4) :
    fCode (encM op h d a b imm code) = code := by
  rw [fCode, encM, BitVec.extractLsb'_append_eq_of_le (by decide), BitVec.extractLsb'_append_eq_of_le (by decide),
    BitVec.extractLsb'_append_eq_of_le (by decide), BitVec.extractLsb'_append_eq_of_le (by decide),
    BitVec.extractLsb'_append_eq_of_le (by decide), BitVec.extractLsb'_append_eq_of_le (by decide),
    BitVec.extractLsb'_append_eq_of_le (by decide), BitVec.extractLsb'_append_eq_of_le (by decide)]
  exact BitVec.extractLsb'_eq_self

@[simp] theorem fOp_encB (op : BitVec 10) (h : Guard) (d a : Reg) (p : BitVec 12) (off : BitVec 16) :
    fOp (encB op h d a p off) = op := by
  rw [fOp, encB, BitVec.extractLsb'_append_eq_of_add_le (by decide)]
  exact BitVec.extractLsb'_eq_self

@[simp] theorem fG_encB (op : BitVec 10) (h : Guard) (d a : Reg) (p : BitVec 12) (off : BitVec 16) :
    fG (encB op h d a p off) = h.g := by
  rw [fG, encB, BitVec.extractLsb'_append_eq_of_le (by decide), BitVec.extractLsb'_append_eq_of_add_le (by decide)]
  exact BitVec.extractLsb'_eq_self

@[simp] theorem fD_encB (op : BitVec 10) (h : Guard) (d a : Reg) (p : BitVec 12) (off : BitVec 16) :
    fD (encB op h d a p off) = d := by
  rw [fD, encB, BitVec.extractLsb'_append_eq_of_le (by decide), BitVec.extractLsb'_append_eq_of_le (by decide),
    BitVec.extractLsb'_append_eq_of_le (by decide), BitVec.extractLsb'_append_eq_of_le (by decide),
    BitVec.extractLsb'_append_eq_of_add_le (by decide)]
  exact BitVec.extractLsb'_eq_self

@[simp] theorem fA_encB (op : BitVec 10) (h : Guard) (d a : Reg) (p : BitVec 12) (off : BitVec 16) :
    fA (encB op h d a p off) = a := by
  rw [fA, encB, BitVec.extractLsb'_append_eq_of_le (by decide), BitVec.extractLsb'_append_eq_of_le (by decide),
    BitVec.extractLsb'_append_eq_of_le (by decide), BitVec.extractLsb'_append_eq_of_le (by decide),
    BitVec.extractLsb'_append_eq_of_le (by decide), BitVec.extractLsb'_append_eq_of_add_le (by decide)]
  exact BitVec.extractLsb'_eq_self

@[simp] theorem fPrio_encB (op : BitVec 10) (h : Guard) (d a : Reg) (p : BitVec 12) (off : BitVec 16) :
    fPrio (encB op h d a p off) = p := by
  rw [fPrio, encB, BitVec.extractLsb'_append_eq_of_le (by decide), BitVec.extractLsb'_append_eq_of_le (by decide),
    BitVec.extractLsb'_append_eq_of_le (by decide), BitVec.extractLsb'_append_eq_of_le (by decide),
    BitVec.extractLsb'_append_eq_of_le (by decide), BitVec.extractLsb'_append_eq_of_le (by decide),
    BitVec.extractLsb'_append_eq_of_add_le (by decide)]
  exact BitVec.extractLsb'_eq_self

@[simp] theorem fOff_encB (op : BitVec 10) (h : Guard) (d a : Reg) (p : BitVec 12) (off : BitVec 16) :
    fOff (encB op h d a p off) = off := by
  rw [fOff, encB, BitVec.extractLsb'_append_eq_of_le (by decide), BitVec.extractLsb'_append_eq_of_le (by decide),
    BitVec.extractLsb'_append_eq_of_le (by decide), BitVec.extractLsb'_append_eq_of_le (by decide),
    BitVec.extractLsb'_append_eq_of_le (by decide), BitVec.extractLsb'_append_eq_of_le (by decide),
    BitVec.extractLsb'_append_eq_of_le (by decide)]
  exact BitVec.extractLsb'_eq_self

/-! ## The guard bit, and the parts of mod -/

@[simp] theorem fGn_encR (op : BitVec 10) (h : Guard) (d a b c : Reg) (slot mod : BitVec 4) :
    fGn (encR op h d a b c slot mod) = h.gn := by
  simp only [fGn, encR, BitVec.getLsbD_append]
  simp

@[simp] theorem fGn_encI (op : BitVec 10) (h : Guard) (d a : Reg) (k : BitVec 28) : fGn (encI op h d a k) = h.gn := by
  simp only [fGn, encI, BitVec.getLsbD_append]
  simp

@[simp] theorem fGn_encM (op : BitVec 10) (h : Guard) (d a b : Reg) (imm : BitVec 16) (code : BitVec 4) :
    fGn (encM op h d a b imm code) = h.gn := by
  simp only [fGn, encM, BitVec.getLsbD_append]
  simp

@[simp] theorem fGn_encB (op : BitVec 10) (h : Guard) (d a : Reg) (p : BitVec 12) (off : BitVec 16) :
    fGn (encB op h d a p off) = h.gn := by
  simp only [fGn, encB, BitVec.getLsbD_append]
  simp

theorem fMod3_eq (w : DWord) : fMod3 w = (fMod w).toNat % 8 := by
  have : (w.extractLsb' 56 3) = (fMod w).setWidth 3 := by
    ext j hj
    simp [fMod, BitVec.getElem_extractLsb', show j < 4 by omega]
  rw [fMod3, this, BitVec.toNat_setWidth]

theorem mod2_eq (w : DWord) : (w.extractLsb' 56 2).toNat = (fMod w).toNat % 4 := by
  have : (w.extractLsb' 56 2) = (fMod w).setWidth 2 := by
    ext j hj
    simp [fMod, BitVec.getElem_extractLsb', show j < 4 by omega]
  rw [this, BitVec.toNat_setWidth]

theorem fMod59_eq (w : DWord) : fMod59 w = (fMod w).getLsbD 3 := by
  simp [fMod59, fMod]

theorem fMod56_eq (w : DWord) : fMod56 w = (fMod w).getLsbD 0 := by
  simp [fMod56, fMod]

theorem fModSlot_eq (w : DWord) : fModSlot w = fMod w ++ fSlot w := by
  rw [fModSlot, fMod, fSlot]
  apply BitVec.eq_of_getLsbD_eq
  intro j hj
  rw [BitVec.getLsbD_append]
  by_cases h : j < 4
  · simp [h, hj]
  · have : j - 4 < 4 := by omega
    simp [h, hj, this, show 56 + (j - 4) = 52 + j by omega]

@[simp] theorem hi4_lo4 (t : BitVec 8) : hi4 t ++ lo4 t = t := by
  ext j hj
  simp only [hi4, lo4, BitVec.getElem_append, BitVec.getElem_extractLsb']
  by_cases h : j < 4
  · simp [h, BitVec.getLsbD_eq_getElem hj]
  · simp [h, show 4 + (j - 4) = j by omega, BitVec.getLsbD_eq_getElem hj]

/-! ## Codes -/

@[simp] theorem satOf_m4 (m : Sat) : satOf (m4 m.code).toNat = some m := by
  cases m <;> rfl
@[simp] theorem shflOf_m4 (m : ShflMode) : shflOf (m4 m.code).toNat = some m := by
  cases m <;> rfl
@[simp] theorem voteOf_m4 (m : VoteMode) : voteOf (m4 m.code).toNat = some m := by
  cases m <;> rfl
@[simp] theorem tileOf_m4 (m : TileSide) : tileOf (m4 m.code).toNat = some m := by
  cases m <;> rfl
@[simp] theorem atomOpOf_m4 (m : AtomOp) : atomOpOf (m4 m.code).toNat = some m := by
  cases m <;> rfl
@[simp] theorem xredOf_m4 (m : XredOp) : xredOf (m4 m.code).toNat = some m := by
  cases m <;> rfl
@[simp] theorem bankOpOf_m4 (m : BankOp) : bankOpOf (m4 m.code).toNat = some m := by
  cases m <;> rfl
@[simp] theorem rmOf_mod8 (m : Rm) : rmOf ((m4 m.code).toNat % 8) = some m := by
  cases m <;> rfl
@[simp] theorem scopeOf_mod8 (m : Scope) : scopeOf ((m4 m.code).toNat % 8) = some m := by
  cases m <;> rfl
@[simp] theorem hredOf_mod8 (m : HredOp) : hredOf ((m4 m.code).toNat % 8) = some m := by
  cases m <;> rfl
@[simp] theorem fcondOf_mod8 (m : FCond) : fcondOf ((m4 m.code).toNat % 8) = m := by
  cases m <;> rfl
@[simp] theorem hvoteOf_mod4 (m : HvoteMode) : hvoteOf ((m4 m.code).toNat % 4) = some m := by
  cases m <;> rfl
@[simp] theorem tlbModeOf_mod4 (m : TlbMode) : tlbModeOf ((m4 m.code).toNat % 4) = some m := by
  cases m <;> rfl
@[simp] theorem condOf_s59 (m : Cond) (s : Bool) : condOf ((m4 (m.code + s59 s)).toNat % 8) = some m := by
  cases m <;> cases s <;> rfl
@[simp] theorem cond_s59_bit (m : Cond) (s : Bool) : (m4 (m.code + s59 s))[3] = s := by
  cases m <;> cases s <;> rfl
@[simp] theorem rmOf_s59 (m : Rm) (s : Bool) : rmOf ((m4 (m.code + s59 s)).toNat % 8) = some m := by
  cases m <;> cases s <;> rfl
@[simp] theorem rm_s59_bit (m : Rm) (s : Bool) : (m4 (m.code + s59 s))[3] = s := by
  cases m <;> cases s <;> rfl
@[simp] theorem s59_bit (s : Bool) : (m4 (s59 s))[3] = s := by
  cases s <;> rfl
@[simp] theorem flagOf_b1 (s : Bool) : flagOf (b1 s).toNat = some s := by
  cases s <;> rfl
@[simp] theorem b1_bit (s : Bool) : (b1 s)[0] = s := by
  cases s <;> rfl
@[simp] theorem sysRegOf_code (r : SysReg) : sysRegOf (r.code % 256) = some r := by
  cases r <;> rfl
@[simp] theorem classOf_ring (k : OcClass) : classOf ((m4 (8 + k.code)).toNat % 8) = some k := by
  cases k <;> rfl
@[simp] theorem ring_bit (k : OcClass) : (m4 (8 + k.code))[3] = true := by
  cases k <;> rfl
@[simp] theorem widthOf_acq (w : Width) (b : Bool) : widthOf ((wo w.code (acqCode b)).toNat % 4) = w := by
  cases w <;> cases b <;> rfl
@[simp] theorem widthOf_rel (w : Width) (b : Bool) : widthOf ((wo w.code (relCode b)).toNat % 4) = w := by
  cases w <;> cases b <;> rfl
@[simp] theorem orderOf_acq (w : Width) (b : Bool) : orderOf ((wo w.code (acqCode b)).toNat / 4) = if b then .acq else .plain := by
  cases w <;> cases b <;> rfl
@[simp] theorem orderOf_rel (w : Width) (b : Bool) : orderOf ((wo w.code (relCode b)).toNat / 4) = if b then .rel else .plain := by
  cases w <;> cases b <;> rfl
@[simp] theorem widthOf_atom (x : Bool) (o : Order) : widthOf ((wo (atomWidth x) o.code).toNat % 4) = if x then .b64 else .b32 := by
  cases x <;> cases o <;> rfl
@[simp] theorem orderOf_atom (x : Bool) (o : Order) : orderOf ((wo (atomWidth x) o.code).toNat / 4) = o := by
  cases x <;> cases o <;> rfl
@[simp] theorem orderOf_fadd (o : Order) : orderOf ((wo 0 o.code).toNat / 4) = o := by
  cases o <;> rfl
@[simp] theorem ldAcq_encM (op : BitVec 10) (h : Guard) (d a b : Reg) (imm : BitVec 16) (w : Width) (acq : Bool) : 
    ldAcq (encM op h d a b imm (wo w.code (acqCode acq))) = some acq := by
  rw [ldAcq, fCode_encM, orderOf_acq]
  cases acq <;> rfl
@[simp] theorem stRel_encM (op : BitVec 10) (h : Guard) (d a b : Reg) (imm : BitVec 16) (w : Width) (rel : Bool) : 
    stRel (encM op h d a b imm (wo w.code (relCode rel))) = some rel := by
  rw [stRel, fCode_encM, orderOf_rel]
  cases rel <;> rfl
@[simp] theorem atomW64_encM (op : BitVec 10) (h : Guard) (d a b : Reg) (imm : BitVec 16) (x : Bool) (o : Order) : 
    atomW64 (encM op h d a b imm (wo (atomWidth x) o.code)) = some x := by
  rw [atomW64, fCode_encM, widthOf_atom]
  cases x <;> rfl
@[simp] theorem fSlotM_encM (op : BitVec 10) (h : Guard) (d a b : Reg) (imm : BitVec 16) (code : BitVec 4) : fSlotM (encM op h d a b imm code) = code := by
  exact fCode_encM ..
theorem firstFlaw_none {l : List (Bool × Reject)} (h : firstFlaw l = none) : ∀ p ∈ l, p.1 = true := by
  induction l with
  | nil => exact fun _ hp => absurd hp List.not_mem_nil
  | cons x t ih =>
    obtain ⟨b, r⟩ := x
    cases b with
    | false => cases h
    | true => exact List.forall_mem_cons.2 ⟨rfl, ih h⟩

theorem decodeWith_execute {c : BitVec 10} {w : DWord} {i : Instr} {l : Bool} (hp : parse c.toNat w = some i)
    (hf : i.flaw = none) : decodeWith ⟨c, l, .execute⟩ w = .ok i l := by
  unfold decodeWith
  dsimp only
  rw [hp]
  dsimp only
  rw [hf]

/-- A word decodes to the instruction that its assigned opcode and its fields give (R105, R106). -/
theorem decode_of {w : DWord} {op : Nat} {i : Instr} (ho : fOp w = BitVec.ofNat 10 op) (hs : op < 1024)
    (ha : assigned op = true) (hp : parse op w = some i) (hf : i.flaw = none) : decode w = .ok i := by
  have h2 : (BitVec.ofNat 10 op).toNat = op := by rw [BitVec.toNat_ofNat]; omega
  have h3 : DecEntry.default op = ⟨BitVec.ofNat 10 op, false, .execute⟩ := by
    unfold DecEntry.default
    rw [if_pos ha]
  unfold decode
  rw [ho, h2, h3, decodeWith_execute (by rw [h2]; exact hp) hf]

end Sys2Proof
end

