-- ==== Sys2Proof/Laws/Issue.lean ====
section
/-! SUPPORT. The shared issue: what it comes to when nothing holds or stops the instruction, and what completion leaves. -/

namespace Sys2Proof.Machine

/-! ## Nothing holds or stops an instruction that is issuing -/

/-- A register that an instruction names is none of its weft's port. -/
theorem Issuing.clearOf {s : State} {i : Instr} {c : Issue} {w : Weft} (h : Issuing s i c w) {p : Port}
    (hp : w.port = some p) {u : RegUse} (hu : u ∈ allUses i) {r : Reg} (hr : r ∈ u.regs) : r ≠ p.s ∧ r ≠ p.r := by
  have := h.noPort
  unfold portClear at this
  rw [hp] at this
  have := List.all_eq_true.1 (List.all_eq_true.1 this u hu) r hr
  simpa using this

theorem operandUses_sub (i : Instr) {u : RegUse} (h : u ∈ operandUses i) : u ∈ allUses i := by
  unfold allUses
  exact List.mem_append_right _ h

theorem RegUse.self_mem (u : RegUse) : u.r ∈ u.regs := by
  unfold RegUse.regs
  split <;> simp

/-- A progress register is a register operand. -/
theorem progressReg_use {i : Instr} {d : Reg} (h : progressReg i = some d) : ∃ u ∈ operandUses i, d ∈ u.regs := by
  refine ⟨rb d, ?_, by simp [rb, RegUse.regs]⟩
  unfold progressReg at h
  split at h <;> first | (cases h; exact List.mem_cons_self) | cases h

theorem Issuing.readsPort {s : State} {i : Instr} {c : Issue} {w : Weft} (h : Issuing s i c w) :
    Machine.readsPort w i = false := by
  unfold Machine.readsPort
  cases hp : w.port with
  | none => rfl
  | some p =>
    simp only [List.any_eq_false]
    intro u hu
    have := (h.clearOf hp hu u.self_mem).2
    simp [this]

theorem Issuing.sends {s : State} {i : Instr} {c : Issue} {w : Weft} (h : Issuing s i c w) (act : Word) :
    sendsMessage w i act = false := by
  unfold sendsMessage
  cases hp : w.port with
  | none => simp
  | some p =>
    have : ((operandUses i).any fun u => u.dst && !u.pair && u.r == p.s) = false := by
      simp only [List.any_eq_false]
      intro u hu
      have := (h.clearOf hp (operandUses_sub i hu) u.self_mem).1
      simp [this]
    simp [this]

theorem Issuing.portLegal {s : State} {i : Instr} {c : Issue} {w : Weft} (h : Issuing s i c w) :
    portIllegal w i = false := by
  unfold portIllegal
  cases hp : w.port with
  | none => rfl
  | some p =>
    have h1 : ((allUses i).any fun u => u.pair && u.regs.any fun r => r == p.s || r == p.r) = false := by
      simp only [List.any_eq_false]
      intro u hu
      have : (u.regs.any fun r => r == p.s || r == p.r) = false := by
        simp only [List.any_eq_false]
        intro r hr
        have := h.clearOf hp hu hr
        simp [this.1, this.2]
      simp [this]
    cases hd : progressReg i with
    | none => simp only [h1, Bool.or_self]
    | some d =>
      obtain ⟨u, hu, hm⟩ := progressReg_use hd
      have := h.clearOf hp (operandUses_sub i hu) hm
      simp [h1, this.1, this.2]

theorem lowestOut_none {w : Weft} {i : Instr} (h : ∀ u ∈ allUses i, w.outOfRange u.r = false) : lowestOut w i = none := by
  have key : ∀ (us : List Reg), (∀ r ∈ us, w.outOfRange r = false) →
      us.foldl (fun (acc : Option Reg) r =>
        if w.outOfRange r then (match acc with | none => some r | some q => some (if r < q then r else q)) else acc) none
        = none := by
    intro us
    induction us with
    | nil => intro _; rfl
    | cons r t ih =>
      intro hu
      rw [List.foldl_cons, hu r (by simp)]
      exact ih fun q hq => hu q (by simp [hq])
  unfold lowestOut
  apply key
  intro r hr
  obtain ⟨u, hu, rfl⟩ := List.mem_map.1 hr
  exact h u hu

theorem lanesOf_lt {m : Word} {j : Nat} (h : j ∈ lanesOf m) : j < 32 := by
  simp only [lanesOf, List.mem_filter, List.mem_range] at h
  exact h.1

theorem lowestLane_lt (m : Word) : lowestLane m < 32 := by
  unfold lowestLane
  cases h : (List.range 32).find? fun i => m.getLsbD i with
  | none => decide
  | some j => exact List.mem_range.1 (List.mem_of_find?_eq_some h)

/-- A word of a register that the instruction reads. -/
def SourceWord (i : Instr) (p : Reg × Nat) : Prop := p.2 < 32 ∧ ∃ u ∈ allUses i, u.src = true ∧ p.1 ∈ u.regs

theorem SourceWord.operand {i : Instr} {u : RegUse} (hu : u ∈ operandUses i) (hs : u.src = true) {r : Reg} (hr : r ∈ u.regs)
    {j : Nat} (hj : j < 32) : SourceWord i (r, j) := ⟨hj, u, operandUses_sub i hu, hs, hr⟩

theorem SourceWord.guard {i : Instr} {m : Word} {p : Reg × Nat} (hp : p ∈ guardWords i m) : SourceWord i p := by
  unfold guardWords at hp
  split at hp
  · cases hp
  · rename_i hg
    obtain ⟨j, hj, rfl⟩ := List.mem_map.1 hp
    refine ⟨lanesOf_lt hj, rs (guardOf i).g, ?_, rfl, by simp [RegUse.regs, rs]⟩
    show _ ∈ (if _ then _ else _) ++ _
    rw [if_neg hg]
    exact List.mem_append_left _ List.mem_cons_self

/-- The words that a lane reads are words of the instruction's sources, where it sends no flit. -/
theorem SourceWord.read {w : Weft} {i : Instr} {act : Word} {lane : Nat} (hl : lane < 32)
    (hs : sendsMessage w i act = false) {p : Reg × Nat} (hp : p ∈ readWords w i act lane) : SourceWord i p := by
  have hh : headerReg w i act = [] := by simp [headerReg, hs]
  have low := lowestLane_lt act
  have hx : ∀ y, lane ^^^ (y % 32) < 32 := fun y =>
    Nat.xor_lt_two_pow (n := 5) hl (Nat.mod_lt _ (by decide))
  have hm : ∀ y, y % 32 < 32 := fun y => Nat.mod_lt _ (by decide)
  unfold readWords at hp
  rw [hh] at hp
  simp only [List.map_nil, ite_self, List.append_nil] at hp
  split at hp
  · rename_i h d a b m
    simp only [List.mem_cons, List.not_mem_nil, or_false] at hp
    rcases hp with rfl | rfl
    · exact SourceWord.operand (u := rs b) (show _ ∈ [rd d, rs a, rs b] by simp) rfl List.mem_cons_self hl
    · refine SourceWord.operand (u := rs a) (show _ ∈ [rd d, rs a, rs b] by simp) rfl List.mem_cons_self ?_
      cases m
      · exact hm _
      · show (if _ then _ else _) < 32
        split
        · exact Nat.lt_of_le_of_lt (Nat.sub_le ..) hl
        · exact hl
      · show (if _ then _ else _) < 32
        split
        · rename_i hk; exact Nat.lt_succ_of_le hk
        · exact hl
      · exact hx _
  · rename_i h d a b
    simp only [List.mem_cons, List.not_mem_nil, or_false] at hp
    rcases hp with rfl | rfl
    · exact SourceWord.operand (u := rs b) (show _ ∈ [rd d, rs a, rs b] by simp) rfl List.mem_cons_self low
    · exact SourceWord.operand (u := rs a) (show _ ∈ [rd d, rs a, rs b] by simp) rfl List.mem_cons_self (hm _)
  · rename_i h d a
    obtain ⟨j, hj, rfl⟩ := List.mem_map.1 hp
    exact SourceWord.operand (u := rs a) (show _ ∈ [rd d, rs a] by simp) rfl List.mem_cons_self (lanesOf_lt hj)
  · rename_i h d a m
    obtain ⟨j, hj, rfl⟩ := List.mem_map.1 hp
    exact SourceWord.operand (u := rs a) (show _ ∈ [rd d, rs a] by simp) rfl List.mem_cons_self (lanesOf_lt hj)
  · rename_i h d a
    obtain ⟨j, hj, rfl⟩ := List.mem_map.1 hp
    exact SourceWord.operand (u := rs a) (show _ ∈ [rd d, rs a] by simp) rfl List.mem_cons_self
      (lanesOf_lt (List.mem_filter.1 hj).1)
  · obtain ⟨u, hu, hr⟩ := List.mem_flatMap.1 hp
    split at hr
    · cases hr
    · obtain ⟨r, hm, rfl⟩ := List.mem_map.1 hr
      exact SourceWord.operand (List.mem_filter.1 hu).1 (List.mem_filter.1 hu).2 hm hl

theorem SourceWord.idle {i : Instr} {mask act : Word} {p : Reg × Nat} (hp : p ∈ idleWords i mask act) : SourceWord i p := by
  unfold idleWords at hp
  rcases List.mem_append.1 hp with hp | hp
  · split at hp
    · cases hp
    · obtain ⟨r, hr, hp⟩ := List.mem_flatMap.1 hp
      obtain ⟨u, hu, hr⟩ := List.mem_flatMap.1 hr
      obtain ⟨j, hj, rfl⟩ := List.mem_map.1 hp
      exact SourceWord.operand (List.mem_filter.1 hu).1 (List.mem_filter.1 hu).2 hr (lanesOf_lt hj)
  · exact SourceWord.guard hp

/-- A word of a source is in no error. -/
theorem Issuing.soundWord {s : State} {i : Instr} {c : Issue} {w : Weft} (h : Issuing s i c w) {p : Reg × Nat}
    (hp : SourceWord i p) : SMap.find? w.poison (regKey p.1 p.2) = none ∧ regKey p.1 p.2 ∉ w.soft := by
  obtain ⟨hj, u, hu, hs, hr⟩ := hp
  have := List.all_eq_true.1 h.sound u hu
  simp only [hs, Bool.not_true, Bool.false_or, List.all_eq_true] at this
  simpa using this p.1 hr p.2 (List.mem_range.2 hj)

theorem Issuing.eccTrap {s : State} {i : Instr} {c : Issue} {w : Weft} (h : Issuing s i c w) (mask act : Word) :
    eccTrap w i mask act = none := by
  unfold Machine.eccTrap
  split
  · rfl
  · rw [List.findSome?_eq_none_iff]
    intro lane hl
    simp only [Option.map_eq_none_iff, List.find?_eq_none]
    intro p hp
    have hw : SourceWord i p := by
      rcases List.mem_append.1 hp with hp | hp
      · exact SourceWord.guard (List.mem_filter.1 hp).1
      · split at hp
        · exact SourceWord.read (lanesOf_lt hl) (h.sends act) hp
        · cases hp
    simp [(h.soundWord hw).1]

theorem Issuing.deferredErrors {s : State} {i : Instr} {c : Issue} {w : Weft} (h : Issuing s i c w) (mask act : Word) :
    deferredErrors w i mask act = [] := by
  unfold Machine.deferredErrors
  split
  · rfl
  · rw [List.map_eq_nil_iff, List.filter_eq_nil_iff]
    intro p hp
    simp [(h.soundWord (SourceWord.idle hp)).1]

theorem Issuing.countSoft {s : State} {i : Instr} {c : Issue} {w : Weft} (h : Issuing s i c w) (mask act : Word) :
    s.countSoft c.loom w i mask act = s := by
  unfold State.countSoft
  split
  · rfl
  · have : ((guardWords i mask ++ (lanesOf act).flatMap (fun lane => readWords w i act lane) ++ idleWords i mask act).eraseDups.filter
        fun p => w.soft.contains (regKey p.1 p.2)) = [] := by
      rw [List.filter_eq_nil_iff]
      intro p hp
      have hp := List.mem_eraseDups.1 hp
      have hw : SourceWord i p := by
        rcases List.mem_append.1 hp with hp | hp
        · rcases List.mem_append.1 hp with hp | hp
          · exact SourceWord.guard hp
          · obtain ⟨lane, hl, hp⟩ := List.mem_flatMap.1 hp
            exact SourceWord.read (lanesOf_lt hl) (h.sends act) hp
        · exact SourceWord.idle hp
      simp [(h.soundWord hw).2]
    simp only [this, List.length_nil, List.range_zero, List.foldl_nil]

theorem Issuing.commonTrap {s : State} {i : Instr} {c : Issue} {w : Weft} (h : Issuing s i c w) (mask act : Word) :
    commonTrap w i mask act none = none := by
  have hm : (isPrivileged i && !w.sv) = false := by
    cases hp : isPrivileged i with
    | false => rfl
    | true => simp [h.mode hp]
  unfold Machine.commonTrap
  rw [lowestOut_none h.inAllot, hm]
  cases hn : needsRole i with
  | none => simp [h.portLegal, h.eccTrap]
  | some r => simp [h.portLegal, h.eccTrap, h.role r hn]

/-- What the effect of a body comes to for a weft whose message port it does not name. -/
def Effect.outcome (s : State) (x : Iss) (i : Instr) : Effect → Result
  | .hold => .next s
  | .holdRange => .next (s.countLoom x.l 0x0B x.w.ctx 1)
  | .park => .next (s.modWeft x.l x.k fun w => { w with wait := .parked x.pc })
  | .trap e => .next ((s.noteTrap x.l x.w i e).raise x.l x.k x.pc (faultLane x.mask x.act) e)
  | .trapIn s' e => .next ((s'.noteTrap x.l x.w i e).raise x.l x.k x.pc (faultLane x.mask x.act) e)
  | .done s' fl recs => .next (s'.complete x i fl recs fun w => w.advance x.pc)
  | .jump s' es => .next (s'.complete x i 0 [] fun w => w.replaceEntry x.pc es)
  | .waits s' =>
    .next ((s'.modWeft x.l x.k fun w => w.issued x.pc).countIssue x.l x.k x.w x.act (x.w.starvingAt x.pc))
  | .after s' e =>
    .next ((s'.complete x i 0 [] fun w => w.advance x.pc).raise x.l x.k x.pc (faultLane x.mask x.act) e)
  | .begins s' | .holdIn s' => .next s'
  | .left s' => .next (s'.countIssue x.l x.k x.w x.act (x.w.starvingAt x.pc))

/-- THE ISSUE of an instruction that nothing holds or stops: its body's effect. -/
theorem issue_eq {s : State} {i : Instr} {c : Issue} {w : Weft} (h : Issuing s i c w) (body : Iss → State → Effect) :
    issue i body s = (body (c.iss w i) s).outcome s (c.iss w i) i := by
  have hl : s.logDeferred c.loom c.slot w.ctx [] = s := rfl
  have hv : s.svDenied c.loom w i (w.active (guardOf i) c.mask) = none := h.fields
  have hr : Machine.readsPort w i = false := h.readsPort
  have hy : s.regsHold c.loom c.slot w i (w.active (guardOf i) c.mask) = false := h.ready
  unfold issue
  rw [h.cur]
  simp only [h.weft, hy, portHolds, hv, h.commonTrap, h.sends, hr, h.deferredErrors, hl, h.countSoft, Bool.false_and, Bool.or_false,
    Bool.false_eq_true, if_false]
  change (match body (c.iss w i) s with
    | .hold => _ | .holdRange => _ | .park => _ | .trap e => _ | .trapIn s' e => _ | .done s' fl recs => _
    | .jump s' es => _ | .waits s' => _ | .begins s' => _ | .after s' e => _ | .holdIn s' => _ | .left s' => _) = _
  cases hp : w.port <;> cases body (c.iss w i) s <;> rfl

/-- An issue never stops the machine. -/
theorem issue_goesOn {s : State} {c : Issue} {w : Weft} (i : Instr) (body : Iss → State → Effect) (hc : s.cur = some c)
    (hw : s.weft? c.loom c.slot = some w) : goesOn (issue i body s) := by
  unfold goesOn issue
  rw [hc]
  simp only [hw]
  split
  · exact ⟨_, rfl⟩
  · split
    · exact ⟨_, rfl⟩
    · split <;> try exact ⟨_, rfl⟩
      split
      · split <;> exact ⟨_, rfl⟩
      · exact ⟨_, rfl⟩

/-! ## What completion leaves -/

/-- The package but for one loom is as before. -/
structure LoomOnly (s t : State) (l : Nat) : Prop where
  rest : t = { s with looms := t.looms }
  looms : ∀ l', l' ≠ l → t.loom l' = s.loom l'

theorem LoomOnly.refl (s : State) (l : Nat) : LoomOnly s s l := ⟨rfl, fun _ _ => rfl⟩

theorem LoomOnly.trans {s t u : State} {l : Nat} (a : LoomOnly s t l) (b : LoomOnly t u l) : LoomOnly s u l := by
  refine ⟨?_, fun l' h => (b.looms l' h).trans (a.looms l' h)⟩
  have hb := b.rest
  rw [a.rest] at hb
  exact hb

theorem LoomOnly.modLoom (s : State) (l : Nat) (f : Loom → Loom) : LoomOnly s (s.modLoom l f) l :=
  ⟨rfl, fun _ h => State.loom_modLoom_ne s f h⟩

theorem LoomOnly.setWeft (s : State) (l k : Nat) (w : Weft) : LoomOnly s (s.setWeft l k w) l := LoomOnly.modLoom s l _

theorem LoomOnly.modWeft (s : State) (l k : Nat) (f : Weft → Weft) : LoomOnly s (s.modWeft l k f) l := by
  unfold State.modWeft
  split
  · exact LoomOnly.refl s l
  · exact LoomOnly.setWeft s l k _

theorem LoomOnly.modTeam (s : State) (l h : Nat) (f : Team → Team) : LoomOnly s (s.modTeam l h f) l :=
  LoomOnly.modLoom s l _

/-- An event counted changes the loom's counters alone. -/
theorem State.countLoom_spec (s : State) (l src ctx n : Nat) :
    LoomOnly s (s.countLoom l src ctx n) l
      ∧ (s.countLoom l src ctx n).loom l = { s.loom l with counters := ((s.countLoom l src ctx n).loom l).counters } := by
  unfold State.countLoom
  split
  · exact ⟨LoomOnly.refl s l, rfl⟩
  · refine ⟨LoomOnly.modLoom s l _, ?_⟩
    simp

/-- Counting an issue (R44, R404, R426) touches the loom's counters, its last slots, passes over yielded wefts and the count
of the issuing weft's team. -/
theorem State.countIssue_spec (s : State) (l k : Nat) (w : Weft) (act : Word) (st : Bool) :
    let t := s.countIssue l k w act st
    LoomOnly s t l
      ∧ t.loom l = { s.loom l with wefts := (t.loom l).wefts, teams := (t.loom l).teams, counters := (t.loom l).counters,
                                   last := (t.loom l).last }
      ∧ (∀ j, ∃ g : Option YieldPass → Option YieldPass,
          t.weft? l j = (s.weft? l j).map fun v => { v with yielded := g v.yielded })
      ∧ ∀ h, t.team? l h = if w.team = some h then (s.team? l h).map Team.oneMore else s.team? l h := by
  intro t
  -- the team's count
  obtain ⟨s1, hs1, l1, e1, w1, t1⟩ : ∃ s1, s1 = (match w.team with
        | none => s
        | some h => s.modTeam l h fun t => { t with issued := t.issued + 1 })
      ∧ LoomOnly s s1 l ∧ s1.loom l = { s.loom l with teams := (s1.loom l).teams }
      ∧ (∀ j, s1.weft? l j = s.weft? l j)
      ∧ ∀ h, s1.team? l h = if w.team = some h then (s.team? l h).map Team.oneMore else s.team? l h := by
    refine ⟨_, rfl, ?_⟩
    cases hw : w.team with
    | none => exact ⟨LoomOnly.refl s l, rfl, fun _ => rfl, fun _ => by simp⟩
    | some h0 =>
      refine ⟨LoomOnly.modTeam s l h0 _, ?_, fun j => State.weft?_modTeam s l h0 j _, fun h => ?_⟩
      · unfold State.modTeam
        rw [State.loom_modLoom]
        split <;> rfl
      · simp only [State.team?_modTeam, Option.some.injEq]
        rfl
  -- the event counters
  have cnt : ∀ (u : State) (src ctx n : Nat), LoomOnly u (u.countLoom l src ctx n) l
      ∧ (u.countLoom l src ctx n).loom l = { u.loom l with counters := ((u.countLoom l src ctx n).loom l).counters } :=
    fun u src ctx n => State.countLoom_spec u l src ctx n
  obtain ⟨s3, hs3, l3, e3⟩ : ∃ s3, s3 = (let s2 := (s1.countLoom l 0x03 w.ctx 1).countLoom l 0x04 w.ctx (popcount act)
        if st then s2.countLoom l 0x07 w.ctx 1 else s2)
      ∧ LoomOnly s1 s3 l ∧ s3.loom l = { s1.loom l with counters := (s3.loom l).counters } := by
    refine ⟨_, rfl, ?_⟩
    obtain ⟨a1, b1⟩ := cnt s1 0x03 w.ctx 1
    obtain ⟨a2, b2⟩ := cnt (s1.countLoom l 0x03 w.ctx 1) 0x04 w.ctx (popcount act)
    cases st with
    | false =>
      refine ⟨a1.trans a2, ?_⟩
      simp only [Bool.false_eq_true, if_false]
      rw [b2, b1]
    | true =>
      obtain ⟨a3, b3⟩ := cnt ((s1.countLoom l 0x03 w.ctx 1).countLoom l 0x04 w.ctx (popcount act)) 0x07 w.ctx 1
      refine ⟨(a1.trans a2).trans a3, ?_⟩
      simp only [if_true]
      rw [b3, b2, b1]
  have ht : t = s3.modLoom l fun x =>
      { x with last := setAt x.last (k % 4) k,
               wefts := if x.wefts.any (fun p => p.2.yielded.isSome) then x.wefts.map fun p =>
                   (p.1, { p.2 with yielded := p.2.yielded.map fun y => { y with slots := y.slots.filter (· != k) } })
                 else x.wefts } := by rw [hs3, hs1]; rfl
  have hl : t.loom l = { s3.loom l with
      last := setAt (s3.loom l).last (k % 4) k
      wefts := if (s3.loom l).wefts.any (fun p => p.2.yielded.isSome) then (s3.loom l).wefts.map fun p =>
          (p.1, { p.2 with yielded := p.2.yielded.map fun y => { y with slots := y.slots.filter (· != k) } })
        else (s3.loom l).wefts } := by rw [ht, State.loom_modLoom]
  have hw3 : ∀ j, s3.weft? l j = s.weft? l j := by
    intro j
    rw [← w1 j]
    unfold State.weft?
    rw [e3]
  refine ⟨l1.trans (l3.trans (by rw [ht]; exact LoomOnly.modLoom s3 l _)), ?_, ?_, ?_⟩
  · rw [hl, e3, e1]
  · intro j
    rw [← hw3 j]
    unfold State.weft?
    rw [hl]
    by_cases hy : (s3.loom l).wefts.any (fun p => p.2.yielded.isSome) = true
    · refine ⟨fun y => y.map fun y => { y with slots := y.slots.filter (· != k) }, ?_⟩
      simp only [hy, if_true]
      exact SMap.find?_map (s3.loom l).wefts
        (fun (v : Weft) => { v with yielded := v.yielded.map fun (y : YieldPass) => { y with slots := y.slots.filter (· != k) } }) j
    · refine ⟨id, ?_⟩
      simp only [hy, Bool.false_eq_true, if_false]
      simp
  · intro h
    rw [← t1 h]
    unfold State.team?
    rw [hl, e3]

/-- COMPLETION without records, of an instruction that reads no message: `s'` is the state after the body, in which the weft is
`w1`. -/
theorem State.complete_spec {s : State} {x : Iss} {i : Instr} {fl : BitVec 6} {upd : Weft → Weft} {w1 : Weft}
    (hp : readsPort x.w i = false) (hw : s.weft? x.l x.k = some w1) :
    let t := s.complete x i fl [] upd
    (∃ y, t.weft? x.l x.k = some { upd { w1 with fpx := w1.fpx ||| fl, wait := .none, awaited := none } with yielded := y })
      ∧ LoomOnly s t x.l
      ∧ t.loom x.l = { s.loom x.l with wefts := (t.loom x.l).wefts, teams := (t.loom x.l).teams,
                                       counters := (t.loom x.l).counters, last := (t.loom x.l).last }
      ∧ (∀ j, j ≠ x.k → (t.weft? x.l j).map Weft.unyielded = (s.weft? x.l j).map Weft.unyielded)
      ∧ ∀ h, t.team? x.l h = if x.w.team = some h then (s.team? x.l h).map Team.oneMore else s.team? x.l h := by
  intro t
  have hr : readsPort x.w i = false := hp
  have ht : t = (s.setWeft x.l x.k (upd { w1 with fpx := w1.fpx ||| fl, wait := .none, awaited := none })).countIssue x.l x.k x.w x.act
      (x.w.starvingAt x.pc) := by
    change State.complete s x i fl [] upd = _
    unfold State.complete
    simp only [laneRecords, List.map_nil, State.vectorRecords_nil, hr, Bool.false_and, Bool.false_eq_true, if_false]
    rw [State.modWeft_eq _ hw]
  obtain ⟨a, b, c, d⟩ := State.countIssue_spec (s.setWeft x.l x.k (upd { w1 with fpx := w1.fpx ||| fl, wait := .none, awaited := none })) x.l x.k
    x.w x.act (x.w.starvingAt x.pc)
  rw [← ht] at a b c d
  refine ⟨?_, (LoomOnly.setWeft s x.l x.k _).trans a, ?_, ?_, ?_⟩
  · obtain ⟨g, hg⟩ := c x.k
    rw [State.weft?_setWeft] at hg
    exact ⟨_, hg⟩
  · rw [b, State.loom_setWeft]
  · intro j hj
    obtain ⟨g, hg⟩ := c j
    rw [hg, State.weft?_setWeft_ne _ _ _ (Ne.symm hj)]
    cases s.weft? x.l j <;> rfl
  · intro h
    rw [d h, State.team?_setWeft]

/-! ## Register lanes -/

theorem regKey_inj {r q : Reg} {i j : Nat} (hi : i < 32) (hj : j < 32) : regKey r i = regKey q j ↔ r = q ∧ i = j := by
  unfold regKey
  constructor
  · intro h
    have : r.toNat = q.toNat ∧ i = j := by omega
    exact ⟨BitVec.eq_of_toNat_eq this.1, this.2⟩
  · rintro ⟨rfl, rfl⟩; rfl

/-- A register is none of a weft's message port. -/
def Weft.Free (w : Weft) (d : Reg) : Prop := ∀ p, w.port = some p → d ≠ p.s ∧ d ≠ p.r

theorem Weft.Free.congr {v w : Weft} {d : Reg} (h : w.Free d) (hp : v.port = w.port) : v.Free d := by
  intro p hq
  exact h p (hp ▸ hq)

/-- An instruction's registers are none of its weft's port. -/
theorem Issuing.free {s : State} {i : Instr} {c : Issue} {w : Weft} (h : Issuing s i c w) {u : RegUse}
    (hu : u ∈ allUses i) {r : Reg} (hr : r ∈ u.regs) : w.Free r := fun _ hp => h.clearOf hp hu hr

/-- What writing one lane comes to, for a register that takes it. -/
theorem Weft.setLane_eq {w : Weft} {d : Reg} (hf : w.Free d) (hd : d ≠ 255) (i : Nat) (v : Word) :
    w.setLane d i v = { w with regs := SMap.set w.regs 0 (regKey d i) v, poison := SMap.del w.poison (regKey d i),
                               soft := w.soft.filter (· != regKey d i) } := by
  unfold Weft.setLane
  rw [if_neg hd]
  split
  · rename_i p hp
    rw [if_neg (by simpa using (hf p hp).2)]
  · rw [if_neg (by simp)]

/-- Writing one lane of a register that is none of the port's. -/
theorem Weft.lane_setLane {w : Weft} {d : Reg} (hf : w.Free d) (r : Reg) {i j : Nat} (hi : i < 32) (hj : j < 32)
    (v : Word) : (w.setLane d i v).lane r j = if r = d ∧ d ≠ 255 ∧ i = j then v else w.lane r j := by
  by_cases hd : d = 255
  · rw [if_neg fun h => h.2.1 hd]
    unfold Weft.setLane
    rw [if_pos hd]
  · rw [Weft.setLane_eq hf hd]
    unfold Weft.lane
    by_cases hr : r = 255
    · have : ¬(r = d ∧ d ≠ 255 ∧ i = j) := fun h => hd (h.1.symm.trans hr)
      rw [if_neg this, if_pos hr, if_pos hr]
    · rw [if_neg hr, if_neg hr]
      simp only [Weft.raw]
      have key : SMap.getD (SMap.set w.regs 0 (regKey d i) v) (regKey r j) 0
          = if r = d ∧ d ≠ 255 ∧ i = j then v else SMap.getD w.regs (regKey r j) 0 := by
        rw [SMap.getD_set]
        by_cases he : regKey d i = regKey r j
        · obtain ⟨h1, h2⟩ := (regKey_inj hi hj).1 he
          have hk : r = d ∧ d ≠ 255 ∧ i = j := ⟨h1.symm, hd, h2⟩
          rw [if_pos hk, if_pos he]
        · have : ¬(r = d ∧ d ≠ 255 ∧ i = j) := fun h => he (by rw [h.1, h.2.2])
          rw [if_neg this, if_neg he]
      split
      · exact key
      · rename_i p hp
        have := hf p hp
        by_cases h1 : r = p.s
        · rw [if_neg (c := r = d ∧ d ≠ 255 ∧ i = j) fun h => this.1 (h.1.symm.trans h1), if_pos h1, if_pos h1]
        · by_cases h2 : r = p.r
          · rw [if_neg (c := r = d ∧ d ≠ 255 ∧ i = j) fun h => this.2 (h.1.symm.trans h2), if_neg h1, if_pos h2,
              if_neg h1, if_pos h2]
          · rw [if_neg h1, if_neg h2, if_neg h1, if_neg h2]
            exact key

/-- Two wefts are alike but for their registers and their error marks. -/
def Weft.SameButRegs (w v : Weft) : Prop := v = { w with regs := v.regs, poison := v.poison, soft := v.soft }

theorem Weft.SameButRegs.trans {u v w : Weft} (a : u.SameButRegs v) (b : v.SameButRegs w) : u.SameButRegs w := by
  unfold Weft.SameButRegs at *
  rw [a] at b
  exact b

theorem Weft.SameButRegs.port {w v : Weft} (h : w.SameButRegs v) : v.port = w.port := by rw [h]

/-- Writing a lane changes the registers and their error marks alone. -/
theorem Weft.setLane_rest (w : Weft) (d : Reg) (i : Nat) (v : Word) : w.SameButRegs (w.setLane d i v) := by
  have key : ∀ (p : Prop) [Decidable p] (v : Weft), w.SameButRegs v → w.SameButRegs (if p then w else v) := by
    intro p _ v h
    split
    · rfl
    · exact h
  exact key _ _ (key _ _ rfl)

/-- A list of lane writes of one register. -/
theorem Weft.lane_writes (d : Reg) (f : Nat → Word) (ls : List Nat) (hl : ∀ i ∈ ls, i < 32) :
    ∀ {w : Weft}, w.Free d →
    w.SameButRegs (ls.foldl (fun w i => w.setLane d i (f i)) w)
      ∧ ∀ r j, j < 32 → (ls.foldl (fun w i => w.setLane d i (f i)) w).lane r j
          = if r = d ∧ d ≠ 255 ∧ j ∈ ls then f j else w.lane r j := by
  induction ls with
  | nil => exact fun _ => ⟨rfl, fun r j _ => by simp⟩
  | cons i t ih =>
    intro w hp
    have hp' : (w.setLane d i (f i)).Free d := hp.congr (Weft.setLane_rest w d i (f i)).port
    obtain ⟨h1, h2⟩ := ih (fun k hk => hl k (List.mem_cons_of_mem i hk)) hp'
    refine ⟨Weft.SameButRegs.trans (Weft.setLane_rest w d i (f i)) h1, fun r j hj => ?_⟩
    rw [List.foldl_cons, h2 r j hj, Weft.lane_setLane hp r (hl i List.mem_cons_self) hj]
    by_cases hr : r = d ∧ d ≠ 255
    · by_cases hjt : j ∈ t
      · rw [if_pos ⟨hr.1, hr.2, hjt⟩, if_pos ⟨hr.1, hr.2, List.mem_cons_of_mem i hjt⟩]
      · rw [if_neg fun h => hjt h.2.2]
        by_cases hij : i = j
        · rw [if_pos ⟨hr.1, hr.2, hij⟩, if_pos ⟨hr.1, hr.2, by rw [hij]; exact List.mem_cons_self⟩, hij]
        · rw [if_neg fun h => hij h.2.2, if_neg fun h => ?_]
          rcases List.mem_cons.1 h.2.2 with h | h
          · exact hij h.symm
          · exact hjt h
    · rw [if_neg fun h => hr ⟨h.1, h.2.1⟩, if_neg fun h => hr ⟨h.1, h.2.1⟩, if_neg fun h => hr ⟨h.1, h.2.1⟩]

theorem mem_lanesOf {m : Word} {j : Nat} (hj : j < 32) : j ∈ lanesOf m ↔ m.getLsbD j = true := by
  simp [lanesOf, hj]

/-- Writing a register in the lanes of a mask. -/
theorem Weft.writeLanes_spec {w : Weft} {d : Reg} (hp : w.Free d) (m : Word) (f : Nat → Word) :
    w.SameButRegs (w.writeLanes m d f) ∧ LanesWritten w (w.writeLanes m d f) m d f := by
  obtain ⟨h1, h2⟩ := Weft.lane_writes d f (lanesOf m) (fun _ h => lanesOf_lt h) hp
  refine ⟨h1, fun r j hj => ?_⟩
  have := h2 r j hj
  simp only [mem_lanesOf hj] at this
  exact this

/-- Registers are read from a weft's registers and its port alone. -/
theorem Weft.lane_congr {v w : Weft} (h : v.regs = w.regs) (hp : v.port = w.port) (r : Reg) (j : Nat) :
    v.lane r j = w.lane r j := by
  unfold Weft.lane Weft.raw
  rw [h, hp]

theorem Weft.advance_rest (w : Weft) (pc : DWord) : w.advance pc = { w with held := (w.advance pc).held } := by
  unfold Weft.advance
  split <;> rfl

theorem Weft.advance_held (v w : Weft) (h : v.held = w.held) (pc : DWord) : (v.advance pc).held = (w.advance pc).held := by
  unfold Weft.advance
  rw [h]
  split
  · exact h
  · simp only [Weft.replaceEntry, h]

/-- A body has changed the issuing weft's registers alone, and has come to `s'`. -/
structure OnlyLanes (s s' : State) (l k : Nat) (w w1 : Weft) : Prop where
  weft : s'.weft? l k = some w1
  regs : w.SameButRegs w1
  loom : LoomOnly s s' l
  this : s'.loom l = { s.loom l with wefts := (s'.loom l).wefts }
  wefts : ∀ j, j ≠ k → s'.weft? l j = s.weft? l j

theorem OnlyLanes.setWeft (s : State) (l k : Nat) {w w1 : Weft} (h : w.SameButRegs w1) :
    OnlyLanes s (s.setWeft l k w1) l k w w1 where
  weft := State.weft?_setWeft s l k w1
  regs := h
  loom := LoomOnly.setWeft s l k w1
  this := by rw [State.loom_setWeft]
  wefts := fun j hj => State.weft?_setWeft_ne _ _ _ (Ne.symm hj)

/-- COMPLETION of a body that has come to `s2` from `s1` by writing registers: `upd` gives the entry its new place. -/
theorem OnlyLanes.finished {s1 s2 : State} {x : Iss} {i : Instr} {c : Issue} {w1 w2 : Weft} {upd : Weft → Weft}
    (hl : x.l = c.loom) (hk : x.k = c.slot) (hr : readsPort x.w i = false) (ht : w1.team = x.w.team)
    (o : OnlyLanes s1 s2 c.loom c.slot w1 w2) (hu : ∀ v, upd v = { v with held := (upd v).held })
    (hh : ∀ u v : Weft, u.held = v.held → (upd u).held = (upd v).held) (fl : BitVec 6) :
    ∃ w', Finished s1 (s2.complete x i fl [] upd) c w1 w' (upd w1).held fl ∧ w'.regs = w2.regs ∧ w'.port = w2.port := by
  have hw : s2.weft? x.l x.k = some w2 := by rw [hl, hk]; exact o.weft
  obtain ⟨⟨y, e1⟩, e2, e3, e4, e5⟩ := State.complete_spec (i := i) (fl := fl) (upd := upd) hr hw
  rw [hl, hk] at e1
  rw [hl] at e2 e3 e4 e5
  rw [hk] at e4
  have hf : w2.fpx = w1.fpx := by rw [o.regs]
  have hd : w2.held = w1.held := by rw [o.regs]
  refine ⟨_, ⟨e1, ?_, ?_, ?_, ⟨?_, ?_, ?_, ?_, ?_⟩⟩, ?_, ?_⟩
  · unfold OnlyRegs
    simp only []
    rw [hu, o.regs]
  · exact hh _ _ hd
  · simp only []
    rw [hu]
    simp only [hf]
  · exact (o.loom.trans e2).rest
  · exact (o.loom.trans e2).looms
  · have := e3
    rw [o.this] at this
    exact this
  · intro j hj
    rw [← o.wefts j hj]
    exact e4 j hj
  · intro k
    have hs : s2.team? c.loom k = s1.team? c.loom k := by
      unfold State.team?
      rw [o.this]
    have := e5 k
    rw [hs, ← ht] at this
    exact this
  · simp only []
    rw [hu]
  · simp only []
    rw [hu]

/-- An instruction without records whose body has come to `s2` from `s1` by writing registers completes. -/
theorem OnlyLanes.completed {s s1 s2 : State} {i : Instr} {c : Issue} {w w1 w2 : Weft} (h : Issuing s i c w)
    (ht : w1.team = w.team) (o : OnlyLanes s1 s2 c.loom c.slot w1 w2) (fl : BitVec 6) :
    ∃ w', Completed s1 (s2.complete (c.iss w i) i fl [] fun v => v.advance c.pc) c w1 w' fl
      ∧ w'.regs = w2.regs ∧ w'.port = w2.port :=
  OnlyLanes.finished (x := c.iss w i) rfl rfl h.readsPort ht o (fun v => Weft.advance_rest v c.pc)
    (fun u v e => Weft.advance_held u v e c.pc) fl

/-- As `OnlyLanes.completed`, of a control transfer. -/
theorem OnlyLanes.jumped {s s1 s2 : State} {i : Instr} {c : Issue} {w w1 w2 : Weft} (h : Issuing s i c w)
    (ht : w1.team = w.team) (o : OnlyLanes s1 s2 c.loom c.slot w1 w2) (es : List Entry) :
    ∃ w', Finished s1 (s2.complete (c.iss w i) i 0 [] fun v => v.replaceEntry c.pc es) c w1 w'
        (w1.replaceEntry c.pc es).held 0
      ∧ w'.regs = w2.regs ∧ w'.port = w2.port :=
  OnlyLanes.finished (x := c.iss w i) rfl rfl h.readsPort ht o (fun v => rfl)
    (fun u v e => by simp only [Weft.replaceEntry, e]) 0

/-- AN INSTRUCTION THAT WRITES A REGISTER in its active lanes completes, and does nothing else. -/
theorem regBody_completes {s : State} {i : Instr} {c : Issue} {w : Weft} (h : Issuing s i c w) {d : Reg} (hd : w.Free d)
    (f : Weft → Iss → Nat → Word) :
    ∃ t w', issue i (regBody d f) s = .next t ∧ Completed s t c w w' 0
      ∧ LanesWritten w w' (c.act w i) d (f w (c.iss w i)) := by
  obtain ⟨hr, hl⟩ := Weft.writeLanes_spec hd (c.act w i) (f w (c.iss w i))
  obtain ⟨w', hc, h1, h2⟩ := (OnlyLanes.setWeft s c.loom c.slot hr).completed h rfl 0
  refine ⟨_, w', ?_, hc, fun r j hj => ?_⟩
  · rw [issue_eq h]
    simp only [regBody, Effect.ok, Effect.outcome]
    rw [State.modWeft_eq _ (show s.weft? (c.iss w i).l (c.iss w i).k = some w from h.weft)]
    rfl
  · rw [Weft.lane_congr h1 h2 r j]
    exact hl r j hj

theorem Weft.setPair_rest (w : Weft) (d : Reg) (i : Nat) (v : DWord) : w.SameButRegs (w.setPair d i v) :=
  (Weft.setLane_rest w d i _).trans (Weft.setLane_rest _ (d + 1) i _)

theorem Reg.succ_ne (d : Reg) : d ≠ d + 1 := by
  revert d
  decide

/-- Writing one lane of a pair of registers that are none of the port's. -/
theorem Weft.lane_setPair {w : Weft} {d : Reg} (hp : w.Free d) (hq : w.Free (d + 1)) (hd : d ≠ 255) (r : Reg) {i j : Nat}
    (hi : i < 32) (hj : j < 32) (v : DWord) :
    (w.setPair d i v).lane r j =
      if r = d ∧ i = j then v.extractLsb' 0 32
      else if r = d + 1 ∧ d + 1 ≠ 255 ∧ i = j then v.extractLsb' 32 32
      else w.lane r j := by
  unfold Weft.setPair
  rw [Weft.lane_setLane (hq.congr (Weft.setLane_rest w d i _).port) r hi hj, Weft.lane_setLane hp r hi hj]
  by_cases h1 : r = d ∧ i = j
  · rw [if_neg fun h => Reg.succ_ne d (h1.1.symm.trans h.1), if_pos ⟨h1.1, hd, h1.2⟩, if_pos h1]
  · rw [if_neg (c := r = d ∧ d ≠ 255 ∧ i = j) fun h => h1 ⟨h.1, h.2.2⟩, if_neg h1]

/-- A list of pair writes of one register pair. -/
theorem Weft.pair_writes {d : Reg} (hd : d ≠ 255) (f : Nat → DWord) (ls : List Nat) (hl : ∀ i ∈ ls, i < 32) :
    ∀ {w : Weft}, w.Free d → w.Free (d + 1) →
    w.SameButRegs (ls.foldl (fun w i => w.setPair d i (f i)) w)
      ∧ ∀ r j, j < 32 → (ls.foldl (fun w i => w.setPair d i (f i)) w).lane r j
          = if r = d ∧ j ∈ ls then (f j).extractLsb' 0 32
            else if r = d + 1 ∧ d + 1 ≠ 255 ∧ j ∈ ls then (f j).extractLsb' 32 32
            else w.lane r j := by
  induction ls with
  | nil => exact fun _ _ => ⟨rfl, fun r j _ => by simp⟩
  | cons i t ih =>
    intro w hp hq
    have he := (Weft.setPair_rest w d i (f i)).port
    obtain ⟨h1, h2⟩ := ih (fun k hk => hl k (List.mem_cons_of_mem i hk)) (hp.congr he) (hq.congr he)
    refine ⟨Weft.SameButRegs.trans (Weft.setPair_rest w d i (f i)) h1, fun r j hj => ?_⟩
    rw [List.foldl_cons, h2 r j hj, Weft.lane_setPair hp hq hd r (hl i List.mem_cons_self) hj]
    have hm : j ∈ i :: t ↔ i = j ∨ j ∈ t := by rw [List.mem_cons]; exact ⟨fun h => h.imp Eq.symm id, fun h => h.imp Eq.symm id⟩
    by_cases hr : r = d
    · have hn : ¬ r = d + 1 := fun h => Reg.succ_ne d (hr.symm.trans h)
      by_cases hjt : j ∈ t
      · simp [hr, hjt]
      · by_cases hij : i = j
        · subst hij; simp [hr, hjt]
        · have : j ∉ i :: t := fun h => (hm.1 h).elim hij hjt
          simp only [hr, hjt, hij, this, and_false, if_false]
    · by_cases hq : r = d + 1 ∧ d + 1 ≠ 255
      · by_cases hjt : j ∈ t
        · have : j ∈ i :: t := hm.2 (.inr hjt)
          rw [if_neg (fun h => hr h.1), if_pos ⟨hq.1, hq.2, hjt⟩, if_neg (fun h => hr h.1), if_pos ⟨hq.1, hq.2, this⟩]
        · by_cases hij : i = j
          · have : j ∈ i :: t := hm.2 (.inl hij)
            rw [if_neg (fun h => hr h.1), if_neg (fun h => hjt h.2.2), if_neg (fun h => hr h.1),
              if_pos ⟨hq.1, hq.2, hij⟩, if_neg (fun h => hr h.1), if_pos ⟨hq.1, hq.2, this⟩, hij]
          · have : j ∉ i :: t := fun h => (hm.1 h).elim hij hjt
            rw [if_neg (fun h => hr h.1), if_neg (fun h => hjt h.2.2), if_neg (fun h => hr h.1),
              if_neg (fun h => hij h.2.2), if_neg (fun h => hr h.1), if_neg (fun h => this h.2.2)]
      · rw [if_neg (fun h => hr h.1), if_neg (fun h => hq ⟨h.1, h.2.1⟩), if_neg (fun h => hr h.1),
          if_neg (fun h => hq ⟨h.1, h.2.1⟩), if_neg (fun h => hr h.1), if_neg (fun h => hq ⟨h.1, h.2.1⟩)]

/-- Writing a register pair in the lanes of a mask. -/
theorem Weft.writePairs_spec {w : Weft} {d : Reg} (hp : w.Free d) (hq : w.Free (d + 1)) (m : Word) (hd : d ≠ 255)
    (f : Nat → DWord) :
    w.SameButRegs (w.writePairs m d f) ∧ PairsWritten w (w.writePairs m d f) m d f := by
  obtain ⟨h1, h2⟩ := Weft.pair_writes hd f (lanesOf m) (fun _ h => lanesOf_lt h) hp hq
  refine ⟨h1, fun r j hj => ?_⟩
  have := h2 r j hj
  simp only [mem_lanesOf hj] at this
  exact this

/-- AN INSTRUCTION THAT WRITES A REGISTER PAIR in its active lanes completes, and does nothing else. -/
theorem pairBody_completes {s : State} {i : Instr} {c : Issue} {w : Weft} (h : Issuing s i c w) {d : Reg} (hd : d ≠ 255)
    (hp : w.Free d) (hq : w.Free (d + 1)) (f : Weft → Iss → Nat → DWord) :
    ∃ t w', issue i (pairBody d f) s = .next t ∧ Completed s t c w w' 0
      ∧ PairsWritten w w' (c.act w i) d (f w (c.iss w i)) := by
  obtain ⟨hr, hl⟩ := Weft.writePairs_spec hp hq (c.act w i) hd (f w (c.iss w i))
  obtain ⟨w', hc, h1, h2⟩ := (OnlyLanes.setWeft s c.loom c.slot hr).completed h rfl 0
  refine ⟨_, w', ?_, hc, fun r j hj => ?_⟩
  · rw [issue_eq h]
    simp only [pairBody, Effect.ok, Effect.outcome]
    rw [State.modWeft_eq _ (show s.weft? (c.iss w i).l (c.iss w i).k = some w from h.weft)]
    rfl
  · rw [Weft.lane_congr h1 h2 r j]
    exact hl r j hj

end Sys2Proof.Machine
end

