-- ==== Sys2Proof/Laws/Outcome.lean ====
section
/-! SUPPORT. How the body of an instruction gives the outcomes of Rules/Outcome.lean: one lemma for each form. -/

namespace Sys2Proof.Rules

open Sys2Proof.Machine

/-- A body that has written registers, from the state `s1` of its other effects. -/
theorem completesAs {s s1 s2 : State} {i : Instr} {c : Issue} {w w1 w2 : Weft} {body : Iss → State → Effect}
    {fl : BitVec 6} {m : Word} {d : Reg} {val : Nat → Word} (h : Issuing s i c w) (he : exec i s = issue i body s)
    (hb : body (c.iss w i) s = .done s2 fl []) (ht : w1.team = w.team) (hw : s1.weft? c.loom c.slot = some w1)
    (o : OnlyLanes s1 s2 c.loom c.slot w1 w2) (hl : LanesWritten w1 w2 m d val) : CompletesAs s i c s1 w1 fl m d val := by
  obtain ⟨w', h1, h2, h3⟩ := o.completed h ht fl
  refine ⟨hw, _, w', ?_, h1, fun r j hj => ?_⟩
  · rw [he, issue_eq h, hb]
    rfl
  · rw [Weft.lane_congr h2 h3 r j]
    exact hl r j hj

/-- A body that has written a pair of registers, from the state `s1` of its other effects. -/
theorem completesPair {s s1 s2 : State} {i : Instr} {c : Issue} {w w1 w2 : Weft} {body : Iss → State → Effect}
    {m : Word} {d : Reg} {val : Nat → DWord} (h : Issuing s i c w) (he : exec i s = issue i body s)
    (hb : body (c.iss w i) s = .done s2 0 []) (ht : w1.team = w.team) (hw : s1.weft? c.loom c.slot = some w1)
    (o : OnlyLanes s1 s2 c.loom c.slot w1 w2) (hl : PairsWritten w1 w2 m d val) : CompletesPair s i c s1 w1 m d val := by
  obtain ⟨w', h1, h2, h3⟩ := o.completed h ht 0
  refine ⟨hw, _, w', ?_, h1, fun r j hj => ?_⟩
  · rw [he, issue_eq h, hb]
    rfl
  · rw [Weft.lane_congr h2 h3 r j]
    exact hl r j hj

/-- A body that writes nothing. -/
theorem writesNothing {s : State} {i : Instr} {c : Issue} {w : Weft} {body : Iss → State → Effect} (h : Issuing s i c w)
    (he : exec i s = issue i body s) (hb : body (c.iss w i) s = .done s 0 []) : WritesNothing s i c w := by
  have o : OnlyLanes s s c.loom c.slot w w :=
    ⟨h.weft, rfl, LoomOnly.refl s _, rfl, fun _ _ => rfl⟩
  obtain ⟨w', h1, h2, -⟩ := o.completed h rfl 0
  exact ⟨_, w', by rw [he, issue_eq h, hb]; rfl, h1, h2⟩

/-- A body that forms entries. -/
theorem transfers {s : State} {i : Instr} {c : Issue} {w : Weft} {body : Iss → State → Effect} {es : List Entry}
    (h : Issuing s i c w) (he : exec i s = issue i body s) (hb : body (c.iss w i) s = .jump s es) :
    Transfers s i c w es := by
  have o : OnlyLanes s s c.loom c.slot w w :=
    ⟨h.weft, rfl, LoomOnly.refl s _, rfl, fun _ _ => rfl⟩
  obtain ⟨w', h1, h2, -⟩ := o.jumped h rfl es
  exact ⟨_, w', by rw [he, issue_eq h, hb]; rfl, h1, h2⟩

/-- A body that traps. -/
theorem traps {s : State} {i : Instr} {c : Issue} {w : Weft} {body : Iss → State → Effect} {e : Cause}
    (h : Issuing s i c w) (he : exec i s = issue i body s) (hb : body (c.iss w i) s = .trap e) : Traps s i c w e := by
  unfold Traps
  rw [he, issue_eq h, hb]
  rfl

/-- A body that holds. -/
theorem holds {s : State} {i : Instr} {c : Issue} {w : Weft} {body : Iss → State → Effect}
    (h : Issuing s i c w) (he : exec i s = issue i body s) (hb : body (c.iss w i) s = .hold) : Holds s i := by
  unfold Holds
  rw [he, issue_eq h, hb]
  rfl

/-- A body whose weft waits in the state `s2`, or that has dealt with its entry. -/
theorem issuesAs_waits {s s2 : State} {i : Instr} {c : Issue} {w : Weft} {body : Iss → State → Effect}
    (h : Issuing s i c w) (he : exec i s = issue i body s) (hb : body (c.iss w i) s = .waits s2) :
    IssuesAs s i c w (s2.modWeft c.loom c.slot fun v => v.issued c.pc) := by
  obtain ⟨a, b, d, e⟩ := State.countIssue_spec (s2.modWeft c.loom c.slot fun v => v.issued c.pc) c.loom c.slot w
    (c.act w i) (w.starvingAt c.pc)
  refine ⟨_, by rw [he, issue_eq h, hb]; rfl, ⟨a.rest, a.looms, b, fun j hj => ?_, e⟩, ?_⟩
  · obtain ⟨g, hg⟩ := d j
    rw [hg]
    cases (s2.modWeft c.loom c.slot fun v => v.issued c.pc).weft? c.loom j <;> rfl
  · obtain ⟨g, hg⟩ := d c.slot
    rw [hg]
    cases (s2.modWeft c.loom c.slot fun v => v.issued c.pc).weft? c.loom c.slot <;> rfl

theorem issuesAs_left {s s2 : State} {i : Instr} {c : Issue} {w : Weft} {body : Iss → State → Effect}
    (h : Issuing s i c w) (he : exec i s = issue i body s) (hb : body (c.iss w i) s = .left s2) : IssuesAs s i c w s2 := by
  obtain ⟨a, b, d, e⟩ := State.countIssue_spec s2 c.loom c.slot w (c.act w i) (w.starvingAt c.pc)
  refine ⟨_, by rw [he, issue_eq h, hb]; rfl, ⟨a.rest, a.looms, b, fun j hj => ?_, e⟩, ?_⟩
  · obtain ⟨g, hg⟩ := d j
    rw [hg]
    cases s2.weft? c.loom j <;> rfl
  · obtain ⟨g, hg⟩ := d c.slot
    rw [hg]
    cases s2.weft? c.loom c.slot <;> rfl

end Sys2Proof.Rules
end

