-- ==== Sys2Proof/Laws/PerInstr.lean ====
section
/-! SUPPORT. Statements made once for each instruction. Encoding: decoding reads back what the encoder writes (R93 to R104). -/

namespace Sys2Proof.Laws

/-- A well-formed instruction that some word encodes is read back from its word. -/
def Encoding.Statement (i : Instr) : Prop := i.flaw = none → i.isEvent = false → decode (encode i) = .ok i

/-- Nothing is claimed of a step of the device, which no word encodes. -/
theorem Encoding.ofEvent {i : Instr} (h : i.isEvent = true) : Encoding.Statement i := fun _ he => by
  rw [h] at he
  exact absurd he (by decide)

theorem Encoding.iadd (h d a b m) : Encoding.Statement (.iadd h d a b m) := fun hf _ => by
  change decode (encR 0x000 h d a b 0 0 (m4 m.code)) = _
  refine decode_of (op := 0x000) (fOp_encR ..) (by decide) rfl ?_ hf
  change ((satOf ((fMod _).toNat)).map (Instr.iadd (fGuard _) (fD _) (fA _) (fB _))) = _
  simp [fGuard]

theorem Encoding.isub (h d a b m) : Encoding.Statement (.isub h d a b m) := fun hf _ => by
  change decode (encR 0x001 h d a b 0 0 (m4 m.code)) = _
  refine decode_of (op := 0x001) (fOp_encR ..) (by decide) rfl ?_ hf
  change ((satOf ((fMod _).toNat)).map (Instr.isub (fGuard _) (fD _) (fA _) (fB _))) = _
  simp [fGuard]

theorem Encoding.imul (h d a b) : Encoding.Statement (.imul h d a b) := fun hf _ => by
  change decode (encR 0x002 h d a b 0 0 0) = _
  refine decode_of (op := 0x002) (fOp_encR ..) (by decide) rfl ?_ hf
  change (some (Instr.imul (fGuard _) (fD _) (fA _) (fB _))) = _
  simp [fGuard]

theorem Encoding.imulh (h d a b s) : Encoding.Statement (.imulh h d a b s) := fun hf _ => by
  change decode (encR 0x003 h d a b 0 0 (b1 s)) = _
  refine decode_of (op := 0x003) (fOp_encR ..) (by decide) rfl ?_ hf
  change ((flagOf ((fMod _).toNat)).map (Instr.imulh (fGuard _) (fD _) (fA _) (fB _))) = _
  simp [fGuard]

theorem Encoding.imad (h d a b c) : Encoding.Statement (.imad h d a b c) := fun hf _ => by
  change decode (encR 0x004 h d a b c 0 0) = _
  refine decode_of (op := 0x004) (fOp_encR ..) (by decide) rfl ?_ hf
  change (some (Instr.imad (fGuard _) (fD _) (fA _) (fB _) (fC _))) = _
  simp [fGuard]

theorem Encoding.idiv (h d a b s) : Encoding.Statement (.idiv h d a b s) := fun hf _ => by
  change decode (encR 0x005 h d a b 0 0 (b1 s)) = _
  refine decode_of (op := 0x005) (fOp_encR ..) (by decide) rfl ?_ hf
  change ((flagOf ((fMod _).toNat)).map (Instr.idiv (fGuard _) (fD _) (fA _) (fB _))) = _
  simp [fGuard]

theorem Encoding.irem (h d a b s) : Encoding.Statement (.irem h d a b s) := fun hf _ => by
  change decode (encR 0x006 h d a b 0 0 (b1 s)) = _
  refine decode_of (op := 0x006) (fOp_encR ..) (by decide) rfl ?_ hf
  change ((flagOf ((fMod _).toNat)).map (Instr.irem (fGuard _) (fD _) (fA _) (fB _))) = _
  simp [fGuard]

theorem Encoding.imin (h d a b s) : Encoding.Statement (.imin h d a b s) := fun hf _ => by
  change decode (encR 0x007 h d a b 0 0 (b1 s)) = _
  refine decode_of (op := 0x007) (fOp_encR ..) (by decide) rfl ?_ hf
  change ((flagOf ((fMod _).toNat)).map (Instr.imin (fGuard _) (fD _) (fA _) (fB _))) = _
  simp [fGuard]

theorem Encoding.imax (h d a b s) : Encoding.Statement (.imax h d a b s) := fun hf _ => by
  change decode (encR 0x008 h d a b 0 0 (b1 s)) = _
  refine decode_of (op := 0x008) (fOp_encR ..) (by decide) rfl ?_ hf
  change ((flagOf ((fMod _).toNat)).map (Instr.imax (fGuard _) (fD _) (fA _) (fB _))) = _
  simp [fGuard]

theorem Encoding.iabs (h d a) : Encoding.Statement (.iabs h d a) := fun hf _ => by
  change decode (encR 0x009 h d a 0 0 0 0) = _
  refine decode_of (op := 0x009) (fOp_encR ..) (by decide) rfl ?_ hf
  change (some (Instr.iabs (fGuard _) (fD _) (fA _))) = _
  simp [fGuard]

theorem Encoding.ineg (h d a) : Encoding.Statement (.ineg h d a) := fun hf _ => by
  change decode (encR 0x00A h d a 0 0 0 0) = _
  refine decode_of (op := 0x00A) (fOp_encR ..) (by decide) rfl ?_ hf
  change (some (Instr.ineg (fGuard _) (fD _) (fA _))) = _
  simp [fGuard]

theorem Encoding.iand (h d a b) : Encoding.Statement (.iand h d a b) := fun hf _ => by
  change decode (encR 0x00B h d a b 0 0 0) = _
  refine decode_of (op := 0x00B) (fOp_encR ..) (by decide) rfl ?_ hf
  change (some (Instr.iand (fGuard _) (fD _) (fA _) (fB _))) = _
  simp [fGuard]

theorem Encoding.ior (h d a b) : Encoding.Statement (.ior h d a b) := fun hf _ => by
  change decode (encR 0x00C h d a b 0 0 0) = _
  refine decode_of (op := 0x00C) (fOp_encR ..) (by decide) rfl ?_ hf
  change (some (Instr.ior (fGuard _) (fD _) (fA _) (fB _))) = _
  simp [fGuard]

theorem Encoding.ixor (h d a b) : Encoding.Statement (.ixor h d a b) := fun hf _ => by
  change decode (encR 0x00D h d a b 0 0 0) = _
  refine decode_of (op := 0x00D) (fOp_encR ..) (by decide) rfl ?_ hf
  change (some (Instr.ixor (fGuard _) (fD _) (fA _) (fB _))) = _
  simp [fGuard]

theorem Encoding.inot (h d a) : Encoding.Statement (.inot h d a) := fun hf _ => by
  change decode (encR 0x00E h d a 0 0 0 0) = _
  refine decode_of (op := 0x00E) (fOp_encR ..) (by decide) rfl ?_ hf
  change (some (Instr.inot (fGuard _) (fD _) (fA _))) = _
  simp [fGuard]

theorem Encoding.logic3 (h d a b c t) : Encoding.Statement (.logic3 h d a b c t) := fun hf _ => by
  change decode (encR 0x00F h d a b c (lo4 t) (hi4 t)) = _
  refine decode_of (op := 0x00F) (fOp_encR ..) (by decide) rfl ?_ hf
  change (some (Instr.logic3 (fGuard _) (fD _) (fA _) (fB _) (fC _) (fModSlot _))) = _
  simp [fGuard, fModSlot_eq]

theorem Encoding.shl (h d a b) : Encoding.Statement (.shl h d a b) := fun hf _ => by
  change decode (encR 0x010 h d a b 0 0 0) = _
  refine decode_of (op := 0x010) (fOp_encR ..) (by decide) rfl ?_ hf
  change (some (Instr.shl (fGuard _) (fD _) (fA _) (fB _))) = _
  simp [fGuard]

theorem Encoding.shr (h d a b) : Encoding.Statement (.shr h d a b) := fun hf _ => by
  change decode (encR 0x011 h d a b 0 0 0) = _
  refine decode_of (op := 0x011) (fOp_encR ..) (by decide) rfl ?_ hf
  change (some (Instr.shr (fGuard _) (fD _) (fA _) (fB _))) = _
  simp [fGuard]

theorem Encoding.sar (h d a b) : Encoding.Statement (.sar h d a b) := fun hf _ => by
  change decode (encR 0x012 h d a b 0 0 0) = _
  refine decode_of (op := 0x012) (fOp_encR ..) (by decide) rfl ?_ hf
  change (some (Instr.sar (fGuard _) (fD _) (fA _) (fB _))) = _
  simp [fGuard]

theorem Encoding.rot (h d a b) : Encoding.Statement (.rot h d a b) := fun hf _ => by
  change decode (encR 0x013 h d a b 0 0 0) = _
  refine decode_of (op := 0x013) (fOp_encR ..) (by decide) rfl ?_ hf
  change (some (Instr.rot (fGuard _) (fD _) (fA _) (fB _))) = _
  simp [fGuard]

theorem Encoding.popc (h d a) : Encoding.Statement (.popc h d a) := fun hf _ => by
  change decode (encR 0x014 h d a 0 0 0 0) = _
  refine decode_of (op := 0x014) (fOp_encR ..) (by decide) rfl ?_ hf
  change (some (Instr.popc (fGuard _) (fD _) (fA _))) = _
  simp [fGuard]

theorem Encoding.clz (h d a) : Encoding.Statement (.clz h d a) := fun hf _ => by
  change decode (encR 0x015 h d a 0 0 0 0) = _
  refine decode_of (op := 0x015) (fOp_encR ..) (by decide) rfl ?_ hf
  change (some (Instr.clz (fGuard _) (fD _) (fA _))) = _
  simp [fGuard]

theorem Encoding.ctz (h d a) : Encoding.Statement (.ctz h d a) := fun hf _ => by
  change decode (encR 0x016 h d a 0 0 0 0) = _
  refine decode_of (op := 0x016) (fOp_encR ..) (by decide) rfl ?_ hf
  change (some (Instr.ctz (fGuard _) (fD _) (fA _))) = _
  simp [fGuard]

theorem Encoding.brev (h d a) : Encoding.Statement (.brev h d a) := fun hf _ => by
  change decode (encR 0x017 h d a 0 0 0 0) = _
  refine decode_of (op := 0x017) (fOp_encR ..) (by decide) rfl ?_ hf
  change (some (Instr.brev (fGuard _) (fD _) (fA _))) = _
  simp [fGuard]

theorem Encoding.bfx (h d a b s) : Encoding.Statement (.bfx h d a b s) := fun hf _ => by
  change decode (encR 0x018 h d a b 0 0 (b1 s)) = _
  refine decode_of (op := 0x018) (fOp_encR ..) (by decide) rfl ?_ hf
  change ((flagOf ((fMod _).toNat)).map (Instr.bfx (fGuard _) (fD _) (fA _) (fB _))) = _
  simp [fGuard]

theorem Encoding.bfi (h d a b c) : Encoding.Statement (.bfi h d a b c) := fun hf _ => by
  change decode (encR 0x019 h d a b c 0 0) = _
  refine decode_of (op := 0x019) (fOp_encR ..) (by decide) rfl ?_ hf
  change (some (Instr.bfi (fGuard _) (fD _) (fA _) (fB _) (fC _))) = _
  simp [fGuard]

theorem Encoding.icmp (h d a b k s) : Encoding.Statement (.icmp h d a b k s) := fun hf _ => by
  change decode (encR 0x01A h d a b 0 0 (m4 (k.code + s59 s))) = _
  refine decode_of (op := 0x01A) (fOp_encR ..) (by decide) rfl ?_ hf
  generalize hw : encR 0x01A h d a b 0 0 (m4 (k.code + s59 s)) = w
  change ((condOf (fMod3 w)).map fun k => Instr.icmp (fGuard w) (fD w) (fA w) (fB w) k (fMod59 w)) = _
  subst hw; simp [fGuard, fMod3_eq, fMod59_eq]

theorem Encoding.sel (h d a b c) : Encoding.Statement (.sel h d a b c) := fun hf _ => by
  change decode (encR 0x01B h d a b c 0 0) = _
  refine decode_of (op := 0x01B) (fOp_encR ..) (by decide) rfl ?_ hf
  change (some (Instr.sel (fGuard _) (fD _) (fA _) (fB _) (fC _))) = _
  simp [fGuard]

theorem Encoding.mov (h d a) : Encoding.Statement (.mov h d a) := fun hf _ => by
  change decode (encR 0x01C h d a 0 0 0 0) = _
  refine decode_of (op := 0x01C) (fOp_encR ..) (by decide) rfl ?_ hf
  change (some (Instr.mov (fGuard _) (fD _) (fA _))) = _
  simp [fGuard]

theorem Encoding.movs (h d r) : Encoding.Statement (.movs h d r) := fun hf _ => by
  change decode (encR 0x01D h d (BitVec.ofNat 8 r.code) 0 0 0 0) = _
  refine decode_of (op := 0x01D) (fOp_encR ..) (by decide) rfl ?_ hf
  change ((sysRegOf (fA _).toNat).map (Instr.movs (fGuard _) (fD _))) = _
  simp [fGuard]

theorem Encoding.iadd64 (h d a b) : Encoding.Statement (.iadd64 h d a b) := fun hf _ => by
  change decode (encR 0x01E h d a b 0 0 0) = _
  refine decode_of (op := 0x01E) (fOp_encR ..) (by decide) rfl ?_ hf
  change (some (Instr.iadd64 (fGuard _) (fD _) (fA _) (fB _))) = _
  simp [fGuard]

theorem Encoding.imad64 (h d a b c s) : Encoding.Statement (.imad64 h d a b c s) := fun hf _ => by
  change decode (encR 0x01F h d a b c 0 (b1 s)) = _
  refine decode_of (op := 0x01F) (fOp_encR ..) (by decide) rfl ?_ hf
  change ((flagOf ((fMod _).toNat)).map (Instr.imad64 (fGuard _) (fD _) (fA _) (fB _) (fC _))) = _
  simp [fGuard]

theorem Encoding.shl64 (h d a b) : Encoding.Statement (.shl64 h d a b) := fun hf _ => by
  change decode (encR 0x020 h d a b 0 0 0) = _
  refine decode_of (op := 0x020) (fOp_encR ..) (by decide) rfl ?_ hf
  change (some (Instr.shl64 (fGuard _) (fD _) (fA _) (fB _))) = _
  simp [fGuard]

theorem Encoding.iaddImm (h d a k) : Encoding.Statement (.iaddImm h d a k) := fun hf _ => by
  change decode (encI 0x030 h d a k) = _
  refine decode_of (op := 0x030) (fOp_encI ..) (by decide) rfl ?_ hf
  change (some (Instr.iaddImm (fGuard _) (fD _) (fA _) (fImm28 _))) = _
  simp [fGuard]

theorem Encoding.imulImm (h d a k) : Encoding.Statement (.imulImm h d a k) := fun hf _ => by
  change decode (encI 0x031 h d a k) = _
  refine decode_of (op := 0x031) (fOp_encI ..) (by decide) rfl ?_ hf
  change (some (Instr.imulImm (fGuard _) (fD _) (fA _) (fImm28 _))) = _
  simp [fGuard]

theorem Encoding.andImm (h d a k) : Encoding.Statement (.andImm h d a k) := fun hf _ => by
  change decode (encI 0x032 h d a k) = _
  refine decode_of (op := 0x032) (fOp_encI ..) (by decide) rfl ?_ hf
  change (some (Instr.andImm (fGuard _) (fD _) (fA _) (fImm28 _))) = _
  simp [fGuard]

theorem Encoding.orImm (h d a k) : Encoding.Statement (.orImm h d a k) := fun hf _ => by
  change decode (encI 0x033 h d a k) = _
  refine decode_of (op := 0x033) (fOp_encI ..) (by decide) rfl ?_ hf
  change (some (Instr.orImm (fGuard _) (fD _) (fA _) (fImm28 _))) = _
  simp [fGuard]

theorem Encoding.xorImm (h d a k) : Encoding.Statement (.xorImm h d a k) := fun hf _ => by
  change decode (encI 0x034 h d a k) = _
  refine decode_of (op := 0x034) (fOp_encI ..) (by decide) rfl ?_ hf
  change (some (Instr.xorImm (fGuard _) (fD _) (fA _) (fImm28 _))) = _
  simp [fGuard]

theorem Encoding.shlImm (h d a k) : Encoding.Statement (.shlImm h d a k) := fun hf _ => by
  change decode (encI 0x035 h d a k) = _
  refine decode_of (op := 0x035) (fOp_encI ..) (by decide) rfl ?_ hf
  change (some (Instr.shlImm (fGuard _) (fD _) (fA _) (fImm28 _))) = _
  simp [fGuard]

theorem Encoding.shrImm (h d a k) : Encoding.Statement (.shrImm h d a k) := fun hf _ => by
  change decode (encI 0x036 h d a k) = _
  refine decode_of (op := 0x036) (fOp_encI ..) (by decide) rfl ?_ hf
  change (some (Instr.shrImm (fGuard _) (fD _) (fA _) (fImm28 _))) = _
  simp [fGuard]

theorem Encoding.sarImm (h d a k) : Encoding.Statement (.sarImm h d a k) := fun hf _ => by
  change decode (encI 0x037 h d a k) = _
  refine decode_of (op := 0x037) (fOp_encI ..) (by decide) rfl ?_ hf
  change (some (Instr.sarImm (fGuard _) (fD _) (fA _) (fImm28 _))) = _
  simp [fGuard]

theorem Encoding.rotImm (h d a k) : Encoding.Statement (.rotImm h d a k) := fun hf _ => by
  change decode (encI 0x038 h d a k) = _
  refine decode_of (op := 0x038) (fOp_encI ..) (by decide) rfl ?_ hf
  change (some (Instr.rotImm (fGuard _) (fD _) (fA _) (fImm28 _))) = _
  simp [fGuard]

theorem Encoding.movi (h d k) : Encoding.Statement (.movi h d k) := fun hf _ => by
  change decode (encI 0x039 h d 0 k) = _
  refine decode_of (op := 0x039) (fOp_encI ..) (by decide) rfl ?_ hf
  change (some (Instr.movi (fGuard _) (fD _) (fImm28 _))) = _
  simp [fGuard]

theorem Encoding.movhi (h d a k) : Encoding.Statement (.movhi h d a k) := fun hf _ => by
  change decode (encI 0x03A h d a k) = _
  refine decode_of (op := 0x03A) (fOp_encI ..) (by decide) rfl ?_ hf
  change (some (Instr.movhi (fGuard _) (fD _) (fA _) (fImm28 _))) = _
  simp [fGuard]

theorem Encoding.lea (h d a k) : Encoding.Statement (.lea h d a k) := fun hf _ => by
  change decode (encI 0x03B h d a k) = _
  refine decode_of (op := 0x03B) (fOp_encI ..) (by decide) rfl ?_ hf
  change (some (Instr.lea (fGuard _) (fD _) (fA _) (fImm28 _))) = _
  simp [fGuard]

theorem Encoding.shfl (h d a b m) : Encoding.Statement (.shfl h d a b m) := fun hf _ => by
  change decode (encR 0x040 h d a b 0 0 (m4 m.code)) = _
  refine decode_of (op := 0x040) (fOp_encR ..) (by decide) rfl ?_ hf
  change ((shflOf ((fMod _).toNat)).map (Instr.shfl (fGuard _) (fD _) (fA _) (fB _))) = _
  simp [fGuard]

theorem Encoding.ballot (h d a) : Encoding.Statement (.ballot h d a) := fun hf _ => by
  change decode (encR 0x041 h d a 0 0 0 0) = _
  refine decode_of (op := 0x041) (fOp_encR ..) (by decide) rfl ?_ hf
  change (some (Instr.ballot (fGuard _) (fD _) (fA _))) = _
  simp [fGuard]

theorem Encoding.vote (h d a m) : Encoding.Statement (.vote h d a m) := fun hf _ => by
  change decode (encR 0x042 h d a 0 0 0 (m4 m.code)) = _
  refine decode_of (op := 0x042) (fOp_encR ..) (by decide) rfl ?_ hf
  change ((voteOf ((fMod _).toNat)).map (Instr.vote (fGuard _) (fD _) (fA _))) = _
  simp [fGuard]

theorem Encoding.lprefix (h d a) : Encoding.Statement (.lprefix h d a) := fun hf _ => by
  change decode (encR 0x043 h d a 0 0 0 0) = _
  refine decode_of (op := 0x043) (fOp_encR ..) (by decide) rfl ?_ hf
  change (some (Instr.lprefix (fGuard _) (fD _) (fA _))) = _
  simp [fGuard]

theorem Encoding.bcast (h d a b) : Encoding.Statement (.bcast h d a b) := fun hf _ => by
  change decode (encR 0x044 h d a b 0 0 0) = _
  refine decode_of (op := 0x044) (fOp_encR ..) (by decide) rfl ?_ hf
  change (some (Instr.bcast (fGuard _) (fD _) (fA _) (fB _))) = _
  simp [fGuard]

theorem Encoding.elect (h d) : Encoding.Statement (.elect h d) := fun hf _ => by
  change decode (encR 0x045 h d 0 0 0 0 0) = _
  refine decode_of (op := 0x045) (fOp_encR ..) (by decide) rfl ?_ hf
  change (some (Instr.elect (fGuard _) (fD _))) = _
  simp [fGuard]

theorem Encoding.br (h p o) : Encoding.Statement (.br h p o) := fun hf _ => by
  change decode (encB 0x050 h 0 0 p o) = _
  refine decode_of (op := 0x050) (fOp_encB ..) (by decide) rfl ?_ hf
  change (some (Instr.br (fGuard _) (fPrio _) (fOff _))) = _
  simp [fGuard]

theorem Encoding.brc (h a p o) : Encoding.Statement (.brc h a p o) := fun hf _ => by
  change decode (encB 0x051 h 0 a p o) = _
  refine decode_of (op := 0x051) (fOp_encB ..) (by decide) rfl ?_ hf
  change (some (Instr.brc (fGuard _) (fA _) (fPrio _) (fOff _))) = _
  simp [fGuard]

theorem Encoding.jmp (h d a p) : Encoding.Statement (.jmp h d a p) := fun hf _ => by
  change decode (encB 0x052 h d a p 0) = _
  refine decode_of (op := 0x052) (fOp_encB ..) (by decide) rfl ?_ hf
  change (some (Instr.jmp (fGuard _) (fD _) (fA _) (fPrio _))) = _
  simp [fGuard]

theorem Encoding.call (h d p o) : Encoding.Statement (.call h d p o) := fun hf _ => by
  change decode (encB 0x053 h d 0 p o) = _
  refine decode_of (op := 0x053) (fOp_encB ..) (by decide) rfl ?_ hf
  change (some (Instr.call (fGuard _) (fD _) (fPrio _) (fOff _))) = _
  simp [fGuard]

theorem Encoding.ret (h a p) : Encoding.Statement (.ret h a p) := fun hf _ => by
  change decode (encB 0x054 h 0 a p 0) = _
  refine decode_of (op := 0x054) (fOp_encB ..) (by decide) rfl ?_ hf
  change (some (Instr.ret (fGuard _) (fA _) (fPrio _))) = _
  simp [fGuard]

theorem Encoding.prio (p) : Encoding.Statement (.prio p) := fun hf _ => by
  change decode (encB 0x055 noGuard 0 0 p 0) = _
  refine decode_of (op := 0x055) (fOp_encB ..) (by decide) rfl ?_ hf
  change (if fG _ = 255 then some (Instr.prio (fPrio _)) else none) = _
  simp [noGuard]

theorem Encoding.exit (h) : Encoding.Statement (.exit h) := fun hf _ => by
  change decode (encR 0x056 h 0 0 0 0 0 0) = _
  refine decode_of (op := 0x056) (fOp_encR ..) (by decide) rfl ?_ hf
  change (some (Instr.exit (fGuard _))) = _
  simp [fGuard]

theorem Encoding.yield (h) : Encoding.Statement (.yield h) := fun hf _ => by
  change decode (encR 0x057 h 0 0 0 0 0 0) = _
  refine decode_of (op := 0x057) (fOp_encR ..) (by decide) rfl ?_ hf
  change (some (Instr.yield (fGuard _))) = _
  simp [fGuard]

theorem Encoding.nop (h) : Encoding.Statement (.nop h) := fun hf _ => by
  change decode (encR 0x058 h 0 0 0 0 0 0) = _
  refine decode_of (op := 0x058) (fOp_encR ..) (by decide) rfl ?_ hf
  change (some (Instr.nop (fGuard _))) = _
  simp [fGuard]

theorem Encoding.brk (h c) : Encoding.Statement (.brk h c) := fun hf _ => by
  change decode (encR 0x059 h 0 0 0 c 0 0) = _
  refine decode_of (op := 0x059) (fOp_encR ..) (by decide) rfl ?_ hf
  change (some (Instr.brk (fGuard _) (fC _))) = _
  simp [fGuard]

theorem Encoding.vgrow (h d n) : Encoding.Statement (.vgrow h d n) := fun hf _ => by
  change decode (encR 0x05A h d 0 0 n 0 0) = _
  refine decode_of (op := 0x05A) (fOp_encR ..) (by decide) rfl ?_ hf
  change (some (Instr.vgrow (fGuard _) (fD _) (fC _))) = _
  simp [fGuard]

theorem Encoding.vshrink (h n) : Encoding.Statement (.vshrink h n) := fun hf _ => by
  change decode (encR 0x05B h 0 0 0 n 0 0) = _
  refine decode_of (op := 0x05B) (fOp_encR ..) (by decide) rfl ?_ hf
  change (some (Instr.vshrink (fGuard _) (fC _))) = _
  simp [fGuard]

theorem Encoding.fadd (h n d a b) : Encoding.Statement (.fadd h n d a b) := fun hf _ => by
  change decode (encR 0x080 h d a b 0 n 0) = _
  refine decode_of (op := 0x080) (fOp_encR ..) (by decide) rfl ?_ hf
  change (some (Instr.fadd (fGuard _) (fSlot _) (fD _) (fA _) (fB _))) = _
  simp [fGuard]

theorem Encoding.fsub (h n d a b) : Encoding.Statement (.fsub h n d a b) := fun hf _ => by
  change decode (encR 0x081 h d a b 0 n 0) = _
  refine decode_of (op := 0x081) (fOp_encR ..) (by decide) rfl ?_ hf
  change (some (Instr.fsub (fGuard _) (fSlot _) (fD _) (fA _) (fB _))) = _
  simp [fGuard]

theorem Encoding.fmul (h n d a b) : Encoding.Statement (.fmul h n d a b) := fun hf _ => by
  change decode (encR 0x082 h d a b 0 n 0) = _
  refine decode_of (op := 0x082) (fOp_encR ..) (by decide) rfl ?_ hf
  change (some (Instr.fmul (fGuard _) (fSlot _) (fD _) (fA _) (fB _))) = _
  simp [fGuard]

theorem Encoding.fma (h n d a b c) : Encoding.Statement (.fma h n d a b c) := fun hf _ => by
  change decode (encR 0x083 h d a b c n 0) = _
  refine decode_of (op := 0x083) (fOp_encR ..) (by decide) rfl ?_ hf
  change (some (Instr.fma (fGuard _) (fSlot _) (fD _) (fA _) (fB _) (fC _))) = _
  simp [fGuard]

theorem Encoding.fmin (h n d a b) : Encoding.Statement (.fmin h n d a b) := fun hf _ => by
  change decode (encR 0x084 h d a b 0 n 0) = _
  refine decode_of (op := 0x084) (fOp_encR ..) (by decide) rfl ?_ hf
  change (some (Instr.fmin (fGuard _) (fSlot _) (fD _) (fA _) (fB _))) = _
  simp [fGuard]

theorem Encoding.fmax (h n d a b) : Encoding.Statement (.fmax h n d a b) := fun hf _ => by
  change decode (encR 0x085 h d a b 0 n 0) = _
  refine decode_of (op := 0x085) (fOp_encR ..) (by decide) rfl ?_ hf
  change (some (Instr.fmax (fGuard _) (fSlot _) (fD _) (fA _) (fB _))) = _
  simp [fGuard]

theorem Encoding.fabs (h n d a) : Encoding.Statement (.fabs h n d a) := fun hf _ => by
  change decode (encR 0x086 h d a 0 0 n 0) = _
  refine decode_of (op := 0x086) (fOp_encR ..) (by decide) rfl ?_ hf
  change (some (Instr.fabs (fGuard _) (fSlot _) (fD _) (fA _))) = _
  simp [fGuard]

theorem Encoding.fneg (h n d a) : Encoding.Statement (.fneg h n d a) := fun hf _ => by
  change decode (encR 0x087 h d a 0 0 n 0) = _
  refine decode_of (op := 0x087) (fOp_encR ..) (by decide) rfl ?_ hf
  change (some (Instr.fneg (fGuard _) (fSlot _) (fD _) (fA _))) = _
  simp [fGuard]

theorem Encoding.fcmp (h k n d a b) : Encoding.Statement (.fcmp h k n d a b) := fun hf _ => by
  change decode (encR 0x088 h d a b 0 n (m4 k.code)) = _
  refine decode_of (op := 0x088) (fOp_encR ..) (by decide) rfl ?_ hf
  change (some (Instr.fcmp (fGuard _) (fcondOf (fMod3 _)) (fSlot _) (fD _) (fA _) (fB _))) = _
  simp [fGuard, fMod3_eq]

theorem Encoding.fclass (h n d a k) : Encoding.Statement (.fclass h n d a k) := fun hf _ => by
  change decode (encR 0x089 h d a 0 k n 0) = _
  refine decode_of (op := 0x089) (fOp_encR ..) (by decide) rfl ?_ hf
  change (some (Instr.fclass (fGuard _) (fSlot _) (fD _) (fA _) (fC _))) = _
  simp [fGuard]

theorem Encoding.fdiv (h n d a b) : Encoding.Statement (.fdiv h n d a b) := fun hf _ => by
  change decode (encR 0x08A h d a b 0 n 0) = _
  refine decode_of (op := 0x08A) (fOp_encR ..) (by decide) rfl ?_ hf
  change (some (Instr.fdiv (fGuard _) (fSlot _) (fD _) (fA _) (fB _))) = _
  simp [fGuard]

theorem Encoding.frcp (h n d a) : Encoding.Statement (.frcp h n d a) := fun hf _ => by
  change decode (encR 0x08B h d a 0 0 n 0) = _
  refine decode_of (op := 0x08B) (fOp_encR ..) (by decide) rfl ?_ hf
  change (some (Instr.frcp (fGuard _) (fSlot _) (fD _) (fA _))) = _
  simp [fGuard]

theorem Encoding.fsqrt (h n d a) : Encoding.Statement (.fsqrt h n d a) := fun hf _ => by
  change decode (encR 0x08C h d a 0 0 n 0) = _
  refine decode_of (op := 0x08C) (fOp_encR ..) (by decide) rfl ?_ hf
  change (some (Instr.fsqrt (fGuard _) (fSlot _) (fD _) (fA _))) = _
  simp [fGuard]

theorem Encoding.frsq (h n d a) : Encoding.Statement (.frsq h n d a) := fun hf _ => by
  change decode (encR 0x08D h d a 0 0 n 0) = _
  refine decode_of (op := 0x08D) (fOp_encR ..) (by decide) rfl ?_ hf
  change (some (Instr.frsq (fGuard _) (fSlot _) (fD _) (fA _))) = _
  simp [fGuard]

theorem Encoding.fexp2 (h n d a) : Encoding.Statement (.fexp2 h n d a) := fun hf _ => by
  change decode (encR 0x08E h d a 0 0 n 0) = _
  refine decode_of (op := 0x08E) (fOp_encR ..) (by decide) rfl ?_ hf
  change (some (Instr.fexp2 (fGuard _) (fSlot _) (fD _) (fA _))) = _
  simp [fGuard]

theorem Encoding.flog2 (h n d a) : Encoding.Statement (.flog2 h n d a) := fun hf _ => by
  change decode (encR 0x08F h d a 0 0 n 0) = _
  refine decode_of (op := 0x08F) (fOp_encR ..) (by decide) rfl ?_ hf
  change (some (Instr.flog2 (fGuard _) (fSlot _) (fD _) (fA _))) = _
  simp [fGuard]

theorem Encoding.fsinpi (h n d a) : Encoding.Statement (.fsinpi h n d a) := fun hf _ => by
  change decode (encR 0x090 h d a 0 0 n 0) = _
  refine decode_of (op := 0x090) (fOp_encR ..) (by decide) rfl ?_ hf
  change (some (Instr.fsinpi (fGuard _) (fSlot _) (fD _) (fA _))) = _
  simp [fGuard]

theorem Encoding.fcospi (h n d a) : Encoding.Statement (.fcospi h n d a) := fun hf _ => by
  change decode (encR 0x091 h d a 0 0 n 0) = _
  refine decode_of (op := 0x091) (fOp_encR ..) (by decide) rfl ?_ hf
  change (some (Instr.fcospi (fGuard _) (fSlot _) (fD _) (fA _))) = _
  simp [fGuard]

theorem Encoding.ftanh (h n d a) : Encoding.Statement (.ftanh h n d a) := fun hf _ => by
  change decode (encR 0x092 h d a 0 0 n 0) = _
  refine decode_of (op := 0x092) (fOp_encR ..) (by decide) rfl ?_ hf
  change (some (Instr.ftanh (fGuard _) (fSlot _) (fD _) (fA _))) = _
  simp [fGuard]

theorem Encoding.fround (h r n d a) : Encoding.Statement (.fround h r n d a) := fun hf _ => by
  change decode (encR 0x093 h d a 0 0 n (m4 r.code)) = _
  refine decode_of (op := 0x093) (fOp_encR ..) (by decide) rfl ?_ hf
  generalize hw : encR 0x093 h d a 0 0 n (m4 r.code) = w
  change ((rmOf (fMod3 w)).map fun r => Instr.fround (fGuard w) r (fSlot w) (fD w) (fA w)) = _
  subst hw; simp [fGuard, fMod3_eq]

theorem Encoding.fscale (h n d a b) : Encoding.Statement (.fscale h n d a b) := fun hf _ => by
  change decode (encR 0x094 h d a b 0 n 0) = _
  refine decode_of (op := 0x094) (fOp_encR ..) (by decide) rfl ?_ hf
  change (some (Instr.fscale (fGuard _) (fSlot _) (fD _) (fA _) (fB _))) = _
  simp [fGuard]

theorem Encoding.fcvt (h n src d a b o) : Encoding.Statement (.fcvt h n src d a b o) := fun hf _ => by
  change decode (encR 0x095 h d a b o n src) = _
  refine decode_of (op := 0x095) (fOp_encR ..) (by decide) rfl ?_ hf
  change (some (Instr.fcvt (fGuard _) (fSlot _) (fMod _) (fD _) (fA _) (fB _) (fC _))) = _
  simp [fGuard]

theorem Encoding.ftoi (h r s n d a k) : Encoding.Statement (.ftoi h r s n d a k) := fun hf _ => by
  change decode (encR 0x096 h d a 0 k n (m4 (r.code + s59 s))) = _
  refine decode_of (op := 0x096) (fOp_encR ..) (by decide) rfl ?_ hf
  generalize hw : encR 0x096 h d a 0 k n (m4 (r.code + s59 s)) = w
  change ((rmOf (fMod3 w)).map fun r => Instr.ftoi (fGuard w) r (fMod59 w) (fSlot w) (fD w) (fA w) (fC w)) = _
  subst hw; simp [fGuard, fMod3_eq, fMod59_eq]

theorem Encoding.itof (h s n d a) : Encoding.Statement (.itof h s n d a) := fun hf _ => by
  change decode (encR 0x097 h d a 0 0 n (m4 (s59 s))) = _
  refine decode_of (op := 0x097) (fOp_encR ..) (by decide) rfl ?_ hf
  change (some (Instr.itof (fGuard _) (fMod59 _) (fSlot _) (fD _) (fA _))) = _
  simp [fGuard, fMod59_eq]

theorem Encoding.fpack (h n d a b k) : Encoding.Statement (.fpack h n d a b k) := fun hf _ => by
  change decode (encR 0x098 h d a b k n 0) = _
  refine decode_of (op := 0x098) (fOp_encR ..) (by decide) rfl ?_ hf
  change (some (Instr.fpack (fGuard _) (fSlot _) (fD _) (fA _) (fB _) (fC _))) = _
  simp [fGuard]

theorem Encoding.funpack (h s n d a k) : Encoding.Statement (.funpack h s n d a k) := fun hf _ => by
  change decode (encR 0x099 h d a 0 k n (m4 (s59 s))) = _
  refine decode_of (op := 0x099) (fOp_encR ..) (by decide) rfl ?_ hf
  change (some (Instr.funpack (fGuard _) (fMod59 _) (fSlot _) (fD _) (fA _) (fC _))) = _
  simp [fGuard, fMod59_eq]

theorem Encoding.fdot (h n acc d a b c) : Encoding.Statement (.fdot h n acc d a b c) := fun hf _ => by
  change decode (encR 0x09A h d a b c n acc) = _
  refine decode_of (op := 0x09A) (fOp_encR ..) (by decide) rfl ?_ hf
  change (some (Instr.fdot (fGuard _) (fSlot _) (fMod _) (fD _) (fA _) (fB _) (fC _))) = _
  simp [fGuard]

theorem Encoding.setfmt (h n a) : Encoding.Statement (.setfmt h n a) := fun hf _ => by
  change decode (encR 0x09B h 0 a 0 0 n 0) = _
  refine decode_of (op := 0x09B) (fOp_encR ..) (by decide) rfl ?_ hf
  change (some (Instr.setfmt (fGuard _) (fSlot _) (fA _))) = _
  simp [fGuard]

theorem Encoding.getfmt (h n d) : Encoding.Statement (.getfmt h n d) := fun hf _ => by
  change decode (encR 0x09C h d 0 0 0 n 0) = _
  refine decode_of (op := 0x09C) (fOp_encR ..) (by decide) rfl ?_ hf
  change (some (Instr.getfmt (fGuard _) (fSlot _) (fD _))) = _
  simp [fGuard]

theorem Encoding.fflags (h d mask) : Encoding.Statement (.fflags h d mask) := fun hf _ => by
  change decode (encR 0x09D h d 0 0 mask 0 0) = _
  refine decode_of (op := 0x09D) (fOp_encR ..) (by decide) rfl ?_ hf
  change (some (Instr.fflags (fGuard _) (fD _) (fC _))) = _
  simp [fGuard]

theorem Encoding.ld (h d a b imm w acq) : Encoding.Statement (.ld h d a b imm w acq) := fun hf _ => by
  change decode (encM 0x100 h d a b imm (wo w.code (acqCode acq))) = _
  refine decode_of (op := 0x100) (fOp_encM ..) (by decide) rfl ?_ hf
  change ((ldAcq _).map (Instr.ld (fGuard _) (fD _) (fA _) (fB _) (fImm16 _) (widthOf ((fCode _).toNat % 4)))) = _
  simp [fGuard]

theorem Encoding.st (h d a b imm w rel) : Encoding.Statement (.st h d a b imm w rel) := fun hf _ => by
  change decode (encM 0x101 h d a b imm (wo w.code (relCode rel))) = _
  refine decode_of (op := 0x101) (fOp_encM ..) (by decide) rfl ?_ hf
  change ((stRel _).map (Instr.st (fGuard _) (fD _) (fA _) (fB _) (fImm16 _) (widthOf ((fCode _).toNat % 4)))) = _
  simp [fGuard]

theorem Encoding.ldw (h n d a b imm) : Encoding.Statement (.ldw h n d a b imm) := fun hf _ => by
  change decode (encM 0x102 h d a b imm n) = _
  refine decode_of (op := 0x102) (fOp_encM ..) (by decide) rfl ?_ hf
  change (some (Instr.ldw (fGuard _) (fSlotM _) (fD _) (fA _) (fB _) (fImm16 _))) = _
  simp [fGuard]

theorem Encoding.stw (h n d a b imm) : Encoding.Statement (.stw h n d a b imm) := fun hf _ => by
  change decode (encM 0x103 h d a b imm n) = _
  refine decode_of (op := 0x103) (fOp_encM ..) (by decide) rfl ?_ hf
  change (some (Instr.stw (fGuard _) (fSlotM _) (fD _) (fA _) (fB _) (fImm16 _))) = _
  simp [fGuard]

theorem Encoding.ldResid (h d a m imm w acq) : Encoding.Statement (.ldResid h d a m imm w acq) := fun hf _ => by
  change decode (encM 0x104 h d a m imm (wo w.code (acqCode acq))) = _
  refine decode_of (op := 0x104) (fOp_encM ..) (by decide) rfl ?_ hf
  change ((ldAcq _).map (Instr.ldResid (fGuard _) (fD _) (fA _) (fB _) (fImm16 _) (widthOf ((fCode _).toNat % 4)))) = _
  simp [fGuard]

theorem Encoding.ldwResid (h n d a m imm) : Encoding.Statement (.ldwResid h n d a m imm) := fun hf _ => by
  change decode (encM 0x105 h d a m imm n) = _
  refine decode_of (op := 0x105) (fOp_encM ..) (by decide) rfl ?_ hf
  change (some (Instr.ldwResid (fGuard _) (fSlotM _) (fD _) (fA _) (fB _) (fImm16 _))) = _
  simp [fGuard]

theorem Encoding.fence (h sc) : Encoding.Statement (.fence h sc) := fun hf _ => by
  change decode (encR 0x106 h 0 0 0 0 0 (m4 sc.code)) = _
  refine decode_of (op := 0x106) (fOp_encR ..) (by decide) rfl ?_ hf
  change ((scopeOf (fMod3 _)).map (Instr.fence (fGuard _))) = _
  simp [fGuard, fMod3_eq]

theorem Encoding.pagein (h a b imm) : Encoding.Statement (.pagein h a b imm) := fun hf _ => by
  change decode (encM 0x107 h 0 a b imm 0) = _
  refine decode_of (op := 0x107) (fOp_encM ..) (by decide) rfl ?_ hf
  change (some (Instr.pagein (fGuard _) (fA _) (fB _) (fImm16 _))) = _
  simp [fGuard]

theorem Encoding.probe (h d a b imm) : Encoding.Statement (.probe h d a b imm) := fun hf _ => by
  change decode (encM 0x108 h d a b imm 0) = _
  refine decode_of (op := 0x108) (fOp_encM ..) (by decide) rfl ?_ hf
  change (some (Instr.probe (fGuard _) (fD _) (fA _) (fB _) (fImm16 _))) = _
  simp [fGuard]

theorem Encoding.atomAdd (h d a b imm w o) : Encoding.Statement (.atomAdd h d a b imm w o) := fun hf _ => by
  change decode (encM 0x109 h d a b imm (wo (atomWidth w) o.code)) = _
  refine decode_of (op := 0x109) (fOp_encM ..) (by decide) rfl ?_ hf
  generalize hw : encM 0x109 h d a b imm (wo (atomWidth w) o.code) = w
  change ((atomW64 w).map fun x => Instr.atomAdd (fGuard w) (fD w) (fA w) (fB w) (fImm16 w) x (orderOf ((fCode w).toNat / 4))) = _
  subst hw; simp [fGuard]

theorem Encoding.atomMin (h d a b imm w o) : Encoding.Statement (.atomMin h d a b imm w o) := fun hf _ => by
  change decode (encM 0x10A h d a b imm (wo (atomWidth w) o.code)) = _
  refine decode_of (op := 0x10A) (fOp_encM ..) (by decide) rfl ?_ hf
  generalize hw : encM 0x10A h d a b imm (wo (atomWidth w) o.code) = w
  change ((atomW64 w).map fun x => Instr.atomMin (fGuard w) (fD w) (fA w) (fB w) (fImm16 w) x (orderOf ((fCode w).toNat / 4))) = _
  subst hw; simp [fGuard]

theorem Encoding.atomMax (h d a b imm w o) : Encoding.Statement (.atomMax h d a b imm w o) := fun hf _ => by
  change decode (encM 0x10B h d a b imm (wo (atomWidth w) o.code)) = _
  refine decode_of (op := 0x10B) (fOp_encM ..) (by decide) rfl ?_ hf
  generalize hw : encM 0x10B h d a b imm (wo (atomWidth w) o.code) = w
  change ((atomW64 w).map fun x => Instr.atomMax (fGuard w) (fD w) (fA w) (fB w) (fImm16 w) x (orderOf ((fCode w).toNat / 4))) = _
  subst hw; simp [fGuard]

theorem Encoding.atomAnd (h d a b imm w o) : Encoding.Statement (.atomAnd h d a b imm w o) := fun hf _ => by
  change decode (encM 0x10C h d a b imm (wo (atomWidth w) o.code)) = _
  refine decode_of (op := 0x10C) (fOp_encM ..) (by decide) rfl ?_ hf
  generalize hw : encM 0x10C h d a b imm (wo (atomWidth w) o.code) = w
  change ((atomW64 w).map fun x => Instr.atomAnd (fGuard w) (fD w) (fA w) (fB w) (fImm16 w) x (orderOf ((fCode w).toNat / 4))) = _
  subst hw; simp [fGuard]

theorem Encoding.atomOr (h d a b imm w o) : Encoding.Statement (.atomOr h d a b imm w o) := fun hf _ => by
  change decode (encM 0x10D h d a b imm (wo (atomWidth w) o.code)) = _
  refine decode_of (op := 0x10D) (fOp_encM ..) (by decide) rfl ?_ hf
  generalize hw : encM 0x10D h d a b imm (wo (atomWidth w) o.code) = w
  change ((atomW64 w).map fun x => Instr.atomOr (fGuard w) (fD w) (fA w) (fB w) (fImm16 w) x (orderOf ((fCode w).toNat / 4))) = _
  subst hw; simp [fGuard]

theorem Encoding.atomXor (h d a b imm w o) : Encoding.Statement (.atomXor h d a b imm w o) := fun hf _ => by
  change decode (encM 0x10E h d a b imm (wo (atomWidth w) o.code)) = _
  refine decode_of (op := 0x10E) (fOp_encM ..) (by decide) rfl ?_ hf
  generalize hw : encM 0x10E h d a b imm (wo (atomWidth w) o.code) = w
  change ((atomW64 w).map fun x => Instr.atomXor (fGuard w) (fD w) (fA w) (fB w) (fImm16 w) x (orderOf ((fCode w).toNat / 4))) = _
  subst hw; simp [fGuard]

theorem Encoding.atomXchg (h d a b imm w o) : Encoding.Statement (.atomXchg h d a b imm w o) := fun hf _ => by
  change decode (encM 0x10F h d a b imm (wo (atomWidth w) o.code)) = _
  refine decode_of (op := 0x10F) (fOp_encM ..) (by decide) rfl ?_ hf
  generalize hw : encM 0x10F h d a b imm (wo (atomWidth w) o.code) = w
  change ((atomW64 w).map fun x => Instr.atomXchg (fGuard w) (fD w) (fA w) (fB w) (fImm16 w) x (orderOf ((fCode w).toNat / 4))) = _
  subst hw; simp [fGuard]

theorem Encoding.atomCas (h d a b imm w o) : Encoding.Statement (.atomCas h d a b imm w o) := fun hf _ => by
  change decode (encM 0x110 h d a b imm (wo (atomWidth w) o.code)) = _
  refine decode_of (op := 0x110) (fOp_encM ..) (by decide) rfl ?_ hf
  generalize hw : encM 0x110 h d a b imm (wo (atomWidth w) o.code) = w
  change ((atomW64 w).map fun x => Instr.atomCas (fGuard w) (fD w) (fA w) (fB w) (fImm16 w) x (orderOf ((fCode w).toNat / 4))) = _
  subst hw; simp [fGuard]

theorem Encoding.atomInc (h d a b imm w o) : Encoding.Statement (.atomInc h d a b imm w o) := fun hf _ => by
  change decode (encM 0x111 h d a b imm (wo (atomWidth w) o.code)) = _
  refine decode_of (op := 0x111) (fOp_encM ..) (by decide) rfl ?_ hf
  generalize hw : encM 0x111 h d a b imm (wo (atomWidth w) o.code) = w
  change ((atomW64 w).map fun x => Instr.atomInc (fGuard w) (fD w) (fA w) (fB w) (fImm16 w) x (orderOf ((fCode w).toNat / 4))) = _
  subst hw; simp [fGuard]

theorem Encoding.atomDec (h d a b imm w o) : Encoding.Statement (.atomDec h d a b imm w o) := fun hf _ => by
  change decode (encM 0x112 h d a b imm (wo (atomWidth w) o.code)) = _
  refine decode_of (op := 0x112) (fOp_encM ..) (by decide) rfl ?_ hf
  generalize hw : encM 0x112 h d a b imm (wo (atomWidth w) o.code) = w
  change ((atomW64 w).map fun x => Instr.atomDec (fGuard w) (fD w) (fA w) (fB w) (fImm16 w) x (orderOf ((fCode w).toNat / 4))) = _
  subst hw; simp [fGuard]

theorem Encoding.atomFadd (h n d a b imm o) : Encoding.Statement (.atomFadd h n d a b imm o) := fun hf _ => by
  change decode (encM (0x120 ||| n.setWidth 10) h d a b imm (wo 0 o.code)) = _
  have key : ∀ k : Nat, k < 16 → n = BitVec.ofNat 4 k → ∀ w, parse (0x120 + k) w = some (.atomFadd (fGuard w) n (fD w)
      (fA w) (fB w) (fImm16 w) (orderOf ((fCode w).toNat / 4))) := by
    intro k hk hn w
    subst hn
    interval_cases k <;> rfl
  have hn : n = BitVec.ofNat 4 n.toNat := by simp
  have ho : 0x120 ||| n.setWidth 10 = BitVec.ofNat 10 (0x120 + n.toNat) := by
    have : ∀ x : BitVec 4, 0x120 ||| x.setWidth 10 = BitVec.ofNat 10 (0x120 + x.toNat) := by decide
    exact this n
  refine decode_of (op := 0x120 + n.toNat) ((fOp_encM ..).trans ho) (by omega) ?_ ?_ hf
  · simp only [assigned, Bool.or_eq_true, Bool.and_eq_true, decide_eq_true_eq]
    omega
  · rw [key n.toNat n.isLt hn]
    simp [fGuard]

theorem Encoding.copy (h t n d a) : Encoding.Statement (.copy h t n d a) := fun hf _ => by
  have hz := firstFlaw_none (l := [(d != 255, .noProgress), (evenReg a, .oddPair), (t != .none || n == 0, .reserved)]) hf _ (.tail _ (.tail _ (.head _)))
  change decode (encR 0x130 h d a 0 0 n (m4 t.code)) = _
  refine decode_of (op := 0x130) (fOp_encR ..) (by decide) rfl ?_ hf
  generalize hw : encR 0x130 h d a 0 0 n (m4 t.code) = w
  change ((tileOf ((fMod w).toNat)).map fun t => Instr.copy (fGuard w) t (if t = .none then 0 else fSlot w) (fD w) (fA w)) = _
  subst hw; cases t <;> simp_all [fGuard]

theorem Encoding.gather (h t n d a) : Encoding.Statement (.gather h t n d a) := fun hf _ => by
  have hz := firstFlaw_none (l := [(d != 255, .noProgress), (evenReg a, .oddPair), (t != .none || n == 0, .reserved)]) hf _ (.tail _ (.tail _ (.head _)))
  change decode (encR 0x131 h d a 0 0 n (m4 t.code)) = _
  refine decode_of (op := 0x131) (fOp_encR ..) (by decide) rfl ?_ hf
  generalize hw : encR 0x131 h d a 0 0 n (m4 t.code) = w
  change ((tileOf ((fMod w).toNat)).map fun t => Instr.gather (fGuard w) t (if t = .none then 0 else fSlot w) (fD w) (fA w)) = _
  subst hw; cases t <;> simp_all [fGuard]

theorem Encoding.scatter (h t n d a) : Encoding.Statement (.scatter h t n d a) := fun hf _ => by
  have hz := firstFlaw_none (l := [(d != 255, .noProgress), (evenReg a, .oddPair), (t != .none || n == 0, .reserved)]) hf _ (.tail _ (.tail _ (.head _)))
  change decode (encR 0x132 h d a 0 0 n (m4 t.code)) = _
  refine decode_of (op := 0x132) (fOp_encR ..) (by decide) rfl ?_ hf
  generalize hw : encR 0x132 h d a 0 0 n (m4 t.code) = w
  change ((tileOf ((fMod w).toNat)).map fun t => Instr.scatter (fGuard w) t (if t = .none then 0 else fSlot w) (fD w) (fA w)) = _
  subst hw; cases t <;> simp_all [fGuard]

theorem Encoding.cmpst (h n d a b) : Encoding.Statement (.cmpst h n d a b) := fun hf _ => by
  change decode (encR 0x133 h d a b 0 n 0) = _
  refine decode_of (op := 0x133) (fOp_encR ..) (by decide) rfl ?_ hf
  change (some (Instr.cmpst (fGuard _) (fSlot _) (fD _) (fA _) (fB _))) = _
  simp [fGuard]

theorem Encoding.expld (h n d a b) : Encoding.Statement (.expld h n d a b) := fun hf _ => by
  change decode (encR 0x134 h d a b 0 n 0) = _
  refine decode_of (op := 0x134) (fOp_encR ..) (by decide) rfl ?_ hf
  change (some (Instr.expld (fGuard _) (fSlot _) (fD _) (fA _) (fB _))) = _
  simp [fGuard]

theorem Encoding.xput (h d a) : Encoding.Statement (.xput h d a) := fun hf _ => by
  change decode (encR 0x135 h d a 0 0 0 0) = _
  refine decode_of (op := 0x135) (fOp_encR ..) (by decide) rfl ?_ hf
  change (some (Instr.xput (fGuard _) (fD _) (fA _))) = _
  simp [fGuard]

theorem Encoding.xget (h d a) : Encoding.Statement (.xget h d a) := fun hf _ => by
  change decode (encR 0x136 h d a 0 0 0 0) = _
  refine decode_of (op := 0x136) (fOp_encR ..) (by decide) rfl ?_ hf
  change (some (Instr.xget (fGuard _) (fD _) (fA _))) = _
  simp [fGuard]

theorem Encoding.xatom (h op n d a b c) : Encoding.Statement (.xatom h op n d a b c) := fun hf _ => by
  have hz := firstFlaw_none (l := [(d != 255, .noProgress), (evenReg a, .oddPair),
      ((op == .fadd || n == 0) && (op == .cas || c == 0), .reserved)]) hf _ (.tail _ (.tail _ (.head _)))
  change decode (encR 0x137 h d a b c n (m4 op.code)) = _
  refine decode_of (op := 0x137) (fOp_encR ..) (by decide) rfl ?_ hf
  generalize hw : encR 0x137 h d a b c n (m4 op.code) = w
  change ((atomOpOf ((fMod w).toNat)).map fun op => Instr.xatom (fGuard w) op (if op = .fadd then (fSlot w) else 0) (fD w) (fA w) (fB w) (if op = .cas then (fC w) else 0)) = _
  subst hw; cases op <;> simp_all [fGuard]

theorem Encoding.xred (h op n d a) : Encoding.Statement (.xred h op n d a) := fun hf _ => by
  change decode (encR 0x138 h d a 0 0 n (m4 op.code)) = _
  refine decode_of (op := 0x138) (fOp_encR ..) (by decide) rfl ?_ hf
  generalize hw : encR 0x138 h d a 0 0 n (m4 op.code) = w
  change ((xredOf ((fMod w).toNat)).map fun op => Instr.xred (fGuard w) op (fSlot w) (fD w) (fA w)) = _
  subst hw; simp [fGuard]

theorem Encoding.bankop (h op n a b c) : Encoding.Statement (.bankop h op n a b c) := fun hf _ => by
  have hz := firstFlaw_none (l := [(evenReg a, .oddPair), (op != .cvt || c < 16, .fieldCode),
      ((op != .transp || (n == 0 && c == 0)) && (op != .zero || c == 0), .reserved)]) hf _ (.tail _ (.tail _ (.head _)))
  change decode (encR 0x139 h 0 a b c n (m4 op.code)) = _
  refine decode_of (op := 0x139) (fOp_encR ..) (by decide) rfl ?_ hf
  generalize hw : encR 0x139 h 0 a b c n (m4 op.code) = w
  change ((bankOpOf ((fMod w).toNat)).map fun op => Instr.bankop (fGuard w) op (if op = .transp then 0 else (fSlot w)) (fA w) (fB w) (if op = .transp ∨ op = .zero then 0 else (fC w))) = _
  subst hw; cases op <;> simp_all [fGuard]

theorem Encoding.mma (h d a b) : Encoding.Statement (.mma h d a b) := fun hf _ => by
  change decode (encR 0x180 h d a b 0 0 0) = _
  refine decode_of (op := 0x180) (fOp_encR ..) (by decide) rfl ?_ hf
  change (some (Instr.mma (fGuard _) (fD _) (fA _) (fB _))) = _
  simp [fGuard]

theorem Encoding.mmaSp (h d a b) : Encoding.Statement (.mmaSp h d a b) := fun hf _ => by
  change decode (encR 0x181 h d a b 0 0 0) = _
  refine decode_of (op := 0x181) (fOp_encR ..) (by decide) rfl ?_ hf
  change (some (Instr.mmaSp (fGuard _) (fD _) (fA _) (fB _))) = _
  simp [fGuard]

theorem Encoding.mmaDy (h d a b) : Encoding.Statement (.mmaDy h d a b) := fun hf _ => by
  change decode (encR 0x182 h d a b 0 0 0) = _
  refine decode_of (op := 0x182) (fOp_encR ..) (by decide) rfl ?_ hf
  change (some (Instr.mmaDy (fGuard _) (fD _) (fA _) (fB _))) = _
  simp [fGuard]

theorem Encoding.delta (h d a b) : Encoding.Statement (.delta h d a b) := fun hf _ => by
  change decode (encR 0x183 h d a b 0 0 0) = _
  refine decode_of (op := 0x183) (fOp_encR ..) (by decide) rfl ?_ hf
  change (some (Instr.delta (fGuard _) (fD _) (fA _) (fB _))) = _
  simp [fGuard]

theorem Encoding.aspill (h d a t) : Encoding.Statement (.aspill h d a t) := fun hf _ => by
  change decode (encR 0x184 h d a 0 t 0 0) = _
  refine decode_of (op := 0x184) (fOp_encR ..) (by decide) rfl ?_ hf
  change (some (Instr.aspill (fGuard _) (fD _) (fA _) (fC _))) = _
  simp [fGuard]

theorem Encoding.afill (h d a t) : Encoding.Statement (.afill h d a t) := fun hf _ => by
  change decode (encR 0x185 h d a 0 t 0 0) = _
  refine decode_of (op := 0x185) (fOp_encR ..) (by decide) rfl ?_ hf
  change (some (Instr.afill (fGuard _) (fD _) (fA _) (fC _))) = _
  simp [fGuard]

theorem Encoding.ascale (h n d a t) : Encoding.Statement (.ascale h n d a t) := fun hf _ => by
  change decode (encR 0x186 h d a 0 t n 0) = _
  refine decode_of (op := 0x186) (fOp_encR ..) (by decide) rfl ?_ hf
  change (some (Instr.ascale (fGuard _) (fSlot _) (fD _) (fA _) (fC _))) = _
  simp [fGuard]

theorem Encoding.acvt (h n d t) : Encoding.Statement (.acvt h n d t) := fun hf _ => by
  change decode (encR 0x187 h d 0 0 t n 0) = _
  refine decode_of (op := 0x187) (fOp_encR ..) (by decide) rfl ?_ hf
  change (some (Instr.acvt (fGuard _) (fSlot _) (fD _) (fC _))) = _
  simp [fGuard]

theorem Encoding.tclaim (h acc n d t cnt) : Encoding.Statement (.tclaim h acc n d t cnt) := fun hf _ => by
  have hz := firstFlaw_none (l := [((claimFlaw acc t cnt).isNone, .fieldCode), (acc || n == 0, .reserved)]) hf _ (.tail _ (.head _))
  change decode (encR 0x188 h d 0 cnt t n (b1 acc)) = _
  refine decode_of (op := 0x188) (fOp_encR ..) (by decide) rfl ?_ hf
  change (some (Instr.tclaim (fGuard _) (fMod56 _) (if (fMod56 _) then (fSlot _) else 0) (fD _) (fC _) (fB _))) = _
  cases acc <;> simp_all [fGuard, fMod56_eq]

theorem Encoding.trel (h acc t cnt) : Encoding.Statement (.trel h acc t cnt) := fun hf _ => by
  change decode (encR 0x189 h 0 0 cnt t 0 (b1 acc)) = _
  refine decode_of (op := 0x189) (fOp_encR ..) (by decide) rfl ?_ hf
  change (some (Instr.trel (fGuard _) (fMod56 _) (fC _) (fB _))) = _
  simp [fGuard, fMod56_eq]

theorem Encoding.pin (h d a b t) : Encoding.Statement (.pin h d a b t) := fun hf _ => by
  change decode (encR 0x18A h d a b t 0 0) = _
  refine decode_of (op := 0x18A) (fOp_encR ..) (by decide) rfl ?_ hf
  change (some (Instr.pin (fGuard _) (fD _) (fA _) (fB _) (fC _))) = _
  simp [fGuard]

theorem Encoding.unpin (h t) : Encoding.Statement (.unpin h t) := fun hf _ => by
  change decode (encR 0x18B h 0 0 0 t 0 0) = _
  refine decode_of (op := 0x18B) (fOp_encR ..) (by decide) rfl ?_ hf
  change (some (Instr.unpin (fGuard _) (fC _))) = _
  simp [fGuard]

theorem Encoding.attach (h d a t) : Encoding.Statement (.attach h d a t) := fun hf _ => by
  change decode (encR 0x18C h d a 0 t 0 0) = _
  refine decode_of (op := 0x18C) (fOp_encR ..) (by decide) rfl ?_ hf
  change (some (Instr.attach (fGuard _) (fD _) (fA _) (fC _))) = _
  simp [fGuard]

theorem Encoding.detach (h t) : Encoding.Statement (.detach h t) := fun hf _ => by
  change decode (encR 0x18D h 0 0 0 t 0 0) = _
  refine decode_of (op := 0x18D) (fOp_encR ..) (by decide) rfl ?_ hf
  change (some (Instr.detach (fGuard _) (fC _))) = _
  simp [fGuard]

theorem Encoding.aread (h d a b t) : Encoding.Statement (.aread h d a b t) := fun hf _ => by
  change decode (encR 0x18E h d a b t 0 0) = _
  refine decode_of (op := 0x18E) (fOp_encR ..) (by decide) rfl ?_ hf
  change (some (Instr.aread (fGuard _) (fD _) (fA _) (fB _) (fC _))) = _
  simp [fGuard]

theorem Encoding.awrite (h d a b t) : Encoding.Statement (.awrite h d a b t) := fun hf _ => by
  change decode (encR 0x18F h d a b t 0 0) = _
  refine decode_of (op := 0x18F) (fOp_encR ..) (by decide) rfl ?_ hf
  change (some (Instr.awrite (fGuard _) (fD _) (fA _) (fB _) (fC _))) = _
  simp [fGuard]

theorem Encoding.azero (h t) : Encoding.Statement (.azero h t) := fun hf _ => by
  change decode (encR 0x190 h 0 0 0 t 0 0) = _
  refine decode_of (op := 0x190) (fOp_encR ..) (by decide) rfl ?_ hf
  change (some (Instr.azero (fGuard _) (fC _))) = _
  simp [fGuard]

theorem Encoding.launch (h d a b) : Encoding.Statement (.launch h d a b) := fun hf _ => by
  change decode (encR 0x1C0 h d a b 0 0 0) = _
  refine decode_of (op := 0x1C0) (fOp_encR ..) (by decide) rfl ?_ hf
  change (some (Instr.launch (fGuard _) (fD _) (fA _) (fB _))) = _
  simp [fGuard]

theorem Encoding.fetchw (h a b c) : Encoding.Statement (.fetchw h a b c) := fun hf _ => by
  change decode (encR 0x1C1 h 0 a b c 0 0) = _
  refine decode_of (op := 0x1C1) (fOp_encR ..) (by decide) rfl ?_ hf
  change (some (Instr.fetchw (fGuard _) (fA _) (fB _) (fC _))) = _
  simp [fGuard]

theorem Encoding.spawn (h d a) : Encoding.Statement (.spawn h d a) := fun hf _ => by
  change decode (encR 0x1C2 h d a 0 0 0 0) = _
  refine decode_of (op := 0x1C2) (fOp_encR ..) (by decide) rfl ?_ hf
  change (some (Instr.spawn (fGuard _) (fD _) (fA _))) = _
  simp [fGuard]

theorem Encoding.join (h d a) : Encoding.Statement (.join h d a) := fun hf _ => by
  change decode (encR 0x1C3 h d a 0 0 0 0) = _
  refine decode_of (op := 0x1C3) (fOp_encR ..) (by decide) rfl ?_ hf
  change (some (Instr.join (fGuard _) (fD _) (fA _))) = _
  simp [fGuard]

theorem Encoding.msgmap (h d s r hd q) : Encoding.Statement (.msgmap h d s r hd q) := fun hf _ => by
  change decode (encR 0x1C4 h d s r hd (lo4 q) (hi4 q)) = _
  refine decode_of (op := 0x1C4) (fOp_encR ..) (by decide) rfl ?_ hf
  change (some (Instr.msgmap (fGuard _) (fD _) (fA _) (fB _) (fC _) (fModSlot _))) = _
  simp [fGuard, fModSlot_eq]

theorem Encoding.msgunmap (h d) : Encoding.Statement (.msgunmap h d) := fun hf _ => by
  change decode (encR 0x1C5 h d 0 0 0 0 0) = _
  refine decode_of (op := 0x1C5) (fOp_encR ..) (by decide) rfl ?_ hf
  change (some (Instr.msgunmap (fGuard _) (fD _))) = _
  simp [fGuard]

theorem Encoding.ringInit (h g a) : Encoding.Statement (.ringInit h g a) := fun hf _ => by
  change decode (encR 0x1C6 h 0 a 0 g 0 0) = _
  refine decode_of (op := 0x1C6) (fOp_encR ..) (by decide) rfl ?_ hf
  change (some (Instr.ringInit (fGuard _) (fC _) (fA _))) = _
  simp [fGuard]

theorem Encoding.ringSig (h g b cls) : Encoding.Statement (.ringSig h g b cls) := fun hf _ => by
  cases cls with
  | none =>
    change decode (encR 0x1C7 h 0 0 b g 0 0) = _
    refine decode_of (op := 0x1C7) (fOp_encR ..) (by decide) rfl ?_ hf
    generalize hw : encR 0x1C7 h 0 0 b g 0 0 = w
    change (if fMod59 w then (classOf (fMod3 w)).map fun k => .ringSig (fGuard w) (fC w) (fB w) (some k)
      else some (Instr.ringSig (fGuard w) (fC w) (fB w) none)) = _
    subst hw; simp [fGuard, fMod59_eq]
  | some k =>
    change decode (encR 0x1C7 h 0 0 b g 0 (m4 (8 + k.code))) = _
    refine decode_of (op := 0x1C7) (fOp_encR ..) (by decide) rfl ?_ hf
    generalize hw : encR 0x1C7 h 0 0 b g 0 (m4 (8 + k.code)) = w
    change (if fMod59 w then (classOf (fMod3 w)).map fun k => .ringSig (fGuard w) (fC w) (fB w) (some k)
      else some (Instr.ringSig (fGuard w) (fC w) (fB w) none)) = _
    subst hw; simp [fGuard, fMod59_eq, fMod3_eq]

theorem Encoding.ringWait (h g b a) : Encoding.Statement (.ringWait h g b a) := fun hf _ => by
  change decode (encR 0x1C8 h 0 a b g 0 0) = _
  refine decode_of (op := 0x1C8) (fOp_encR ..) (by decide) rfl ?_ hf
  change (some (Instr.ringWait (fGuard _) (fC _) (fB _) (fA _))) = _
  simp [fGuard]

theorem Encoding.hbar (h hd) : Encoding.Statement (.hbar h hd) := fun hf _ => by
  change decode (encR 0x1D0 h 0 0 0 hd 0 0) = _
  refine decode_of (op := 0x1D0) (fOp_encR ..) (by decide) rfl ?_ hf
  change (some (Instr.hbar (fGuard _) (fC _))) = _
  simp [fGuard]

theorem Encoding.hvote (h m d a hd) : Encoding.Statement (.hvote h m d a hd) := fun hf _ => by
  change decode (encR 0x1D1 h d a 0 hd 0 (m4 m.code)) = _
  refine decode_of (op := 0x1D1) (fOp_encR ..) (by decide) rfl ?_ hf
  generalize hw : encR 0x1D1 h d a 0 hd 0 (m4 m.code) = w
  change ((hvoteOf ((w.extractLsb' 56 2).toNat)).map fun m => Instr.hvote (fGuard w) m (fD w) (fA w) (fC w)) = _
  subst hw; rw [mod2_eq]; simp [fGuard]

theorem Encoding.hred (h op n d a hd) : Encoding.Statement (.hred h op n d a hd) := fun hf _ => by
  have hz := firstFlaw_none (l := [(op == .sum || op == .min || op == .max || n == 0, .reserved)]) hf _ (.head _)
  change decode (encR 0x1D2 h d a 0 hd n (m4 op.code)) = _
  refine decode_of (op := 0x1D2) (fOp_encR ..) (by decide) rfl ?_ hf
  generalize hw : encR 0x1D2 h d a 0 hd n (m4 op.code) = w
  change ((hredOf (fMod3 w)).map fun op => Instr.hred (fGuard w) op (if op = .sum ∨ op = .min ∨ op = .max then fSlot w else 0) (fD w) (fA w) (fC w)) = _
  subst hw; cases op <;> simp_all [fGuard, fMod3_eq]

theorem Encoding.hbcast (h src d a hd) : Encoding.Statement (.hbcast h src d a hd) := fun hf _ => by
  have hz := firstFlaw_none (l := [(src || a == 0, .reserved)]) hf _ (.head _)
  change decode (encR 0x1D3 h d a 0 hd 0 (b1 src)) = _
  refine decode_of (op := 0x1D3) (fOp_encR ..) (by decide) rfl ?_ hf
  change (some (Instr.hbcast (fGuard _) (fMod56 _) (fD _) (if fMod56 _ then (fA _) else 0) (fC _))) = _
  cases src <;> simp_all [fGuard, fMod56_eq]

theorem Encoding.hset (h hd a) : Encoding.Statement (.hset h hd a) := fun hf _ => by
  change decode (encR 0x1D4 h 0 a 0 hd 0 0) = _
  refine decode_of (op := 0x1D4) (fOp_encR ..) (by decide) rfl ?_ hf
  change (some (Instr.hset (fGuard _) (fC _) (fA _))) = _
  simp [fGuard]

theorem Encoding.dtload (h d a) : Encoding.Statement (.dtload h d a) := fun hf _ => by
  change decode (encR 0x1D5 h d a 0 0 0 0) = _
  refine decode_of (op := 0x1D5) (fOp_encR ..) (by decide) rfl ?_ hf
  change (some (Instr.dtload (fGuard _) (fD _) (fA _))) = _
  simp [fGuard]

theorem Encoding.dtread (h d a) : Encoding.Statement (.dtread h d a) := fun hf _ => by
  change decode (encR 0x1D6 h d a 0 0 0 0) = _
  refine decode_of (op := 0x1D6) (fOp_encR ..) (by decide) rfl ?_ hf
  change (some (Instr.dtread (fGuard _) (fD _) (fA _))) = _
  simp [fGuard]

theorem Encoding.tlbinv (h m a b) : Encoding.Statement (.tlbinv h m a b) := fun hf _ => by
  have hz := firstFlaw_none (l := [(m == .ctx || evenReg a, .oddPair), ((m != .ctx || a == 0) && (m == .range || b == 0), .reserved)]) hf _ (.tail _ (.head _))
  change decode (encR 0x1D7 h 0 a b 0 0 (m4 m.code)) = _
  refine decode_of (op := 0x1D7) (fOp_encR ..) (by decide) rfl ?_ hf
  generalize hw : encR 0x1D7 h 0 a b 0 0 (m4 m.code) = w
  change ((tlbModeOf ((w.extractLsb' 56 2).toNat)).map fun m => Instr.tlbinv (fGuard w) m (if m = .ctx then 0 else (fA w)) (if m = .range then (fB w) else 0)) = _
  subst hw; rw [mod2_eq]; cases m <;> simp_all [fGuard]

theorem Encoding.tlbsync (h) : Encoding.Statement (.tlbsync h) := fun hf _ => by
  change decode (encR 0x1D8 h 0 0 0 0 0 0) = _
  refine decode_of (op := 0x1D8) (fOp_encR ..) (by decide) rfl ?_ hf
  change (some (Instr.tlbsync (fGuard _))) = _
  simp [fGuard]

theorem Encoding.recChk (h d a) : Encoding.Statement (.recChk h d a) := fun hf _ => by
  change decode (encR 0x1D9 h d a 0 0 0 0) = _
  refine decode_of (op := 0x1D9) (fOp_encR ..) (by decide) rfl ?_ hf
  change (some (Instr.recChk (fGuard _) (fD _) (fA _))) = _
  simp [fGuard]

theorem Encoding.sbPost (h d a) : Encoding.Statement (.sbPost h d a) := fun hf _ => by
  change decode (encR 0x1E0 h d a 0 0 0 0) = _
  refine decode_of (op := 0x1E0) (fOp_encR ..) (by decide) rfl ?_ hf
  change (some (Instr.sbPost (fGuard _) (fD _) (fA _))) = _
  simp [fGuard]

theorem Encoding.sbWdr (h d a) : Encoding.Statement (.sbWdr h d a) := fun hf _ => by
  change decode (encR 0x1E1 h d a 0 0 0 0) = _
  refine decode_of (op := 0x1E1) (fOp_encR ..) (by decide) rfl ?_ hf
  change (some (Instr.sbWdr (fGuard _) (fD _) (fA _))) = _
  simp [fGuard]

theorem Encoding.sbFind (h d a b) : Encoding.Statement (.sbFind h d a b) := fun hf _ => by
  change decode (encR 0x1E2 h d a b 0 0 0) = _
  refine decode_of (op := 0x1E2) (fOp_encR ..) (by decide) rfl ?_ hf
  change (some (Instr.sbFind (fGuard _) (fD _) (fA _) (fB _))) = _
  simp [fGuard]

theorem Encoding.solicit (h a b) : Encoding.Statement (.solicit h a b) := fun hf _ => by
  change decode (encR 0x1E3 h 0 a b 0 0 0) = _
  refine decode_of (op := 0x1E3) (fOp_encR ..) (by decide) rfl ?_ hf
  change (some (Instr.solicit (fGuard _) (fA _) (fB _))) = _
  simp [fGuard]

theorem Encoding.respond (h a) : Encoding.Statement (.respond h a) := fun hf _ => by
  change decode (encR 0x1E4 h 0 a 0 0 0 0) = _
  refine decode_of (op := 0x1E4) (fOp_encR ..) (by decide) rfl ?_ hf
  change (some (Instr.respond (fGuard _) (fA _))) = _
  simp [fGuard]

theorem Encoding.sbMove (h d b c) : Encoding.Statement (.sbMove h d b c) := fun hf _ => by
  change decode (encR 0x1E5 h d 0 b c 0 0) = _
  refine decode_of (op := 0x1E5) (fOp_encR ..) (by decide) rfl ?_ hf
  change (some (Instr.sbMove (fGuard _) (fD _) (fB _) (fC _))) = _
  simp [fGuard]

theorem Encoding.waitoc (h k n) : Encoding.Statement (.waitoc h k n) := fun hf _ => by
  change decode (encI 0x1F0 h 0 0 ((0#17) ++ BitVec.ofNat 3 k.code ++ (0#2) ++ n)) = _
  refine decode_of (op := 0x1F0) (fOp_encI ..) (by decide) rfl ?_ hf
  generalize hw : encI 0x1F0 h 0 0 ((0#17) ++ BitVec.ofNat 3 k.code ++ (0#2) ++ n) = w
  change ((classOf ((fImm28 w).extractLsb' 8 3).toNat).map fun k => Instr.waitoc (fGuard w) k ((fImm28 w).extractLsb' 0 6)) = _
  subst hw
  have h1 : ((0#17 ++ BitVec.ofNat 3 k.code ++ 0#2 ++ n).extractLsb' 8 3).toNat = k.code := by
    rw [BitVec.extractLsb'_append_eq_of_le (by decide), BitVec.extractLsb'_append_eq_of_le (by decide),
      BitVec.extractLsb'_append_eq_of_add_le (by decide)]
    cases k <;> rfl
  have h2 : (0#17 ++ BitVec.ofNat 3 k.code ++ 0#2 ++ n).extractLsb' 0 6 = n := by
    rw [BitVec.extractLsb'_append_eq_of_add_le (by decide)]
    exact BitVec.extractLsb'_eq_self
  rw [fImm28_encI, h1, h2]
  cases k <;> simp [fGuard, classOf, OcClass.code]

theorem Encoding.arm (h clr d a b) : Encoding.Statement (.arm h clr d a b) := fun hf _ => by
  have hz := firstFlaw_none (l := [(evenReg a && (clr || evenReg b), .oddPair), (!clr || b == 0, .reserved)]) hf _ (.tail _ (.head _))
  change decode (encR 0x1F1 h d a b 0 0 (b1 clr)) = _
  refine decode_of (op := 0x1F1) (fOp_encR ..) (by decide) rfl ?_ hf
  change (some (Instr.arm (fGuard _) (fMod56 _) (fD _) (fA _) (if fMod56 _ then 0 else (fB _)))) = _
  cases clr <;> simp_all [fGuard, fMod56_eq]

theorem Encoding.await (h hd d a) : Encoding.Statement (.await h hd d a) := fun hf _ => by
  cases hd with
  | none =>
    change decode (encR 0x1F2 h d a 0 0 0 0) = _
    refine decode_of (op := 0x1F2) (fOp_encR ..) (by decide) rfl ?_ hf
    change some (Instr.await (fGuard _) (if fMod56 _ then some (fC _) else none) (fD _) (fA _)) = _
    simp [fGuard, fMod56_eq]
  | some g =>
    change decode (encR 0x1F2 h d a 0 g 0 1) = _
    refine decode_of (op := 0x1F2) (fOp_encR ..) (by decide) rfl ?_ hf
    change some (Instr.await (fGuard _) (if fMod56 _ then some (fC _) else none) (fD _) (fA _)) = _
    simp [fGuard, fMod56_eq]

theorem Encoding.arrive (h a b) : Encoding.Statement (.arrive h a b) := fun hf _ => by
  change decode (encR 0x1F3 h 0 a b 0 0 0) = _
  refine decode_of (op := 0x1F3) (fOp_encR ..) (by decide) rfl ?_ hf
  change (some (Instr.arrive (fGuard _) (fA _) (fB _))) = _
  simp [fGuard]

theorem Encoding.evsel (h d k src) : Encoding.Statement (.evsel h d k src) := fun hf _ => by
  change decode (encR 0x1F4 h d 0 0 k (lo4 src) (hi4 src)) = _
  refine decode_of (op := 0x1F4) (fOp_encR ..) (by decide) rfl ?_ hf
  change (some (Instr.evsel (fGuard _) (fD _) (fC _) (fModSlot _))) = _
  simp [fGuard, fModSlot_eq]

theorem Encoding.evrd (h d k) : Encoding.Statement (.evrd h d k) := fun hf _ => by
  change decode (encR 0x1F5 h d 0 0 k 0 0) = _
  refine decode_of (op := 0x1F5) (fOp_encR ..) (by decide) rfl ?_ hf
  change (some (Instr.evrd (fGuard _) (fD _) (fC _))) = _
  simp [fGuard]

theorem Encoding.evclr (h d k) : Encoding.Statement (.evclr h d k) := fun hf _ => by
  change decode (encR 0x1F6 h d 0 0 k 0 0) = _
  refine decode_of (op := 0x1F6) (fOp_encR ..) (by decide) rfl ?_ hf
  change (some (Instr.evclr (fGuard _) (fD _) (fC _))) = _
  simp [fGuard]

theorem Encoding.trap (h c) : Encoding.Statement (.trap h c) := fun hf _ => by
  change decode (encR 0x200 h 0 0 0 c 0 0) = _
  refine decode_of (op := 0x200) (fOp_encR ..) (by decide) rfl ?_ hf
  change (some (Instr.trap (fGuard _) (fC _))) = _
  simp [fGuard]

theorem Encoding.iret : Encoding.Statement .iret := fun hf _ => by
  change decode (encR 0x201 noGuard 0 0 0 0 0 0) = _
  refine decode_of (op := 0x201) (fOp_encR ..) (by decide) rfl ?_ hf
  generalize hw : encR 0x201 noGuard 0 0 0 0 0 0 = w
  change (if fG w = 255 then some Instr.iret else none) = _
  subst hw; simp [noGuard]

theorem Encoding.rqRd (h d a b) : Encoding.Statement (.rqRd h d a b) := fun hf _ => by
  change decode (encR 0x202 h d a b 0 0 0) = _
  refine decode_of (op := 0x202) (fOp_encR ..) (by decide) rfl ?_ hf
  change (some (Instr.rqRd (fGuard _) (fD _) (fA _) (fB _))) = _
  simp [fGuard]

theorem Encoding.rqWr (h d a b) : Encoding.Statement (.rqWr h d a b) := fun hf _ => by
  change decode (encR 0x203 h d a b 0 0 0) = _
  refine decode_of (op := 0x203) (fOp_encR ..) (by decide) rfl ?_ hf
  change (some (Instr.rqWr (fGuard _) (fD _) (fA _) (fB _))) = _
  simp [fGuard]

theorem Encoding.rqDrop (h d a) : Encoding.Statement (.rqDrop h d a) := fun hf _ => by
  change decode (encR 0x204 h d a 0 0 0 0) = _
  refine decode_of (op := 0x204) (fOp_encR ..) (by decide) rfl ?_ hf
  change (some (Instr.rqDrop (fGuard _) (fD _) (fA _))) = _
  simp [fGuard]

theorem Encoding.setidem (h a) : Encoding.Statement (.setidem h a) := fun hf _ => by
  change decode (encR 0x205 h 0 a 0 0 0 0) = _
  refine decode_of (op := 0x205) (fOp_encR ..) (by decide) rfl ?_ hf
  change (some (Instr.setidem (fGuard _) (fA _))) = _
  simp [fGuard]

theorem Encoding.halt (h team c) : Encoding.Statement (.halt h team c) := fun hf _ => by
  change decode (encR 0x206 h 0 0 0 c 0 (b1 team)) = _
  refine decode_of (op := 0x206) (fOp_encR ..) (by decide) rfl ?_ hf
  change (some (Instr.halt (fGuard _) (fMod56 _) (fC _))) = _
  simp [fGuard, fMod56_eq]

theorem Encoding.ipref (h n o) : Encoding.Statement (.ipref h n o) := fun _ _ => by
  have : (n.setWidth 12).extractLsb' 0 3 = n := by
    ext j hj
    simp [show j < 12 by omega, hj]
  change decode (encB 0x300 h 0 0 (n.setWidth 12) o) = _
  have hw : ∀ w, decodeWith ⟨0x300, false, .hint⟩ w
      = .ok (.ipref (fGuard w) ((fPrio w).extractLsb' 0 3) (fOff w)) false := fun _ => rfl
  have hd : DecEntry.default (0x300 : BitVec 10).toNat = ⟨0x300, false, .hint⟩ := by decide
  unfold decode
  rw [fOp_encB, hd, hw]
  simp [fGuard, this]

theorem Encoding.dpref (h a b imm) : Encoding.Statement (.dpref h a b imm) := fun _ _ => by
  change decode (encM 0x301 h 0 a b imm 0) = _
  have hw : ∀ w, decodeWith ⟨0x301, false, .hint⟩ w
      = .ok (.dpref (fGuard w) (fA w) (fB w) (fImm16 w)) false := fun _ => rfl
  have hd : DecEntry.default (0x301 : BitVec 10).toNat = ⟨0x301, false, .hint⟩ := by decide
  unfold decode
  rw [fOp_encM, hd, hw]
  simp [fGuard]

theorem Encoding.unassignedHint (code) : Encoding.Statement (.unassignedHint code) := fun hf _ => by
  have hz := firstFlaw_none (l := [(0x302 ≤ code.toNat && code.toNat ≤ 0x37F, .unassigned)]) hf _ (.head _)
  simp only [Bool.and_eq_true, decide_eq_true_eq] at hz
  change decode (encR code noGuard 0 0 0 0 0 0) = _
  have ha : assigned code.toNat = false := by
    simp only [assigned, Bool.or_eq_false_iff, Bool.and_eq_false_iff, decide_eq_false_iff_not]
    omega
  have h1 : (BitVec.ofNat 10 code.toNat) = code := by simp
  have h0 : code ≠ 0x300 := fun e => by rw [e] at hz; exact absurd hz (by decide)
  have h2 : code ≠ 0x301 := fun e => by rw [e] at hz; exact absurd hz (by decide)
  have hd : DecEntry.default code.toNat = ⟨code, false, .hint⟩ := by
    rw [DecEntry.default, if_neg (by rw [ha]; decide), if_pos (by omega), h1]
  have hw : decodeWith ⟨code, false, .hint⟩ (encR code noGuard 0 0 0 0 0 0) = .ok (.unassignedHint code) false := by
    unfold decodeWith
    dsimp only
    rw [if_neg h0, if_neg h2, if_pos hz]
  unfold decode
  rw [fOp_encR, hd, hw]

theorem Encoding.trapEntry (loom slot) : Encoding.Statement (.trapEntry loom slot) := Encoding.ofEvent rfl

theorem Encoding.weftEnd (loom slot) : Encoding.Statement (.weftEnd loom slot) := Encoding.ofEvent rfl

theorem Encoding.entryStarving (loom slot) : Encoding.Statement (.entryStarving loom slot) := Encoding.ofEvent rfl

theorem Encoding.frontierSpillReturn (loom slot) : Encoding.Statement (.frontierSpillReturn loom slot) := Encoding.ofEvent rfl

theorem Encoding.yieldPassEnd (loom slot) : Encoding.Statement (.yieldPassEnd loom slot) := Encoding.ofEvent rfl

theorem Encoding.vgrowBlocksObtained (loom slot) : Encoding.Statement (.vgrowBlocksObtained loom slot) := Encoding.ofEvent rfl

theorem Encoding.vgrowTimeout (loom slot) : Encoding.Statement (.vgrowTimeout loom slot) := Encoding.ofEvent rfl

theorem Encoding.instructionCacheFill (loom ctx line) : Encoding.Statement (.instructionCacheFill loom ctx line) := Encoding.ofEvent rfl

theorem Encoding.engineUnit (loom cls idx) : Encoding.Statement (.engineUnit loom cls idx) := Encoding.ofEvent rfl

theorem Encoding.operationRetirement (loom cls idx) : Encoding.Statement (.operationRetirement loom cls idx) := Encoding.ofEvent rfl

theorem Encoding.bankCommandPart (loom idx bank) : Encoding.Statement (.bankCommandPart loom idx bank) := Encoding.ofEvent rfl

theorem Encoding.blockMerge (ctrl) : Encoding.Statement (.blockMerge ctrl) := Encoding.ofEvent rfl

theorem Encoding.sbMoveCommit (loom idx) : Encoding.Statement (.sbMoveCommit loom idx) := Encoding.ofEvent rfl

theorem Encoding.sbWdrFree (loom slot) : Encoding.Statement (.sbWdrFree loom slot) := Encoding.ofEvent rfl

theorem Encoding.hsetCommit (loom slot) : Encoding.Statement (.hsetCommit loom slot) := Encoding.ofEvent rfl

theorem Encoding.continuationEnqueue (loom slot) : Encoding.Statement (.continuationEnqueue loom slot) := Encoding.ofEvent rfl

theorem Encoding.recordTake (loom slot) : Encoding.Statement (.recordTake loom slot) := Encoding.ofEvent rfl

theorem Encoding.fetchwAnswer (j) : Encoding.Statement (.fetchwAnswer j) := Encoding.ofEvent rfl

theorem Encoding.messageSend (loom slot) : Encoding.Statement (.messageSend loom slot) := Encoding.ofEvent rfl

theorem Encoding.distributorDraw : Encoding.Statement (.distributorDraw) := Encoding.ofEvent rfl

theorem Encoding.drainExpiry (loom team) : Encoding.Statement (.drainExpiry loom team) := Encoding.ofEvent rfl

theorem Encoding.teamFlush (loom team) : Encoding.Statement (.teamFlush loom team) := Encoding.ofEvent rfl

theorem Encoding.teamSave (loom team) : Encoding.Statement (.teamSave loom team) := Encoding.ofEvent rfl

theorem Encoding.teamPlacement (loom team slot0) : Encoding.Statement (.teamPlacement loom team slot0) := Encoding.ofEvent rfl

theorem Encoding.teamRestore (loom team slot0) : Encoding.Statement (.teamRestore loom team slot0) := Encoding.ofEvent rfl

theorem Encoding.hostStore (off data) : Encoding.Statement (.hostStore off data) := Encoding.ofEvent rfl

theorem Encoding.hostLoad (off n) : Encoding.Statement (.hostLoad off n) := Encoding.ofEvent rfl

theorem Encoding.hostCoherenceRequest (line data) : Encoding.Statement (.hostCoherenceRequest line data) := Encoding.ofEvent rfl

theorem Encoding.linkFailure : Encoding.Statement (.linkFailure) := Encoding.ofEvent rfl

theorem Encoding.censusPoint (slot) : Encoding.Statement (.censusPoint slot) := Encoding.ofEvent rfl

theorem Encoding.responderSpawn (loom idx) : Encoding.Statement (.responderSpawn loom idx) := Encoding.ofEvent rfl

theorem Encoding.fabricWriteUnit (j) : Encoding.Statement (.fabricWriteUnit j) := Encoding.ofEvent rfl

theorem Encoding.fabricReadRequest (j) : Encoding.Statement (.fabricReadRequest j) := Encoding.ofEvent rfl

theorem Encoding.fabricReadResponse (j) : Encoding.Statement (.fabricReadResponse j) := Encoding.ofEvent rfl

theorem Encoding.fabricAtomicRequest (j) : Encoding.Statement (.fabricAtomicRequest j) := Encoding.ofEvent rfl

theorem Encoding.fabricAtomicResponse (j) : Encoding.Statement (.fabricAtomicResponse j) := Encoding.ofEvent rfl

theorem Encoding.fabricCompletion (j) : Encoding.Statement (.fabricCompletion j) := Encoding.ofEvent rfl

theorem Encoding.fabricRefusal (j) : Encoding.Statement (.fabricRefusal j) := Encoding.ofEvent rfl

theorem Encoding.reductionContribution (j) : Encoding.Statement (.reductionContribution j) := Encoding.ofEvent rfl

theorem Encoding.reductionCompletion (j) : Encoding.Statement (.reductionCompletion j) := Encoding.ofEvent rfl

theorem Encoding.censusRequest (j) : Encoding.Statement (.censusRequest j) := Encoding.ofEvent rfl

theorem Encoding.censusAnswer (j) : Encoding.Statement (.censusAnswer j) := Encoding.ofEvent rfl

theorem Encoding.routeChangeEffect (node vc) : Encoding.Statement (.routeChangeEffect node vc) := Encoding.ofEvent rfl

theorem Encoding.flitReceive (port flit got) : Encoding.Statement (.flitReceive port flit got) := Encoding.ofEvent rfl

theorem Encoding.replayTimeout (port) : Encoding.Statement (.replayTimeout port) := Encoding.ofEvent rfl

theorem Encoding.ackTimer (port) : Encoding.Statement (.ackTimer port) := Encoding.ofEvent rfl

theorem Encoding.wavelengthSuspect (port w) : Encoding.Statement (.wavelengthSuspect port w) := Encoding.ofEvent rfl

theorem Encoding.wavelengthLiveAgain (port w) : Encoding.Statement (.wavelengthLiveAgain port w) := Encoding.ofEvent rfl

theorem Encoding.wavelengthDead (port mask) : Encoding.Statement (.wavelengthDead port mask) := Encoding.ofEvent rfl

theorem Encoding.portRetrain (port) : Encoding.Statement (.portRetrain port) := Encoding.ofEvent rfl

theorem Encoding.portTrainingComplete (t) : Encoding.Statement (.portTrainingComplete t) := Encoding.ofEvent rfl

theorem Encoding.tokenRestore (port) : Encoding.Statement (.tokenRestore port) := Encoding.ofEvent rfl

theorem Encoding.budgetPeriodStart (pw temps) : Encoding.Statement (.budgetPeriodStart pw temps) := Encoding.ofEvent rfl

theorem Encoding.thermalTrip (die) : Encoding.Statement (.thermalTrip die) := Encoding.ofEvent rfl

theorem Encoding.memoryScrub (addr) : Encoding.Statement (.memoryScrub addr) := Encoding.ofEvent rfl

theorem Encoding.migrationCopy (ctx va newPpn) : Encoding.Statement (.migrationCopy ctx va newPpn) := Encoding.ofEvent rfl

theorem Encoding.eventSampling : Encoding.Statement (.eventSampling) := Encoding.ofEvent rfl

theorem Encoding.tlbinvComplete (j) : Encoding.Statement (.tlbinvComplete j) := Encoding.ofEvent rfl

theorem Encoding.powerOn : Encoding.Statement (.powerOn) := Encoding.ofEvent rfl

theorem Encoding.exlemLinkTrained : Encoding.Statement (.exlemLinkTrained) := Encoding.ofEvent rfl

theorem Encoding.firmwareVerification (img) : Encoding.Statement (.firmwareVerification img) := Encoding.ofEvent rfl

theorem Encoding.memoryZeroing : Encoding.Statement (.memoryZeroing) := Encoding.ofEvent rfl

theorem Encoding.fabricBringUp (ports routes node) : Encoding.Statement (.fabricBringUp ports routes node) := Encoding.ofEvent rfl

theorem Encoding.launchQueuesEnable (base) : Encoding.Statement (.launchQueuesEnable base) := Encoding.ofEvent rfl

theorem Encoding.resetRequest : Encoding.Statement (.resetRequest) := Encoding.ofEvent rfl

theorem Encoding.portSetOffline (port) : Encoding.Statement (.portSetOffline port) := Encoding.ofEvent rfl

theorem Encoding.portBringUp (port) : Encoding.Statement (.portBringUp port) := Encoding.ofEvent rfl

theorem Encoding.evqWrite (word v byHost) : Encoding.Statement (.evqWrite word v byHost) := Encoding.ofEvent rfl

theorem Encoding.nodeWrite (n) : Encoding.Statement (.nodeWrite n) := Encoding.ofEvent rfl

theorem Encoding.routeWrite (node v) : Encoding.Statement (.routeWrite node v) := Encoding.ofEvent rfl

theorem Encoding.budgetWrite (act v floor) : Encoding.Statement (.budgetWrite act v floor) := Encoding.ofEvent rfl

theorem Encoding.invalidationPort (ctx m va n) : Encoding.Statement (.invalidationPort ctx m va n) := Encoding.ofEvent rfl

theorem Encoding.attestRequest (nonce) : Encoding.Statement (.attestRequest nonce) := Encoding.ofEvent rfl

theorem Encoding.attestReadCert : Encoding.Statement (.attestReadCert) := Encoding.ofEvent rfl

theorem Encoding.measurementExtend (x) : Encoding.Statement (.measurementExtend x) := Encoding.ofEvent rfl

theorem Encoding.contextCreate (d) : Encoding.Statement (.contextCreate d) := Encoding.ofEvent rfl

theorem Encoding.contextSwitchOut (ctx) : Encoding.Statement (.contextSwitchOut ctx) := Encoding.ofEvent rfl

theorem Encoding.contextSwitchIn (ctx) : Encoding.Statement (.contextSwitchIn ctx) := Encoding.ofEvent rfl

theorem Encoding.contextTeardown (ctx) : Encoding.Statement (.contextTeardown ctx) := Encoding.ofEvent rfl

theorem Encoding.managementRegisterWrite (r v) : Encoding.Statement (.managementRegisterWrite r v) := Encoding.ofEvent rfl

theorem Encoding.teamQuantumExpiry (loom team) : Encoding.Statement (.teamQuantumExpiry loom team) := Encoding.ofEvent rfl

theorem Encoding.tlbFillAhead (ag ctx va) : Encoding.Statement (.tlbFillAhead ag ctx va) := Encoding.ofEvent rfl

theorem Encoding.softError (loc uncorrectable) : Encoding.Statement (.softError loc uncorrectable) := Encoding.ofEvent rfl

theorem Encoding.powerOff : Encoding.Statement (.powerOff) := Encoding.ofEvent rfl

theorem Encoding.coolantFlowAlarm (flow leak) : Encoding.Statement (.coolantFlowAlarm flow leak) := Encoding.ofEvent rfl

end Sys2Proof.Laws
end

