-- ==== Sys2Proof/Tests/Slice0.lean ====
section
/-! SUPPORT. Tests: words written out from the spec's encodings, terms that are ill formed, single steps with results taken
from the spec's examples and tables, and a state that meets the hypotheses of each statement. -/

namespace Sys2Proof.Tests

open Machine Rules

set_option Elab.async false

/-! ## Words of the spec's examples (04 Example 3, 06 to 16) -/

def reads (w : DWord) (i : Instr) : Bool :=
  match decode w with
  | .ok j => j == i
  | .error _ => false

def g0 : Guard := ⟨255, false⟩

theorem test_words_integer :
    reads 0x000000305063FC00 (.iadd g0 6 5 3 .wrap) = true ∧ reads 0x0A0000201043FC1A (.icmp g0 4 1 2 .lt true) = true
      ∧ reads 0x096030201093FC0F (.logic3 g0 9 1 2 3 0x96) = true ∧ reads 0x000000203033FC35 (.shlImm g0 3 3 2) = true
      ∧ reads 0xFFFFFFD00013FC39 (.movi g0 1 (-3)) = true := by decide

theorem test_words_control :
    reads 0x000406400003FC50 (.br g0 100 4) = true ∧ reads 0x00031F404003FC51 (.brc g0 4 500 3) = true
      ∧ reads 0x000000000003FC58 (.nop g0) = true := by decide

theorem test_words_format :
    reads 0x003030201083FC83 (.fma g0 3 8 1 2 3) = true ∧ reads 0x01200FF05063FC95 (.fcvt g0 2 1 6 5 255 0) = true := by
  decide

theorem test_words_memory :
    reads 0x2001009020641D04 (.ldResid ⟨7, true⟩ 6 2 9 16 .b32 false) = true
      ∧ reads 0x040000000003FD06 (.fence g0 .package) = true := by decide

theorem test_words_engines :
    reads 0x00000001E143FD35 (.xput g0 20 30) = true ∧ reads 0x00000151E143FD80 (.mma g0 20 30 21) = true
      ∧ reads 0x013000200053FD88 (.tclaim g0 true 3 5 0 2) = true := by decide

theorem test_words_queues_and_tables :
    reads 0x000020506003FDC8 (.ringWait g0 2 5 6) = true ∧ reads 0x000030000003FDD0 (.hbar g0 3) = true
      ∧ reads 0x002010005063FDD2 (.hred g0 .sum 2 6 5 1) = true
      ∧ reads 0x010000402003FDD7 (.tlbinv g0 .range 2 4) = true := by decide

theorem test_words_boards_and_counters :
    reads 0x00000071E003FDE3 (.solicit g0 30 7) = true ∧ reads 0x000000000003FDF0 (.waitoc g0 .copy 0) = true
      ∧ reads 0x000040200003FDF0 (.waitoc g0 .fab 2) = true ∧ reads 0x000000C0A043FDF1 (.arm g0 false 4 10 12) = true
      ∧ reads 0x01001000A053FDF2 (.await g0 (some 1) 5 10) = true
      ∧ reads 0x00D000000033FDF4 (.evsel g0 3 0 0x0D) = true := by decide

theorem test_words_traps :
    reads 0x000050000003FE00 (.trap g0 5) = true ∧ reads 0x000000000003FE01 .iret = true
      ∧ reads 0x0000009080A3FE02 (.rqRd g0 10 8 9) = true ∧ reads 0x010210000003FE06 (.halt g0 true 0x21) = true := by
  decide

/-- Codes that name no instruction, and codes of a used field that its entry does not define (R99, R103, R104). -/
def refused (w : DWord) : Bool := (decode w).toOption.isNone

theorem test_words_refused :
    refused 0x000000000003FC21 = true ∧ refused 0x000000000003FF80 = true ∧ refused 0x0300000000000003 = true
      ∧ refused 0x0600000000000000 = true ∧ refused 0x070000000003FD06 = true := by decide

/-- A pair field holds an odd register (R100), and iret takes no guard (R433). -/
theorem test_words_flawed : refused 0x000000000013FC1E = true ∧ refused 0x0000000000000201 = true := by decide

/-! ## Ill-formed terms -/

def flawed (r : Reject) (i : Instr) : Bool := i.flaw == some r

theorem test_ill_formed_pairs :
    [Instr.iadd64 g0 1 2 4, .imad64 g0 2 1 1 3 false, .shl64 g0 2 3 1, .movs g0 3 .team, .lea g0 2 5 0, .jmp g0 3 2 0,
     .call g0 5 0 0, .ret g0 7 0, .setfmt g0 1 3, .getfmt g0 1 3, .ld g0 4 3 255 0 .b32 false, .st g0 5 2 255 0 .b64 false,
     .ldw g0 0 1 3 255 0, .stw g0 0 1 3 255 0, .pagein g0 1 255 0, .probe g0 0 1 255 0, .atomAdd g0 1 2 255 0 true .plain,
     .atomCas g0 2 4 5 0 true .plain, .atomFadd g0 0 1 3 255 0 .plain, .copy g0 .none 0 1 3, .cmpst g0 0 1 3 4,
     .xput g0 1 3, .mma g0 1 3 4, .aspill g0 1 3 0, .pin g0 1 2 3 0, .attach g0 1 3 0, .launch g0 1 2 3, .fetchw g0 1 2 3,
     .spawn g0 1 3, .join g0 1 3, .hset g0 1 3, .dtload g0 1 3, .recChk g0 1 3, .tlbinv g0 .page 3 0, .sbPost g0 1 3,
     .sbFind g0 1 3 4, .solicit g0 3 4, .arm g0 false 1 2 3, .await g0 none 1 3, .arrive g0 3 4, .evrd g0 3 0,
     .bankop g0 .add 0 3 4 5].all (flawed .oddPair) = true := by decide

theorem test_ill_formed_progress :
    [Instr.copy g0 .none 0 255 2, .cmpst g0 0 255 2 4, .xget g0 255 2, .xatom g0 .add 0 255 2 3 0, .xred g0 .sum 0 255 2,
     .delta g0 255 2 4, .afill g0 255 2 0, .ascale g0 0 255 1 0, .acvt g0 0 255 0, .sbMove g0 255 1 2].all
      (flawed .noProgress) = true := by decide

theorem test_ill_formed_fields :
    [Instr.vgrow g0 1 12, .vshrink g0 0, .vgrow g0 1 249, .setfmt g0 0 2, .fflags g0 1 64, .aspill g0 1 2 32,
     .tclaim g0 false 0 1 60 5, .tclaim g0 true 0 1 0 0, .trel g0 true 31 2, .pin g0 1 2 4 32, .azero g0 32,
     .msgmap g0 1 2 2 3 1, .msgmap g0 1 2 3 4 65, .msgmap g0 1 255 3 4 1, .ringInit g0 8 1, .ringSig g0 8 1 none,
     .ringWait g0 9 1 2, .evsel g0 1 24 0, .evclr g0 1 30, .bankop g0 .cvt 0 2 3 16].all (flawed .fieldCode) = true := by
  decide

theorem test_ill_formed_reserved :
    [Instr.copy g0 .none 1 2 4, .xatom g0 .add 1 2 4 3 0, .xatom g0 .add 0 2 4 3 1, .bankop g0 .transp 1 2 3 0,
     .bankop g0 .zero 0 2 3 1, .tclaim g0 false 1 1 0 1, .hred g0 .and 1 2 3 0, .hbcast g0 false 1 2 0,
     .tlbinv g0 .ctx 2 0, .tlbinv g0 .page 2 1, .arm g0 true 1 2 4].all (flawed .reserved) = true := by decide

theorem test_ill_formed_others :
    flawed .residClash (.ldResid g0 4 2 4 0 .b32 false) = true ∧ flawed .residClash (.ldResid g0 4 2 5 0 .b64 false) = true
      ∧ flawed .residClash (.ldwResid g0 0 4 2 4 0) = true ∧ flawed .unassigned (.unassignedHint 0x380) = true := by decide

/-! ## One weft, with the words of its registers given -/

/-- A weft of loom 0, slot 0, with the words given: register, lane, value. -/
def weftOf (ws : List (Nat × Nat × Word)) : Weft :=
  { placedWeft none with regs := ws.foldl (fun m p => SMap.set m 0 (32 * p.1 + p.2.1) p.2.2) [] }

def issueOf (mask : Word := 0xFFFFFFFF) : Issue :=
  { loom := 0, slot := 0, pc := 0x20000, mask := mask, prio := 4095, word := 0, canon := 0, legacy := false }

def stateOf (w : Weft) (mask : Word := 0xFFFFFFFF) : State :=
  { (State.reset.placeWord none 0).setWeft 0 0 w with cur := some (issueOf mask) }

def ready (s : State) (i : Instr) (c : Issue) (w : Weft) : Bool :=
  s.cur == some c && s.weft? c.loom c.slot == some w && !s.regsHold c.loom c.slot w i (c.act w i) && portClear w i
    && sourcesSound w i && (allUses i).all (fun u => !w.outOfRange u.r) && (needsRole i).all (fun r => w.role == r)
    && (!isPrivileged i || w.sv) && (s.svDenied c.loom w i (c.act w i)).isNone

theorem issuing_of {s : State} {i : Instr} {c : Issue} {w : Weft} (h : ready s i c w = true) : Issuing s i c w := by
  simp only [ready, Bool.and_eq_true, beq_iff_eq, Bool.not_eq_true', List.all_eq_true,
    Option.all_eq_true, Bool.or_eq_true, Option.isNone_iff_eq_none] at h
  obtain ⟨⟨⟨⟨⟨⟨⟨⟨h1, h2⟩, h3⟩, h4⟩, h5⟩, h6⟩, h7⟩, h8⟩, h9⟩ := h
  exact ⟨h1, h2, h3, h4, h5, h6, fun r hr => h7 r hr, fun hp => by simpa [hp] using h8, h9⟩

theorem all_met {α : Type} {p : α → Prop} {b : α → Bool} {l : List α} (h : ∀ a, b a = true → p a) (hl : l.all b = true) :
    ∀ a ∈ l, p a := fun a ha => h a (List.all_eq_true.1 hl a ha)

/-- The state that an instruction leaves. -/
def after (i : Instr) (s : State) : State :=
  match exec i s with
  | .next t => t
  | _ => s

/-- The word of a register's lane in the issuing weft. -/
def laneOf (s : State) (r : Reg) (j : Nat) : Word := ((s.weft? 0 0).map fun w => w.lane r j).getD 0

/-- The word that an instruction leaves in lane j of v3. -/
def gives (i : Instr) (w : Weft) (j : Nat) : Word := laneOf (after i (stateOf w)) 3 j

/-- v1 and v2 in lane 0. -/
def xy (x y : Word) : Weft := weftOf [(1, 0, x), (2, 0, y)]

/-! ## Integer instructions: Example 2 of 06_integer_and_control.md -/

theorem test_idiv_s : gives (.idiv g0 3 1 2 true) (xy 0x80000000 0xFFFFFFFF) 0 = 0x80000000
    ∧ gives (.idiv g0 3 1 2 true) (xy 0xFFFFFFF9 2) 0 = 0xFFFFFFFD := by decide
theorem test_irem_s : gives (.irem g0 3 1 2 true) (xy 0x80000000 0xFFFFFFFF) 0 = 0
    ∧ gives (.irem g0 3 1 2 true) (xy 0xFFFFFFF9 2) 0 = 0xFFFFFFFF := by decide
theorem test_divide_by_zero : gives (.idiv g0 3 1 2 false) (xy 7 0) 0 = 0xFFFFFFFF
    ∧ gives (.irem g0 3 1 2 false) (xy 7 0) 0 = 7 := by decide
theorem test_shl_by_32 : gives (.shl g0 3 1 2) (xy 1 32) 0 = 0 := by decide
theorem test_sar_by_40 : gives (.sar g0 3 1 2) (xy 0x80000000 40) 0 = 0xFFFFFFFF := by decide
theorem test_rot_by_33 : gives (.rot g0 3 1 2) (xy 0x80000001 33) 0 = 3 := by decide
theorem test_iadd_sats : gives (.iadd g0 3 1 2 .sats) (xy 0x7FFFFFFF 1) 0 = 0x7FFFFFFF := by decide
theorem test_isub_satu : gives (.isub g0 3 1 2 .satu) (xy 3 5) 0 = 0 := by decide
theorem test_bfx : gives (.bfx g0 3 1 2 true) (xy 0x0F00 0x0408) 0 = 0xFFFFFFFF
    ∧ gives (.bfx g0 3 1 2 false) (xy 0x0F00 0x0408) 0 = 0xF
    ∧ gives (.bfx g0 3 1 2 false) (xy 0xF0000000 0x081C) 0 = 0xF := by decide
theorem test_iabs : gives (.iabs g0 3 1) (xy 0x80000000 0) 0 = 0x80000000 := by decide
theorem test_clz_ctz : gives (.clz g0 3 1) (xy 0 0) 0 = 32 ∧ gives (.ctz g0 3 1) (xy 0 0) 0 = 32 := by decide
theorem test_logic3 : gives (.logic3 g0 3 1 2 4 0x96) (weftOf [(1, 0, 0xC), (2, 0, 0xA), (4, 0, 0x6)]) 0 = 0 := by decide
theorem test_imulh_s : gives (.imulh g0 3 1 2 true) (xy 0xFFFFFFFF 2) 0 = 0xFFFFFFFF
    ∧ gives (.imulh g0 3 1 2 false) (xy 0xFFFFFFFF 2) 0 = 1 := by decide
theorem test_movhi : gives (.movhi g0 3 1 0x3EAA) (xy 0xFFFFAAAB 0) 0 = 0x3EAAAAAB := by decide
/-- v255 reads zero and takes no value (R101). -/
theorem test_v255 : laneOf (after (.mov g0 255 1) (stateOf (xy 7 0))) 255 0 = 0 := by decide
/-- A source that is also the destination; a lane outside the entry keeps its word. -/
theorem test_inactive_lane : laneOf (after (.iadd ⟨2, false⟩ 1 1 2 .wrap) (stateOf (weftOf [(1, 0, 5), (1, 1, 5), (2, 1, 3)]))) 1 1 = 8
    ∧ laneOf (after (.iadd ⟨2, false⟩ 1 1 2 .wrap) (stateOf (weftOf [(1, 0, 5), (1, 1, 5), (2, 1, 3)]))) 1 0 = 5 := by decide

/-! ## Lane exchange: Example 3 of 06_integer_and_control.md -/

/-- v1 holds 10·i, v2 holds 1 in lanes 1, 2, 5 and 6, v7 holds 2; the entry has lanes 0 to 7. -/
def lanesWeft : Weft :=
  { weftOf (((List.range 32).map fun i => (1, i, BitVec.ofNat 32 (10 * i))) ++ [(2, 1, 1), (2, 2, 1), (2, 5, 1), (2, 6, 1)]
      ++ (List.range 8).map fun i => (7, i, 2)) with held := [{ pc := 0x20000, mask := 0xFF, prio := 4095, age := 0 }] }

def lanesGive (i : Instr) : List Word := (List.range 8).map fun j => laneOf (after i (stateOf lanesWeft 0xFF)) 3 j

theorem test_ballot : lanesGive (.ballot g0 3 2) = [0x66, 0x66, 0x66, 0x66, 0x66, 0x66, 0x66, 0x66] := by decide
theorem test_lprefix : lanesGive (.lprefix g0 3 2) = [0, 0, 1, 2, 2, 2, 3, 4] := by decide
theorem test_vote_all : lanesGive (.vote g0 3 2 .all) = [0, 0, 0, 0, 0, 0, 0, 0] := by decide
theorem test_shfl_down : lanesGive (.shfl g0 3 1 7 .down) = [20, 30, 40, 50, 60, 70, 80, 90] := by decide
theorem test_elect : lanesGive (.elect g0 3) = [1, 0, 0, 0, 0, 0, 0, 0] := by decide

/-! ## Control transfer -/

/-- Two lanes of eight are taken: the frontier then has the target's entry and the falling lanes' (R155). -/
def frontierOf (s : State) : List (DWord × Word) := ((s.weft? 0 0).map fun w => w.held.map fun e => (e.pc, e.mask)).getD []

theorem test_brc : frontierOf (after (.brc g0 2 9 (-2)) (stateOf lanesWeft 0xFF)) = [(0x1FFF0, 0x66), (0x20008, 0x99)]
    ∨ frontierOf (after (.brc g0 2 9 (-2)) (stateOf lanesWeft 0xFF)) = [(0x20008, 0x99), (0x1FFF0, 0x66)] := by decide
theorem test_exit : frontierOf (after (.exit ⟨2, false⟩) (stateOf lanesWeft 0xFF)) = [(0x20008, 0x99)] := by decide

/-! ## Slot-named arithmetic: Examples of 03 and 07 -/

/-- f1 bfloat16, f2 E4M3, f3 binary16, f4 an 8-bit integer (R69). -/
def fmtsWeft (ws : List (Nat × Nat × Word)) : Weft :=
  { weftOf ws with fmts := [(1, 0x00000000A003F8F1), (2, 0x0000000100003869), (3, 0x00000000A000794B), (4, 0x00000040000000E1),
                            (5, 0x0000008000000000)] }

/-- Example 3 of 07: two binary32 values into bfloat16, and these into E4M3. -/
theorem test_fcvt : gives (.fcvt g0 1 0 3 1 2 0) (fmtsWeft [(1, 0, 0x3EAAAAAB), (2, 0, 0x7F7FFFFF)]) 0 = 0x7F803EAB
    ∧ gives (.fcvt g0 2 1 3 1 255 0) (fmtsWeft [(1, 0, 0x7F803EAB)]) 0 = 0x7F2B := by decide +kernel
/-- Example 2 of 07. -/
theorem test_fcmp : gives (.fcmp g0 .lt 2 3 1 2) (fmtsWeft [(1, 0, 0x7FFF803C), (2, 0, 0x003C0040)]) 0 = 1 := by
  decide +kernel
/-- 1.0 + 2.0 in binary32, and 1/3 rounded to nearest. -/
theorem test_fadd : gives (.fadd g0 0 3 1 2) (xy 0x3F800000 0x40000000) 0 = 0x40400000 := by decide +kernel
theorem test_fdiv : gives (.fdiv g0 0 3 1 2) (xy 0x3F800000 0x40400000) 0 = 0x3EAAAAAB := by decide +kernel

/-! ## States that meet the hypotheses of the statements

Each theorem below is named for its statement, and shows for each of its clauses a concrete state and operands that meet the
clause's hypotheses together. `ready` is the hypothesis `Issuing` (`issuing_of`). -/

/-- The weft of slot 0. -/
def at0 (s : State) (w : Weft) : Bool := s.weft? 0 0 == some w

def rdy (w : Weft) (i : Instr) : Bool := ready (stateOf w) i (issueOf) w

theorem rdy_issuing {w : Weft} {i : Instr} (h : rdy w i = true) : Issuing (stateOf w) i issueOf w := issuing_of h

/-- A guard that no lane meets: v7 has bit 0 clear. -/
def off : Guard := ⟨7, false⟩

/-- v1 and v2, and an even register 4 to 9 each, in the first and the last lane. -/
def someWeft : Weft :=
  weftOf [(1, 0, 0x80000000), (1, 31, 7), (2, 0, 0xFFFFFFFF), (2, 31, 32), (4, 0, 1), (5, 31, 2), (6, 0, 3), (7, 31, 64)]

/-- A weft of the quadrant before the issuing one changes nothing. -/
def idles (s : State) (l k : Nat) : Bool :=
  match s.attempt exec l k with
  | (.next t, b) => t == s && !b
  | _ => false

/-- The next turn of the package issues instruction i, of weft k of its quadrant, after n that do not issue: the hypotheses of
StepRunsDecoded, one after the other. -/
def issuesNext (s : State) (i : Instr) (n : Nat) : Bool :=
  match s.agenda with
  | .issue l q :: rest =>
    let s1 := ({ s with agenda := rest } : State).ticked.periodTick (.issue l q)
    let ks := (s1.loom l).scan (q % 4)
    s.mgmt.powered && s1.mgmt.powered && !s1.mgmt.fail && (ks.take n).all (idles s1 l) && match ks.drop n with
    | [] => false
    | k :: _ =>
      match s1.weft? l k with
      | none => false
      | some w =>
        !s1.turnBarred l w && (s1.takeDue l k w).isNone && !w.movesDue && match w.issueEntry with
        | none => false
        | some e =>
          match s1.fetchPage l w.ctx e.pc with
          | .ok leaf pa =>
            let r := s1.fetchWord l w.ctx e.pc leaf pa
            let cur : Issue := { loom := l, slot := k, pc := e.pc, mask := e.mask, prio := e.prio, word := r.2,
                                 canon := (r.1.entryFor w.ctx r.2).canon, legacy := false }
            !s1.fillUnderWay l w.ctx (e.pc.toNat / 256) && decodeWith (r.1.entryFor w.ctx r.2) r.2 == .ok i false
              && match exec i { r.1 with cur := some cur } with
              | .next t => issuedBetween s1 { t with cur := none } l k
              | _ => false
          | _ => false
  | _ => false

/-- A weft in slot 4 that waits at a heddle comes before slot 0 in the quadrant's order. -/
def secondInTurn (s : State) : State :=
  (s.setWeft 0 4 { placedWeft none with wait := .heddle 0x20000 1 255 1 0 }).modLoom 0 fun y => { y with last := [0, 0, 0, 0] }

theorem witness_StepRunsDecoded :
    issuesNext (State.reset.withFetchWord 64 0x000000305063FC00) (.iadd g0 6 5 3 .wrap) 0 = true
      ∧ issuesNext (State.reset.withFetchWord 64 0x000000000003FE01) .iret 0 = true
      ∧ issuesNext (secondInTurn (State.reset.withFetchWord 64 0x000000305063FC00)) (.iadd g0 6 5 3 .wrap) 1 = true := by
  decide +kernel

theorem witness_StepRunsDecoded_events :
    let s : State := { State.reset with agenda := [.event .exlemLinkTrained] }
    s.mgmt.powered = true
      ∧ (({ s with agenda := [] } : State).ticked.periodTick (.event .exlemLinkTrained)).admits .exlemLinkTrained = true := by
  decide +kernel

theorem witness_DecodeEncode : (Instr.iadd g0 6 5 3 .wrap).flaw = none ∧ (Instr.iadd g0 6 5 3 .wrap).isEvent = false := by
  decide

theorem witness_MemoryStaysCanonical : State.reset.memWf = true ∧ ∃ t, step State.reset = .next t := ⟨by decide, _, rfl⟩

theorem witness_IntegerArithmetic :
    [Instr.iadd g0 3 1 2 .wrap, .isub g0 3 1 2 .sats, .imul g0 3 1 2, .imulh g0 3 1 2 true, .imad g0 3 1 2 4,
     .idiv g0 3 1 2 true, .irem g0 3 1 2 false, .imin g0 3 1 2 true, .imax g0 3 1 2 false, .iabs g0 3 1, .ineg g0 255 1].all
      (fun i => rdy someWeft i && (arithmeticRule someWeft i).isSome) = true
    ∧ [Instr.iand g0 3 1 2, .ior g0 3 1 2, .ixor g0 3 1 2, .inot g0 3 1, .logic3 g0 3 1 2 4 0x96, .shl g0 3 1 2,
       .shr g0 3 1 2, .sar g0 3 1 2, .rot g0 3 1 2, .popc g0 3 1, .clz g0 3 1, .ctz g0 3 1, .brev g0 3 1].all
      (fun i => rdy someWeft i && (logicRule issueOf someWeft i).isSome) = true := by decide +kernel

theorem witness_SelectionAndImmediates :
    [Instr.bfx g0 3 1 2 true, .bfi g0 3 1 2 4, .icmp g0 3 1 2 .lt true, .sel g0 3 1 2 4, .mov g0 3 1].all
      (fun i => rdy someWeft i && (selectRule someWeft i).isSome) = true
    ∧ [Instr.iaddImm g0 3 1 (-1), .imulImm g0 3 1 2, .andImm g0 3 1 0xFF, .orImm g0 3 1 1, .xorImm g0 3 1 1,
       .shlImm g0 3 1 32, .shrImm g0 3 1 (-1), .sarImm g0 3 1 31, .rotImm g0 3 1 33, .movi g0 3 (-3), .movhi g0 3 1 5].all
      (fun i => rdy someWeft i && (immediateRule issueOf someWeft i).isSome) = true := by decide +kernel

theorem witness_PairForms :
    [Instr.iadd64 g0 2 4 6, .imad64 g0 2 1 2 4 true, .shl64 g0 254 4 7, .lea g0 2 4 (-8)].all
      (fun i => rdy someWeft i && i.flaw.isNone && (pairRule someWeft i).isSome) = true := by decide +kernel

theorem witness_SystemRegisters :
    [Instr.movs g0 2 .team, .movs g0 2 .clock, .movs g0 3 .lane, .movs g0 3 .weft, .movs g0 3 .loom, .movs g0 3 .die,
     .movs g0 3 .node, .movs g0 3 .active, .movs g0 3 .role, .movs g0 3 .allot, .movs g0 3 .prio, .movs g0 3 .ctx,
     .movs g0 3 .fpx].all (fun i => rdy someWeft i && i.flaw.isNone) = true := by decide +kernel

theorem witness_LaneExchange :
    [Instr.shfl g0 3 1 2 .idx, .shfl g0 3 1 2 .up, .shfl g0 3 1 2 .down, .shfl g0 3 1 2 .xor, .ballot g0 3 1,
     .vote g0 3 1 .any, .vote g0 3 1 .all, .vote g0 3 1 .eq, .lprefix g0 3 1, .bcast g0 3 1 2, .elect g0 3].all
      (fun i => rdy someWeft i && (laneRule issueOf someWeft i).isSome) = true := by decide +kernel

theorem witness_ControlTransfers :
    [Instr.br g0 100 4, .brc g0 1 500 (-3), .jmp g0 255 4 7, .ret g0 4 7, .prio 9, .exit g0].all
      (fun i => rdy someWeft i && (linkOf i).isNone && (transferRule issueOf someWeft i).isSome) = true
    ∧ [Instr.call g0 2 7 4, .jmp g0 2 4 7].all
      (fun i => rdy someWeft i && i.flaw.isNone && (linkOf i).isSome && (transferRule issueOf someWeft i).isSome) = true := by
  decide +kernel

theorem witness_FrontierKept :
    let e : Entry := { pc := 0x20000, mask := 0xFF, prio := 4095, age := 0 }
    let es : List Entry := [{ e with pc := 0x20040, mask := 0x66 }, { e with pc := 0x20008, mask := 0x99 }]
    FrontierOk lanesWeft.held ∧ e ∈ lanesWeft.held ∧ (∀ a ∈ es, a.mask &&& ~~~e.mask = 0)
      ∧ es.Pairwise (fun a b => a.mask &&& b.mask = 0) := by
  refine ⟨⟨?_, ?_⟩, ?_, ?_, ?_⟩ <;> decide

theorem witness_NopYieldAndHints :
    rdy someWeft (.nop g0) = true ∧ rdy someWeft (.yield g0) = true
      ∧ (issueOf).act someWeft (.yield g0) ≠ 0 ∧ rdy someWeft (.yield off) = true
      ∧ (issueOf).act someWeft (.yield off) = 0
      ∧ (stateOf someWeft).cur = some issueOf ∧ (stateOf someWeft).weft? 0 0 = some someWeft
      ∧ (((after (.yield g0) (stateOf someWeft)).weft? 0 0).bind (·.yielded)).map (·.left) = some 1025 := by decide +kernel

theorem witness_Breakpoints :
    [Instr.brk g0 9, .trap g0 255].all (fun i => rdy someWeft i && (issueOf).act someWeft i != 0) = true
    ∧ [Instr.brk off 9, .trap off 255].all (fun i => rdy someWeft i && (issueOf).act someWeft i == 0) = true := by
  decide +kernel

/-- A weft of eight registers. -/
def smallWeft : Weft := { weftOf [(1, 0, 7)] with allot := 8 }

theorem witness_Allotment :
    let full : State := (stateOf smallWeft).modLoom 0 fun y => { y with growers := [1] }
    (rdy smallWeft (.vgrow off 1 16) = true ∧ (issueOf).act smallWeft (.vgrow off 1 16) = 0)
    ∧ (rdy someWeft (.vgrow g0 1 248) = true ∧ (issueOf).act someWeft (.vgrow g0 1 248) ≠ 0 ∧ 248 < someWeft.allot)
    ∧ (rdy smallWeft (.vgrow g0 1 16) = true ∧ smallWeft.allot ≤ 16 ∧ ((stateOf smallWeft).loom 0).growers = []
        ∧ blocksOf 16 - blocksOf smallWeft.allot ≤ ((stateOf smallWeft).loom 0).freeBlocks)
    ∧ (ready full (.vgrow g0 1 16) issueOf smallWeft = true ∧ blocksOf 16 - blocksOf smallWeft.allot ≠ 0
        ∧ (full.loom 0).growers ≠ [])
    ∧ (rdy someWeft (.vshrink off 8) = true ∧ (issueOf).act someWeft (.vshrink off 8) = 0)
    ∧ (rdy smallWeft (.vshrink g0 16) = true ∧ (issueOf).act smallWeft (.vshrink g0 16) ≠ 0 ∧ smallWeft.allot < 16)
    ∧ (rdy someWeft (.vshrink g0 8) = true ∧ portAtOrAbove someWeft 8 = false ∧ (stateOf someWeft).pending 0 0 = []
        ∧ 8 < someWeft.allot)
    ∧ (rdy smallWeft (.vshrink g0 8) = true ∧ smallWeft.allot = 8) := by decide +kernel

theorem witness_ElementArithmetic :
    let w := fmtsWeft [(1, 0, 0x3F800000), (2, 0, 0x7F800001)]
    [Instr.fadd g0 0 3 1 2, .fsub g0 1 3 1 2, .fmul g0 2 3 1 2, .fma g0 3 3 1 2 4, .fmin g0 4 3 1 2, .fmax g0 0 3 1 2,
     .fabs g0 0 3 1, .fneg g0 0 3 1, .fscale g0 0 3 1 2, .fround g0 .own 0 3 1].all
      (fun i => rdy w i && (elementRule issueOf w i).isSome) = true := by decide +kernel

theorem witness_FloatFunctions :
    let w := fmtsWeft [(1, 0, 0x3F800000), (2, 0, 0x7F800001)]
    [Instr.fdiv g0 0 3 1 2, .frcp g0 0 3 1, .fsqrt g0 1 3 1, .frsq g0 0 3 1, .fexp2 g0 0 3 1, .flog2 g0 2 3 1,
     .fsinpi g0 0 3 1, .fcospi g0 0 3 1, .ftanh g0 3 3 1].all
      (fun i => rdy w i && (floatRule w i).any fun x => (slotOf w x.1).kind == 0) = true
    ∧ [Instr.fdiv g0 4 3 1 2, .ftanh g0 5 3 1].all
      (fun i => rdy w i && (floatRule w i).any fun x => (slotOf w x.1).kind != 0) = true := by decide +kernel

theorem witness_Conversions :
    let w := fmtsWeft [(1, 0, 0x3F800000), (2, 0, 0x7F800001)]
    [Instr.fcvt g0 1 0 3 1 2 0, .itof g0 true 0 3 1, .fdot g0 2 0 3 1 2 4].all
      (fun i => rdy w i && (convertRule issueOf w i).any fun x => x.2.2.1) = true
    ∧ [Instr.fdot g0 2 5 3 1 2 4].all (fun i => rdy w i && (convertRule issueOf w i).any fun x => !x.2.2.1) = true := by
  decide +kernel

theorem witness_WordResults :
    let w := fmtsWeft [(1, 0, 0x3F800000), (2, 0, 0x7F800001)]
    [Instr.fcmp g0 .un 0 3 1 2, .fclass g0 2 3 1 3, .ftoi g0 .rtz true 0 3 1 0, .fpack g0 2 3 1 2 0,
     .funpack g0 true 4 3 1 3].all (fun i => rdy w i && (wordRule w i).any fun x => x.2.1) = true
    ∧ [Instr.fclass g0 2 3 1 4, .ftoi g0 .own false 0 3 1 1, .fpack g0 2 3 1 2 4, .funpack g0 false 0 3 1 1].all
      (fun i => rdy w i && (wordRule w i).any fun x => !x.2.1) = true := by decide +kernel

theorem witness_FormatSlots :
    let w := weftOf [(2, 0, 0xA003F8F1), (4, 0, 0xFFFFFFFF), (5, 0, 0xFFFFFFFF)]
    (rdy w (.setfmt off 1 2) = true ∧ (issueOf).act w (.setfmt off 1 2) = 0)
    ∧ (rdy w (.setfmt g0 1 2) = true ∧ lowestActive ((issueOf).act w (.setfmt g0 1 2)) = some 0
        ∧ (Fmt.ofDef (w.pair 2 0)).rejected 1 = false)
    ∧ (rdy w (.setfmt g0 15 4) = true ∧ (Fmt.ofDef (w.pair 4 0)).rejected 15 = true)
    ∧ (rdy w (.getfmt g0 0 2) = true ∧ (Instr.getfmt g0 0 2).flaw = none)
    ∧ (rdy w (.fflags g0 3 63) = true ∧ (issueOf).act w (.fflags g0 3 63) ≠ 0)
    ∧ (rdy w (.fflags off 3 0) = true ∧ (issueOf).act w (.fflags off 3 0) = 0) := by decide +kernel

/-! ### Memory -/

/-- The 64-bit values of the register pairs from v2 on in lane 0; v1 is 1 there, so that a guard of v1 leaves lane 0 alone. -/
def pairsWeft (ps : List (Nat × DWord)) : Weft :=
  weftOf ((1, 0, 1) :: ps.flatMap fun p => [(p.1, 0, p.2.extractLsb' 0 32), (p.1 + 1, 0, p.2.extractLsb' 32 32)])

/-- Lane 0 alone. -/
def only0 : Guard := ⟨1, false⟩

/-- Byte 0 of the k-th 2 TiB of the context's addresses. -/
def region (k : Nat) : DWord := BitVec.ofNat 64 (k * 2 ^ 41)

/-- HBM with a page table at 10000H, laid out byte by byte: region 0 (2C7H) maps HBM to itself; 1 (2C5H) is not resident,
2 (287H) read only, 3 compressed (29BH, through tables at 40000H and 44000H), 4 (2E7H) market memory, 5 (2C7H and bit 51) beyond
HBM, 6 (2CBH) a UO page of HBM, 7 (2E5H) market memory that is not resident; the others are not valid (R359). -/
def pages : Mem :=
  [(0x10000, 0xC7), (0x10001, 0x02), (0x10008, 0xC5), (0x10009, 0x02), (0x10010, 0x87), (0x10011, 0x02), (0x10018, 0x01),
   (0x1001A, 0x04), (0x10020, 0xE7), (0x10021, 0x02), (0x10028, 0xC7), (0x10029, 0x02), (0x1002E, 0x08), (0x10030, 0xCB),
   (0x10031, 0x02), (0x10038, 0xE5), (0x10039, 0x02), (0x40000, 0x01), (0x40001, 0x40), (0x40002, 0x04), (0x44000, 0x9B),
   (0x44001, 0x02)]

def withHbm (m : Mem) (s : State) : State := { s with mem := { s.mem with hbm := m } }

def paged (w : Weft) : State := withHbm pages (stateOf w)

/-- Addresses: v2 HBM, v4 not resident, v6 read only, v8 compressed, v10 not valid, v12 beyond HBM, v14 no address, v16 beyond the
share, v18 unaligned, v20 the share, v22 market memory. -/
def addrsWeft : Weft :=
  { pairsWeft [(2, 0x100040), (4, region 1), (6, region 2), (8, region 3), (10, region 9), (12, region 5), (14, 0x10000000000000),
      (16, 0xFFF0000000001000), (18, 0x100041), (20, 0xFFF0000000000FF8), (22, region 4)] with
    fmts := [(2, 0x0000000100003869), (3, 0x00000000A000794B), (4, 0x00000000A000794B), (5, 0x0000008000000000)] }

def takes (s : State) (v : View) (x : Accesses) : Bool :=
  !s.rangeHolds v x.load x.store x.list && !s.bankHolds v x.list
    && (x.list.all fun a => accessOrder s v x.store a == 90 || (x.resid && accessOrder s v x.store a == 70))
    && (s.errorOf v x.load x.store x.list).isNone

theorem takes_effect {s : State} {v : View} {x : Accesses} (h : takes s v x = true) : TakesEffect s v x := by
  simp only [takes, Bool.and_eq_true, Bool.not_eq_true', List.all_eq_true, Bool.or_eq_true, beq_iff_eq,
    Option.isNone_iff_eq_none] at h
  obtain ⟨⟨⟨h1, h2⟩, h3⟩, h4⟩ := h
  exact ⟨⟨h1, h2⟩, fun a ha => h3 a ha, (s.errorOf_none v x).1 h4⟩

/-- The instruction is issuing, and its accesses take effect. -/
def accesses (w : Weft) (i : Instr) : Bool :=
  ready (paged w) i issueOf w && i.flaw.isNone
    && (accessRule w ((issueOf).act w i) i).any fun x => takes (paged w) (viewAt (paged w) issueOf w) x

theorem witness_Loads :
    [Instr.ld only0 24 2 255 0 .b32 false, .ld only0 24 20 255 0 .b64 true, .ldw only0 2 24 2 1 0, .ld off 24 4 255 0 .b8 false].all
      (fun i => accesses addrsWeft i && (loadRule (paged addrsWeft) (viewAt (paged addrsWeft) issueOf addrsWeft) addrsWeft i).isSome)
      = true
    ∧ [Instr.ldResid only0 24 4 1 0 .b32 false, .ldResid only0 24 2 255 0 .b64 true, .ldwResid only0 2 24 4 26 0,
       .ldwResid only0 2 24 2 26 0].all
      (fun i => accesses addrsWeft i
        && (residRule (paged addrsWeft) (viewAt (paged addrsWeft) issueOf addrsWeft) addrsWeft i).isSome) = true := by decide +kernel

theorem witness_Stores :
    [Instr.st only0 24 2 255 0 .b8 false, .st only0 24 20 255 0 .b64 true, .st only0 24 22 255 8 .b16 false,
     .stw only0 2 24 2 1 0].all (fun i => accesses addrsWeft i && (storeRule addrsWeft i).isSome) = true := by decide +kernel

theorem witness_Atomics :
    [Instr.atomAdd only0 24 2 255 0 false .plain, .atomMin only0 24 20 255 0 true .acq, .atomMax only0 24 22 255 0 true .rel,
     .atomAnd only0 24 2 255 4 false .acqrel, .atomOr only0 24 2 255 0 true .plain, .atomXor only0 24 2 255 0 false .plain,
     .atomXchg only0 24 2 255 0 false .plain, .atomCas only0 24 2 26 0 true .plain, .atomInc only0 24 2 255 0 false .plain,
     .atomDec only0 24 2 255 0 false .plain].all
      (fun i => accesses addrsWeft i && (atomicRule addrsWeft i).isSome && (issueOf).act addrsWeft i != 0) = true := by
  decide +kernel

theorem witness_FloatAtomic :
    (accesses addrsWeft (.atomFadd only0 0 24 2 255 0 .plain) = true
      ∧ (issueOf).act addrsWeft (.atomFadd only0 0 24 2 255 0 .plain) ≠ 0)
    ∧ (ready (paged addrsWeft) (.atomFadd only0 5 24 2 255 0 .plain) issueOf addrsWeft = true
      ∧ (slotOf addrsWeft 5).kind = 2) := by decide +kernel

/-- Lane 0 meets a case first, none before it. -/
def stopsWith (n : Nat) (w : Weft) (i : Instr) : Bool :=
  let s := paged w
  let v := viewAt s issueOf w
  ready s i issueOf w && (accessRule w ((issueOf).act w i) i).any fun x =>
    !s.rangeHolds v x.load x.store x.list && !s.bankHolds v x.list && !x.resid
      && match x.list with
      | a :: post => accessOrder s v x.store a == n && post.all fun b => n ≤ accessOrder s v x.store b
      | [] => false

theorem witness_AccessStops :
    (rdy addrsWeft (.ld off 24 4 255 0 .b32 false) = true ∧ (issueOf).act addrsWeft (.ld off 24 4 255 0 .b32 false) = 0
      ∧ (accessRule addrsWeft 0 (.ld off 24 4 255 0 .b32 false)).isSome = true)
    ∧ stopsWith 10 addrsWeft (.ld g0 24 14 255 0 .b32 false) = true
    ∧ stopsWith 20 addrsWeft (.st g0 24 16 255 0 .b32 false) = true
    ∧ stopsWith 25 addrsWeft (.atomAdd g0 24 18 255 0 false .plain) = true
    ∧ stopsWith 30 addrsWeft (.ld g0 24 10 255 0 .b32 false) = true
    ∧ stopsWith 40 addrsWeft (.ld g0 24 12 255 0 .b32 false) = true
    ∧ stopsWith 50 addrsWeft (.st g0 24 6 255 0 .b32 false) = true
    ∧ stopsWith 60 addrsWeft (.ldw g0 2 24 8 255 0) = true
    ∧ stopsWith 70 addrsWeft (.stw only0 2 24 4 255 0) = true
    ∧ (let s := (paged addrsWeft).modLoom 0 fun y => { y with ranges := [{ op := 0, lo := 0xFF8, hi := 0xFFB, write := true }] }
       let i : Instr := .ld only0 24 20 255 0 .b32 false
       ready s i issueOf addrsWeft = true ∧ (accessRule addrsWeft ((issueOf).act addrsWeft i) i).any (fun x =>
         s.rangeHolds (viewAt s issueOf addrsWeft) x.load x.store x.list) = true)
    -- a user-mode store to a launch queue's base, and the checks that it then meets (R6)
    ∧ (let s : State := { paged addrsWeft with qbase := 0x100000 }
       let i : Instr := .st only0 24 2 255 0 .b32 false
       addrsWeft.sv = false ∧ (accessRule addrsWeft ((issueOf).act addrsWeft i) i).any (fun x =>
         let v := viewAt s issueOf addrsWeft
         x.store && match x.list with
         | a :: _ => (s.spots v a).any fun sp => (fieldAt s.devBlocks sp).any fun q => q.1 != 0
         | [] => false) = true
       ∧ s.cur = some issueOf ∧ s.weft? 0 0 = some addrsWeft ∧ s.svDenied 0 addrsWeft i ((issueOf).act addrsWeft i) ≠ none) := by
  decide +kernel

/-- An access that meets a word in uncorrectable error, after a first lane that meets none. -/
def meets (s : State) (w : Weft) (i : Instr) : Bool :=
  let v := viewAt s issueOf w
  ready s i issueOf w && (accessRule w ((issueOf).act w i) i).any fun x =>
    !s.rangeHolds v x.load x.store x.list && !s.bankHolds v x.list && (x.list.all fun a => accessOrder s v x.store a == 90)
      && (s.errorOf v x.load x.store x.list).isSome

theorem meets_error {s : State} {w : Weft} {i : Instr} (h : meets s w i = true) :
    ∃ x a, accessRule w ((issueOf).act w i) i = some x ∧ Issuing s i issueOf w ∧ NotHeld s (viewAt s issueOf w) x ∧ a ∈ x.list
      ∧ (∀ b ∈ x.list, accessOrder s (viewAt s issueOf w) x.store b = 90) ∧ MeetsError s (viewAt s issueOf w) x a := by
  simp only [meets, Bool.and_eq_true, Option.any_eq_true, Bool.not_eq_true', List.all_eq_true, beq_iff_eq] at h
  obtain ⟨h1, x, hx, ⟨⟨⟨h2, h3⟩, h4⟩, h5⟩⟩ := h
  have : ¬ ∀ a ∈ x.list, ¬ MeetsError s (viewAt s issueOf w) x a := fun hn => by
    rw [(s.errorOf_none _ x).2 hn] at h5; cases h5
  obtain ⟨a, ha, hm⟩ := Classical.not_forall.1 this |>.imp fun a h => Classical.not_imp.1 h
  exact ⟨x, a, hx, issuing_of h1, ⟨h2, h3⟩, ha, h4, Classical.not_not.1 hm⟩

/-- Word 511 of the share and the HBM line of v2's address are in uncorrectable error. -/
def marked (s : State) : State :=
  s.modMem fun m => (m.setMark (.lmem 0 511) true).setMark (markOf .hbm 0x100040) true

theorem witness_AccessStops_error :
    [Instr.ld only0 24 20 255 0 .b32 false, .st only0 24 20 255 0 .b32 false, .ld only0 24 2 255 0 .b32 false,
     .atomAdd only0 24 2 255 0 false .plain].all (meets (marked (paged addrsWeft)) addrsWeft) = true := by decide +kernel

theorem witness_FenceAndPaging :
    [Instr.fence g0 .weft, .fence g0 .die, .fence off .system, .pagein only0 4 255 0, .pagein only0 2 255 0,
     .probe g0 24 2 255 0].all (fun i => ready (paged addrsWeft) i issueOf addrsWeft) = true
    ∧ [(Instr.pagein only0 14 255 0, 10), (.pagein only0 16 255 0, 20), (.pagein only0 10 255 0, 30),
       (.pagein only0 12 255 0, 40)].all (fun p => ready (paged addrsWeft) p.1 issueOf addrsWeft
        && ((activeLanes ((issueOf).act addrsWeft p.1)).map
          (addressOf addrsWeft (match p.1 with | .pagein _ a _ _ => a | _ => 0) 255 0)).all
            fun va => ((paged addrsWeft).spot (viewAt (paged addrsWeft) issueOf addrsWeft) va.toNat).caseOf false == p.2) = true
    ∧ [Instr.pagein only0 4 255 0, .pagein only0 2 255 0].all (fun i =>
        ((activeLanes ((issueOf).act addrsWeft i)).map (addressOf addrsWeft (match i with | .pagein _ a _ _ => a | _ => 0) 255 0)).all
          fun va => 50 ≤ ((paged addrsWeft).spot (viewAt (paged addrsWeft) issueOf addrsWeft) va.toNat).caseOf false) = true := by
  decide +kernel

/-- The bytes that a store leaves, low byte first; an atomic gives the old value and leaves the new one (R252, R257). -/
def hbmAfter (i : Instr) (w : Weft) (a n : Nat) : Nat := Memory.readLe (after i (paged w)).mem.hbm a n

theorem test_st_bytes : hbmAfter (.st only0 24 2 255 0 .b16 false)
    { addrsWeft with regs := SMap.put addrsWeft.regs (32 * 24) 0x12345678 } 0x100040 4 = 0x5678 := by decide +kernel
theorem test_atom_add : hbmAfter (.atomAdd only0 1 2 255 0 false .plain) addrsWeft 0x100040 4 = 1
    ∧ laneOf (after (.atomAdd only0 1 2 255 0 false .plain) (paged addrsWeft)) 1 0 = 0 := by decide +kernel
theorem test_atom_inc_wraps : hbmAfter (.atomInc only0 24 2 255 0 false .plain) addrsWeft 0x100040 4 = 0 := by decide +kernel
theorem test_ld_share : laneOf (after (.ld only0 3 20 255 0 .b32 false)
    ((paged addrsWeft).modLm 0 fun m => Memory.writeLe m 0xFF8 4 0xA1B2C3D4)) 3 0 = 0xA1B2C3D4 := by decide +kernel

/-! ### Engines -/

/-- The read of Rules/Engine.lean, as a function. -/
def readAt (w : Weft) (i : Instr) (s : State) (addr : DWord) (n align : Nat) : Option (State × Nat) :=
  let v := viewAt s issueOf w
  let x := blockAt issueOf w i addr n
  if addr.toNat % align = 0 ∧ takes s v x = true then
    let s1 := noted s v x
    some (s1, valueAt 0 (byteAt s1) (s1.spots v ⟨0, addr, n, 1⟩))
  else none

theorem reads_met {w : Weft} {i : Instr} {s s1 : State} {addr : DWord} {n align val : Nat}
    (h : readAt w i s addr n align = some (s1, val)) : Reads issueOf w i s addr n align s1 val := by
  unfold readAt at h
  dsimp only at h
  split at h
  · rename_i hc
    obtain ⟨rfl, rfl⟩ := Prod.mk.inj (Option.some.inj h)
    exact ⟨hc.1, takes_effect hc.2, rfl, rfl⟩
  · cases h

def recordAt (w : Weft) (i : Instr) (s : State) (addr : DWord) : Option (State × BitVec 832) :=
  (readAt w i s addr 104 128).map fun r => (r.1, BitVec.ofNat 832 r.2)

def indexAt (w : Weft) (i : Instr) (s : State) (t : Tensor) : Option (State × BitVec 832) :=
  if t.hasIndex then recordAt w i s t.irec else some (s, 0)

/-- Blocks and records in HBM: at 81000H a copy's block of the records at 82000H and 83000H; 40H bytes on each time, one of a
record of zeros, an empty block, a fabric block of 4 bytes, one whose counter is not aligned, one of the route at 84000H, a
matrix block of one element of each side, and one of dyadic A. The records have rank 1 and four elements of f0 at 100000H and
at 200000H. -/
def blocks : Mem :=
  [(0x81001, 0x20), (0x81002, 0x08), (0x81009, 0x30), (0x8100A, 0x08), (0x81041, 0x50), (0x81042, 0x08), (0x81049, 0x50),
   (0x8104A, 0x08), (0x810D8, 0x04), (0x81118, 0x04), (0x8111D, 0x40), (0x81120, 0x01), (0x81121, 0x10), (0x81122, 0x08),
   (0x81158, 0x20), (0x81169, 0x40), (0x8116A, 0x08), (0x81180, 0x40), (0x81184, 0x01), (0x81185, 0x01), (0x81186, 0x10),
   (0x811C0, 0x40), (0x811C2, 0x50), (0x811C4, 0x01), (0x811C5, 0x01), (0x811C6, 0x10), (0x82002, 0x10), (0x82008, 0x10),
   (0x82009, 0x70), (0x82028, 0x04), (0x82040, 0x01), (0x82058, 0x04), (0x83002, 0x20), (0x83008, 0x10), (0x83009, 0x70),
   (0x83028, 0x04), (0x83040, 0x01), (0x83058, 0x04), (0x84004, 0x02), (0x84008, 0x01), (0x84042, 0x07)]

/-- An accumulator range of one tile in entry 0, working, with f0's cells. -/
def ownOf (st : OwnState) : Own :=
  { state := st, t := 1, ctx := 1, gen := 0, team := 0, key := 0x77, spill := 0x300000, def_ := binary32, tiles := [0],
    dtime := 0, was := .free }

def boardOf (k : Nat) (st : BoardState) : Board :=
  { state := st, kind := k, team := 0, owner := none, busy := false, rsv := false, ctx := 1, gen := 9, tgt := 0, key := 0xA17,
    mask := 0xFFFFFFFFFFFFFFFF, addr := 0x100000, len := 32, hnd := 0, area := 0, was := .free, serial := 0 }

/-- Tile slots 0 and 1 and accumulator tile 0 are mapped; a board entry of kind 2 stands in place 3; the TLB holds region 0. -/
def furnish (s : State) : State :=
  ((withHbm (pages ++ blocks) s).modTeam 0 0 fun t => { t with tiles := [(0, 0), (1, 1)], accs := [(0, 0, 0)] }).modLoom 0 fun y =>
    { y with owners := [(0, ownOf .working)], board := [(3, boardOf 2 .valid)],
             tlbCore := [{ ctx := 1, level := 1, tag := 0, pte := 0x2C7 }] }

/-- A weft with a role; v2 to v20 hold the addresses of the blocks, v22 market memory, v24 an odd address, v26 a market page that is
not resident, v28 HBM, v30 (one word) a handle, v31 a loom, v32 a loom that there is not, v33 a count. -/
def roleWeft (r : Role) : Weft :=
  { pairsWeft [(2, 0x81000), (4, 0x81040), (6, 0x81080), (8, 0x810C0), (10, 0x81100), (12, 0x81140), (14, 0x81180), (16, 0x811C0),
      (22, region 4), (24, 0x100041), (26, region 7), (28, 0x100080), (30, 3 + 9 * 65536 + 5 * 2 ^ 32), (32, 200 + 4 * 2 ^ 32)] with
    role := r, fmts := [(2, 0x0000000100003869), (5, 0x0000008000000000), (6, 0x0000002000001846)] }

def engineState (w : Weft) : State := furnish (paged w)

/-- The queue of the engine is full. -/
def fullQueue (k : OcClass) (w : Weft) (i : Instr) (s : State) : State :=
  s.modLoom 0 fun y => y.setQueue k (List.replicate 32 { baseOp s issueOf w i with slot := 5 })

def rdyAt (s : State) (w : Weft) (i : Instr) : Bool := ready s i issueOf w

def acts (w : Weft) (i : Instr) : Bool := (issueOf).act w i != 0

/-- The three cases of Enters. -/
def entersB (k : OcClass) (w : Weft) (i : Instr) : Bool :=
  rdyAt (engineState w) w i && acts w i && ((engineState w).loom 0).queueLoad k < 32
    && (let s := fullQueue k w i (engineState w)
        rdyAt s w i && 32 ≤ (s.loom 0).queueLoad k)

/-- What a copy, gather or scatter meets: interlocked, or the outcome of its check. -/
def copyMeets (s : State) (w : Weft) (i : Instr) (t : TileSide) (n : BitVec 4) (a : Reg) : Option (Bool × Option Cause) := do
  let (s0, blk) ← readAt w i s (w.pair a (laneL issueOf w i)) 64 64
  let (s1, r0) ← if t = .ts then some (s0, 0) else recordAt w i s0 (BitVec.ofNat 64 blk)
  let (s2, r1) ← if t = .td then some (s1, 0) else recordAt w i s1 (BitVec.ofNat 64 (blk / 2 ^ 64))
  let (s3, i0) ← indexAt w i s2 (Tensor.ofBits r0)
  let (s4, i1) ← indexAt w i s3 (Tensor.ofBits r1)
  let (o, other) := copyCaptures s4 issueOf w i t n a blk r0 r1 i0 i1
  some (s4.interlocked 0 w opTouch o.copyTouch o.id, s4.copyCheck o other)

/-- The cause that a copy meets; none where it is accepted. -/
def copyEnds (w : Weft) (i : Instr) (t : TileSide) (n : BitVec 4) (a : Reg) (c : Option Nat) : Bool :=
  entersB ((engineOf i).getD .copy) w i && (copyMeets (engineState w) w i t n a).any fun r => !r.1 && r.2.map (·.cause) == c

/-- An operation of the copy engine that writes tile slot 0 of the team. -/
def tileCopy (w : Weft) : Op :=
  { baseOp (engineState w) issueOf w (.copy only0 .td 0 40 6) with
    slot := 5, defs := eightDefs [], recs := [0, 0, 0] }

theorem witness_CopyIssue :
    (rdy (roleWeft .copy) (.copy off .none 0 40 2) = true ∧ acts (roleWeft .copy) (.copy off .none 0 40 2) = false)
    ∧ copyEnds (roleWeft .copy) (.copy only0 .none 0 40 2) .none 0 2 none = true
    ∧ copyEnds (roleWeft .copy) (.copy only0 .none 0 40 4) .none 0 4 (some 0x10) = true
    ∧ copyEnds (roleWeft .copy) (.gather only0 .none 0 40 2) .none 0 2 (some 0x10) = true
    ∧ copyEnds (roleWeft .copy) (.scatter only0 .none 0 40 2) .none 0 2 (some 0x10) = true
    ∧ (let w := roleWeft .copy
       let s := { (engineState w).modLoom 0 fun y => { y with copyQ := [tileCopy w] } with fresh := 1 }
       rdyAt s w (.copy only0 .td 0 40 2) = true
         ∧ (copyMeets s w (.copy only0 .td 0 40 2) .td 0 2).any (fun r => r.1) = true) := by decide +kernel

theorem witness_CompressIssue :
    [Instr.cmpst only0 0 40 2 1, .expld only0 2 40 6 1].all (fun i => entersB .gath (roleWeft .copy) i
      && (readAt (roleWeft .copy) i (engineState (roleWeft .copy))
          ((roleWeft .copy).pair (match i with | .cmpst _ _ _ a _ | .expld _ _ _ a _ => a | _ => 0) 0) 32 32).isSome) = true
    ∧ (rdy (roleWeft .copy) (.cmpst off 0 40 2 1) = true ∧ acts (roleWeft .copy) (.cmpst off 0 40 2 1) = false) := by
  decide +kernel

/-- The block of a fabric operation. -/
def fabBlock (w : Weft) (i : Instr) (a : Reg) : Option FabPlan :=
  (readAt w i (engineState w) (w.pair a (laneL issueOf w i)) 64 64).map fun r => FabPlan.ofBlock (BitVec.ofNat 512 r.2)

theorem witness_FabricIssue :
    [Instr.xput only0 40 8, .xget only0 40 8, .xatom only0 .add 0 40 8 1 0, .xatom only0 .fadd 0 40 8 1 0].all
      (fun i => entersB .fab (roleWeft .copy) i && (fabBlock (roleWeft .copy) i 8).any fun p => !p.cnt && p.len == 4) = true
    ∧ (entersB .fab (roleWeft .copy) (.xput only0 40 10) = true
        ∧ (fabBlock (roleWeft .copy) (.xput only0 40 10) 10).any (fun p => p.cnt && p.ctr.toNat % 8 != 0) = true)
    ∧ (entersB .fab (roleWeft .copy) (.xatom only0 .add 0 40 6 1 0) = true
        ∧ (fabBlock (roleWeft .copy) (.xatom only0 .add 0 40 6 1 0) 6).any (fun p => !p.cnt && p.len == 0) = true)
    ∧ (entersB .fab (roleWeft .copy) (.xatom only0 .fadd 5 40 8 1 0) = true
        ∧ faddSlot (slotOf (roleWeft .copy) 5) = false)
    ∧ (rdy (roleWeft .copy) (.xget off 40 8) = true ∧ acts (roleWeft .copy) (.xget off 40 8) = false) := by decide +kernel

/-- The block, the route's head and its node list that an xred reads. -/
def redReads (w : Weft) (i : Instr) (a : Reg) : Option (FabPlan × Nat × Nat) := do
  let (s0, blk) ← readAt w i (engineState w) (w.pair a (laneL issueOf w i)) 64 64
  let p := FabPlan.ofBlock (BitVec.ofNat 512 blk)
  let (s1, head) ← readAt w i s0 p.route 64 64
  let (_, ids) ← readAt w i s1 (p.route + 64) (2 * (head / 2 ^ 32 % 2 ^ 13)) 1
  some (p, head, ids)

theorem witness_ReductionIssue :
    (rdyAt (engineState (roleWeft .copy)) (roleWeft .copy) (.xred only0 .sum 5 40 12) = true
      ∧ (slotOf (roleWeft .copy) 5).kind = 2)
    ∧ (entersB .fab (roleWeft .copy) (.xred only0 .sum 0 40 12) = true ∧ (slotOf (roleWeft .copy) 0).kind = 0)
    ∧ (redReads (roleWeft .copy) (.xred only0 .sum 0 40 12) 12).any (fun r => !r.1.cnt && r.2.1 / 2 ^ 32 % 2 ^ 13 == 2
        && r.2.1 / 2 ^ 64 % 2 ^ 192 != 0
        && (List.range 2).any fun k => r.2.2 / 2 ^ (16 * k) % 4096 == r.2.1 / 2 ^ 256 % 4096) = true
    ∧ (entersB .fab (roleWeft .copy) (.xred only0 .max 0 40 6) = true
        ∧ (redReads (roleWeft .copy) (.xred only0 .max 0 40 6) 6).any (fun r => r.2.1 / 2 ^ 32 % 2 ^ 13 == 0) = true)
    ∧ (entersB .fab (roleWeft .copy) (.xred only0 .min 0 40 10) = true
        ∧ (fabBlock (roleWeft .copy) (.xred only0 .min 0 40 10) 10).any (fun p => p.cnt && p.ctr.toNat % 8 != 0) = true) := by
  decide +kernel

/-- What a bankop meets: its check's cause, or the case of its pages. -/
def bankMeets (w : Weft) (i : Instr) (op : BankOp) (n : BitVec 4) (a b cc : Reg) : Option Nat × Nat :=
  let s := engineState w
  let l := laneL issueOf w i
  let o : Op := { baseOp s issueOf w i with
    opa := w.pair a l, opb := (w.lane b l).setWidth 64,
    opc := if op = .cvt ∨ op = .zero ∨ op = .transp then 0 else (w.lane cc l).setWidth 64,
    defs := eightDefs [w.fmt n, if op = .cvt then w.fmt (cc.extractLsb' 0 4) else 0] }
  ((o.bankPlan.check l).map (·.cause), (s.bankCases (s.opView o) o.bankPlan).1)

def bankEnds (op : BankOp) (n : BitVec 4) (a b cc : Reg) (r : Option Nat × Nat) : Bool :=
  let w := roleWeft .vector
  entersB .bank w (.bankop only0 op n a b cc) && bankMeets w (.bankop only0 op n a b cc) op n a b cc == r

theorem witness_BankAndMoveIssue :
    bankEnds .add 0 22 33 1 (none, 90) = true ∧ bankEnds .transp 0 24 33 0 (some 8, 55) = true
    ∧ bankEnds .scale 6 22 33 1 (some 7, 90) = true ∧ bankEnds .max 0 28 33 1 (none, 55) = true
    ∧ bankEnds .zero 0 26 33 0 (none, 70) = true
    ∧ (let w := roleWeft .vector
       let s := engineState w
       entersB .copy w (.sbMove only0 40 30 31) = true ∧ (s.movable 0 1 (w.lane 30 0)).isSome = true ∧ (w.lane 31 0).toNat < 192
         ∧ (w.lane 31 0).toNat ≠ 0
         ∧ entersB .copy w (.sbMove only0 40 1 31) = true ∧ (s.movable 0 1 (w.lane 1 0)).isNone = true
         ∧ entersB .copy w (.sbMove only0 40 30 32) = true ∧ 192 ≤ (w.lane 32 0).toNat) := by decide +kernel

/-- What a matrix operation of a block meets. -/
def matrixMeets (s : State) (w : Weft) (i : Instr) (a : Reg) : Option (Bool × Option Cause) := do
  let (s0, blk) ← readAt w i s (w.pair a (laneL issueOf w i)) 64 64
  let ds := (blockSlots i (BitVec.ofNat 512 blk)).map w.fmt
  let o := { baseOp s0 issueOf w i with
    opa := w.pair a (laneL issueOf w i), block := BitVec.ofNat 512 blk, defs := eightDefs (ds ++ ds.map (Rules.scaleOf w)) }
  some (s0.interlocked 0 w opTouch (opTouch o) s0.fresh, s0.matrixCheck o)

def matrixEnds (i : Instr) (a : Reg) (c : Option Nat) : Bool :=
  let w := roleWeft .matrix
  entersB .mat w i && (matrixMeets (engineState w) w i a).any fun r => !r.1 && r.2.map (·.cause) == c

def rowEnds (i : Instr) (c : Option Nat) : Bool :=
  let w := roleWeft .matrix
  let s := engineState w
  entersB .mat w i && (rowCaptures w 0 i).any fun p =>
    let o := { baseOp s issueOf w i with opa := p.1, defs := eightDefs p.2 }
    !s.interlocked 0 w opTouch (opTouch o) s.fresh && (s.matrixCheck o).map (·.cause) == c

theorem witness_MatrixIssue :
    matrixEnds (.mma only0 40 14 1) 14 none = true ∧ matrixEnds (.mmaDy only0 40 16 1) 16 none = true
    ∧ matrixEnds (.mmaDy only0 40 14 1) 14 (some 0x07) = true ∧ matrixEnds (.mmaSp only0 40 14 1) 14 (some 0x10) = true
    ∧ matrixEnds (.mmaSp only0 40 6 1) 6 none = true ∧ matrixEnds (.delta only0 40 6 1) 6 none = true
    ∧ rowEnds (.aspill only0 40 28 0) none = true ∧ rowEnds (.afill only0 40 24 0) (some 0x08) = true
    ∧ rowEnds (.ascale only0 0 40 1 0) none = true ∧ rowEnds (.acvt only0 2 40 0) none = true
    ∧ rowEnds (.acvt only0 0 40 31) (some 0x13) = true
    ∧ (let w := roleWeft .matrix
       let s0 := engineState w
       let s := { s0.modLoom 0 fun y => { y with matQ := [{ baseOp s0 issueOf w (.acvt only0 0 40 0) with slot := 5 }] } with fresh := 1 }
       rdyAt s w (.mma only0 40 6 1) = true ∧ (matrixMeets s w (.mma only0 40 6 1) 6).any (fun r => r.1) = true) := by
  decide +kernel

/-! ### Tile slots and accumulator ranges -/

def mW : Weft := roleWeft .matrix
/-- The matrix weft's state, with the loom changed. -/
def mState (f : Loom → Loom) : State := (engineState mW).modLoom 0 f
/-- The instruction is issuing in a state, with a lane active. -/
def goes (s : State) (i : Instr) : Bool := rdyAt s mW i && acts mW i
/-- It is issuing with no lane active. -/
def idle (i : Instr) : Bool := rdyAt (engineState mW) mW i && !acts mW i
/-- The range of entry 0 in a state of its own. -/
def withOwn (o : Own) : State := mState fun y => { y with owners := [(0, o)] }
/-- An operation of the team on accumulator range 0, and on tile slots 0 and 1. -/
def accBusy : State :=
  { (mState fun y => { y with matQ := [{ baseOp (engineState mW) issueOf mW (.acvt only0 0 40 0) with slot := 5 }] }) with
    fresh := 1 }
def tileBusy : State :=
  { (mState fun y => { y with copyQ := [{ baseOp (engineState mW) issueOf mW (.copy only0 .td 0 40 6) with
      slot := 5, defs := eightDefs [], recs := [0, 0, 0] }] }) with fresh := 1 }
def inter (s : State) (t : Touch) : Bool := s.interlocked 0 mW opTouch t s.fresh

theorem mW_team : mW.team = some 0 ∧ ((engineState mW).team? 0 0).isSome = true
    ∧ ((engineState mW).team? 0 0).map (·.tiles) = some [(0, 0), (1, 1)]
    ∧ ((engineState mW).team? 0 0).map (·.accs) = some [(0, 0, 0)] := by decide +kernel

theorem witness_TileClaims :
    let many : Team := { placedTeam 0 with tiles := (List.range 61).map fun k => (k, k + 2) }
    let full := mState fun y => { y with teams := SMap.put y.teams 1 many }
    idle (.tclaim off false 0 40 2 2) = true ∧ idle (.trel off false 0 2) = true
    ∧ goes (engineState mW) (.tclaim only0 false 0 40 0 1) = true
    ∧ goes (engineState mW) (.tclaim only0 false 0 40 2 62) = true
    ∧ (goes full (.tclaim only0 false 0 40 2 2) = true
        ∧ ((List.range 64).filter fun p => !((full.loom 0).teams.flatMap fun q => q.2.tiles.map (·.2)).contains p).length = 1)
    ∧ (goes tileBusy (.trel only0 false 0 1) = true ∧ inter tileBusy { tw := [0] } = true)
    ∧ (goes (engineState mW) (.trel only0 false 1 2) = true ∧ inter (engineState mW) { tw := [1, 2] } = false)
    ∧ (goes (engineState mW) (.trel only0 false 0 2) = true ∧ inter (engineState mW) { tw := [0, 1] } = false) := by
  decide +kernel

/-- A pinned range of all the loom's tiles. -/
def pinnedAll : Own := { ownOf .pinned with t := 32, tiles := List.range 32 }
/-- A board entry of the pinned range's key, with a responder. -/
def responding : Board := { boardOf 1 .valid with key := 0x77, busy := true, addr := 0x77 }

theorem witness_RangeClaims :
    let s := engineState mW
    let full := mState fun y => { y with owners := (List.range 32).map fun k => (k, { ownOf .working with t := 0, tiles := [] }) }
    let stuck := mState fun y => { y with owners := [(0, pinnedAll)], board := [(3, responding)] }
    idle (.tclaim off true 0 40 1 1) = true ∧ idle (.trel off true 0 1) = true
    ∧ (goes s (.tclaim only0 true 5 40 1 1) = true ∧ (slotOf mW 5).kind = 2)
    ∧ (goes s (.tclaim only0 true 0 40 0 2) = true ∧ (slotOf mW 0).kind = 0 ∧ (slotOf mW 0).sblk = 0
        ∧ (slotOf mW 0).width ≤ 32)
    ∧ (goes stuck (.tclaim only0 true 0 40 1 1) = true ∧ (stuck.evict 33 0 1).isNone = true)
    ∧ (goes s (.tclaim only0 true 0 40 1 31) = true
        ∧ (s.evict 33 0 31).any (fun t => t.weft? 0 0 == some mW && (t.loom 0).freeOwn.isSome && 31 ≤ (t.loom 0).freeTiles.length)
          = true)
    ∧ (goes full (.tclaim only0 true 0 40 1 1) = true
        ∧ (full.evict 33 0 1).any (fun t => t.weft? 0 0 == some mW && (t.loom 0).freeOwn.isNone) = true)
    ∧ (goes accBusy (.trel only0 true 0 1) = true ∧ inter accBusy { aw := [0], frees := true } = true)
    ∧ (goes s (.trel only0 true 0 2) = true ∧ inter s { aw := [0], frees := true } = false
        ∧ (s.rangeAt 0 0 0).map (fun r => (r.2.state, r.2.t)) = some (.working, 1))
    ∧ goes s (.trel only0 true 0 1) = true := by decide +kernel

theorem witness_Pins :
    let s := engineState mW
    let att := withOwn (ownOf .attached)
    let other := mState fun y => { y with owners := [(0, { ownOf .working with key := 0 }), (1, { ownOf .pinned with key := 0x100080 })] }
    let busy := mState fun y => { y with owners := [(0, ownOf .attached)], board := [(3, responding)] }
    [Instr.pin off 40 28 28 0, .unpin off 0, .detach off 0].all idle = true
    ∧ [Instr.unpin only0 0, .detach only0 0].all (fun i => goes accBusy i && inter accBusy { aw := [0], frees := true }) = true
    ∧ (goes att (.pin only0 40 28 28 0) = true ∧ (att.rangeAt 0 0 0).any (fun r => r.2.state != .working) = true)
    ∧ (goes s (.pin only0 40 28 28 0) = true ∧ ((s.loom 0).keyed 1 0x100080).isNone = true
        ∧ (s.rangeAt 0 0 0).any (fun r => r.2.state == .working && !s.spillUnusable 0 1 0x100080 r.2.imageBytes) = true)
    ∧ (goes s (.pin only0 40 28 24 0) = true
        ∧ (s.rangeAt 0 0 0).any (fun r => r.2.state == .working && s.spillUnusable 0 1 0x100041 r.2.imageBytes) = true)
    ∧ (goes other (.pin only0 40 28 28 0) = true ∧ ((other.loom 0).keyed 1 0x100080).isSome = true)
    ∧ (goes s (.unpin only0 0) = true ∧ inter s { aw := [0], frees := true } = false ∧ (s.rangeAt 0 0 0).any (fun r => r.2.state != .attached) = true)
    ∧ (goes att (.unpin only0 0) = true ∧ inter att { aw := [0], frees := true } = false ∧ (att.loom 0).keyBusy 1 0x77 = false)
    ∧ (goes busy (.unpin only0 0) = true ∧ inter busy { aw := [0], frees := true } = false ∧ (busy.loom 0).keyBusy 1 0x77 = true)
    ∧ (goes s (.detach only0 31) = true ∧ inter s { aw := [31], frees := true } = false ∧ (s.rangeAt 0 0 31).isNone = true)
    ∧ (goes att (.detach only0 0) = true ∧ (att.rangeAt 0 0 0).map (·.2.state) = some .attached) := by decide +kernel

theorem witness_Attaches :
    let keyed (o : Own) : State := withOwn { o with key := 0x100080 }
    let i (t : BitVec 8) : Instr := .attach only0 40 28 t
    let found (s : State) : Option OwnState := ((s.loom 0).keyed 1 0x100080).map (·.2.state)
    idle (.attach off 40 28 1) = true
    ∧ (goes (engineState mW) (i 1) = true ∧ found (engineState mW) = none)
    ∧ [OwnState.moving, .attached, .pinned, .spilled].all (fun st =>
        goes (keyed { ownOf st with was := .pinned }) (i 1) && found (keyed { ownOf st with was := .pinned }) == some st)
      = true
    ∧ (goes (keyed (ownOf .pinned)) (i 0) = true ∧ goes (keyed { ownOf .pinned with t := 2 }) (i 31) = true)
    ∧ (let s := keyed { ownOf .spilled with t := 0, tiles := [] }
       (s.evict 33 0 0).any (fun t => t.weft? 0 0 == some mW && 0 ≤ (t.loom 0).freeTiles.length
         && match t.fillRange 0 { ownOf .spilled with t := 0, key := 0x100080, tiles := [], gen := 1 } 0x300000 with
            | .ok u => u.weft? 0 0 == some mW
            | _ => false) = true)
    ∧ (let s := mState fun y => { y with owners := [(0, { ownOf .spilled with key := 0x100080, tiles := [] }),
                                                    (1, { pinnedAll with state := .working })] }
       goes s (i 1) = true ∧ (s.evict 33 0 1).any (fun t => t.weft? 0 0 == some mW && (t.loom 0).freeTiles.length < 1) = true)
    ∧ (let s := mState fun y => { y with owners := [(0, { ownOf .spilled with key := 0x100080, tiles := [] }), (1, pinnedAll)],
                                         board := [(3, responding)] }
       goes s (i 1) = true ∧ (s.evict 33 0 1).isNone = true) := by
  decide +kernel

/-- A range is spilled to a page that is not resident, or to one that is not valid. -/
theorem witness_Attaches_fill :
    [(region 1, 70), (region 9, 30)].all (fun p =>
      let o : Own := { ownOf .spilled with key := 0x100080, tiles := [], spill := p.1 }
      goes (withOwn o) (.attach only0 40 28 1) && ((withOwn o).evict 33 0 1).any fun t => match
          t.fillRange 0 { o with tiles := (t.loom 0).freeTiles.take 1, gen := 1 } p.1 with
        | .wait => p.2 == 70
        | .fail c _ => c == causeOfCase p.2
        | .ok _ => false) = true := by decide +kernel

theorem witness_CellAccess_stops :
    let marks := (engineState mW).modMem fun m => m.setMark (.cell 0 ((ownOf .working).cellKey 0 1)) true
    [Instr.aread g0 40 1 28 0, .awrite g0 28 1 29 0, .azero only0 0].all (goes accBusy) = true
    ∧ inter accBusy { ar := [0] } = true ∧ inter accBusy { aw := [0] } = true
    ∧ [Instr.aread g0 40 1 28 0, .awrite g0 28 1 29 0, .azero only0 0].all (goes (withOwn (ownOf .pinned))) = true
    ∧ ((withOwn (ownOf .pinned)).rangeAt 0 0 0).map (·.2.state) = some .pinned ∧ idle (.azero off 0) = true
    ∧ (goes marks (.aread only0 40 2 1 0) = true
        ∧ marks.mem.markAt (.cell 0 ((ownOf .working).cellKey ((mW.lane 2 0).toNat % 64) ((mW.lane 1 0).toNat % 64))) = some true) := by
  decide +kernel

theorem witness_CellAccess :
    let s := engineState mW
    s.mem.marks = [] ∧ inter s { ar := [0] } = false ∧ inter s { aw := [0] } = false
    ∧ (s.rangeAt 0 0 0).map (·.2.state) = some .working
    ∧ ((withOwn (ownOf .attached)).rangeAt 0 0 0).map (·.2.state) = some .attached
    ∧ [Instr.aread g0 40 1 28 0, .awrite g0 28 1 29 0, .azero g0 0].all (goes s) = true := by decide +kernel

/-- A cell that is written is read back; rows and columns are taken modulo the range's (R309). -/
theorem test_awrite : (SMap.getD ((after (.awrite only0 28 1 29 0) (engineState mW)).loom 0).cells 64 0) = 0x100080 := by
  decide +kernel

/-! ### Units of the engines -/

/-- An operation that has issued, and the state that its issue leaves. -/
def issuedOp (k : OcClass) (w : Weft) (i : Instr) : State × Op :=
  let t := after i (engineState w)
  (t, ((t.loom 0).queue k).headD (tileCopy w))

/-- w bits of memory hold n. -/
def holds (s : State) (o : Op) (base : DWord) (bit w n : Nat) : Bool :=
  let a := bytesHolding base bit w
  let v := s.opView o
  a.bytes.all (fun va => (s.spot v va).engineCase false false false == 90) && (s.spots v a).all (fun sp => !s.readError v.loom sp)
    && n == valueAt v.loom (byteAt s) (s.spots v a) / 2 ^ (bit % 8) % 2 ^ w

theorem mem_holds {s : State} {o : Op} {base : DWord} {bit w n : Nat} (h : holds s o base bit w n = true) :
    MemHolds s (s.opView o) base bit w n := by
  simp only [holds, Bool.and_eq_true, List.all_eq_true, beq_iff_eq, Bool.not_eq_true'] at h
  exact ⟨h.1.1, h.1.2, h.2⟩

/-- w bits of a tile slot are zero. -/
def zeroTile (s : State) (o : Op) (first bit w : Nat) : Bool :=
  w != 0 && w ≤ 32768 && (List.range w).all fun j => (s.tileOf o (first + (bit + j) / 32768)).any fun q =>
    !s.mem.hard (.tile o.loom q) && !operandBit s o.loom (32768 * q + (bit + j) % 32768)

theorem tile_holds {s : State} {o : Op} {first bit w : Nat} (h : zeroTile s o first bit w = true) :
    TileHolds s o first bit w 0 := by
  simp only [zeroTile, Bool.and_eq_true, bne_iff_ne, decide_eq_true_eq, List.all_eq_true, List.mem_range, Option.any_eq_true,
    Bool.not_eq_true'] at h
  refine ⟨Nat.pos_of_ne_zero h.1.1, h.1.2, Nat.two_pow_pos w, fun j hj => ?_⟩
  obtain ⟨q, hq, h1, h2⟩ := h.2 j hj
  exact ⟨q, hq, h1, by simp [h2]⟩

/-- Zero, as an element of a slot. -/
def zeroOf (f : Fmt) : Machine.Num × Bool := (f.decode 0, decide (f.decode 0 = .nan true))

theorem operand_is {s : State} {o : Op} {first bit : Nat} {f : Fmt} {x : Option (DWord × Fmt)} (hx : x = none)
    (h : zeroTile s o first bit f.width = true) : OperandIs s o first bit f x (zeroOf f) := by
  subst hx
  exact ⟨0, tile_holds h, rfl⟩

/-- An engine may write w bits of memory. -/
def writable (s : State) (o : Op) (base : DWord) (bit w : Nat) : Bool :=
  let a := bytesHolding base bit w
  let v := s.opView o
  a.bytes.all (fun va => (s.spot v va).engineCase true false false == 90)
    && (s.spots v a).all (fun sp => (fieldAt s.devBlocks sp).all fun q => q.1 == 0) && !s.writeError v.loom (s.spots v a)

theorem engine_writes {s : State} {o : Op} {base : DWord} {bit w : Nat} (h : writable s o base bit w = true) :
    EngineWrites s (s.opView o) (bytesHolding base bit w) := by
  simp only [writable, Bool.and_eq_true, List.all_eq_true, beq_iff_eq, Bool.not_eq_true', Option.all_eq_true] at h
  exact ⟨h.1.1, .inr h.1.2, h.2⟩

/-- A unit of a plain copy from memory, of one format, with no index, no halo and no element read early. -/
def plainUnit (s : State) (o : Op) (u off n : Nat) : Bool :=
  let p := o.copyPlan
  p.scatterK.isNone && p.gatherK.isNone && p.src.tile.isNone && !p.src.t.comp && p.same && o.early.isEmpty
    && (List.range 2).all (fun k => p.ext.length ≤ k || (0 ≤ unitX p u k && unitX p u k < (p.dst.t.box.getD k 0 : Int)))
    && off == offsetOf p.dst.t (fun k => wrapped (p.dor.getD k 0 + unitX p u k) (p.dst.t.dim.getD k 1))
    && holds s o p.src.t.base (offsetOf p.src.t (fun k =>
        wrapped (p.so.getD k 0 + unitX p u (p.src.t.perm.getD k 0)) (p.src.t.dim.getD k 1)) * p.src.w) p.src.w n

theorem copy_gives {s : State} {o : Op} {u off n : Nat} (h : plainUnit s o u off n = true) :
    CopyGives s o u off { bits := n, flags := 0 } := by
  simp only [plainUnit, Bool.and_eq_true, Option.isNone_iff_eq_none, Bool.not_eq_true', List.isEmpty_iff, List.all_eq_true,
    List.mem_range, Bool.or_eq_true, decide_eq_true_eq, beq_iff_eq] at h
  obtain ⟨⟨⟨⟨⟨⟨⟨⟨h1, h2⟩, h3⟩, h4⟩, h5⟩, h6⟩, h7⟩, h8⟩, h9⟩ := h
  refine ⟨⟨0, by simp [h1], by simpa [h1] using h8⟩, .inr (.inr ⟨?_, by simp [h6], 0, by simp [h2], n, ?_, ?_⟩)⟩
  · rintro ⟨k, hk, hl, hx⟩
    have := h7 k hk
    omega
  · simpa [ElementIs, h2, h3, h4] using mem_holds h9
  · simp [Converted, h5]

/-- A copy of four elements; one to a tile; one onto its own source, one element behind. -/
def copyRun : State × Op := issuedOp .copy (roleWeft .copy) (.copy only0 .none 0 40 2)
def tileRun : State × Op :=
  let r := copyRun
  (r.1, { r.2 with instr := .copy only0 .td 0 40 2,
                   recs := [r.2.record 0 + BitVec.ofNat 832 (2 ^ 68 + 2 ^ 83 + 2 ^ 352 + 2 ^ 720), r.2.record 1, 0] })
def ownRun : State × Op :=
  let r := copyRun
  (r.1, { r.2 with recs := [r.2.record 0, (r.2.record 0) + BitVec.ofNat 832 4, 0] })

/-- cmpst of one element; its mask bit is set in the second state, by the byte at address 0. -/
def packRun : State × Op :=
  let r := issuedOp .gath (roleWeft .copy) (.cmpst only0 0 40 6 1)
  (r.1, { r.2 with block := BitVec.ofNat 512 (2 ^ 192) })
def packedRun : State × Op :=
  let r := packRun
  (r.1.modMem fun m => { m with hbm := Memory.write m.hbm 0 1 }, r.2)

/-- The zeroing of four words of market memory, by bank 0; the second word is in error in the second state. -/
def bankRun : State × Op := issuedOp .bank (roleWeft .vector) (.bankop only0 .zero 0 22 33 0)

/-- mma of one element of each side; mma.sp of a 1 × 4 by 4 × 1 product; delta of one token, one row and one column. -/
def denseRun : State × Op := issuedOp .mat (roleWeft .matrix) (.mma only0 40 14 1)
def sparseRun : State × Op :=
  let r := denseRun
  (r.1, { r.2 with instr := .mmaSp only0 40 14 1,
                   block := BitVec.ofNat 512 (2 ^ 6 + 2 ^ 32 + 2 ^ 40 + 4 * 2 ^ 52) })
def deltaRun : State × Op :=
  let r := issuedOp .mat (roleWeft .matrix) (.delta only0 40 6 1)
  (r.1, { r.2 with block := BitVec.ofNat 512 (2 ^ 29 + 2 ^ 35 + 2 ^ 64 + 2 ^ 72 + 2 ^ 84) })

/-- A move of entry 3 to loom 5's entry 0, as its last unit; of an attached range with it in the second state. -/
def moveOp : Op :=
  { (issuedOp .copy (roleWeft .vector) (.sbMove only0 40 30 31)).2 with parts := [0, 3, 5, 1, 0, 0] }
def moveState : State := (issuedOp .copy (roleWeft .vector) (.sbMove only0 40 30 31)).1
def pinnedMove : State :=
  let r : Own := { ownOf .moving with was := .attached }
  (moveState.modLoom 0 fun y => { y with owners := [(0, r)] }).modLoom 5 fun y => { y with owners := [(0, r)] }

/-- The destination's spots stand after the unit's reads have been noted. -/
def sameSpots (s s0 : State) (o : Op) (base : DWord) (bit w : Nat) : Bool :=
  s0.spots (s.opView o) (bytesHolding base bit w) == s.spots (s.opView o) (bytesHolding base bit w)

theorem witness_CopyIssue_units :
    (let (s, o) := copyRun
     let p := o.copyPlan
     !p.overlaps && p.dst.tile.isNone && !p.dst.t.comp && [0, 3].all fun u =>
       plainUnit s o u u 0 && writable s o p.dst.t.base (u * p.dst.w) p.dst.w
         && sameSpots s (s.noteSource o p u) o p.dst.t.base (u * p.dst.w) p.dst.w) = true
    ∧ (let (s, o) := tileRun
       let p := o.copyPlan
       !p.overlaps && p.dst.tile == some 0 && (s.tileOf o 0).isSome && [0, 3].all fun u =>
         plainUnit s o u u 0 && (u + 1) * p.dst.w ≤ 32768) = true
    ∧ (let (s, o) := ownRun
       let p := o.copyPlan
       p.straight && p.overlaps && o.early.isEmpty && (List.range p.total).all fun u => plainUnit s o u u 0) = true := by
  decide +kernel

theorem witness_CompressIssue_units :
    (let (s, o) := packRun
     o.parts != [0] && holds s o o.cmpPlan.mask 0 1 0) = true
    ∧ (let (s, o) := packedRun
       let p := o.cmpPlan
       let s0 := (s.noteEngine (s.opView o) false (bytesHolding p.mask 0 1) false).noteEngine (s.opView o) false
         (bytesHolding p.src 0 p.w) false
       o.parts != [0] && holds s o p.mask 0 1 1 && holds s o p.src 0 p.w 1 && writable s o p.dst 0 p.w
         && sameSpots s s0 o p.dst 0 p.w) = true := by decide +kernel

/-- The premises that both clauses about a bank's part share. -/
def bankPremises (s : State) (o : Op) : Bool :=
  let p := o.bankPlan
  o.parts.contains 0 && s.bankReady (s.opView o) p && (p.check o.lane).isNone && o.partRecs.isEmpty && p.op == .zero
    && ((List.range p.n).filter fun e => s.elemBank (s.opView o) p e == some 0) == [0, 1, 2, 3]
    && (s.loom o.loom).bankQ.all fun q => q == o

/-- Elements that a bank cannot read. -/
def badElements (s : State) (o : Op) : List Nat :=
  (List.range 4).filter fun e => (s.spots (s.opView o) (bytesHolding o.bankPlan.addr (e * o.bankPlan.w) o.bankPlan.w)).any
    (s.readError o.loom)

theorem witness_BankAndMoveIssue_parts :
    (let (s, o) := bankRun
     let hit := s.modMem fun m => m.setMark (markOf .market 8) true
     bankPremises s o && badElements s o == [] && s.devBlocks.all (fun b => b.sp != .market) && bankPremises hit o
       && badElements hit o == [2, 3]) = true
    ∧ ∀ x, (bankCode bankRun.2.bankPlan bankRun.2.legacy x).record = none := by
  have h : bankRun.2.bankPlan.op = .zero := by decide +kernel
  exact ⟨by decide +kernel, fun x => by simp [bankCode, h]⟩

theorem witness_BankAndMoveIssue_move :
    (let s := moveState
     let o := moveOp
     o.parts == [0, 3, 5, 0 + 1, 0, 0] && !(s.loom 0).entryBusy 3) = true
    ∧ (let s := pinnedMove
       let o := { moveOp with parts := [0, 3, 5, 1, 1, 1] }
       !(s.loom 0).entryBusy 3 && (SMap.find? (s.loom 0).owners 0).any (fun w => w.was == .attached)
         && (SMap.find? (s.loom 5).owners 0).isSome && o.parts.length == 6) = true := by decide +kernel

/-- Every operand element that a k-group of mma reads is zero, and every cell is sound. -/
def denseZero (s : State) (o : Op) (u : Nat) : Bool :=
  let p := o.mmaPlan
  let ks := ((List.range 16).map (· + 16 * u)).filter (· < p.k)
  ks.all (fun x => (List.range p.m).all fun i => zeroTile s o p.aslot ((if p.tra then x * p.m + i else i * p.k + x) * p.fa.width)
      p.fa.width)
    && ks.all (fun x => (List.range p.n).all fun j =>
      zeroTile s o p.bslot ((if p.trb then j * p.k + x else x * p.n + j) * p.fb.width) p.fb.width)
    && p.fa.sblk == 0 && p.fb.sblk == 0 && (s.opRange o).any fun r =>
      (List.range p.m).all fun i => (List.range p.n).all fun j => !s.cellError o.loom r.2 i j

theorem witness_MatrixIssue_dense :
    denseZero denseRun.1 denseRun.2 0 = true ∧ denseRun.2.mmaPlan.m = 1 ∧ denseRun.2.mmaPlan.n = 1 ∧ denseRun.2.mmaPlan.k = 1 := by
  decide +kernel

theorem witness_MatrixIssue_sparse :
    (let (s, o) := sparseRun
     let p := o.mmaPlan
     denseZero s o 0 && (List.range 2).all fun st =>
       zeroTile s o p.mslot (st * 4) 4 && zeroTile s o p.aslot (st * p.fa.width) p.fa.width) = true
    ∧ sparseRun.2.mmaPlan.m = 1 ∧ sparseRun.2.mmaPlan.n = 1 ∧ sparseRun.2.mmaPlan.k = 4 := by decide +kernel

theorem witness_MatrixIssue_delta :
    (let (s, o) := deltaRun
     let p := o.deltaPlan
     p.dv == 1 && p.dk == 1 && p.c == 1 && (s.opRange o).any (fun r => !s.cellError o.loom r.2 0 0
       && zeroTile s o p.uslot 0 r.2.fmt.width)
     && zeroTile s o p.kslot 0 p.fk.width && zeroTile s o p.vslot 0 p.fv.width && zeroTile s o p.qslot 0 p.fq.width
     && zeroTile s o p.abslot 0 p.fab.width && zeroTile s o p.abslot p.fab.width p.fab.width) = true := by decide +kernel

theorem witness_MatrixIssue_rows :
    [Instr.aspill only0 40 28 0, .afill only0 40 28 0, .ascale only0 0 40 1 0, .acvt only0 2 40 0].all (fun i =>
      let (s, o) := issuedOp .mat (roleWeft .matrix) i
      (s.opRange o).any fun r =>
        (boxOf 64 64).all (fun p => !s.cellError o.loom r.2 p.1 p.2) && (match i with
          | .aspill .. => writable s o o.opa 0 (64 * r.2.fmt.width)
          | .afill .. => holds s o o.opa 0 (64 * r.2.fmt.width) 0
          | _ => true)) = true := by decide +kernel

theorem witness_FabricIssue_units :
    [Instr.xput only0 40 8, .xget only0 40 8, .xatom only0 .add 0 40 8 1 0, .xred only0 .sum 0 40 12].all (fun i =>
      let (s, o) := issuedOp .fab (roleWeft .copy) i
      let p := o.fabPlan
      s.progress o == 0 && o.sent.isEmpty && o.total == 1 && o.refused.isNone && !o.discard && (match i with
        | .xput .. => holds s o p.laddr 0 (8 * min 128 p.len) 0
        | .xred .. => holds s o p.laddr 0 (min 32 p.len * 32) 0 && (Fmt.ofDef (o.defn 0)).width == 32
        | _ => true)) = true := by decide +kernel

/-! ### Launches, continuation records, rings, messages -/

/-- Queue control blocks at 86000H: 0 of no context, 1 that takes none from the device, 2 full, 3 with room at 87000H, 4 with its
records in a page that is not resident, 5 at no address; launch records at 85000H, one of each queue; continuation
records at 88000H: one queued already, and then ones of join count 1, 0 with no allotment, 0, 2, and 1 with no allotment. -/
def queueMem : Mem :=
  [(0x85118, 0x01), (0x85218, 0x02), (0x85318, 0x03), (0x85418, 0x04), (0x85518, 0x05), (0x86048, 0x10), (0x86049, 0x01),
   (0x86088, 0x30), (0x86089, 0x01), (0x86098, 0x01), (0x860C1, 0x70), (0x860C2, 0x08), (0x860C8, 0x32), (0x860C9, 0x01),
   (0x86105, 0x02), (0x86108, 0x30), (0x86109, 0x01), (0x86146, 0x10), (0x86148, 0x30), (0x86149, 0x01), (0x88016, 0x08),
   (0x88018, 0x01), (0x88030, 0x01), (0x88036, 0x08), (0x88076, 0x08), (0x88090, 0x02), (0x88096, 0x08), (0x880B0, 0x01)]

/-- v2 to v14 hold the addresses of the launch records and an odd one, v16 to v18 offsets of mailboxes (one not aligned, one
outside the window), v20 to v34 the continuation records', of which those of v28 and v30 lie in the share, and an odd one. -/
def queueWeft : Weft :=
  pairsWeft [(2, 0x85000), (4, 0x85100), (6, 0x85200), (8, 0x85300), (10, 0x85400), (12, 0x85500), (14, 0x85001),
    (16, 0x40 + 0x41 * 2 ^ 32), (18, 0x100000), (20, 0x88000), (22, 0x88020), (24, 0x88040), (26, 0x88060),
    (28, 0xFFF0000000000F00), (30, 0xFFF0000000000F20), (32, 0x88080), (34, 0x880A0), (36, 0x88001)]

/-- The device's TLB holds regions 0 and 1. -/
def queueState : State :=
  let s := withHbm (pages ++ queueMem) (furnish (paged queueWeft))
  { s with
    qbase := 0x86000
    fabric := { s.fabric with tlb := [(0, [⟨1, 1, 0, 0x2C7⟩, ⟨1, 1, 1, 0x2C5⟩])] } }

/-- The case of a launch: its status, and the case of its record's slot. -/
def launchMeets (i : Instr) (a : Reg) : Option (Nat × Nat) :=
  let s := queueState
  if ready s i issueOf queueWeft && acts queueWeft i && i.flaw.isNone then
    (readAt queueWeft i s (queueWeft.pair a 0) 256 256).map fun r =>
      let s1 := r.1.sideEffect 0 queueWeft
      let q := r.2 / 2 ^ 192 % 64
      (if s1.queueCtx q != 1 || !s1.queueEn q then 2 else if !s1.queueDev q then 3
       else if (s1.queueTail q - s1.queueHead q).toNat = 2 ^ s1.queueCap q then 1 else 0,
       s1.deviceCase 1 true (s1.queueBase q + BitVec.ofNat 64 (256 * ((s1.queueTail q).toNat % 2 ^ s1.queueCap q))) 256)
  else none

def fetchOf (l : Nat) : Fetch := { loom := l, slot := 0, ctx := 1, queue := 0, count := 0, box := .gone }

def boxInside (off : Nat) : Bool :=
  let s := queueState
  (List.range 16).all fun k => (s.spot { viewAt s issueOf queueWeft with frame := none } (0xFFF * 2 ^ 52 + off + k)).caseOf false == 90

/-- The instruction is issuing, with a lane active. -/
def goesAt (s : State) (w : Weft) (i : Instr) : Bool := ready s i issueOf w && acts w i
/-- It is issuing, with no lane active. -/
def idleAt (s : State) (w : Weft) (i : Instr) : Bool := ready s i issueOf w && !acts w i

theorem witness_LaunchesAndRequests_idle :
    [Instr.launch off 40 2 255, .fetchw off 2 3 16].all (idleAt queueState queueWeft) = true := by decide +kernel
theorem witness_LaunchesAndRequests_launch :
    (goesAt queueState queueWeft (.launch only0 40 14 255) && (queueWeft.pair 14 0).toNat % 256 != 0
      && (launchMeets (.launch only0 40 2 255) 2).map (·.1) == some 2
      && (launchMeets (.launch only0 40 4 42) 4).map (·.1) == some 3
      && (launchMeets (.launch only0 40 6 42) 6).map (·.1) == some 1) = true := by decide +kernel
theorem witness_LaunchesAndRequests_slot :
    (launchMeets (.launch only0 40 8 255) 8 == some (0, 90) && goesAt queueState queueWeft (.launch only0 40 8 42)
      && launchMeets (.launch only0 40 10 42) 10 == some (0, 70) && launchMeets (.launch only0 40 12 42) 12 == some (0, 10))
      = true := by decide +kernel
theorem witness_LaunchesAndRequests_fetchw :
    (goesAt { queueState with fetches := List.replicate 16 (fetchOf 0) } queueWeft (.fetchw only0 2 3 16)
      && goesAt queueState queueWeft (.fetchw only0 2 3 17)
      && goesAt queueState queueWeft (.fetchw only0 2 3 18) && !boxInside 0x100000
      && goesAt queueState queueWeft (.fetchw only0 2 3 16) && boxInside 0x40 && (queueState.teamOf 0 queueWeft).isSome
      && (queueState.writeMailbox (.team ⟨0, 0, 0⟩ 0x40) 8 (leBytes 4 0)).any (fun t => t.weft? 0 0 == some queueWeft)) = true := by
  decide +kernel

/-- The record that spawn or join reads, with the state in which its address is queued. -/
def recordRead (s : State) (i : Instr) (a : Reg) : Option (ContRec × State) :=
  let x : Accesses := ⟨true, true, false, [{ lane := 0, va := queueWeft.pair a 0, len := 32 }]⟩
  let v := viewAt s issueOf queueWeft
  if ready s i issueOf queueWeft && acts queueWeft i && (queueWeft.pair a 0).toNat % 32 == 0 && takes s v x then
    let s1 := (noted s v x).sideEffect 0 queueWeft
    let r := ContRec.ofBits ((noted s v x).readVa v (queueWeft.pair a 0) 32)
    let s2 := match i with
      | .join .. => s1.writeVa v (queueWeft.pair a 0 + 16) 4 (r.join - 1).toNat
      | _ => s1
    some (r, { s2.writeVa v (queueWeft.pair a 0 + 24) 8 s2.stamp.toNat with fresh := s2.fresh + 1 })
  else none

def readOf (i : Instr) (a : Reg) : Option (Bool × Word × Bool) :=
  (recordRead queueState i a).map fun r => (r.1.link == 0, r.1.join, r.1.bad)

/-- Every place for a record is taken. -/
def placesTaken : State :=
  ((withHbm (pages.insertIdx 18 (0x3000C, 1) ++ queueMem) queueState).modLm 0 fun m => Memory.writeLe (Memory.writeLe (Memory.writeLe m 0xF16 1 8) 0xF30 1 1) 0xF36 1 8).modLoom 0
    fun y => { y with ready := List.replicate 64 (1, 0x88000) }

theorem witness_Continuations :
    (idleAt queueState queueWeft (.spawn off 40 20) && goesAt queueState queueWeft (.join only0 40 36)
      && readOf (.spawn only0 40 20) 20 == some (false, 0, false) && readOf (.spawn only0 40 22) 22 == some (true, 1, false)
      && readOf (.spawn only0 40 24) 24 == some (true, 0, true) && readOf (.spawn only0 40 26) 26 == some (true, 0, false)
      && readOf (.join only0 40 24) 24 == some (true, 0, true) && readOf (.join only0 40 22) 22 == some (true, 1, false)
      && readOf (.join only0 40 32) 32 == some (true, 2, false) && readOf (.join only0 40 34) 34 == some (true, 1, true)) = true := by
  decide +kernel

/-- The address is placed in the loom's ready queue; or it has no place, and the weft waits. -/
def places (s : State) (i : Instr) (a : Reg) : Option Bool :=
  (recordRead s i a).map fun r => (r.2.enqueue 1 r.1.loom r.1.anyloom (queueWeft.pair a 0)).any fun t => (t.weft? 0 0).isSome

theorem witness_Continuations_queued :
    (places queueState (.spawn only0 40 26) 26 == some true && places queueState (.join only0 40 22) 22 == some true
      && places placesTaken (.spawn only0 40 28) 28 == some false && places placesTaken (.join only0 40 30) 30 == some false)
      = true := by decide +kernel

/-- v30 = 3, v31 = 5; v1 = 1. -/
def ringWeft : Weft := pairsWeft [(30, 3 + 5 * 2 ^ 32)]
/-- A ring of two stages, one in either phase; the second has all but one of its arrivals. -/
def ringState : State := (stateOf ringWeft).modTeam 0 0 fun t => { t with rings := [[⟨false, 0, 2⟩, ⟨true, 1, 2⟩]] }
/-- A copy of the weft with a unit to do. -/
def liveCopy (s : State) (w : Weft) : Op :=
  { baseOp s issueOf w (.copy g0 .none 0 40 2) with
    total := 1, defs := eightDefs [], recs := [0, 0, 0] }
def busyRing : State := ringState.modLoom 0 fun y => { y with copyQ := [liveCopy ringState ringWeft] }
def lonely : Weft := { ringWeft with team := none }

theorem witness_Rings :
    ([Instr.ringInit g0 0 30, .ringSig g0 0 40 none].all (goesAt (stateOf lonely) lonely)
      && (ringState.team? 0 0).map (·.rings) == some [[⟨false, 0, 2⟩, ⟨true, 1, 2⟩]]
      && [Instr.ringInit only0 1 30, .ringInit only0 0 41, .ringInit only0 0 30, .ringSig only0 7 1 none, .ringSig only0 0 30 none,
          .ringSig only0 0 1 none, .ringSig only0 0 41 none, .ringWait only0 1 1 1, .ringWait only0 0 30 1, .ringWait only0 0 1 1,
          .ringWait only0 0 41 1].all (goesAt ringState ringWeft)
      && goesAt busyRing ringWeft (.ringSig only0 0 1 (some .copy)) && busyRing.liveOps 0 0 ringWeft .copy != []) = true := by
  decide +kernel

/-- A weft with a port: v50 sends, v51 receives, v52 is the header. v3 = 3 and v52 names this weft. -/
def portWeft : Weft :=
  { weftOf [(3, 0, 3)] with port := some { s := 50, r := 51, h := 52, quota := 2, flits := [] } }
def withFlits (n : Nat) : Weft := { portWeft with port := some { s := 50, r := 51, h := 52, quota := 2, flits := List.replicate n [9] } }
def toOther : Weft := { portWeft with regs := SMap.put portWeft.regs (32 * 52) 0x100 }
/-- One weft more, whose port takes sixty-three of the loom's flits. -/
def quotaState : State := (stateOf (weftOf [])).setWeft 0 1 { portWeft with port := some { s := 1, r := 2, h := 3, quota := 63, flits := [] } }
/-- The hypotheses of a mov from or into a port. -/
def moves (w : Weft) (i : Instr) : Bool :=
  let s := stateOf w
  s.cur == some issueOf && s.weft? 0 0 == some w && w.poison.isEmpty && w.soft.isEmpty && !s.regsHold 0 0 w i (issueOf.act w i)
    && (allUses i).all (fun u => !w.outOfRange u.r) && acts w i

theorem witness_Messages :
    let w := weftOf []
    (goesAt (stateOf smallWeft) smallWeft (.msgmap g0 1 2 9 3 1) && smallWeft.outOfRange 9
      && (let s := (stateOf w).modLoom 0 fun y => { y with copyQ := [liveCopy (stateOf w) w] }
          goesAt s w (.msgmap g0 1 40 3 4 1) && (s.pending 0 0).contains 40)
      && goesAt (stateOf portWeft) portWeft (.msgmap g0 1 2 3 4 1)
      && goesAt quotaState w (.msgmap g0 1 2 3 4 2) && (quotaState.loom 0).quotas == 63
      && goesAt quotaState w (.msgmap g0 1 2 3 4 1)
      && goesAt (stateOf (withFlits 2)) (withFlits 2) (.msgunmap g0 3) && goesAt (stateOf w) w (.msgunmap g0 3)
      && [Instr.msgmap off 1 2 3 4 1, .msgunmap off 3].all (idleAt (stateOf w) w)) = true := by decide +kernel

theorem witness_Messages_mov :
    let found (w : Weft) : Option Nat := ((stateOf w).portOf 1 (w.lane 52 0)).map (·.2.2.flits.length)
    (moves toOther (.mov g0 50 3) && found toOther == none
      && moves (withFlits 2) (.mov g0 50 3) && found (withFlits 2) == some 2
      && moves (withFlits 1) (.mov g0 50 3) && found (withFlits 1) == some 1
      && moves portWeft (.mov g0 3 51) && moves (withFlits 1) (.mov g0 3 51)
      && moves (withFlits 1) (.iadd g0 50 3 3 .wrap) && moves (withFlits 1) (.imad g0 3 51 3 51)
      && [Instr.mov g0 50 3, .mov g0 3 51, .iadd g0 50 3 3 .wrap, .imad g0 3 51 3 51].all fun i =>
        (portRule portWeft i).isSome && (guardOf i).g != 51) = true := by decide +kernel

theorem witness_Messages_refused :
    [Wait.send 0x20000 0x100 1 [9], .full 0x20000 0x100 1].all (fun x =>
      at0 (stateOf { portWeft with wait := x }) { portWeft with wait := x }) = true := by decide +kernel

/-! ### Heddles and tables -/

/-- v2, v4 and v6 hold the sets of wefts 0, of 1 and of none, v8 that of 0 and of 2, which there is not. -/
def heddleWeft : Weft := { pairsWeft [(2, 1), (4, 2), (6, 0), (8, 5)] with fmts := [(5, 0x0000008000000000)] }

def hedOf (n : Nat) (ms : List Nat) : Heddle :=
  { mask := ms, team := 0, num := n, acnt := 0, phase := false, op := .none, sub := 0, def_ := 0, vals := [], source := none,
    arrived := [] }

/-- Weft 1 of the team stands in slot 1. Heddle 2 is weft 1's alone; weft 1 has arrived at heddle 3 in hbar, and at 4 as hbcast's
source; 5 is weft 0's alone. -/
def heddleState : State :=
  let late := { hedOf 3 [0, 1] with op := .hbar, acnt := 1, arrived := [1] }
  let sent := { hedOf 4 [0, 1] with op := .hbcast, sub := 1, acnt := 1, arrived := [1], source := some (1, [7]) }
  (((stateOf heddleWeft).setWeft 0 1 { heddleWeft with num := 1 }).modTeam 0 0 fun t => { t with slots := [0, 1] }).modLoom 0 fun y =>
    { y with heddles := [(0, hedOf 0 [0, 1]), (1, hedOf 1 [0, 1]), (2, hedOf 2 [1]), (3, late), (4, sent), (5, hedOf 5 [0])] }

def arrives (s : State) (w : Weft) (i : Instr) : Bool := goesAt s w i && (arrivalOf issueOf w i).isSome
def heddleAt (k : Nat) : Option Heddle := ((heddleState.loom 0).heddleOf 0 k).map (·.2)

theorem witness_Heddles :
    let w := heddleWeft
    let alone := { w with team := none }
    ([Instr.hbar off 1, .hvote off .any 40 1 1, .hred off .sum 0 40 1 1, .hbcast off true 40 1 1].all (fun i =>
        idleAt heddleState w i && (arrivalOf issueOf w i).isSome)
      && [Instr.hbar g0 1, .hbar g0 0, .hvote g0 .all 40 1 0].all (arrives (stateOf alone) alone)
      && arrives heddleState w (.hbar only0 9) && heddleAt 9 == none
      && arrives heddleState w (.hbar only0 2) && (heddleAt 2).map (·.mask) == some [1]
      && arrives heddleState w (.hvote only0 .cnt 40 1 3) && (heddleAt 3).map (·.op) == some .hbar
      && arrives heddleState w (.hbcast only0 true 40 1 4) && (heddleAt 4).any (fun e => e.source.isSome)
      && arrives heddleState w (.hbar only0 3) && (heddleAt 3).map (fun e => e.acnt + 1 == e.mask.length) == some true
      && arrives heddleState w (.hred only0 .iadd 5 40 1 1) && (heddleAt 1).map (fun e => e.acnt + 1 == e.mask.length) == some false
      && goesAt heddleState w (.hred only0 .sum 5 40 1 1) && (slotOf w 5).kind == 2) = true := by decide +kernel

/-- The members that hset names, as many as there are bits, none of them in four other heddles. -/
def setOk (k : Nat) (set : DWord) : Bool :=
  let y := heddleState.loom 0
  let ms := (y.wefts.filter fun p => p.2.team == some 0 && p.2.ended.isNone && set.getLsbD p.2.num).map (·.1)
  k != 0 && set != 0 && ms.length == ((List.range 64).filter fun n => set.getLsbD n).length
    && ms.all fun j => (y.heddles.filter fun p => p.2.team == 0 && p.2.num != 0 && p.2.num != k && p.2.mask.contains j).length < 4

theorem witness_Heddles_hset :
    let w := heddleWeft
    let alone := { w with team := none }
    (idleAt heddleState w (.hset off 1 2) && goesAt (stateOf alone) alone (.hset g0 1 2)
      && [Instr.hset only0 9 2, .hset only0 0 2, .hset only0 1 6, .hset only0 1 8, .hset only0 5 4, .hset only0 5 2,
          .hset only0 3 2].all (goesAt heddleState w)
      && !setOk 0 1 && !setOk 1 0 && !setOk 1 5 && !setOk 5 2 && setOk 5 1 && (heddleAt 5).map (·.acnt) == some 0
      && setOk 3 1 && (heddleAt 3).map (·.acnt) == some 1) = true := by decide +kernel

/-- Both wefts wait at heddle 3, weft 0 having arrived last. -/
def completing : State :=
  let waits (w : Weft) : Weft := { w with wait := .heddle 0x20000 3 255 1 0 }
  ((heddleState.modWeft 0 0 waits).modWeft 0 1 waits).modLoom 0 fun y =>
    let voted := { hedOf 3 [0, 1] with op := .hvote, acnt := 2, arrived := [1, 0], vals := [(0, 1), (1, 0)] }
    { y with heddles := SMap.put y.heddles 3 voted }

theorem witness_HeddlePhases :
    (SMap.find? (completing.loom 0).heddles 3).map (·.arrived) = some [1, 0] ∧ [1, 0].Nodup ∧ 5 ∉ [1, 0]
    ∧ (completing.weft? 0 0).map (fun w => (w.wait, w.port)) = some (.heddle 0x20000 3 255 1 0, none)
    ∧ ((SMap.find? (completing.loom 0).heddles 3).bind heddleResult).isSome = true
    ∧ heddleResult (hedOf 1 [0]) = none := by decide +kernel

/-- R343: two wefts whose lanes vote otherwise; any, all and the count. -/
def votes (k : Nat) : Heddle :=
  { hedOf 1 [0, 1] with
    op := .hvote, sub := k, acnt := 2, vals := [(0, 0xF0000000F), (1, 0x300000001)] }
theorem test_hvote : [0, 1, 2].map (fun k => phaseResult (votes k) 0) = [1, 0, 5] := by decide +kernel

/-- In supervisor mode, v2 holds the window's first address, v4 the tensor record at 82000H, v6 an odd address. -/
def tableWeft : Weft := { pairsWeft [(2, 0xFFF0000000000000), (4, 0x82000), (6, 0x82001)] with sv := true }
def tableState (w : Weft) : State := withHbm (pages ++ blocks) (furnish (paged w))
/-- Entry 0 of the window's image has no kind. -/
def badImage : State := (tableState tableWeft).modLm 0 fun m => Memory.write m 1 0x18

def imageView (s : State) : View := viewAt s issueOf tableWeft
def imageBlock : Accesses := blockAt issueOf tableWeft (.dtload only0 40 2) 0xFFF0000000000000 1536
/-- A byte of the image as it is read. -/
def imageByte (s : State) (p : Spot) : Nat := (placeOf 0 p).elim 0 fun q => (byteAt (noted s (imageView s) imageBlock) q).toNat
def imageSpots (s : State) : List Spot := (noted s (imageView s) imageBlock).spots (imageView s) ⟨0, 0xFFF0000000000000, 1536, 1⟩

/-- The image's bytes are read; they are zero but for the second, which is as given. -/
structure ImageRead (s : State) (b : Nat) : Prop where
  free : (s.loom 0).ranges = [] ∧ s.bankHolds (imageView s) imageBlock.list = false
  legal : (imageBlock.list.all fun a => a.bytes.all fun x => (s.spot (imageView s) x).caseOf false == 90) = true
  sound : (imageBlock.list.all fun a => a.bytes.all fun x => !s.readError 0 (s.spot (imageView s) x)) = true
  first : ((imageSpots s).take 2).map (imageByte s) = [0, b]
  rest : ((imageSpots s).drop 2).all (fun r => imageByte s r == 0) = true

theorem sum_zeros (f : Spot → Nat) (sps : List Spot) (h : sps.all (fun r => f r == 0) = true) (k : Nat) :
    ((sps.zipIdx k).map fun x => f x.1 * 256 ^ x.2).sum = 0 := by
  induction sps generalizing k with
  | nil => rfl
  | cons p t ih =>
    simp only [List.all_cons, Bool.and_eq_true, beq_iff_eq] at h
    simp [List.zipIdx_cons, h.1, ih h.2]

theorem order_clear (s : State) (v : View) (l : List Nat) (h : l.all (fun x => (s.spot v x).caseOf false == 90) = true) :
    l.foldl (fun best b => min best ((s.spot v b).caseOf false)) 90 = 90 := by
  induction l with
  | nil => rfl
  | cons b t ih =>
    simp only [List.all_cons, Bool.and_eq_true, beq_iff_eq] at h
    rw [List.foldl_cons, h.1]
    exact ih h.2

theorem ImageRead.takes_effect {s : State} {b : Nat} (h : ImageRead s b) : TakesEffect s (imageView s) imageBlock := by
  obtain ⟨hr, hb⟩ := h.free
  refine ⟨⟨?_, hb⟩, ?_, (s.errorOf_none _ _).1 ?_⟩
  · simp [State.rangeHolds, imageView, viewAt, State.viewOf, issueOf, hr]
  · intro a ha
    left
    simp only [imageBlock, blockAt, List.mem_singleton] at ha
    subst ha
    exact order_clear s _ _ (by simpa [imageBlock, blockAt] using h.legal)
  · have hs := h.sound
    simp only [imageBlock, blockAt, List.all_cons, List.all_nil, Bool.and_true, List.all_eq_true, Bool.not_eq_true'] at hs
    simp only [State.errorOf, imageBlock, blockAt, Option.map_eq_none_iff, List.find?_singleton]
    rw [if_neg]
    simp only [State.spots, Bool.true_and, Bool.false_and, Bool.or_false, List.any_eq_true]
    rintro ⟨x, hx, hy⟩
    have := hs x hx
    simp [imageView, viewAt, State.viewOf, issueOf] at hy this
    simp_all

theorem image_read {s : State} {b : Nat} (h : ImageRead s b) :
    ∃ s0, Reads issueOf tableWeft (.dtload only0 40 2) s 0xFFF0000000000000 1536 64 s0 (256 * b) := by
  refine ⟨_, by decide, h.takes_effect, rfl, ?_⟩
  have h2 := h.rest
  have h1 := h.first
  change 256 * b = ((imageSpots s).zipIdx.map fun x => imageByte s x.1 * 256 ^ x.2).sum
  generalize imageSpots s = l at h1 h2
  match l, h1, h2 with
  | [_], h1, _ => simp at h1
  | p :: q :: rest, h1, h2 =>
    simp only [List.take_succ_cons, List.take_zero, List.map_cons, List.map_nil, List.cons.injEq, and_true] at h1
    simp only [List.zipIdx_cons, List.map_cons, List.sum_cons, h1]
    rw [sum_zeros _ rest h2 2]
    omega

theorem image_zero : ImageRead (tableState tableWeft) 0 := ⟨by decide +kernel, by decide +kernel, by decide +kernel, by decide +kernel, by decide +kernel⟩
theorem image_bad : ImageRead badImage 0x18 := ⟨by decide +kernel, by decide +kernel, by decide +kernel, by decide +kernel, by decide +kernel⟩

theorem witness_TableInstructions_dtload :
    idleAt (tableState tableWeft) tableWeft (.dtload off 40 2) = true
    ∧ goesAt (tableState tableWeft) tableWeft (.dtload only0 40 6) = true
    ∧ goesAt (tableState tableWeft) tableWeft (.dtload only0 40 2) = true ∧ goesAt badImage tableWeft (.dtload only0 40 2) = true
    ∧ (ImageRead (tableState tableWeft) 0 ∧ ∀ k < 768, DecEntry.ofBits (BitVec.ofNat 16 (0 / 2 ^ (16 * k))) ≠ none)
    ∧ (ImageRead badImage 0x18 ∧ DecEntry.ofBits (BitVec.ofNat 16 (256 * 0x18 / 2 ^ (16 * 0))) = none) := by
  refine ⟨by decide +kernel, by decide +kernel, by decide +kernel, by decide +kernel, ⟨image_zero, fun k _ => ?_⟩, image_bad, by decide⟩
  rw [Nat.zero_div]
  decide

theorem witness_TableInstructions :
    let w := tableWeft
    let s := tableState w
    let pend := { w with invs := [3] }
    (goesAt s w (.dtread only0 40 2) && goesAt s w (.recChk only0 40 4)
      && ((recordAt w (.recChk only0 40 4) s 0x82000).bind fun r =>
            indexAt w (.recChk only0 40 4) r.1 (Tensor.ofBits r.2)).isSome
      && idleAt s w (.recChk off 40 4) && goesAt s w (.recChk only0 40 6) && idleAt s w (.tlbinv off .page 2 255)
      && [Instr.tlbinv only0 .page 2 255, .tlbinv only0 .range 2 4, .tlbinv only0 .ctx 255 255].all (goesAt s w)
      && idleAt s w (.tlbsync off) && goesAt s w (.tlbsync g0) && goesAt (tableState pend) pend (.tlbsync g0)) = true := by
  decide +kernel

/-! ### Stall boards, armed words, event counters -/

/-- Posts at 85000H: one of kind 3, one of kind 2 of 20H bytes of market memory with its area at 100000H; solicits at 85080H: one of
operator 7, one of minimum with 8 registers, and the same at group scope. -/
def boardMem : Mem :=
  [(0x8501C, 0x03), (0x85040, 0x17), (0x85048, 0xFF), (0x85055, 0x08), (0x85058, 0x20), (0x8505C, 0x02), (0x8506A, 0x10),
   (0x85098, 0x08), (0x85099, 0x0E), (0x850D8, 0x08), (0x850D9, 0x02), (0x85118, 0x08), (0x85119, 0x03)]

/-- v2 to v12 hold the addresses of the posts and solicits, and an odd one; v14, v15 mailboxes in the window, one not aligned, v16
one outside it; v18 the key of place 3, v20 one that no entry has; v22, v23 the handle of place 3, a stale one; v24 = 4. -/
def boardWeft : Weft :=
  pairsWeft [(2, 0x85000), (4, 0x85040), (6, 0x85080), (8, 0x850C0), (10, 0x85100), (12, 0x85001), (14, 0x40 + 0x41 * 2 ^ 32),
    (16, 0x100000), (18, 0xA17), (20, 0xA18), (22, (3 + 9 * 65536) + (3 + 8 * 65536) * 2 ^ 32), (24, 4)]
def boardState : State :=
  let s := withHbm (pages ++ boardMem) (furnish (paged boardWeft))
  { s with fabric := { s.fabric with route := [(5, 0x8000)] } }

def postMeets (i : Instr) (a : Reg) : Option (Option Nat × Option Nat) :=
  if goesAt boardState boardWeft i then
    (readAt boardWeft i boardState (boardWeft.pair a 0) 64 64).map fun r =>
      ((r.1.postFault (issueOf.iss boardWeft i) (BitVec.ofNat 512 r.2)).map (·.cause), (r.1.loom 0).freeEntry?)
  else none

def movingEntry : State := boardState.modLoom 0 fun y => { y with board := [(3, boardOf 2 .moving)] }

theorem witness_Boards_posts :
    (postMeets (.sbPost only0 40 2) 2 == some (some 0x1A, some 0) && postMeets (.sbPost only0 40 4) 4 == some (none, some 0)
      && goesAt boardState boardWeft (.sbFind only0 40 18 255) && ((boardState.loom 0).entry 3).matches 1 0xA17
      && goesAt boardState boardWeft (.sbFind only0 40 20 24) && goesAt boardState boardWeft (.sbFind only0 40 18 24)
      && (List.range 512).all (fun k => !((boardState.loom 0).entry k).matches 1 0xA18)
      && goesAt boardState boardWeft (.sbWdr only0 40 23) && ((boardState.loom 0).named 1 (boardWeft.lane 23 0)).isNone
      && goesAt boardState boardWeft (.sbWdr only0 40 22)
      && ((boardState.loom 0).named 1 (boardWeft.lane 22 0)).any (fun e => e.2.state != .moving)
      && !(boardState.loom 0).entryBusy 3 && goesAt movingEntry boardWeft (.sbWdr only0 40 22)
      && ((movingEntry.loom 0).named 1 (boardWeft.lane 22 0)).any (fun e => e.2.state == .moving)
      && [Instr.sbPost off 40 2, .sbFind off 40 18 255, .sbWdr off 40 22].all (idleAt boardState boardWeft)) = true := by
  decide +kernel

def censusOf : Census :=
  { counted := 0, answered := 0, value := 0, flags := 0, op := 0, pkgs := 1, asker := 0, ctx := 1, got := false, first := (0, 0, 0),
    key := 0, handler := 0, arg := 0, allot := 8, group := false, box := .gone, here := true, nodes := [] }
/-- Every census slot of the package is taken. -/
def noCensus : State :=
  { boardState with census := (List.range Config.censusSlots).map fun k => (256 * boardState.node.toNat + k, censusOf) }

def solicits (i : Instr) (a : Reg) : Option (Nat × Nat × Bool) :=
  if goesAt boardState boardWeft i then
    (readAt boardWeft i boardState (boardWeft.pair a 0) 64 64).map fun r =>
      (r.2 / 2 ^ 201 % 8, r.2 / 2 ^ 192 % 256, (BitVec.ofNat 512 r.2).getLsbD 200)
  else none

def boxIn (off : Nat) : Bool :=
  (List.range 16).all fun k =>
    (boardState.spot { viewAt boardState issueOf boardWeft with frame := none } (0xFFF * 2 ^ 52 + off + k)).caseOf false == 90

theorem witness_Boards_censuses :
    (noCensus.censusSlot == none && goesAt noCensus boardWeft (.solicit only0 8 14)
      && boardState.censusSlot == some 0 && goesAt boardState boardWeft (.solicit only0 12 14)
      && goesAt boardState boardWeft (.solicit only0 8 15) && goesAt boardState boardWeft (.solicit only0 8 16) && !boxIn 0x100000
      && boxIn 0x40 && solicits (.solicit only0 6 14) 6 == some (7, 8, false) && solicits (.solicit only0 8 14) 8 == some (1, 8, false)
      && solicits (.solicit only0 10 14) 10 == some (1, 8, true) && boardState.groupNodes == [5]
      && (boardState.writeMailbox (.team ⟨0, 0, 0⟩ 0x40) 8 (leBytes 4 0)).any (fun t => t.weft? 0 0 == some boardWeft)
      && [Instr.solicit off 8 14, .respond off 24].all (idleAt boardState boardWeft)) = true := by decide +kernel

theorem witness_Boards_respond :
    let first := { boardWeft with responder := some { node := 0, census := 0, entry := 3, serial := 0, value := none, flagged := false } }
    let again := { boardWeft with responder := some { node := 0, census := 0, entry := 3, serial := 0, value := some 1, flagged := false } }
    (goesAt boardState boardWeft (.respond only0 24) && goesAt (stateOf first) first (.respond only0 24)
      && goesAt (stateOf again) again (.respond only0 24)) = true := by decide +kernel

/-- v2 holds the address of word 80H of the window, v4 of word 88H, v6 an odd address, v8 one of HBM, v10 the market's first word,
v12 a target; v14 the market's word 8. -/
def armWeft : Weft :=
  { pairsWeft [(2, 0xFFF0000000000080), (4, 0xFFF0000000000088), (6, 0xFFF0000000000081), (8, 0x100040), (10, region 4), (12, 9),
      (14, region 4 + 8)] with
    oc := { copy := 2 } }
def armOf (a team : Nat) (hv : Bool) : Arm :=
  { addr := a, target := 9, h := 1, hv := hv, hcnt := 0, team := team, ctx := 1, bteam := 0, bloom := 0 }
/-- Word 80H is armed by the team given, and so is the market's first word; heddle 1 has weft 0, heddle 2 has not. -/
def armState (team : Nat) (hv : Bool) : State :=
  let s := furnish (paged armWeft)
  { s.modLoom 0 fun y => { y with arms := [(0, armOf 0x80 team hv)], heddles := [(0, hedOf 0 [0]), (1, hedOf 1 [0]), (2, hedOf 2 [1])] } with
    bankArms := [(8 * marketBank 0, armOf 0 team hv)] }
/-- No entry of the loom's table is free. -/
def armsTaken : State := (armState 0 false).modLoom 0 fun y => { y with arms := (List.range 64).map fun k => (k, armOf (8 * k) 0 false) }

/-- The word that an arm or await names, and its entry. -/
def armMeets (s : State) (w : Weft) (i : Instr) (a : Reg) : Option (Bool × Option ArmAt) :=
  if ready s i issueOf w && acts w i then
    match s.armWord (issueOf.iss w i) (w.pair a 0) with
    | .ok wd => some (wd.isLoom, (s.armEntry (issueOf.iss w i) wd).map (·.1))
    | .error _ => none
  else none

theorem witness_ArmedWords_arm :
    let s := armState 0 false
    (armMeets s armWeft (.arm only0 false 40 2 12) 2 == some (true, some (.loom 0 0))
      && armMeets s armWeft (.arm only0 true 40 2 255) 2 == some (true, some (.loom 0 0))
      && armMeets (armState 3 false) armWeft (.arm only0 false 40 2 12) 2 == some (true, some (.loom 0 0))
      && armMeets s armWeft (.arm only0 true 40 10 255) 10 == some (false, some (.bank (marketBank 0) 0))
      && armMeets s armWeft (.arm only0 true 40 4 255) 4 == some (true, none)
      && armMeets s armWeft (.arm only0 false 40 4 12) 4 == some (true, none)
      && armMeets s armWeft (.arm only0 false 40 14 12) 14 == some (false, none)
      && (s.releaseAwait 1 (s.armWaiters (.loom 0 0))).weft? 0 0 == some armWeft) = true := by decide +kernel

theorem witness_ArmedWords_full :
    let i : Instr := .arm only0 false 40 2 12
    let s := armsTaken.modLoom 0 fun y => { y with arms := SMap.put y.arms 16 (armOf 0x1000 0 false) }
    (armMeets s armWeft i 2 == some (true, none)
      && ((ArmWord.loom 0x80).places (issueOf.iss armWeft i)).all fun p => (s.armAt p).isSome) = true := by decide +kernel

theorem witness_ArmedWords_await :
    let s := armState 0 false
    let alone := { armWeft with team := none }
    let sAlone := (armState 1024 false).setWeft 0 0 alone
    let back := { armWeft with awaited := some (0x80, true) }
    let sBack := s.setWeft 0 0 back
    (armMeets s armWeft (.await only0 none 40 4) 4 == some (true, none)
      && armMeets (armState 3 false) armWeft (.await only0 none 40 2) 2 == some (true, some (.loom 0 0))
      && armMeets s armWeft (.await only0 none 40 2) 2 == some (true, some (.loom 0 0))
      && [Instr.await only0 (some 2) 40 2, .await only0 (some 1) 40 2].all (fun i =>
        armMeets s armWeft i 2 == some (true, some (.loom 0 0)))
      && !s.memberOf (issueOf.iss armWeft (.await only0 (some 2) 40 2)) 2
      && s.memberOf (issueOf.iss armWeft (.await only0 (some 1) 40 2)) 1
      && armMeets (armState 0 true) armWeft (.await only0 (some 0) 40 2) 2 == some (true, some (.loom 0 0))
      && armMeets sAlone alone (.await only0 (some 0) 40 2) 2 == some (true, some (.loom 0 0))
      && armMeets sBack back (.await only0 none 40 2) 2 == some (true, some (.loom 0 0))
      && sBack.awaitMet (issueOf.iss back (.await only0 none 40 2)) (.loom 0x80)
      && sAlone.memberOf (issueOf.iss alone (.await only0 (some 0) 40 2)) 0) = true := by decide +kernel

theorem witness_ArmedWords :
    let s := armState 0 false
    ([Instr.arm off false 40 2 12, .await off none 40 2, .waitoc off .copy 0, .arrive off 2 12].all (idleAt s armWeft)
      && [Instr.arm only0 false 40 6 12, .arm only0 false 40 8 12, .await only0 none 40 8, .waitoc only0 .copy 2, .waitoc only0 .fab 0,
          .waitoc only0 .copy 1, .arrive only0 6 12, .arrive only0 2 12, .arrive only0 10 12].all (goesAt s armWeft)
      && (match s.spot (viewAt s issueOf armWeft) 0x100040 with | .page y _ => y.space != .market | _ => false)
      && [(2, Instr.arrive only0 2 12), (10, .arrive only0 10 12), (8, .arrive only0 8 12)].all fun p =>
        takes s (viewAt s issueOf armWeft) ⟨true, true, false, [{ lane := 0, va := armWeft.pair p.1 0, len := 8 }]⟩) = true := by
  decide +kernel

/-- A weft that waits on word 80H, armed for 9, in which v stands; bound to heddle 1, whose member it is, or not. -/
def awaiting (bound : Bool) : Weft := { armWeft with wait := .await 0x20000 (.loom 0 0) 40 0 bound }
def releaseState (v : Nat) (bound met : Bool) : State :=
  ((armState 0 false).setWeft 0 0 (awaiting bound)).modLoom 0 fun y =>
    { y with mem := Memory.writeLe y.mem 0x80 8 v,
             arms := [(0, { armOf 0x80 0 bound with hcnt := if bound then 1 else 0, met := met })] }

/-- The entry, whether the word has reached its target, and whether all members of the heddle wait. -/
def releases (s : State) : Bool × Bool × Bool :=
  match s.armAt (.loom 0 0) with
  | none => (false, false, false)
  | some e => (true, s.armReached (.loom 0 0) e, e.hv && e.hcnt == s.armBcnt e && (s.armReached (.loom 0 0) e || e.met))

theorem witness_ArmedWords_release :
    (releases (releaseState 9 false false) == (true, true, false) && at0 (releaseState 9 false false) (awaiting false)
      && releases (releaseState 9 true false) == (true, true, true) && at0 (releaseState 9 true false) (awaiting true)
      && releases (releaseState 8 true true) == (true, false, true) && releases (releaseState 8 true false) == (true, false, false)
      && (awaiting true).port.isNone && ((releaseState 9 true false).armWaiters (.loom 0 0)).all (fun q => q.2.2)
      && (releaseState 9 true false).armPlaces.contains (.bank (marketBank 0) 0)) = true := by decide +kernel

/-- A weft of the mode given, of context 1. -/
def modeWeft (sv : Bool) : Weft := { weftOf [] with sv := sv }
/-- Counter 1 has a source and context 2, counter 2 a source and context 1. -/
def counterState (sv : Bool) : State :=
  (stateOf (modeWeft sv)).modLoom 0 fun y => { y with counters := [(1, ⟨5, 6, false, 2⟩), (2, ⟨5, 6, false, 1⟩)] }

theorem witness_EventCounters :
    let u (i : Instr) : Bool := goesAt (counterState false) (modeWeft false) i
    let p (i : Instr) : Bool := goesAt (counterState true) (modeWeft true) i
    (idleAt (counterState false) (modeWeft false) (.evsel off 40 0 0)
      && u (.evsel g0 40 1 0) && u (.evsel g0 40 0 0x14) && p (.evsel g0 40 8 0x3F) && u (.evsel g0 40 2 6) && p (.evsel g0 40 23 0xCD)
      && u (.evrd g0 40 1) && u (.evrd g0 40 2) && p (.evrd g0 40 1) && p (.evrd g0 40 23)
      && idleAt (counterState false) (modeWeft false) (.evclr off 40 0) && u (.evclr g0 40 1)
      && u (.evclr g0 40 2) && u (.evclr g0 40 0) && p (.evclr g0 40 1) && p (.evclr g0 40 23)
      && (((counterState false).evCounter 0 1).src, ((counterState false).evCounter 0 1).ctx) == (6, 2)) = true := by decide +kernel

/-! ### Traps, the supervisor's instructions, the checks of an issue -/

/-- The frontier of a frame at 2000H: as many entries as n says; the first, of lane 0, at 20100H. -/
def frameMem (n : Nat) : Mem :=
  Memory.writeLe (Memory.writeLe (Memory.writeLe [] 0x2018 1 n) 0x2100 8 0x20100) 0x2108 4 1

/-- A supervisor weft in a trap frame. v1 = 1, v2 = 0, v3 = 7, v4 = 6. -/
def svWeft : Weft := { pairsWeft [(2, 7 * 2 ^ 32), (4, 6)] with sv := true, frame := some 0x2000, frameLanes := 1 }
def svState (w : Weft) (n : Nat) : State := (stateOf w).modLoom 0 fun y => { y with mem := frameMem n }
/-- No loom memory is left for a frame. -/
def fullMemory : State := (stateOf someWeft).modTeam 0 0 fun t => { t with shareSize := Config.loomMemoryBytes }
def vectorless : State := { stateOf someWeft with contexts := [(1, { placedContext with trapv := 0 })] }

theorem witness_TrapEntry :
    ((stateOf svWeft).weft? 0 0 == some svWeft && svWeft.sv
      && vectorless.weft? 0 0 == some someWeft && !someWeft.sv && (vectorless.context? 1).map (·.trapv) == some 0
      && (stateOf someWeft).weft? 0 0 == some someWeft && ((stateOf someWeft).context? 1).map (·.trapv) == some 0x21000
      && (findRun ((stateOf someWeft).loom 0).runs 5120).isSome && someWeft.faulted.isEmpty
      && fullMemory.weft? 0 0 == some someWeft && (findRun (fullMemory.loom 0).runs 5120).isNone) = true := by decide +kernel

/-- R419: the frame that a trap of cause 1EH and code 9 leaves, and its handler's entry. -/
def raised : State := (stateOf someWeft).raise 0 0 0x20000 3 { cause := 0x1E, code := 9, lane := some 3 }
theorem test_trap_frame :
    (let b := ((raised.weft? 0 0).bind (·.frame)).getD 0
     ([0, 8, 9, 10, 24, 256].map fun k => Memory.readLe (raised.loom 0).mem (b + k) 1) == [0, 0x1E, 9, 6, 1, 0]
       && Memory.readLe (raised.loom 0).mem b 8 == 0x20000
       && (raised.weft? 0 0).map (fun w => (w.sv, w.held.map (·.pc))) == some (true, [0x21000])) = true := by decide +kernel

/-- Operations of a replay queue: an xput, and one whose word is not an engine's. -/
def replayOp (w : Weft) (i : Instr) : Op :=
  { baseOp (stateOf w) issueOf w i with
    id := 3, word := encode i, defs := eightDefs [], recs := [0, 0, 0] }
def putW : Weft := { roleWeft .copy with sv := true, frame := some 0x2000, frameLanes := 1 }
def withReplay (i : Instr) : Weft := { putW with replay := [replayOp putW i] }
/-- A conversion of accumulator range 0. -/
def cvtOp (w : Weft) : Op := { replayOp w (.acvt g0 2 40 0) with defs := eightDefs [w.fmt 2, 0] }
def matW : Weft := { roleWeft .matrix with sv := true, frame := some 0x2000, frameLanes := 1 }
def replayState (w : Weft) (n : Nat) : State :=
  { (engineState w).modLoom 0 fun y => { y with mem := frameMem n } with fresh := 4 }
/-- What iret meets: how many entries must wait and how many are kept, and whether the frame is sound. -/
def iretMeets (s : State) (w : Weft) : Nat × Nat × Bool :=
  let r := (s.setWeft 0 0 { w with replay := [] }).iretLoop w 0 0x2000 w.replay.zipIdx []
  (r.rest.length, r.kept.length, s.frameOk 0 0x2000 w.frameLanes)

theorem witness_TrapReturn :
    let i : Instr := .xput g0 20 30
    let w := withReplay i
    let cvt := { matW with replay := [cvtOp matW] }
    let ahead := { cvtOp matW with id := 0, slot := 5 }
    let busy := (replayState cvt 1).modLoom 0 fun y => { y with matQ := [ahead] }
    let full := (replayState w 1).modLoom 0 fun y => { y with fabQ := List.replicate 32 { replayOp w i with slot := 5 } }
    let odd := withReplay (.iadd g0 1 2 3 .wrap)
    let go (s : State) (w : Weft) : Bool := ready s .iret issueOf w
    (go (stateOf { svWeft with frame := none }) { svWeft with frame := none } && go (svState svWeft 1) svWeft
      && (svState svWeft 1).frameOk 0 0x2000 1 && go (svState svWeft 0) svWeft && !(svState svWeft 0).frameOk 0 0x2000 1
      && go busy cvt && iretMeets busy cvt == (1, 0, true) && iretMeets (replayState cvt 1) cvt == (0, 0, true)
      && go full w && iretMeets full w == (1, 0, true)
      && go (replayState w 1) w && iretMeets (replayState w 1) w == (0, 0, true)
      && go (replayState odd 1) odd && iretMeets (replayState odd 1) odd == (0, 1, true)
      && go (replayState w 0) w && iretMeets (replayState w 0) w == (0, 0, false)) = true := by decide +kernel

/-- A frame with two replay entries, and its weft's. -/
def queueWeft2 : Weft := { svWeft with replay := [replayOp svWeft (.xput g0 20 30), replayOp svWeft (.xput g0 20 30)] }
def rqState : State := svState queueWeft2 (1 + 2 * 64)
def frameless : Weft := { svWeft with frame := none }

theorem witness_SupervisorInstructions :
    let user := weftOf [(1, 0, 1)]
    let alone := { user with team := none }
    let mate := (svState svWeft 1).setWeft 0 1 { svWeft with num := 1 }
    ([Instr.rqRd g0 40 2 4, .rqWr g0 40 2 4, .rqDrop only0 40 3, .rqDrop only0 40 2].all (goesAt rqState queueWeft2)
      && rqState.rcount 0 0x2000 == 2 && queueWeft2.faulted.isEmpty
      && [Instr.rqRd g0 40 2 4, .rqWr g0 40 2 4, .rqDrop only0 40 2].all (goesAt (stateOf frameless) frameless)
      && idleAt rqState queueWeft2 (.rqDrop off 40 2)
      && idleAt (stateOf user) user (.setidem off 1) && goesAt (stateOf user) user (.setidem g0 1)
      && goesAt (stateOf alone) alone (.setidem g0 1)
      && idleAt (svState svWeft 1) svWeft (.halt off true 3) && goesAt mate svWeft (.halt g0 true 3)
      && goesAt mate svWeft (.halt g0 false 3) && (mate.weft? 0 1).map (·.ended) == some none) = true := by decide +kernel

/-- R434: rq.drop leaves one entry of two; halt.team ends both wefts with the code given. -/
theorem test_rq_drop : laneOf (after (.rqDrop only0 40 2) rqState) 40 0 = 1
    ∧ (after (.rqDrop only0 40 2) rqState).rcount 0 0x2000 = 1 := by decide +kernel
theorem test_halt_team :
    let t := after (.halt g0 true 3) ((svState svWeft 1).setWeft 0 1 { svWeft with num := 1 })
    [0, 1].map (fun k => ((t.weft? 0 k).bind (·.ended)).map fun x => (x.exit, x.code)) = [some (0xF2, 3), some (0xF2, 3)] := by
  decide +kernel

/-- The checks before an instruction's own that a state meets: held, role, port, allotment, mode, a field of supervisor mode, a word
in error. -/
def checks (s : State) (w : Weft) (i : Instr) : List Bool :=
  [s.regsHold 0 0 w i (issueOf.act w i) || portHolds w i ((issueOf).act w i), (needsRole i).any (fun r => w.role != r), portIllegal w i,
   (allUses i).any (fun u => w.outOfRange u.r), isPrivileged i && !w.sv,
   (s.svDenied 0 w i (issueOf.act w i)).isSome, (eccTrap w i 0xFFFFFFFF ((issueOf).act w i)).isSome]

theorem witness_IssueChecks :
    let poisoned := { weftOf [(1, 0, 7)] with poison := [(32 + 3, false)] }
    let pend : State := (stateOf someWeft).modLoom 0 fun y => { y with copyQ := [liveCopy (stateOf someWeft) someWeft] }
    (checks pend someWeft (.mov g0 40 1) == [true, false, false, false, false, false, false]
      && checks (stateOf portWeft) portWeft (.mov g0 3 51) == [true, false, false, false, false, false, false]
      && checks (stateOf someWeft) someWeft (.copy g0 .none 0 40 2) == [false, true, false, false, false, false, false]
      && checks (stateOf portWeft) portWeft (.shl64 g0 50 4 3) == [false, false, true, false, false, false, false]
      && checks (stateOf smallWeft) smallWeft (.iadd g0 9 8 1 .wrap) == [false, false, false, true, false, false, false]
      && checks (stateOf someWeft) someWeft (.evsel g0 40 8 0) == [false, false, false, false, true, false, false]
      && checks (stateOf someWeft) someWeft .iret == [false, false, false, false, true, false, false]
      && checks { paged addrsWeft with qbase := 0x100000 } addrsWeft (.st only0 24 2 255 0 .b32 false)
        == [false, false, false, false, false, true, false]
      && checks (stateOf poisoned) poisoned (.mov g0 2 1) == [false, false, false, false, false, false, true]) = true := by decide +kernel

/-! ### Steps of the device -/

def e0 : Entry := { pc := 0x20000, mask := 0xFF, prio := 4095, age := 0 }
def endedWeft : Weft := { weftOf [] with held := [] }

theorem witness_WeftSteps_traps_and_ends :
    let pend := { someWeft with trap := some { cause := { cause := 2 }, pc := 0x20000, lane := 0 } }
    let stopped := (stateOf pend).modTeam 0 0 fun t => { t with stop := some .flush }
    (at0 (stateOf pend) pend && !(stateOf pend).halted 0 pend && ((stateOf pend).takeDue 0 0 pend).isSome
      && at0 stopped pend && stopped.halted 0 pend && ((stateOf someWeft).takeDue 0 0 someWeft).isNone
      && at0 (stateOf endedWeft) endedWeft && ((stateOf endedWeft).loom 0).opsOf 0 == [] && endedWeft.replay == []
      && endedWeft.trap == none && endedWeft.faulted == [] && endedWeft.spilled == []
      && endedWeft.ended == none && endedWeft.wait == .none
      && ((stateOf endedWeft).team? 0 0).map (·.unstarted) == some false && someWeft.held != []) = true := by decide +kernel

theorem witness_WeftSteps_frontier :
    let out := { someWeft with spilled := [{ e0 with pc := 0x20040 }] }
    let old := { someWeft with spilled := [{ e0 with pc := 0x20040, age := 65536 }] }
    let pass (y : YieldPass) : Weft := { someWeft with yielded := some y }
    let stuck := { out with wait := .hset 0x20000 1 1 }
    (at0 (stateOf out) out && out.needsSpill && out.mayIssue && !someWeft.needsSpill && !(out.spilled.any Entry.starving)
      && at0 (stateOf stuck) stuck && !stuck.mayIssue
      && at0 (stateOf old) old && old.needsSpill && old.spilled.any Entry.starving
      && at0 (stateOf (pass ⟨[], 5⟩)) (pass ⟨[], 5⟩) && at0 (stateOf (pass ⟨[4], 0⟩)) (pass ⟨[4], 0⟩)
      && at0 (stateOf (pass ⟨[4], 2⟩)) (pass ⟨[4], 2⟩) && someWeft.yielded == none) = true := by decide +kernel

/-- A weft that waits in vgrow since cycle 0, with the growers of its loom and the clock. -/
def growing : Weft := { smallWeft with wait := .vgrow 0x20000 0xFFFFFFFF 1 16 1 0 }
def growState (ks : List Nat) (now : DWord) : State :=
  { (stateOf growing).modLoom 0 fun y => { y with growers := ks } with clock := now }
/-- A weft that waits in hset for a heddle. -/
def setting (k : Nat) : Weft := { heddleWeft with wait := .hset 0x20000 k 1 }
/-- A weft that waits to place a record, to withdraw an entry, to send a flit. -/
def placing (a : DWord) : Weft := { queueWeft with wait := .enqueue 0x20000 40 0 0 a }
def withdrawing (h : Word) : Weft := { boardWeft with wait := .sbWdr 0x20000 0xFFFFFFFF 40 1 h }
def sending (header : Word) (n : Nat) : Weft := { withFlits n with wait := .send 0x20000 header 1 [9] }

theorem witness_WeftSteps_waits :
    (at0 (growState [0] 4096) growing && blocksOf 16 - blocksOf growing.allot ≤ ((growState [0] 4096).loom 0).freeBlocks
      && !(growState [0] 0).halted 0 growing && at0 (growState [0] 4095) growing && at0 (growState [1, 0] 4095) growing
      && ((growState [0] 4096).clock - 0).toNat == 4096 && ((growState [1, 0] 4095).clock - 0).toNat == 4095
      && [5, 3].all (fun k => at0 (heddleState.setWeft 0 0 (setting k)) (setting k)) && (heddleAt 5).map (·.acnt) == some 0
      && (heddleAt 3).map (·.acnt) == some 1
      && at0 (queueState.setWeft 0 0 (placing 0x88060)) (placing 0x88060)
      && ((queueState.setWeft 0 0 (placing 0x88060)).enqueue 1 0 false 0x88060).isSome
      && at0 (placesTaken.setWeft 0 0 (placing 0xFFF0000000000F00)) (placing 0xFFF0000000000F00)
      && ((placesTaken.setWeft 0 0 (placing 0xFFF0000000000F00)).enqueue 1 0 false 0xFFF0000000000F00).isNone) = true := by
  decide +kernel

theorem witness_WeftSteps_boards_and_messages :
    let wd (s : State) (h : Word) : State := s.setWeft 0 0 (withdrawing h)
    let live := 3 + 9 * 65536
    let found (w : Weft) (header : Word) : Option Nat := ((stateOf w).portOf 1 header).map (·.2.2.flits.length)
    (at0 (wd boardState live) (withdrawing live) && ((boardState.loom 0).named 1 live).any (fun e => e.2.state != .moving)
      && !(boardState.loom 0).entryBusy 3 && ((boardState.loom 0).named 1 (live - 65536)).isNone
      && ((movingEntry.loom 0).named 1 live).any (fun e => e.2.state == .moving)
      && at0 (stateOf (sending 0x100 1)) (sending 0x100 1) && found (sending 0x100 1) 0x100 == none
      && found (sending 0 2) 0 == some 2 && found (sending 0 1) 0 == some 1 && (stateOf someWeft).weft? 0 9 == none) = true := by
  decide +kernel

/-- Loom 0 has asked for the line of the entry's PC, and for one of no page. -/
def fillState : State := { (paged someWeft).modLoom 0 fun y => { y with ifills := [(1, 0x200), (1, 9 * 2 ^ 33)] } with clock := 9 }
theorem witness_WeftSteps_fill :
    (let s1 (x : Nat × Nat) : State := fillState.modLoom 0 fun y => { y with ifills := y.ifills.erase x }
     (fillState.loom 0).ifills.contains (1, 0x200) && !(fillState.loom 0).ifills.contains (1, 0x300)
      && (match (s1 (1, 0x200)).fetchPage 0 1 (BitVec.ofNat 64 (0x200 * 256)) with | .ok _ _ => true | _ => false)
      && (match (s1 (1, 9 * 2 ^ 33)).fetchPage 0 1 (BitVec.ofNat 64 (9 * 2 ^ 41)) with | .ok _ _ => false | _ => true)) = true := by
  decide +kernel

/-- An operation of the weft in slot 0 of its class, with its units. -/
def opOf (i : Instr) (n : Nat) : Op :=
  { liveCopy (stateOf (roleWeft .copy)) (roleWeft .copy) with
    instr := i, total := n }
def cpy : Op := opOf (.copy g0 .none 0 40 2) 1
def opState (f : Loom → Loom) : State := (engineState (roleWeft .copy)).modLoom 0 f
/-- What EngineSteps asks of a unit: not stopped nor discarded, and alone in its queue. -/
def unitDue (s : State) (cls : OcClass) (o : Op) : Bool :=
  (s.loom 0).queue cls == [o] && cls != .bank && !o.discard && !o.merging && !s.opStopped o && !s.routeBehind [] o
/-- What EngineSteps asks of a retirement, of the first operation of its queue. -/
def retireDue (s : State) (cls : OcClass) (o : Op) : Bool :=
  (s.loom 0).queue cls == [o] && !o.discard && s.opDone o && !o.enter && !o.merging && !s.recsWait o && o.refused == none

/-- An atomic of another package that is done, its result's register the send register of its weft's port. -/
def sendingOp (header : Word) : Op :=
  { opOf (.xatom g0 .add 0 40 8 50 0) 1 with
    parts := [1], acked := [0], sent := [0], header := some header, block := 4 <<< 192 }
def sendingState (header : Word) (n : Nat) : State :=
  let w := { roleWeft .copy with port := (withFlits n).port, regs := SMap.put (roleWeft .copy).regs (32 * 40) 1 }
  ((engineState (roleWeft .copy)).setWeft 0 0 w).modLoom 0 fun y => { y with fabQ := [sendingOp header] }

theorem witness_EngineSteps_units :
    let one (o : Op) : State := opState fun y => { y with copyQ := [o] }
    let fab := opOf (.xput g0 40 8) 1
    let held := (one cpy).modLoom 0 fun y => { y with copyUsed := 8192 }
    let gone := { cpy with discard := true }
    let out := { cpy with discard := true, sent := [1], acked := [1] }
    (unitDue (one cpy) .copy cpy && (one cpy).progress cpy == 0 && (one cpy).copyUnheld 0
      && unitDue (one { cpy with enter := true }) .copy { cpy with enter := true }
      && unitDue (one { cpy with total := 0 }) .copy { cpy with total := 0 }
      && unitDue (opState fun y => { y with fabQ := [fab] }) .fab fab
      && unitDue held .copy cpy && !held.copyUnheld 0 && (one gone).loom 0 != (one cpy).loom 0
      && retireDue (one { cpy with total := 0 }) .copy { cpy with total := 0 } && cpy.header == none && !(one cpy).opDone cpy
      && out.sent.all (out.acked.contains ·) && !out.merging && ({ cpy with discard := true, merging := true } : Op).merging
      && (((one { cpy with total := 0 }).removeOp 0 .copy 0).weft? 0 0).isSome) = true := by decide +kernel

theorem witness_EngineSteps_flits :
    let room (h : Word) (n : Nat) : Option Nat := ((sendingState h n).portOf 1 h).map (·.2.2.flits.length)
    ([(0x100, 1), (0, 2), (0, 1)].all (fun p => retireDue (sendingState p.1 p.2) .fab (sendingOp p.1)
        && ((sendingState p.1 p.2).weft? 0 0).any fun w => ((sendingOp p.1).flit w).isSome)
      && room 0x100 1 == none && room 0 2 == some 2 && room 0 1 == some 1
      && (let o := { sendingOp 0 with sending := some true }
          retireDue ((sendingState 0 1).modLoom 0 fun y => { y with fabQ := [o] }) .fab o)) = true := by decide +kernel

/-- A command of one bank, of the market's first word. -/
def bnk : Op := { opOf (.bankop g0 .zero 0 22 33 0) 1 with parts := [0], opa := region 4, opb := 1 }
theorem witness_EngineSteps_banks :
    let s := opState fun y => { y with bankQ := [bnk] }
    ((s.loom 0).bankQ == [bnk] && s.unheld 1 0 && s.bankReady (s.opView bnk) bnk.bankPlan && bnk.parts.contains 0
      && !bnk.parts.contains 1) = true := by decide +kernel

/-- A run of one bit waits at the controller of block 200H, whose frame is in error in the second state. -/
def mrg : Merge :=
  { block := 0x200, vaBlock := 0x200, bits := 1, mask := 1, loom := 0, op := 0, unit := 0, flags := 0, recs := [], entry := some 0 }
def mrgState (o : Option Op) (mark : Bool) : State :=
  let s := opState fun y => { y with copyQ := o.toList }
  { s with mem := { s.mem with
      merges := [mrg], pending := [(64 * blockCtrl 0x200, ⟨0x200, 0, 0⟩)], blockMeta := if mark then [(0x200, 32)] else [], marks := if mark then [(.phys .hbm (32 * 0x200), true)] else [] } }
theorem witness_EngineSteps_merges :
    let k := blockCtrl 0x200
    let m := { cpy with merging := true }
    let whole : Merge := { mrg with entry := none, kind := .whole, mask := 2 ^ 32768 - 1 }
    let all (o : Option Op) : State := let s := mrgState o false; { s with mem := { s.mem with merges := [whole], pending := [] } }
    let later : Merge := { mrg with unit := 1, entry := none }
    let two : State := let s := mrgState (some m) false; { s with mem := { s.mem with merges := [mrg, later] } }
    (((opState id).heldMerge k).isNone && (mrgState (some m) true).heldMerge k == some mrg && mrg.kind == .part
      && ((mrgState (some m) true).takeBlock 0x200).1 != 0 && (mrgState (some m) true).mergeOp mrg == some m && !m.discard
      && ((mrgState none true).takeBlock 0x200).1 != 0 && (mrgState none true).mergeOp mrg == none
      && ((mrgState none false).takeBlock 0x200).1 == 0 && ((mrgState none false).mergeOp mrg).isNone
      && ((mrgState (some m) false).takeBlock 0x200).1 == 0 && ((mrgState (some m) false).mergeOp mrg) == some m
      && (let gone := { m with discard := true }
          ((mrgState (some gone) true).takeBlock 0x200).1 != 0 && (mrgState (some gone) true).mergeOp mrg == some gone)
      && two.heldMerge k == some mrg && (two.takeBlock 0x200).1 == 0 && later.op == mrg.op
      && (all none).heldMerge k == some whole && (all (some m)).heldMerge k == some whole) = true := by decide +kernel

theorem witness_EngineSteps_moves :
    let mv (n : Nat) : Op := { opOf (.sbMove g0 40 30 31) n with parts := [0, 0, 4, 0, 0, 0] }
    let s (n : Nat) : State := opState fun y => { y with copyQ := [mv n] }
    (((s 1).loom 0).copyQ[0]? == some (mv 1) && (s 1).progress (mv 1) + 1 == (mv 1).total && (s 1).copyUnheld 0
      && (s 2).progress (mv 2) + 1 != (mv 2).total) = true := by decide +kernel

/-- The record at 88060H waits in loom 0's ready queue. -/
def takeState : State := queueState.modLoom 0 fun y => { y with ready := [(1, 0x88060)] }
def answering (f : Fetch) : State := { queueState with fetches := [f] }
theorem witness_EngineSteps_records :
    let f (q : Nat) : Fetch := { fetchOf 0 with queue := q }
    let s := answering (f 3)
    let launch : Launch :=
      { queue := 3, count := 0, ctx := 1, lrec := LaunchRec.ofBits 0 [], total := 1, next := 0, again := [], returned := [], swapped := [],
        retired := 0, refusal := 0, signalled := false }
    let placed := { s with launches := [launch] }
    ((takeState.nextRecord 0) == some (.ready 0 1 0x88060) && (takeState.recordFits 0 1 8).isSome
      && (takeState.recordFits 0 0 8).isNone && (queueState.nextRecord 1).isNone
      && placed.fetchAnswer (f 3) == .team 0 && (answering (f 0)).fetchAnswer (f 0) == .refused
      && (s.writeMailbox .gone 0 (answerBytes none .refused)).isSome) = true := by decide +kernel

theorem witness_EngineSteps_invalidations :
    let v : Inv := { id := 7, ctx := 1, mode := .ctx, va := 0, count := 0 }
    let s (o : Option Op) : State := { mrgState o false with invs := [v] }
    ((s none).invs[0]? == some v && !(s none).invWaits v && (s (some cpy)).invWaits v && agentOk (.core 0)) = true := by decide +kernel

def spawnFor (serial : Nat) (written : Bool) : Spawn :=
  { ctx := 1, was := .valid, node := 0, census := 0, entry := 3, serial := serial, skey := 0, handler := 0x20000, arg := 0, allot := 8, asker := 0, mov := false,
    written := written, flagged := false, queued := none }
/-- The entry in place 3, with its area and a spawn of it. -/
def spawnState (area : DWord) (p : Spawn) (served : Bool) : State :=
  let s := boardState.modLoom 0 fun y => { y with board := [(3, { boardOf 2 .valid with area := area, busy := true })], spawns := [p] }
  { s with contexts := s.contexts.map fun c => (c.1, { c.2 with served := served }) }
theorem witness_EngineSteps_census :
    let q (here : Bool) : State := { boardState with census := [(0, { censusOf with key := 0xA17, here := here })] }
    let s (area : DWord) (n : Nat) (written served : Bool) : State := spawnState area (spawnFor n written) served
    let next (t : State) : Option Spawn := (t.loom 0).nextSpawn 3
    let area (a : DWord) : Acc := { lane := 0, va := a, len := 128 }
    let case (a : DWord) : Nat := ((s a 0 false true).accCase (boardView 0 1) true (area a)).1
    let poor : State :=
      let t := s 0x100000 0 false true
      { t with mem := { t.mem with marks := [(markOf .hbm 0x100000, true)] } }
    ((SMap.find? (q true).census 0).isSome && (SMap.find? (q false).census 0).map (·.here) == some false
      && next boardState == none && next (s 0 1 false true) == some (spawnFor 1 false) && (s 0 0 false false).serves 1 == false
      && next (s 0 0 false false) == some (spawnFor 0 false) && next (s 0 0 true true) == some (spawnFor 0 true) && (s 0 0 true true).serves 1
      && (s 0x41 0 false true).areaBad 0 1 0x41 && next (s 0x41 0 false true) == some (spawnFor 0 false)
      && [0x100000, region 1, region 5].all (fun a => next (s a 0 false true) == some (spawnFor 0 false)
        && !(s a 0 false true).areaBad 0 1 a)
      && case 0x100000 == 90 && case (region 1) == 70 && case (region 5) < 70
      && next poor == some (spawnFor 0 false) && !poor.areaBad 0 1 0x100000
      && (poor.accCase (boardView 0 1) true (area 0x100000)).1 == 90
      && ((poor.spots (boardView 0 1) (area 0x100000)).any fun p => poor.readError 0 p) && (spawnFor 0 false).was != .spilled
      && ((s 0x100000 0 false true).spots (boardView 0 1) { lane := 0, va := 0x100000, len := 128 }).all fun p =>
        !(s 0x100000 0 false true).readError 0 p) = true := by decide +kernel

/-! ### The distributor and the context commands -/

def oneWeft : LaunchRec := { LaunchRec.ofBits 0 [] with wefts := 1, allot := 8, lmem := 256 }
def launchOf (q n : Nat) : Launch :=
  { queue := q, count := n, ctx := 1, lrec := oneWeft, total := 1, next := 0, again := [], returned := [], swapped := [], retired := 0,
    refusal := 0, signalled := false }
/-- No queue of `queueState` has work, or queue q has a record, of zeros. -/
def noWork : State := withHbm (Memory.write queueState.mem.hbm 0x86098 0) queueState

def drawState (q : Nat) : State := withHbm (Memory.write noWork.mem.hbm (0x86000 + 64 * q + 24) 1) noWork

def drawn (s : State) (q : Nat) : Bool :=
  let qs := (List.range 64).filter s.hasWork
  qs == [q] && (drawWinner (qs.map fun q => (q, s.queueTickets q)) (xorshift s.dist.x) s.dist.z).1 == some q
/-- The draw's team: none while a take is held, else whether there is one. -/
def picked (s : State) (q : Nat) : Option Bool :=
  match (s.findPick (s.queueLoad q + 1) q).2 with
  | .held => none
  | .nothing => some false
  | .team _ => some true
def waitingFor (p : Pick) (s : State) : State := { s with dist := { s.dist with waiting := some p } }
def freshId : TeamId := ⟨3, 0, 0⟩

theorem witness_DistributorSteps_draw :
    let asks := { queueState with fetches := [{ fetchOf 0 with queue := 0 }] }
    let placed := { noWork with launches := [launchOf 3 0] }
    (asks.fetches.any (fun f => asks.fetchAnswer f != .held) && queueState.fetches == [] && queueState.dist.waiting == none
      && (List.range 64).filter (stateOf someWeft).hasWork == [] && drawn (drawState 4) 4 && picked (drawState 4) 4 == none
      && drawn placed 3 && picked placed 3 == some true) = true := by decide +kernel

theorem witness_DistributorSteps_refused :
    (drawn (drawState 3) 3 && picked (drawState 3) 3 == some false) = true := by decide +kernel

/-- A winner is drawn whose records were held: its take is tried again. -/
theorem witness_DistributorSteps_again :
    let s := { noWork with dist := { noWork.dist with drawn := some 4 } }
    (s.fetches == [] && s.dist.waiting == none && s.dist.drawn == some 4 && noWork.dist.drawn == none && picked (drawState 4) 4 == none
      && picked noWork 3 == some false && picked { noWork with launches := [launchOf 3 0] } 3 == some true) = true := by decide +kernel

/-- Every loom is filled by a team of share n, placed at cycle 0, that may start again. -/
def crowded (n : Nat) : State :=
  let s := paged someWeft
  let x := (s.modTeam 0 0 fun t => { t with idem := true, shareSize := n }).loom 0
  { waitingFor (.fresh freshId) s with looms := (List.range 192).map fun l => (l, x), launches := [launchOf 3 0], clock := 2 ^ 22 }
theorem witness_DistributorSteps_choice :
    let s := crowded 786432
    (s.pickNeed (.fresh freshId) == some oneWeft.need && !s.someFits oneWeft.need && !s.departing
      && s.choosePreempt oneWeft.need == some (0, [0]) && s.eligible 1 == [0] && ((s.loom 0).teams.map (·.1)) == [0]
      && (noWork.pickNeed (.fresh freshId)).isNone
      && { s with looms := [] }.someFits oneWeft.need) = true := by decide +kernel

theorem witness_DistributorSteps_ways :
    let s := paged someWeft
    let near : State := { s with launches := [{ launchOf 0 0 with lrec := { oneWeft with expect := 5 } }] }
    let t := placedTeam 0
    let empty := s.setWeft 0 0 { someWeft with held := [] }
    (near.way t == some .drain && s.way { t with idem := true } == some .flush && s.way { t with swap := 0x200000 } == some .save
      && s.way { t with swap := region 9 } == none && (s.team? 0 0).map (·.stop) == some none && !s.frontierless 0 0
      && empty.frontierless 0 0) = true := by decide +kernel

theorem test_lottery : drawWinner [(2, 0), (5, 0)] 7 5 = (some 2, 2) ∧ drawWinner [(2, 0), (5, 0)] 7 2 = (some 5, 5)
    ∧ drawWinner [(2, 3), (5, 4)] 9 0 = (some 2, 0) ∧ drawWinner [(2, 3), (5, 4)] 10 0 = (some 5, 0) := by decide

theorem witness_DistributorSteps_times :
    let s := waitingFor (.fresh freshId) (stateOf someWeft)
    let at_ (now : DWord) (u : Option DWord) (p : Option (Nat × List Nat)) : State :=
      { (s.modTeam 0 0 fun t => { t with drainUntil := u }) with clock := now, dist := { s.dist with preempting := p } }
    let until_ (t : State) : Option (Option DWord) := (t.team? 0 0).map (·.drainUntil)
    ((s.team? 0 0).isSome && s.quantum == 2 ^ 22 && s.dist.waiting == some (.fresh freshId)
      && (at_ (2 ^ 22) none none).clock.toNat == 2 ^ 22 && (at_ (2 ^ 22 - 1) none none).clock.toNat == 2 ^ 22 - 1
      && until_ (at_ 0 none none) == some none && until_ (at_ 9 (some 9) none) == some (some 9)
      && until_ (at_ 8 (some 9) none) == some (some 9)
      && until_ (at_ 9 (some 9) (some (0, [0]))) == some (some 9) && (stateOf someWeft).dist.waiting == none
      && (((stateOf someWeft).modTeam 0 0 fun t => { t with drainUntil := some 0 }).team? 0 0).map (·.drainUntil) == some (some 0))
      = true := by decide +kernel

theorem witness_DistributorSteps_placement :
    let s := { waitingFor (.fresh freshId) (stateOf someWeft) with launches := [launchOf 3 0] }
    ((s.launch? 3 0).isSome && s.team? 1 7 == none && ((s.loom 1).fits oneWeft.need).isSome
      && ((s.loom 1).freeSlots 1024 1).length < 1 && 1 ≤ ((s.loom 1).freeSlots 1023 1).length
      && oneWeft.wefts == [5].length && 1 + oneWeft.wefts == [0, 4096].length
      && 1 + oneWeft.hedmap.length ≤ ((s.loom 1).freeHeddles (1 + oneWeft.hedmap.length)).length
      && { oneWeft with fmts := List.replicate 15 0 }.fmts.length == 15) = true := by decide +kernel

def stopped (st : Stop) (swap : DWord) : State :=
  (paged someWeft).modTeam 0 0 fun t => { t with stop := some st, swap := swap }
theorem witness_DistributorSteps_flush :
    let s := stopped .flush 0
    (((paged someWeft).team? 0 0).map (·.stop) == some none && (s.team? 0 0).map (·.stop) == some (some .flush)
      && s.teamOps 0 0 == [] && !(s.loom 0).entriesBusy 0 && (s.team? 0 0).map (·.unstarted) == some false
      && ((s.modTeam 0 0 fun t => { t with unstarted := true }).team? 0 0).map (·.unstarted) == some true) = true := by
  decide +kernel

theorem witness_DistributorSteps_save :
    let sound (a : DWord) (x : ImagePage) : Bool :=
      let s := stopped .save a
      (s.team? 0 0).any fun t => t.stop == some .save && !s.saveBusy 0 0 t && s.swapUnheld 0 && s.imageState 1 a t.imageBytes == x
        && (s.spillAttached 0 0 ((s.loom 0).rangesOf 0 t)).isSome
    (sound (region 9) .unusable && sound (region 1) .absent && sound 0x200000 .usable) = true := by decide +kernel

/-- A team of one weft saved at an address. -/
def savedTeam (a : DWord) : Saved :=
  { loom := 0, team := { placedTeam 0 with id := freshId, swap := a, shareSize := 256 }, wefts := [(0, weftOf [])], heddles := [hedOf 0 [0]],
    arms := [], tiles := [], ranges := [], ops := [], frames := [] }

theorem witness_DistributorSteps_restore :
    let sound (a : DWord) (x : ImagePage) : Bool :=
      let v := savedTeam a
      let s0 := waitingFor (.swapped freshId) (paged someWeft)
      let s : State := { s0 with launches := [{ launchOf 3 0 with swapped := [v] }], mgmt := { s0.mgmt with linkUp := true } }
      s.saved? freshId == some v && s.team? 1 7 == none && s.swapUnheld 1 && s.restoreRoom 1 v && ((s.loom 1).fits v.need).isSome
        && v.wefts.length ≤ ((s.loom 1).freeSlots 0 1).length && s.restoreState v.team == x
        && (x != .unusable || (s.restoreFails v).isSome)
        && match (s.loom 1).fits v.need, s.evict 33 1 0 with
          | some bases, some s1 => ((s1.restoreTeam 1 7 v ((s.loom 1).freeSlots 0 1) bases).restoreRanges 1 7 v v.ranges).isSome
          | _, _ => false
    (sound (region 1) .absent && sound (region 9) .unusable && sound 0x200000 .usable) = true := by decide +kernel

def restoring (v : Saved) : State :=
  let s := waitingFor (.swapped freshId) (paged someWeft)
  { s with launches := [{ launchOf 3 0 with swapped := [v] }], mgmt := { s.mgmt with linkUp := true } }
theorem witness_DistributorSteps_noRestore :
    let v := savedTeam 0x200000
    let wide : Saved := { v with team := { v.team with shareSize := 2 ^ 20 } }
    let many : Saved := { v with ops := List.replicate 33 cpy }
    let used := (restoring v).modLoom 1 fun x => { x with swapUsed := 2 ^ 20 }
    ((restoring many).saved? freshId == some many && !(restoring many).restoreRoom 1 many && (restoring wide).saved? freshId == some wide
      && ((restoring wide).loom 1).fits wide.need == none && used.saved? freshId == some v && !used.swapUnheld 1) = true := by
  decide +kernel

def rangeOwn : Own :=
  { state := .working, t := 2, ctx := 1, gen := 0, team := 0, key := 0, spill := 0, def_ := 0, tiles := [3, 5], dtime := 0,
    was := .free }
/-- A team with a heddle and a working range is saved, and placed on another loom. -/
theorem witness_DistributorSteps_gives :
    let x := { (stateOf someWeft).loom 0 with heddles := [(4, hedOf 0 [0])], cells := [(4096 * 5 + 1, 7)] }
    let v := x.saveOf 0 0 (placedTeam 0)
    let s := restoring v
    let r := x.savedRange 2 rangeOwn
    let t := s.restoreTeam 1 7 v [3] [0, 4096]
    (x.wefts.map (fun p => (p.1, p.2.num)) == [(0, 0)] && v.wefts.length == 1
      && v.heddles.length ≤ ((s.loom 1).freeHeddles v.heddles.length).length && x.heddles.any (fun p => p.2.team == 0)
      && (t.team? 1 7).isSome && (t.restoreRange 1 7 v r).isSome && r.cells.map (·.1) == [4097]
      && (t.restoreRanges 1 7 v [r]).isSome) = true := by decide +kernel

def descOf (n : BitVec 16) (q : DWord) : CtxDesc :=
  { num := n, root := 0x10000, dtab := 0x38000, qblock := q, trapv := 0x21000, image := none }

theorem witness_ContextCommands :
    let s := stateOf someWeft
    let busy := { s with mgmt := { s.mgmt with ctxStatus := 0x80 } }
    (busy.mgmt.ctxStatus == 0x80 && s.mgmt.ctxStatus != 0x80 && (descOf 0 0x30000).num == 0 && (s.context? 1).isSome
      && s.context? 2 == none && (descOf 2 0).qblock == 0 && (descOf 2 0x30020).qblock.toNat % 64 != 0
      && (descOf 2 0x30040).qblock.toNat % 64 == 0 && queueState.queueEnabled 1 && (queueState.context? 1).isSome
      && queueState.mgmt.ctxStatus != 0x80 && !s.queueEnabled 1 && s.dist.waiting == none
      && (List.replicate 768 (0 : BitVec 16)).length == 768 && (DecEntry.ofBits 0).isSome && (DecEntry.ofBits 33).isNone) = true := by
  decide +kernel

theorem witness_ContextCommands_ends :
    let s := paged someWeft
    let swapAt (a : DWord) : State := s.modTeam 0 0 fun t => { t with swap := a }
    let is (a : DWord) (x : ImagePage) : Bool :=
      ((swapAt a).team? 0 0).any fun q => q.stop.isNone && (swapAt a).imageState q.ctx q.swap q.imageBytes == x
    let out (cmd : CtxCmd) : State := { s with contexts := s.contexts.map fun p => (p.1, { p.2 with cmd := cmd }) }
    let empty : State := { out .switchOut with looms := [] }
    let on (f : Loom → Loom) : State := { empty with looms := [(0, f (empty.loom 0))] }
    let pinned := on fun x => { x with owners := [(0, { rangeOwn with state := .pinned, spill := region 1, def_ := binary32 })] }
    let busy := on fun x => { x with copyQ := [cpy] }
    (is (region 9) .unusable && is (region 1) .absent && !s.frontierless 0 0
      && [CtxCmd.none, .switchOut, .teardown].all (fun k => ((out k).context? 1).any fun x => x.cmd == k)
      && (out .none).contexts.map (·.1) == [1] && !((out .switchOut).ctxTeams 1).isEmpty
      && empty.ctxTeams 1 == [] && empty.ctxRecords 1 == [] && !empty.respondersLeft 1 && (empty.spillCtx 1).2
      && pinned.ctxTeams 1 == [] && pinned.ctxRecords 1 == [] && !pinned.respondersLeft 1 && !(pinned.spillCtx 1).2
      && busy.ctxOpsLeft 1 && !empty.ctxOpsLeft 1) = true := by decide +kernel

/-! ### The fabric -/

def pktOf (op : Nat) (addr : DWord) : Packet :=
  { op := op, vc := 0, dst := 0, src := 5, hops := 0, ctx := 1, len := 4, cnt := false, addr := addr, ctr := 0x100080, launch := 0,
    loom := 0, tag := 7, unit := 0, sub := 0, cause := 0, thi := 0, data := leBytes 32 1 }
/-- A launch of context 1 is signalled at address 77H; its team 0 is placed on loom 0. -/
def netState (p : Packet) : State :=
  let s := queueState
  { s with launches := [{ launchOf 0 0 with lrec := { oneWeft with signal := 0x77 } }],
           fabric := { s.fabric with inbound := [p] } }
def arrived (s : State) (p : Packet) : Bool := s.inboundAt 0 [p.op] == some p && !s.refusesOp p
/-- Where a packet's place lies: refused, held, in a share, in memory. -/
def placeCase (s : State) (p : Packet) (read store : Bool) (a : DWord) (n align : Nat) : Nat :=
  match s.remote p read store a n align with
  | .refused _ => 0
  | .held => 1
  | .lm _ _ => 2
  | .va _ _ => 3
/-- An arrived packet of the device, with its place and its counter's. -/
def arrives4 (p : Packet) (store : Bool) (align : Nat) (places : Nat × Nat) : Bool :=
  let s := netState p
  arrived s p && (placeCase s p (!store || p.op == 3) store p.addr p.len align, placeCase s p true true p.ctr 8 8) == places

def shared : DWord := 0xFFF0000000000F00
theorem witness_PacketSteps_requests :
    let refused (op : Nat) : State :=
      let s := netState (pktOf op 0)
      { s with fabric := { s.fabric with refusing := [(5, 0, 7)] } }
    let counted (a ctr : DWord) : Packet := { pktOf 0 a with cnt := true, ctr := ctr }
    let team (p : Packet) : Packet := { p with launch := 0x77 }
    ((netState (pktOf 11 0)).inboundAt 0 [0] == none && queueState.inboundAt 0 [0] == none
      && (refused 0).inboundAt 0 [0] == some (pktOf 0 0) && (refused 0).refusesOp (pktOf 0 0) && (refused 1).refusesOp (pktOf 1 0)
      && arrives4 (pktOf 0 shared) true 1 (0, 3) && arrives4 (pktOf 0 (region 1)) true 1 (1, 3)
      && arrives4 (pktOf 1 (region 1)) false 1 (1, 3) && arrives4 (pktOf 1 0x100040) false 1 (3, 3)
      && arrives4 (team (pktOf 1 shared)) false 1 (2, 3) && arrives4 (pktOf 0 0x100040) true 1 (3, 3)
      && arrives4 (counted 0x100040 0x100080) true 1 (3, 3) && arrives4 (counted 0x100040 0x100081) true 1 (3, 0)
      && arrives4 (counted 0x100040 (region 1)) true 1 (3, 1)
      && arrives4 (pktOf 3 0x100040) true 4 (3, 3) && atomOf (pktOf 3 0x100040).sub != .fadd) = true := by decide +kernel

/-- The device has an operation whose units carry tag 7. -/
def putOp : Op := { opOf (.xput g0 40 8) 1 with tag := 7 }
def getOp : Op := { opOf (.xget g0 40 8) 1 with tag := 7, block := (0x100040 : BitVec 512) + (4 : BitVec 512) <<< 192 }
/-- One with an arrival counter at 100080H (R277). -/
def countedGet : Op :=
  { getOp with
    block := getOp.block + (1 : BitVec 512) <<< 238 + (0x100080 : BitVec 512) <<< 256 }
def withFab (o : Op) (p : Packet) : State := (netState p).modLoom 0 fun y => { y with fabQ := [o] }
theorem witness_PacketSteps_answers :
    let has (o : Op) (op : Nat) : Bool :=
      let s := withFab o (pktOf op 0)
      s.inboundAt 0 [op] == some (pktOf op 0) && s.fabOp 0 7 == some o
    let v := (netState (pktOf 2 0)).opView getOp
    (has putOp 5 && (netState (pktOf 5 0)).inboundAt 0 [5] == some (pktOf 5 0) && (netState (pktOf 5 0)).fabOp 0 7 == none
      && has { getOp with discard := true } 2
      && [getOp, countedGet].all (fun o => has o 2 && !o.discard
        && (withFab o (pktOf 2 0)).writeCase v false false o.fabPlan.laddr 0 (8 * o.fabUnitLen 0) == none)
      && !getOp.fabPlan.cnt && countedGet.fabPlan.cnt
      && (withFab countedGet (pktOf 2 0)).addCase v countedGet.fabPlan.ctr == none
      && (netState (pktOf 2 0)).inboundAt 0 [2] == some (pktOf 2 0)
      && has putOp 4 && (pktOf 4 0).launch.toNat / 256 % 256 == 0 && (netState (pktOf 4 0)).inboundAt 0 [4] == some (pktOf 4 0)
      && has putOp 6 && (pktOf 6 0).tag.getLsbD 23 == false && (netState (pktOf 6 0)).inboundAt 0 [6] == some (pktOf 6 0)) = true := by
  decide +kernel

def redPkt (op : Nat) : Packet := pktOf op 0x100040
def collOf (sub : Nat) (done : List Nat) : Collective :=
  { ctx := 1, id := (redPkt 7).redId, op := sub, def_ := (redPkt 7).redDef, check := (redPkt 7).redCheck, elems := 0, raddr := 0x100040,
    ctr := 0x100080, cnt := false, route := [], launch := 0, thi := 0, got := [], done := done, flags := 0 }
def withColl (cs : List Collective) (p : Packet) : State :=
  let s := netState p
  { s with fabric := { s.fabric with collectives := cs } }
theorem witness_PacketSteps_reductions :
    let p := redPkt 7
    let q := redPkt 8
    let s (cs : List Collective) := withColl cs p
    let g : Contribution := { node := 5, loom := 0, at_ := 0, tag := 7, unit := 0, data := p.data.drop 16, flags := 0 }
    let mine : Collective := { collOf 0 [] with got := [{ g with node := 0 }] }
    let own : Packet := { p with src := 0 }
    let sOwn : State := (withColl [collOf 0 []] own).modLoom 0 fun y => { y with fabQ := [putOp] }
    let far : Packet := { p with addr := region 1, data := leBytes 8 0xA003F8F1 ++ leBytes 4 0 ++ leBytes 4 1 ++ leBytes 16 1 }
    let cFar : Collective :=
      { collOf 0 [] with raddr := region 1, def_ := far.redDef, check := far.redCheck, elems := 1,
                         route := leBytes 4 0 ++ leBytes 60 1 ++ leBytes 2 5 }
    let no : State := let t := s []; { t with fabric := { t.fabric with refusing := [(5, 0, 7)] } }
    (no.refusesOp p && !(s []).refusesOp p && sOwn.inboundAt 0 [7] == some own && (sOwn.fabOp 0 7).map (·.route) == some []
      && (sOwn.collective own).agrees own 0 [] && own.src == sOwn.node.toNat
      && (withColl [cFar] far).inboundAt 0 [7] == some far && cFar.agrees far 0 [] && cFar.got == []
      && (((withColl [cFar] far).takeInbound 0).reduceNext { cFar with got := [g] } far).isNone
      && (s []).inboundAt 0 [7] == some p && p.src != (s []).node.toNat && !((s [collOf 1 []]).collective p).agrees p 0 []
      && ((s [collOf 0 [0]]).collective p).agrees p 0 [] && ((s [collOf 0 [0]]).collective p).done == [0]
      && ((s [collOf 0 []]).collective p).agrees p 0 [] && ((s [collOf 0 []]).collective p).got == []
      && (((s [collOf 0 []]).takeInbound 0).reduceNext { collOf 0 [] with got := [g] } p).isSome
      && (withColl [collOf 0 []] q).inboundAt 0 [8] == some q && ((withColl [mine] q).answered q).isSome && (withColl [mine] q).inboundAt 0 [8] == some q
      && ((withColl [] q).answered q).isNone && (withColl [] q).fabOp 0 7 == none
      && ((withFab putOp q).answered q).isNone && (withFab putOp q).fabOp 0 7 == some putOp
      && (withColl [mine] (redPkt 6)).inboundAt 0 [6] == some (redPkt 6)
      && ((withColl [mine] (redPkt 6)).answered (redPkt 6)).isSome) = true := by decide +kernel

theorem witness_PacketSteps_census :
    let s := { netState (pktOf 10 0) with census := [(7, { censusOf with nodes := [5], pkgs := 2 })] }
    let t := { netState (pktOf 10 0) with census := [(7, censusOf)] }
    let ch : RouteChange := { node := 9, vc := 0, old := 0, new := 0x8001 }
    let r : State := { stateOf someWeft with fabric := { (stateOf someWeft).fabric with changes := [ch], waiting := [{ pktOf 0 0 with dst := 9 }] } }
    ((netState (pktOf 9 0)).inboundAt 0 [9] == some (pktOf 9 0) && s.inboundAt 0 [10] == some (pktOf 10 0) && s.node == 0
      && (SMap.find? s.census 7).map (·.nodes) == some [5] && (SMap.find? t.census 7).map (·.nodes) == some []
      && !r.onTheWay 9 0 && !(stateOf someWeft).onTheWay 9 0) = true := by decide +kernel

def upPort : FabPort := { FabPort.reset with state := .up, live := 0xFFFFFF, txMask := 0xFFFFFF }
def linkState (x : FabPort) : State := (stateOf someWeft).setPort 3 x
def flitOf (type seq : Nat) (nak : Bool) (payload : List Byte) : BitVec 1536 :=
  BitVec.ofNat 1536 (leValue (flitBytes
    { seq := BitVec.ofNat 16 seq, ack := 0, av := false, nak := nak, type := type, crd := 0, cpool := 0, csh := false } payload))
/-- The flit's CRC is that of its bytes (R438). -/
def whole (flit : BitVec 1536) : Bool :=
  let bytes := leBytes 192 flit.toNat
  leValue (bytes.drop 184) == crc64 (bytes.take 184)
def headOf (flit : BitVec 1536) : FlitHead := FlitHead.ofBits (flit.extractLsb' 0 64)

theorem witness_LinkSteps_flits :
    (whole (flitOf 3 0 false []) && (headOf (flitOf 3 0 false [])).type == 3
      && !whole (flitOf 3 0 false [] ^^^ 1) && whole (flitOf 2 0 false []) && (headOf (flitOf 2 0 false [])).type == 2
      && whole (flitOf 2 0 true []) && (headOf (flitOf 2 0 true [])).nak
      && whole (flitOf 1 4 false []) && (headOf (flitOf 1 4 false [])).seq != upPort.expect
      && whole (flitOf 1 0 false []) && (headOf (flitOf 1 0 false [])).seq == upPort.expect
      && [0xFFFFFF, 1].all (fun m => let x := flitOf 1 0 true (leBytes 16 m)
        whole x && (headOf x).type == 1 && (headOf x).nak && (headOf x).seq == upPort.expect)
      && (flitOf 1 0 true (leBytes 16 0xFFFFFF)).extractLsb' 64 24 == upPort.txMask
      && (flitOf 1 0 true (leBytes 16 1)).extractLsb' 64 24 != upPort.txMask
      && whole (flitOf 2 0 true []) && (headOf (flitOf 2 0 true [])).type == 2
      && ((linkState upPort).port 3).state == .up && ((linkState upPort).port 95).state != .up) = true := by decide +kernel

theorem witness_LinkSteps_data :
    (let f := flitOf 0 0 false (List.replicate 176 0x0F)
     let slots (x : BitVec 1536) : Unpacked := unpackSlots 5 (upPort.partialIn ++ slots16 (((leBytes 192 x.toNat).drop 8).take 176))
     let wrong := flitOf 0 0 false (List.replicate 176 0x0E)
     let late := flitOf 0 4 false (List.replicate 176 0x0F)
     [f, wrong, late].all (fun x => whole x && (headOf x).type == 0 && !(headOf x).nak) && (headOf f).seq == upPort.expect
      && !(slots f).bad && (headOf wrong).seq == upPort.expect && (slots wrong).bad && (headOf late).seq != upPort.expect) = true := by
  decide +kernel

theorem witness_LinkSteps_ports :
    let x (n : Nat) : FabPort := { upPort with unacked := [(4, []), (5, [])], resends := n }
    let st (s : PortState) : FabPort := { upPort with state := s }
    let same (y : FabPort) : Bool := (linkState y).port 3 == y
    (same upPort && upPort.unacked == [] && same (x 3) && same (x 2) && (x 2).unacked == [] ++ (4, []) :: [(5, [])]
      && same { upPort with tokens := 0 } && upPort.tokens != 0 && same { upPort with suspect := 8 } && upPort.live.getLsbD 0
      && !upPort.live.getLsbD 24 && ((8 : BitVec 24) &&& (8 : BitVec 24) &&& upPort.live) != 0 && ((1 : BitVec 24) &&& (8 : BitVec 24)) == 0
      && same { upPort with suspect := 0xFFFFFF } && same { upPort with suspect := 8, unacked := List.replicate 512 (4, []) }
      && same (st .training) && (st .training).state == .training
      && same { upPort with tokens := 7, timer := 2 ^ 37 } && same { upPort with tokens := 7, timer := 2 ^ 37 - 1 } && upPort.tokens == 8
      && same { upPort with ctlBusy := true } && same { upPort with state := .training, ctlBusy := true } && same (st .retired) && same (st .offline) && !(linkState upPort).routed 3
      && ((linkState upPort).fabric.changes == [] && SMap.getD (linkState upPort).fabric.route 9 0 == 0)) = true := by decide +kernel

/-! ### Bring-up and management -/

def stageAt (n : Nat) : State := { State.reset with mgmt := { State.reset.mgmt with stage := n } }

theorem witness_BringUpSteps :
    (State.reset.mgmt.stage == 1 && State.reset.mgmt.powered
      && !({ State.reset with mgmt := { State.reset.mgmt with powered := false } } : State).mgmt.powered
      && State.reset.mgmt.budgets.length == 7 && [2, 4, 5, 6].all (fun n => (stageAt n).mgmt.stage == n)
      && ([] : List Byte) != [0x42, 0x5A, 0x53, 0x46] && (0x1001 : DWord).toNat % 4096 != 0 && (0x2000 : DWord) != 0
      && (0x2000 : DWord).toNat % 4096 == 0) = true := by decide +kernel

/-- An image whose magic is wrong is refused with reason 5 (R458). -/
theorem test_bad_magic : flashReason { bytes := [0x42, 0x5A, 0x53, 0x45], readOk := true } = 5 := by decide +kernel

def linked (s : State) : State := { s with mgmt := { s.mgmt with linkUp := true } }

theorem witness_ManagementSteps_host :
    let ok (s : State) (off n : Nat) : Bool := [1, 2, 4, 8].contains n && off % n == 0 && s.mgmt.linkUp
    let s := linked State.reset
    (!ok State.reset 0 8 && !ok s 4 8 && !ok s 0 3 && ok s 0 8 && ok s (2 ^ 39 - 8) 8 && ok s (2 ^ 39) 1
      && ok s (2 ^ 39 + 2 ^ 28 - 8) 8 && ok s (2 ^ 39 + 2 ^ 28 + 8) 2 && leValue [0xC5, 0xB0] % 2 ^ 16 == 0xB0C5
      && ok s (2 ^ 39 + 2 ^ 28 + 2 ^ 20) 8 && (List.replicate 128 (0 : Byte)).length == 128 && decide (1 * 128 < Config.hostBytes)
      && State.reset.devBlocks == [] && !s.blockBusy 0 && (linked (mrgState none false)).blockBusy 0x200
      && SMap.getD s.mem.blockMeta 0 0 == 0 && (leBytes 8 7).length == 8
      && ok (linked (mrgState none false)) (4096 * 0x200) 8 && State.reset.mgmt.linkUp == false
      && decide (State.reset.mgmt.stage < 2) && decide (2 ≤ (stageAt 7).mgmt.stage)) = true := by
  decide +kernel

theorem witness_ManagementSteps_power :
    let at_ (now : DWord) : State := { State.reset with clock := now }
    let tripped : State := { State.reset with mgmt := { State.reset.mgmt with trip := true, wh := 64 } }
    ((at_ 0).periodStart && !(at_ 1).periodStart && !State.reset.mgmt.trip && tripped.periodStart && tripped.mgmt.trip
      && decide (hottest [1600, 0, 0, 0] < 115) && decide (115 ≤ hottest [1840, 0, 0, 0]) && decide (State.reset.mgmt.plim < 3801)
      && decide (hottest [0, 0, 0, 0] < State.reset.mgmt.tlim) && !State.reset.mgmt.flow
      && (State.reset.mgmt.budgets[6]?).isSome && (State.reset.mgmt.budgets[7]?).isNone) = true := by decide +kernel

/-- The second 512 KiB of region 3 are a page that is not resident: a migration of it may copy. -/
theorem witness_ManagementSteps_memory :
    let s := withHbm (pages ++ [(0x44008, 0xC5), (0x44009, 0x02)]) (paged someWeft)
    let sampled : State := { State.reset with mgmt := { State.reset.mgmt with settings := { State.reset.mgmt.settings with sampleSize := 16384 } } }
    let marked : State := { State.reset with mem := { State.reset.mem with marks := [(.phys .hbm 0, false)] } }
    (State.reset.mgmt.scrubAt == 0 && State.reset.unheld 5 (hbmStack 0) && State.reset.mem.markAt (markOf .hbm 0) == none
      && marked.mem.markAt (markOf .hbm 0) == some false
      && s.currentLeaf 1 (9 * 2 ^ 41) == none && (s.currentLeaf 1 (3 * 2 ^ 41 + 2 ^ 19)).any (fun x => !pteResident x.pte && x.space == .hbm
        && ptePpn x.pte * 2 ^ 19 + 2 ^ levelShift x.level ≤ x.space.bytes)
      && s.mem.pending == [] && s.invs == [] && s.unheld 2 0
      && State.reset.mgmt.settings.sampleSize.toNat / 16384 == 0 && sampled.mgmt.settings.sampleSize.toNat / 16384 == 1
      && sampled.unheld 6 0 && errAt (.lmem 0 (2 ^ 40)) == none && errAt (.lmem 191 8) == some (.lmem 191 1)
      && State.reset.holdsPlace (.lmem 191 1) && (errAt (.l1 0 1 5)).any (fun e => !State.reset.holdsPlace e)
      && at0 (stateOf someWeft) someWeft && someWeft.poison == [] && someWeft.soft == []) = true := by decide +kernel

theorem witness_ManagementSteps_registers :
    let busy : State := { State.reset with mgmt := { State.reset.mgmt with ctxStatus := 0x80 } }
    (decide (State.reset.mgmt.stage < 4) && decide (4 ≤ (stageAt 4).mgmt.stage) && (6 : DWord).toNat % 32 == 6
      && (20 : DWord).toNat % 32 == 20 && (0x100000000 : DWord).toNat % 2 ^ 32 == 0 && State.reset.mgmt.ctxStatus != 0x80
      && busy.mgmt.ctxStatus == 0x80 && decide (4 < (5 : DWord).toNat)) = true := by decide +kernel

end Sys2Proof.Tests
end

section
/-! SUPPORT. The checks of an instruction before its own (R119, R134, R335, R415, R425). -/

namespace Sys2Proof.Machine

/-- An instruction runs through the shared issue, but for the hints (R103, R260). -/
theorem exec_issues_or_hint {i : Instr} (he : i.isEvent = false) (s : State) :
    (∃ body, exec i s = issue i body s)
      ∨ (∃ h n off, i = .ipref h n off) ∨ (∃ h a b imm, i = .dpref h a b imm) ∨ ∃ code, i = .unassignedHint code := by
  cases i
  case ipref h n off => exact .inr (.inl ⟨h, n, off, rfl⟩)
  case dpref h a b imm => exact .inr (.inr (.inl ⟨h, a, b, imm, rfl⟩))
  case unassignedHint code => exact .inr (.inr (.inr ⟨code, rfl⟩))
  all_goals cases he
  all_goals exact .inl (by unfold exec; exact ⟨_, rfl⟩)

/-- An instruction is held where a register of it is pending, or the flit that it reads has not come (R134, R335). -/
theorem issue_held {s : State} {i : Instr} {c : Issue} {w : Weft} (body : Iss → State → Effect) (hc : s.cur = some c)
    (hw : s.weft? c.loom c.slot = some w)
    (hh : s.regsHold c.loom c.slot w i (c.act w i) = true ∨ portHolds w i (c.act w i) = true) :
    issue i body s = .next s := by
  have hold : (s.regsHold c.loom c.slot w i (c.act w i) || portHolds w i (c.act w i)) = true := by simpa using hh
  unfold issue
  rw [hc]
  simp only [hw]
  exact if_pos hold

/-- The first check of R415's items 3 to 7 that stops an instruction is its trap. -/
theorem issue_checked {s : State} {i : Instr} {c : Issue} {w : Weft} {e : Cause} (body : Iss → State → Effect)
    (hc : s.cur = some c) (hw : s.weft? c.loom c.slot = some w)
    (hh : ¬ (s.regsHold c.loom c.slot w i (c.act w i) = true ∨ portHolds w i (c.act w i) = true))
    (ht : commonTrap w i c.mask (c.act w i) (s.svDenied c.loom w i (c.act w i)) = some e) :
    issue i body s = .next ((s.noteTrap c.loom w i e).raise c.loom c.slot c.pc (faultLane c.mask (c.act w i)) e) := by
  have hold : ¬ (s.regsHold c.loom c.slot w i (c.act w i) || portHolds w i (c.act w i)) = true := by simpa using hh
  unfold issue
  rw [hc]
  simp only [hw]
  refine (if_neg hold).trans ?_
  rw [show w.active (guardOf i) c.mask = c.act w i from rfl, ht]

/-! ## The lowest register beyond the allotment (R101, R425) -/

/-- The lower of a register found so far and one more, where that one lies beyond the allotment. -/
def lowerOut (w : Weft) (acc : Option Reg) (r : Reg) : Option Reg :=
  if w.outOfRange r then (match acc with | none => some r | some q => some (if r < q then r else q)) else acc

theorem lowestOut_eq (w : Weft) (i : Instr) : lowestOut w i = ((allUses i).map (·.r)).foldl (lowerOut w) none := rfl

/-- The fold over some registers finds the lowest of those that lie beyond the allotment, if one does. -/
theorem foldl_lowerOut (w : Weft) (rs : List Reg) :
    ((∀ r ∈ rs, w.outOfRange r = false) ∧ rs.foldl (lowerOut w) none = none)
      ∨ ∃ q ∈ rs, rs.foldl (lowerOut w) none = some q ∧ w.outOfRange q = true
          ∧ ∀ r ∈ rs, w.outOfRange r = true → q ≤ r := by
  induction rs using List.reverseRecOn with
  | nil => exact .inl ⟨by simp, rfl⟩
  | append_singleton t r ih =>
    rw [List.foldl_append, List.foldl_cons, List.foldl_nil]
    by_cases hr : w.outOfRange r = true
    · rcases ih with ⟨hn, hf⟩ | ⟨q, hq, hf, ho, hmin⟩
      · exact .inr ⟨r, by simp, by simp [hf, lowerOut, hr], hr, by grind⟩
      · refine .inr ⟨if r < q then r else q, by grind, by simp [hf, lowerOut, hr], by grind, by grind⟩
    · have hstep (acc : Option Reg) : lowerOut w acc r = acc := by simp [lowerOut, hr]
      rw [hstep]
      rcases ih with ⟨hn, hf⟩ | ⟨q, hq, hf, ho, hmin⟩
      · exact .inl ⟨by grind, hf⟩
      · exact .inr ⟨q, by grind, hf, ho, by grind⟩

/-- Where an instruction names registers beyond the allotment, the lowest of them is found. -/
theorem lowestOut_some {w : Weft} {i : Instr} (h : ∃ u ∈ allUses i, w.outOfRange u.r = true) :
    ∃ u ∈ allUses i, w.outOfRange u.r = true ∧ (∀ q ∈ allUses i, w.outOfRange q.r = true → u.r ≤ q.r)
      ∧ lowestOut w i = some u.r := by
  rw [lowestOut_eq]
  rcases foldl_lowerOut w ((allUses i).map (·.r)) with ⟨hn, -⟩ | ⟨q, hq, hf, ho, hmin⟩
  · obtain ⟨u, hu, ho⟩ := h
    exact absurd ho (by simp [hn u.r (List.mem_map_of_mem hu)])
  · obtain ⟨u, hu, rfl⟩ := List.mem_map.1 hq
    exact ⟨u, hu, ho, fun x hx => hmin x.r (List.mem_map_of_mem hx), hf⟩

/-! ## The checks in their order (R415, items 3 to 7) -/

/-- The instruction's role is not its weft's (R55). -/
def WrongRole (w : Weft) (i : Instr) : Prop := ∃ r, needsRole i = some r ∧ w.role ≠ r

theorem commonTrap_role {w : Weft} {i : Instr} {mask act : Word} {denied : Option Cause} (h : WrongRole w i) :
    commonTrap w i mask act denied = some { cause := 0x03 } := by
  obtain ⟨r, hr, hw⟩ := h
  simp [commonTrap, hr, hw]

/-- With the role that it needs, an instruction meets the later checks. -/
theorem commonTrap_eq {w : Weft} {i : Instr} {mask act : Word} {denied : Option Cause} (h : ¬ WrongRole w i) :
    commonTrap w i mask act denied =
      if portIllegal w i then some { cause := 0x02 }
      else
        match lowestOut w i with
        | some r => some { cause := 0x05, code := r.toNat }
        | none =>
          if isPrivileged i && !w.sv then some { cause := 0x04 }
          else denied.or ((eccTrap w i mask act).map fun p =>
            { cause := 0x06, code := p.1.toNat, lane := some p.2, index := p.2 }) := by
  unfold commonTrap
  cases hn : needsRole i with
  | none => cases denied <;> cases eccTrap w i mask act <;> rfl
  | some r =>
    have role : (w.role != r) = false := by simpa using fun hne => h ⟨r, hn, hne⟩
    simp only [role]
    cases denied <;> cases eccTrap w i mask act <;> rfl

end Sys2Proof.Machine

namespace Sys2Proof.Rules

open Sys2Proof.Machine

/-- The cause that an instruction's first failing check gives is its trap (R415, R417). -/
theorem traps_of_commonTrap {s : State} {i : Instr} {c : Issue} {w : Weft} {e : Cause} {body : Iss → State → Effect}
    (hb : exec i s = issue i body s) (hc : s.cur = some c) (hw : s.weft? c.loom c.slot = some w)
    (hh : ¬ (s.regsHold c.loom c.slot w i (c.act w i) = true ∨ portHolds w i (c.act w i) = true))
    (ht : commonTrap w i c.mask (c.act w i) (s.svDenied c.loom w i (c.act w i)) = some e) : Traps s i c w e := by
  unfold Traps
  rw [hb, issue_checked body hc hw hh ht]

/-- Settles O52: the checks of the shared issue, each where none before it stops the instruction. -/
theorem issueChecks : Obligations.IssueChecks := by
  unfold Obligations.IssueChecks
  intro s i c w hc hw he hh held wrongRole beyond denied
  obtain ⟨body, hb⟩ | ⟨_, _, _, rfl⟩ | ⟨_, _, _, _, rfl⟩ | ⟨_, rfl⟩ := exec_issues_or_hint he s
  rotate_left
  · exact hh.elim
  · exact hh.elim
  · exact hh.elim
  have trap {e : Cause} := traps_of_commonTrap (e := e) hb hc hw
  have inside (hn : ¬ beyond) : lowestOut w i = none :=
    lowestOut_none fun u hu => Bool.eq_false_iff.2 fun ho => hn ⟨u, hu, ho⟩
  have mode (hn : ¬ denied) : (isPrivileged i && !w.sv) = false :=
    Bool.eq_false_iff.2 fun h => hn (by simpa using h)
  refine ⟨fun h => hb.trans (issue_held body hc hw h), fun hn hr => trap hn (commonTrap_role hr), ?_, ?_, ?_, ?_, ?_⟩
  · intro hn hr hp
    exact trap hn (by rw [commonTrap_eq hr, hp]; rfl)
  · intro hn hr hp ho
    obtain ⟨u, hu, hout, hmin, hlow⟩ := lowestOut_some ho
    exact ⟨u, hu, hout, hmin, trap hn (by rw [commonTrap_eq hr, hp, hlow]; rfl)⟩
  · intro hn hr hp ho hd
    have hpriv : (isPrivileged i && !w.sv) = true := by simpa using hd
    exact trap hn (by rw [commonTrap_eq hr, hp, inside ho, hpriv]; rfl)
  · intro hn hr hp ho hd e hs
    exact trap hn (by rw [commonTrap_eq hr, hp, inside ho, mode hd, hs]; rfl)
  · intro hn hr hp ho hd hs r lane hecc
    exact trap hn (by rw [commonTrap_eq hr, hp, inside ho, mode hd, hs, hecc]; rfl)

end Sys2Proof.Rules
end

section
/-! SUPPORT. The accesses of the memory instructions and the atomics: the machine's lists of them are those of Rules/Memory.lean,
and what the common body of these instructions comes to (R251 to R258). -/

namespace Sys2Proof.Rules

open Sys2Proof.Machine

/-! ## Addresses and accesses (R98, R252, R256) -/

/-- The signed value of a sign-extended word, as 64 bits. -/
theorem signExtend_eq_ofInt {n : Nat} (x : BitVec n) : x.signExtend 64 = BitVec.ofInt 64 x.toInt := rfl

theorem ea_eq_addressOf (w : Weft) (a b : Reg) (imm : BitVec 16) (i : Nat) : w.ea a b imm i = addressOf w a b imm i := by
  unfold Weft.ea addressOf sext16
  rw [BitVec.ofInt_add, BitVec.ofInt_add, signExtend_eq_ofInt, BitVec.ofInt_natCast, BitVec.ofNat_toNat,
    BitVec.setWidth_eq]
  split
  · rfl
  · rfl

theorem eaNoIndex_eq_addressOf (w : Weft) (a : Reg) (imm : BitVec 16) (i : Nat) :
    w.eaNoIndex a imm i = addressOf w a 255 imm i := by
  rw [← ea_eq_addressOf]
  simp [Weft.ea, Weft.eaNoIndex]

theorem packedAcc_eq_packedAt (w : Weft) (f : Fmt) (a b : Reg) (imm : BitVec 16) (i : Nat) :
    packedAcc w f a b imm i = packedAt w f a b imm i := by
  have hva : w.pair a i + sext16 imm + BitVec.ofNat 64 (firstBit w f b i / 8)
      = BitVec.ofInt 64 ((w.pair a i).toNat + imm.toInt + (firstBit w f b i / 8 : Nat)) := by
    rw [BitVec.ofInt_add, BitVec.ofInt_add, BitVec.ofInt_natCast, BitVec.ofInt_natCast, BitVec.ofNat_toNat,
      BitVec.setWidth_eq]
    rfl
  exact congrArg (fun va => ({ lane := i, va := va, len := (firstBit w f b i % 8 + f.perLane * f.width + 7) / 8 } : Acc)) hva

theorem accsAt_eq (act : Word) (n al : Nat) (ea : Nat → DWord) :
    accsAt act n al ea = (activeLanes act).map fun j => { lane := j, va := ea j, len := n, align := al } := rfl

end Sys2Proof.Rules

namespace Sys2Proof.Machine

/-! ## The first least of a list

R254's checks and those of R274 go over bytes, lanes or pages and keep the first that has the least order. -/

section
variable {α β : Type} (f : α → Nat) (g : α → β)

/-- One step of such a search: an element of a lower order takes the place of the best so far. -/
def leastStep (best : Nat × β) (x : α) : Nat × β := if f x < best.1 then (f x, g x) else best

/-- Elements of no lower order leave the best as it is. -/
theorem foldl_leastStep_keep (l : List α) (b : Nat × β) (h : ∀ x ∈ l, b.1 ≤ f x) : l.foldl (leastStep f g) b = b := by
  induction l with
  | nil => rfl
  | cons x t ih =>
    have hx : leastStep f g b x = b := if_neg (Nat.not_lt.2 (h x List.mem_cons_self))
    rw [List.foldl_cons, hx, ih fun y hy => h y (List.mem_cons_of_mem x hy)]

/-- The order that the search ends with. -/
theorem foldl_leastStep_fst (l : List α) (b : Nat × β) :
    (l.foldl (leastStep f g) b).1 = l.foldl (fun m x => min m (f x)) b.1 := by
  induction l generalizing b with
  | nil => rfl
  | cons x t ih =>
    have hx : (leastStep f g b x).1 = min b.1 (f x) := by unfold leastStep; split <;> simp <;> omega
    rw [List.foldl_cons, List.foldl_cons, ih, hx]

theorem lt_foldl_min (l : List α) (b n : Nat) (hb : n < b) (h : ∀ x ∈ l, n < f x) :
    n < l.foldl (fun m x => min m (f x)) b := by
  induction l generalizing b with
  | nil => exact hb
  | cons x t ih =>
    exact ih _ (Nat.lt_min.2 ⟨hb, h x List.mem_cons_self⟩) fun y hy => h y (List.mem_cons_of_mem x hy)

/-- The first element of the least order is the one found. -/
theorem foldl_leastStep_at (pre post : List α) (x : α) (b : Nat × β) (hb : f x < b.1) (hpre : ∀ y ∈ pre, f x < f y)
    (hpost : ∀ y ∈ post, f x ≤ f y) : (pre ++ x :: post).foldl (leastStep f g) b = (f x, g x) := by
  have before : f x < (pre.foldl (leastStep f g) b).1 := by
    rw [foldl_leastStep_fst]
    exact lt_foldl_min f pre b.1 (f x) hb hpre
  have here : leastStep f g (pre.foldl (leastStep f g) b) x = (f x, g x) := if_pos before
  rw [List.foldl_append, List.foldl_cons, here]
  exact foldl_leastStep_keep f g post _ hpost

/-- Either no element has an order below a bound, or there is a first of the least order. -/
theorem exists_first_least (l : List α) (n : Nat) :
    (∀ x ∈ l, n ≤ f x) ∨ ∃ pre x post, l = pre ++ x :: post ∧ f x < n ∧ (∀ y ∈ pre, f x < f y) ∧ ∀ y ∈ post, f x ≤ f y := by
  induction l with
  | nil => exact .inl (by simp)
  | cons a t ih =>
    rcases ih with hall | ⟨pre, x, post, rfl, hx, hpre, hpost⟩
    · by_cases ha : f a < n
      · exact .inr ⟨[], a, t, rfl, ha, by simp, fun y hy => Nat.le_trans (Nat.le_of_lt ha) (hall y hy)⟩
      · exact .inl (by simpa [Nat.not_lt.1 ha] using hall)
    · by_cases ha : f x < f a
      · exact .inr ⟨a :: pre, x, post, rfl, hx, by simpa [ha] using hpre, hpost⟩
      · refine .inr ⟨[], a, pre ++ x :: post, rfl, by omega, by simp, fun y hy => ?_⟩
        rcases List.mem_append.1 hy with hy | hy
        · exact Nat.le_trans (Nat.not_lt.1 ha) (Nat.le_of_lt (hpre y hy))
        · rcases List.mem_cons.1 hy with rfl | hy
          · exact Nat.not_lt.1 ha
          · exact Nat.le_trans (Nat.not_lt.1 ha) (hpost y hy)

end

/-! ## The cases of an access (R254) -/

/-- The search of `State.accCase` over an access's bytes. -/
theorem State.accCase_eq (s : State) (v : View) (store : Bool) (a : Acc) :
    s.accCase v store a = a.bytes.foldl (leastStep (fun b => (s.spot v b).caseOf store) id)
      (if a.va.toNat % a.align ≠ 0 then (25, a.va.toNat) else (90, a.va.toNat)) := rfl

/-- The search of `State.worst` over the lanes' accesses. -/
theorem State.worst_eq (s : State) (v : View) (store : Bool) (as : List Acc) :
    s.worst v store as
      = as.foldl (leastStep (fun a => (s.accCase v store a).1) fun a => (a.lane, (s.accCase v store a).2)) (90, 0, 0) := rfl

theorem State.accCase_fst (s : State) (v : View) (store : Bool) (a : Acc) :
    (s.accCase v store a).1 = Rules.accessOrder s v store a := by
  rw [State.accCase_eq, foldl_leastStep_fst]
  unfold Rules.accessOrder
  by_cases h : a.va.toNat % a.align = 0
  · rw [if_neg (not_not_intro h), if_pos h]
  · rw [if_pos h, if_neg h]

/-- The orders of R254 that an address meets without a leaf. -/
theorem State.spot_bad {s : State} {v : View} {va n : Nat} (h : s.spot v va = .bad n) : n = 10 ∨ n = 20 ∨ n = 30 := by
  unfold State.spot at h
  grind

/-- No byte meets order 2½, which is that of an unaligned access. -/
theorem State.caseOf_spot_ne (s : State) (v : View) (va : Nat) (store : Bool) : (s.spot v va).caseOf store ≠ 25 := by
  cases h : s.spot v va with
  | bad n =>
    have hn := State.spot_bad h
    simp only [Spot.caseOf]
    omega
  | lm => simp [Spot.caseOf]
  | frame => simp only [Spot.caseOf]; split <;> simp
  | page => simp only [Spot.caseOf]; grind

/-- The address at which an access meets its case: its first byte where it is unaligned, else a byte of that order. -/
theorem State.accCase_address {s : State} {v : View} {store : Bool} {a : Acc} (h : Rules.accessOrder s v store a < 90) :
    (Rules.accessOrder s v store a = 25 → (s.accCase v store a).2 = a.va.toNat)
      ∧ (Rules.accessOrder s v store a ≠ 25 → (s.accCase v store a).2 ∈ a.bytes
          ∧ (s.spot v (s.accCase v store a).2).caseOf store = Rules.accessOrder s v store a) := by
  rw [← State.accCase_fst] at h ⊢
  rw [State.accCase_eq] at h ⊢
  generalize hb : (if a.va.toNat % a.align ≠ 0 then ((25, a.va.toNat) : Nat × Nat) else (90, a.va.toNat)) = b at h ⊢
  have start : b.2 = a.va.toNat ∧ (b.1 = 25 ∨ b.1 = 90) := by rw [← hb]; split <;> simp
  rcases exists_first_least (fun va => (s.spot v va).caseOf store) a.bytes b.1 with hall | ⟨pre, x, post, hl, hx, hpre, hpost⟩
  · rw [foldl_leastStep_keep _ _ _ _ hall] at h ⊢
    exact ⟨fun _ => start.1, fun hn => by omega⟩
  · rw [hl, foldl_leastStep_at _ _ pre post x b hx hpre hpost]
    exact ⟨fun he => absurd he (State.caseOf_spot_ne s v x store), fun _ => ⟨by simp, rfl⟩⟩

/-- The first lane of the least order, where it is below that of a page that is not resident, is the instruction's fault. -/
theorem State.checkAccs_fault {s : State} {v : View} {store resid : Bool} {a : Acc} {pre post : List Acc}
    (ha : Rules.accessOrder s v store a < 70)
    (hpre : ∀ b ∈ pre, Rules.accessOrder s v store a < Rules.accessOrder s v store b)
    (hpost : ∀ b ∈ post, Rules.accessOrder s v store a ≤ Rules.accessOrder s v store b) :
    s.checkAccs v store resid (pre ++ a :: post)
      = .fault { cause := causeOfCase (Rules.accessOrder s v store a), lane := some a.lane, index := a.lane,
                 detail := BitVec.ofNat 64 (s.accCase v store a).2 } := by
  simp only [← State.accCase_fst] at ha hpre hpost ⊢
  unfold State.checkAccs
  rw [State.worst_eq, foldl_leastStep_at _ _ pre post a _ (by simp only []; omega) hpre hpost]
  simp [ha]

/-- With no lane of a lower order and one whose page is not resident, the instruction parks. -/
theorem State.checkAccs_park {s : State} {v : View} {store : Bool} {as : List Acc}
    (hex : ∃ a ∈ as, Rules.accessOrder s v store a = 70) (hall : ∀ a ∈ as, 70 ≤ Rules.accessOrder s v store a) :
    s.checkAccs v store false as = .park := by
  simp only [← State.accCase_fst] at hex hall
  obtain ⟨a, ha, h70⟩ := hex
  rcases exists_first_least (fun a => (s.accCase v store a).1) as 90 with hno | ⟨pre, x, post, rfl, hx, hpre, hpost⟩
  · exact absurd (hno a ha) (by omega)
  · have hx70 : (s.accCase v store x).1 = 70 := by
      refine Nat.le_antisymm ?_ (hall x (by simp))
      rcases List.mem_append.1 ha with h | h
      · have := hpre a h; omega
      · rcases List.mem_cons.1 h with rfl | h
        · omega
        · have := hpost a h; omega
    unfold State.checkAccs
    rw [State.worst_eq, foldl_leastStep_at _ _ pre post x _ hx hpre hpost]
    simp [hx70]

/-- Lanes that meet no case, or under resid only a page that is not resident, pass. -/
theorem State.checkAccs_pass {s : State} {v : View} {store resid : Bool} {as : List Acc}
    (h : ∀ a ∈ as, Rules.accessOrder s v store a = 90 ∨ resid = true ∧ Rules.accessOrder s v store a = 70) :
    s.checkAccs v store resid as = .pass := by
  simp only [← State.accCase_fst] at h
  rcases exists_first_least (fun a => (s.accCase v store a).1) as 90 with hno | ⟨pre, x, post, rfl, hx, hpre, hpost⟩
  · unfold State.checkAccs
    rw [State.worst_eq, foldl_leastStep_keep _ _ as _ hno]
    rfl
  · have hx70 : resid = true ∧ (s.accCase v store x).1 = 70 := by
      rcases h x (by simp) with h | h
      · omega
      · exact h
    unfold State.checkAccs
    rw [State.worst_eq, foldl_leastStep_at _ _ pre post x _ hx hpre hpost]
    simp [hx70]

end Sys2Proof.Machine

namespace Sys2Proof.Rules

open Sys2Proof.Machine

/-- The first lane that meets an uncorrectable error gives the instruction's fault. -/
theorem errorOf_some {s : State} {v : View} {x : Accesses} {a : Acc} {pre post : List Acc} (hl : x.list = pre ++ a :: post)
    (ha : MeetsError s v x a) (hpre : ∀ b ∈ pre, ¬ MeetsError s v x b) :
    s.errorOf v x.load x.store x.list = some { cause := 0x0E, lane := some a.lane, index := a.lane, detail := a.va } := by
  simp only [meetsError_iff] at ha hpre
  unfold State.errorOf
  rw [Option.map_eq_some_iff]
  exact ⟨a, List.find?_eq_some_iff_append.2
    ⟨ha, pre, post, hl, fun b hb => Bool.not_eq_true' _ ▸ Bool.eq_false_iff.2 (hpre b hb)⟩, rfl⟩

/-! ## The common body of the memory instructions (R254, R255) -/

section
variable {s : State} {c : Issue} {w : Weft} {i : Instr} {x : Accesses} {eff : View → Iss → State → Effect}

/-- The common body of the memory instructions, with an instruction's accesses. -/
def accessRun (x : Accesses) (eff : View → Iss → State → Effect) (y : Iss) (s : State) : Effect :=
  accessBody x.load x.store x.resid (fun _ => x.list) eff y s

theorem accessRun_heldByRange (h : s.rangeHolds (viewAt s c w) x.load x.store x.list = true) :
    accessRun x eff (c.iss w i) s = .holdRange := if_pos h

/-- An instruction that nothing holds goes on to the checks of R254. -/
theorem accessRun_fault (h : NotHeld s (viewAt s c w) x) {e : Cause}
    (hc : s.checkAccs (viewAt s c w) x.store x.resid x.list = .fault e) : accessRun x eff (c.iss w i) s = .trap e := by
  have hv : s.view (c.iss w i) = viewAt s c w := rfl
  simp [accessRun, accessBody, hv, h.1, h.2, hc]

theorem accessRun_park (h : NotHeld s (viewAt s c w) x)
    (hc : s.checkAccs (viewAt s c w) x.store x.resid x.list = .park) : accessRun x eff (c.iss w i) s = .park := by
  have hv : s.view (c.iss w i) = viewAt s c w := rfl
  simp [accessRun, accessBody, hv, h.1, h.2, hc]

theorem accessRun_error (h : NotHeld s (viewAt s c w) x)
    (hc : s.checkAccs (viewAt s c w) x.store x.resid x.list = .pass) {e : Cause}
    (he : s.errorOf (viewAt s c w) x.load x.store x.list = some e) : accessRun x eff (c.iss w i) s = .trap e := by
  have hv : s.view (c.iss w i) = viewAt s c w := rfl
  simp [accessRun, accessBody, hv, h.1, h.2, hc, he]

theorem accessRun_takesEffect (h : TakesEffect s (viewAt s c w) x) :
    accessRun x eff (c.iss w i) s = eff (viewAt s c w) (c.iss w i) (noted s (viewAt s c w) x) := by
  obtain ⟨hh, ho, he⟩ := h
  have hv : s.view (c.iss w i) = viewAt s c w := rfl
  simp [accessRun, accessBody, hv, hh.1, hh.2, State.checkAccs_pass ho, (s.errorOf_none _ x).2 he, noted]

end

/-! ## No active lane (R255) -/

/-- An instruction with no active lane makes no access. -/
theorem list_nil_of_idle {w : Weft} {i : Instr} {x : Accesses} (hx : accessRule w 0 i = some x) : x.list = [] := by
  have none : activeLanes 0 = [] := by decide
  unfold accessRule at hx
  simp only [none, List.map_nil] at hx
  split at hx
  case h_17 =>
    split at hx
    · cases hx; rfl
    · cases hx
  all_goals
    cases hx
    try rfl

theorem noted_nil {s : State} {v : View} {x : Accesses} (h : x.list = []) : noted s v x = s := by
  simp [noted, h, State.noteSo, State.reachesSo, State.note, State.noteSoft, State.softSpots]

/-- An instruction with no active lane takes effect. -/
theorem takesEffect_nil {s : State} {v : View} {x : Accesses} (h : x.list = []) : TakesEffect s v x := by
  simp [TakesEffect, NotHeld, h, State.rangeHolds, State.bankHolds]

theorem updateLanes_nil (l : Nat) (new : Nat → Nat → Option Nat) (s : State) : (updateLanes l [] new s).1 = s := by
  simp [updateLanes, State.wholeUnits, State.modMem]

/-- What an instruction with no active lane leaves beside its weft: an atomic sets its team's side-effect bit all the same
(R427). -/
def idleState (s : State) (c : Issue) (w : Weft) (x : Accesses) : State :=
  if x.load && x.store then s.sideEffect c.loom w else s

/-- With no active lane, an instruction's effect is that of `idleState` alone. -/
def IdleAlone (s : State) (c : Issue) (w : Weft) (i : Instr) (x : Accesses) (eff : View → Iss → State → Effect) : Prop :=
  c.act w i = 0 → ∀ v, ∃ t, eff v (c.iss w i) s = .done t 0 [] ∧ OnlyLanes (idleState s c w x) t c.loom c.slot w w

theorem onlyLanes_refl {s : State} {l k : Nat} {w : Weft} (h : s.weft? l k = some w) : OnlyLanes s s l k w w :=
  ⟨h, rfl, LoomOnly.refl s l, rfl, fun _ _ => rfl⟩

theorem onlyLanes_modWeft_id {s : State} {l k : Nat} {w : Weft} {f : Weft → Weft} (h : s.weft? l k = some w)
    (hf : f w = w) : OnlyLanes s (s.modWeft l k f) l k w w := by
  rw [State.modWeft_eq f h, hf]
  exact OnlyLanes.setWeft s l k rfl

@[simp] theorem weft?_sideEffect (s : State) (l k : Nat) (w : Weft) : (s.sideEffect l w).weft? l k = s.weft? l k := by
  unfold State.sideEffect
  cases w.team <;> simp

/-! ## Each memory instruction runs the common body -/

/-- A memory instruction runs the common body with its accesses, and `eff` is its effect. -/
structure RunsAccesses (s : State) (c : Issue) (w : Weft) (i : Instr) (x : Accesses) (body : Iss → State → Effect)
    (eff : View → Iss → State → Effect) : Prop where
  exec : exec i s = issue i body s
  body : body (c.iss w i) s = accessRun x eff (c.iss w i) s
  idle : IdleAlone s c w i x eff

theorem accessRun_of {c : Issue} {w : Weft} {i : Instr} {s : State} {load store resid : Bool} {accs : Iss → List Acc}
    {eff : View → Iss → State → Effect} {as : List Acc} (h : accs (c.iss w i) = as) :
    accessBody load store resid accs eff (c.iss w i) s = accessRun ⟨load, store, resid, as⟩ eff (c.iss w i) s := by
  subst h
  rfl

/-- The accesses of the plain forms. -/
theorem laneAccs_eq (c : Issue) (w : Weft) (i : Instr) (n al : Nat) (a b : Reg) (imm : BitVec 16) :
    laneAccs (c.iss w i) n al (w.ea a b imm)
      = (activeLanes (c.act w i)).map fun j => { lane := j, va := addressOf w a b imm j, len := n, align := al } :=
  List.map_congr_left fun j _ => by rw [ea_eq_addressOf]

/-- The accesses of the forms without an index register. -/
theorem laneAccs_noIndex_eq (c : Issue) (w : Weft) (i : Instr) (n al : Nat) (a : Reg) (imm : BitVec 16) :
    laneAccs (c.iss w i) n al (w.eaNoIndex a imm)
      = (activeLanes (c.act w i)).map fun j => { lane := j, va := addressOf w a 255 imm j, len := n, align := al } :=
  List.map_congr_left fun j _ => by rw [eaNoIndex_eq_addressOf]

/-- The accesses of the packed forms. -/
theorem packedAccs_eq (w : Weft) (act : Word) (f : Fmt) (a b : Reg) (imm : BitVec 16) :
    (lanesOf act).map (packedAcc w f a b imm) = (activeLanes act).map (packedAt w f a b imm) :=
  List.map_congr_left fun j _ => packedAcc_eq_packedAt w f a b imm j

/-- The atomics of R257: one body for all operations. -/
theorem atomBody_runs {s : State} {c : Issue} {w : Weft} {i : Instr} {op : AtomOp} {q : Bool} {o : Order} {d : Reg}
    {ea : Weft → Nat → DWord} {cmp : Weft → Nat → Nat} {as : List Acc} (hw : s.weft? c.loom c.slot = some w)
    (he : exec i s = issue i (atomBody op q o d ea cmp) s)
    (has : laneAccs (c.iss w i) (if q then 8 else 4) (if q then 8 else 4) (ea w) = as) :
    ∃ eff, RunsAccesses s c w i ⟨true, true, false, as⟩ (atomBody op q o d ea cmp) eff := by
  refine ⟨_, he, by delta atomBody; exact accessRun_of has, fun h0 v => ⟨s.sideEffect c.loom w, if_pos h0,
    onlyLanes_refl (by simp [idleState, hw])⟩⟩

theorem lanesOf_idle {c : Issue} {w : Weft} {i : Instr} (h : c.act w i = 0) : lanesOf (c.iss w i).act = [] := by
  change lanesOf (c.act w i) = []
  rw [h]
  decide

/-- The effect of a load with no active lane. -/
theorem load_idle {s : State} {c : Issue} {w : Weft} {i : Instr} {v : View} (hw : s.weft? c.loom c.slot = some w) {acq : Bool}
    {as : List Acc} (has : as = []) {f : Weft → Weft} (hf : f w = w) :
    ∃ t, Effect.ok ((s.acquire v acq as).modWeft (c.iss w i).l (c.iss w i).k f) = .done t 0 []
      ∧ OnlyLanes s t c.loom c.slot w w := by
  have hq : s.acquire v acq as = s := by simp [has, State.acquire, State.beyondLoom]
  rw [hq]
  exact ⟨_, rfl, onlyLanes_modWeft_id hw hf⟩

/-- The effect of a store with no active lane. -/
theorem store_idle {s : State} {c : Issue} {w : Weft} {i : Instr} {v : View} (hw : s.weft? c.loom c.slot = some w)
    {as : List Acc} (has : as = []) (new : Nat → Nat → Option Nat) :
    ∃ t, Effect.ok (updateLanes v.loom (s.laneSpots v as) new (s.storeMark v (c.iss w i) as)).1 = .done t 0 []
      ∧ OnlyLanes s t c.loom c.slot w w := by
  have hm : s.storeMark v (c.iss w i) as = s := by simp [has, State.storeMark, State.sideEffectStore]
  have hs : s.laneSpots v as = [] := by simp [has, State.laneSpots]
  rw [hm, hs, updateLanes_nil]
  exact ⟨s, rfl, onlyLanes_refl hw⟩

/-- EVERY MEMORY INSTRUCTION runs the common body with the accesses of `accessRule`. -/
theorem memory_runs {s : State} {c : Issue} {w : Weft} {i : Instr} {x : Accesses} (hw : s.weft? c.loom c.slot = some w)
    (hx : accessRule w (c.act w i) i = some x) : ∃ body eff, RunsAccesses s c w i x body eff := by
  cases i
  case ld h d a b imm wd acq =>
    cases hx
    exact ⟨_, _, rfl, accessRun_of (laneAccs_eq ..), fun h0 v => load_idle hw (by simp [laneAccs, accsAt, lanesOf_idle h0])
      (by simp [lanesOf_idle h0])⟩
  case st h d a b imm wd rel =>
    cases hx
    exact ⟨_, _, rfl, accessRun_of (laneAccs_eq ..), fun h0 v => store_idle hw (by simp [laneAccs, accsAt, lanesOf_idle h0]) _⟩
  case ldw h n d a b imm =>
    cases hx
    exact ⟨_, _, rfl, accessRun_of (packedAccs_eq ..), fun h0 v => ⟨_, rfl, onlyLanes_modWeft_id hw (by simp [lanesOf_idle h0])⟩⟩
  case stw h n d a b imm =>
    cases hx
    exact ⟨_, _, rfl, accessRun_of (packedAccs_eq ..), fun h0 v => store_idle hw (by simp [lanesOf_idle h0]) _⟩
  case ldResid h d a m imm wd acq =>
    cases hx
    exact ⟨_, _, rfl, accessRun_of (laneAccs_noIndex_eq ..), fun h0 v =>
      load_idle hw (by simp [laneAccs, accsAt, lanesOf_idle h0]) (by simp [lanesOf_idle h0])⟩
  case ldwResid h n d a m imm =>
    cases hx
    exact ⟨_, _, rfl, accessRun_of (packedAccs_eq ..), fun h0 v => ⟨_, rfl, onlyLanes_modWeft_id hw (by simp [lanesOf_idle h0])⟩⟩
  case atomAdd h d a b imm q o | atomMin h d a b imm q o | atomMax h d a b imm q o | atomAnd h d a b imm q o
      | atomOr h d a b imm q o | atomXor h d a b imm q o | atomXchg h d a b imm q o | atomInc h d a b imm q o
      | atomDec h d a b imm q o =>
    cases hx
    exact ⟨_, atomBody_runs hw rfl (laneAccs_eq ..)⟩
  case atomCas h d a b imm q o =>
    cases hx
    exact ⟨_, atomBody_runs hw rfl (laneAccs_noIndex_eq ..)⟩
  case atomFadd h n d a b imm o =>
    by_cases hf : faddSlot (slotOf w n) = true
    · obtain rfl := Option.some.inj ((if_pos hf).symm.trans hx)
      have slot : ¬ (!faddSlot ((c.iss w (.atomFadd h n d a b imm o)).fmt n)) = true := by
        simpa [Iss.fmt, Issue.iss, slotOf] using hf
      refine ⟨_, _, (rfl : execAtomFadd h n d a b imm o s = _), (if_neg slot).trans (accessRun_of (laneAccs_eq ..)),
        fun h0 v => ⟨s.sideEffect c.loom w, ?_, onlyLanes_refl (by simp [idleState, hw])⟩⟩
      exact if_pos h0
    · exact absurd ((if_neg hf).symm.trans hx) (by simp)
  all_goals cases hx

/-! ## Stores to fields of supervisor mode (R6) -/

theorem fieldAt_nil (sp : Spot) : fieldAt [] sp = none := by
  cases sp <;> simp [fieldAt]

/-- Some of these spots holds a field that only supervisor mode writes. -/
theorem touchesSv_iff (s : State) (sps : List Spot) :
    s.touchesSv sps = true ↔ ∃ sp ∈ sps, ∃ q, fieldAt s.devBlocks sp = some q ∧ q.1 ≠ 0 := by
  have field (sp : Spot) : (match fieldAt s.devBlocks sp with | some (sv, _) => sv != 0 | none => false) = true
      ↔ ∃ q, fieldAt s.devBlocks sp = some q ∧ q.1 ≠ 0 := by
    cases fieldAt s.devBlocks sp <;> simp
  unfold State.touchesSv
  cases hb : s.devBlocks with
  | nil => simp [fieldAt_nil]
  | cons b bs =>
    rw [hb] at field
    simp only [List.isEmpty_cons, Bool.not_false, Bool.true_and, List.any_eq_true]
    exact exists_congr fun sp => and_congr_right fun _ => field sp

/-- The bytes that an instruction writes are those of its accesses, where it stores. -/
theorem storeAccs_eq {w : Weft} {act : Word} {i : Instr} {x : Accesses} (hx : accessRule w act i = some x) :
    storeAccs w i act = if x.store then x.list.map fun a => { a with align := 1 } else [] := by
  have plain (n al : Nat) (a b : Reg) (imm : BitVec 16) : accsAt act n 1 (w.ea a b imm)
      = ((activeLanes act).map fun j => ({ lane := j, va := addressOf w a b imm j, len := n, align := al } : Acc)).map
          fun a => { a with align := 1 } := by
    rw [accsAt_eq, List.map_map]
    exact List.map_congr_left fun j _ => by rw [ea_eq_addressOf]; rfl
  cases i
  case st h d a b imm wd rel =>
    cases hx
    exact plain ..
  case stw h n d a b imm =>
    cases hx
    refine (packedAccs_eq ..).trans ?_
    change _ = List.map _ (List.map _ _)
    rw [List.map_map]
    rfl
  case atomAdd h d a b imm q o | atomMin h d a b imm q o | atomMax h d a b imm q o | atomAnd h d a b imm q o
      | atomOr h d a b imm q o | atomXor h d a b imm q o | atomXchg h d a b imm q o | atomInc h d a b imm q o
      | atomDec h d a b imm q o =>
    cases hx
    exact plain ..
  case atomCas h d a b imm q o =>
    cases hx
    have noIndex : w.eaNoIndex a imm = w.ea a 255 imm :=
      funext fun j => by rw [eaNoIndex_eq_addressOf, ea_eq_addressOf]
    exact (congrArg (accsAt act _ 1) noIndex).trans (plain ..)
  case atomFadd h n d a b imm o =>
    by_cases hf : faddSlot (slotOf w n) = true
    · obtain rfl := Option.some.inj ((if_pos hf).symm.trans hx)
      exact plain ..
    · exact absurd ((if_neg hf).symm.trans hx) (by simp)
  all_goals
    cases hx
    try rfl

theorem svDenied_eq_svFault {s : State} {l : Nat} {w : Weft} {act : Word} {i : Instr} {x : Accesses}
    (hx : accessRule w act i = some x) : s.svDenied l w i act = s.svFault (s.viewOf l w) (storeAccs w i act) := by
  unfold State.svDenied
  split
  · cases hx
  · rfl

/-- In user mode the first access that reaches a field of supervisor mode is denied. -/
theorem svFault_user {s : State} {v : View} (hv : v.sv = false) (as : List Acc) :
    s.svFault v as = (as.find? fun a => s.touchesSv (s.spots v a)).map fun a =>
      { cause := 0x04, lane := some a.lane, index := a.lane } := by
  unfold State.svFault
  split
  · next h =>
    obtain ⟨hq, hc⟩ : s.qbase = 0 ∧ s.contexts = [] := by simpa [hv] using h
    have hb : s.devBlocks = [] := by simp [State.devBlocks, hq, hc]
    simp [State.touchesSv, hb]
  · rfl

/-- In supervisor mode no store is denied. -/
theorem svFault_super {s : State} {v : View} (hv : v.sv = true) (as : List Acc) : s.svFault v as = none :=
  if_pos (.inl hv)

/-- A store's denial: the lane of its first access that reaches a field of supervisor mode (R6). -/
theorem svDenied_store {s : State} {c : Issue} {w : Weft} {i : Instr} {x : Accesses}
    (hx : accessRule w (c.act w i) i = some x) (hs : x.store = true) (hv : w.sv = false) :
    s.svDenied c.loom w i (c.act w i) = (x.list.find? fun a => s.touchesSv (s.spots (viewAt s c w) a)).map fun a =>
      { cause := 0x04, lane := some a.lane, index := a.lane } := by
  rw [svDenied_eq_svFault hx, svFault_user hv, storeAccs_eq hx, if_pos hs, List.find?_map, Option.map_map]
  rfl

/-! ## The outcomes -/

section
variable {s : State} {i : Instr} {c : Issue} {w : Weft} {x : Accesses}

theorem access_idle (h : Issuing s i c w) (hx : accessRule w (c.act w i) i = some x) (h0 : c.act w i = 0) :
    CompletesAs s i c (idleState s c w x) w 0 0 255 fun _ => 0 := by
  obtain ⟨body, eff, r⟩ := memory_runs h.weft hx
  obtain ⟨t, ht, o⟩ := r.idle h0 (viewAt s c w)
  have hl : x.list = [] := list_nil_of_idle (h0 ▸ hx)
  have hb : body (c.iss w i) s = .done t 0 [] := by
    rw [r.body, accessRun_takesEffect (takesEffect_nil hl), noted_nil hl, ht]
  refine completesAs h r.exec hb rfl ?_ o fun r j hj => (if_neg fun hd => hd.2.1 rfl).symm
  unfold idleState
  split <;> simp [h.weft]

end

/-- Settles O26: the common body of the memory instructions, check by check. -/
theorem accessStops : Obligations.AccessStops := by
  unfold Obligations.AccessStops
  refine ⟨fun s i c w x h hx h0 => access_idle h hx h0, ?_, ?_, ?_, ?_, ?_⟩
  · intro s i c w x hx sv
    have touches (a : Acc) : s.touchesSv (s.spots (viewAt s c w) a) = true ↔ sv a := touchesSv_iff s _
    refine ⟨?_, ?_⟩
    · intro hno
      cases hs : x.store with
      | false =>
        rw [svDenied_eq_svFault hx, storeAccs_eq hx, hs]
        cases hv : w.sv with
        | true => exact svFault_super hv _
        | false => exact svFault_user hv _
      | true =>
        cases hv : w.sv with
        | true => rw [svDenied_eq_svFault hx]; exact svFault_super hv _
        | false =>
          have hall : ∀ a ∈ x.list, ¬ sv a := by simpa [hs, hv] using hno
          rw [svDenied_store hx hs hv, Option.map_eq_none_iff, List.find?_eq_none]
          exact fun a ha ht => hall a ha ((touches a).1 ht)
    · intro a pre post hs hv hl ha hpre
      rw [svDenied_store hx hs hv, Option.map_eq_some_iff]
      exact ⟨a, List.find?_eq_some_iff_append.2 ⟨(touches a).2 ha, pre, post, hl, fun b hb => by
        simpa using fun ht => hpre b hb ((touches b).1 ht)⟩, rfl⟩
  · intro s i c w x a pre post h hx hh hpass hl ha hpre
    obtain ⟨body, eff, r⟩ := memory_runs h.weft hx
    exact traps h r.exec (r.body.trans (accessRun_error hh (State.checkAccs_pass hpass) (errorOf_some hl ha hpre)))
  · intro s i c w x a pre post h hx hh hl order ha hpre hpost
    obtain ⟨body, eff, r⟩ := memory_runs h.weft hx
    obtain ⟨unaligned, byte⟩ :=
      State.accCase_address (s := s) (v := viewAt s c w) (store := x.store) (a := a) (Nat.lt_trans ha (by decide))
    refine ⟨_, unaligned, byte, traps h r.exec (r.body.trans (accessRun_fault hh ?_))⟩
    rw [hl]
    exact State.checkAccs_fault ha hpre hpost
  · intro s i c w x h hx hh hr hex hall
    obtain ⟨body, eff, r⟩ := memory_runs h.weft hx
    have hp : s.checkAccs (viewAt s c w) x.store x.resid x.list = .park := by
      rw [hr]
      exact State.checkAccs_park hex hall
    rw [r.exec, issue_eq h, r.body, accessRun_park hh hp]
    exact congrArg Host.Outcome.next (State.modWeft_eq _ h.weft)
  · intro s i c w x h hx hr
    obtain ⟨body, eff, r⟩ := memory_runs h.weft hx
    rw [r.exec, issue_eq h, r.body, accessRun_heldByRange hr]
    rfl

end Sys2Proof.Rules
end

section
/-! SUPPORT. How an engine's operation issues: the checks that all share, and its entry into its engine (R57, R263, R329, R393). -/

namespace Sys2Proof.Rules

open Sys2Proof.Machine

section
variable {s s0 : State} {i : Instr} {c : Issue} {w : Weft} {o : Op}

/-- The operation that the machine forms is the one of the rules. -/
theorem newOp_eq_baseOp (s : State) (c : Issue) (w : Weft) (i : Instr) : newOp s (c.iss w i) i = baseOp s c w i := rfl

/-- The operation of an instruction that sends no flit has no header (R335). -/
theorem withHeader_eq (h : Issuing s i c w) (hi : o.instr = i) (ho : o.header = none) : o.withHeader (c.iss w i) = o := by
  have hs : sendsMessage w i (c.act w i) = false := h.sends _
  have hn : (headerReg (c.iss w i).w o.instr (c.iss w i).act).head? = none := by
    change (headerReg w o.instr (c.act w i)).head? = none
    simp [headerReg, hi, hs]
  unfold Op.withHeader
  rw [hn, Option.map_none, ← ho]

theorem opens_queueRecs (w : Weft) (o : Op) : (w.opens o).queueRecs o = opened w o := by
  unfold Weft.queueRecs Weft.opens opened
  split <;> rfl

/-- The weft of an operation that has entered its engine. -/
theorem weft?_entered (s0 : State) (c : Issue) (w : Weft) (o : Op) (spans : List Span) (mark : Bool) :
    (entered s0 c w o spans mark).weft? c.loom c.slot = some (opened w o) := by
  unfold entered
  split
  · rw [weft?_sideEffect]
    exact State.weft?_setWeft ..
  · exact State.weft?_setWeft ..

/-- What `acceptOp` comes to, where the range scoreboard has room. -/
theorem acceptOp_entered {spans : List Span} {mark : Bool} (h : Issuing s i c w) (hw : s0.weft? c.loom c.slot = some w)
    (hi : o.instr = i) (ho : o.header = none)
    (hroom : (s0.loom c.loom).ranges.length + (footprintOf s0 o spans).length ≤ 128) :
    acceptOp (c.iss w i) o spans mark s0 = .done (entered s0 c w o spans mark) 0 [] := by
  have hs : sendsMessage (c.iss w i).w o.instr (c.iss w i).act = false := by rw [hi]; exact h.sends _
  have hf (y : Loom) : (y.setQueue o.cls (y.queue o.cls ++ [o])).wefts = y.wefts := by
    cases o.cls <;> rfl
  unfold acceptOp
  simp only [withHeader_eq h hi ho, hs, Bool.or_false]
  refine (if_neg (Nat.not_lt.2 hroom)).trans ?_
  rw [State.modWeft_eq (w := w) _ ?weft, opens_queueRecs]
  case weft => exact (State.weft?_modLoom _ _ _ _ (by exact hf _)).trans hw
  unfold entered Effect.ok
  simp only [Bool.or_eq_true]
  rfl

/-- An operation whose body ends in `acceptOp` is accepted, or waits for room in the range scoreboard (R198). -/
theorem accepted {spans : List Span} {mark : Bool} {body : Iss → State → Effect} (h : Issuing s i c w)
    (he : exec i s = issue i body s) (hb : body (c.iss w i) s = acceptOp (c.iss w i) o spans mark s0)
    (hw : s0.weft? c.loom c.slot = some w) (hi : o.instr = i) (ho : o.header = none) : Accepted s i c w s0 o spans mark := by
  unfold Accepted
  split
  · next hroom =>
    have hw' := weft?_entered s0 c w o spans mark
    exact completesAs h he (hb.trans (acceptOp_entered h hw hi ho hroom)) rfl hw' (onlyLanes_refl hw')
      fun r j hj => (if_neg fun hd => hd.2.1 rfl).symm
  · next hroom => exact holds h he (hb.trans (if_pos (Nat.not_le.1 hroom)))

/-- What every engine operation does first: nothing with no active lane, and it waits while its queue is full. -/
theorem enters {cls : OcClass} {rest : Prop} {run : Iss → State → Effect} (h : Issuing s i c w)
    (he : exec i s = issue i (macroBody run) s) (hfull : s.queueFull c.loom cls = true → run (c.iss w i) s = .hold)
    (hrest : macroBody run (c.iss w i) s = run (c.iss w i) s → s.queueFull c.loom cls = false → rest) : Enters s i c w cls rest := by
  have active (hn : c.act w i ≠ 0) : macroBody run (c.iss w i) s = run (c.iss w i) s := if_neg hn
  refine ⟨fun h0 => writesNothing h he (if_pos h0), fun hn hq => ?_, fun hn hq => ?_⟩
  · exact holds h he ((active hn).trans (hfull (decide_eq_true hq)))
  · exact hrest (active hn) (decide_eq_false (Nat.not_le.2 hq))

end

end Sys2Proof.Rules
end

section
/-! SUPPORT. How bankop and sb.move issue (R273, R274, R378). -/

namespace Sys2Proof.Rules

open Sys2Proof.Machine

section
variable {s : State} {c : Issue} {w : Weft} {i : Instr}

theorem padDefs_eq_eightDefs (d0 d1 : DWord) : padDefs [d0, d1] = eightDefs [d0, d1] := rfl

/-- A body that parks its weft (R254, order 7). -/
theorem parks {body : Iss → State → Effect} (h : Issuing s i c w) (he : exec i s = issue i body s)
    (hb : body (c.iss w i) s = .park) : exec i s = .next (s.setWeft c.loom c.slot { w with wait := .parked c.pc }) := by
  rw [he, issue_eq h, hb]
  exact congrArg Host.Outcome.next (State.modWeft_eq (l := c.loom) (k := c.slot) _ h.weft)

variable {h : Guard} {op : BankOp} {n : BitVec 4} {a b cc d : Reg}

/-- The operation that bankop captures. -/
def bankOperation (s : State) (c : Issue) (w : Weft) (h : Guard) (op : BankOp) (n : BitVec 4) (a b cc : Reg) : Op :=
  let l := laneL c w (.bankop h op n a b cc)
  { baseOp s c w (.bankop h op n a b cc) with
    opa := w.pair a l, opb := (w.lane b l).setWidth 64,
    opc := if op = .cvt ∨ op = .zero ∨ op = .transp then 0 else (w.lane cc l).setWidth 64,
    defs := eightDefs [w.fmt n, if op = .cvt then w.fmt (cc.extractLsb' 0 4) else 0] }

/-- What bankop does behind the checks of its queue. -/
def bankopRest (s : State) (x : Iss) (o : Op) : Effect :=
  match o.bankPlan.check x.lane with
  | some cause => .trap cause
  | none =>
    let (cs, va) := s.bankCases (s.opView o) o.bankPlan
    if cs = 55 then faultL x 0x15
    else if cs < 70 then faultL x (causeOfCase cs) (BitVec.ofNat 64 va)
    else if cs = 70 then .park
    else acceptOp x (s.bankCommand o) [] true s

/-- What sb.move does behind the checks of its queue. -/
def sbMoveRest (s : State) (x : Iss) (o : Op) (hd : Word) (tl : Nat) : Effect :=
  match s.movable x.l x.w.ctx hd with
  | none => faultL x 0x1A
  | some (i, _, r) =>
    if tl ≥ Config.looms ∨ tl = x.l then faultL x 0x1A
    else acceptOp x { o with
      opb := hd.setWidth 64, opc := BitVec.ofNat 64 tl,
      total := match r with | some (_, q) => if q.state = .pinned then 64 * q.t + 2 else 2 | none => 2,
      parts := [x.l, i, tl, 0, 0, 0] } [] true s

theorem bankop_enters (hi : Issuing s (.bankop h op n a b cc) c w) {rest : Prop}
    (hr : ∀ body, exec (.bankop h op n a b cc) s = issue (.bankop h op n a b cc) body s →
      body (c.iss w (.bankop h op n a b cc)) s
        = bankopRest s (c.iss w (.bankop h op n a b cc)) (bankOperation s c w h op n a b cc) → rest) :
    Enters s (.bankop h op n a b cc) c w .bank rest :=
  enters hi rfl (fun hq => if_pos hq) fun hb hq => hr _ rfl (hb.trans (if_neg (Bool.eq_false_iff.1 hq)))

theorem sbMove_enters (hi : Issuing s (.sbMove h d b cc) c w) {rest : Prop}
    (hr : ∀ body, exec (.sbMove h d b cc) s = issue (.sbMove h d b cc) body s →
      body (c.iss w (.sbMove h d b cc)) s
        = sbMoveRest s (c.iss w (.sbMove h d b cc)) (baseOp s c w (.sbMove h d b cc)) (w.lane b (laneL c w (.sbMove h d b cc)))
            (w.lane cc (laneL c w (.sbMove h d b cc))).toNat → rest) :
    Enters s (.sbMove h d b cc) c w .copy rest :=
  enters hi rfl (fun hq => if_pos hq) fun hb hq => hr _ rfl (hb.trans (if_neg (Bool.eq_false_iff.1 hq)))

/-- What bankop does, its queue having room. -/
theorem bankop_issues (hi : Issuing s (.bankop h op n a b cc) c w) :
    let i : Instr := .bankop h op n a b cc
    let o := bankOperation s c w h op n a b cc
    let k := (s.bankCases (s.opView o) o.bankPlan).1
    Enters s i c w .bank
      ((∀ e, o.bankPlan.check (laneL c w i) = some e → Traps s i c w e)
      ∧ (o.bankPlan.check (laneL c w i) = none →
        (k = 55 → Traps s i c w (faultAtL c w i 0x15))
        ∧ (k ≠ 55 → k < 70 →
          Traps s i c w (faultAtL c w i (causeOfCase k) (BitVec.ofNat 64 (s.bankCases (s.opView o) o.bankPlan).2)))
        ∧ (k = 70 → exec i s = .next (s.setWeft c.loom c.slot { w with wait := .parked c.pc }))
        ∧ (70 < k → Accepted s i c w s (s.bankCommand o) [] true))) := by
  intro i o k
  refine bankop_enters hi fun body he hb => ⟨fun e hc => traps hi he ?_, fun hc => ⟨fun h1 => traps hi he ?_,
    fun h1 h2 => traps hi he ?_, fun h1 => parks hi he ?_, fun h1 => ?_⟩⟩
  · rw [hb]
    unfold bankopRest
    rw [show (bankOperation s c w h op n a b cc).bankPlan.check (c.iss w (.bankop h op n a b cc)).lane = some e from hc]
  all_goals
    have hk : bankopRest s (c.iss w i) o = (if k = 55 then faultL (c.iss w i) 0x15
        else if k < 70 then faultL (c.iss w i) (causeOfCase k) (BitVec.ofNat 64 (s.bankCases (s.opView o) o.bankPlan).2)
        else if k = 70 then .park else acceptOp (c.iss w i) (s.bankCommand o) [] true s) := by
      unfold bankopRest
      rw [show o.bankPlan.check (c.iss w i).lane = none from hc]
    replace hb := hb.trans hk
  · exact hb.trans (if_pos h1)
  · exact hb.trans ((if_neg h1).trans (if_pos h2))
  · exact hb.trans ((if_neg (by omega)).trans ((if_neg (by omega)).trans (if_pos h1)))
  · exact accepted hi he (hb.trans ((if_neg (by omega)).trans ((if_neg (by omega)).trans (if_neg (by omega))))) hi.weft rfl rfl

/-- What sb.move does, its queue having room. -/
theorem sbMove_issues (hi : Issuing s (.sbMove h d b cc) c w) :
    let i : Instr := .sbMove h d b cc
    let hd := w.lane b (laneL c w i)
    let tl := (w.lane cc (laneL c w i)).toNat
    Enters s i c w .copy
      ((s.movable c.loom w.ctx hd = none → Traps s i c w (faultAtL c w i 0x1A))
      ∧ ∀ k e r, s.movable c.loom w.ctx hd = some (k, e, r) →
        (192 ≤ tl ∨ tl = c.loom → Traps s i c w (faultAtL c w i 0x1A))
        ∧ (tl < 192 → tl ≠ c.loom → Accepted s i c w s { baseOp s c w i with
            opb := hd.setWidth 64, opc := BitVec.ofNat 64 tl,
            total := match r with | some (_, q) => if q.state = .pinned then 64 * q.t + 2 else 2 | none => 2,
            parts := [c.loom, k, tl, 0, 0, 0] } [] true)) := by
  intro i hd tl
  refine sbMove_enters hi fun body he hb => ⟨fun hm => traps hi he ?_, fun k e r hm => ⟨fun ht => traps hi he ?_,
    fun ht hn => accepted hi he ?_ hi.weft rfl rfl⟩⟩
  all_goals
    rw [hb]
    unfold sbMoveRest
    rw [show s.movable (c.iss w i).l (c.iss w i).w.ctx _ = _ from hm]
  · rfl
  · exact if_pos ht
  · exact if_neg fun hx => hx.elim (Nat.not_le.2 ht) hn

end

end Sys2Proof.Rules
end

section
/-! SUPPORT. Addresses of one 512 KiB page: they translate alike (R359, R361), and the first of each page of an area stands for
the others (R274). -/

namespace Sys2Proof.Machine

/-! ## One page, one leaf -/

/-- The page size of a level is a multiple of 512 KiB. -/
theorem levelShift_ge {l : Nat} (h : l ≤ 3) : ∃ k, levelShift l = 19 + k := ⟨levelShift l - 19, by unfold levelShift; omega⟩

/-- Two addresses of one 512 KiB page lie in one page of every level. -/
theorem div_levelShift_congr {a b l : Nat} (hp : a / 2 ^ 19 = b / 2 ^ 19) (hl : l ≤ 3) :
    a / 2 ^ levelShift l = b / 2 ^ levelShift l := by
  obtain ⟨k, hk⟩ := levelShift_ge hl
  rw [hk, pow_add, ← Nat.div_div_eq_div_mul, ← Nat.div_div_eq_div_mul, hp]

theorem walk_congr (hbm : Mem) {a b : Nat} (hp : a / 2 ^ 19 = b / 2 ^ 19) (ls : List Nat) (table : Nat) (hl : ∀ l ∈ ls, l ≤ 3) :
    walk hbm a ls table = walk hbm b ls table := by
  induction ls generalizing table with
  | nil => rfl
  | cons l ls ih =>
    simp only [walk, div_levelShift_congr hp (hl l List.mem_cons_self),
      fun t => ih t fun x hx => hl x (List.mem_cons_of_mem _ hx)]

theorem tlbFind_congr (t : List Tlb) (ctx : Nat) {a b l : Nat} (hp : a / 2 ^ 19 = b / 2 ^ 19) (hl : l ≤ 3) :
    tlbFind t ctx a l = tlbFind t ctx b l := by
  unfold tlbFind
  rw [div_levelShift_congr hp hl]

theorem State.translation_congr (s : State) (ag : TlbAgent) (ctx : Nat) {a b : Nat} (hp : a / 2 ^ 19 = b / 2 ^ 19) :
    s.translation ag ctx a = s.translation ag ctx b := by
  unfold State.translation
  simp only [tlbFind_congr _ _ hp (show 1 ≤ 3 by decide), tlbFind_congr _ _ hp (show 2 ≤ 3 by decide),
    tlbFind_congr _ _ hp (le_refl 3), walk_congr s.mem.hbm hp [3] _ (by decide), walk_congr s.mem.hbm hp [2, 3] _ (by decide),
    walk_congr s.mem.hbm hp [1, 2, 3] _ (by decide)]

theorem State.translate_congr (s : State) (ag : TlbAgent) (ctx : Nat) {a b : Nat} (hp : a / 2 ^ 19 = b / 2 ^ 19) :
    s.translate ag ctx a = s.translate ag ctx b := by
  unfold State.translate
  rw [State.translation_congr s ag ctx hp]

/-- A walk reads entries of its levels. -/
theorem walk_level {hbm : Mem} {va : Nat} {ls : List Nat} {table : Nat} {q : Nat × DWord} (h : q ∈ walk hbm va ls table) :
    q.1 ∈ ls := by
  induction ls generalizing table with
  | nil => exact absurd h List.not_mem_nil
  | cons l ls ih =>
    simp only [walk] at h
    split at h
    · exact List.mem_cons.2 (.inl (congrArg Prod.fst (List.mem_singleton.1 h)))
    · rcases List.mem_cons.1 h with rfl | h
      · exact List.mem_cons_self
      · exact List.mem_cons_of_mem _ (ih h)

theorem State.translation_level {s : State} {ag : TlbAgent} {ctx va : Nat} {q : Nat × DWord}
    (h : q ∈ s.translation ag ctx va) : q.1 ≤ 3 := by
  have walks {ls : List Nat} {t : Nat} (hl : ∀ l ∈ ls, l ≤ 3) (hq : q ∈ walk s.mem.hbm va ls t) : q.1 ≤ 3 := hl _ (walk_level hq)
  have held {l t : Nat} {p : DWord} {ls : List Nat} (hl : ∀ k ∈ l :: ls, k ≤ 3)
      (hq : q ∈ if pteLeaf p then [(l, p)] else (l, p) :: walk s.mem.hbm va ls t) : q.1 ≤ 3 := by
    split at hq
    · rw [List.mem_singleton.1 hq]
      exact hl l List.mem_cons_self
    · rcases List.mem_cons.1 hq with rfl | hq
      · exact hl l List.mem_cons_self
      · exact walks (fun k hk => hl k (List.mem_cons_of_mem _ hk)) hq
  unfold State.translation at h
  split at h
  · exact absurd h List.not_mem_nil
  · dsimp only at h
    split at h
    · rw [List.mem_singleton.1 h]
    · exact held (by decide) h
    · exact held (by decide) h
    · exact walks (by decide) h

theorem State.translate_level {s : State} {ag : TlbAgent} {ctx va : Nat} {x : Leaf} (h : s.translate ag ctx va = some x) :
    x.level ≤ 3 := by
  unfold State.translate at h
  split at h
  · cases h
  · next l p hl =>
    simp only [Option.ite_none_right_eq_some] at h
    obtain ⟨-, h⟩ := h
    cases h
    exact State.translation_level (q := (l, p)) (List.mem_of_getLast? hl)

/-! ## Spots of one page -/

/-- The leaf of an address for a view: that which the view holds, else the translation. -/
def State.leafAt (s : State) (v : View) (va : Nat) : Option Leaf := (v.leaf va).orElse fun _ => s.translate v.agent v.ctx va

theorem State.leafAt_congr (s : State) (v : View) {a b : Nat} (hp : a / 2 ^ 19 = b / 2 ^ 19) : s.leafAt v a = s.leafAt v b := by
  unfold State.leafAt View.leaf
  rw [State.translate_congr s _ _ hp, hp]

/-- A spot is a page's byte where the address lies below the window and has a leaf. -/
theorem State.spot_page_iff (s : State) (v : View) (va : Nat) (x : Leaf) (pa : Nat) :
    s.spot v va = .page x pa ↔ va / 2 ^ 52 = 0 ∧ s.leafAt v va = some x ∧ x.phys va = pa := by
  unfold State.spot State.leafAt
  constructor
  · intro h
    split at h
    · cases hf : v.frame <;> cases hs : v.share <;> simp only [hf, hs] at h <;> split_ifs at h
    · split at h
      · cases h
      · next hz =>
        split at h
        · cases h
        · next y hy =>
          rw [hy]
          cases h
          exact ⟨not_not.1 hz, rfl, rfl⟩
  · rintro ⟨h0, hx, rfl⟩
    rw [if_neg (by omega), if_neg (by omega), hx]

/-- Where one byte of a 512 KiB page leads to a page's byte, so does every other, under the same leaf. -/
theorem State.spot_samePage {s : State} {v : View} {a b : Nat} {x : Leaf} {pa : Nat} (h : s.spot v a = .page x pa)
    (hp : a / 2 ^ 19 = b / 2 ^ 19) : s.spot v b = .page x (x.phys b) := by
  rw [State.spot_page_iff] at h ⊢
  obtain ⟨h0, hx, -⟩ := h
  exact ⟨by omega, (State.leafAt_congr s v hp).symm.trans hx, rfl⟩

/-- The offset within a page of a leaf is kept under its translation. -/
theorem Leaf.phys_add {x : Leaf} (hl : x.level ≤ 3) {a j : Nat} (hp : (a + j) / 2 ^ 19 = a / 2 ^ 19) :
    x.phys (a + j) = x.phys a + j := by
  have hd := div_levelShift_congr hp hl
  have h1 := Nat.div_add_mod (a + j) (2 ^ levelShift x.level)
  have h2 := Nat.div_add_mod a (2 ^ levelShift x.level)
  unfold Leaf.phys
  rw [hd] at h1
  omega

/-! ## The first addresses of an area's pages -/

/-- Every byte of an area lies in the page of one of the area's first addresses, at or behind it. -/
theorem exists_pageStart {base n k : Nat} (hk : k < n) :
    ∃ a ∈ pageStarts base n, a ≤ base + k ∧ a / 2 ^ 19 = (base + k) / 2 ^ 19 := by
  unfold pageStarts
  rw [if_neg (by omega)]
  by_cases hp : (base + k) / 2 ^ 19 = base / 2 ^ 19
  · exact ⟨base, List.mem_cons_self, by omega, hp.symm⟩
  · refine ⟨(base + k) / 2 ^ 19 * 2 ^ 19, List.mem_cons_of_mem _ (List.mem_filter.2 ⟨List.mem_map.2
      ⟨(base + k) / 2 ^ 19 - base / 2 ^ 19 - 1, List.mem_range.2 ?_, ?_⟩, decide_eq_true ?_⟩), ?_, ?_⟩
    all_goals omega

/-! ## The fields of supervisor mode in an area (R6) -/

/-- A byte with field bits lies in a block of device records. -/
theorem fieldAt_some {bs : List DevBlock} {sp : Spot} {q : Byte × Byte} (h : fieldAt bs sp = some q) :
    ∃ x pa b, sp = .page x pa ∧ b ∈ bs ∧ (b.sp == x.space) = true ∧ b.base ≤ pa ∧ pa < b.base + b.size := by
  unfold fieldAt at h
  split at h
  · next x pa =>
    split at h
    · cases h
    · obtain ⟨b, hb, -⟩ := Option.map_eq_some_iff.1 h
      have hp := List.find?_some hb
      simp only [Bool.and_eq_true, decide_eq_true_eq] at hp
      obtain ⟨⟨hspace, hlo⟩, hhi⟩ := hp
      exact ⟨x, pa, b, rfl, List.mem_of_find?_eq_some hb, hspace, hlo, hhi⟩
  · cases h

/-- A byte of an area in whose field only supervisor mode writes is found, where no leaf is held from an issue. -/
theorem State.rangeSv_of_field {s : State} {v : View} (hv : v.leaves = []) {base n k : Nat} (hk : k < n) {q : Byte × Byte}
    (hq : fieldAt s.devBlocks (s.spot v ((base + k) % 2 ^ 64)) = some q) (hn : q.1 ≠ 0) : s.rangeSv v base n = true := by
  have hb : s.devBlocks.isEmpty = false := by
    rw [Bool.eq_false_iff]
    intro hb
    rw [List.isEmpty_iff.1 hb, Rules.fieldAt_nil] at hq
    cases hq
  obtain ⟨x, pa, b, hsp, hmem, hspace, hlo, hhi⟩ := fieldAt_some hq
  obtain ⟨a, ha, hle, hpage⟩ := exists_pageStart (base := base) hk
  have hmod : (base + k) % 2 ^ 64 = a % 2 ^ 64 + (base + k - a) := by omega
  have hlevel : x.level ≤ 3 := by
    obtain ⟨-, hx, -⟩ := (State.spot_page_iff ..).1 hsp
    unfold State.leafAt View.leaf at hx
    rw [hv] at hx
    exact State.translate_level hx
  have hpa : pa = x.phys (a % 2 ^ 64) + (base + k - a) := by
    obtain ⟨-, -, h⟩ := (State.spot_page_iff ..).1 hsp
    rw [← h, hmod, Leaf.phys_add hlevel (by omega)]
  unfold State.rangeSv
  simp only [hb, Bool.not_false, Bool.true_and, List.any_eq_true]
  refine ⟨a, ha, ?_⟩
  rw [hsp] at hq
  rw [State.spot_samePage hsp (b := a % 2 ^ 64) (by omega)]
  simp only [List.any_eq_true, Bool.and_eq_true, decide_eq_true_eq, List.mem_range]
  refine ⟨b, hmem, hspace, pa - b.base, by omega, ⟨by omega, by omega⟩, ?_⟩
  rw [Nat.add_sub_cancel' hlo, hq]
  exact bne_iff_ne.2 hn

end Sys2Proof.Machine

namespace Sys2Proof.Rules

open Sys2Proof.Machine

/-- bankop is denied to a user-mode weft where its range holds a field of supervisor mode, and to no other (R6). -/
theorem bankop_svDenied (s : State) (c : Issue) (w : Weft) (h : Guard) (op : BankOp) (n : BitVec 4) (a b cc : Reg) :
    let i : Instr := .bankop h op n a b cc
    let l := laneL c w i
    let bytes := ((w.lane b l).toNat * (if op = .transp then 2048 else (slotOf w n).width) + 7) / 8
    let sv (k : Nat) : Prop :=
      ∃ q, fieldAt s.devBlocks (s.spot (viewAt s c w) (((w.pair a l).toNat + k) % 2 ^ 64)) = some q ∧ q.1 ≠ 0
    (c.act w i = 0 ∨ w.sv = true → s.svDenied c.loom w i (c.act w i) = none)
    ∧ (c.act w i ≠ 0 → w.sv = false → ∀ k < bytes, sv k →
        s.svDenied c.loom w i (c.act w i) = some { cause := 0x04, lane := some l, index := l }) := by
  intro i l bytes sv
  have hd : s.svDenied c.loom w i (c.act w i)
      = if c.act w i = 0 || w.sv || !s.rangeSv (viewAt s c w) (w.pair a l).toNat bytes then none
        else some { cause := 0x04, lane := some l, index := l } := rfl
  refine ⟨fun hx => ?_, fun hn hsv k hk ⟨q, hq, h1⟩ => ?_⟩
  · rw [hd, if_pos]
    rcases hx with hx | hx <;> simp only [hx, decide_true, Bool.or_true, Bool.true_or]
  · rw [hd, if_neg]
    rw [decide_eq_false hn, hsv, State.rangeSv_of_field (v := viewAt s c w) rfl hk hq h1]
    decide

end Sys2Proof.Rules
end

section
/-! SUPPORT. What device steps leave of every loom: a part of each loom that a step keeps (R205, R210, R361, R396, R405). -/

namespace Sys2Proof.Machine

/-! ## A part of every loom -/

/-- A part of every loom is as before. -/
structure KeepsLooms {β : Type} (f : Loom → β) (s t : State) : Prop where
  loom : ∀ l, f (t.loom l) = f (s.loom l)

section
variable {β : Type} {f : Loom → β} {s t u : State}

theorem KeepsLooms.refl (s : State) : KeepsLooms f s s := ⟨fun _ => rfl⟩

theorem KeepsLooms.trans (a : KeepsLooms f s t) (b : KeepsLooms f t u) : KeepsLooms f s u :=
  ⟨fun l => (b.loom l).trans (a.loom l)⟩

theorem KeepsLooms.of_looms (h : t.looms = s.looms) : KeepsLooms f s t := by
  constructor
  intro l
  unfold State.loom
  rw [h]

theorem KeepsLooms.modLoom (s : State) (l : Nat) {g : Loom → Loom} (hg : ∀ x, f (g x) = f x) : KeepsLooms f s (s.modLoom l g) := by
  constructor
  intro j
  by_cases hj : j = l
  · rw [hj, State.loom_modLoom, hg]
  · rw [State.loom_modLoom_ne _ _ hj]

theorem KeepsLooms.proj {γ : Type} {f' : Loom → γ} (h : KeepsLooms f s t) (g : β → γ) (hg : ∀ x, g (f x) = f' x) :
    KeepsLooms f' s t := ⟨fun l => by rw [← hg, ← hg, h.loom l]⟩

theorem KeepsLooms.ite {c : Prop} [Decidable c] (a : KeepsLooms f s t) (b : KeepsLooms f s u) :
    KeepsLooms f s (if c then t else u) := by
  split
  · exact a
  · exact b

theorem KeepsLooms.foldl {α : Type} {step : State → α → State} (hs : ∀ s a, KeepsLooms f s (step s a)) (as : List α) (s : State) :
    KeepsLooms f s (as.foldl step s) := by
  induction as generalizing s with
  | nil => exact KeepsLooms.refl s
  | cons a as ih => exact (hs s a).trans (ih _)

theorem KeepsLooms.modWeft (hf : ∀ x ws, f { x with wefts := ws } = f x) (s : State) (l k : Nat) (g : Weft → Weft) :
    KeepsLooms f s (s.modWeft l k g) := by
  unfold State.modWeft
  split
  · exact KeepsLooms.refl s
  · exact KeepsLooms.modLoom s l fun x => hf x _

theorem KeepsLooms.countLoom (hf : ∀ x cs, f { x with counters := cs } = f x) (s : State) (l src ctx n : Nat) :
    KeepsLooms f s (s.countLoom l src ctx n) := KeepsLooms.ite (KeepsLooms.refl s) (KeepsLooms.modLoom s l fun x => hf x _)

end

/-! ## Accesses keep the wefts, the queues and the tables -/

/-- What the move of a board entry looks at in a loom. -/
def Loom.books (x : Loom) : List (Nat × Weft) × List (Nat × Board) × List (Nat × Own) × List Op :=
  (x.wefts, x.board, x.owners, x.copyQ)

theorem State.countLoom_books (s : State) (l src ctx n : Nat) : KeepsLooms Loom.books s (s.countLoom l src ctx n) :=
  KeepsLooms.countLoom (fun _ _ => rfl) ..

theorem State.setTlb_books (s : State) (ag : TlbAgent) (t : List Tlb) : KeepsLooms Loom.books s (s.setTlb ag t) := by
  cases ag with
  | core l => exact KeepsLooms.modLoom s l (g := fun x => { x with tlbCore := t }) fun _ => rfl
  | copy l => exact KeepsLooms.modLoom s l (g := fun x => { x with tlbCopy := t }) fun _ => rfl
  | gateway d => exact KeepsLooms.of_looms rfl

theorem State.missTlb_books (s : State) (v : View) (va : Nat) (x : Leaf) : KeepsLooms Loom.books s (s.missTlb v va x) := by
  have fill : KeepsLooms Loom.books s (s.fillTlb v.agent v.ctx va) := by
    exact KeepsLooms.ite (KeepsLooms.refl s) (State.setTlb_books ..)
  unfold State.missTlb
  split
  · exact KeepsLooms.refl s
  · dsimp only
    split
    · exact fill.trans (State.countLoom_books ..)
    · exact fill

theorem State.crossDies_looms (s : State) (i j n : Nat) : (s.crossDies i j n).looms = s.looms := by
  unfold State.crossDies
  split <;> rfl

theorem State.l2Leaves_looms (s : State) (x : L2Line) : (s.l2Leaves x).looms = s.looms := by
  unfold State.l2Leaves
  dsimp only
  (repeat' split) <;> simp only [State.modMem, State.crossDies_looms, State.countDie_looms]

theorem State.touchL2_looms (s : State) (host : Bool) (pa : Nat) (write : Bool) : (s.touchL2 host pa write).looms = s.looms := by
  unfold State.touchL2
  dsimp only
  split
  · rfl
  · cases s.mem.l2Victim (homeSlice pa) <;> dsimp only <;> split <;>
      simp only [State.modMem, State.crossDies_looms, State.countDie_looms, State.l2Leaves_looms]

theorem State.homeAccess_looms (s : State) (from_ : Nat) (host : Bool) (pa : Nat) (write : Bool) :
    (s.homeAccess from_ host pa write).looms = s.looms := by
  simp only [State.homeAccess, State.crossings, State.touchL2_looms, State.crossDies_looms]

theorem State.bankAccess_looms (s : State) (from_ pa : Nat) (write : Bool) : (s.bankAccess from_ pa write).looms = s.looms := by
  simp only [State.bankAccess, State.crossings, State.countDie_looms, State.crossDies_looms]

theorem State.noteFrom_books (s : State) (from_ : Nat) (v : View) (a : Acc) (write : Bool) :
    KeepsLooms Loom.books s (s.noteFrom from_ v a write) := by
  refine KeepsLooms.foldl (fun s va => ?_) _ s
  dsimp only
  split
  · next x pa _ =>
    refine (State.missTlb_books s v va x).trans ?_
    split
    · exact KeepsLooms.refl _
    · split
      · exact KeepsLooms.of_looms (State.bankAccess_looms ..)
      · exact KeepsLooms.of_looms (State.homeAccess_looms ..)
  · exact KeepsLooms.refl s

theorem State.countSofts_books (s : State) (l ctx n : Nat) : KeepsLooms Loom.books s (s.countSofts l ctx n) :=
  KeepsLooms.foldl (fun s _ => (KeepsLooms.modLoom s l fun _ => rfl : KeepsLooms Loom.books s (s.loomError l 4)).trans
    (State.countLoom_books ..)) _ s

theorem State.writeSpot_books (s : State) (l : Nat) (b : Byte) (sp : Spot) : KeepsLooms Loom.books s (s.writeSpot l b sp) := by
  have lm (a : Nat) (b : Byte) : KeepsLooms Loom.books s (s.writeLm l a b) :=
    KeepsLooms.modLoom s l (g := fun x => { x with mem := Memory.write x.mem a b }) fun _ => rfl
  cases sp with
  | bad _ => exact KeepsLooms.refl s
  | lm a => exact lm a b
  | frame base i =>
    exact KeepsLooms.ite (KeepsLooms.ite (lm _ _) (KeepsLooms.refl s)) (lm _ _)
  | page x pa => exact KeepsLooms.of_looms rfl

theorem State.wholeUnits_looms (s : State) (l : Nat) (sps : List Spot) : (s.wholeUnits l sps).looms = s.looms := by
  unfold State.wholeUnits
  split <;> rfl

theorem State.storeSpots_books (s : State) (l : Nat) (bs : List (Spot × Byte)) (sv : Bool) :
    KeepsLooms Loom.books s (s.storeSpots l bs sv) :=
  (KeepsLooms.foldl (fun s (p : Spot × Byte) => State.writeSpot_books s l p.2 p.1) _ s).trans
    (KeepsLooms.of_looms (State.wholeUnits_looms ..))

/-- A spill writes memory and notes its accesses; wefts, tables and queues stay (R303). -/
theorem State.spillRange_books {s s1 : State} {l : Nat} {o : Own} (h : s.spillRange l o = .ok s1) : KeepsLooms Loom.books s s1 := by
  unfold State.spillRange at h
  dsimp only at h
  split at h
  · cases h
  · split at h
    · cases h
    · split at h
      · cases h
      · cases h
        exact (State.storeSpots_books s _ _ _).trans ((State.countSofts_books _ _ _ _).trans (State.noteFrom_books _ _ _ _ _))

end Sys2Proof.Machine
end

section
/-! SUPPORT. The commit of sb.move (R378): what its last unit leaves of the boards, the ownership tables and the operation. -/

namespace Sys2Proof.Rules

open Sys2Proof.Machine

/-! ## A unit that is done -/

@[simp] theorem opRecords_nil (s : State) (o : Op) : s.opRecords o [] = s := by
  unfold State.opRecords
  split <;> rfl

theorem raw_setLane {w : Weft} {d : Reg} (hd : d ≠ 255) (hp : ∀ p, w.port = some p → d ≠ p.r) (i : Nat) (v : Word) :
    (w.setLane d i v).raw d i = v := by
  unfold Weft.setLane Weft.raw
  rw [if_neg hd]
  cases h : w.port with
  | none => simp
  | some p => simp [hp p h]

theorem setProgress_keeps {β : Type} {f : Loom → β} (hf : ∀ x ws, f { x with wefts := ws } = f x) (s : State) (o : Op) (u : Nat) :
    KeepsLooms f s (s.setProgress o u) := by
  unfold State.setProgress
  cases progressReg o.instr with
  | none => exact KeepsLooms.refl s
  | some d => exact KeepsLooms.modWeft hf ..

theorem setProgress_progress {s : State} {o : Op} {u : Nat} {d : Reg} {w : Weft} (hr : progressReg o.instr = some d)
    (hd : d ≠ 255) (hw : s.weft? o.loom o.slot = some w) (hp : ∀ p, w.port = some p → d ≠ p.r) :
    (s.setProgress o u).progress o = u % 2 ^ 32 := by
  unfold State.setProgress State.progress
  rw [hr]
  dsimp only
  rw [State.weft?_modWeft, hw]
  simp only [Option.map_some, raw_setLane hd hp, BitVec.toNat_ofNat]

theorem weft?_congr {s t : State} (h : KeepsLooms Loom.wefts s t) (l k : Nat) : t.weft? l k = s.weft? l k := by
  unfold State.weft?
  rw [h.loom l]

theorem progress_congr {s t : State} (h : KeepsLooms Loom.wefts s t) (o : Op) : t.progress o = s.progress o := by
  unfold State.progress
  rw [weft?_congr h]

/-- A copy-engine unit without flags and records, of the effect `s`: its progress rises, tables and queues stay. -/
theorem applyUnit_copy {o : Op} (hc : o.cls = .copy) (s : State) (u : Nat) :
    let t := s.applyUnit o (u + 1) (.did s 0 [])
    Advanced s t o u ∧ KeepsLooms (fun x => (x.board, x.owners, x.copyQ)) s t := by
  intro t
  let s1 := s.setProgress o (u + 1)
  let s2 := s1.modOp o.loom .copy o.id fun q => { q with flags := q.flags ||| 0 }
  have ht : t = s2.countLoom o.loom 0x0C o.ctx 1 := by
    change State.applyUnit s o (u + 1) (.did s 0 []) = _
    simp only [State.applyUnit, Op.convRecs, List.map_nil, opRecords_nil, hc]
    rfl
  have same (x : Loom) : x.setQueue .copy ((x.queue .copy).map fun q =>
      if q.id = o.id then { q with flags := q.flags ||| 0 } else q) = x := by
    simp [Loom.setQueue, Loom.queue]
  constructor
  · intro d w hr hd hw hp
    have hs : KeepsLooms Loom.wefts s1 t := by
      rw [ht]
      exact (show KeepsLooms Loom.wefts s1 s2 from KeepsLooms.modLoom s1 _ fun _ => rfl).trans
        (KeepsLooms.countLoom (fun _ _ => rfl) ..)
    rw [progress_congr hs]
    exact setProgress_progress hr hd hw hp
  · rw [ht]
    exact (setProgress_keeps (fun _ _ => rfl) s o _).trans
      ((show KeepsLooms (fun x => (x.board, x.owners, x.copyQ)) s1 s2 from
        KeepsLooms.modLoom s1 _ fun x => by rw [same]).trans (KeepsLooms.countLoom (fun _ _ => rfl) ..))

/-! ## The commit (R378) -/

/-- The entries of a move at its commit: an ownership entry of the source, and one of the target. -/
abbrev MovedRange : Type := Nat × Own × Nat × Own

/-- The state of a moved board entry: spilled where its range has no tiles at the target. -/
def movedState : Option MovedRange → BoardState
  | none => .valid
  | some (_, _, _, r) => if r.tiles = [] then .spilled else .valid

/-- The target's entry for the source's. -/
def movedEntry (e : Board) (st : BoardState) : Board :=
  { e with rsv := false, gen := e.gen + 1, tgt := 0, was := .free, busy := false, state := st }

/-- The target's range for the source's `w`, in the tiles of the reservation `r`. -/
def movedOwn (w r : Own) : Own :=
  { w with state := if r.tiles = [] then .spilled else .pinned, tiles := r.tiles, was := .free, gen := w.gen + 1, team := 0 }

/-- The tables after a commit. -/
def movedTables (s : State) (sl se tl te : Nat) (rng : Option MovedRange) : State :=
  let s1 := (s.modLoom sl fun x => x.freeEntry se).modLoom tl fun x =>
    x.setEntry te (movedEntry ((s.loom sl).entry se) (movedState rng))
  match rng with
  | none => s1
  | some (so, w, to_, r) => (s1.freeOwn sl so).setOwn tl to_ (movedOwn w r)

theorem moveSet_eq (s : State) (o : Op) (u sl se tl te : Nat) (rng : Option MovedRange) :
    s.moveSet o u sl se tl te rng
      = let s3 := (movedTables s sl se tl te rng).modOp o.loom .copy o.id fun q =>
          { q with result := (boardHandle te (((s.loom sl).entry se).gen + 1)).setWidth 64, parts := [] }
        s3.applyUnit o (u + 1) (.did s3 0 []) := by
  rcases rng with _ | ⟨so, w, to_, r⟩
  · rfl
  · simp only [State.moveSet, movedTables, movedEntry, movedState, movedOwn, List.isEmpty_iff]

theorem movedTables_keeps (s : State) (sl se tl te : Nat) (rng : Option MovedRange) :
    KeepsLooms (fun x => (x.wefts, x.copyQ)) s (movedTables s sl se tl te rng) := by
  have entries : KeepsLooms (fun x => (x.wefts, x.copyQ)) s ((s.modLoom sl fun x => x.freeEntry se).modLoom tl fun x =>
      x.setEntry te (movedEntry ((s.loom sl).entry se) (movedState rng))) :=
    (KeepsLooms.modLoom s sl (g := fun x => x.freeEntry se) fun _ => rfl).trans
      (KeepsLooms.modLoom _ tl (g := fun x => x.setEntry te (movedEntry ((s.loom sl).entry se) (movedState rng))) fun _ => rfl)
  rcases rng with _ | ⟨so, w, to_, r⟩
  · exact entries
  · exact entries.trans ((KeepsLooms.modLoom _ sl (g := fun x => { x with owners := SMap.del x.owners so }) fun _ => rfl).trans
      (KeepsLooms.modLoom _ tl (g := fun x => { x with owners := SMap.put x.owners to_ (movedOwn w r) }) fun _ => rfl))

theorem entry_freeEntry (x : Loom) (i : Nat) : ((x.freeEntry i).entry i).state = .free := by
  simp [Loom.freeEntry, Loom.setEntry, Loom.entry, Board.freeWith]

theorem entry_setEntry (x : Loom) (i : Nat) (b : Board) : (x.setEntry i b).entry i = b := by
  simp [Loom.setEntry, Loom.entry]

/-- The board entries of a move after its commit. -/
theorem movedTables_entries (s : State) {sl tl : Nat} (hne : sl ≠ tl) (se te : Nat) (rng : Option MovedRange) :
    let t := movedTables s sl se tl te rng
    ((t.loom sl).entry se).state = .free ∧ (t.loom tl).entry te = movedEntry ((s.loom sl).entry se) (movedState rng) := by
  have board (x : Loom) (ow : List (Nat × Own)) (i : Nat) : ({ x with owners := ow } : Loom).entry i = x.entry i := rfl
  rcases rng with _ | ⟨so, w, to_, r⟩
  · simp [movedTables, hne, hne.symm, entry_freeEntry, entry_setEntry]
  · simp [movedTables, State.freeOwn, State.setOwn, hne, hne.symm, board, entry_freeEntry, entry_setEntry]

/-- The ownership entries of a move after its commit. -/
theorem movedTables_owners (s : State) {sl tl : Nat} (hne : sl ≠ tl) (se te so to_ : Nat) (w r : Own) :
    let t := movedTables s sl se tl te (some (so, w, to_, r))
    SMap.find? (t.loom sl).owners so = none ∧ SMap.find? (t.loom tl).owners to_ = some (movedOwn w r) := by
  simp [movedTables, State.freeOwn, State.setOwn, hne, hne.symm]

/-- The source freed, the target set, and the operation's last unit done, from a state that differs from `s` at most by a spill. -/
theorem moveSet_moves {s s1 : State} {o : Op} (hs : KeepsLooms Loom.books s s1) (hc : o.cls = .copy) {sl tl : Nat} (hne : sl ≠ tl)
    (u se te : Nat) (rng : Option MovedRange) :
    let e := (s.loom sl).entry se
    let t := s1.moveSet o u sl se tl te rng
    (Worked s t o u (fun q => { q with result := (boardHandle te (e.gen + 1)).setWidth 64, parts := [] })
      ∧ ((t.loom sl).entry se).state = .free ∧ (t.loom tl).entry te = movedEntry e (movedState rng))
    ∧ ∀ so w to_ r, rng = some (so, w, to_, r) →
      SMap.find? (t.loom sl).owners so = none ∧ SMap.find? (t.loom tl).owners to_ = some (movedOwn w r) := by
  intro e t
  have hboard : KeepsLooms Loom.board s s1 := hs.proj (·.2.1) fun _ => rfl
  have he : (s1.loom sl).entry se = e := congrArg (SMap.getD · se (Board.freeWith 0)) (hboard.loom sl)
  let s2 := movedTables s1 sl se tl te rng
  let g (q : Op) : Op := { q with result := (boardHandle te (e.gen + 1)).setWidth 64, parts := [] }
  let s3 := s2.modOp o.loom .copy o.id g
  obtain ⟨hadv, hkeep⟩ := applyUnit_copy hc s3 u
  have ht : t = s3.applyUnit o (u + 1) (.did s3 0 []) := by
    change s1.moveSet o u sl se tl te rng = _
    rw [moveSet_eq, he]
  rw [← ht] at hadv hkeep
  have h12 := movedTables_keeps s1 sl se tl te rng
  have h23 : KeepsLooms (fun x => (x.wefts, x.board, x.owners)) s2 s3 := KeepsLooms.modLoom s2 o.loom fun _ => rfl
  have wefts : KeepsLooms Loom.wefts s s3 :=
    (hs.proj (·.1) fun _ => rfl).trans ((h12.proj (·.1) fun _ => rfl).trans (h23.proj (·.1) fun _ => rfl))
  have queues : KeepsLooms Loom.copyQ s s2 := (hs.proj (·.2.2.2) fun _ => rfl).trans (h12.proj (·.2) fun _ => rfl)
  have queues' : KeepsLooms Loom.copyQ s3 t := hkeep.proj (·.2.2) fun _ => rfl
  have board : KeepsLooms Loom.board s2 t := (h23.proj (·.2.1) fun _ => rfl).trans (hkeep.proj (·.1) fun _ => rfl)
  have owners : KeepsLooms Loom.owners s2 t := (h23.proj (·.2.2) fun _ => rfl).trans (hkeep.proj (·.2.1) fun _ => rfl)
  have entry (l i : Nat) : (t.loom l).entry i = (s2.loom l).entry i := congrArg (SMap.getD · i (Board.freeWith 0)) (board.loom l)
  obtain ⟨hfree, hset⟩ := movedTables_entries s1 hne se te rng
  refine ⟨⟨⟨fun d w hr hd hw hp => hadv d w hr hd ((weft?_congr wefts ..).trans hw) hp, ?_⟩, ?_, ?_⟩, fun so w to_ r hrng => ?_⟩
  · have hq : (s3.loom o.loom).copyQ = ((s2.loom o.loom).copyQ).map fun q => if q.id = o.id then g q else q := by
      change ((s2.modLoom o.loom _).loom o.loom).copyQ = _
      rw [State.loom_modLoom]
      rfl
    rw [hc]
    exact (queues'.loom _).trans (hq.trans (congrArg (List.map _) (queues.loom _)))
  · rw [entry]
    exact hfree
  · rw [entry]
    exact hset.trans (by rw [he])
  · subst hrng
    rw [owners.loom, owners.loom]
    exact movedTables_owners s1 hne se te so to_ w r

section
variable {s : State} {o : Op} {sl se tl te so to_ : Nat}

theorem moveCommit_board (u : Nat) (hp : o.parts = [sl, se, tl, te + 1, 0, to_]) (hb : (s.loom sl).entryBusy se = false) :
    s.moveCommit o u = s.moveSet o u sl se tl te none := by
  unfold State.moveCommit
  rw [hp]
  simp only [hb, Nat.add_one_ne_zero, if_false, Bool.false_eq_true, Nat.add_sub_cancel, if_true]

/-- A range that has no row units is spilled first. -/
theorem moveCommit_range (u : Nat) (hp : o.parts = [sl, se, tl, te + 1, so + 1, to_ + 1]) (hb : (s.loom sl).entryBusy se = false)
    {w r : Own} (hw : SMap.find? (s.loom sl).owners so = some w) (hr : SMap.find? (s.loom tl).owners to_ = some r)
    (hspill : w.was = .pinned → o.total = 2 → ∃ s1, s.spillRange sl w = .ok s1) :
    ∃ s1, KeepsLooms Loom.books s s1 ∧ s.moveCommit o u = s1.moveSet o u sl se tl te (some (so, w, to_, r)) := by
  unfold State.moveCommit
  rw [hp]
  simp only [hb, Nat.add_one_ne_zero, if_false, Bool.false_eq_true, Nat.add_sub_cancel, hw, hr]
  by_cases hx : w.was = .pinned ∧ o.total = 2
  · obtain ⟨s1, h1⟩ := hspill hx.1 hx.2
    refine ⟨s1, State.spillRange_books h1, ?_⟩
    rw [if_pos hx, h1]
  · exact ⟨s, KeepsLooms.refl s, if_neg hx⟩

end

theorem moveCommits : MoveCommits := by
  intro s o u sl se tl te so to_ hi hparts hne hbusy e t moved
  have hc : o.cls = .copy := by
    obtain ⟨h, d, b, c, hi⟩ := hi
    simp only [Op.cls, hi]
    rfl
  constructor
  · rintro rfl
    have hm := (moveSet_moves (KeepsLooms.refl s) hc hne u se te none).1
    rw [← moveCommit_board u hparts hbusy] at hm
    exact hm
  · rintro a b w r rfl rfl hw hr hspill
    obtain ⟨s1, hs, ht⟩ := moveCommit_range u hparts hbusy hw hr hspill
    obtain ⟨hm, ho⟩ := moveSet_moves hs hc hne u se te (some (a, w, b, r))
    rw [← ht] at hm ho
    exact ⟨hm, ho a w b r rfl⟩

end Sys2Proof.Rules
end

section
/-! SUPPORT. Bytes and values: little-endian lists, the value at some spots, and what a store into market memory leaves
(R5, R6, R213). -/

namespace Sys2Proof.Machine

/-! ## Little-endian lists -/

/-- Digit k of the value of a list of bytes. -/
theorem digit_leValue (bs : List Byte) (k : Nat) : leValue bs / 256 ^ k % 256 = (bs.getD k 0).toNat := by
  induction bs generalizing k with
  | nil => simp [leValue]
  | cons b t ih =>
    have hb : b.toNat < 256 := b.isLt
    cases k with
    | zero =>
      simp only [leValue, pow_zero, Nat.div_one, List.getD_cons_zero]
      omega
    | succ k =>
      rw [List.getD_cons_succ, ← ih, pow_succ', ← Nat.div_div_eq_div_mul, leValue]
      congr 2
      omega

theorem leBytes_leValue (bs : List Byte) : leBytes bs.length (leValue bs) = bs := by
  induction bs with
  | nil => rfl
  | cons b t ih =>
    have hb : b.toNat < 256 := b.isLt
    simp only [List.length_cons, leBytes, leValue]
    rw [show (b.toNat + 256 * leValue t) % 256 = b.toNat by omega, show (b.toNat + 256 * leValue t) / 256 = leValue t by omega, ih,
      BitVec.ofNat_toNat, BitVec.setWidth_eq]

/-- The bytes of a value beside a list, one by one. -/
theorem zip_leBytes {α : Type} (xs : List α) (n k : Nat) :
    xs.zip (leBytes xs.length (n / 256 ^ k)) = (xs.zipIdx k).map fun x => (x.1, BitVec.ofNat 8 (n / 256 ^ x.2)) := by
  induction xs generalizing k with
  | nil => rfl
  | cons x xs ih =>
    simp only [List.length_cons, leBytes, List.zip_cons_cons, List.zipIdx_cons, List.map_cons, Nat.div_div_eq_div_mul, ← pow_succ, ih]
    refine congrArg (fun b => (x, b) :: _) (BitVec.eq_of_toNat_eq ?_)
    simp

theorem sum_zipIdx_leValue {α : Type} (f : α → Byte) (xs : List α) (k : Nat) :
    ((xs.zipIdx k).map fun x => (f x.1).toNat * 256 ^ x.2).sum = 256 ^ k * leValue (xs.map f) := by
  induction xs generalizing k with
  | nil => simp [leValue]
  | cons x xs ih =>
    simp only [List.zipIdx_cons, List.map_cons, List.sum_cons, ih, leValue]
    ring

end Sys2Proof.Machine

namespace Sys2Proof.Rules

open Sys2Proof.Machine

/-- The value at some spots is what the machine reads there. -/
theorem valueAt_eq_leValue (s : State) (l : Nat) (sps : List Spot) : valueAt l (byteAt s) sps = leValue (sps.map (s.readSpot l)) := by
  have read (sp : Spot) : ((placeOf l sp).elim 0 fun p => (byteAt s p).toNat) = (s.readSpot l sp).toNat := by
    cases sp <;> rfl
  unfold valueAt
  simp only [read]
  rw [sum_zipIdx_leValue, pow_zero, Nat.one_mul]

/-- A store of a value is one of its bytes, in order. -/
theorem afterStore_eq (bs : List DevBlock) (l : Nat) (m : Place → Byte) (sps : List Spot) (n : Nat) :
    afterStore bs l m sps n = (sps.zip (leBytes sps.length n)).foldl (fun m p => afterByte bs l m p.1 p.2) m := by
  have h := zip_leBytes sps n 0
  rw [pow_zero, Nat.div_one] at h
  rw [h, List.foldl_map]
  rfl

theorem replaceBits_eq_putIn (old bit w n : Nat) : replaceBits old bit w n = putIn old bit w n := by
  unfold replaceBits putIn
  ring

theorem leValue_map_range (f : Nat → Byte) (n : Nat) :
    leValue ((List.range n).map f) = ((List.range n).map fun i => (f i).toNat * 256 ^ i).sum := by
  have h : (List.range n).zipIdx = (List.range n).map fun i => (i, i) := List.ext_getElem (by simp) (by intros; simp)
  have hs := sum_zipIdx_leValue f (List.range n) 0
  rw [pow_zero, Nat.one_mul, h, List.map_map] at hs
  exact hs.symm

/-- The transposed value of a row is that of the transposed bytes (R273). -/
theorem leBytes_transposed (bs : List Byte) : leBytes 256 (transposed (leValue bs)) = transposeRow bs := by
  have hlen : (transposeRow bs).length = 256 := by simp [transposeRow]
  have hv : transposed (leValue bs) = leValue (transposeRow bs) := by
    simp only [transposed, transposeRow, leValue_map_range, digit_leValue, Nat.div_div_eq_div_mul]
  rw [hv, ← hlen, leBytes_leValue]

/-! ## Market memory -/

/-- A byte of a resident page of market memory. -/
def InMarket (sp : Spot) : Prop := ∃ x pa, sp = .page x pa ∧ x.space = .market ∧ pteResident x.pte = true

/-- Market memory and error marks may differ; all else is the same. -/
def MarketOnly (s t : State) : Prop := ∃ m k, t = { s with mem := { s.mem with market := m, marks := k } }

section
variable {s t u : State}

theorem MarketOnly.refl (s : State) : MarketOnly s s := ⟨s.mem.market, s.mem.marks, rfl⟩

theorem MarketOnly.trans (a : MarketOnly s t) (b : MarketOnly t u) : MarketOnly s u := by
  obtain ⟨m, k, rfl⟩ := a
  obtain ⟨m', k', rfl⟩ := b
  exact ⟨m', k', rfl⟩

theorem MarketOnly.spots (a : MarketOnly s t) (v : View) (x : Acc) : t.spots v x = s.spots v x := by
  obtain ⟨m, k, rfl⟩ := a
  rfl

theorem MarketOnly.devBlocks (a : MarketOnly s t) : t.devBlocks = s.devBlocks := by
  obtain ⟨m, k, rfl⟩ := a
  rfl

theorem MarketOnly.looms {β : Type} {f : Loom → β} (a : MarketOnly s t) : KeepsLooms f s t := by
  obtain ⟨m, k, rfl⟩ := a
  exact KeepsLooms.of_looms rfl

theorem MarketOnly.onlyBytes (a : MarketOnly s t) : OnlyBytes s t := by
  obtain ⟨m, k, rfl⟩ := a
  exact ⟨rfl, fun _ => rfl, rfl⟩

/-- The bits of a byte at a spot that software may write (R6, R7). -/
def writableBits (bs : List DevBlock) (sp : Spot) : Byte := (fieldAt bs sp).elim 0xFF fun q => q.1 ||| q.2

/-- The bits that may be written lie with the place, not with the leaf that led to it. -/
theorem writableBits_congr (bs : List DevBlock) {x y : Leaf} {pa : Nat} (hs : x.space = y.space) (hx : pteResident x.pte = true)
    (hy : pteResident y.pte = true) : writableBits bs (.page x pa) = writableBits bs (.page y pa) := by
  simp only [writableBits, fieldAt, hs, hx, hy]

/-- The bits of a byte outside a mask from one byte, those inside from another. -/
def blend (mask old v : Byte) : Byte := (old &&& ~~~mask) ||| (v &&& mask)

theorem blend_all (old v : Byte) : blend 0xFF old v = v := by
  unfold blend
  rw [show ~~~(0xFF : Byte) = 0#8 by decide, show (0xFF : Byte) = BitVec.allOnes 8 by decide, BitVec.and_zero, BitVec.and_allOnes,
    BitVec.zero_or]

/-- The bits outside the mask are kept. -/
theorem blend_outside (mask old v : Byte) : blend mask old v &&& ~~~mask = old &&& ~~~mask := by
  refine BitVec.eq_of_getLsbD_eq fun i hi => ?_
  simp only [blend, BitVec.getLsbD_and, BitVec.getLsbD_or, BitVec.getLsbD_not, hi, decide_true, Bool.true_and]
  cases mask.getLsbD i <;> simp

theorem blend_congr {mask x y : Byte} (h : x &&& ~~~mask = y &&& ~~~mask) (v : Byte) : blend mask x v = blend mask y v := by
  unfold blend
  rw [h]

theorem storedByte_page (bs : List DevBlock) (v old : Byte) (x : Leaf) (pa : Nat) :
    storedByte bs v old (.page x pa) = blend (writableBits bs (.page x pa)) old v := by
  unfold storedByte writableBits
  cases fieldAt bs (.page x pa) with
  | none => exact (blend_all old v).symm
  | some q => rfl

/-- What a store may leave, where it meets no field of supervisor mode unless it is of supervisor mode. -/
theorem fielded_eq (s : State) (bs : List DevBlock) (l : Nat) (sp : Spot) (v : Byte) {sv : Bool}
    (h : sv = true ∨ ∀ q, fieldAt bs sp = some q → q.1 = 0) :
    s.fielded bs l sp v sv = blend (writableBits bs sp) (s.readSpot l sp) v := by
  unfold State.fielded writableBits
  cases hq : fieldAt bs sp with
  | none => exact (blend_all _ v).symm
  | some q =>
    have hm : (if sv then q.1 ||| q.2 else q.2) = q.1 ||| q.2 := by
      cases sv with
      | true => rfl
      | false =>
        have h0 : q.1 = 0#8 := (h.resolve_left Bool.false_ne_true) q hq
        rw [h0, BitVec.zero_or]
        rfl
    simp only [hm]
    rfl

/-- A byte written at a spot of market memory. -/
theorem writeSpot_market (s : State) (l : Nat) (b : Byte) {x : Leaf} {pa : Nat} (hx : x.space = .market) :
    MarketOnly s (s.writeSpot l b (.page x pa))
      ∧ ∀ y, byteAt (s.writeSpot l b (.page x pa)) y = if y = .phys .market pa then b else byteAt s y := by
  have hw : s.writeSpot l b (.page x pa) = s.modMem fun m => { m with market := Memory.write m.market pa b } := by
    simp only [State.writeSpot, State.writePhys, hx]
    rfl
  rw [hw]
  refine ⟨⟨_, s.mem.marks, rfl⟩, fun y => ?_⟩
  match y with
  | .lm l a => rfl
  | .phys .hbm a => rfl
  | .phys .host a => rfl
  | .phys .market a =>
    refine (Memory.read_write s.mem.market pa a b).trans ?_
    by_cases ha : pa = a
    · rw [if_pos ha, if_pos (by rw [ha])]
    · rw [if_neg ha, if_neg (by simpa using Ne.symm ha)]
      rfl

/-- Bytes written one by one to market memory, each what the device's records let a store leave of the bytes of `s0`. `s` is a
state on the way: of every byte it holds the bits of `s0` that no store writes. -/
theorem storeMarket {s0 : State} (l : Nat) {bs : List (Spot × Byte)} (hm : ∀ p ∈ bs, InMarket p.1) {s : State}
    (hs : MarketOnly s0 s)
    (hold : ∀ sp, InMarket sp → s.readSpot l sp &&& ~~~writableBits s0.devBlocks sp
      = s0.readSpot l sp &&& ~~~writableBits s0.devBlocks sp) :
    let t := bs.foldl (fun s p => s.writeSpot l (blend (writableBits s0.devBlocks p.1) (s0.readSpot l p.1) p.2) p.1) s
    MarketOnly s0 t ∧ byteAt t = bs.foldl (fun m p => afterByte s0.devBlocks l m p.1 p.2) (byteAt s) := by
  induction bs generalizing s with
  | nil => exact ⟨hs, rfl⟩
  | cons p bs ih =>
    obtain ⟨x, pa, hp, hx, hr⟩ := hm p List.mem_cons_self
    obtain ⟨sp, v⟩ := p
    dsimp only at hp
    subst hp
    let b := blend (writableBits s0.devBlocks (.page x pa)) (s0.readSpot l (.page x pa)) v
    obtain ⟨hw, hb⟩ := writeSpot_market s l b (pa := pa) hx
    have read (u : State) (y : Leaf) (a : Nat) (hy : y.space = .market) : u.readSpot l (.page y a) = byteAt u (.phys .market a) := by
      simp only [State.readSpot, byteAt, hy]
    have hbyte : byteAt (s.writeSpot l b (.page x pa)) = afterByte s0.devBlocks l (byteAt s) (.page x pa) v := by
      funext y
      rw [hb]
      simp only [afterByte, placeOf, hx, Option.some.injEq, storedByte_page]
      by_cases hy : y = .phys .market pa
      · subst hy
        rw [if_pos rfl, if_pos rfl, ← read s x pa hx]
        exact (blend_congr (hold _ ⟨x, pa, rfl, hx, hr⟩) v).symm
      · rw [if_neg hy, if_neg (Ne.symm hy)]
    have ih' := ih (fun q hq => hm q (List.mem_cons_of_mem _ hq)) (s := s.writeSpot l b (.page x pa)) (hs.trans hw) ?_
    · rw [hbyte] at ih'
      exact ih'
    · rintro _ ⟨y, a, rfl, hy, hr'⟩
      rw [read _ y a hy, hb]
      by_cases ha : a = pa
      · subst ha
        rw [if_pos rfl, writableBits_congr _ (hy.trans hx.symm) hr' hr]
        refine (blend_outside _ _ _).trans ?_
        rw [read s0 x a hx, read s0 y a hy]
      · rw [if_neg (by simpa using ha), ← read s y a hy]
        exact hold _ ⟨y, a, rfl, hy, hr'⟩

theorem clearMarks_marks (es : List ErrAt) (c : ErrAt → Prop) [DecidablePred c] (m : Memories) :
    ∃ k, es.foldl (fun m e => if c e then m.clearMark e else m) m = { m with marks := k } := by
  induction es generalizing m with
  | nil => exact ⟨m.marks, rfl⟩
  | cons e es ih =>
    obtain ⟨k, hk⟩ := ih (if c e then m.clearMark e else m)
    refine ⟨k, hk.trans ?_⟩
    split <;> rfl

theorem wholeUnits_market (s : State) (l : Nat) (sps : List Spot) :
    MarketOnly s (s.wholeUnits l sps) ∧ byteAt (s.wholeUnits l sps) = byteAt s := by
  unfold State.wholeUnits
  split
  · exact ⟨MarketOnly.refl s, rfl⟩
  · dsimp only [State.modMem]
    obtain ⟨k, hk⟩ := clearMarks_marks (sps.eraseDups.flatMap fun x => x.units l).eraseDups
      (fun e => unitCount l sps.eraseDups e ≥ e.bytes) s.mem
    rw [hk]
    exact ⟨⟨s.mem.market, k, rfl⟩, funext fun y => by cases y <;> rfl⟩

/-- A store of bytes to market memory: each place holds what the store leaves there (R6, R7). -/
theorem storeSpots_market {s : State} (l : Nat) {bs : List (Spot × Byte)} {sv : Bool} (hm : ∀ p ∈ bs, InMarket p.1)
    (hsv : sv = true ∨ ∀ p ∈ bs, ∀ q, fieldAt s.devBlocks p.1 = some q → q.1 = 0) :
    MarketOnly s (s.storeSpots l bs sv)
      ∧ byteAt (s.storeSpots l bs sv) = bs.foldl (fun m p => afterByte s.devBlocks l m p.1 p.2) (byteAt s) := by
  have hbs : (if s.devBlocks.isEmpty then bs else bs.map fun p => (p.1, s.fielded s.devBlocks l p.1 p.2 sv))
      = bs.map fun p => (p.1, blend (writableBits s.devBlocks p.1) (s.readSpot l p.1) p.2) := by
    have hmap : (bs.map fun p => (p.1, s.fielded s.devBlocks l p.1 p.2 sv))
        = bs.map fun p => (p.1, blend (writableBits s.devBlocks p.1) (s.readSpot l p.1) p.2) :=
      List.map_congr_left fun p hp => by rw [fielded_eq _ _ _ _ _ (hsv.imp_right fun h => h p hp)]
    split
    · next he =>
      rw [← hmap, List.isEmpty_iff.1 he]
      simp [State.fielded, fieldAt_nil]
    · exact hmap
  obtain ⟨h1, h2⟩ := storeMarket l hm (MarketOnly.refl s) fun _ _ => rfl
  unfold State.storeSpots State.storeDev
  simp only [hbs, List.foldl_map]
  obtain ⟨h3, h4⟩ := wholeUnits_market (bs.foldl (fun s' p =>
    s'.writeSpot l (blend (writableBits s.devBlocks p.1) (s.readSpot l p.1) p.2) p.1) s) l
      ((bs.map fun p => (p.1, blend (writableBits s.devBlocks p.1) (s.readSpot l p.1) p.2)).map (·.1))
  exact ⟨h1.trans h3, h4.trans h2⟩

end

end Sys2Proof.Rules
end

section
/-! SUPPORT. A bank's part of a bank command (R214, R215, R273, R274). -/

namespace Sys2Proof.Rules

open Sys2Proof.Machine

/-! ## The range of a command that is ready (R274) -/

/-- A spot of case 90 is a byte of a resident page of market memory. -/
theorem inMarket_of_bankCase {s : State} {v : View} {va : Nat} (h : 90 ≤ (s.spot v va).bankCase) : InMarket (s.spot v va) := by
  cases hs : s.spot v va with
  | bad n =>
    have hn := State.spot_bad hs
    simp only [hs, Spot.bankCase] at h
    omega
  | lm a => simp [hs, Spot.bankCase] at h
  | frame a i => simp [hs, Spot.bankCase] at h
  | page x pa =>
    rw [hs] at h
    simp only [Spot.bankCase] at h
    refine ⟨x, pa, rfl, ?_⟩
    split_ifs at h with h1 h2 h3 h4
    all_goals simp_all

/-- The search of `State.bankCases` over the pages of a range. -/
theorem bankCases_eq (s : State) (v : View) (p : BankPlan) :
    s.bankCases v p = (pageStarts p.addr.toNat p.bytes).foldl
      (leastStep (fun a => (s.spot v (a % 2 ^ 64)).bankCase) fun a => a % 2 ^ 64) (90, 0) := rfl

/-- Where a command is ready, every byte of its range lies on a resident page of market memory. -/
theorem inMarket_of_bankReady {s : State} {v : View} {p : BankPlan} (h : s.bankReady v p = true) {k : Nat} (hk : k < p.bytes) :
    InMarket (s.spot v ((p.addr.toNat + k) % 2 ^ 64)) := by
  obtain ⟨a, ha, hle, hpage⟩ := exists_pageStart (base := p.addr.toNat) hk
  have hcase : 90 ≤ (s.spot v (a % 2 ^ 64)).bankCase := by
    rcases exists_first_least (fun a => (s.spot v (a % 2 ^ 64)).bankCase) (pageStarts p.addr.toNat p.bytes) 90 with
      hall | ⟨pre, x, post, hl, hx, hpre, hpost⟩
    · exact hall a ha
    · have h90 : (s.bankCases v p).1 = 90 := beq_iff_eq.1 h
      rw [bankCases_eq, hl, foldl_leastStep_at _ _ pre post x _ hx hpre hpost] at h90
      exact absurd h90 (Nat.ne_of_lt hx)
  obtain ⟨x, pa, hs, hx, hr⟩ := inMarket_of_bankCase hcase
  exact ⟨x, _, State.spot_samePage hs (by omega), hx, hr⟩

/-- The bytes of an element lie in the range. -/
theorem inMarket_of_element {s : State} {v : View} {p : BankPlan} (h : s.bankReady v p = true) {e : Nat} (he : e < p.n) :
    ∀ sp ∈ s.spots v (bytesHolding p.addr (e * p.w) p.w), InMarket sp := by
  intro sp hsp
  simp only [State.spots, Acc.bytes, bytesHolding, List.map_map, List.mem_map, List.mem_range, Function.comp] at hsp
  obtain ⟨k, hk, rfl⟩ := hsp
  have hb : e * p.w + p.w ≤ p.n * p.w := by
    rw [← Nat.succ_mul]
    exact Nat.mul_le_mul_right _ he
  have hk' : e * p.w / 8 + k < p.bytes := by
    unfold BankPlan.bytes
    omega
  have ha := inMarket_of_bankReady h hk'
  rw [BitVec.toNat_add, BitVec.toNat_ofNat]
  rwa [show ((p.addr.toNat + e * p.w / 8 % 2 ^ 64) % 2 ^ 64 + k) % 2 ^ 64 = (p.addr.toNat + (e * p.w / 8 + k)) % 2 ^ 64 by omega]

/-! ## One element (R273) -/

/-- What a bank makes of an element: its code, and whether the conversion is recorded, are those of R273. -/
theorem elem_eq_bankCode (p : BankPlan) (legacy : Bool) (x : Nat) :
    (p.elem legacy x).bits = (bankCode p legacy x).bits ∧ (p.elem legacy x).record = (bankCode p legacy x).record := by
  unfold BankPlan.elem bankCode
  cases p.op <;> exact ⟨rfl, rfl⟩

/-- One element of a bank's part: the state, the flags and the records so far, and then. -/
def bankStep (v : View) (o : Op) (acc : State × BitVec 6 × List (Nat × Nat)) (e : Nat) : State × BitVec 6 × List (Nat × Nat) :=
  let p := o.bankPlan
  let (va, bit) := p.place e
  if p.op = .transp then (acc.1.writeBytesVa v va (transposeRow (acc.1.bytesVa v va 256)), acc.2)
  else
    let a := bitAcc va bit p.w
    let old := acc.1.readVa v a.1.va a.1.len
    let res := p.elem o.legacy (old >>> bit % 2 ^ p.w)
    (acc.1.writeVa v a.1.va a.1.len (replaceBits old bit p.w res.bits), acc.2.1 ||| res.flags,
      match res.record with | none => acc.2.2 | some c => acc.2.2 ++ [(e, c)])

/-- The value that an element's bytes take for their old one. -/
def elementValue (o : Op) (e old : Nat) : Nat :=
  let p := o.bankPlan
  if p.op = .transp then transposed old
  else putIn old (e * p.w % 8) p.w (bankCode p o.legacy (old / 2 ^ (e * p.w % 8) % 2 ^ p.w)).bits

/-- The bytes of element e. -/
def elementAcc (o : Op) (e : Nat) : Acc := bytesHolding o.bankPlan.addr (e * o.bankPlan.w) o.bankPlan.w

theorem length_spots (s : State) (v : View) (a : Acc) : (s.spots v a).length = a.len := by
  simp [State.spots, Acc.bytes]

theorem place_bits (p : BankPlan) (e : Nat) :
    bitAcc (p.place e).1 (p.place e).2 p.w = (bytesHolding p.addr (e * p.w) p.w, e * p.w % 8) := by
  unfold bitAcc BankPlan.place bytesHolding
  simp only [Nat.mod_mod, Nat.mod_div_self, BitVec.add_zero]

/-- The bytes of a row. -/
theorem place_row {p : BankPlan} (hp : p.op = .transp) (e : Nat) :
    bytesHolding p.addr (e * p.w) p.w = { lane := 0, va := (p.place e).1, len := 256 } := by
  have hw : p.w = 2048 := if_pos hp
  unfold bytesHolding BankPlan.place
  rw [hw]
  congr 1
  omega

/-- An element's step stores the value that R273 gives for the old one, and records nothing where R273 does not. -/
theorem bankStep_eq (v : View) (o : Op) (acc : State × BitVec 6 × List (Nat × Nat)) (e : Nat)
    (hrec : ∀ x, (bankCode o.bankPlan o.legacy x).record = none) :
    let sps := acc.1.spots v (elementAcc o e)
    (bankStep v o acc e).1 = acc.1.storeSpots v.loom
        (sps.zip (leBytes sps.length (elementValue o e (leValue (sps.map (acc.1.readSpot v.loom)))))) v.sv
      ∧ (bankStep v o acc e).2.2 = acc.2.2 := by
  intro sps
  by_cases hp : o.bankPlan.op = .transp
  · have hacc : elementAcc o e = ⟨0, (o.bankPlan.place e).1, 256, 1⟩ := place_row hp e
    have hlen : sps.length = 256 := by rw [length_spots, hacc]
    have hrow : (transposeRow (acc.1.bytesVa v (o.bankPlan.place e).1 256)).length = 256 := by simp [transposeRow]
    unfold bankStep elementValue
    simp only [hp, if_true, hlen, leBytes_transposed, State.writeBytesVa, hrow, and_true]
    simp only [sps, hacc, State.bytesVa]
  · have hacc : bitAcc (o.bankPlan.place e).1 (e * o.bankPlan.w % 8) o.bankPlan.w = (elementAcc o e, e * o.bankPlan.w % 8) :=
      place_bits _ e
    have hold : acc.1.readVa v (elementAcc o e).va (elementAcc o e).len = leValue (sps.map (acc.1.readSpot v.loom)) := rfl
    have hlen : sps.length = (elementAcc o e).len := length_spots ..
    have hbit : (o.bankPlan.place e).2 = e * o.bankPlan.w % 8 := rfl
    have hcode (x : Nat) := elem_eq_bankCode o.bankPlan o.legacy x
    unfold bankStep elementValue
    simp only [hp, if_false, hacc, hold, Nat.shiftRight_eq_div_pow, replaceBits_eq_putIn, hlen, hbit, hcode, hrec, and_true]
    rfl

/-! ## The elements of a part, in order (R274) -/

theorem opView_loom (s : State) (o : Op) : (s.opView o).loom = o.loom := by
  unfold State.opView
  split <;> rfl

theorem afterElement_eq (s : State) (o : Op) (m : Place → Byte) (e : Nat) :
    let sps := s.spots (s.opView o) (elementAcc o e)
    afterElement s o m e = afterStore s.devBlocks o.loom m sps (elementValue o e (valueAt o.loom m sps)) := rfl

section
variable {s : State} {o : Op} {acc : State × BitVec 6 × List (Nat × Nat)}

/-- An element is made in place: no other byte differs, and nothing but market memory does. -/
theorem bankStep_market {e : Nat} (hm : MarketOnly s acc.1)
    (hin : ∀ sp ∈ s.spots (s.opView o) (elementAcc o e), InMarket sp)
    (hsv : (s.opView o).sv = true ∨ ∀ sp ∈ s.spots (s.opView o) (elementAcc o e), ∀ q, fieldAt s.devBlocks sp = some q → q.1 = 0)
    (hrec : ∀ x, (bankCode o.bankPlan o.legacy x).record = none) :
    let r := bankStep (s.opView o) o acc e
    MarketOnly s r.1 ∧ byteAt r.1 = afterElement s o (byteAt acc.1) e ∧ r.2.2 = acc.2.2 := by
  intro r
  obtain ⟨hstore, hrecs⟩ := bankStep_eq (s.opView o) o acc e hrec
  rw [hm.spots, opView_loom] at hstore
  have hmem {p : Spot × Byte} {bs : List Byte} (hp : p ∈ (s.spots (s.opView o) (elementAcc o e)).zip bs) :
      p.1 ∈ s.spots (s.opView o) (elementAcc o e) := (List.of_mem_zip (a := p.1) (b := p.2) hp).1
  obtain ⟨h1, h2⟩ := storeSpots_market (s := acc.1) o.loom (fun p hp => hin _ (hmem hp))
    (hsv.imp_right fun h p hp => hm.devBlocks ▸ h _ (hmem hp))
  rw [← hstore] at h1 h2
  refine ⟨hm.trans h1, ?_, hrecs⟩
  rw [afterElement_eq, afterStore_eq, valueAt_eq_leValue, ← hm.devBlocks]
  exact h2

/-- The elements of a part are made one by one, in ascending order. -/
theorem bankSteps_market {es : List Nat} (hm : MarketOnly s acc.1)
    (hin : ∀ e ∈ es, ∀ sp ∈ s.spots (s.opView o) (elementAcc o e), InMarket sp)
    (hsv : (s.opView o).sv = true
      ∨ ∀ e ∈ es, ∀ sp ∈ s.spots (s.opView o) (elementAcc o e), ∀ q, fieldAt s.devBlocks sp = some q → q.1 = 0)
    (hrec : ∀ x, (bankCode o.bankPlan o.legacy x).record = none) :
    let r := es.foldl (bankStep (s.opView o) o) acc
    MarketOnly s r.1 ∧ byteAt r.1 = es.foldl (afterElement s o) (byteAt acc.1) ∧ r.2.2 = acc.2.2 := by
  induction es generalizing acc with
  | nil => exact ⟨hm, rfl, rfl⟩
  | cons e es ih =>
    obtain ⟨h1, h2, h3⟩ := bankStep_market (e := e) hm (hin e List.mem_cons_self)
      (hsv.imp_right fun h => h e List.mem_cons_self) hrec
    obtain ⟨i1, i2, i3⟩ := ih h1 (fun x hx => hin x (List.mem_cons_of_mem _ hx))
      (hsv.imp_right fun h x hx => h x (List.mem_cons_of_mem _ hx))
    exact ⟨i1, i2.trans (by rw [h2]; rfl), i3.trans h3⟩

end

end Sys2Proof.Rules
end

section
/-! SUPPORT. What stands after a bank's part: the armed words compared, the event of an error, the operation's parts
(R215, R274, R339, R396). -/

namespace Sys2Proof.Rules

open Sys2Proof.Machine

/-! ## The armed words leave the bank queues (R396, R399) -/

theorem setArm_bankQ (s : State) (a : ArmAt) (e : Option Arm) : KeepsLooms Loom.bankQ s (s.setArm a e) := by
  unfold State.setArm
  split
  · exact KeepsLooms.modLoom s _ fun _ => rfl
  · exact KeepsLooms.modLoom s _ fun _ => rfl
  · exact KeepsLooms.of_looms rfl
  · exact KeepsLooms.of_looms rfl

theorem releaseAwait_bankQ (s : State) (status : Word) (ws : List (Nat × Nat × Bool)) :
    KeepsLooms Loom.bankQ s (s.releaseAwait status ws) := by
  refine KeepsLooms.foldl (fun s p => ?_) ws s
  have drop : KeepsLooms Loom.bankQ s (s.dropL1 p.1) := KeepsLooms.modLoom s p.1 fun _ => rfl
  split
  · split
    · refine KeepsLooms.trans ?_ (KeepsLooms.modWeft (fun _ _ => rfl) ..)
      split
      · exact KeepsLooms.ite drop (KeepsLooms.refl s)
      · exact KeepsLooms.refl s
    · exact KeepsLooms.refl s
  · exact KeepsLooms.refl s

theorem checkArm_bankQ (s : State) (a : ArmAt) : KeepsLooms Loom.bankQ s (s.checkArm a) := by
  unfold State.checkArm
  split
  · exact KeepsLooms.refl s
  · next e _ =>
    have reached : KeepsLooms Loom.bankQ s
        (if s.armReached a e then s.releaseAwait 0 ((s.armWaiters a).filter fun p => !p.2.2) else s) :=
      KeepsLooms.ite (releaseAwait_bankQ ..) (KeepsLooms.refl s)
    exact KeepsLooms.ite (reached.trans ((releaseAwait_bankQ ..).trans (setArm_bankQ ..))) reached

theorem checkArms_bankQ (s : State) : KeepsLooms Loom.bankQ s s.checkArms := KeepsLooms.foldl checkArm_bankQ _ s

/-! ## Counts and event records (R339, R405) -/

/-- Every byte outside host memory, and every bank queue, is as before. -/
structure HostOnly (s t : State) : Prop where
  bytes : ∀ x, (∀ k, x ≠ .phys .host k) → byteAt t x = byteAt s x
  queues : KeepsLooms Loom.bankQ s t

theorem HostOnly.refl (s : State) : HostOnly s s := ⟨fun _ _ => rfl, KeepsLooms.refl s⟩

theorem HostOnly.trans {s t u : State} (a : HostOnly s t) (b : HostOnly t u) : HostOnly s u :=
  ⟨fun x hx => (b.bytes x hx).trans (a.bytes x hx), a.queues.trans b.queues⟩

theorem byteAt_congr {s t : State} (hm : t.mem = s.mem) (hl : KeepsLooms Loom.mem s t) : byteAt t = byteAt s := by
  funext x
  cases x with
  | phys sp a => simp only [byteAt, State.readPhys, hm]
  | lm l a => simp only [byteAt, State.readLm, hl.loom l]

theorem HostOnly.ite {s t u : State} {c : Prop} [Decidable c] (a : HostOnly s t) (b : HostOnly s u) :
    HostOnly s (if c then t else u) := by
  split
  · exact a
  · exact b

theorem eventRecord_hostOnly (s : State) (kind src ctx : Nat) (d0 d1 : DWord) : HostOnly s (s.eventRecord kind src ctx d0 d1) := by
  unfold State.eventRecord
  refine HostOnly.ite ?_ ?_
  · exact ⟨fun x _ => by cases x <;> rfl, KeepsLooms.of_looms rfl⟩
  · refine ⟨fun x hx => ?_, KeepsLooms.of_looms rfl⟩
    match x with
    | .lm l a => rfl
    | .phys .hbm a => rfl
    | .phys .market a => rfl
    | .phys .host a => exact absurd rfl (hx a)

theorem HostOnly.of_same {s t : State} (hm : t.mem = s.mem) (hl : t.looms = s.looms) : HostOnly s t :=
  ⟨fun x _ => congrFun (byteAt_congr hm (KeepsLooms.of_looms hl)) x, KeepsLooms.of_looms hl⟩

theorem loomError_hostOnly (s : State) (l k : Nat) : HostOnly s (s.loomError l k) := by
  have keeps {β : Type} {f : Loom → β} (hf : ∀ x, f { x with errors := bumpError x.errors k } = f x) :
      KeepsLooms f s (s.loomError l k) := KeepsLooms.modLoom s l hf
  exact ⟨fun x _ => congrFun (byteAt_congr (State.modLoom_mem ..) (keeps fun _ => rfl)) x, keeps fun _ => rfl⟩

theorem noteError_hostOnly (s : State) (v : View) (va : DWord) : HostOnly s (s.noteError v va) := by
  have record : HostOnly s (s.errorRecord v va) := by
    unfold State.errorRecord
    split
    · exact eventRecord_hostOnly ..
    · exact HostOnly.refl s
  unfold State.noteError
  split
  · exact loomError_hostOnly ..
  · exact loomError_hostOnly ..
  · dsimp only
    split
    · next die k _ =>
      have counted : HostOnly (s.errorRecord v va) ((s.errorRecord v va).dieError die k) := HostOnly.of_same rfl rfl
      exact record.trans (counted.trans (HostOnly.of_same (State.countDie_mem ..) (State.countDie_looms ..)))
    · exact record
  · exact HostOnly.refl s

/-! ## The part (R274) -/

theorem modOp_bankQ (s : State) (l id : Nat) (f : Op → Op) :
    ((s.modOp l .bank id f).loom l).bankQ = (s.loom l).bankQ.map fun q => if q.id = id then f q else q := by
  change ((s.modLoom l _).loom l).bankQ = _
  rw [State.loom_modLoom]
  rfl

theorem byteAt_modOp (s : State) (l id : Nat) (f : Op → Op) : byteAt (s.modOp l .bank id f) = byteAt s :=
  byteAt_congr (State.modLoom_mem ..) (KeepsLooms.modLoom s _ fun _ => rfl)

section
variable {s : State} {o : Op} {bank : Nat}

/-- An element in uncorrectable error (R215). -/
def elementBad (s : State) (o : Op) (e : Nat) : Bool := (s.spots (s.opView o) (elementAcc o e)).any (s.readError o.loom)

theorem elementBad_eq (s : State) (o : Op) :
    (fun e => (s.spots (s.opView o) (bitAcc (o.bankPlan.place e).1 (o.bankPlan.place e).2 o.bankPlan.w).1).any (s.readError o.loom))
      = elementBad s o := by
  funext e
  rw [place_bits]
  rfl

/-- A part whose lowest element in error is `e`: the error is noted, and the command is refused there. -/
theorem bankPart_refused (hb : bank ∈ o.parts) (hr : s.bankReady (s.opView o) o.bankPlan = true) (hp : o.partRecs = []) {e : Nat}
    (he : (s.bankElems (s.opView o) o.bankPlan bank).find? (elementBad s o) = some e) :
    s.bankPart o bank = (s.noteError (s.opView o) (o.bankPlan.place e).1).modOp o.loom .bank o.id fun q =>
      { q with parts := q.parts.filter (· != bank), refused := some (q.refused.getD e),
               partRecs := if o.parts.length == 1 then [] else q.partRecs } := by
  unfold State.bankPart
  simp only [List.contains_iff_mem.2 hb, hr, elementBad_eq, he, hp, Op.convRecs, ite_self, List.map_nil, opRecords_nil, Bool.not_true,
    Bool.or_self, Bool.false_eq_true, if_false]

/-- A part without an element in error: its elements are made, the armed words compared, and its request counted. -/
theorem bankPart_done (hb : bank ∈ o.parts) (hr : s.bankReady (s.opView o) o.bankPlan = true) (hp : o.partRecs = [])
    (he : (s.bankElems (s.opView o) o.bankPlan bank).find? (elementBad s o) = none)
    (hrecs : ((s.bankElems (s.opView o) o.bankPlan bank).foldl (bankStep (s.opView o) o) (s, 0, [])).2.2 = []) :
    let r := (s.bankElems (s.opView o) o.bankPlan bank).foldl (bankStep (s.opView o) o) (s, 0, [])
    s.bankPart o bank = ((r.1.checkArms.countDie (bank / 64) 0x45 1).crossDies (dieOf o.loom) (bank / 64) 32).modOp o.loom .bank
      o.id fun q => { q with parts := q.parts.filter (· != bank), flags := q.flags ||| r.2.1,
                             partRecs := [] } := by
  intro r
  unfold State.bankPart
  simp only [List.contains_iff_mem.2 hb, hr, elementBad_eq, he, Bool.not_true, Bool.or_self, Bool.false_eq_true, if_false]
  change State.modOp (State.crossDies (State.countDie (State.checkArms (if o.parts.length == 1 then
    r.1.opRecords o (o.convRecs (r.2.2.foldl (fun m p => SMap.put m p.1 p.2) o.partRecs)) else r.1)) (bank / 64) 0x45 1)
      (dieOf o.loom) (bank / 64) 32) o.loom .bank o.id (fun q => { q with
        parts := q.parts.filter (· != bank), flags := q.flags ||| r.2.1,
        partRecs := if o.parts.length == 1 then [] else r.2.2.foldl (fun m p => SMap.put m p.1 p.2) o.partRecs }) = _
  simp only [show r.2.2 = [] from hrecs, hp, List.foldl_nil, Op.convRecs, List.map_nil, opRecords_nil, ite_self]

/-- The bank queue after a part: only the command's own entry changes. -/
theorem bankQ_modOp_own {s t : State} {o : Op} (ht : KeepsLooms Loom.bankQ s t)
    (hown : ∀ q ∈ (s.loom o.loom).bankQ, q.id = o.id → q = o) {f g : Op → Op} (hfg : f o = g o) :
    ((t.modOp o.loom .bank o.id f).loom o.loom).bankQ = (s.loom o.loom).bankQ.map fun q => if q.id = o.id then g q else q := by
  rw [modOp_bankQ, ht.loom]
  refine List.map_congr_left fun q hq => ?_
  split
  · next hid => rw [hown q hq hid, hfg]
  · rfl

end

/-- What a bank's part counts: its request at the bank, and the gateway between. -/
theorem requestCounted (s : State) (i j : Nat) :
    ((s.countDie j 0x45 1).crossDies i j 32).mem = s.mem ∧ ((s.countDie j 0x45 1).crossDies i j 32).looms = s.looms := by
  unfold State.crossDies
  split <;> exact ⟨rfl, rfl⟩

theorem bankParts : BankParts := by
  intro s o bank hi hb p v es spots bad t left hready hcheck hrecs hown
  have hlt : ∀ e ∈ es, e < p.n := fun e he => List.mem_range.1 (List.mem_of_mem_filter he)
  have hbad (e : Nat) : elementBad s o e = true ↔ bad e := by
    simp only [elementBad, List.any_eq_true]
    rfl
  constructor
  · intro hgood hsv hrec
    have hnone : es.find? (elementBad s o) = none := by
      rw [List.find?_eq_none]
      exact fun e he h => hgood e he ((hbad e).1 h)
    obtain ⟨hm, hbytes, hr⟩ := bankSteps_market (acc := (s, 0, [])) (es := es) (MarketOnly.refl s)
      (fun e he => inMarket_of_element hready (hlt e he)) hsv hrec
    have ht : t = _ := bankPart_done hb hready hrecs hnone hr
    let r := es.foldl (bankStep v o) (s, 0, [])
    obtain ⟨hmem, hlooms⟩ := requestCounted r.1.checkArms (dieOf o.loom) (bank / 64)
    refine ⟨⟨r.1, hm.onlyBytes, congrFun hbytes, fun x => ?_⟩, r.2.1, ?_⟩
    · rw [ht, byteAt_modOp]
      exact congrFun (byteAt_congr hmem (KeepsLooms.of_looms hlooms)) x
    · rw [ht]
      exact bankQ_modOp_own (hm.looms.trans ((checkArms_bankQ r.1).trans (KeepsLooms.of_looms hlooms))) hown
        (by simp only [left, withFlags, hrecs]; rfl)
  · intro pre e post hes he hpre
    have hfind : es.find? (elementBad s o) = some e :=
      List.find?_eq_some_iff_append.2 ⟨(hbad e).2 he, pre, post, hes, fun x hx => by
        rw [Bool.not_eq_true', Bool.eq_false_iff]
        exact fun h => hpre x hx ((hbad x).1 h)⟩
    have ht : t = _ := bankPart_refused hb hready hrecs hfind
    obtain ⟨hbytes, hq⟩ := noteError_hostOnly s v (p.place e).1
    refine ⟨fun x hx => ?_, ?_⟩
    · rw [ht, byteAt_modOp]
      exact hbytes x hx
    · rw [ht]
      exact bankQ_modOp_own hq hown (by simp [left, hrecs])

end Sys2Proof.Rules
end

section
/-! SUPPORT. bankop and sb.move as a whole: issue, privilege, parts and commit (R6, R273, R274, R378). -/

namespace Sys2Proof.Rules

/-- Settles O32: bankop and sb.move issue as their bodies' branches say; one address of each page of a bank command's range
stands for the page, for R6's fields as for its readiness; a part's elements are stores to market memory, made one by one; and
the commit of a move changes two board entries, two ownership entries and the operation. -/
theorem bankAndMoveIssue : Obligations.BankAndMoveIssue :=
  ⟨bankParts, moveCommits, fun _ _ _ _ _ _ _ _ _ hi => bankop_issues hi, bankop_svDenied,
    fun _ _ _ _ _ _ _ hi => sbMove_issues hi⟩

end Sys2Proof.Rules
end

section
/-! SUPPORT. Power, reset and the stages of bring-up: what a reset keeps, the verification of the boot flash, and the placing of
the launch queues' records (R31 to R33, R314, R457 to R461). -/

namespace Sys2Proof.Machine

/-! ## Reset (R31, R459, R463) -/

/-- A reset, a power-off, and a power-on of a package that is off all restart the package (R31, R463). -/
theorem exec_restart {s : State} {i : Instr} {on : Bool} (h : i = .resetRequest ∧ on = true ∨ i = .powerOff ∧ on = false
    ∨ i = .powerOn ∧ on = true ∧ s.mgmt.powered = false) : exec i s = .next (s.restarted on) := by
  obtain ⟨rfl, rfl⟩ | ⟨rfl, rfl⟩ | ⟨rfl, rfl, hoff⟩ := h
  · rfl
  · rfl
  · exact congrArg _ (if_neg (by rw [hoff]; decide))

/-- The budgets' floors outlive a reset (R461). -/
theorem State.restarted_floors (s : State) (on : Bool) (h : s.mgmt.budgets.length = 7) :
    (s.restarted on).mgmt.budgets.map (·.floor) = s.mgmt.budgets.map (·.floor) := by
  have hlen : s.mgmt.budgets.length ≤ Mgmt.reset.budgets.length := h.le
  calc (s.restarted on).mgmt.budgets.map (·.floor)
      = ((Mgmt.reset.budgets.zip s.mgmt.budgets).map Prod.snd).map (·.floor) := by
        simp only [State.restarted, List.map_map]; rfl
    _ = s.mgmt.budgets.map (·.floor) := by rw [List.map_snd_zip hlen]

/-- The budgets themselves are the reset's (R409). -/
theorem State.restarted_budget (s : State) (on : Bool) {b : Budget} (hb : b ∈ (s.restarted on).mgmt.budgets) :
    b.budget = 8192 := by
  obtain ⟨⟨r, old⟩, hp, rfl⟩ := List.mem_map.1 hb
  have hr : r = { budget := 8192, floor := 0, now := 8192 } := List.eq_of_mem_replicate (List.of_mem_zip hp).1
  rw [hr]

/-! ## The order of the stages (R31) -/

/-- A step of bring-up out of its stage does nothing. -/
theorem exec_outOfStage {s : State} {i : Instr} {n : Nat} (h : i = .exlemLinkTrained ∧ n = 1
    ∨ (∃ f, i = .firmwareVerification f) ∧ n = 2 ∨ i = .memoryZeroing ∧ n = 4 ∨ (∃ p r v, i = .fabricBringUp p r v) ∧ n = 5
    ∨ (∃ b, i = .launchQueuesEnable b) ∧ n = 6) (hs : s.mgmt.stage ≠ n) : exec i s = .next s := by
  obtain ⟨rfl, rfl⟩ | ⟨⟨f, rfl⟩, rfl⟩ | ⟨rfl, rfl⟩ | ⟨⟨p, r, v, rfl⟩, rfl⟩ | ⟨⟨b, rfl⟩, rfl⟩ := h
  case inr.inr.inr.inr => exact if_pos (.inl hs)
  all_goals exact if_pos hs

/-! ## Verification (R457 to R459) -/

/-- The measurement of an image's header (R459). -/
def flashMeasure (f : FlashImage) : BitVec 512 := BitVec.ofNat 512 (leValue (Config.shake256 (f.bytes.take 96) 64))

/-- The service firmware's budgets with the floors of an image (R409, R457). -/
def flashBudgets (f : FlashImage) (bs : List Budget) : List Budget :=
  bs.zipIdx.map fun p => p.1.setFloor (flashNum f (80 + 2 * p.2) 2)

theorem flashBudgets_floors (f : FlashImage) (bs : List Budget) :
    (flashBudgets f bs).map (·.floor) = (List.range bs.length).map fun k => flashNum f (80 + 2 * k) 2 % 2 ^ 14 := by
  calc (flashBudgets f bs).map (·.floor)
      = (bs.zipIdx.map Prod.snd).map fun k => flashNum f (80 + 2 * k) 2 % 2 ^ 14 := by
        simp only [flashBudgets, List.map_map]; rfl
    _ = _ := by rw [List.zipIdx_map_snd, List.range_eq_range']

/-- An image that verifies brings the package to stage 4 (R31, R458). -/
theorem exec_firmwareVerification_verified {s : State} {f : FlashImage} (hs : s.mgmt.stage = 2) (hf : flashReason f = 0) :
    exec (.firmwareVerification f) s = .next { s with mgmt := { s.mgmt with
      stage := 4, m1 := flashMeasure f, svn := flashNum f 4 4, budgets := flashBudgets f s.mgmt.budgets } } := by
  refine (if_neg (not_not.2 hs)).trans ?_
  simp only [hf]
  rfl

/-- One that does not leaves it at stage 3 with the reason (R32, R458). -/
theorem exec_firmwareVerification_failed {s : State} {f : FlashImage} (hs : s.mgmt.stage = 2) (hf : flashReason f ≠ 0) :
    exec (.firmwareVerification f) s = .next { s with mgmt := { s.mgmt with
      stage := 3, m1 := flashMeasure f, fail := true, reason := flashReason f } } := by
  refine (if_neg (not_not.2 hs)).trans ?_
  dsimp only
  split
  · next h => exact absurd h hf
  · rfl

/-- A check that fails gives its reason, and one that does not leaves the checks behind it (R458). -/
theorem reason_eq_zero_iff {c : Prop} [Decidable c] {r x : Nat} (hr : r ≠ 0) : (if c then r else x) = 0 ↔ ¬ c ∧ x = 0 := by
  by_cases h : c <;> simp [h, hr]

/-- The checks of R458, each passed. -/
theorem flashReason_eq_zero_iff (f : FlashImage) : flashReason f = 0 ↔
    (flashField f 0 4 = [0x42, 0x5A, 0x53, 0x46] ∧ ∀ b ∈ flashField f 94 2 ++ flashField f 3939 157, b = 0)
      ∧ Config.keySlots.contains (Config.shake256 (flashKey f) 32) = true
      ∧ (1 ≤ flashSigBytes f ∧ flashSigBytes f ≤ 2048
        ∧ Config.falconVerify (flashKey f) (flashField f 0 96) (flashField f 1891 (flashSigBytes f)) = true)
      ∧ Config.minSvn ≤ flashNum f 4 4 ∧ Config.shake256 (flashBody f) 64 = flashField f 16 64 ∧ f.readOk = true := by
  unfold flashReason
  iterate 6 rw [reason_eq_zero_iff (by decide)]
  simp [and_assoc, Nat.one_le_iff_ne_zero, or_imp, forall_and]

/-! ## Records placed in memory (R7, R314) -/

theorem SMap.rising_slice {α : Type} {m : List (Nat × α)} (h : SMap.rising m = true) (lo hi : Nat) :
    SMap.rising (SMap.slice m lo hi) = true := by
  have hr := SMap.rising_filter m (fun p => lo ≤ p.1 && p.1 < hi) h
  have hlo : SMap.above (m.filter fun p => lo ≤ p.1 && p.1 < hi) lo := by
    intro p hp
    simp only [List.mem_filter, Bool.and_eq_true, decide_eq_true_eq] at hp
    exact hp.2.1
  unfold SMap.slice
  generalize m.filter (fun p => lo ≤ p.1 && p.1 < hi) = xs at hr hlo
  induction xs with
  | nil => rfl
  | cons p t ih =>
    obtain ⟨ht, hrt⟩ := (SMap.rising_cons p t).1 hr
    refine (SMap.rising_cons _ _).2 ⟨fun q hq => ?_, ih hrt fun q hq => hlo q (List.mem_cons_of_mem _ hq)⟩
    obtain ⟨r, hrm, rfl⟩ := List.mem_map.1 hq
    have h1 := ht r hrm
    have h2 := hlo p List.mem_cons_self
    dsimp only
    omega

theorem SMap.find?_slice {α : Type} (m : List (Nat × α)) {lo hi k : Nat} (h : lo + k < hi) :
    SMap.find? (SMap.slice m lo hi) k = SMap.find? m (lo + k) := by
  induction m with
  | nil => rfl
  | cons p t ih =>
    by_cases hin : lo ≤ p.1 ∧ p.1 < hi
    · have hk : p.1 - lo = k ↔ p.1 = lo + k := by omega
      simpa [SMap.slice, SMap.find?, hin, hk] using by rw [← ih]; rfl
    · have hk : p.1 ≠ lo + k := by omega
      simpa [SMap.slice, SMap.find?, hin, hk] using ih

theorem SMap.lt_of_mem_slice {α : Type} {m : List (Nat × α)} {lo n : Nat} {p : Nat × α} (h : p ∈ SMap.slice m lo (lo + n)) :
    p.1 < n := by
  obtain ⟨q, hq, rfl⟩ := List.mem_map.1 h
  simp only [List.mem_filter, Bool.and_eq_true, decide_eq_true_eq] at hq
  dsimp only
  omega

/-- Each listed byte written over its own place. -/
def Memory.rewrite (m : Mem) (base : Nat) (f : Nat → Byte → Byte) (xs : Mem) : Mem :=
  xs.foldl (fun x c => Memory.write x (base + c.1) (f c.1 c.2)) m

theorem Memory.read_rewrite_out (f : Nat → Byte → Byte) {base a : Nat} {xs : Mem} (h : ∀ c ∈ xs, base + c.1 ≠ a) (m : Mem) :
    Memory.read (Memory.rewrite m base f xs) a = Memory.read m a := by
  induction xs generalizing m with
  | nil => rfl
  | cons c xs ih =>
    refine (ih (fun d hd => h d (List.mem_cons_of_mem _ hd)) _).trans ?_
    rw [Memory.read_write, if_neg (h c List.mem_cons_self)]

theorem Memory.read_rewrite (f : Nat → Byte → Byte) (base k : Nat) {xs : Mem} (hx : SMap.rising xs = true) (m : Mem) :
    Memory.read (Memory.rewrite m base f xs) (base + k) = ((SMap.find? xs k).map (f k)).getD (Memory.read m (base + k)) := by
  induction xs generalizing m with
  | nil => rfl
  | cons c xs ih =>
    obtain ⟨habove, hrest⟩ := (SMap.rising_cons c xs).1 hx
    by_cases hc : c.1 = k
    · have hout : ∀ d ∈ xs, base + d.1 ≠ base + k := fun d hd => by have := habove d hd; omega
      refine (Memory.read_rewrite_out f hout _).trans ?_
      rw [Memory.read_write, if_pos (by rw [hc]), SMap.find?, if_pos hc, hc]
      rfl
    · refine (ih hrest _).trans ?_
      rw [Memory.read_write, if_neg (by omega), SMap.find?, if_neg hc]

/-- Placed records: a byte of the area is what the placing makes of it. -/
theorem State.readPhys_placeRecords {s : State} {sp : Space} {base n k : Nat} {f : Nat → Byte → Byte}
    (hw : Memory.wf (s.mem.of sp) = true) (hf : ∀ k, f k 0 = 0) (hk : k < n) :
    (s.placeRecords sp base n f).readPhys sp (base + k) = f k (s.readPhys sp (base + k)) := by
  have hr := Memory.read_rewrite f base k (SMap.rising_slice ((Memory.wf_iff _).1 hw).1 base (base + n)) (s.mem.of sp)
  rw [SMap.find?_slice _ (by omega)] at hr
  have hof : (s.placeRecords sp base n f).mem.of sp
      = Memory.rewrite (s.mem.of sp) base f (SMap.slice (s.mem.of sp) base (base + n)) := by cases sp <;> rfl
  unfold State.readPhys
  rw [hof, hr]
  unfold Memory.read SMap.getD
  cases SMap.find? (s.mem.of sp) (base + k) with
  | none => exact (hf k).symm
  | some b => rfl

/-- A byte outside the area is as before. -/
theorem State.readPhys_placeRecords_out (s : State) (sp : Space) {base n a : Nat} (f : Nat → Byte → Byte)
    (ha : a < base ∨ base + n ≤ a) : (s.placeRecords sp base n f).readPhys sp a = s.readPhys sp a := by
  have hof : (s.placeRecords sp base n f).mem.of sp
      = Memory.rewrite (s.mem.of sp) base f (SMap.slice (s.mem.of sp) base (base + n)) := by cases sp <;> rfl
  unfold State.readPhys
  rw [hof]
  refine Memory.read_rewrite_out f (fun c hc => ?_) _
  have := SMap.lt_of_mem_slice hc
  omega

/-- What a queue control block keeps of its bytes when it is placed (R314). -/
theorem launchPlaced_mod (k : Nat) (b : Byte) : launchPlaced (k % 64) b =
    b &&& (if k % 64 = 8 then 0x3F else if k % 64 ≤ 10 ∨ 24 ≤ k % 64 ∧ k % 64 < 32 then 0xFF else 0) := by
  have mask : ∀ o < 64, (launchField o).1 ||| (launchField o).2
      = if o = 8 then 0x3F else if o ≤ 10 ∨ 24 ≤ o ∧ o < 32 then 0xFF else 0 := by decide
  exact congrArg (b &&& ·) (mask (k % 64) (Nat.mod_lt _ (by decide)))

/-- At stage 6, a base that is a multiple of 4 KiB other than 0 enables the launch queues (R31, R314). -/
theorem exec_launchQueuesEnable {s : State} {base : DWord} (hs : s.mgmt.stage = 6) (h0 : base ≠ 0)
    (ha : base.toNat % 4096 = 0) : exec (.launchQueuesEnable base) s = .next
      (({ s with qbase := base }.placeRecords .hbm base.toNat 4096 fun k => launchPlaced (k % 64)).modMgmt fun m =>
        { m with stage := 7 }) := by
  refine if_neg fun h => ?_
  obtain h | h | h := h
  · exact h hs
  · exact h0 h
  · exact h ha

end Sys2Proof.Machine

namespace Sys2Proof.Rules

open Sys2Proof.Machine

/-- Settles O59: a reset restarts the package whatever asks for it; each step of bring-up acts at its own stage alone; the
checks of an image in R458's order; and placing the launch queues rewrites each byte of their area over itself. -/
theorem bringUpSteps : Obligations.BringUpSteps := by
  refine ⟨fun s i on hi => ⟨_, exec_restart hi, ?_⟩, fun s hp => congrArg _ (if_pos hp), fun s i n hi => exec_outOfStage hi,
    fun s hs => if_neg (not_not.2 hs), fun s f hs => ?_, fun f => ⟨?_, fun h => ?_⟩,
    fun s hs => ⟨_, if_neg (not_not.2 hs), rfl, rfl, rfl, rfl, rfl, rfl, rfl⟩,
    fun s ports routes v hs => ⟨_, if_neg (not_not.2 hs), rfl, rfl, rfl, rfl⟩, fun s base hs => ⟨?_, fun h0 ha hw => ?_⟩⟩
  · exact ⟨rfl, rfl, rfl, rfl, rfl, rfl, rfl, rfl, rfl, rfl, rfl, rfl, rfl, rfl,
      fun h => ⟨s.restarted_floors on h, fun b => s.restarted_budget on⟩⟩
  · by_cases hf : flashReason f = 0
    · simp only [hf, if_true]
      exact ⟨_, exec_firmwareVerification_verified hs hf, rfl, rfl, rfl, rfl, rfl, rfl, rfl, flashBudgets_floors f _⟩
    · simp only [hf, if_false]
      exact ⟨_, exec_firmwareVerification_failed hs hf, rfl, rfl, rfl, rfl, rfl, rfl, rfl, rfl⟩
  · refine (flashReason_eq_zero_iff f).trans ?_
    simp only [and_assoc]
    rfl
  · exact if_pos (by simpa [flashField] using Or.inl h)
  · exact fun h => if_pos (.inr h)
  · refine ⟨_, exec_launchQueuesEnable hs h0 ha, rfl, rfl, rfl, rfl, fun k hk => ?_, fun a h => ?_⟩
    · rw [← launchPlaced_mod]
      exact State.readPhys_placeRecords (s := { s with qbase := base }) (sp := .hbm) (f := fun k => launchPlaced (k % 64)) hw
        (fun k => BitVec.zero_and) hk
    · exact State.readPhys_placeRecords_out { s with qbase := base } .hbm (fun k => launchPlaced (k % 64)) h

end Sys2Proof.Rules
end

section
/-! SUPPORT. The host's accesses through its window and by coherence: what an access is served with, and what a store leaves of
the memories and the L2 (R30, R212, R339, R453, R454). -/

namespace Sys2Proof.Machine

/-! ## The L2 holds tags (R205, R212; log entry 6) -/

@[simp] theorem Memories.of_setOf (m : Memories) (sp : Space) (x : Mem) : (m.setOf sp x).of sp = x := by cases sp <;> rfl

theorem Memories.of_setOf_ne (m : Memories) (x : Mem) : ∀ {sp sp' : Space}, sp' ≠ sp → (m.setOf sp x).of sp' = m.of sp'
  | .hbm, .hbm, h | .market, .market, h | .host, .host, h => absurd rfl h
  | .hbm, .market, _ | .hbm, .host, _ | .market, .hbm, _ | .market, .host, _ | .host, .hbm, _ | .host, .market, _ => rfl

@[simp] theorem Memories.setOf_l2 (m : Memories) (sp : Space) (x : Mem) : (m.setOf sp x).l2 = m.l2 := by cases sp <;> rfl

/-- The L2's lines and the error marks may differ; the rest of the memories is the same. -/
def LinesOnly (s t : State) : Prop := ∃ q k, t.mem = { s.mem with l2 := q, marks := k }

section
variable {s t u : State}

theorem LinesOnly.of_mem (h : t.mem = s.mem) : LinesOnly s t := ⟨s.mem.l2, s.mem.marks, h⟩

theorem LinesOnly.trans (a : LinesOnly s t) (b : LinesOnly t u) : LinesOnly s u := by
  obtain ⟨q, k, ha⟩ := a
  obtain ⟨q', k', hb⟩ := b
  exact ⟨q', k', by rw [hb, ha]⟩

theorem LinesOnly.ite {c : Prop} [Decidable c] (a : LinesOnly s t) (b : LinesOnly s u) : LinesOnly s (if c then t else u) := by
  split
  · exact a
  · exact b

theorem LinesOnly.of (a : LinesOnly s t) (sp : Space) : t.mem.of sp = s.mem.of sp := by
  obtain ⟨q, k, h⟩ := a
  rw [h]
  cases sp <;> rfl

end

theorem State.crossDies_mem (s : State) (i j n : Nat) : (s.crossDies i j n).mem = s.mem := by
  unfold State.crossDies
  split <;> rfl

theorem State.l2Leaves_lines (s : State) (x : L2Line) : LinesOnly s (s.l2Leaves x) := by
  have marked (u : State) : LinesOnly u (u.modMem fun m =>
      if m.hard (.l2 x.host x.line) then
        (m.clearMark (.l2 x.host x.line)).setMark (.phys (if x.host then .host else .hbm) x.line) true
      else m.clearMark (.l2 x.host x.line)) := by
    simp only [State.modMem]
    split <;> exact ⟨_, _, rfl⟩
  have left : LinesOnly s (s.modMem fun m => { m with l2 := m.l2.filter fun y => !(y.host == x.host && y.line == x.line) }) :=
    ⟨_, _, rfl⟩
  have home (u : State) : LinesOnly u (if x.dirty && !x.host then
      (u.countDie (hbmStack (128 * x.line) / 2) 0x44 1).crossDies (x.slice / 32) (hbmStack (128 * x.line) / 2) 128 else u) :=
    LinesOnly.ite (.of_mem (State.crossDies_mem ..)) (.of_mem rfl)
  exact (left.trans (home _)).trans (LinesOnly.ite (.of_mem rfl) (marked _))

theorem State.touchL2_lines (s : State) (host : Bool) (pa : Nat) (write : Bool) : LinesOnly s (s.touchL2 host pa write) := by
  unfold State.touchL2
  dsimp only
  split
  · exact ⟨_, _, rfl⟩
  · have room : LinesOnly s (match s.mem.l2Victim (homeSlice pa) with | none => s | some x => s.l2Leaves x) := by
      split
      · exact .of_mem rfl
      · exact s.l2Leaves_lines _
    have filled (u : State) : LinesOnly u
        ((u.modMem fun m => { m with l2 := ⟨host, pa / 128, write⟩ :: m.l2 }).countDie (homeSlice pa / 32) 0x42 1) := ⟨_, _, rfl⟩
    exact room.trans ((filled _).trans (LinesOnly.ite (.of_mem rfl) (.of_mem ((State.crossDies_mem ..).trans rfl))))

/-- A write of a line leaves it in its slice, modified (R212). -/
theorem State.touchL2_modified (s : State) (host : Bool) (pa : Nat) :
    ∃ x ∈ (s.touchL2 host pa true).mem.l2, x.host = host ∧ x.line = pa / 128 ∧ x.dirty = true := by
  unfold State.touchL2
  dsimp only
  split
  · next x hx =>
    have hfound := List.find?_some hx
    simp only [Bool.and_eq_true, beq_iff_eq] at hfound
    exact ⟨_, List.mem_cons_self, hfound.1, hfound.2, Bool.or_true _⟩
  · refine ⟨⟨host, pa / 128, true⟩, ?_, rfl, rfl, rfl⟩
    split
    · exact List.mem_cons_self
    · rw [State.crossDies_mem]
      exact List.mem_cons_self

/-! ## A store of the host at its point of coherence (R211, R212, R453) -/

theorem State.hostHome_lines (s : State) (sp : Space) (a : Nat) : LinesOnly s (s.hostHome sp a) := by
  cases sp with
  | hbm => exact LinesOnly.ite (s.touchL2_lines ..) (.of_mem rfl)
  | market => exact .of_mem rfl
  | host => exact .of_mem rfl

theorem State.hostHome_looms (s : State) (sp : Space) (a : Nat) : (s.hostHome sp a).looms = s.looms := by
  cases sp with
  | hbm =>
    unfold State.hostHome
    dsimp only
    split
    · exact s.touchL2_looms ..
    · rfl
  | market => rfl
  | host => rfl

/-- A store of the host: its line or bank, then its bytes, then the mark of a unit that it writes whole. -/
theorem State.hostWrite_mem (s : State) (sp : Space) (a : Nat) (data : List Byte) :
    let m := (s.hostHome sp a).mem.setOf sp (Memory.writeBytes (s.mem.of sp) a (s.hostFielded sp a data))
    (s.hostWrite sp a data).mem = if (markOf sp a).bytes ≤ data.length then m.clearMark (markOf sp a) else m := by
  rw [← (s.hostHome_lines sp a).of sp]
  unfold State.hostWrite
  dsimp only
  split <;> rfl

theorem State.hostWrite_of (s : State) (sp : Space) (a : Nat) (data : List Byte) :
    (s.hostWrite sp a data).mem.of sp = Memory.writeBytes (s.mem.of sp) a (s.hostFielded sp a data) := by
  have clear (m : Memories) (e : ErrAt) : (m.clearMark e).of sp = m.of sp := by cases sp <;> rfl
  rw [hostWrite_mem]
  split
  · rw [clear, Memories.of_setOf]
  · rw [Memories.of_setOf]

theorem State.hostWrite_of_ne (s : State) {sp sp' : Space} (a : Nat) (data : List Byte) (h : sp' ≠ sp) :
    (s.hostWrite sp a data).mem.of sp' = s.mem.of sp' := by
  have clear (m : Memories) (e : ErrAt) : (m.clearMark e).of sp' = m.of sp' := by cases sp' <;> rfl
  rw [hostWrite_mem]
  split
  · rw [clear, Memories.of_setOf_ne _ _ h, (s.hostHome_lines sp a).of]
  · rw [Memories.of_setOf_ne _ _ h, (s.hostHome_lines sp a).of]

theorem State.hostWrite_l2 (s : State) (sp : Space) (a : Nat) (data : List Byte) :
    (s.hostWrite sp a data).mem.l2 = (s.hostHome sp a).mem.l2 := by
  rw [hostWrite_mem]
  split
  · exact Memories.setOf_l2 ..
  · exact Memories.setOf_l2 ..

theorem State.hostWrite_looms (s : State) (sp : Space) (a : Nat) (data : List Byte) :
    (s.hostWrite sp a data).looms = s.looms := by
  unfold State.hostWrite
  dsimp only
  split <;> exact s.hostHome_looms sp a

/-- A cleared mark is no error. -/
theorem Memories.hard_clearMark (m : Memories) (e : ErrAt) : (m.clearMark e).hard e = false := by
  have none : (m.marks.filter fun p => p.1 != e).find? (fun p => p.1 == e) = none := by
    rw [List.find?_eq_none]
    intro p hp
    simpa using (List.mem_filter.1 hp).2
  unfold Memories.hard Memories.markAt Memories.clearMark
  rw [none]
  rfl

/-- A unit that the host writes whole is in error no longer (R211, R215). -/
theorem State.hostWrite_hard (s : State) (sp : Space) (a : Nat) {data : List Byte} (h : (markOf sp a).bytes ≤ data.length) :
    (s.hostWrite sp a data).mem.hard (markOf sp a) = false := by
  rw [hostWrite_mem, if_pos h]
  exact Memories.hard_clearMark ..

theorem State.hostFielded_of_none (s : State) (sp : Space) (a : Nat) (data : List Byte) (h : s.devBlocks = []) :
    s.hostFielded sp a data = data := by
  unfold State.hostFielded
  rw [h]
  rfl

/-! ## Loads and stores through the window (R453, R454) -/

/-- An access of the host is served: its size and alignment are R453's, and the link is up. -/
def State.hostServes (s : State) (off n : Nat) : Prop :=
  (n = 1 ∨ n = 2 ∨ n = 4 ∨ n = 8) ∧ off % n = 0 ∧ s.mgmt.linkUp = true

section
variable {s : State} {off n : Nat} {data : List Byte}

theorem State.hostServes_iff : s.hostServes off n ↔ hostSize off n = true ∧ s.mgmt.linkUp = true := by
  simp only [State.hostServes, hostSize, Bool.and_eq_true, Bool.or_eq_true, beq_iff_eq, and_assoc, or_assoc]

theorem State.hostServes.pos (h : s.hostServes off n) : 0 < n := by
  obtain ⟨hn, -, -⟩ := h
  omega

theorem exec_hostLoad_refused (h : ¬ s.hostServes off n) : exec (.hostLoad off n) s = .next s :=
  if_neg fun hb => h (State.hostServes_iff.2 (by simpa using hb))

/-- A load that does not wait answers with the bytes at its offset. -/
theorem exec_hostLoad_answers (h : s.hostServes off n) (hb : ¬ (off < marketOff ∧ s.blockBusy (off / 4096) = true)) :
    exec (.hostLoad off n) s = .next { s with outbox := s.outbox ++ [Out.hostData (BitVec.ofNat 64 (leValue
      ((List.range n).map fun k => s.hostByte (off + k))))] } :=
  (if_pos (by simpa using State.hostServes_iff.1 h)).trans (if_neg hb)

theorem exec_hostLoad_waits (h : s.hostServes off n) (ho : off < marketOff) (hb : s.blockBusy (off / 4096) = true) :
    exec (.hostLoad off n) s = .next (s.request [hostRequest .hostLoad off n 0]) :=
  (if_pos (by simpa using State.hostServes_iff.1 h)).trans (if_pos ⟨ho, hb⟩)

theorem hostBytes_hbm (h : off + n ≤ 2 ^ 39) :
    ((List.range n).map fun k => s.hostByte (off + k)) = (List.range n).map fun k => s.readPhys .hbm (off + k) := by
  refine List.map_congr_left fun k hk => if_pos ?_
  have := List.mem_range.1 hk
  unfold marketOff
  omega

theorem hostBytes_market (h : 2 ^ 39 ≤ off) (he : off + n ≤ 2 ^ 39 + 2 ^ 28) : ((List.range n).map fun k => s.hostByte (off + k))
    = (List.range n).map fun k => s.readPhys .market (off - 2 ^ 39 + k) := by
  refine List.map_congr_left fun k hk => ?_
  have := List.mem_range.1 hk
  unfold State.hostByte marketOff regOff
  rw [if_neg (by omega), if_pos (by omega), Nat.sub_add_comm h]

theorem exec_hostStore_refused (h : ¬ s.hostServes off data.length) : exec (.hostStore off data) s = .next s := by
  refine if_pos ?_
  rw [State.hostServes_iff, not_and_or] at h
  simpa using h

/-- What a store that is served does lies with its offset (R453). -/
theorem exec_hostStore_served (h : s.hostServes off data.length) : exec (.hostStore off data) s =
    if off < marketOff then
      .next (if s.blockBusy (off / 4096) then s.request [hostRequest .hostStore off data.length (leValue data)]
        else s.hostWrite .hbm off data)
    else if off < regOff then .next (s.hostWrite .market (off - marketOff) data)
    else if off < regOff + 2 ^ 20 then s.hostRegWrite (off - regOff) data
    else .next s := by
  obtain ⟨hsize, hlink⟩ := State.hostServes_iff.1 h
  exact if_neg (by simp [hsize, hlink])

theorem exec_hostStore_hbm (h : s.hostServes off data.length) (ho : off < 2 ^ 39) : exec (.hostStore off data) s =
    .next (if s.blockBusy (off / 4096) then s.request [hostRequest .hostStore off data.length (leValue data)]
      else s.hostWrite .hbm off data) := (exec_hostStore_served h).trans (if_pos ho)

theorem exec_hostStore_market (h : s.hostServes off data.length) (ho : 2 ^ 39 ≤ off) (he : off < 2 ^ 39 + 2 ^ 28) :
    exec (.hostStore off data) s = .next (s.hostWrite .market (off - 2 ^ 39) data) :=
  (exec_hostStore_served h).trans ((if_neg (by unfold marketOff; omega)).trans (if_pos he))

/-- RSTREQ takes the reset's value (R463). -/
theorem exec_hostStore_reset (h : s.hostServes off data.length) (ho : off = 2 ^ 39 + 2 ^ 28 + 8) (hn : 2 ≤ data.length)
    (hv : leValue data % 2 ^ 16 = 0xB0C5) : exec (.hostStore off data) s = exec .resetRequest s := by
  subst ho
  rw [exec_hostStore_served h, if_neg (by decide), if_neg (by decide), if_pos (by decide)]
  exact (if_pos ⟨rfl, hn⟩).trans (if_pos hv)

theorem exec_hostStore_beyond (h : s.hostServes off data.length) (ho : 2 ^ 39 + 2 ^ 28 + 2 ^ 20 ≤ off) :
    exec (.hostStore off data) s = .next s := by
  rw [exec_hostStore_served h, if_neg (by unfold marketOff; omega), if_neg (by unfold regOff; omega),
    if_neg (by unfold regOff; omega)]

end

/-! ## Coherence and the link (R30, R212, R454) -/

theorem exec_hostCoherence_refused {s : State} {b : List Byte} (line : Nat) (h : b.length ≠ 128 ∨ s.mgmt.linkUp = false) :
    exec (.hostCoherenceRequest line (some b)) s = .next s := by
  refine if_pos ?_
  simp only [Bool.not_eq_true']
  tauto

/-- A line that the host takes to write: its bytes are the host's, and no slice holds it. -/
theorem exec_hostCoherence_takes {s : State} {line : Nat} {b : List Byte} (hb : b.length = 128) (hl : s.mgmt.linkUp = true)
    (hm : line * 128 < Config.hostBytes) : ∃ t, exec (.hostCoherenceRequest line (some b)) s = .next t
      ∧ t.mem.host = Memory.writeBytes s.mem.host (line * 128) (s.hostFielded .host (line * 128) b)
      ∧ (∀ x ∈ t.mem.l2, ¬ (x.host = true ∧ x.line = line)) ∧ t.looms = s.looms := by
  have served : ¬ (b.length ≠ 128 ∨ line * 128 ≥ Config.hostBytes ∨ (!s.mgmt.linkUp) = true) := by
    simpa [hb, hl] using hm
  refine ⟨_, if_neg served, s.hostWrite_of .host (line * 128) b, fun x hx hline => ?_, s.hostWrite_looms ..⟩
  have := (List.mem_filter.1 hx).2
  simp [hline] at this

end Sys2Proof.Machine
end

section
/-! SUPPORT. The activities of the management controller and its registers: periods, power, scrubbing, migration, soft errors and
error counters (R190, R217, R362, R365, R409, R410, R412, R462 to R466). -/

namespace Sys2Proof.Machine

/-! ## Power, temperature and budgets (R409, R410, R464) -/

theorem State.tripNow_mgmt (s : State) :
    s.tripNow.mgmt = { s.mgmt with trip := true, wh := if s.mgmt.trip then s.mgmt.wh else 64 } := by
  unfold State.tripNow
  split
  · next h => exact congrArg (fun b => { s.mgmt with trip := b }) h
  · rfl

/-- Withheld cycles before a trip of this period: one more while a limit is passed, one fewer while none is (R464). -/
def Mgmt.withholds (m : Mgmt) (pw hot : Nat) : Nat :=
  if m.trip then 64 else if m.plim < pw ∨ m.tlim ≤ hot ∨ m.flow = true then min 64 (m.wh + 1) else m.wh - 1

theorem Mgmt.withholds_high {m : Mgmt} {pw hot : Nat} (ht : m.trip = false) (h : m.plim < pw ∨ m.tlim ≤ hot ∨ m.flow = true) :
    m.withholds pw hot = min 64 (m.wh + 1) := (if_neg (by simp [ht])).trans (if_pos h)

theorem Mgmt.withholds_low {m : Mgmt} {pw hot : Nat} (ht : m.trip = false)
    (h : ¬ (m.plim < pw ∨ m.tlim ≤ hot ∨ m.flow = true)) : m.withholds pw hot = m.wh - 1 :=
  (if_neg (by simp [ht])).trans (if_neg h)

theorem Mgmt.withholds_tripped {m : Mgmt} (pw hot : Nat) (ht : m.trip = true) : m.withholds pw hot = 64 := if_pos ht

/-- What the end of a period leaves of the management registers (R464). -/
theorem State.powerUpdate_mgmt (s : State) (pw : BitVec 16) (temps : List (BitVec 12)) :
    (s.powerUpdate pw temps).mgmt = { s.mgmt with
      pw := pw.toNat, temps := (temps ++ List.replicate 4 0).take 4, tmax := hottest temps
      wh := if 115 ≤ hottest temps then 64 else s.mgmt.withholds pw.toNat (hottest temps)
      trip := s.mgmt.trip || decide (115 ≤ hottest temps) } := by
  have same : (if s.mgmt.trip then 64
      else if pw.toNat > s.mgmt.plim || hottest temps ≥ s.mgmt.tlim || s.mgmt.flow then min 64 (s.mgmt.wh + 1) else s.mgmt.wh - 1)
        = s.mgmt.withholds pw.toNat (hottest temps) := by
    simp [Mgmt.withholds, or_assoc]
  unfold State.powerUpdate
  dsimp only
  rw [same]
  by_cases hot : 115 ≤ hottest temps
  · rw [if_pos hot, if_pos hot, State.tripNow_mgmt]
    by_cases ht : s.mgmt.trip = true
    · simp [State.modMgmt, hot, ht, Mgmt.withholds_tripped _ _ ht]
    · simp [State.modMgmt, hot, ht]
  · rw [if_neg hot, if_neg hot]
    simp [State.modMgmt, hot]

theorem State.periodReload_now (s : State) : ∀ b ∈ s.periodReload.mgmt.budgets, b.now = b.budget := by
  intro b hb
  obtain ⟨c, -, rfl⟩ := List.mem_map.1 hb
  rfl

/-- A write of an element that is there. -/
theorem modAt_of_some {α : Type} {l : List α} {i : Nat} {x : α} (f : α → α) (h : l[i]? = some x) :
    modAt l i f = l.set i (f x) := by
  simp [modAt, List.modify_eq_set_getElem?, h]

/-- A write of a budget or of a floor that is there (R409). -/
theorem exec_budgetWrite {s : State} {k : Nat} {b : Budget} (v : BitVec 16) (floor : Bool) (h : s.mgmt.budgets[k]? = some b) :
    exec (.budgetWrite k v floor) s = .next { s with mgmt := { s.mgmt with
      budgets := s.mgmt.budgets.set k (if floor then b.setFloor v.toNat else b.write v.toNat) } } := by
  have written := modAt_of_some (fun b => if floor then b.setFloor v.toNat else b.write v.toNat) h
  exact congrArg (fun bs => Host.Outcome.next { s with mgmt := { s.mgmt with budgets := bs } }) written

/-- A die's trip latches: every cycle is withheld, and the board is asked to turn the power off (R464). -/
theorem exec_thermalTrip {s : State} {die : Nat} (h : die < 4) : ∃ t, exec (.thermalTrip die) s = .next t
    ∧ t.mgmt.trip = true ∧ 115 ≤ t.mgmt.tmax
    ∧ (s.mgmt.trip = false → t.mgmt.wh = 64 ∧ t.outbox = s.outbox ++ [Out.powerOffRequest]) := by
  refine ⟨_, if_pos h, ?_, ?_, fun ht => ?_⟩
  · rw [State.tripNow_mgmt]
  · rw [State.tripNow_mgmt]
    exact le_max_right ..
  · unfold State.tripNow
    rw [if_neg (by simp [ht])]
    exact ⟨rfl, rfl⟩

/-! ## Scrubbing (R217) -/

theorem exec_memoryScrub_held {s : State} {a : Nat} (h : a ≠ s.mgmt.scrubAt ∨ s.unheld 5 (hbmStack a) = false) :
    exec (.memoryScrub a) s = .next s := if_pos (by simpa using h)

/-- The mark of a scrubbed line is counted, and cleared where its error is corrected. -/
def State.scrubMark (s : State) (a : Nat) : State :=
  match s.mem.markAt (markOf .hbm a) with
  | some false =>
    let (die, k) := errCounter .hbm a false
    (((s.modMem fun m => m.clearMark (markOf .hbm a)).dieError die k).countDie die 0x4C 1).countDie die 0x44 1
  | some true =>
    let (die, k) := errCounter .hbm a true
    (s.dieError die k).countDie die 0x4D 1
  | none => s

theorem State.scrubMark_hbm (s : State) (a : Nat) : (s.scrubMark a).mem.hbm = s.mem.hbm := by
  unfold State.scrubMark
  split <;> rfl

theorem State.scrubMark_of_unmarked {s : State} {a : Nat} (h : s.mem.markAt (markOf .hbm a) = none) : s.scrubMark a = s := by
  unfold State.scrubMark
  rw [h]

/-- The line scrubbed, and what that counts (R405, R409). -/
def State.scrubbed (s : State) (a : Nat) : State :=
  ((s.scrubMark a).busy 5 (hbmStack a)).countDie (hbmStack a / 2) 0x43 1

theorem State.scrubbed_of_unmarked {s : State} {a : Nat} (h : s.mem.markAt (markOf .hbm a) = none) :
    (s.scrubbed a).mem = s.mem := by
  change (s.scrubMark a).mem = s.mem
  rw [State.scrubMark_of_unmarked h]

theorem State.dieErrors_mem (ds : List Nat) (k : Nat) (s : State) : (ds.foldl (fun s d => s.dieError d k) s).mem = s.mem := by
  induction ds generalizing s with
  | nil => rfl
  | cons d ds ih => exact ih (s.dieError d k)

/-- A line is scrubbed and the next is due; after the last, a pass is counted on every die (R412). -/
theorem exec_memoryScrub_scrubs {s : State} {a : Nat} (ha : a = s.mgmt.scrubAt) (hu : s.unheld 5 (hbmStack a) = true) :
    ∃ t, exec (.memoryScrub a) s = .next t ∧ t.mem = (s.scrubbed a).mem
      ∧ t.mgmt.scrubAt = if a + 128 < Config.hbmBytes then a + 128 else 0 := by
  have due : ¬ (a ≠ s.mgmt.scrubAt ∨ (!s.unheld 5 (hbmStack a)) = true) := by simp [← ha, hu]
  have run : exec (.memoryScrub a) s =
      if a + 128 < Config.hbmBytes then .next ((s.scrubbed a).modMgmt fun m => { m with scrubAt := a + 128 })
      else .next (((List.range 4).foldl (fun s d => s.dieError d scrubCounter) (s.scrubbed a)).modMgmt fun m =>
        { m with scrubAt := 0 }) := if_neg due
  rw [run]
  split
  · exact ⟨_, rfl, rfl, rfl⟩
  · exact ⟨_, rfl, State.dieErrors_mem .., rfl⟩

/-! ## Sampling (R408) -/

/-- Where the next sample goes: the buffer's samples in turn (log entry 19). -/
def State.sampleAt (s : State) : Nat :=
  (s.mgmt.settings.sampleBase.toNat + 16384 * (s.mgmt.samples % (s.mgmt.settings.sampleSize.toNat / 16384))) % Config.hbmBytes

theorem exec_eventSampling {s : State} (h : s.mgmt.settings.sampleSize.toNat / 16384 ≠ 0) (hu : s.unheld 6 0 = true) :
    exec .eventSampling s = .next
      (((s.modMem fun m => { m with hbm := Memory.writeBytes m.hbm s.sampleAt s.sample }).modMgmt fun m =>
        { m with samples := m.samples + 1 }).busy 6 0) := if_neg (by simp [h, hu])

/-! ## Migration (R365) -/

/-- The base die whose copier moves a page. -/
def migrationDie (x : Leaf) : Nat :=
  match x.space with
  | .market => marketBank (ptePpn x.pte * 2 ^ 19) / 64
  | .hbm => hbmStack (ptePpn x.pte * 2 ^ 19) / 2
  | .host => 0

/-- What holds the copy of a leaf's page (R365, R409). -/
def State.migrationHeld (s : State) (ctx : Nat) (x : Leaf) (ppn : Nat) : Bool :=
  let n := 2 ^ levelShift x.level
  let src := ptePpn x.pte * 2 ^ 19
  pteResident x.pte || x.space == .host || src + n > x.space.bytes || ppn * 2 ^ 19 + n > x.space.bytes
    || s.mem.pending.any (fun p => x.space == .hbm && src ≤ p.2.block * 4096 && p.2.block * 4096 < src + n)
    || s.invs.any (fun v => v.ctx == ctx) || !s.unheld 2 (migrationDie x)

theorem State.migrationHeld_eq_false_iff (s : State) (ctx : Nat) (x : Leaf) (ppn : Nat) : s.migrationHeld ctx x ppn = false ↔
    let n := 2 ^ levelShift x.level
    let src := ptePpn x.pte * 2 ^ 19
    pteResident x.pte = false ∧ x.space ≠ .host ∧ src + n ≤ x.space.bytes ∧ ppn * 2 ^ 19 + n ≤ x.space.bytes
      ∧ (∀ p ∈ s.mem.pending, x.space = .hbm → ¬ (src ≤ p.2.block * 4096 ∧ p.2.block * 4096 < src + n))
      ∧ (∀ v ∈ s.invs, v.ctx ≠ ctx) ∧ s.unheld 2 (migrationDie x) = true := by
  simp [State.migrationHeld, and_assoc]

theorem exec_migrationCopy_none {s : State} {ctx : BitVec 16} {va : Nat} (ppn : Nat) (h : s.currentLeaf ctx.toNat va = none) :
    exec (.migrationCopy ctx va ppn) s = .next s := by
  change execMigrationCopy ctx va ppn s = _
  unfold execMigrationCopy
  rw [h]

/-- The copy of a page whose leaf is valid. -/
theorem exec_migrationCopy_some {s : State} {ctx : BitVec 16} {va : Nat} {x : Leaf} (ppn : Nat)
    (h : s.currentLeaf ctx.toNat va = some x) : exec (.migrationCopy ctx va ppn) s =
      if s.migrationHeld ctx.toNat x ppn then .next s
      else
        let n := 2 ^ levelShift x.level
        let src := ptePpn x.pte * 2 ^ 19
        let dst := ppn * 2 ^ 19
        .next ((((s.leaveLines x.space src n).modMem fun m => m.copyPage x.space src dst n).busy 2 (migrationDie x)).countCopied
          x.space src dst n) := by
  change execMigrationCopy ctx va ppn s = _
  unfold execMigrationCopy
  rw [h]
  rfl

/-! ## Soft errors (R119, R190) -/

theorem exec_softError_place {s : State} {loc : ErrLoc} (u : Bool) (h : ∀ l k r j, loc ≠ .reg l k r j) :
    exec (.softError loc u) s = .next ((s.softPlace loc).elim s fun e => s.modMem fun m => m.setMark e (u || m.hard e)) := by
  change execSoftError loc u s = _
  unfold execSoftError
  split
  · exact (h _ _ _ _ rfl).elim
  · cases s.softPlace loc <;> rfl

/-- A sound lane of a register is damaged beyond correction, or within it (R119). -/
theorem exec_softError_reg {s : State} {l k j : Nat} {r : Reg} {w : Weft} (u : Bool) (hw : s.weft? l k = some w) (hj : j < 32)
    (hr : r ≠ 255) (hp : w.poison = []) (hs : w.soft = []) :
    exec (.softError (.reg l k r j) u) s = .next (s.setWeft l k
      (if u then { w with poison := [(regKey r j, false)] } else { w with soft := [regKey r j] })) := by
  have sound : ¬ (j ≥ 32 ∨ r = 255 ∨ (SMap.find? w.poison (regKey r j)).isSome = true) := by
    rw [hp]
    rintro (h | h | h)
    · omega
    · exact hr h
    · cases h
  refine congrArg _ ((State.modWeft_eq _ hw).trans (congrArg _ ?_))
  dsimp only
  rw [if_neg sound, hp, hs]
  cases u <;> rfl

/-! ## The event queue block (R339) -/

theorem Evq.write_byHost (q : Evq) {k : Nat} (v : DWord) (h : k ≠ 3) : q.write k v true = q := if_pos (by simpa using h)

/-- A length within R339's limits is taken as it is. -/
theorem Evq.write_elog (q : Evq) {v : DWord} (h6 : 6 ≤ v.toNat % 32) (h20 : v.toNat % 32 ≤ 20) :
    q.write 1 v false = { q with elog := v.toNat % 32, el := 0 } := by
  change ({ q with elog := if v.toNat % 32 = 0 then 0 else if v.toNat % 32 ≤ 5 then 6 else if v.toNat % 32 ≥ 21 then 20
    else v.toNat % 32, el := 0 } : Evq) = _
  rw [if_neg (by omega), if_neg (by omega), if_neg (by omega)]

/-! ## Registers that have no step of their own (R412, R464, R466) -/

/-- A field of bits as a quotient and a remainder. -/
theorem bf_eq_mod {n : Nat} (x : BitVec n) (hi lo : Nat) : bf x hi lo = x.toNat / 2 ^ lo % 2 ^ (hi + 1 - lo) := by
  simp [bf, Nat.shiftRight_eq_div_pow]

/-- The power and temperature limits, within R464's bounds. -/
theorem exec_writePwrlim (s : State) (v : DWord) : exec (.managementRegisterWrite 0x100 v) s =
    .next { s with mgmt := { s.mgmt with
      plim := min 3800 (v.toNat % 2 ^ 12),
      tlim := if 60 ≤ v.toNat / 2 ^ 16 % 256 ∧ v.toNat / 2 ^ 16 % 256 ≤ 105 then v.toNat / 2 ^ 16 % 256 else 105 } } := by
  have power : bf v 11 0 = v.toNat % 2 ^ 12 := by rw [bf_eq_mod, pow_zero, Nat.div_one]
  have heat : bf v 23 16 = v.toNat / 2 ^ 16 % 256 := bf_eq_mod v 23 16
  rw [← power, ← heat]
  rfl

/-- A context command that is none is refused with status 3 (R455). -/
theorem exec_writeCtxCommand_unknown {s : State} {v : DWord} (h : 4 < v.toNat) (hs : s.mgmt.ctxStatus ≠ 0x80) :
    exec (.managementRegisterWrite 0x8028 v) s = .next
      { s with mgmt := { s.mgmt with ctxCommand := v.toNat, ctxStatus := 3 } } := by
  change s.ctxCommand v.toNat = _
  obtain ⟨k, hk⟩ : ∃ k, v.toNat = k + 5 := ⟨v.toNat - 5, by omega⟩
  rw [hk]
  exact if_neg hs

theorem exec_writeCtxCommand_create {s : State} {v : DWord} (h : v.toNat = 1) (hs : s.mgmt.ctxStatus ≠ 0x80) :
    exec (.managementRegisterWrite 0x8028 v) s = exec (.contextCreate s.mgmt.ctxDesc) s := by
  change s.ctxCommand v.toNat = _
  rw [h]
  exact if_neg hs

theorem low32_eq (v : DWord) : v.extractLsb' 0 32 = BitVec.ofNat 32 v.toNat := by
  apply BitVec.eq_of_toNat_eq
  simp

/-- A seed of 0 is taken as 1 (R466). -/
theorem exec_writeSeed (s : State) (v : DWord) :
    let seed : Word := if v.toNat % 2 ^ 32 = 0 then 1 else BitVec.ofNat 32 v.toNat
    exec (.managementRegisterWrite 0x2000 v) s = .next { s with
      mgmt := { s.mgmt with settings := { s.mgmt.settings with seed := seed } }, dist := { s.dist with x := seed } } := by
  have zero : BitVec.ofNat 32 v.toNat = 0 ↔ v.toNat % 2 ^ 32 = 0 := by
    rw [← BitVec.toNat_inj]
    simp
  have seed : (if v.extractLsb' 0 32 = 0 then 1 else v.extractLsb' 0 32)
      = (if v.toNat % 2 ^ 32 = 0 then 1 else BitVec.ofNat 32 v.toNat : Word) := by
    simp only [low32_eq, zero]
  exact congrArg (fun x : Word => Host.Outcome.next { s with
    mgmt := { s.mgmt with settings := { s.mgmt.settings with seed := x } }, dist := { s.dist with x := x } }) seed

/-- The nearest multiple of 4 KiB, the higher of two (R466; log entry 20). -/
theorem nearest4k_nearest {v : DWord} (h : v.toNat < 2 ^ 64 - 2048) :
    ∃ b, b % 4096 = 0 ∧ b ≤ v.toNat + 2048 ∧ v.toNat < b + 2048 ∧ nearest4k v = BitVec.ofNat 64 b := by
  refine ⟨(v.toNat + 2048) / 4096 * 4096, by omega, by omega, by omega, ?_⟩
  unfold nearest4k
  rw [min_eq_left (by omega)]

theorem SMap.getD_del_ne {α : Type} (m : List (Nat × α)) {k j : Nat} (d : α) (h : k ≠ j) :
    SMap.getD (SMap.del m k) j d = SMap.getD m j d := by
  unfold SMap.getD
  rw [SMap.find?_del_ne m h]

/-- A write to an error counter's register clears it (R412). -/
theorem exec_clearErrcnt (s : State) {k : Nat} (v : DWord) (h : k < 519) :
    exec (.managementRegisterWrite (0x6000 + 4 * k) v) s = .next (s.clearErrcnt k) := by
  change execManagementRegisterWrite (0x6000 + 4 * k) v s = _
  unfold execManagementRegisterWrite
  rw [if_neg (by omega), if_neg (by omega), if_pos (by omega), show (0x6000 + 4 * k - 0x6000) / 4 = k by omega]

theorem State.errcnt_clearErrcnt_self (s : State) (k : Nat) : (s.clearErrcnt k).errcnt k = 0 := by
  unfold State.errcnt State.clearErrcnt
  by_cases hd : k < 512
  · simp [hd, SMap.getD]
  · simp [hd, SMap.getD]

theorem State.errcnt_clearErrcnt_ne (s : State) {k j : Nat} (h : j ≠ k) : (s.clearErrcnt k).errcnt j = s.errcnt j := by
  unfold State.errcnt State.clearErrcnt
  by_cases hk : k < 512
  · have key : 1024 * (k / 128) + k % 128 ≠ 1024 * (j / 128) + j % 128 := by omega
    rw [if_pos hk, State.modMgmt_mgmt, SMap.getD_del_ne _ _ key]
    rfl
  · rw [if_neg hk, State.modLoom_mgmt, State.loom_modLoom]
    by_cases hj : j < 512
    · rw [if_pos hj, if_pos hj]
    · have key : k - 512 ≠ j - 512 := by omega
      rw [SMap.getD_del_ne _ _ key]

end Sys2Proof.Machine
end

section
/-! SUPPORT. The host's accesses, the activities and the registers as a whole (R30, R190, R217, R339, R362, R365, R408 to R412,
R453 to R466). -/

namespace Sys2Proof.Rules

open Sys2Proof.Machine

/-- Settles O60: what the window, a period, the scrubber, the copier, the samples, a soft error and each register do is said
once by the lemmas above; the clauses are their cases. -/
theorem managementSteps : Obligations.ManagementSteps := by
  refine ⟨fun s off n => ⟨exec_hostLoad_refused, fun hok he hb => ?_, fun hok he hb => ?_, fun hok ho he => ?_⟩,
    fun s off data => ⟨exec_hostStore_refused, fun sp a => s.hostFielded_of_none sp a data, fun hok ho hb => ?_,
      fun hok ho hb => ?_, fun hok ho he => ?_, exec_hostStore_reset, exec_hostStore_beyond⟩,
    fun s line => ⟨rfl, fun b => ⟨exec_hostCoherence_refused line, exec_hostCoherence_takes⟩⟩,
    fun s => ⟨fun h => if_pos h, fun h => if_neg (Nat.not_le.2 h)⟩,
    fun s pw temps => ⟨fun h => if_neg (by simp [h]), fun h => ?_⟩,
    fun s die => ⟨fun h => if_neg (Nat.not_lt.2 h), exec_thermalTrip⟩, fun s f l => rfl,
    fun s k v b hb => ⟨exec_budgetWrite v false hb, exec_budgetWrite v true hb⟩,
    fun s a => ⟨exec_memoryScrub_held, fun ha hu => ?_⟩,
    fun s ctx va ppn => ⟨exec_migrationCopy_none ppn, fun x hx => ?_⟩, fun s => ⟨fun h => ?_, fun h0 hu => ?_⟩,
    fun s loc u hloc => ?_, fun s l k r j w hw hj hr hp hs =>
      ⟨exec_softError_reg true hw hj hr hp hs, exec_softError_reg false hw hj hr hp hs⟩,
    fun s v => ⟨rfl, rfl, rfl, fun h6 h20 => ?_, fun k hk => ?_⟩,
    fun s ctx m va n => ⟨_, rfl, rfl, rfl, rfl, rfl, rfl⟩, fun s nonce => rfl, fun s => rfl,
    fun s x => ⟨fun h => if_pos h, fun h => if_neg (Nat.not_lt.2 h)⟩,
    fun s v => ⟨exec_writePwrlim s v, fun h => ?_, fun h => ?_, rfl, rfl, rfl, fun h => ?_, rfl, exec_writeCtxCommand_create,
      exec_writeCtxCommand_unknown, fun k hk => ?_⟩⟩
  -- the window
  · rw [← hostBytes_hbm he]
    exact exec_hostLoad_answers hok (by simp [hb])
  · have hn := State.hostServes.pos hok
    exact exec_hostLoad_waits hok (by unfold marketOff; omega) hb
  · rw [← hostBytes_market ho he]
    exact exec_hostLoad_answers hok (by unfold marketOff; omega)
  · refine ⟨_, (exec_hostStore_hbm hok ho).trans (congrArg _ (if_neg (by simp [hb]))), s.hostWrite_of .hbm off data,
      s.hostWrite_of_ne (sp' := .market) off data (by decide), s.hostWrite_looms .., fun hmeta => ?_⟩
    rw [State.hostWrite_l2, State.hostHome, if_pos hmeta]
    exact s.touchL2_modified false off
  · exact (exec_hostStore_hbm hok ho).trans (congrArg _ (if_pos hb))
  · exact ⟨_, exec_hostStore_market hok ho he, s.hostWrite_of .market _ data, s.hostWrite_of_ne (sp' := .hbm) _ data (by decide),
      s.hostWrite_looms .., fun hn => s.hostWrite_hard .market _ hn.ge⟩
  -- the end of a period
  · have hm := s.powerUpdate_mgmt pw temps
    have hwh := congrArg Mgmt.wh hm
    have htrip := congrArg Mgmt.trip hm
    refine ⟨_, if_pos h, State.periodReload_now _, rfl, congrArg Mgmt.pw hm, congrArg Mgmt.tmax hm, fun ht hc hh => ?_,
      fun ht hc hl => ?_, fun ht => ⟨?_, htrip.trans (by simp [ht])⟩,
      fun hc => ⟨htrip.trans (by simp [hc]), hwh.trans (if_pos hc)⟩⟩
    · exact hwh.trans ((if_neg (Nat.not_le.2 hc)).trans (Mgmt.withholds_high ht hh))
    · exact hwh.trans ((if_neg (Nat.not_le.2 hc)).trans (Mgmt.withholds_low ht hl))
    · exact hwh.trans (by rw [Mgmt.withholds_tripped _ _ ht, ite_self])
  -- scrubbing
  · obtain ⟨t, ht, hm, hd⟩ := exec_memoryScrub_scrubs ha hu
    exact ⟨t, ht, (congrArg Memories.hbm hm).trans (s.scrubMark_hbm a), hd, fun h => hm.trans (State.scrubbed_of_unmarked h)⟩
  -- migration
  · have held := s.migrationHeld_eq_false_iff ctx.toNat x ppn
    refine ⟨fun hr => ?_, fun hr => ?_⟩
    · rw [exec_migrationCopy_some ppn hx, held.2 hr]
      rfl
    · rw [exec_migrationCopy_some ppn hx, eq_true_of_ne_false (mt held.1 hr)]
      rfl
  -- sampling
  · exact if_pos (by simpa using h)
  · refine ⟨_, exec_eventSampling h0 hu, ?_, rfl⟩
    dsimp only [State.busy, State.modMgmt, State.modMem]
    rfl
  -- soft errors
  · have placed := exec_softError_place u hloc (s := s)
    refine ⟨fun h => ?_, fun e h hh => ?_, fun e h hh => ?_⟩
    · rw [placed, State.softPlace, h]
      rfl
    · rw [placed, State.softPlace, h, Option.filter_some, hh]
      rfl
    · rw [placed, State.softPlace, h, Option.filter_some, hh]
      rfl
  -- the event queue block
  · exact congrArg (fun q => Host.Outcome.next { s with mgmt := { s.mgmt with evq := q } }) (s.mgmt.evq.write_elog h6 h20)
  · exact congrArg (fun q => Host.Outcome.next { s with mgmt := { s.mgmt with evq := q } }) (s.mgmt.evq.write_byHost v hk)
  -- the other registers
  · refine (exec_writeSeed s v).trans ?_
    rw [if_neg h]
  · refine (exec_writeSeed s v).trans ?_
    rw [if_pos h]
  · obtain ⟨b, hb, hle, hlt, he⟩ := nearest4k_nearest h
    refine ⟨b, hb, hle, hlt, ?_, ?_⟩
    · rw [← he]
      rfl
    · rw [← he]
      rfl
  · exact ⟨_, exec_clearErrcnt s v hk, s.errcnt_clearErrcnt_self k, fun j _ hj => s.errcnt_clearErrcnt_ne hj⟩

end Sys2Proof.Rules
end

section
/-! SUPPORT. The frontier stays well formed where an entry is replaced (R36, R39). -/

namespace Sys2Proof.Rules

open Sys2Proof.Machine

/-- Masks of no common lane. -/
theorem and_or_eq_zero {x a b : Word} (ha : x &&& a = 0) (hb : x &&& b = 0) : x &&& (a ||| b) = 0 := by
  rw [BitVec.and_or_distrib_left, ha, hb]
  rfl

/-- A mask within another has no lane of what that one has none of. -/
theorem and_eq_zero_of_within {x m a : Word} (ha : a &&& ~~~m = 0) (hx : x &&& m = 0) : x &&& a = 0 := by
  ext j hj
  have h1 := congrArg (·[j]) ha
  have h2 := congrArg (·[j]) hx
  simp only [BitVec.getElem_and, BitVec.getElem_not, BitVec.ofNat_eq_ofNat, BitVec.getElem_zero] at h1 h2 ⊢
  grind

/-- What an added entry leaves: it is merged into the one at its PC, or stands as a new one (R39). -/
theorem mem_addEntry {held : List Entry} {e x : Entry} (h : x ∈ addEntry held e) :
    x ∈ held ∨ x = e ∨ ∃ y ∈ held, y.pc = e.pc ∧ x = y.merge e := by
  unfold addEntry at h
  split at h
  · exact .inl h
  · split at h
    · obtain ⟨y, hy, rfl⟩ := List.mem_map.1 h
      split
      · next hpc => exact .inr (.inr ⟨y, hy, eq_of_beq hpc, rfl⟩)
      · exact .inl hy
    · exact (List.mem_cons.1 h).elim (.inr ∘ .inl) .inl

/-- An added entry brings only its own lanes. -/
theorem addEntry_disjoint {held : List Entry} {e : Entry} {m : Word} (hh : ∀ x ∈ held, m &&& x.mask = 0)
    (he : m &&& e.mask = 0) : ∀ x ∈ addEntry held e, m &&& x.mask = 0 := by
  intro x hx
  rcases mem_addEntry hx with h | rfl | ⟨y, hy, -, rfl⟩
  · exact hh x h
  · exact he
  · exact and_or_eq_zero (hh y hy) he

/-- An entry of lanes that no other holds keeps the frontier well formed. -/
theorem addEntry_frontierOk {held : List Entry} {e : Entry} (hok : FrontierOk held)
    (hd : ∀ x ∈ held, e.mask &&& x.mask = 0) : FrontierOk (addEntry held e) := by
  obtain ⟨hne, hp⟩ := hok
  unfold addEntry
  split
  · exact ⟨hne, hp⟩
  next he =>
  split
  · refine ⟨fun x hx => ?_, List.pairwise_map.2 (hp.imp_of_mem fun {a b} ha hb hab => ?_)⟩
    · obtain ⟨y, hy, rfl⟩ := List.mem_map.1 hx
      split
      · exact fun h0 => hne y hy (BitVec.or_eq_zero_iff.1 h0).1
      · exact hne y hy
    · obtain ⟨hm, hpc⟩ := hab
      have ea : a.mask &&& e.mask = 0 := BitVec.and_comm .. ▸ hd a ha
      split <;> split
      · next h1 h2 => exact absurd ((eq_of_beq h1).trans (eq_of_beq h2).symm) hpc
      · exact ⟨BitVec.and_comm .. ▸ and_or_eq_zero (BitVec.and_comm .. ▸ hm) (BitVec.and_comm .. ▸ hd b hb), hpc⟩
      · exact ⟨and_or_eq_zero hm ea, hpc⟩
      · exact ⟨hm, hpc⟩
  · next hpc =>
    refine ⟨List.forall_mem_cons.2 ⟨he, hne⟩, List.pairwise_cons.2 ⟨fun x hx => ⟨hd x hx, fun hx' => hpc ?_⟩, hp⟩⟩
    exact List.any_eq_true.2 ⟨x, hx, beq_iff_eq.2 hx'.symm⟩

/-- Entries of disjoint lanes that no other holds keep the frontier well formed. -/
theorem foldl_addEntry_frontierOk {es : List Entry} (hes : es.Pairwise fun a b => a.mask &&& b.mask = 0) :
    ∀ {held : List Entry}, FrontierOk held → (∀ a ∈ es, ∀ x ∈ held, a.mask &&& x.mask = 0) →
      FrontierOk (es.foldl addEntry held) := by
  induction es with
  | nil => exact fun hok _ => hok
  | cons e es ih =>
    intro held hok hd
    obtain ⟨he, hes⟩ := List.pairwise_cons.1 hes
    obtain ⟨hde, hd⟩ := List.forall_mem_cons.1 hd
    exact ih hes (addEntry_frontierOk hok hde) fun a ha => addEntry_disjoint (hd a ha) (BitVec.and_comm .. ▸ he a ha)

/-- The other entries hold no lane of one that is removed (R36). -/
theorem removeEntry_disjoint {held : List Entry} (hok : FrontierOk held) {e : Entry} (he : e ∈ held) :
    ∀ x ∈ removeEntry held e.pc, x.mask &&& e.mask = 0 := by
  intro x hx
  obtain ⟨hx, hpc⟩ := List.mem_filter.1 hx
  have symm : Std.Symm fun a b : Entry => a.mask &&& b.mask = 0 ∧ a.pc ≠ b.pc :=
    ⟨fun a b h => ⟨BitVec.and_comm a.mask b.mask ▸ h.1, h.2.symm⟩⟩
  exact (hok.2.forall hx he fun h => by simp [h] at hpc).1

/-- Settles O13: the entries that come in bring lanes of the removed one alone, and each is added without a shared lane. -/
theorem frontierKept : Obligations.FrontierKept := by
  intro w e es hok he hin hes
  have hrest : FrontierOk (removeEntry w.held e.pc) :=
    ⟨fun x hx => hok.1 x (List.mem_of_mem_filter hx), hok.2.filter _⟩
  refine foldl_addEntry_frontierOk hes hrest fun a ha x hx => ?_
  rw [BitVec.and_comm]
  exact and_eq_zero_of_within (hin a ha) (removeEntry_disjoint hok he x hx)

end Sys2Proof.Rules
end

section
/-! SUPPORT. A quadrant's cycle in which a weft issues its entry, and a turn of the agenda (R36, R44). -/

namespace Sys2Proof.Machine

/-- A weft whose turn is not barred, that takes no trap and moves no entry, attempts its entry's instruction; one that waited for
blocks and has issued another instruction waits for them no longer (R165). -/
theorem State.attempt_issues (run : Instr → State → Result) {s t : State} {l k : Nat} {w : Weft} {e : Entry}
    (hw : s.weft? l k = some w) (hb : s.turnBarred l w = false) (ht : s.takeDue l k w = none) (hm : w.movesDue = false)
    (he : w.issueEntry = some e) (hr : s.issueAt run l k w e = .next t) :
    s.attempt run l k = (.next (if (s.loom l).growers.isEmpty then t else t.ungrown l k), issuedBetween s t l k) := by
  simp only [State.attempt, hw, hb, ht, hm, he, hr, Bool.false_eq_true, if_false]
  split <;> rfl

/-- A turn of the agenda, while the power is on. -/
theorem step_agenda {s t : State} {turn : Turn} {rest : List Turn} (ha : s.agenda = turn :: rest) (hp : s.mgmt.powered = true)
    (ht : (({ s with agenda := rest } : State).ticked.periodTick turn).turnTaken exec turn = .next t) :
    step s = .next t.settled := by
  simp only [step, takeStep, ha, takeTurn, hp, if_true, ht]

/-- A quadrant's cycle in which the first ready weft issues. -/
theorem State.turnTaken_issue (run : Instr → State → Result) {s t : State} {l q k : Nat} {before after : List Nat}
    (hp : s.mgmt.powered = true) (hf : s.mgmt.fail = false) (hs : (s.loom l).scan (q % 4) = before ++ k :: after)
    (hb : ∀ j ∈ before, s.attempt run l j = (.next s, false)) (hk : s.attempt run l k = (.next t, true)) :
    s.turnTaken run (.issue l q) = .next (s.yieldedNow run t l k) := by
  simp only [State.turnTaken, hp, hf, Bool.not_false, Bool.and_self, if_true, State.issueTurn, hs]
  rw [State.issueFirst_skip run s l before _ hb, State.issueFirst_issues run after hk]

end Sys2Proof.Machine

namespace Sys2Proof.Rules

open Sys2Proof.Machine

/-- Settles O2: the first ready weft of the quadrant's order ends its scan. -/
theorem stepRunsDecoded : Obligations.StepRunsDecoded := by
  refine ⟨?_, ?_⟩
  · intro s s1 f rest l q k before after w e leaf pa word i legacy ha hp hs1 hp1 hf1 hscan hbefore hw hbar htrap hmoves hentry
      hpage hfill hfetch hdec cur t hrun hissued
    have hat := State.issueAt_decoded exec hpage hfill hfetch hdec hrun
    have hatt := State.attempt_issues exec hw hbar htrap hmoves hentry hat
    rw [hissued] at hatt
    subst hs1
    exact step_agenda ha hp (State.turnTaken_issue exec hp1 hf1 hscan hbefore hatt)
  · intro s s1 t rest i ha hp hs1 hadm hrun
    subst hs1
    exact step_agenda ha hp ((if_pos hadm).trans hrun)

end Sys2Proof.Rules
end

section
/-! SUPPORT. The outcomes of instructions that act once per weft, with the operands of lane L (R57): one lemma for each form. -/

namespace Sys2Proof.Rules

open Sys2Proof.Machine

section
variable {s s1 : State} {i : Instr} {c : Issue} {w w1 : Weft} {body run : Iss → State → Effect} {d : Reg} {v : Word}

/-- A destination register is none of the weft's port. -/
theorem destFree (h : Issuing s i c w) (hd : rd d ∈ operandUses i) : w.Free d :=
  h.free (operandUses_sub i hd) (by simp [rd, RegUse.regs])

theorem getLsbD_oneLane {l j : Nat} (hj : j < 32) : (oneLane l).getLsbD j = true ↔ l = j := by
  simp only [oneLane, BitVec.getLsbD_ofNat, Nat.testBit_two_pow, hj, decide_true, Bool.true_and, decide_eq_true_eq]

/-- Writing Lane(d, L). -/
theorem lanesWritten_setLane (hf : w.Free d) {l : Nat} (hl : l < 32) (v : Word) :
    LanesWritten w (w.setLane d l v) (oneLane l) d fun _ => v := by
  intro r j hj
  rw [Weft.lane_setLane hf r hl hj]
  simp only [getLsbD_oneLane hj]

/-- A body that writes Lane(d, L), from the state `s1` of its other effects. -/
theorem gives (h : Issuing s i c w) (he : exec i s = issue i body s)
    (hb : body (c.iss w i) s = .ok (s1.setL (c.iss w i) d v)) (hw : s1.weft? c.loom c.slot = some w1)
    (ht : w1.team = w.team) (hp : w1.port = w.port) (hd : rd d ∈ operandUses i) : Gives s i c w s1 w1 d v := by
  refine completesAs h he ?_ ht hw (OnlyLanes.setWeft s1 c.loom c.slot (Weft.setLane_rest w1 d (laneL c w i) v))
    (lanesWritten_setLane ((destFree h hd).congr hp) (lowestLane_lt _) v)
  rw [hb, State.setL, State.modWeft_eq (l := (c.iss w i).l) (k := (c.iss w i).k) _ hw]
  rfl

/-- A body that writes no register, and leaves the state `s1`. -/
theorem does (h : Issuing s i c w) (he : exec i s = issue i body s) (hb : body (c.iss w i) s = .ok s1)
    (hw : s1.weft? c.loom c.slot = some w1) (ht : w1.team = w.team) : Does s i c s1 w1 :=
  completesAs h he hb ht hw (onlyLanes_refl hw) fun _ _ _ => (if_neg fun hn => hn.2.1 rfl).symm

/-- With no lane active such an instruction does nothing. -/
theorem macro_idle (h : Issuing s i c w) (he : exec i s = issue i (macroBody run) s) (h0 : c.act w i = 0) :
    WritesNothing s i c w := writesNothing h he (if_pos h0)

/-- With a lane active it runs its body. -/
theorem macro_active (hn : c.act w i ≠ 0) : macroBody run (c.iss w i) s = run (c.iss w i) s := if_neg hn

end

end Sys2Proof.Rules
end

section
/-! SUPPORT. pin, unpin and detach of accumulator ranges (R300 to R302). -/

namespace Sys2Proof.Rules

open Sys2Proof.Machine

section
variable {s : State} {x : Iss} {t e : Nat} {o : Own} {states : List OwnState}

theorem rangeIn_none (h : ∀ e o, s.rangeAt x.l x.k t = some (e, o) → o.state ∉ states) : s.rangeIn x t states = none := by
  unfold State.rangeIn
  split
  · next e o hr => simp [h e o hr]
  · rfl

theorem rangeIn_some (h : s.rangeAt x.l x.k t = some (e, o)) (ho : o.state ∈ states) : s.rangeIn x t states = some (e, o) := by
  simp [State.rangeIn, h, ho]

end

/-- An instruction that waits for the earlier operations on what it touches runs its body where none is left (R286, R302). -/
theorem macro_unheld {s : State} {i : Instr} {c : Issue} {w : Weft} {tc : Touch} {run : Iss → State → Effect}
    (hn : c.act w i ≠ 0) (hb : s.interlocked c.loom w opTouch tc s.fresh = false) :
    macroBody (fun x s => if s.held x tc then .hold else run x s) (c.iss w i) s = run (c.iss w i) s :=
  (macro_active hn).trans (if_neg (Bool.eq_false_iff.1 hb))

theorem weft?_setOwn (s : State) (l k e : Nat) (o : Own) : (s.setOwn l e o).weft? l k = s.weft? l k :=
  State.weft?_modLoom s l k _ rfl

/-- Entries of the stall board that are freed leave the wefts. -/
theorem dropKey_wefts (x : Loom) (ctx : Nat) (key : DWord) : (x.dropKey ctx key).wefts = x.wefts := by
  unfold Loom.dropKey
  generalize x.keyEntries ctx key = es
  induction es generalizing x with
  | nil => rfl
  | cons e es ih => exact ih (x.freeEntry e)

/-- Settles O36: each of pin, unpin and detach by the state of its range. -/
theorem pins : Obligations.Pins := by
  refine ⟨?_, ?_, ?_, ?_, ?_, ?_⟩
  · intro s i c w hi h h0
    cases i
    case pin | unpin | detach => exact macro_idle h rfl h0
    all_goals exact hi.elim
  · rintro s i c w t (⟨g, rfl⟩ | ⟨g, rfl⟩) h hn hb
    all_goals exact holds h rfl ((macro_active hn).trans (if_pos hb))
  · intro s c w g d a b t h hn hr
    refine traps h rfl ((macro_active hn).trans ?_)
    rw [rangeIn_none (x := c.iss w _) fun e o he => by simpa using hr e o he]
    rfl
  · intro s c w g d a b t e o h hn hr ho i key area s0
    have hw : s0.weft? c.loom c.slot = some w := (weft?_sideEffect ..).trans h.weft
    have hrange := rangeIn_some (x := c.iss w i) (states := [.working]) hr (by simp [ho])
    have hd : rd d ∈ operandUses i := List.mem_cons_self
    refine ⟨fun hk => gives h rfl ((macro_active hn).trans ?_) hw rfl rfl hd,
      fun hk hu => gives h rfl ((macro_active hn).trans ?_) hw rfl rfl hd,
      fun hk hu => gives h rfl ((macro_active hn).trans ?_) ((weft?_setOwn ..).trans hw) rfl rfl hd⟩
    all_goals rw [hrange]
    · exact if_pos hk
    · exact (if_neg (Bool.eq_false_iff.1 hk)).trans (if_pos hu)
    · exact (if_neg (Bool.eq_false_iff.1 hk)).trans (if_neg (Bool.eq_false_iff.1 hu))
  · intro s c w g t h hn hb i r
    refine ⟨fun hr => traps h rfl ((macro_unheld hn hb).trans ?_), fun e o hr ho => ⟨fun hk => holds h rfl ((macro_unheld hn hb).trans ?_),
      fun hk => does h rfl ((macro_unheld hn hb).trans ?_) ?_ rfl⟩⟩
    · rw [rangeIn_none (x := c.iss w i) fun e o he => by simpa using hr e o he]
      rfl
    · rw [rangeIn_some (x := c.iss w i) (states := [.attached]) hr (by simp [ho])]
      exact if_pos hk
    · rw [rangeIn_some (x := c.iss w i) (states := [.attached]) hr (by simp [ho])]
      exact if_neg (Bool.eq_false_iff.1 hk)
    · rw [weft?_sideEffect, weft?_setOwn, State.weft?_modLoom _ _ _ _ (dropKey_wefts ..)]
      exact h.weft
  · intro s c w g t hd h hn ht hb i r
    refine ⟨fun hr => traps h rfl ((macro_unheld hn hb).trans ?_), fun e o hr ho => does h rfl ((macro_unheld hn hb).trans ?_) ?_ rfl⟩
    · rw [rangeIn_none (x := c.iss w i) fun e o he => by simpa using hr e o he]
      rfl
    · rw [rangeIn_some (x := c.iss w i) (states := [.attached]) hr (by simp [ho])]
      simp only [State.modOwnTeam, Issue.iss, ht]
      rfl
    · rw [weft?_sideEffect, State.weft?_modTeam, weft?_setOwn]
      exact h.weft

end Sys2Proof.Rules
end

section
/-! SUPPORT. A translation buffer that takes in what a walk has read gives the same leaf as the walk (R361). -/

namespace Sys2Proof.Machine

/-- The entry that a translation buffer would hold for an entry read at a level. -/
def tlbEntry (ctx va : Nat) (p : Nat × DWord) : Tlb := { ctx := ctx, level := p.1, tag := va / 2 ^ levelShift p.1, pte := p.2 }

/-- An entry read that a translation buffer may hold: a valid non-leaf entry, or a valid resident leaf. -/
def holdable (p : Nat × DWord) : Bool := pteValid p.2 && (!pteLeaf p.2 || ((⟨p.2, p.1⟩ : Leaf).ok && pteResident p.2))

/-- What a fill adds to a translation buffer. -/
def tlbNew (t : List Tlb) (ctx va : Nat) (es : List (Nat × DWord)) : List Tlb :=
  es.filterMap fun p => if holdable p && !t.contains (tlbEntry ctx va p) then some (tlbEntry ctx va p) else none

theorem State.fillTlb_eq (s : State) (ag : TlbAgent) (ctx va : Nat) :
    s.fillTlb ag ctx va = if (tlbNew (s.tlb ag) ctx va (s.translation ag ctx va)).isEmpty then s
      else s.setTlb ag ((tlbNew (s.tlb ag) ctx va (s.translation ag ctx va) ++ s.tlb ag).take (tlbSize ag)) := rfl

@[simp] theorem State.tlb_setTlb (s : State) (ag : TlbAgent) (t : List Tlb) : (s.setTlb ag t).tlb ag = t := by
  cases ag <;> simp [State.setTlb, State.tlb, SMap.getD]

@[simp] theorem State.contexts_setTlb (s : State) (ag : TlbAgent) (t : List Tlb) : (s.setTlb ag t).contexts = s.contexts := by
  cases ag <;> rfl

@[simp] theorem State.mem_setTlb (s : State) (ag : TlbAgent) (t : List Tlb) : (s.setTlb ag t).mem = s.mem := by
  cases ag <;> rfl

/-- The entries that translate an address, from a buffer's contents. -/
def translationOf (hbm : Mem) (root va : Nat) (find : Nat → Option DWord) : List (Nat × DWord) :=
  match find 1, find 2, find 3 with
  | _, _, some p => [(3, p)]
  | _, some p, none => if pteLeaf p then [(2, p)] else (2, p) :: walk hbm va [3] (pteTable p)
  | some p, none, none => if pteLeaf p then [(1, p)] else (1, p) :: walk hbm va [2, 3] (pteTable p)
  | none, none, none => walk hbm va [1, 2, 3] root

theorem State.translation_eq (s : State) (ag : TlbAgent) (ctx va : Nat) :
    s.translation ag ctx va = match s.context? ctx with
      | none => []
      | some c => translationOf s.mem.hbm c.root.toNat va (tlbFind (s.tlb ag) ctx va) := by
  unfold State.translation translationOf
  cases s.context? ctx <;> rfl

section
variable {t : List Tlb} {ctx va : Nat}

/-- The entry that a buffer gives for an address stands in it. -/
theorem contains_of_tlbFind {l : Nat} {p : DWord} (h : tlbFind t ctx va l = some p) : t.contains (tlbEntry ctx va (l, p)) = true := by
  obtain ⟨e, he, rfl⟩ := Option.map_eq_some_iff.1 h
  have hp := List.find?_some he
  simp only [Bool.and_eq_true, beq_iff_eq] at hp
  obtain ⟨⟨rfl, rfl⟩, ht⟩ := hp
  rw [List.contains_iff_mem, tlbEntry, ← ht]
  exact List.mem_of_find?_eq_some he

/-- At a level of which it holds no entry for the address, a buffer does not hold the entry read. -/
theorem not_contains_of_tlbFind {p : Nat × DWord} (h : tlbFind t ctx va p.1 = none) : t.contains (tlbEntry ctx va p) = false := by
  rw [Bool.eq_false_iff, Ne, List.contains_iff_mem]
  intro hm
  have := List.find?_eq_none.1 (Option.map_eq_none_iff.1 h) _ hm
  simp [tlbEntry] at this

/-- What a buffer gives after a fill, at a level of which it held nothing for the address. -/
theorem tlbFind_filled {new : List Tlb} {n l : Nat} (hn : new.length ≤ n) (h : tlbFind t ctx va l = none) :
    tlbFind ((new ++ t).take n) ctx va l = tlbFind new ctx va l := by
  have hrest : (t.take (n - new.length)).find? (fun e => e.ctx == ctx && e.level == l && e.tag == va / 2 ^ levelShift l) = none := by
    rw [List.find?_eq_none]
    exact fun e he => List.find?_eq_none.1 (Option.map_eq_none_iff.1 h) e (List.mem_of_mem_take he)
  unfold tlbFind
  rw [List.take_append, List.take_of_length_le hn, List.find?_append, hrest, Option.or_none]

theorem tlbFind_cons (p : Nat × DWord) (new : List Tlb) (l : Nat) :
    tlbFind (tlbEntry ctx va p :: new) ctx va l = if p.1 = l then some p.2 else tlbFind new ctx va l := by
  unfold tlbFind
  rw [List.find?_cons]
  by_cases h : p.1 = l
  · subst h
    simp [tlbEntry]
  · have hb : (p.1 == l) = false := beq_eq_false_iff_ne.2 h
    simp [tlbEntry, h, hb]

@[simp] theorem tlbFind_nil (l : Nat) : tlbFind [] ctx va l = none := rfl

end

/-- The entry that a table gives for an address at a level. -/
def tableEntry (hbm : Mem) (va l table : Nat) : DWord :=
  BitVec.ofNat 64 (Memory.readLe hbm (table + 8 * (va / 2 ^ levelShift l % 2048)) 8)

/-- A walk ends at an entry that is invalid or a leaf. -/
def endsWalk (p : DWord) : Bool := !pteValid p || pteLeaf p

theorem walk_cons (hbm : Mem) (va l : Nat) (ls : List Nat) (table : Nat) :
    walk hbm va (l :: ls) table = if endsWalk (tableEntry hbm va l table) then [(l, tableEntry hbm va l table)]
      else (l, tableEntry hbm va l table) :: walk hbm va ls (pteTable (tableEntry hbm va l table)) := rfl

theorem getLast?_cons_walk (hbm : Mem) (va l : Nat) (ls : List Nat) (table : Nat) (p : Nat × DWord) :
    (p :: walk hbm va (l :: ls) table).getLast? = (walk hbm va (l :: ls) table).getLast? := by
  rw [walk_cons]
  split <;> simp [List.getLast?_cons]

/-- An entry that ends a walk and may be held is a leaf; one that does not end it may be held. -/
theorem pteLeaf_of_holdable {p : Nat × DWord} (h : holdable p = true) (he : endsWalk p.2 = true) : pteLeaf p.2 = true := by
  simp only [holdable, endsWalk, Bool.and_eq_true, Bool.or_eq_true, Bool.not_eq_true'] at h he
  grind

theorem holdable_of_not_endsWalk {p : Nat × DWord} (he : endsWalk p.2 = false) : holdable p = true ∧ pteLeaf p.2 = false := by
  simp only [holdable, endsWalk, Bool.or_eq_false_iff, Bool.not_eq_false'] at he ⊢
  simp [he.1, he.2]

theorem length_walk_le (hbm : Mem) (va : Nat) (ls : List Nat) (table : Nat) : (walk hbm va ls table).length ≤ ls.length := by
  induction ls generalizing table with
  | nil => simp [walk]
  | cons l ls ih =>
    simp only [walk]
    split
    · simp
    · simpa using ih _

theorem length_translationOf_le (hbm : Mem) (root va : Nat) (find : Nat → Option DWord) :
    (translationOf hbm root va find).length ≤ 3 := by
  have h3 (x : Nat) := length_walk_le hbm va [3] x
  have h23 (x : Nat) := length_walk_le hbm va [2, 3] x
  have h123 (x : Nat) := length_walk_le hbm va [1, 2, 3] x
  simp only [List.length_cons, List.length_nil] at h3 h23 h123
  unfold translationOf
  split
  · simp
  · split
    · simp
    · have := h3 (pteTable ‹_›); simp only [List.length_cons]; omega
  · split
    · simp
    · have := h23 (pteTable ‹_›); simp only [List.length_cons]; omega
  · exact h123 _

section
variable {t : List Tlb} {ctx va : Nat} {hbm : Mem} {root : Nat}

theorem tlbNew_held {p : Nat × DWord} {es : List (Nat × DWord)} (h : tlbFind t ctx va p.1 = some p.2) :
    tlbNew t ctx va (p :: es) = tlbNew t ctx va es := by
  have := contains_of_tlbFind h
  simp only [tlbNew, List.filterMap_cons, this]
  simp

theorem tlbNew_read {p : Nat × DWord} {es : List (Nat × DWord)} (h : tlbFind t ctx va p.1 = none) :
    tlbNew t ctx va (p :: es) = if holdable p then tlbEntry ctx va p :: tlbNew t ctx va es else tlbNew t ctx va es := by
  have := not_contains_of_tlbFind h
  simp only [tlbNew, List.filterMap_cons, this, Bool.not_false, Bool.and_true]
  split <;> rename_i hh <;> split at hh <;> simp_all

@[simp] theorem tlbNew_nil : tlbNew t ctx va [] = [] := rfl

/-- Where the buffer `f` has what a walk from a level on added, it leads to the entry at which the walk ended: the last level. -/
theorem translationOf_walk3 {f : Nat → Option DWord} {table : Nat} (h3 : tlbFind t ctx va 3 = none)
    (f3 : f 3 = tlbFind (tlbNew t ctx va (walk hbm va [3] table)) ctx va 3) (hne : tlbNew t ctx va (walk hbm va [3] table) ≠ []) :
    (translationOf hbm root va f).getLast? = (walk hbm va [3] table).getLast? := by
  generalize hq : tableEntry hbm va 3 table = q
  have hw : walk hbm va [3] table = [(3, q)] := by rw [walk_cons, hq]; exact ite_self _
  have hd : holdable (3, q) = true := by
    by_contra hd
    exact hne (by rw [hw, tlbNew_read h3, if_neg hd, tlbNew_nil])
  rw [hw, tlbNew_read h3, if_pos hd, tlbFind_cons, if_pos rfl] at f3
  simp only [translationOf, f3, hw]

/-- From the second level on. -/
theorem translationOf_walk2 {f : Nat → Option DWord} {table : Nat} (h3 : tlbFind t ctx va 3 = none) (h2 : tlbFind t ctx va 2 = none)
    (f3 : f 3 = tlbFind (tlbNew t ctx va (walk hbm va [2, 3] table)) ctx va 3)
    (f2 : f 2 = tlbFind (tlbNew t ctx va (walk hbm va [2, 3] table)) ctx va 2)
    (hne : tlbNew t ctx va (walk hbm va [2, 3] table) ≠ []) :
    (translationOf hbm root va f).getLast? = (walk hbm va [2, 3] table).getLast? := by
  rw [walk_cons] at f3 f2 hne ⊢
  generalize tableEntry hbm va 2 table = q at f3 f2 hne ⊢
  cases he : endsWalk q
  · obtain ⟨hd, hl⟩ := holdable_of_not_endsWalk (p := (2, q)) he
    simp only [he, Bool.false_eq_true, if_false, tlbNew_read (p := (2, q)) h2, hd, if_true, tlbFind_cons,
      Nat.reduceEqDiff] at f3 f2 ⊢
    rw [getLast?_cons_walk]
    by_cases hn : tlbNew t ctx va (walk hbm va [3] (pteTable q)) = []
    · simp only [hn, tlbFind_nil] at f3
      simp only [translationOf, f3, f2, show pteLeaf q = false from hl, Bool.false_eq_true, if_false, getLast?_cons_walk]
    · exact translationOf_walk3 h3 f3 hn
  · simp only [he, if_true, tlbNew_read (p := (2, q)) h2, tlbNew_nil] at f3 f2 hne ⊢
    have hd : holdable (2, q) = true := by
      by_contra hd
      exact hne (if_neg hd)
    simp only [hd, if_true, tlbFind_cons, tlbFind_nil, reduceIte, Nat.reduceEqDiff] at f3 f2
    simp only [translationOf, f3, f2, show pteLeaf q = true from pteLeaf_of_holdable (p := (2, q)) hd he, if_true]

/-- From the first level on. -/
theorem translationOf_walk1 {f : Nat → Option DWord} {table : Nat} (h3 : tlbFind t ctx va 3 = none) (h2 : tlbFind t ctx va 2 = none)
    (h1 : tlbFind t ctx va 1 = none) (fl : ∀ l ≤ 3, 1 ≤ l → f l = tlbFind (tlbNew t ctx va (walk hbm va [1, 2, 3] table)) ctx va l)
    (hne : tlbNew t ctx va (walk hbm va [1, 2, 3] table) ≠ []) :
    (translationOf hbm root va f).getLast? = (walk hbm va [1, 2, 3] table).getLast? := by
  have f3 := fl 3 (by decide) (by decide)
  have f2 := fl 2 (by decide) (by decide)
  have f1 := fl 1 (by decide) (by decide)
  rw [walk_cons] at f3 f2 f1 hne ⊢
  generalize tableEntry hbm va 1 table = q at f3 f2 f1 hne ⊢
  cases he : endsWalk q
  · obtain ⟨hd, hl⟩ := holdable_of_not_endsWalk (p := (1, q)) he
    simp only [he, Bool.false_eq_true, if_false, tlbNew_read (p := (1, q)) h1, hd, if_true, tlbFind_cons,
      OfNat.one_ne_ofNat] at f3 f2 f1 ⊢
    rw [getLast?_cons_walk]
    by_cases hn : tlbNew t ctx va (walk hbm va [2, 3] (pteTable q)) = []
    · simp only [hn, tlbFind_nil] at f3 f2
      simp only [translationOf, f3, f2, f1, show pteLeaf q = false from hl, Bool.false_eq_true, if_false, getLast?_cons_walk]
    · exact translationOf_walk2 h3 h2 f3 f2 hn
  · simp only [he, if_true, tlbNew_read (p := (1, q)) h1, tlbNew_nil] at f3 f2 f1 hne ⊢
    have hd : holdable (1, q) = true := by
      by_contra hd
      exact hne (if_neg hd)
    simp only [hd, if_true, tlbFind_cons, tlbFind_nil, reduceIte, OfNat.one_ne_ofNat] at f3 f2 f1
    simp only [translationOf, f3, f2, f1, show pteLeaf q = true from pteLeaf_of_holdable (p := (1, q)) hd he, if_true]

/-- The leaf is the same after the fill: the entries that were added lead to the entry at which the walk ended. -/
theorem getLast?_translationOf_filled {n : Nat} (hn : 3 ≤ n)
    (hne : tlbNew t ctx va (translationOf hbm root va (tlbFind t ctx va)) ≠ []) :
    (translationOf hbm root va
        (tlbFind ((tlbNew t ctx va (translationOf hbm root va (tlbFind t ctx va)) ++ t).take n) ctx va)).getLast?
      = (translationOf hbm root va (tlbFind t ctx va)).getLast? := by
  have hlen : (tlbNew t ctx va (translationOf hbm root va (tlbFind t ctx va))).length ≤ n :=
    (List.length_filterMap_le ..).trans ((length_translationOf_le ..).trans hn)
  have filled {l : Nat} (h : tlbFind t ctx va l = none) := tlbFind_filled hlen h
  generalize htr : translationOf hbm root va (tlbFind t ctx va) = tr at hne filled ⊢
  cases h3 : tlbFind t ctx va 3 with
  | some p =>
    obtain rfl : [(3, p)] = tr := by simpa only [translationOf, h3] using htr
    exact absurd ((tlbNew_held (p := (3, p)) h3).trans tlbNew_nil) hne
  | none =>
    cases h2 : tlbFind t ctx va 2 with
    | some p =>
      cases hl : pteLeaf p
      · obtain rfl : (2, p) :: walk hbm va [3] (pteTable p) = tr := by simpa [translationOf, h3, h2, hl] using htr
        rw [tlbNew_held (p := (2, p)) h2] at hne filled ⊢
        rw [getLast?_cons_walk]
        exact translationOf_walk3 h3 (filled h3) hne
      · obtain rfl : [(2, p)] = tr := by simpa [translationOf, h3, h2, hl] using htr
        exact absurd ((tlbNew_held (p := (2, p)) h2).trans tlbNew_nil) hne
    | none =>
      cases h1 : tlbFind t ctx va 1 with
      | some p =>
        cases hl : pteLeaf p
        · obtain rfl : (1, p) :: walk hbm va [2, 3] (pteTable p) = tr := by simpa [translationOf, h3, h2, h1, hl] using htr
          rw [tlbNew_held (p := (1, p)) h1] at hne filled ⊢
          rw [getLast?_cons_walk]
          exact translationOf_walk2 h3 h2 (filled h3) (filled h2) hne
        · obtain rfl : [(1, p)] = tr := by simpa [translationOf, h3, h2, h1, hl] using htr
          exact absurd ((tlbNew_held (p := (1, p)) h1).trans tlbNew_nil) hne
      | none =>
        obtain rfl : walk hbm va [1, 2, 3] root = tr := by simpa only [translationOf, h3, h2, h1] using htr
        refine translationOf_walk1 h3 h2 h1 (fun l hl3 hl1 => filled ?_) hne
        obtain rfl | rfl | rfl : l = 1 ∨ l = 2 ∨ l = 3 := by omega
        exacts [h1, h2, h3]

end

/-- A fill leaves the leaf of its address (R361). -/
theorem State.translate_fillTlb (s : State) (ag : TlbAgent) (ctx va : Nat) :
    (s.fillTlb ag ctx va).translate ag ctx va = s.translate ag ctx va := by
  rw [State.fillTlb_eq]
  split
  · rfl
  next hne =>
  have size : 3 ≤ tlbSize ag := by cases ag <;> simp [tlbSize]
  have last : ((s.setTlb ag ((tlbNew (s.tlb ag) ctx va (s.translation ag ctx va) ++ s.tlb ag).take (tlbSize ag))).translation ag ctx
      va).getLast? = (s.translation ag ctx va).getLast? := by
    simp only [State.translation_eq, State.context?, State.contexts_setTlb, State.tlb_setTlb, State.mem_setTlb] at hne ⊢
    cases hc : SMap.find? s.contexts ctx with
    | none => rfl
    | some c =>
      simp only [hc, List.isEmpty_iff] at hne
      exact getLast?_translationOf_filled size hne
  unfold State.translate
  rw [last]

end Sys2Proof.Machine
end

section
/-! SUPPORT. What the accesses of an instruction note keeps the wefts, and a load that an instruction makes at issue (R254, R264). -/

namespace Sys2Proof.Machine

section
variable (s : State) (v : View)

theorem State.freshLine_looms (e : ErrAt) : (s.freshLine e).looms = s.looms := by
  unfold State.freshLine
  split <;> rfl

theorem State.loomError_books (l k : Nat) : KeepsLooms Loom.books s (s.loomError l k) := KeepsLooms.modLoom s l fun _ => rfl

theorem State.dropL1_books (l : Nat) : KeepsLooms Loom.books s (s.dropL1 l) := KeepsLooms.modLoom s l fun _ => rfl

theorem State.l1Hit_books (l : Nat) (key : Nat × Nat) : KeepsLooms Loom.books s (s.l1Hit l key).2 := by
  unfold State.l1Hit
  (repeat' split)
  · exact KeepsLooms.refl s
  · exact KeepsLooms.refl s
  · exact KeepsLooms.refl s
  · refine KeepsLooms.trans (KeepsLooms.of_looms ?_) (State.loomError_books (s.modMem _) l 6)
    rfl

theorem State.setL1_books (l : Nat) (f : List (Nat × Nat) → List (Nat × Nat)) :
    KeepsLooms Loom.books s (s.modLoom l fun y => { y with l1 := f y.l1 }) := KeepsLooms.modLoom s l fun _ => rfl

theorem State.noteOne_books (load : Bool) (va : Nat) (write : Bool) : KeepsLooms Loom.books s (s.noteOne v load va write) := by
  unfold State.noteOne
  split
  · next x pa _ =>
    refine (State.missTlb_books s v va x).trans ?_
    generalize s.missTlb v va x = u
    refine KeepsLooms.ite (KeepsLooms.refl u) ?_
    split
    · exact KeepsLooms.of_looms (State.bankAccess_looms ..)
    · refine KeepsLooms.ite ?_ (KeepsLooms.of_looms (State.homeAccess_looms ..))
      have hit := State.l1Hit_books u v.loom (v.ctx, va / 128)
      dsimp only
      generalize u.l1Hit v.loom (v.ctx, va / 128) = r at hit ⊢
      obtain ⟨found, t⟩ := r
      refine hit.trans (KeepsLooms.ite (KeepsLooms.refl t) ?_)
      refine KeepsLooms.trans ?_ (KeepsLooms.of_looms (State.homeAccess_looms ..))
      refine KeepsLooms.trans ?_ (State.countLoom_books ..)
      exact (KeepsLooms.of_looms (State.freshLine_looms t _)).trans
        (State.setL1_books _ v.loom fun q => ((v.ctx, va / 128) :: q.filter (· != (v.ctx, va / 128))).take Config.l1Lines)
  · exact KeepsLooms.refl s

theorem State.note_books (load : Bool) (as : List Acc) (write : Bool) : KeepsLooms Loom.books s (s.note v load as write) :=
  KeepsLooms.foldl (fun s va => State.noteOne_books s v load va write) _ s

theorem State.noteSo_books (load write : Bool) (as : List Acc) : KeepsLooms Loom.books s (s.noteSo v load write as) :=
  KeepsLooms.ite ((State.dropL1_books ..).trans ((State.note_books ..).trans (State.dropL1_books ..))) (State.note_books ..)

theorem State.softAt_books (ctx : Nat) (e : ErrAt) : KeepsLooms Loom.books s (s.softAt ctx e) := by
  unfold State.softAt
  (repeat' split)
  · exact (State.loomError_books ..).trans (State.countLoom_books ..)
  · exact KeepsLooms.of_looms rfl
  · exact KeepsLooms.refl s
  · exact KeepsLooms.refl s

theorem State.noteSoft_books (as : List Acc) (served : List Nat) : KeepsLooms Loom.books s (s.noteSoft v as served) :=
  KeepsLooms.ite (KeepsLooms.refl s) (KeepsLooms.foldl (fun s e => State.softAt_books s v.ctx e) _ s)

theorem State.weft?_of_books {s t : State} (h : KeepsLooms Loom.books s t) (l k : Nat) : t.weft? l k = s.weft? l k :=
  Rules.weft?_congr (h.proj (·.1) fun _ => rfl) l k

theorem State.weft?_writeVa (va : DWord) (n x l k : Nat) : (s.writeVa v va n x).weft? l k = s.weft? l k :=
  State.weft?_of_books (State.storeSpots_books ..) l k

end

/-! ## What a view reads in a page -/

/-- Error marks, lines of the L2, counters of the dies and the management's counts may differ; the rest is as before. -/
def MarksOnly (s t : State) : Prop :=
  ∃ q k d m, t = { s with mem := { s.mem with l2 := q, marks := k }, dieCounters := d, mgmt := m }

section
variable {s t u : State}

theorem MarksOnly.refl (s : State) : MarksOnly s s := ⟨_, _, _, _, rfl⟩

theorem MarksOnly.trans (a : MarksOnly s t) (b : MarksOnly t u) : MarksOnly s u := by
  obtain ⟨q, k, d, m, rfl⟩ := a
  obtain ⟨q', k', d', m', rfl⟩ := b
  exact ⟨q', k', d', m', rfl⟩

theorem MarksOnly.ite {c : Prop} [Decidable c] (a : MarksOnly s t) (b : MarksOnly s u) : MarksOnly s (if c then t else u) := by
  split
  · exact a
  · exact b

end

theorem State.countDie_marks (s : State) (die src n : Nat) : MarksOnly s (s.countDie die src n) := ⟨_, _, _, _, rfl⟩

theorem State.crossDies_marks (s : State) (i j n : Nat) : MarksOnly s (s.crossDies i j n) :=
  MarksOnly.ite (MarksOnly.refl s) (State.countDie_marks ..)

theorem State.l2Leaves_marks (s : State) (x : L2Line) : MarksOnly s (s.l2Leaves x) := by
  have left : MarksOnly s (s.modMem fun m => { m with l2 := m.l2.filter fun y => !(y.host == x.host && y.line == x.line) }) :=
    ⟨_, _, _, _, rfl⟩
  have marked (u : State) : MarksOnly u (u.modMem fun m =>
      if m.hard (.l2 x.host x.line) then
        (m.clearMark (.l2 x.host x.line)).setMark (.phys (if x.host then .host else .hbm) x.line) true
      else m.clearMark (.l2 x.host x.line)) := by
    simp only [State.modMem]
    split <;> exact ⟨_, _, _, _, rfl⟩
  exact (left.trans (MarksOnly.ite ((State.countDie_marks ..).trans (State.crossDies_marks ..)) (MarksOnly.refl _))).trans
    (MarksOnly.ite (MarksOnly.refl _) (marked _))

theorem State.touchL2_marks (s : State) (host : Bool) (pa : Nat) (write : Bool) : MarksOnly s (s.touchL2 host pa write) := by
  unfold State.touchL2
  dsimp only
  split
  · exact ⟨_, _, _, _, rfl⟩
  · have room : MarksOnly s (match s.mem.l2Victim (homeSlice pa) with | none => s | some x => s.l2Leaves x) := by
      split
      · exact MarksOnly.refl s
      · exact s.l2Leaves_marks _
    have filled (u : State) : MarksOnly u
        ((u.modMem fun m => { m with l2 := ⟨host, pa / 128, write⟩ :: m.l2 }).countDie (homeSlice pa / 32) 0x42 1) :=
      ⟨_, _, _, _, rfl⟩
    exact room.trans ((filled _).trans (MarksOnly.ite (MarksOnly.refl _) ((State.countDie_marks ..).trans (State.crossDies_marks ..))))

theorem State.homeAccess_marks (s : State) (from_ : Nat) (host : Bool) (pa : Nat) (write : Bool) :
    MarksOnly s (s.homeAccess from_ host pa write) :=
  (State.crossDies_marks ..).trans ((State.crossDies_marks ..).trans (State.touchL2_marks ..))

theorem State.bankAccess_marks (s : State) (from_ pa : Nat) (write : Bool) : MarksOnly s (s.bankAccess from_ pa write) :=
  (State.crossDies_marks ..).trans ((State.crossDies_marks ..).trans (State.countDie_marks ..))

/-- What a view reads in page `p` of 512 KiB is as before: the bytes of every memory, the contexts, who holds loom memory, and the
leaf of the page. -/
structure SameReads (v : View) (p : Nat) (s t : State) : Prop where
  bytes : ∀ sp, t.mem.of sp = s.mem.of sp
  contexts : t.contexts = s.contexts
  looms : KeepsLooms (fun x => (x.mem, x.teams, x.board)) s t
  leaf : ∀ va, va / 2 ^ 19 = p → t.translate v.agent v.ctx va = s.translate v.agent v.ctx va

section
variable {v : View} {p : Nat} {s t u : State}

theorem SameReads.refl (s : State) : SameReads v p s s := ⟨fun _ => rfl, rfl, KeepsLooms.refl s, fun _ _ => rfl⟩

theorem SameReads.trans (a : SameReads v p s t) (b : SameReads v p t u) : SameReads v p s u where
  bytes sp := (b.bytes sp).trans (a.bytes sp)
  contexts := b.contexts.trans a.contexts
  looms := a.looms.trans b.looms
  leaf va h := (b.leaf va h).trans (a.leaf va h)

theorem SameReads.ite {c : Prop} [Decidable c] (a : SameReads v p s t) (b : SameReads v p s u) :
    SameReads v p s (if c then t else u) := by
  split
  · exact a
  · exact b

theorem SameReads.foldl {α : Type} {step : State → α → State} {as : List α}
    (hs : ∀ s, ∀ a ∈ as, SameReads v p s (step s a)) (s : State) : SameReads v p s (as.foldl step s) := by
  induction as generalizing s with
  | nil => exact SameReads.refl s
  | cons a as ih =>
    exact (hs s a List.mem_cons_self).trans (ih (fun s b hb => hs s b (List.mem_cons_of_mem a hb)) _)

/-- A state of the same contexts, translation buffers and HBM translates alike. -/
theorem State.translate_of_same (hc : t.contexts = s.contexts) (ht : ∀ ag, t.tlb ag = s.tlb ag) (hm : t.mem.hbm = s.mem.hbm)
    (ag : TlbAgent) (ctx va : Nat) : t.translate ag ctx va = s.translate ag ctx va := by
  unfold State.translate State.translation State.context?
  rw [hc, ht, hm]

theorem SameReads.of_marks (h : MarksOnly s t) : SameReads v p s t := by
  obtain ⟨q, k, d, m, rfl⟩ := h
  refine ⟨fun sp => by cases sp <;> rfl, rfl, KeepsLooms.of_looms rfl, fun va _ => ?_⟩
  exact State.translate_of_same rfl (fun ag => by cases ag <;> rfl) rfl ..

theorem SameReads.modLoom (s : State) (l : Nat) {f : Loom → Loom}
    (hf : ∀ x, ((f x).mem, (f x).teams, (f x).board) = (x.mem, x.teams, x.board))
    (ht : ∀ x, ((f x).tlbCore, (f x).tlbCopy) = (x.tlbCore, x.tlbCopy)) : SameReads v p s (s.modLoom l f) := by
  have tlbs := KeepsLooms.modLoom (f := fun x : Loom => (x.tlbCore, x.tlbCopy)) s l ht
  refine ⟨fun sp => rfl, rfl, KeepsLooms.modLoom s l hf, fun va _ => ?_⟩
  refine State.translate_of_same (s := s) (t := s.modLoom l f) rfl (fun ag => ?_) rfl ..
  cases ag with
  | core k => exact congrArg Prod.fst (tlbs.loom k)
  | copy k => exact congrArg Prod.snd (tlbs.loom k)
  | gateway d => rfl

theorem SameReads.countLoom (s : State) (l src ctx n : Nat) : SameReads v p s (s.countLoom l src ctx n) :=
  SameReads.ite (SameReads.refl s) (SameReads.modLoom s l (fun _ => rfl) fun _ => rfl)

theorem SameReads.setTlb (s : State) (ag : TlbAgent) (q : List Tlb)
    (h : ∀ va, va / 2 ^ 19 = p → (s.setTlb ag q).translate v.agent v.ctx va = s.translate v.agent v.ctx va) :
    SameReads v p s (s.setTlb ag q) := by
  cases ag with
  | core l => exact ⟨fun _ => rfl, rfl, KeepsLooms.modLoom s l (g := fun x => { x with tlbCore := q }) fun _ => rfl, h⟩
  | copy l => exact ⟨fun _ => rfl, rfl, KeepsLooms.modLoom s l (g := fun x => { x with tlbCopy := q }) fun _ => rfl, h⟩
  | gateway d => exact ⟨fun _ => rfl, rfl, KeepsLooms.of_looms rfl, h⟩

theorem SameReads.fillTlb (s : State) {va : Nat} (hp : va / 2 ^ 19 = p) : SameReads v p s (s.fillTlb v.agent v.ctx va) := by
  have leaf (a : Nat) (ha : a / 2 ^ 19 = p) :
      (s.fillTlb v.agent v.ctx va).translate v.agent v.ctx a = s.translate v.agent v.ctx a := by
    rw [State.translate_congr _ _ _ (ha.trans hp.symm), State.translate_fillTlb, State.translate_congr _ _ _ (ha.trans hp.symm)]
  rw [State.fillTlb_eq] at leaf ⊢
  split
  · exact SameReads.refl s
  · next hn =>
    rw [if_neg hn] at leaf
    exact SameReads.setTlb s _ _ leaf

theorem SameReads.missTlb (s : State) {va : Nat} (x : Leaf) (hp : va / 2 ^ 19 = p) : SameReads v p s (s.missTlb v va x) := by
  unfold State.missTlb
  refine SameReads.ite (SameReads.refl s) ((SameReads.fillTlb s hp).trans ?_)
  split
  · exact SameReads.countLoom ..
  · exact SameReads.refl _

theorem SameReads.setL1 (s : State) (l : Nat) (f : List (Nat × Nat) → List (Nat × Nat)) :
    SameReads v p s (s.modLoom l fun y => { y with l1 := f y.l1 }) := SameReads.modLoom s l (fun _ => rfl) fun _ => rfl

theorem SameReads.loomError (s : State) (l k : Nat) : SameReads v p s (s.loomError l k) :=
  SameReads.modLoom s l (f := fun x => { x with errors := bumpError x.errors k }) (fun _ => rfl) fun _ => rfl

theorem State.clearMark_marks (s : State) (e : ErrAt) : MarksOnly s (s.modMem fun m => m.clearMark e) := ⟨_, _, _, _, rfl⟩

theorem State.freshLine_marks (s : State) (e : ErrAt) : MarksOnly s (s.freshLine e) :=
  MarksOnly.ite (MarksOnly.refl s) (State.clearMark_marks s e)

theorem SameReads.l1Hit (s : State) (l : Nat) (key : Nat × Nat) : SameReads v p s (s.l1Hit l key).2 := by
  unfold State.l1Hit
  (repeat' split)
  · exact SameReads.refl s
  · exact SameReads.refl s
  · exact SameReads.refl s
  · exact (SameReads.of_marks (State.clearMark_marks ..)).trans (SameReads.loomError ..)

theorem SameReads.noteOne (s : State) (load : Bool) {va : Nat} (write : Bool) (hp : va / 2 ^ 19 = p) :
    SameReads v p s (s.noteOne v load va write) := by
  unfold State.noteOne
  split
  · next x pa _ =>
    refine (SameReads.missTlb s x hp).trans ?_
    generalize s.missTlb v va x = u
    refine SameReads.ite (SameReads.refl u) ?_
    split
    · exact SameReads.of_marks (State.bankAccess_marks ..)
    · refine SameReads.ite ?_ (SameReads.of_marks (State.homeAccess_marks ..))
      have hit : SameReads v p u (u.l1Hit v.loom (v.ctx, va / 128)).2 := SameReads.l1Hit ..
      dsimp only
      generalize u.l1Hit v.loom (v.ctx, va / 128) = r at hit ⊢
      obtain ⟨found, t⟩ := r
      refine hit.trans (SameReads.ite (SameReads.refl t) ?_)
      refine SameReads.trans ?_ (SameReads.of_marks (State.homeAccess_marks ..))
      refine SameReads.trans ?_ (SameReads.countLoom ..)
      exact (SameReads.of_marks (State.freshLine_marks t _)).trans
        (SameReads.setL1 _ v.loom fun q => ((v.ctx, va / 128) :: q.filter (· != (v.ctx, va / 128))).take Config.l1Lines)
  · exact SameReads.refl s

/-- Accesses all of whose bytes lie in one page. -/
def OnePage (p : Nat) (as : List Acc) : Prop := ∀ a ∈ as, ∀ b ∈ a.bytes, b / 2 ^ 19 = p

theorem SameReads.note (s : State) (load : Bool) {as : List Acc} (write : Bool) (h : OnePage p as) :
    SameReads v p s (s.note v load as write) := by
  refine SameReads.foldl (fun s va hva => SameReads.noteOne s load write ?_) s
  obtain ⟨a, ha, hb⟩ := List.mem_flatMap.1 (List.mem_eraseDups.1 hva)
  exact h a ha va (List.mem_filter.1 hb).1

theorem SameReads.noteSo (s : State) (load : Bool) {as : List Acc} (write : Bool) (h : OnePage p as) :
    SameReads v p s (s.noteSo v load write as) := by
  have drop (u : State) : SameReads v p u (u.dropL1 v.loom) := SameReads.modLoom u v.loom (fun _ => rfl) fun _ => rfl
  exact SameReads.ite ((drop s).trans ((SameReads.note _ load write h).trans (drop _))) (SameReads.note s load write h)

theorem SameReads.softAt (s : State) (ctx : Nat) (e : ErrAt) : SameReads v p s (s.softAt ctx e) := by
  unfold State.softAt
  (repeat' split)
  · exact (SameReads.loomError ..).trans (SameReads.countLoom ..)
  · exact SameReads.of_marks ⟨_, _, _, _, rfl⟩
  · exact SameReads.refl s
  · exact SameReads.refl s

theorem SameReads.noteSoft (s : State) (as : List Acc) (served : List Nat) : SameReads v p s (s.noteSoft v as served) :=
  SameReads.ite (SameReads.refl s) (SameReads.foldl (fun s e _ => SameReads.softAt s v.ctx e) s)

theorem SameReads.spot (h : SameReads v p s t) {va : Nat} (hp : va / 2 ^ 19 = p) : t.spot v va = s.spot v va := by
  have held (off : Nat) : (t.loom v.loom).heldFor v.ctx off = (s.loom v.loom).heldFor v.ctx off := by
    have ht : (t.loom v.loom).teams = (s.loom v.loom).teams := congrArg (·.2.1) (h.looms.loom v.loom)
    have hb : (t.loom v.loom).board = (s.loom v.loom).board := congrArg (·.2.2) (h.looms.loom v.loom)
    unfold Loom.heldFor
    rw [ht, hb]
  unfold State.spot
  simp only [held, h.leaf va hp]

theorem SameReads.readSpot (h : SameReads v p s t) (l : Nat) (sp : Spot) : t.readSpot l sp = s.readSpot l sp := by
  have lm (a : Nat) : t.readLm l a = s.readLm l a := congrArg (Memory.read · a) (congrArg Prod.fst (h.looms.loom l))
  cases sp with
  | bad => rfl
  | lm a => exact lm a
  | frame b i => exact lm _
  | page x pa => exact congrArg (Memory.read · pa) (h.bytes x.space)

theorem SameReads.readVa (h : SameReads v p s t) {a : Acc} (hp : ∀ b ∈ a.bytes, b / 2 ^ 19 = p) :
    t.readVa v a.va a.len = s.readVa v a.va a.len := by
  unfold State.readVa State.spots
  rw [List.map_map, List.map_map]
  refine congrArg leValue (List.map_congr_left fun b hb => ?_)
  show t.readSpot v.loom (t.spot v b) = s.readSpot v.loom (s.spot v b)
  rw [h.spot (hp b hb), h.readSpot]

end

end Sys2Proof.Machine

namespace Sys2Proof.Rules

open Sys2Proof.Machine

theorem noted_sameReads (s : State) (v : View) {x : Accesses} {p : Nat} (h : OnePage p x.list) : SameReads v p s (noted s v x) :=
  (SameReads.noteSo s _ _ h).trans (SameReads.noteSoft ..)

/-- A block that is aligned to its size lies in one page. -/
theorem bytes_onePage (a : Acc) {al : Nat} (ha : a.va.toNat % al = 0) (hn : a.len ≤ al) (hal : al ∣ 2 ^ 19) :
    ∀ b ∈ a.bytes, b / 2 ^ 19 = a.va.toNat / 2 ^ 19 := by
  intro b hb
  obtain ⟨k, hk, rfl⟩ := List.mem_map.1 hb
  obtain ⟨q, hq⟩ := hal
  obtain ⟨m, hm⟩ := Nat.dvd_of_mod_eq_zero ha
  have hlt : k < al := (List.mem_range.1 hk).trans_le hn
  have block (x : Nat) (hx : x < al) : (al * m + x) / 2 ^ 19 = m / q := by
    rw [hq, ← Nat.div_div_eq_div_mul, Nat.mul_add_div (by omega), Nat.div_eq_of_lt hx, Nat.add_zero]
  have small : al * m + k < 2 ^ 64 := by
    have top : 2 ^ 64 = al * (q * 2 ^ 45) := by rw [← Nat.mul_assoc, ← hq, ← Nat.pow_add]
    have hmq : m < q * 2 ^ 45 := Nat.lt_of_mul_lt_mul_left (by rw [← hm, ← top]; exact a.va.isLt)
    calc al * m + k < al * (m + 1) := by rw [Nat.mul_add_one]; omega
      _ ≤ al * (q * 2 ^ 45) := Nat.mul_le_mul_left al hmq
      _ = 2 ^ 64 := top.symm
  rw [hm, Nat.mod_eq_of_lt small, block k hlt, ← Nat.add_zero (al * m), block 0 (by omega)]

theorem weft?_noted (s : State) (v : View) (x : Accesses) (l k : Nat) : (noted s v x).weft? l k = s.weft? l k :=
  State.weft?_of_books ((State.noteSo_books ..).trans (State.noteSoft_books ..)) l k

/-- The value that a view of a loom reads is that of the bytes at its spots. -/
theorem readVa_eq_valueAt (s : State) (v : View) (va : DWord) (n : Nat) :
    s.readVa v va n = valueAt v.loom (byteAt s) (s.spots v ⟨0, va, n, 1⟩) := (valueAt_eq_leValue ..).symm

/-- A load at issue that is not aligned (R254). -/
theorem loadL_unaligned {s : State} {y : Iss} {addr : DWord} {n al : Nat} {k : Nat → State → Effect} (h : addr.toNat % al ≠ 0) :
    loadL addr n al k y s = faultL y 0x08 addr := if_pos h

/-- A load at issue of a block that lies in one page, which nothing stops, goes on with the value read. -/
theorem loadL_reads {s s0 : State} {c : Issue} {w : Weft} {i : Instr} {addr : DWord} {n al val : Nat} {k : Nat → State → Effect}
    (h : Reads c w i s addr n al s0 val) (hn : n ≤ al) (hal : al ∣ 2 ^ 19) : loadL addr n al k (c.iss w i) s = k val s0 := by
  obtain ⟨ha, ht, rfl, rfl⟩ := h
  have page := bytes_onePage { lane := laneL c w i, va := addr, len := n } ha hn hal
  have same : (noted s (viewAt s c w) (blockAt c w i addr n)).readVa (viewAt s c w) addr n = s.readVa (viewAt s c w) addr n :=
    (noted_sameReads s _ fun _ h => List.mem_singleton.1 h ▸ page).readVa page
  have run := accessRun_takesEffect (i := i) (eff := fun v _ t => k (s.readVa v addr n) t) ht
  have value := congrArg (k · (noted s (viewAt s c w) (blockAt c w i addr n))) (same.symm.trans (readVa_eq_valueAt ..))
  exact (if_neg (not_not.2 ha)).trans
    ((accessRun_of (accs := fun x => [{ lane := x.lane, va := addr, len := n }]) rfl).trans (run.trans value))

theorem weft?_of_reads {s s0 : State} {c : Issue} {w : Weft} {i : Instr} {addr : DWord} {n al val : Nat}
    (h : Reads c w i s addr n al s0 val) (l k : Nat) : s0.weft? l k = s.weft? l k := by
  obtain ⟨-, -, rfl, -⟩ := h
  exact weft?_noted ..

end Sys2Proof.Rules
end

section
/-! SUPPORT. launch and fetchw (R322, R323). -/

namespace Sys2Proof.Rules

open Sys2Proof.Machine

section
variable {s s1 : State} {i : Instr} {c : Issue} {w w1 : Weft} {body : Iss → State → Effect} {d : Reg} {v : DWord}

/-- A body that writes Pair(d, L), from the state `s1` of its other effects. -/
theorem givesPair (h : Issuing s i c w) (he : exec i s = issue i body s)
    (hb : body (c.iss w i) s = .ok (s1.setLPair (c.iss w i) d v)) (hw : s1.weft? c.loom c.slot = some w1)
    (ht : w1.team = w.team) (hp : w1.port = w.port) (hu : pd d ∈ operandUses i) (hd : d ≠ 255) :
    CompletesPair s i c s1 w1 (oneLane (laneL c w i)) d fun _ => v := by
  have free {r : Reg} (hr : r ∈ (pd d).regs) : w1.Free r := (h.free (operandUses_sub i hu) hr).congr hp
  refine completesPair h he ?_ ht hw (OnlyLanes.setWeft s1 c.loom c.slot (Weft.setPair_rest w1 d (laneL c w i) v)) fun r j hj => ?_
  · rw [hb, State.setLPair, State.modWeft_eq (l := (c.iss w i).l) (k := (c.iss w i).k) _ hw]
    rfl
  · rw [Weft.lane_setPair (free (by simp [pd, RegUse.regs])) (free (by simp [pd, RegUse.regs])) hd r
      (show laneL c w i < 32 from lowestLane_lt _) hj]
    simp only [getLsbD_oneLane hj]

end

theorem weft?_setQueueField (s : State) (q off n x l k : Nat) : (s.setQueueField q off n x).weft? l k = s.weft? l k := by
  unfold State.setQueueField
  split <;> rfl

/-- The queue that a launch record names: bits 197:192. -/
theorem recordQueue_eq {m r : Nat} (hm : m = 192 + (6 + r)) (n : Nat) :
    bf (BitVec.ofNat m n) 197 192 = n / 2 ^ 192 % 64 := by
  rw [bf_eq_mod, BitVec.toNat_ofNat, hm, Nat.pow_add, Nat.mod_mul_right_div_self]
  exact Nat.mod_mod_of_dvd _ ⟨2 ^ r, Nat.pow_add 2 6 r⟩

section
variable {s : State} {q ctx : Nat}

theorem launchStatus_off (h : s.queueCtx q ≠ ctx ∨ s.queueEn q = false) : s.launchStatus q ctx = 2 :=
  if_pos (by simpa using h)

theorem launchStatus_on (h : ¬ (s.queueCtx q ≠ ctx ∨ s.queueEn q = false)) : s.launchStatus q ctx
    = if !s.queueDev q then 3 else if (s.queueTail q - s.queueHead q).toNat = 2 ^ s.queueCap q then 1 else 0 :=
  if_neg (by simpa using h)

end

/-- What launch does with the record that it has read (R322). -/
def appendRecord (d b : Reg) (x : Iss) (n : Nat) (s : State) : Effect :=
  let q := n / 2 ^ 192 % 64
  let s1 := s.sideEffect x.l x.w
  let slot := s1.recordAddr q (s1.queueTail q)
  let case := s1.deviceCase x.w.ctx true slot 256
  if s1.launchStatus q x.w.ctx ≠ 0 then .ok (s1.setL x d (BitVec.ofNat 32 (s1.launchStatus q x.w.ctx)))
  else if case = 70 then .park
  else
    let s2 := if case = 90 then s1.writeVa (deviceView x.w.ctx) slot 256 n else s1
    let s3 := (s2.setQueueField q 24 8 (s1.queueTail q + 1).toNat).setL x d 0
    .ok (if b = 255 then s3 else s3.setLPair x b (s1.queueTail q))

theorem execLaunch_eq (h : Guard) (d a b : Reg) (s : State) : exec (.launch h d a b) s
    = issue (.launch h d a b) (macroBody fun x s => loadL (x.w.pair a x.lane) 256 256 (appendRecord d b x) x s) s := by
  show execLaunch h d a b s = _
  unfold execLaunch
  have same (k k' : Iss → Nat → State → Effect) (hk : ∀ x n s, k x n s = k' x n s) :
      issue (.launch h d a b) (macroBody fun x s => loadL (x.w.pair a x.lane) 256 256 (k x) x s) s
        = issue (.launch h d a b) (macroBody fun x s => loadL (x.w.pair a x.lane) 256 256 (k' x) x s) s := by
    rw [show k = k' from funext fun x => funext fun n => funext fun s => hk x n s]
  refine same _ _ fun x n s => ?_
  simp only [recordQueue_eq (m := 2048) (r := 1850) rfl, appendRecord]
  split
  · rfl
  · split
    · next hc => rw [if_pos hc]
    · next hc => rw [if_neg hc]

/-- What fetchw does (R323). -/
def requestFetch (a b cc : Reg) (x : Iss) (s : State) : Effect :=
  let off := (x.w.lane cc x.lane).toNat
  let va := BitVec.ofNat 64 (0xFFF * 2 ^ 52 + off)
  if 16 ≤ (s.fetches.filter fun f => f.loom == x.l).length then .hold
  else if off % 16 ≠ 0 then faultL x 0x08 va
  else if mailboxOk s x off 16 = false then faultL x 0x09 va
  else ((s.writeMailbox (mailboxAt s x off) 8 (leBytes 4 0)).map fun s1 => Effect.ok
    { s1 with fetches := s1.fetches ++ [{ loom := x.l, slot := x.k, ctx := x.w.ctx,
                                           queue := (x.w.lane b x.lane).toNat % 64, count := x.w.pair a x.lane,
                                           box := mailboxAt s x off }] }).getD .hold

theorem execFetchw_eq (h : Guard) (a b cc : Reg) (s : State) :
    exec (.fetchw h a b cc) s = issue (.fetchw h a b cc) (macroBody (requestFetch a b cc)) s := by
  show execFetchw h a b cc s = _
  unfold execFetchw
  have same (k k' : Iss → State → Effect) (hk : ∀ x s, k x s = k' x s) :
      issue (.fetchw h a b cc) (macroBody k) s = issue (.fetchw h a b cc) (macroBody k') s := by
    rw [show k = k' from funext fun x => funext fun s => hk x s]
  refine same _ _ fun x s => ?_
  simp only [requestFetch, Bool.not_eq_true']
  cases s.writeMailbox (mailboxAt s x (x.w.lane cc x.lane).toNat) 8 (leBytes 4 0) <;> rfl

/-- Settles O39: launch by the status of its queue, fetchw by the checks of its mailbox. -/
theorem launchesAndRequests : Obligations.LaunchesAndRequests := by
  refine ⟨?_, ?_⟩
  · intro s c w g d a b h _ i addr
    refine ⟨macro_idle h rfl, fun hn ha => traps h rfl ((macro_active hn).trans (loadL_unaligned ha)), ?_⟩
    intro hn s0 rec hr q s1 off full slot case
    have ran : macroBody (fun x s => loadL (x.w.pair a x.lane) 256 256 (appendRecord d b x) x s) (c.iss w i) s
        = appendRecord d b (c.iss w i) rec s0 := (macro_active hn).trans (loadL_reads hr (le_refl _) ⟨2048, rfl⟩)
    have hw1 : s1.weft? c.loom c.slot = some w := (weft?_sideEffect ..).trans ((weft?_of_reads hr ..).trans h.weft)
    have uses : operandUses i = if b = 255 then [rd d, ps a] else [rd d, ps a, pd b] := rfl
    have hd : rd d ∈ operandUses i := by
      rw [uses]
      split <;> exact List.mem_cons_self
    have refused {n : Nat} (hs : s1.launchStatus q w.ctx = n) (hne : n ≠ 0) : Gives s i c w s1 w d (BitVec.ofNat 32 n) :=
      gives h (execLaunch_eq ..) (ran.trans ((if_pos (hs.trans_ne hne)).trans
        (congrArg (fun n => Effect.ok (s1.setL (c.iss w i) d (BitVec.ofNat 32 n))) hs))) hw1 rfl rfl hd
    have taken (ho : ¬ off) (hdev : s1.queueDev q = true) (hf : ¬ full) : s1.launchStatus q w.ctx = 0 := by
      rw [launchStatus_on ho, hdev]
      exact if_neg hf
    refine ⟨fun ho => refused (launchStatus_off ho) (by decide), fun ho hdev => refused (n := 3) ?_ (by decide),
      fun ho hdev hf => refused (n := 1) ?_ (by decide), fun ho hdev hf hc => ?_, fun ho hdev hf hc => ?_⟩
    · rw [launchStatus_on ho, hdev]
      rfl
    · rw [launchStatus_on ho, hdev]
      exact if_pos hf
    · refine parks h (execLaunch_eq ..) (ran.trans ?_)
      exact (if_neg (not_not.2 (taken ho hdev hf))).trans (if_pos hc)
    · intro s2 s3
      have hw3 : s3.weft? c.loom c.slot = some w := by
        refine (weft?_setQueueField ..).trans (Eq.trans ?_ hw1)
        unfold s2
        split
        · exact State.weft?_writeVa ..
        · rfl
      have done : appendRecord d b (c.iss w i) rec s0
          = .ok (if b = 255 then s3.setWeft c.loom c.slot (w.setLane d (laneL c w i) 0)
              else (s3.setWeft c.loom c.slot (w.setLane d (laneL c w i) 0)).setLPair (c.iss w i) b (s1.queueTail q)) := by
        rw [← State.modWeft_eq (fun v => v.setLane d (laneL c w i) 0) hw3]
        exact (if_neg (not_not.2 (taken ho hdev hf))).trans (if_neg hc)
      have rest := Weft.setLane_rest w d (laneL c w i) 0
      refine ⟨w.setLane d (laneL c w i) 0, rest, lanesWritten_setLane (destFree h hd) (lowestLane_lt _) 0,
        fun hb => does h (execLaunch_eq ..) (ran.trans (done.trans (by rw [if_pos hb]))) (State.weft?_setWeft ..) ?_,
        fun hb => givesPair h (execLaunch_eq ..) (ran.trans (done.trans (by rw [if_neg hb]))) (State.weft?_setWeft ..) ?_ rest.port ?_ hb⟩
      · rw [rest]
      · rw [rest]
      · rw [uses, if_neg hb]
        simp
  · intro s c w g a b cc h i off va busy inside box
    have checked : mailboxOk s (c.iss w i) off 16 = true ↔ inside := by
      simp only [mailboxOk, List.all_eq_true, List.mem_range, beq_iff_eq]
      rfl
    have he := execFetchw_eq g a b cc s
    have run (hn : c.act w i ≠ 0) := macro_active (s := s) (i := i) (run := requestFetch a b cc) hn
    refine ⟨macro_idle h he, fun hn hb => holds h he ((run hn).trans (if_pos hb)),
      fun hn hb ha => traps h he ((run hn).trans ((if_neg hb).trans (if_pos ha))),
      fun hn hb ha hin => traps h he ((run hn).trans ((if_neg hb).trans ((if_neg (not_not.2 ha)).trans (if_pos ?_)))),
      fun hn hb ha hin s1 hm hw => does h he ((run hn).trans ((if_neg hb).trans ((if_neg (not_not.2 ha)).trans
        ((if_neg ?_).trans ?_)))) ?_ rfl⟩
    · exact Bool.eq_false_iff.2 fun hc => hin (checked.1 hc)
    · exact fun hc => Bool.eq_false_iff.1 hc (checked.2 hin)
    · refine (congrArg (fun o : Option State => (o.map _).getD Effect.hold) hm).trans ?_
      rfl
    · exact hw

end Sys2Proof.Rules
end

section
/-! SUPPORT. spawn and join of continuation records (R325, R326). -/

namespace Sys2Proof.Machine

/-- The memories and the looms may differ; the rest is as before. -/
def MemoryOnly (s t : State) : Prop := ∃ m ls, t = { s with mem := m, looms := ls }

section
variable {s t u : State}

theorem MemoryOnly.refl (s : State) : MemoryOnly s s := ⟨_, _, rfl⟩

theorem MemoryOnly.trans (a : MemoryOnly s t) (b : MemoryOnly t u) : MemoryOnly s u := by
  obtain ⟨m, ls, rfl⟩ := a
  obtain ⟨m', ls', rfl⟩ := b
  exact ⟨_, _, rfl⟩

theorem MemoryOnly.foldl {α : Type} {step : State → α → State} (hs : ∀ s a, MemoryOnly s (step s a)) (as : List α) (s : State) :
    MemoryOnly s (as.foldl step s) := by
  induction as generalizing s with
  | nil => exact MemoryOnly.refl s
  | cons a as ih => exact (hs s a).trans (ih _)

end

theorem State.writeSpot_memoryOnly (s : State) (l : Nat) (v : Byte) (sp : Spot) : MemoryOnly s (s.writeSpot l v sp) := by
  unfold State.writeSpot
  (repeat' split) <;> exact ⟨_, _, rfl⟩

theorem State.storeSpots_memoryOnly (s : State) (l : Nat) (bs : List (Spot × Byte)) (sv : Bool) :
    MemoryOnly s (s.storeSpots l bs sv) := by
  unfold State.storeSpots State.storeDev
  dsimp only
  generalize (if s.devBlocks.isEmpty then bs else bs.map fun p => (p.1, s.fielded s.devBlocks l p.1 p.2 sv)) = ps
  refine (MemoryOnly.foldl (fun s (p : Spot × Byte) => State.writeSpot_memoryOnly s l p.2 p.1) ps s).trans ?_
  unfold State.wholeUnits
  split <;> exact ⟨_, _, rfl⟩

theorem MemoryOnly.tick1 {s t : State} (h : MemoryOnly s t) : t.tick1 = { t with fresh := s.fresh + 1 } := by
  obtain ⟨m, ls, rfl⟩ := h
  rfl

end Sys2Proof.Machine

namespace Sys2Proof.Rules

open Sys2Proof.Machine

theorem contRec_bad {r : ContRec} : r.bad = true ↔ allotOk r.allot = false ∨ 191 < r.loom ∧ r.anyloom = false := by
  simp [ContRec.bad]

section
variable {s s1 : State} {i : Instr} {c : Issue} {w w1 : Weft} {body : Iss → State → Effect} {a d : Reg} {val : Word}
  {eff : View → DWord → ContRec → Iss → State → Effect} {e : Cause} {v : View} {addr : DWord} {r : ContRec}

/-- A body that traps in the state `s1`, with a cause that counts no error. -/
theorem trapsIn (h : Issuing s i c w) (he : exec i s = issue i body s) (hb : body (c.iss w i) s = .trapIn s1 e)
    (h6 : e.cause ≠ 0x06) (hE : e.cause ≠ 0x0E) :
    exec i s = .next (s1.raise c.loom c.slot c.pc (faultLane c.mask (c.act w i)) e) := by
  have quiet : s1.noteTrap (c.iss w i).l (c.iss w i).w i e = s1 := (if_neg h6).trans (if_neg hE)
  rw [he, issue_eq h, hb, Effect.outcome, quiet]
  rfl

/-- The record of spawn and join has to be aligned. -/
theorem contBody_unaligned (hn : c.act w i ≠ 0) (ha : (w.pair a (laneL c w i)).toNat % 32 ≠ 0) :
    contBody a eff (c.iss w i) s = .trap (faultAtL c w i 0x08 (w.pair a (laneL c w i))) :=
  (macro_active hn).trans (if_pos ha)

/-- The access of spawn and join to its record. -/
def recordAccess (c : Issue) (w : Weft) (i : Instr) (a : Reg) : Accesses :=
  ⟨true, true, false, [{ lane := laneL c w i, va := w.pair a (laneL c w i), len := 32 }]⟩

/-- Where the access takes effect, spawn and join go on with the record read. -/
theorem contBody_reads (hn : c.act w i ≠ 0) (ha : (w.pair a (laneL c w i)).toNat % 32 = 0)
    (ht : TakesEffect s (viewAt s c w) (recordAccess c w i a)) :
    contBody a eff (c.iss w i) s =
      eff (viewAt s c w) (w.pair a (laneL c w i))
        (ContRec.ofBits ((noted s (viewAt s c w) (recordAccess c w i a)).readVa (viewAt s c w) (w.pair a (laneL c w i)) 32))
        (c.iss w i) ((noted s (viewAt s c w) (recordAccess c w i a)).sideEffect c.loom w) :=
  (macro_active hn).trans ((if_neg (not_not.2 ha)).trans (((accessRun_of rfl)).trans (accessRun_takesEffect ht)))

/-- A record that is queued: its place is taken, or its weft waits for one. -/
theorem queueRecord_outcome {s2 : State} (h : Issuing s i c w) (he : exec i s = issue i body s)
    (hb : body (c.iss w i) s = queueRecord (c.iss w i) v d addr r val s1)
    (h2 : (s1.writeVa v (addr + 24) 8 s1.stamp.toNat).tick1 = s2) (hw2 : s2.weft? c.loom c.slot = some w)
    (hd : rd d ∈ operandUses i) :
    (∀ s3, s2.enqueue w.ctx r.loom r.anyloom addr = some s3 → s3.weft? c.loom c.slot = some w → Gives s i c w s3 w d val)
    ∧ (s2.enqueue w.ctx r.loom r.anyloom addr = none →
      IssuesAs s i c w ((s2.setWeft c.loom c.slot
        ({ w with wait := .enqueue c.pc d (laneL c w i) val addr } : Weft)).modWeft c.loom c.slot fun v => v.issued c.pc)) := by
  unfold queueRecord at hb
  simp only [h2] at hb
  refine ⟨fun s3 hs hw3 => gives h he (hb.trans ?_) hw3 rfl rfl hd, fun hs => ?_⟩
  · simp only [Issue.iss, hs]
  · refine issuesAs_waits h he (hb.trans ?_)
    rw [← State.modWeft_eq (fun u => { u with wait := .enqueue c.pc d (laneL c w i) val addr }) hw2]
    simp only [Issue.iss, hs, laneL]

theorem weft?_stamped (s : State) (v : View) (addr : DWord) (l k : Nat) :
    ({ s.writeVa v (addr + 24) 8 s.stamp.toNat with fresh := s.fresh + 1 } : State).weft? l k = s.weft? l k := by
  have kept := State.weft?_writeVa s v (addr + 24) 8 s.stamp.toNat l k
  generalize s.writeVa v (addr + 24) 8 s.stamp.toNat = t at kept ⊢
  exact kept

/-- The state in which a record has its link. -/
theorem stamped_eq (s : State) (v : View) (addr : DWord) : (s.writeVa v (addr + 24) 8 s.stamp.toNat).tick1
    = { s.writeVa v (addr + 24) 8 s.stamp.toNat with fresh := s.fresh + 1 } :=
  (State.storeSpots_memoryOnly ..).tick1

end

/-- What spawn does with a record (R325). -/
def spawnRecord (d : Reg) (v : View) (addr : DWord) (r : ContRec) (x : Iss) (s : State) : Effect :=
  if r.link ≠ 0 then faultL x 0x18
  else if r.join ≠ 0 then .ok (s.setL x d 1)
  else if r.bad then faultL x 0x18
  else queueRecord x v d addr r 0 s

/-- What join does with a record (R325). -/
def joinRecord (d : Reg) (v : View) (addr : DWord) (r : ContRec) (x : Iss) (s : State) : Effect :=
  if r.join = 0 then .ok (s.setL x d 0xFFFFFFFF)
  else
    let s1 := s.writeVa v (addr + 16) 4 (r.join - 1).toNat
    if r.join - 1 ≠ 0 then .ok (s1.setL x d (r.join - 1))
    else if r.bad then .trapIn s1 { cause := 0x18, lane := some x.lane }
    else queueRecord x v d addr r (r.join - 1) s1

/-- Settles O40: spawn and join by the record's link, join count and check. -/
theorem continuations : Obligations.Continuations := by
  intro s c w g d a i hi h addr x v
  have he : exec i s = issue i (contBody a (if i = .spawn g d a then spawnRecord d else joinRecord d)) s := by
    rcases hi with rfl | rfl
    · rw [if_pos rfl]; rfl
    · rw [if_neg (by simp)]; rfl
  have hd : rd d ∈ operandUses i := by
    rcases hi with rfl | rfl <;> exact List.mem_cons_self
  refine ⟨fun h0 => macro_idle h he h0, fun hn ha => traps h he (contBody_unaligned hn ha), ?_⟩
  intro hn ha ht r s0 bad queued
  have run := contBody_reads (eff := if i = .spawn g d a then spawnRecord d else joinRecord d) hn ha ht
  have hw0 : s0.weft? c.loom c.slot = some w := (weft?_sideEffect ..).trans ((weft?_noted ..).trans h.weft)
  have passes (hb : ¬ bad) : ¬ r.bad = true := fun hc => hb (contRec_bad.1 hc)
  refine ⟨fun hs => ?_, fun hj => ?_⟩
  · rw [if_pos hs] at run he
    refine ⟨fun hl => traps h he (run.trans (if_pos hl)),
      fun hl hc => gives h he (run.trans ((if_neg (not_not.2 hl)).trans (if_pos hc))) hw0 rfl rfl hd,
      fun hl hc hb => traps h he (run.trans ((if_neg (not_not.2 hl)).trans ((if_neg (not_not.2 hc)).trans (if_pos (contRec_bad.2 hb))))),
      fun hl hc hb => queueRecord_outcome h he
        (run.trans ((if_neg (not_not.2 hl)).trans ((if_neg (not_not.2 hc)).trans (if_neg (passes hb))))) (stamped_eq ..)
        ((weft?_stamped ..).trans hw0) hd⟩
  · have hne : i ≠ .spawn g d a := by rw [hj]; exact Instr.noConfusion
    rw [if_neg hne] at run he
    intro s1
    have hw1 : s1.weft? c.loom c.slot = some w := (State.weft?_writeVa ..).trans hw0
    have last (h1 : r.join = 1) : ¬ r.join = 0 ∧ ¬ r.join - 1 ≠ 0 ∧ r.join - 1 = 0 := by rw [h1]; decide
    refine ⟨fun h0 => gives h he (run.trans (if_pos h0)) hw0 rfl rfl hd,
      fun h0 h1 => gives h he (run.trans ((if_neg h0).trans (if_pos ?_))) hw1 rfl rfl hd,
      fun h1 hb => trapsIn h he (run.trans ((if_neg (last h1).1).trans ((if_neg (last h1).2.1).trans (if_pos (contRec_bad.2 hb)))))
        (by simp [faultAtL]) (by simp [faultAtL]),
      fun h1 hb => queueRecord_outcome h he (run.trans ((if_neg (last h1).1).trans ((if_neg (last h1).2.1).trans
        ((if_neg (passes hb)).trans (congrArg (queueRecord (c.iss w i) v d addr r · s1) (last h1).2.2)))))
        (stamped_eq ..) ((weft?_stamped ..).trans hw1) hd⟩
    exact fun hz => h1 (BitVec.sub_eq_iff_eq_add.1 hz)

end Sys2Proof.Rules
end

section
/-! SUPPORT. What a phase of a heddle delivers, and the arrivals (R342, R343). -/

namespace Sys2Proof.Machine

/-- The values of hred's fold do not depend on its flags and records. -/
theorem hredFold_value (op : Nat) (f : Fmt) (t : List Nat) (n : Nat) (acc : Nat × BitVec 6 × List (Nat × Nat)) :
    ((t.zipIdx n).foldl (fun acc p =>
      let r := hredStep op f acc.1 (if op ≤ 2 then p.1 % 2 ^ f.width else p.1)
      (r.1, acc.2.1 ||| r.2.1,
        match r.2.2 with | none => acc.2.2 | some c => acc.2.2 ++ [(p.2 + 1, c)])) acc).1
      = t.foldl (fun v x => (hredStep op f v (if op ≤ 2 then x % 2 ^ f.width else x)).1) acc.1 := by
  induction t generalizing n acc with
  | nil => rfl
  | cons x t ih => exact ih (n + 1) _

/-- hred's fold of words: no format, so each step is the operation on the words. -/
theorem hredFold_words {op : Nat} (h : ¬ op ≤ 2) (f : Fmt) (x : Nat) (t : List Nat) :
    (hredFold op f (x :: t)).1 = t.foldl (fun v y => (hredStep op f v y).1) x := by
  unfold hredFold
  refine (hredFold_value ..).trans ?_
  simp only [if_neg h]

theorem foldl_add_words (t : List Nat) (v : Nat) :
    BitVec.ofNat 32 (t.foldl (fun v y => (v + y) % 2 ^ 32) v) = BitVec.ofNat 32 (v + t.sum) := by
  induction t generalizing v with
  | nil => rfl
  | cons x t ih =>
    rw [List.foldl_cons, ih, List.sum_cons, ← Nat.add_assoc]
    apply BitVec.eq_of_toNat_eq
    simp

theorem foldl_add_lengths {α : Type} (f : α → Nat) (l : List α) (n : Nat) :
    l.foldl (fun acc x => acc + f x) n = n + (l.map f).sum := by
  induction l generalizing n with
  | nil => rfl
  | cons x l ih => rw [List.foldl_cons, ih, List.map_cons, List.sum_cons, Nat.add_assoc]

end Sys2Proof.Machine

namespace Sys2Proof.Rules

open Sys2Proof.Machine

theorem word_of_vote {b : Bool} {p : Prop} [Decidable p] (h : b = true ↔ p) :
    BitVec.ofNat 32 (if b then 1 else 0) = if p then 1 else 0 := by
  simp only [h]
  split <;> rfl

theorem hredFold_eq {vs : List Nat} {op : Nat} (h : ¬ op ≤ 2) (f : Fmt) {g : List Nat → Word}
    (hn : g [] = 0) (hc : ∀ x t, BitVec.ofNat 32 (t.foldl (fun v y => (hredStep op f v y).1) x) = g (x :: t)) :
    BitVec.ofNat 32 (hredFold op f vs).1 = g vs := by
  cases vs with
  | nil => exact hn.symm
  | cons x t => rw [hredFold_words h, hc]

/-- What a phase writes is the result of its operation (R343). -/
theorem heddleResult_eq {e : Heddle} {f : Nat → Word} (h : heddleResult e = some f) (j : Nat) : f j = phaseResult e j := by
  obtain ⟨mask, team, num, acnt, phase, op, sub, def_, vals, source, arrived⟩ := e
  cases op with
  | none | hbar => exact absurd h (by simp [heddleResult])
  | hvote =>
    obtain rfl := Option.some.inj h
    match sub with
    | 0 => exact word_of_vote (by simp [phaseWords])
    | 1 => exact word_of_vote (List.all_eq_true.trans (forall₂_congr fun x _ => beq_iff_eq))
    | n + 2 =>
      show BitVec.ofNat 32 _ = BitVec.ofNat 32 _
      rw [foldl_add_lengths, Nat.zero_add]
      rfl
  | hred =>
    obtain rfl := Option.some.inj h
    match sub with
    | 0 | 1 | 2 => rfl
    | 3 => exact hredFold_eq (op := 3) (g := fun vs => BitVec.ofNat 32 vs.sum) (by decide) _ rfl fun x t => foldl_add_words t x
    | 4 => exact hredFold_eq (op := 4) (g := fun vs => BitVec.ofNat 32 (vs.tail.foldl (· &&& ·) (vs.headD 0))) (by decide) _ rfl
             fun x t => rfl
    | 5 => exact hredFold_eq (op := 5) (g := fun vs => BitVec.ofNat 32 (vs.foldl (· ||| ·) 0)) (by decide) _ rfl
             fun x t => by rw [List.foldl_cons, Nat.zero_or]; rfl
    | 6 => exact hredFold_eq (op := 6) (g := fun vs => BitVec.ofNat 32 (vs.foldl (· ^^^ ·) 0)) (by decide) _ rfl
             fun x t => by rw [List.foldl_cons, Nat.zero_xor]; rfl
    | n + 7 => rfl
  | hbcast =>
    obtain rfl := Option.some.inj h
    rfl

theorem heddleResult_none {e : Heddle} : heddleResult e = none ↔ e.op = .none ∨ e.op = .hbar := by
  unfold heddleResult
  split <;> simp [*]

theorem refuses_iff (e : Heddle) (a : Arrival) : e.refuses a = true ↔
    (e.op ≠ .none ∧ (e.op ≠ a.op ∨ a.op ≠ .hbcast ∧ (e.sub ≠ a.sub ∨ e.def_ ≠ a.def_)))
      ∨ a.src.isSome = true ∧ e.source.isSome = true := by
  simp [Heddle.refuses]

/-! ## The arrival of each instruction -/

/-- What an instruction that has an arrival does with lanes active. -/
def arriveBody (hd : BitVec 8) (d : Reg) (a : Arrival) : Iss → State → Effect := heddleBody hd d fun _ => a

section
variable {s : State} {i : Instr} {c : Issue} {w : Weft} {hd : BitVec 8} {d : Reg} {a : Arrival}

/-- An instruction brings its arrival to the heddle, and does nothing with no lane active. -/
def BringsArrival (s : State) (i : Instr) (c : Issue) (w : Weft) (hd : BitVec 8) (d : Reg) (a : Arrival) : Prop :=
  ∃ body, exec i s = issue i body s ∧ (c.act w i = 0 → body (c.iss w i) s = .ok s)
    ∧ (c.act w i ≠ 0 → body (c.iss w i) s = arriveBody hd d a (c.iss w i) s)

theorem heddleBody_brings {arr : Iss → Arrival} (he : exec i s = issue i (heddleBody hd d arr) s) (ha : arr (c.iss w i) = a) :
    BringsArrival s i c w hd d a := by
  subst ha
  exact ⟨_, he, fun h0 => if_pos h0, fun _ => rfl⟩

theorem kind_neither {f : Fmt} : (!(f.isFloat || f.isInt)) = true ↔ f.kind ≠ 0 ∧ f.kind ≠ 1 := by
  simp [Fmt.isFloat, Fmt.isInt]

/-- What hred does with lanes active. -/
def reduceBody (op : HredOp) (n : BitVec 4) (d a : Reg) (hd : BitVec 8) (x : Iss) (s : State) : Effect :=
  let f := Fmt.ofDef (x.w.fmt n)
  if hredSub op ≤ 2 && !(f.isFloat || f.isInt) then .trap { cause := 0x07 }
  else
    heddleBody hd d (fun x =>
      { op := .hred, sub := hredSub op, def_ := if hredSub op ≤ 2 then x.w.fmt n else 0, src := none,
        val := some ((if hredSub op ≤ 2 then (BitVec.ofNat 32 ((x.w.lane a x.lane).toNat % 2 ^ f.width)) else
          x.w.lane a x.lane).setWidth 64) }) x s

theorem execHred_eq (g : Guard) (op : HredOp) (n : BitVec 4) (d a : Reg) (hd : BitVec 8) (s : State) :
    exec (.hred g op n d a hd) s = issue (.hred g op n d a hd) (macroBody (reduceBody op n d a hd)) s := by
  show execHred g op n d a hd s = _
  rfl

/-- The arrival of a reduction, where its element has a format. -/
def reduction (c : Issue) (w : Weft) (i : Instr) (op : HredOp) (n : BitVec 4) (a : Reg) : Arrival :=
  { op := .hred, sub := hredSub op, def_ := if hredSub op ≤ 2 then w.fmt n else 0, src := none,
    val := some (BitVec.ofNat 64 (if hredSub op ≤ 2 then (w.lane a (laneL c w i)).toNat % 2 ^ (slotOf w n).width
      else (w.lane a (laneL c w i)).toNat)) }

theorem reduction_eq (c : Issue) (w : Weft) (i : Instr) (op : HredOp) (n : BitVec 4) (a : Reg) :
    ({ op := .hred, sub := hredSub op, def_ := if hredSub op ≤ 2 then w.fmt n else 0, src := none,
       val := some ((if hredSub op ≤ 2 then (BitVec.ofNat 32 ((w.lane a (laneL c w i)).toNat % 2 ^ (slotOf w n).width)) else
         w.lane a (laneL c w i)).setWidth 64) } : Arrival) = reduction c w i op n a := by
  have value : (if hredSub op ≤ 2 then (BitVec.ofNat 32 ((w.lane a (laneL c w i)).toNat % 2 ^ (slotOf w n).width)) else
      w.lane a (laneL c w i)).setWidth 64
      = BitVec.ofNat 64 (if hredSub op ≤ 2 then (w.lane a (laneL c w i)).toNat % 2 ^ (slotOf w n).width
        else (w.lane a (laneL c w i)).toNat) := by
    split
    · have small := (Nat.mod_le (w.lane a (laneL c w i)).toNat (2 ^ (slotOf w n).width)).trans_lt (w.lane a (laneL c w i)).isLt
      apply BitVec.eq_of_toNat_eq
      rw [BitVec.toNat_setWidth, BitVec.toNat_ofNat, BitVec.toNat_ofNat, Nat.mod_eq_of_lt small]
    · exact (BitVec.ofNat_toNat ..).symm
  rw [value, reduction]

/-- A body depends on the arrival alone. -/
theorem heddleBody_congr {arr arr' : Iss → Arrival} {x : Iss} (h : arr x = arr' x) :
    heddleBody hd d arr x s = heddleBody hd d arr' x s := by
  unfold heddleBody macroBody
  dsimp only
  rw [h]

/-- hred takes a format fault where its element has no format (R343). -/
theorem reduceBody_fault {op : HredOp} {n : BitVec 4} {b : Reg} {x : Iss}
    (hf : hredSub op ≤ 2 ∧ (slotOf x.w n).kind ≠ 0 ∧ (slotOf x.w n).kind ≠ 1) :
    reduceBody op n d b hd x s = .trap { cause := 0x07 } :=
  if_pos (Bool.and_eq_true _ _ ▸ ⟨decide_eq_true hf.1, kind_neither.2 hf.2⟩)

theorem reduceBody_arrives {op : HredOp} {n : BitVec 4} {b : Reg}
    (hf : ¬ (hredSub op ≤ 2 ∧ (slotOf w n).kind ≠ 0 ∧ (slotOf w n).kind ≠ 1)) :
    reduceBody op n d b hd (c.iss w i) s = arriveBody hd d (reduction c w i op n b) (c.iss w i) s := by
  refine (if_neg fun h => hf ?_).trans (heddleBody_congr (reduction_eq c w i op n b))
  obtain ⟨h1, h2⟩ := (Bool.and_eq_true _ _).mp h
  exact ⟨of_decide_eq_true h1, kind_neither.1 h2⟩

theorem arrivalOf_hred (g : Guard) (op : HredOp) (n : BitVec 4) (d' a' : Reg) (hd' : BitVec 8) :
    arrivalOf c w (.hred g op n d' a' hd') =
      if hredSub op ≤ 2 ∧ (slotOf w n).kind ≠ 0 ∧ (slotOf w n).kind ≠ 1 then none
      else some (hd', d', reduction c w (.hred g op n d' a' hd') op n a') := by
  cases op
  case sum | min | max => simp [arrivalOf, hredSub, reduction]
  case iadd | and | or | xor => simp [arrivalOf, hredSub, reduction]

theorem arrival_brings (h : arrivalOf c w i = some (hd, d, a)) : BringsArrival s i c w hd d a := by
  cases i
  case hbar g hd' =>
    obtain ⟨rfl, rfl, rfl⟩ := h
    exact heddleBody_brings rfl rfl
  case hvote g m d' a' hd' =>
    obtain ⟨rfl, rfl, rfl⟩ := h
    refine heddleBody_brings rfl ?_
    cases m <;> rfl
  case hred g op n d' a' hd' =>
    rw [arrivalOf_hred] at h
    by_cases hf : hredSub op ≤ 2 ∧ (slotOf w n).kind ≠ 0 ∧ (slotOf w n).kind ≠ 1
    · exact absurd h (by rw [if_pos hf]; simp)
    · rw [if_neg hf] at h
      obtain ⟨rfl, rfl, rfl⟩ := h
      refine ⟨_, execHred_eq .., fun h0 => if_pos h0, fun hn => (macro_active hn).trans (reduceBody_arrives hf)⟩
  case hbcast g src d' a' hd' =>
    obtain ⟨rfl, rfl, rfl⟩ := h
    exact heddleBody_brings rfl rfl
  all_goals exact absurd h (by simp [arrivalOf])

theorem arrivalOf_op (h : arrivalOf c w i = some (hd, d, a)) : a.op ≠ .none := by
  cases i
  case hbar => obtain ⟨-, -, rfl⟩ := h; exact HedOp.noConfusion
  case hvote => obtain ⟨-, -, rfl⟩ := h; exact HedOp.noConfusion
  case hred =>
    rw [arrivalOf_hred] at h
    split at h
    · exact absurd h.symm (Option.some_ne_none _)
    · obtain ⟨-, -, rfl⟩ := h
      exact HedOp.noConfusion
  case hbcast => obtain ⟨-, -, rfl⟩ := h; exact HedOp.noConfusion
  all_goals exact absurd h (by simp [arrivalOf])

/-- But for hbar, the register of an arrival is the instruction's destination. -/
theorem arrivalOf_dest (h : arrivalOf c w i = some (hd, d, a)) (hb : a.op ≠ .hbar) : rd d ∈ operandUses i := by
  cases i
  case hbar => obtain ⟨-, -, rfl⟩ := h; exact absurd rfl hb
  case hvote => obtain ⟨-, rfl, -⟩ := h; exact List.mem_cons_self
  case hred =>
    rw [arrivalOf_hred] at h
    split at h
    · exact absurd h.symm (Option.some_ne_none _)
    · obtain ⟨-, rfl, -⟩ := h
      exact List.mem_cons_self
  case hbcast g src d' a' hd' =>
    obtain ⟨-, rfl, -⟩ := h
    cases src <;> exact List.mem_cons_self
  all_goals exact absurd h (by simp [arrivalOf])

/-! ## What an arrival does -/

section
variable {x : Iss} {t key : Nat} {e : Heddle}

/-- A state in which an arrival has been added to its heddle, and its weft waits there. -/
def arrived (x : Iss) (s : State) (hd : BitVec 8) (d : Reg) (key : Nat) (e : Heddle) : State :=
  (s.modLoom x.l fun y => { y with heddles := SMap.put y.heddles key e }).modWeft x.l x.k fun w =>
    { (w.issued x.pc) with wait := .heddle x.pc hd.toNat d x.act x.lane }

theorem arrive_alone (hn : x.act ≠ 0) (ht : x.w.team = none) (h0 : hd = 0) :
    (heddleResult ((soloHeddle x.k).arrive x.k 0 a) = none → arriveBody hd d a x s = .ok s)
    ∧ ∀ f, heddleResult ((soloHeddle x.k).arrive x.k 0 a) = some f →
        arriveBody hd d a x s = .ok (s.modWeft x.l x.k fun w => w.writeLanes x.act d f) := by
  constructor
  · intro hr
    simp only [arriveBody, heddleBody, macroBody, if_neg hn, ht, h0, ne_eq, not_true_eq_false, if_false, hr]
  · intro f hr
    simp only [arriveBody, heddleBody, macroBody, if_neg hn, ht, h0, ne_eq, not_true_eq_false, if_false, hr]

theorem arrive_stray (hn : x.act ≠ 0) (ht : x.w.team = none) (h0 : hd ≠ 0) : arriveBody hd d a x s = faultL x 0x16 := by
  simp only [arriveBody, heddleBody, macroBody, if_neg hn, ht, if_pos h0]

theorem arrive_absent (hn : x.act ≠ 0) (ht : x.w.team = some t) (hh : (s.loom x.l).heddleOf t hd.toNat = none) :
    arriveBody hd d a x s = faultL x 0x16 := by
  simp only [arriveBody, heddleBody, macroBody, if_neg hn, ht, hh]

theorem arrive_refused (hn : x.act ≠ 0) (ht : x.w.team = some t) (hh : (s.loom x.l).heddleOf t hd.toNat = some (key, e))
    (hr : x.k ∉ e.mask ∨ e.refuses a = true) : arriveBody hd d a x s = faultL x 0x16 := by
  have refused : (!e.mask.contains x.k || e.refuses a) = true := by simpa using hr
  simp only [arriveBody, heddleBody, macroBody, if_neg hn, ht, hh, if_pos refused]

theorem arrive_taken (hn : x.act ≠ 0) (ht : x.w.team = some t) (hh : (s.loom x.l).heddleOf t hd.toNat = some (key, e))
    (hm : x.k ∈ e.mask) (hr : ¬ e.refuses a = true) : arriveBody hd d a x s =
      let s1 := arrived x s hd d key (e.arrive x.k x.w.num a)
      .waits (if e.acnt + 1 = e.mask.length then s1.completePhase x.l key else s1) := by
  have taken : ¬ (!e.mask.contains x.k || e.refuses a) = true := by simpa using ⟨hm, Bool.eq_false_iff.2 hr⟩
  simp only [arriveBody, heddleBody, macroBody, if_neg hn, ht, hh, if_neg taken]
  rfl

end

end

section
variable {s : State} {x : Iss} {hd : BitVec 8} {a : Reg} {t key : Nat} {e : Heddle}

/-- The wefts that hset names (R345). -/
theorem setSlots_eq (s : State) (l t : Nat) (set : DWord) : s.setSlots l t set =
    ((s.loom l).wefts.filter fun p => p.2.team == some t && p.2.ended.isNone && set.getLsbD p.2.num).map (·.1) := by
  unfold State.setSlots State.liveWefts
  rw [List.filter_filter]
  congr 2
  funext p
  rw [Bool.and_comm, Bool.and_assoc]

/-- hset refuses a set (R345). -/
def refusesSet (s : State) (l t : Nat) (hd : BitVec 8) (set : DWord) : Bool :=
  hd = 0 || set = 0 || (s.setSlots l t set).length != ((List.range 64).filter fun n => set.getLsbD n).length
    || (s.setSlots l t set).any fun k => (s.loom l).otherHeddles t hd.toNat k ≥ 4

/-- What hset does with lanes active. -/
def setBody (hd : BitVec 8) (a : Reg) (x : Iss) (s : State) : Effect :=
  match x.w.team with
  | none => faultL x 0x16
  | some t =>
    match (s.loom x.l).heddleOf t hd.toNat with
    | none => faultL x 0x16
    | some (_, e) =>
      if refusesSet s x.l t hd (x.w.pair a x.lane) then faultL x 0x16
      else if e.acnt = 0 then .ok (s.commitSet x.l t hd.toNat (x.w.pair a x.lane))
      else .waits (s.modWeft x.l x.k fun w => { w with wait := .hset x.pc hd.toNat (x.w.pair a x.lane) })

theorem execHset_eq (g : Guard) (hd : BitVec 8) (a : Reg) (s : State) :
    exec (.hset g hd a) s = issue (.hset g hd a) (macroBody (setBody hd a)) s := by
  show execHset g hd a s = _
  unfold execHset
  have same (k k' : Iss → State → Effect) (hk : ∀ x s, k x s = k' x s) :
      issue (.hset g hd a) (macroBody k) s = issue (.hset g hd a) (macroBody k') s := by
    rw [show k = k' from funext fun x => funext fun s => hk x s]
  refine same _ _ fun x s => ?_
  unfold setBody
  cases x.w.team with
  | none => rfl
  | some t =>
    dsimp only
    cases (s.loom x.l).heddleOf t hd.toNat <;> rfl

theorem setBody_stray (ht : x.w.team = none) : setBody hd a x s = faultL x 0x16 := by
  simp only [setBody, ht]

theorem setBody_absent (ht : x.w.team = some t) (hh : (s.loom x.l).heddleOf t hd.toNat = none) :
    setBody hd a x s = faultL x 0x16 := by
  simp only [setBody, ht, hh]

theorem setBody_present (ht : x.w.team = some t) (hh : (s.loom x.l).heddleOf t hd.toNat = some (key, e)) :
    setBody hd a x s =
      if refusesSet s x.l t hd (x.w.pair a x.lane) then faultL x 0x16
      else if e.acnt = 0 then .ok (s.commitSet x.l t hd.toNat (x.w.pair a x.lane))
      else .waits (s.modWeft x.l x.k fun w => { w with wait := .hset x.pc hd.toNat (x.w.pair a x.lane) }) := by
  simp only [setBody, ht, hh]

theorem commitSet_eq {l : Nat} (hh : (s.loom l).heddleOf t hd.toNat = some (key, e)) (set : DWord) :
    s.commitSet l t hd.toNat set
      = s.modLoom l fun y => { y with heddles := SMap.put y.heddles key { e with mask := s.setSlots l t set } } := by
  simp only [State.commitSet, hh]

end

/-- Settles O43: an arrival by the state of its heddle, a new mask by the arrivals that are pending. -/
theorem heddles : Obligations.Heddles := by
  refine ⟨?_, ?_, ?_⟩
  · intro s i c w hd d a h ha
    obtain ⟨body, he, idle, active⟩ := arrival_brings (s := s) ha
    refine ⟨fun h0 => writesNothing h he (idle h0), fun hn ht =>
      ⟨fun hd0 => traps h he ((active hn).trans (arrive_stray hn ht hd0)), fun hd0 => ?_⟩, ?_⟩
    · obtain ⟨none, some⟩ := arrive_alone (s := s) (d := d) (a := a) (x := c.iss w i) hn ht hd0
      have lone : heddleResult ((soloHeddle c.slot).arrive c.slot 0 a) = .none ↔ a.op = .hbar :=
        heddleResult_none.trans (or_iff_right (arrivalOf_op ha))
      by_cases hb : a.op = .hbar
      · rw [if_pos hb]
        exact completesAs h he ((active hn).trans (none (lone.2 hb))) rfl h.weft (onlyLanes_refl h.weft)
          fun _ _ _ => (if_neg fun hr => hr.2.1 rfl).symm
      · rw [if_neg hb]
        obtain ⟨f, hf⟩ := Option.ne_none_iff_exists'.1 fun hr => hb (lone.1 hr)
        obtain ⟨rest, lanes⟩ := Weft.writeLanes_spec (destFree h (arrivalOf_dest ha hb)) (c.act w i) f
        refine completesAs h he ((active hn).trans ((some f hf).trans ?_)) rfl h.weft (OnlyLanes.setWeft s c.loom c.slot rest)
          fun r j hj => ?_
        · rw [State.modWeft_eq (l := (c.iss w i).l) (k := (c.iss w i).k) _ h.weft]
          rfl
        · rw [lanes r j hj, heddleResult_eq hf]
    · intro hn t ht
      refine ⟨fun hh => traps h he ((active hn).trans (arrive_absent hn ht hh)), ?_⟩
      intro key e hh differs second e' s1
      refine ⟨fun hb => traps h he ((active hn).trans (arrive_refused hn ht hh (hb.imp_right (refuses_iff e a).2))),
        fun hm hd hs => issuesAs_waits h he ((active hn).trans (arrive_taken hn ht hh hm fun hr => ?_))⟩
      exact ((refuses_iff e a).1 hr).elim hd hs
  · intro s c w g op n d a hd h ha i
    rw [arrivalOf_hred] at ha
    have he := execHred_eq g op n d a hd s
    refine ⟨macro_idle h he, fun hn => traps h he ((macro_active hn).trans (reduceBody_fault ?_))⟩
    show hredSub op ≤ 2 ∧ (slotOf w n).kind ≠ 0 ∧ (slotOf w n).kind ≠ 1
    by_contra hf
    exact Option.some_ne_none _ ((if_neg hf).symm.trans ha)
  · intro s c w g hd a h i set
    have he := execHset_eq g hd a s
    refine ⟨macro_idle h he, fun hn ht => traps h he ((macro_active hn).trans (setBody_stray ht)),
      fun hn t ht => ⟨fun hh => traps h he ((macro_active hn).trans (setBody_absent ht hh)), ?_⟩⟩
    intro key e hh members others bad
    have named : s.setSlots c.loom t set = members := setSlots_eq ..
    have run := (macro_active (s := s) (run := setBody hd a) hn).trans (setBody_present ht hh)
    have refused : refusesSet s (c.iss w i).l t hd ((c.iss w i).w.pair a (c.iss w i).lane) = true ↔ bad := by
      show refusesSet s c.loom t hd set = true ↔ _
      simp only [refusesSet, named, Bool.or_eq_true, decide_eq_true_eq, bne_iff_ne, List.any_eq_true, or_assoc]
      rfl
    refine ⟨fun hb => traps h he (run.trans (if_pos (refused.2 hb))), fun hb h0 => ?_, fun hb h0 => ?_⟩
    · have done := run.trans ((if_neg fun hr => hb (refused.1 hr)).trans (if_pos h0))
      refine does h he (done.trans ?_) ((State.weft?_modLoom _ _ _ _ rfl).trans h.weft) rfl
      show Effect.ok (s.commitSet c.loom t hd.toNat set) = _
      rw [commitSet_eq hh, named]
    · have waits := run.trans ((if_neg fun hr => hb (refused.1 hr)).trans (if_neg h0))
      rw [← State.modWeft_eq (fun v => { v with wait := .hset c.pc hd.toNat set }) h.weft]
      exact issuesAs_waits h he waits

end Sys2Proof.Rules
end

section
/-! SUPPORT. The steps of one weft (R40 to R45, R160, R161, R165, R208, R325, R335, R345, R377, R416). -/

namespace Sys2Proof.Machine

section
variable {s : State} {l k : Nat} {w : Weft}

theorem Weft.finish_rest (w : Weft) (pc : DWord) : w.finish pc = { w with held := (w.finish pc).held } := by
  unfold Weft.finish
  split <;> rfl

/-! ## The end of a weft (R45, R160) -/

theorem State.canEnd_of (hheld : w.held = []) (hspilled : w.spilled = []) (htrap : w.trap = none) (hfaulted : w.faulted = [])
    (hops : (s.loom l).opsOf k = []) (hreplay : ∀ o ∈ w.replay, o.cls = .bank) (hended : ∀ x, w.ended = some x → x.written = true)
    (hwait : w.wait = .none) (hteam : ∀ h, w.team = some h → ∃ t, s.team? l h = some t ∧ t.unstarted = false) :
    s.canEnd l k w = true := by
  simp only [State.canEnd, Bool.and_eq_true, List.isEmpty_iff, Option.isNone_iff_eq_none]
  refine ⟨⟨⟨⟨⟨⟨⟨⟨hheld, hspilled⟩, htrap⟩, hfaulted⟩, hops⟩, ?_⟩, ?_⟩, ?_⟩, ?_⟩
  · exact List.all_eq_true.2 fun o ho => beq_iff_eq.2 (hreplay o ho)
  · split
    · next e he => exact hended e he
    · rfl
  · rw [hwait]
  · split
    · rfl
    · next h hh =>
      obtain ⟨t, ht, hu⟩ := hteam h hh
      simp only [ht, hu, Bool.not_false]

theorem State.canEnd_false (h : w.held ≠ [] ∨ w.spilled ≠ [] ∨ w.wait ≠ .none ∨ w.trap.isSome = true ∨ w.faulted ≠ []
    ∨ (s.loom l).opsOf k ≠ []) : s.canEnd l k w = false := by
  by_contra hc
  simp only [Bool.not_eq_false, State.canEnd, Bool.and_eq_true, List.isEmpty_iff, Option.isNone_iff_eq_none] at hc
  obtain ⟨⟨⟨⟨⟨⟨⟨⟨hheld, hspilled⟩, htrap⟩, hfaulted⟩, hops⟩, -⟩, -⟩, hwait⟩, -⟩ := hc
  have hwait' : w.wait = .none := by
    revert hwait
    cases w.wait <;> simp
  simp [hheld, hspilled, htrap, hfaulted, hops, hwait'] at h

theorem State.endWeft_freed (hw : s.weft? l k = some w) : (s.endWeft l k).weft? l k = none
    ∧ ∀ a, w.spillBase ≤ a → a < w.spillBase + 256 → Memory.read ((s.endWeft l k).loom l).mem a = 0 := by
  unfold State.endWeft
  rw [hw]
  dsimp only
  refine ⟨?_, fun a h1 h2 => ?_⟩
  · simp [State.weft?]
  · rw [State.loom_modLoom, Memory.read_zero, if_pos ⟨h1, h2⟩]

theorem exec_weftEnd (hw : s.weft? l k = some w) :
    exec (.weftEnd l k) s = .next (if s.canEnd l k w then s.endWeft l k else s) := by
  show execWeftEnd l k s = _
  simp only [execWeftEnd, hw]

/-! ## Traps, the frontier and the pass over a weft (R40, R42, R161, R416) -/

theorem exec_trapEntry (hw : s.weft? l k = some w) :
    exec (.trapEntry l k) s = if s.halted l w then .next s else .next ((s.takeDue l k w).getD s) := by
  show execTrapEntry l k s = _
  simp only [execTrapEntry, hw]

theorem exec_frontierSpillReturn (hw : s.weft? l k = some w) :
    exec (.frontierSpillReturn l k) s = .next (if w.movesDue then s.settleWeft l k w else s) := by
  show execFrontierSpillReturn l k s = _
  simp only [execFrontierSpillReturn, hw]

theorem exec_entryStarving (hw : s.weft? l k = some w) :
    exec (.entryStarving l k) s = .next (if w.spilled.any Entry.starving && w.movesDue then s.settleWeft l k w else s) := by
  show execEntryStarving l k s = _
  simp only [execEntryStarving, hw]

theorem Weft.movesDue_iff : w.movesDue = true ↔ w.mayIssue = true ∧ w.needsSpill = true := Bool.and_eq_true_iff

theorem Weft.movesDue_false (h : w.mayIssue = false ∨ w.needsSpill = false) : w.movesDue = false := Bool.and_eq_false_iff.2 h

theorem exec_yieldPassEnd (hw : s.weft? l k = some w) :
    exec (.yieldPassEnd l k) s = .next (match w.yielded with
      | none => s
      | some y => if y.over then s.setWeft l k { w with yielded := none } else s) := by
  show execYieldPassEnd l k s = _
  simp only [execYieldPassEnd, hw]
  split <;> simp only [*]

theorem YieldPass.over_iff (y : YieldPass) : y.over = true ↔ y.slots = [] ∨ y.left = 0 := by
  simp [YieldPass.over]

/-! ## The steps that end a wait -/

theorem exec_vgrowBlocksObtained {pc : DWord} {mask act : Word} {d : Reg} {n : Nat} {since : DWord} (hw : s.weft? l k = some w)
    (hwait : w.wait = .vgrow pc mask d n act since) : exec (.vgrowBlocksObtained l k) s =
      if (s.loom l).growers.head? = some k ∧ (s.loom l).freeBlocks ≥ blocksOf n - blocksOf w.allot
          ∧ (s.clock - since).toNat < 4096 ∧ s.halted l w = false then .next (s.endVgrow l k true)
      else .next s := by
  show execVgrowBlocksObtained l k s = _
  simp only [execVgrowBlocksObtained, hw, hwait]

theorem exec_vgrowTimeout {pc : DWord} {mask act : Word} {d : Reg} {n : Nat} {since : DWord} (hw : s.weft? l k = some w)
    (hwait : w.wait = .vgrow pc mask d n act since) : exec (.vgrowTimeout l k) s =
      if (s.clock - since).toNat ≥ 4096 ∧ s.halted l w = false then .next (s.endVgrow l k false) else .next s := by
  show execVgrowTimeout l k s = _
  simp only [execVgrowTimeout, hw, hwait]

theorem State.endVgrow_eq {pc : DWord} {mask act : Word} {d : Reg} {n : Nat} {since : DWord} (hw : s.weft? l k = some w)
    (hwait : w.wait = .vgrow pc mask d n act since) (ok : Bool) : s.endVgrow l k ok =
      ((((s.modLoom l fun x => { x with growers := x.growers.filter (· != k) }).waitIssues l k w pc act).modWeft l k
        fun v => { v with allot := if ok then n else v.allot }).finishWait l k pc d act 0 (some fun _ => if ok then 0 else 1)) := by
  simp only [State.endVgrow, hw, hwait]

theorem exec_hsetCommit {pc : DWord} {hd t key : Nat} {set : DWord} {e : Heddle} (hw : s.weft? l k = some w)
    (hwait : w.wait = .hset pc hd set) (ht : w.team = some t) (hh : (s.loom l).heddleOf t hd = some (key, e)) :
    exec (.hsetCommit l k) s =
      if e.acnt ≠ 0 then .next s
      else .next ((s.modLoom l fun y => { y with heddles := SMap.put y.heddles key { e with mask := s.setSlots l t set } }).finishWait
        l k pc 255 0 0 none) := by
  show execHsetCommit l k s = _
  simp only [execHsetCommit, hw, hwait, ht, hh, State.commitSet]

theorem exec_continuationEnqueue {pc : DWord} {d : Reg} {lane : Nat} {val : Word} {addr : DWord} (hw : s.weft? l k = some w)
    (hwait : w.wait = .enqueue pc d lane val addr) :
    let r := ContRec.ofBits (s.readVa (s.viewOf l w) addr 32)
    (∀ s1, s.enqueue w.ctx r.loom r.anyloom addr = some s1 → exec (.continuationEnqueue l k) s
      = .next (s1.finishWait l k pc d (BitVec.ofNat 32 (2 ^ lane)) 0 (some fun _ => val)))
    ∧ (s.enqueue w.ctx r.loom r.anyloom addr = none → exec (.continuationEnqueue l k) s = .next s) := by
  constructor
  · intro s1 hs
    show execContinuationEnqueue l k s = _
    simp only [execContinuationEnqueue, hw, hwait, hs]
  · intro hs
    show execContinuationEnqueue l k s = _
    simp only [execContinuationEnqueue, hw, hwait, hs]

/-- A withdrawal that has waited issues, with its status (R377). -/
def State.withdraws (s : State) (l k : Nat) (w : Weft) (pc : DWord) (act : Word) (d : Reg) (v : Word) : State :=
  ((s.sideEffect l w).waitIssues l k w pc act).finishWait l k pc d (BitVec.ofNat 32 (2 ^ lowestLane act)) 0 (some fun _ => v)

theorem exec_sbWdrFree {pc : DWord} {mask act : Word} {d : Reg} {hd : Word} (hw : s.weft? l k = some w)
    (hwait : w.wait = .sbWdr pc mask d act hd) :
    ((s.loom l).named w.ctx hd = none → exec (.sbWdrFree l k) s = .next (s.withdraws l k w pc act d 1))
    ∧ ∀ j e, (s.loom l).named w.ctx hd = some (j, e) → exec (.sbWdrFree l k) s =
        if (s.loom l).wdrWaits j then .next s
        else .next ((s.modLoom l fun y => y.freeEntry j).withdraws l k w pc act d 0) := by
  constructor
  · intro hn
    show execSbWdrFree l k s = _
    simp only [execSbWdrFree, hw, hwait, hn, State.withdraws]
  · intro j e hn
    show execSbWdrFree l k s = _
    simp only [execSbWdrFree, hw, hwait, hn, State.withdraws]

/-- What messageSend does with a flit that waits (R335, R336). -/
theorem exec_messageSend {pc : DWord} {header act : Word} {fl : List Word} (hw : s.weft? l k = some w)
    (hwait : w.wait = .send pc header act fl) :
    (s.portOf w.ctx header = none → exec (.messageSend l k) s
      = .next ((s.setWeft l k { w with wait := .none }).raise l k pc (lowestLane act)
          { cause := 0x19, lane := some (lowestLane act) }))
    ∧ ∀ tl tk q, s.portOf w.ctx header = some (tl, tk, q) → exec (.messageSend l k) s =
        if q.flits.length ≥ q.quota then .next s
        else .next (((s.setWeft l k { w.finish pc with wait := .none }).sideEffect l w).sendFlit l tl tk fl) := by
  constructor
  · intro hp
    show execMessageSend l k s = _
    simp only [execMessageSend, hw, hwait, hp, State.modWeft_eq _ hw]
  · intro tl tk q hp
    show execMessageSend l k s = _
    simp only [execMessageSend, hw, hwait, hp, State.modWeft_eq _ hw]

end

/-! ## A flit that is accepted (R335) -/

section
variable {s : State} {l k tl tk : Nat}

theorem State.portOf_iff {ctx : Nat} {header : Word} {q : Port} : s.portOf ctx header = some (tl, tk, q) ↔
    tl = (header.extractLsb' 0 8).toNat ∧ tk = (header.extractLsb' 8 10).toNat
      ∧ ∃ v, s.weft? tl tk = some v ∧ v.ctx = ctx ∧ v.port = some q := by
  unfold State.portOf
  dsimp only
  constructor
  · intro h
    split at h
    · exact absurd h.symm (Option.some_ne_none _)
    · next v hv =>
      split at h
      · next hc =>
        obtain ⟨p, hp, he⟩ := Option.map_eq_some_iff.1 h
        obtain ⟨rfl, rfl, rfl⟩ := he
        exact ⟨rfl, rfl, v, hv, hc, hp⟩
      · exact absurd h.symm (Option.some_ne_none _)
  · rintro ⟨rfl, rfl, v, hv, hc, hp⟩
    rw [hv]
    simp only [hc, hp, if_true, Option.map_some]

theorem State.weft?_setWeft_any (s : State) (l k : Nat) (w : Weft) (a b : Nat) :
    (s.setWeft l k w).weft? a b = if a = l ∧ b = k then some w else s.weft? a b := by
  by_cases ha : a = l
  · subst ha
    by_cases hb : b = k
    · subst hb
      rw [State.weft?_setWeft, if_pos ⟨rfl, rfl⟩]
    · rw [State.weft?_setWeft_ne _ _ _ (Ne.symm hb), if_neg fun h => hb h.2]
  · rw [if_neg fun h => ha h.1]
    unfold State.weft?
    rw [State.loom_setWeft_ne _ _ _ ha]

theorem State.weft?_modWeft_any (s : State) (l k : Nat) (f : Weft → Weft) (a b : Nat) :
    (s.modWeft l k f).weft? a b = if a = l ∧ b = k then (s.weft? a b).map f else s.weft? a b := by
  cases hw : s.weft? l k with
  | none =>
    rw [State.modWeft_none _ hw]
    split
    · next h => rw [h.1, h.2, hw]; rfl
    · rfl
  | some w =>
    rw [State.modWeft_eq _ hw, State.weft?_setWeft_any]
    split
    · next h => rw [h.1, h.2, hw]; rfl
    · rfl

theorem State.weft?_sendFlit (s : State) (from_ l k : Nat) (fl : List Word) (a b : Nat) :
    (s.sendFlit from_ l k fl).weft? a b = (s.modWeft l k fun w =>
      { w with port := w.port.map fun p => { p with flits := p.flits ++ [fl] } }).weft? a b := by
  unfold State.sendFlit
  generalize s.modWeft l k (fun w => { w with port := w.port.map fun p => { p with flits := p.flits ++ [fl] } }) = t
  exact Rules.weft?_congr (KeepsLooms.of_looms (State.crossDies_looms ..)) a b

/-- The port that takes a flit has it last, and the wefts are as before but for it. -/
theorem State.sendFlit_taken {ctx : Nat} {header : Word} {q : Port} (hp : s.portOf ctx header = some (tl, tk, q))
    (from_ : Nat) (fl : List Word) {w : Weft} (hw : s.weft? l k = some w) :
    (∃ p, (s.sendFlit from_ tl tk fl).weft? l k = some { w with port := p })
      ∧ (s.sendFlit from_ tl tk fl).portOf ctx header = some (tl, tk, { q with flits := q.flits ++ [fl] }) := by
  obtain ⟨h1, h2, v, hv, hc, hq⟩ := State.portOf_iff.1 hp
  refine ⟨?_, State.portOf_iff.2
    ⟨h1, h2, { v with port := v.port.map fun p => { p with flits := p.flits ++ [fl] } }, ?_, hc, ?_⟩⟩
  · rw [State.weft?_sendFlit, State.weft?_modWeft_any, hw]
    split
    · exact ⟨_, rfl⟩
    · exact ⟨w.port, rfl⟩
  · rw [State.weft?_sendFlit, State.weft?_modWeft_any, if_pos ⟨rfl, rfl⟩, hv]
    rfl
  · exact congrArg (Option.map _) hq

/-- The ports are as before where a weft changes but for its context and its port. -/
theorem State.portOf_setWeft {w w' : Weft} (hw : s.weft? l k = some w) (hc : w'.ctx = w.ctx) (hp : w'.port = w.port)
    (ctx : Nat) (header : Word) {q : Port} (h : s.portOf ctx header = some (tl, tk, q)) :
    (s.setWeft l k w').portOf ctx header = some (tl, tk, q) := by
  obtain ⟨h1, h2, v, hv, hcv, hq⟩ := State.portOf_iff.1 h
  refine State.portOf_iff.2 ⟨h1, h2, ?_⟩
  rw [State.weft?_setWeft_any]
  split
  · next he =>
    rw [he.1, he.2, hw] at hv
    obtain rfl := Option.some.inj hv
    exact ⟨w', rfl, hc.trans hcv, hp.trans hq⟩
  · exact ⟨v, hv, hcv, hq⟩

theorem State.portOf_congr {t : State} (h : ∀ a b, t.weft? a b = s.weft? a b) (ctx : Nat) (header : Word) :
    t.portOf ctx header = s.portOf ctx header := by
  unfold State.portOf
  dsimp only
  rw [h]

theorem State.sideEffect_wefts (s : State) (l : Nat) (w : Weft) : KeepsLooms Loom.wefts s (s.sideEffect l w) := by
  unfold State.sideEffect
  split
  · exact KeepsLooms.refl s
  · exact KeepsLooms.modLoom s l fun x => by split <;> rfl

/-! ## A fill that ipref started (R208) -/

theorem Loom.line?_fillLine (x : Loom) (now : Nat) (e : ILine) :
    (x.fillLine now e).line? e.ctx e.line = some { e with used := now } := by
  unfold Loom.line? Loom.fillLine
  exact List.find?_cons_of_pos (by simp)

theorem State.line?_fillFor (s : State) (l ctx pc : Nat) (leaf : Leaf) (pa : Nat) :
    ((s.fillFor l ctx pc leaf pa).loom l).line? ctx (pc / lineBytes)
      = some ⟨ctx, pc / lineBytes, s.lineFrom leaf.space pa, s.clock.toNat⟩ := by
  unfold State.fillFor State.loom
  rw [State.homeAccess_looms]
  show (((s.freshLine _).modLoom l _).loom l).line? ctx (pc / lineBytes) = _
  rw [State.loom_modLoom]
  exact Loom.line?_fillLine _ _ ⟨ctx, pc / lineBytes, s.lineFrom leaf.space pa, 0⟩

end

end Sys2Proof.Machine

namespace Sys2Proof.Rules

open Sys2Proof.Machine

section
variable {s : State} {l k : Nat} {w : Weft}

/-- A weft that waits in nothing has no wait to end. -/
theorem exec_waitless (hw : s.weft? l k = some w) (hn : w.wait = .none) : ∀ i ∈ [Instr.vgrowBlocksObtained l k, .vgrowTimeout l k,
    .hsetCommit l k, .continuationEnqueue l k, .sbWdrFree l k, .messageSend l k], exec i s = .next s := by
  simp only [List.forall_mem_cons, List.not_mem_nil, false_imp_iff, implies_true, and_true]
  refine ⟨?_, ?_, ?_, ?_, ?_, ?_⟩
  · show execVgrowBlocksObtained l k s = _
    simp only [execVgrowBlocksObtained, hw, hn]
  · show execVgrowTimeout l k s = _
    simp only [execVgrowTimeout, hw, hn]
  · show execHsetCommit l k s = _
    simp only [execHsetCommit, hw, hn]
  · show execContinuationEnqueue l k s = _
    simp only [execContinuationEnqueue, hw, hn]
  · show execSbWdrFree l k s = _
    simp only [execSbWdrFree, hw, hn]
  · show execMessageSend l k s = _
    simp only [execMessageSend, hw, hn]

/-- The steps of a weft that there is not. -/
theorem exec_weftless (hw : s.weft? l k = none) : ∀ i ∈ [Instr.trapEntry l k, .weftEnd l k, .frontierSpillReturn l k,
    .entryStarving l k, .yieldPassEnd l k, .vgrowBlocksObtained l k, .vgrowTimeout l k, .hsetCommit l k,
    .continuationEnqueue l k, .sbWdrFree l k, .messageSend l k], exec i s = .next s := by
  simp only [List.forall_mem_cons, List.not_mem_nil, false_imp_iff, implies_true, and_true]
  refine ⟨?_, ?_, ?_, ?_, ?_, ?_, ?_, ?_, ?_, ?_, ?_⟩
  · show execTrapEntry l k s = _
    simp only [execTrapEntry, hw]
  · show execWeftEnd l k s = _
    simp only [execWeftEnd, hw]
  · show execFrontierSpillReturn l k s = _
    simp only [execFrontierSpillReturn, hw]
  · show execEntryStarving l k s = _
    simp only [execEntryStarving, hw]
  · show execYieldPassEnd l k s = _
    simp only [execYieldPassEnd, hw]
  · show execVgrowBlocksObtained l k s = _
    simp only [execVgrowBlocksObtained, hw]
  · show execVgrowTimeout l k s = _
    simp only [execVgrowTimeout, hw]
  · show execHsetCommit l k s = _
    simp only [execHsetCommit, hw]
  · show execContinuationEnqueue l k s = _
    simp only [execContinuationEnqueue, hw]
  · show execSbWdrFree l k s = _
    simp only [execSbWdrFree, hw]
  · show execMessageSend l k s = _
    simp only [execMessageSend, hw]

/-- A withdrawal waits for an entry that moves or is busy (R377). -/
theorem wdrWaits_iff {x : Loom} {ctx j : Nat} {hd : Word} {e : Board} (h : x.named ctx hd = some (j, e)) :
    x.wdrWaits j = true ↔ e.state = .moving ∨ x.entryBusy j = true := by
  have entry : x.entry j = e := by
    unfold Loom.named at h
    dsimp only at h
    split at h
    · exact absurd h.symm (Option.some_ne_none _)
    · obtain ⟨rfl, rfl⟩ := h
      rfl
  simp [Loom.wdrWaits, entry]

/-- A flit that its port has room for is accepted (R335). -/
theorem messageSend_accepted {pc : DWord} {header act : Word} {fl : List Word} {tl tk : Nat} {q : Port}
    (hw : s.weft? l k = some w) (hwait : w.wait = .send pc header act fl) (hp : s.portOf w.ctx header = some (tl, tk, q))
    (hr : q.flits.length < q.quota) :
    ∃ t w', exec (.messageSend l k) s = .next t ∧ t.weft? l k = some w' ∧ w'.wait = .none
      ∧ w'.held = (w.finish pc).held ∧ w'.fpx = w.fpx
      ∧ t.portOf w.ctx header = some (tl, tk, { q with flits := q.flits ++ [fl] }) := by
  have run := ((exec_messageSend hw hwait).2 tl tk q hp).trans (if_neg (Nat.not_le.2 hr))
  have rest := w.finish_rest pc
  have hctx : (w.finish pc).ctx = w.ctx := by rw [rest]
  have hport : (w.finish pc).port = w.port := by rw [rest]
  have hfpx : (w.finish pc).fpx = w.fpx := by rw [rest]
  have port : ((s.setWeft l k { w.finish pc with wait := .none }).sideEffect l w).portOf w.ctx header = some (tl, tk, q) :=
    (State.portOf_congr (weft?_congr (State.sideEffect_wefts ..)) ..).trans
      (State.portOf_setWeft (w' := { w.finish pc with wait := .none }) hw hctx hport _ _ hp)
  obtain ⟨⟨p, hp'⟩, taken⟩ := State.sendFlit_taken (l := l) (k := k) port l fl
    ((weft?_sideEffect ..).trans (State.weft?_setWeft ..))
  exact ⟨_, _, run, hp', rfl, rfl, hfpx, taken⟩

/-- The line that a fill brings is in the cache (R208). -/
theorem cacheFill_ok {ctx : BitVec 16} {line : Nat} {leaf : Leaf} {pa : Nat} (hm : (ctx.toNat, line) ∈ (s.loom l).ifills)
    (hf : (s.modLoom l fun y => { y with ifills := y.ifills.erase (ctx.toNat, line) }).fetchPage l ctx.toNat
      (BitVec.ofNat 64 (line * 256)) = .ok leaf pa) :
    ∃ t x, exec (.instructionCacheFill l ctx line) s = .next t
      ∧ (t.loom l).line? ctx.toNat line = some x ∧ x.bytes = s.lineFrom leaf.space pa := by
  have found := State.line?_fillFor (s.modLoom l fun y => { y with ifills := y.ifills.erase (ctx.toNat, line) }) l ctx.toNat
    (line * lineBytes) leaf pa
  rw [Nat.mul_div_cancel line (by decide : 0 < lineBytes)] at found
  refine ⟨_, _, ?_, found, rfl⟩
  show execInstructionCacheFill l ctx line s = _
  simp only [execInstructionCacheFill, List.contains_iff_mem.2 hm, Bool.not_true, Bool.false_eq_true, if_false, lineBytes]
  rw [hf]

end

/-- Settles O53: each step of a weft, by the case of its wait. -/
theorem weftSteps : Obligations.WeftSteps := by
  refine ⟨?_, fun s l k hw => exec_weftless hw, ?_⟩
  · intro s l k w hw
    refine ⟨?_, ?_, ?_, ?_, ?_, ?_, ?_, ?_, ?_, ?_, ?_, exec_waitless hw, ?_⟩
    · intro hh t ht
      rw [exec_trapEntry hw, hh, ht]
      rfl
    · intro hn
      rw [exec_trapEntry hw]
      split
      · rfl
      · next hh => rw [hn.resolve_left hh]; rfl
    · intro hheld hspilled htrap hfaulted hops hreplay hended hwait hteam
      obtain ⟨gone, zero⟩ := State.endWeft_freed hw
      refine ⟨_, ?_, gone, zero⟩
      rw [exec_weftEnd hw, State.canEnd_of hheld hspilled htrap hfaulted hops hreplay hended hwait hteam]
      rfl
    · intro hn
      rw [exec_weftEnd hw, State.canEnd_false hn]
      rfl
    · intro w1 moved
      refine ⟨fun hi hs => ?_, fun hn => ?_, fun hi hs hx => ?_, fun hn => ?_⟩
      · rw [exec_frontierSpillReturn hw, Weft.movesDue_iff.2 ⟨hi, hs⟩]
        rfl
      · rw [exec_frontierSpillReturn hw, Weft.movesDue_false hn]
        rfl
      · rw [exec_entryStarving hw, List.any_eq_true.2 hx, Weft.movesDue_iff.2 ⟨hi, hs⟩]
        rfl
      · rw [exec_entryStarving hw, if_neg]
        rcases hn with hn | hn | hn
        · simp [Weft.movesDue_false (.inl hn)]
        · simp [Weft.movesDue_false (.inr hn)]
        · simp [List.any_eq_false.2 fun e he => Bool.eq_false_iff.1 (hn e he)]
    · intro y hy hover
      rw [exec_yieldPassEnd hw, hy]
      simp only [(YieldPass.over_iff y).2 hover, if_true]
    · intro hn
      rw [exec_yieldPassEnd hw]
      split
      · rfl
      · next y hy =>
        rw [if_neg]
        rw [YieldPass.over_iff, not_or]
        exact hn y hy
    · intro pc mask d n act since hwait due late counted
      refine ⟨fun hd => ?_, fun hd => ?_, fun hl => ?_, fun hl => ?_⟩
      · exact (exec_vgrowBlocksObtained hw hwait).trans ((if_pos hd).trans (congrArg _ (State.endVgrow_eq hw hwait true)))
      · exact (exec_vgrowBlocksObtained hw hwait).trans (if_neg hd)
      · exact (exec_vgrowTimeout hw hwait).trans ((if_pos hl).trans (congrArg _ (State.endVgrow_eq hw hwait false)))
      · exact (exec_vgrowTimeout hw hwait).trans (if_neg hl)
    · intro pc hd set t hwait ht key e hh
      exact ⟨fun h0 => (exec_hsetCommit hw hwait ht hh).trans (if_neg (not_not.2 h0)),
        fun h0 => (exec_hsetCommit hw hwait ht hh).trans (if_pos h0)⟩
    · intro pc d lane val addr hwait
      exact exec_continuationEnqueue hw hwait
    · intro pc mask d act hd hwait issues
      obtain ⟨free, named⟩ := exec_sbWdrFree hw hwait
      refine ⟨free, fun j e hn => ⟨fun hm hb => (named j e hn).trans (if_neg ?_), fun hb => (named j e hn).trans (if_pos ?_)⟩⟩
      · rw [wdrWaits_iff hn]
        exact not_or.2 ⟨hm, Bool.eq_false_iff.1 hb⟩
      · exact (wdrWaits_iff hn).2 hb
    · intro pc header act fl hwait
      exact ⟨(exec_messageSend hw hwait).1, fun tl tk q hp =>
        ⟨fun hf => ((exec_messageSend hw hwait).2 tl tk q hp).trans (if_pos hf), messageSend_accepted hw hwait hp⟩⟩
  · intro s l ctx line pc s1
    refine ⟨fun hn => ?_, fun hm => ⟨fun leaf pa hf => cacheFill_ok hm hf, fun hn => ?_⟩⟩
    · show execInstructionCacheFill l ctx line s = _
      rw [execInstructionCacheFill, if_pos (by simpa using hn)]
    · show execInstructionCacheFill l ctx line s = _
      rw [execInstructionCacheFill, if_neg (by simpa using hm)]
      dsimp only
      split
      · next leaf pa hf => exact absurd hf (hn leaf pa)
      · rfl

end Sys2Proof.Rules
end

section
/-! SUPPORT. Lists in an order, and maps into which a list of values has been put. -/

namespace Sys2Proof.Machine

/-! ## Sorting -/

theorem insertBy_eq {α : Type} (le : α → α → Bool) (x : α) (t : List α) :
    insertBy le x t = t.orderedInsert (fun a b => le a b = true) x := by
  induction t with
  | nil => rfl
  | cons y t ih =>
    simp only [insertBy, List.orderedInsert_cons]
    split
    · rfl
    · rw [ih]

theorem sortBy_eq {α : Type} (le : α → α → Bool) (t : List α) :
    sortBy le t = t.insertionSort fun a b => le a b = true := by
  induction t with
  | nil => rfl
  | cons x t ih => rw [sortBy, insertBy_eq, ih, List.insertionSort_cons]

theorem mem_sortBy {α : Type} {le : α → α → Bool} {t : List α} {x : α} : x ∈ sortBy le t ↔ x ∈ t := by
  rw [sortBy_eq, List.mem_insertionSort]

theorem sortBy_pairwise {α : Type} {le : α → α → Bool} (total : ∀ a b, le a b = true ∨ le b a = true)
    (trans : ∀ a b c, le a b = true → le b c = true → le a c = true) (t : List α) :
    (sortBy le t).Pairwise fun a b => le a b = true := by
  rw [sortBy_eq]
  have : Std.Total fun a b => le a b = true := ⟨total⟩
  have : IsTrans α fun a b => le a b = true := ⟨trans⟩
  exact List.pairwise_insertionSort _ t

/-! ## Maps -/

section
variable {α : Type} {m : List (Nat × α)} {k : Nat} {v : α}

theorem SMap.mem_of_find? (h : SMap.find? m k = some v) : (k, v) ∈ m := by
  induction m with
  | nil => exact absurd h.symm (Option.some_ne_none _)
  | cons p t ih =>
    unfold SMap.find? at h
    split at h
    · next hk =>
      obtain rfl := hk
      obtain rfl := Option.some.inj h
      exact List.mem_cons_self
    · exact List.mem_cons_of_mem _ (ih h)

theorem SMap.find?_of_mem (hn : (m.map (·.1)).Nodup) (h : (k, v) ∈ m) : SMap.find? m k = some v := by
  induction m with
  | nil => exact absurd h List.not_mem_nil
  | cons p t ih =>
    obtain ⟨hp, ht⟩ := List.nodup_cons.1 hn
    unfold SMap.find?
    split
    · next hk =>
      rcases List.mem_cons.1 h with rfl | h
      · rfl
      · exact absurd (List.mem_map.2 ⟨_, h, hk.symm⟩) hp
    · next hk =>
      rcases List.mem_cons.1 h with rfl | h
      · exact absurd rfl hk
      · exact ih ht h

theorem SMap.find?_none (h : k ∉ m.map (·.1)) : SMap.find? m k = none := by
  cases hf : SMap.find? m k with
  | none => rfl
  | some v => exact absurd (List.mem_map.2 ⟨_, SMap.mem_of_find? hf, rfl⟩) h

/-- A list of values put into a map. -/
def SMap.puts (m ps : List (Nat × α)) : List (Nat × α) := ps.foldl (fun m p => SMap.put m p.1 p.2) m

theorem SMap.find?_puts_ne (ps : List (Nat × α)) (h : k ∉ ps.map (·.1)) : SMap.find? (SMap.puts m ps) k = SMap.find? m k := by
  induction ps generalizing m with
  | nil => rfl
  | cons p t ih =>
    rw [List.map_cons, List.mem_cons, not_or] at h
    refine (ih h.2).trans (SMap.find?_put_ne m p.2 (Ne.symm h.1))

theorem SMap.find?_puts {ps : List (Nat × α)} (hn : (ps.map (·.1)).Nodup) (h : (k, v) ∈ ps) :
    SMap.find? (SMap.puts m ps) k = some v := by
  induction ps generalizing m with
  | nil => exact absurd h List.not_mem_nil
  | cons p t ih =>
    obtain ⟨hp, ht⟩ := List.nodup_cons.1 hn
    rcases List.mem_cons.1 h with rfl | h
    · exact (SMap.find?_puts_ne t hp).trans (SMap.find?_put_self ..)
    · exact ih ht h

end

end Sys2Proof.Machine
end

section
/-! SUPPORT. The way of a pre-emption, and which teams are pre-empted (R63, R426, R428). -/

namespace Sys2Proof.Rules

open Sys2Proof.Machine

/-- What the way of a team is chosen by (R426). -/
theorem wayRule : WayRule := by
  intro s t expect drains flushes saves
  have way : s.way t = if drains then some .drain else if flushes then some .flush else if saves then some .save else none := by
    simp only [State.way, drains, flushes, saves, Bool.not_eq_true', expect]
  rw [way]
  refine ⟨fun hd => if_pos hd, fun hd hf => ?_, fun hd hf hs => ?_, fun hd hf hs => ?_⟩
  · rw [if_neg hd, if_pos hf]
  · rw [if_neg hd, if_neg hf, if_pos hs]
  · rw [if_neg hd, if_neg hf, if_neg hs]

/-! ## A team that is pre-empted -/

section
variable {s : State} {l h : Nat} {t : Team}

theorem cancelMove_teams (s : State) (o : Op) : KeepsLooms Loom.teams s (s.cancelMove o) := by
  have keep (u : State) (l : Nat) {g : Loom → Loom} (hg : ∀ x, (g x).teams = x.teams) : KeepsLooms Loom.teams u (u.modLoom l g) :=
    KeepsLooms.modLoom u l hg
  unfold State.cancelMove
  split
  · next sl se tl te so to_ _ =>
    have freed (u : State) : KeepsLooms Loom.teams u (if te = 0 then u else u.modLoom tl fun x => x.freeEntry (te - 1)) :=
      KeepsLooms.ite (KeepsLooms.refl u) (keep u _ fun _ => rfl)
    have disowned (u : State) : KeepsLooms Loom.teams u
        (if to_ = 0 then u else u.modLoom tl fun x => { x with owners := SMap.del x.owners (to_ - 1) }) :=
      KeepsLooms.ite (KeepsLooms.refl u) (keep u _ fun _ => rfl)
    have back (u : State) : KeepsLooms Loom.teams u
        (if te = 0 then u else u.modLoom sl fun x => x.setEntry se { x.entry se with state := (x.entry se).was, tgt := 0 }) :=
      KeepsLooms.ite (KeepsLooms.refl u) (keep u _ fun _ => rfl)
    have owned (u : State) : KeepsLooms Loom.teams u (u.modLoom sl fun x =>
        match SMap.find? x.owners (so - 1) with
        | none => x
        | some w => { x with owners := SMap.put x.owners (so - 1) { w with state := w.was } }) :=
      keep u _ fun x => by split <;> rfl
    exact (freed s).trans ((disowned _).trans ((back _).trans (KeepsLooms.ite (KeepsLooms.refl _) (owned _))))
  · exact KeepsLooms.refl s

theorem setQueue_teams (x : Loom) (cls : OcClass) (q : List Op) : (x.setQueue cls q).teams = x.teams := by
  cases cls <;> rfl

theorem discardOps_teams (s : State) (l k : Nat) : KeepsLooms Loom.teams s (s.discardOps l k) := by
  unfold State.discardOps
  refine (KeepsLooms.foldl (fun u (p : OcClass × Op) => ?_) _ s).trans (KeepsLooms.modLoom _ l fun x => ?_)
  · refine KeepsLooms.trans (t := match p.2.instr with | .sbMove .. => u.cancelMove p.2 | _ => u) ?_ (KeepsLooms.modLoom _ l fun x => ?_)
    · split
      · exact cancelMove_teams u p.2
      · exact KeepsLooms.refl u
    · exact setQueue_teams ..
  · simp only [allClasses, List.foldl_cons, List.foldl_nil, setQueue_teams]

theorem discardTeam_teams (s : State) (l h : Nat) : KeepsLooms Loom.teams s (s.discardTeam l h) :=
  KeepsLooms.foldl (fun u (p : Nat × Weft) => discardOps_teams u l p.1) _ s

theorem team?_congr {s t : State} (h : KeepsLooms Loom.teams s t) (l k : Nat) : t.team? l k = s.team? l k :=
  congrArg (SMap.find? · k) (h.loom l)

/-- A team that stops has the reason given. -/
theorem team?_setStop (ht : s.team? l h = some t) (f : Option Stop → Stop) :
    (s.setStop l h f).team? l h = some { t with stop := some (f t.stop) } := by
  have kept : KeepsLooms Loom.teams (s.modTeam l h fun t => { t with stop := some (f t.stop) }) (s.setStop l h f) :=
    KeepsLooms.modLoom _ l fun _ => rfl
  rw [team?_congr kept, State.team?_modTeam, ht, if_pos rfl]
  rfl

/-- A pre-empted team: what happens by its way. -/
theorem preemptRule : PreemptRule := by
  intro s l h t ht free
  have eq : s.preemptTeam l h = if t.stop.isSome || s.frontierless l h then s else
      match s.way t with
      | none => s
      | some .drain => s.modTeam l h fun t => { t with drainUntil := some (s.clock + BitVec.ofNat 64 s.quantum) }
      | some .flush => (s.setStop l h fun _ => .flush).discardTeam l h
      | some .save => s.stopTeam l h := by
    simp only [State.preemptTeam, ht] <;> rfl
  have stays : free ↔ ¬ (t.stop.isSome || s.frontierless l h) = true := by
    simp [free]
  refine ⟨fun hn => ?_, fun hf hw => ?_, fun hf hw tm htm => ?_, fun hf hw => ?_⟩
  · rw [eq]
    split
    · rfl
    · next hc => rw [hn.resolve_left (not_not.2 (stays.2 hc))]
  · rw [eq, if_neg (stays.1 hf), hw]
  · rw [eq, if_neg (stays.1 hf), hw] at htm
    rw [team?_congr (discardTeam_teams ..), team?_setStop ht] at htm
    obtain rfl := Option.some.inj htm
    rfl
  · rw [eq, if_neg (stays.1 hf), hw]
    exact if_neg (Bool.eq_false_iff.1 hf.2)

end

/-! ## The choice of the teams (R63) -/

section
variable {s : State} {l : Nat} {n : Need}

/-- The longer resident comes first, the lower handle among equals. -/
def residesLonger (a b : Nat × Team) : Bool :=
  a.2.placedAt < b.2.placedAt || (a.2.placedAt == b.2.placedAt && a.1 ≤ b.1)

theorem residesLonger_iff {a b : Nat × Team} : residesLonger a b = true ↔
    a.2.placedAt.toNat < b.2.placedAt.toNat ∨ a.2.placedAt.toNat = b.2.placedAt.toNat ∧ a.1 ≤ b.1 := by
  simp [residesLonger, BitVec.lt_def, BitVec.toNat_inj]

/-- The teams of a loom that may be pre-empted. -/
def residents (s : State) (l : Nat) : List (Nat × Team) :=
  (s.loom l).teams.filter fun p => (s.clock - p.2.placedAt).toNat ≥ s.quantum && p.2.stop.isNone && (s.way p.2).isSome

theorem eligible_eq : s.eligible l = (sortBy residesLonger (residents s l)).map (·.1) := rfl

theorem mem_eligible {h : Nat} : h ∈ s.eligible l ↔ ∃ t, (h, t) ∈ (s.loom l).teams ∧ s.quantum ≤ (s.clock - t.placedAt).toNat
    ∧ t.stop = none ∧ s.way t ≠ none := by
  rw [eligible_eq]
  simp only [List.mem_map, mem_sortBy, residents, List.mem_filter, Bool.and_eq_true, decide_eq_true_eq,
    Option.isNone_iff_eq_none, Option.isSome_iff_ne_none]
  constructor
  · rintro ⟨⟨_, t⟩, ⟨hm, ⟨hq, hs⟩, hw⟩, rfl⟩
    exact ⟨t, hm, hq, hs, hw⟩
  · rintro ⟨t, hm, hq, hs, hw⟩
    exact ⟨(h, t), ⟨hm, ⟨hq, hs⟩, hw⟩, rfl⟩

theorem eligible_pairwise (hn : ((s.loom l).teams.map (·.1)).Nodup) : (s.eligible l).Pairwise fun a b =>
    ∀ ta tb, s.team? l a = some ta → s.team? l b = some tb → ta.placedAt ≤ tb.placedAt := by
  have sorted : (sortBy residesLonger (residents s l)).Pairwise fun a b => residesLonger a b = true := by
    refine sortBy_pairwise (fun a b => ?_) (fun a b c => ?_) _
    · simp only [residesLonger_iff]
      omega
    · simp only [residesLonger_iff]
      omega
  have listed {p : Nat × Team} (hp : p ∈ sortBy residesLonger (residents s l)) {t : Team} (ht : s.team? l p.1 = some t) :
      t = p.2 := by
    have found : s.team? l p.1 = some p.2 := SMap.find?_of_mem hn (List.mem_of_mem_filter (mem_sortBy.1 hp))
    exact Option.some.inj (ht.symm.trans found)
  rw [eligible_eq, List.pairwise_map]
  refine sorted.imp_of_mem fun {a b} ha hb hab ta tb hta htb => ?_
  rw [listed ha hta, listed hb htb, BitVec.le_def]
  rcases residesLonger_iff.1 hab with h | h
  · exact h.le
  · exact h.1.le

/-- Without these teams a loom has room for the need. -/
def Frees (n : Need) (x : Loom) (hs : List Nat) : Prop := ((hs.foldl Loom.without x).fits n).isSome = true

/-- `p` is the shortest beginning of `hs` without which a loom has room. -/
structure Shortest (n : Need) (x : Loom) (hs p : List Nat) : Prop where
  begins : ∃ rest, hs = p ++ rest
  frees : Frees n x p
  least : ∀ p' rest, hs = p' ++ rest → Frees n x p' → p.length ≤ p'.length

/-- A loom loses the shortest beginning of its order without which it has room, where there is one. -/
theorem fewest_spec (n : Need) (hs : List Nat) : ∀ (x : Loom) (acc : List Nat),
    (∀ r, Loom.fewest n x hs acc = some r → ∃ p, r = acc.reverse ++ p ∧ Shortest n x hs p)
    ∧ (Loom.fewest n x hs acc = none → ∀ p rest, hs = p ++ rest → ¬ Frees n x p) := by
  induction hs with
  | nil =>
    intro x acc
    unfold Loom.fewest
    split
    · next hf =>
      refine ⟨fun r hr => ⟨[], ?_, ⟨[], rfl⟩, hf, fun _ _ _ _ => Nat.zero_le _⟩, fun h => absurd h (Option.some_ne_none _)⟩
      rw [List.append_nil, Option.some.inj hr]
    · next hf =>
      refine ⟨fun r hr => absurd hr.symm (Option.some_ne_none _), fun _ p rest hp => ?_⟩
      obtain ⟨rfl, -⟩ := List.append_eq_nil_iff.1 hp.symm
      exact hf
  | cons h t ih =>
    intro x acc
    unfold Loom.fewest
    split
    · next hf =>
      refine ⟨fun r hr => ⟨[], ?_, ⟨h :: t, rfl⟩, hf, fun _ _ _ _ => Nat.zero_le _⟩, fun h => absurd h (Option.some_ne_none _)⟩
      rw [List.append_nil, Option.some.inj hr]
    · next hf =>
      obtain ⟨found, none⟩ := ih (x.without h) (h :: acc)
      refine ⟨fun r hr => ?_, fun hr p rest hp => ?_⟩
      · obtain ⟨p, rfl, ⟨rest, rfl⟩, frees, least⟩ := found r hr
        refine ⟨h :: p, by simp, ⟨rest, rfl⟩, frees, fun p' rest' hp' hf' => ?_⟩
        match p' with
        | [] => exact absurd hf' hf
        | k :: p'' =>
          obtain ⟨rfl, htail⟩ := List.cons.inj hp'
          exact Nat.succ_le_succ (least p'' rest' htail hf')
      · match p with
        | [] => exact hf
        | k :: p' =>
          obtain ⟨rfl, htail⟩ := List.cons.inj hp
          exact none hr p' rest htail

/-- The better of the choice so far and that of loom `l`. -/
def better (best : Option (Nat × List Nat)) (l : Nat) : Option (List Nat) → Option (Nat × List Nat)
  | none => best
  | some hs =>
    match best with
    | some b => if hs.length < b.2.length then some (l, hs) else best
    | none => some (l, hs)

theorem choosePreempt_eq : s.choosePreempt n
    = s.looms.foldl (fun best p => better best p.1 (Loom.fewest n p.2 (s.eligible p.1) [])) none := rfl

theorem better_some {best : Option (Nat × List Nat)} {l : Nat} {o : Option (List Nat)} {r : Nat × List Nat}
    (h : better best l o = some r) : (best = some r ∨ l = r.1 ∧ o = some r.2)
      ∧ (∀ b, best = some b → r.2.length ≤ b.2.length) ∧ ∀ hs, o = some hs → r.2.length ≤ hs.length := by
  match o, best with
  | none, best =>
    obtain rfl : best = some r := h
    exact ⟨.inl rfl, fun b hb => by rw [Option.some.inj hb], fun hs hh => absurd hh.symm (Option.some_ne_none _)⟩
  | some hs, none =>
    obtain rfl := Option.some.inj h
    exact ⟨.inr ⟨rfl, rfl⟩, fun b hb => absurd hb.symm (Option.some_ne_none _), fun hs' hh => by rw [Option.some.inj hh]⟩
  | some hs, some b =>
    have h' : (if hs.length < b.2.length then some (l, hs) else some b) = some r := h
    split at h'
    · next hlt =>
      obtain rfl := Option.some.inj h'
      exact ⟨.inr ⟨rfl, rfl⟩, fun b' hb => by rw [← Option.some.inj hb]; exact hlt.le, fun hs' hh => by rw [Option.some.inj hh]⟩
    · next hge =>
      obtain rfl := Option.some.inj h'
      exact ⟨.inl rfl, fun b' hb => by rw [Option.some.inj hb],
        fun hs' hh => by rw [← Option.some.inj hh]; exact Nat.not_lt.1 hge⟩

/-- The first choice stays one unless another is better. -/
theorem better_ne_none {best : Option (Nat × List Nat)} {l : Nat} {o : Option (List Nat)} (h : best ≠ none ∨ o ≠ none) :
    ∃ r, better best l o = some r := by
  match o, best with
  | none, none => exact absurd h (by simp)
  | none, some b => exact ⟨b, rfl⟩
  | some hs, none => exact ⟨_, rfl⟩
  | some hs, some b =>
    show ∃ r, (if hs.length < b.2.length then some (l, hs) else some b) = some r
    split
    · exact ⟨_, rfl⟩
    · exact ⟨_, rfl⟩

/-- The best of the choices of a list of looms is one of them, and none is shorter. -/
theorem best_spec (f : Nat × Loom → Option (List Nat)) (ps : List (Nat × Loom)) : ∀ best r,
    ps.foldl (fun best p => better best p.1 (f p)) best = some r →
    (best = some r ∨ ∃ x, (r.1, x) ∈ ps ∧ f (r.1, x) = some r.2)
      ∧ (∀ b, best = some b → r.2.length ≤ b.2.length) ∧ ∀ q ∈ ps, ∀ hs, f q = some hs → r.2.length ≤ hs.length := by
  induction ps with
  | nil =>
    rintro best r rfl
    exact ⟨.inl rfl, fun b hb => by rw [Option.some.inj hb], fun q hq => absurd hq List.not_mem_nil⟩
  | cons p t ih =>
    intro best r hr
    obtain ⟨one, least, rest⟩ := ih _ _ hr
    have first (b : Nat × List Nat) (hb : better best p.1 (f p) = some b) := better_some hb
    refine ⟨?_, fun b hb => ?_, fun q hq hs hf => ?_⟩
    · rcases one with one | ⟨x, hx, hf⟩
      · rcases (first r one).1 with h | ⟨hl, ho⟩
        · exact .inl h
        · exact .inr ⟨p.2, by rw [← hl]; exact List.mem_cons_self, by rw [← hl]; exact ho⟩
      · exact .inr ⟨x, List.mem_cons_of_mem _ hx, hf⟩
    · obtain ⟨r', hr'⟩ := better_ne_none (best := best) (l := p.1) (o := f p) (.inl (hb ▸ Option.some_ne_none b))
      exact (least r' hr').trans ((first r' hr').2.1 b hb)
    · rcases List.mem_cons.1 hq with rfl | hq
      · obtain ⟨r', hr'⟩ := better_ne_none (best := best) (l := q.1) (o := f q) (.inr (by rw [hf]; exact Option.some_ne_none hs))
        exact (least r' hr').trans ((first r' hr').2.2 hs hf)
      · exact rest q hq hs hf

/-- Which teams are pre-empted for a pick (R63). -/
theorem choiceRule : ChoiceRule := by
  refine ⟨fun s l h => mem_eligible, fun s l hn => eligible_pairwise hn, fun s p n hp => ?_, fun s n l hs hc => ?_⟩
  · have eq : s.preemptCheck p = if s.someFits n || s.departing then s else
        match s.choosePreempt n with
        | none => s
        | some (l, hs) => hs.foldl (fun u h => u.preemptTeam l h) { s with dist := { s.dist with preempting := some (l, hs) } } := by
      simp only [State.preemptCheck, hp] <;> rfl
    rw [eq]
    refine ⟨fun h => ?_, fun l hs hf hd hc => ?_⟩
    · rcases h with h | h | h
      · rw [h]; rfl
      · rw [h, Bool.or_true]; rfl
      · rw [h]; exact ite_self _
    · rw [hf, hd, hc]
      rfl
  · rw [choosePreempt_eq] at hc
    obtain ⟨one, -, least⟩ := best_spec (fun p => Loom.fewest n p.2 (s.eligible p.1) []) _ _ _ hc
    obtain ⟨x, hx, hf⟩ := one.resolve_left (Option.some_ne_none _).symm
    obtain ⟨p, rfl, ⟨rest, hrest⟩, frees, -⟩ := (fewest_spec n _ _ _).1 hs hf
    refine ⟨⟨x, rest, hx, hrest, frees⟩, fun l' x' hs' rest' hx' he' hf' => ?_⟩
    obtain ⟨found, none⟩ := fewest_spec n (s.eligible l') x' []
    cases ho : Loom.fewest n x' (s.eligible l') [] with
    | none => exact absurd hf' (none ho hs' rest' he')
    | some q =>
      obtain ⟨p', rfl, short⟩ := found q ho
      exact (least (l', x') hx' _ ho).trans (short.least hs' rest' he' hf')

end

end Sys2Proof.Rules
end

section
/-! SUPPORT. What a placement makes (R35, R45, R46, R53, R66). -/

namespace Sys2Proof.Machine

/-- A team that a drain leaves in the choice. -/
def Team.undrained (t : Team) : Team := { t with drained := false }

/-- A loom whose teams a drain leaves in the choice. -/
def Loom.undrained (x : Loom) : Loom := { x with teams := x.teams.map fun p => (p.1, p.2.undrained) }

section
variable (s : State) (l : Nat)

theorem State.drawOver_looms : s.drawOver.looms = s.looms ∨ s.drawOver.looms = s.looms.map fun p => (p.1, p.2.undrained) := by
  unfold State.drawOver
  dsimp only
  split
  · exact .inr rfl
  · exact .inl rfl

/-- The end of a draw leaves the looms but for what a drain has left out of the choice. -/
theorem State.loom_drawOver : s.drawOver.loom l = s.loom l ∨ s.drawOver.loom l = (s.loom l).undrained := by
  unfold State.loom SMap.getD
  rcases s.drawOver_looms with h | h
  · exact .inl (by rw [h])
  · right
    rw [h, SMap.find?_map]
    cases SMap.find? s.looms l <;> rfl

theorem State.drawOver_waiting : s.drawOver.dist.waiting = none := by
  unfold State.drawOver
  dsimp only
  split <;> rfl

theorem State.drawOver_keeps {β : Type} {f : Loom → β} (hf : ∀ x : Loom, f x.undrained = f x) : KeepsLooms f s s.drawOver := by
  constructor
  intro j
  rcases s.loom_drawOver j with h | h
  · rw [h]
  · rw [h, hf]

theorem State.team?_drawOver {h : Nat} {t : Team} (ht : s.team? l h = some t) :
    ∃ b, s.drawOver.team? l h = some { t with drained := b } := by
  unfold State.team? at ht ⊢
  rcases s.loom_drawOver l with e | e
  · exact ⟨t.drained, by rw [e, ht]⟩
  · refine ⟨false, ?_⟩
    rw [e]
    show SMap.find? ((s.loom l).teams.map fun p => (p.1, p.2.undrained)) h = _
    rw [SMap.find?_map, ht]
    rfl

theorem State.clearLm_loom (base size j : Nat) : (s.clearLm l base size).loom j
    = (s.modLm l fun m => Memory.zero m base size).loom j := by
  unfold State.clearLm
  dsimp only
  split <;> rfl

end

end Sys2Proof.Machine

namespace Sys2Proof.Rules

open Sys2Proof.Machine

section
variable {r : LaunchRec} {ctx h n : Nat} {slots spills : List Nat}

theorem slotFmts_nodup (r : LaunchRec) : (r.slotFmts.map (·.1)).Nodup := by
  have keys : r.slotFmts.map (·.1)
      = ((r.fmts.zipIdx.filter fun p => cleanDef p.1 != binary32).map (·.2)).map (· + 1) := by
    simp only [LaunchRec.slotFmts, List.map_map]
    rfl
  have indices : (r.fmts.zipIdx.map (·.2)).Nodup := by
    rw [List.zipIdx_map_snd]
    exact List.nodup_range'
  rw [keys]
  exact ((List.filter_sublist.map _).nodup indices).map (add_left_injective 1)

/-- The definitions of a new weft's format slots are the record's, reserved bits zero (R66, R69). -/
theorem getD_slotFmts {k : Nat} (hk : k < r.fmts.length) : SMap.getD r.slotFmts (k + 1) binary32 = cleanDef (r.fmts.getD k 0) := by
  have at_k : r.fmts.getD k 0 = r.fmts[k] := (List.getElem_eq_getD 0).symm
  rw [at_k]
  by_cases hb : cleanDef r.fmts[k] = binary32
  · rw [hb, SMap.getD, SMap.find?_none]
    · rfl
    · simp only [LaunchRec.slotFmts, List.mem_map, List.mem_filter, not_exists, not_and]
      rintro ⟨_, d⟩ ⟨⟨f, i⟩, ⟨hm, hne⟩, he⟩ hd
      obtain ⟨rfl, rfl⟩ := Prod.mk.injEq .. ▸ he
      obtain rfl : i = k := Nat.succ.inj hd
      obtain ⟨hlt, hf⟩ := List.mem_zipIdx' hm
      exact (bne_iff_ne.1 hne) (hf ▸ hb)
  · rw [SMap.getD, SMap.find?_of_mem (slotFmts_nodup r)]
    · rfl
    · exact List.mem_map.2 ⟨(r.fmts[k], k), List.mem_filter.2 ⟨List.mk_mem_zipIdx_iff_getElem?.2 (List.getElem?_eq_getElem hk),
        bne_iff_ne.2 hb⟩, rfl⟩

/-- Weft n of a placement. -/
def placedWeft (r : LaunchRec) (ctx h n spill : Nat) : Weft :=
  { newWeft ctx (some h) n (roleOf (r.roles.getD n 0)) r.allot (pairTarget r.entry) spill with fmts := r.slotFmts }

/-- The wefts of a placement: the n-th slot takes weft n. -/
theorem mem_newWefts (hn : n < slots.length) (hs : spills.length = slots.length) :
    (slots.getD n 0, placedWeft r ctx h n (spills.getD n 0)) ∈ r.newWefts ctx h slots spills := by
  refine List.mem_map.2 ⟨((slots.getD n 0, spills.getD n 0), n), List.mk_mem_zipIdx_iff_getElem?.2 ?_, rfl⟩
  rw [List.getElem?_zip_eq_some]
  exact ⟨by simp [hn], by simp [hs, hn]⟩

theorem newWefts_slots (hs : spills.length = slots.length) : (r.newWefts ctx h slots spills).map (·.1) = slots := by
  have first : (r.newWefts ctx h slots spills).map (·.1) = ((slots.zip spills).zipIdx.map Prod.fst).map Prod.fst := by
    simp only [LaunchRec.newWefts, List.map_map]
    rfl
  rw [first, List.zipIdx_map_fst, List.map_fst_zip hs.ge]

theorem placedWeft_fresh (x : Launch) (h n spill : Nat) : FreshWeft x h n (placedWeft x.lrec x.ctx h n spill) where
  held := rfl
  spilled := rfl
  num := rfl
  ctx := rfl
  team := rfl
  role := by
    show roleOf (x.lrec.roles.getD n 0) = _
    unfold roleOf
    split <;> simp only [*]
  allot := rfl
  user := rfl
  regs r i := by
    show (if r = 255 then 0 else SMap.getD [] (regKey r i) (0 : Word)) = 0
    split <;> rfl
  slot0 := rfl
  slots k hk hl := by
    have key : (BitVec.ofNat 4 (k + 1)).toNat = k + 1 := by
      rw [BitVec.toNat_ofNat]
      omega
    have hne : BitVec.ofNat 4 (k + 1) ≠ 0 := fun h => by
      have := congrArg BitVec.toNat h
      rw [key] at this
      exact absurd this (Nat.succ_ne_zero k)
    refine (if_neg hne).trans ?_
    rw [key]
    exact getD_slotFmts (by omega)
  flags := rfl
  idle := ⟨rfl, rfl, rfl, rfl⟩

end

/-- What a loom holds beside its teams, its queues and its counters. -/
def places (x : Loom) : List (Nat × Weft) × List (Nat × Heddle) × Mem := (x.wefts, x.heddles, x.mem)

section
variable (s : State) (l h : Nat) (x : Launch) (id : TeamId) (slots bases : List Nat)

/-- The team that a placement makes. -/
def placedTeam : Team :=
  s.newTeam x id slots (bases.headD 0) (((x.again.find? fun a => a.1 == id.n).map (·.2)).getD 0)
    (x.again.find? fun a => a.1 == id.n).isNone

/-- A loom that a team is placed on. -/
def placedLoom : Loom :=
  ({ s.loom l with mem := Memory.zero (s.loom l).mem (bases.headD 0) x.lrec.lmem } : Loom).addTeam h (placedTeam s x id slots bases)
    (x.lrec.newWefts x.ctx h slots bases.tail) (x.lrec.newHeddles h slots)

/-- The state with the team on its loom. -/
def withTeam : State :=
  (s.clearLm l (bases.headD 0) x.lrec.lmem).modLoom l fun y =>
    y.addTeam h (placedTeam s x id slots bases) (x.lrec.newWefts x.ctx h slots bases.tail) (x.lrec.newHeddles h slots)

theorem placeTeam_eq : s.placeTeam l h x id slots bases
    = (((withTeam s l h x id slots bases).modLaunch id.queue id.count fun y => y.placed id.n).countLoom l 0x11 x.ctx 1).drawOver := rfl

theorem withTeam_loom : (withTeam s l h x id slots bases).loom l = placedLoom s l h x id slots bases := by
  unfold withTeam placedLoom
  rw [State.loom_modLoom, State.clearLm_loom, State.modLm, State.loom_modLoom]

theorem counted_keeps {β : Type} {f : Loom → β} (hf : ∀ y cs, f { y with counters := cs } = f y) :
    KeepsLooms f (withTeam s l h x id slots bases)
      (((withTeam s l h x id slots bases).modLaunch id.queue id.count fun y => y.placed id.n).countLoom l 0x11 x.ctx 1) :=
  (KeepsLooms.of_looms (s := withTeam s l h x id slots bases)
    (t := (withTeam s l h x id slots bases).modLaunch id.queue id.count fun y => y.placed id.n)
    rfl).trans (KeepsLooms.countLoom hf ..)

theorem placeTeam_places : places ((s.placeTeam l h x id slots bases).loom l) = places (placedLoom s l h x id slots bases) := by
  rw [placeTeam_eq, ← withTeam_loom]
  exact ((counted_keeps s l h x id slots bases fun _ _ => rfl).trans (State.drawOver_keeps _ fun _ => rfl)).loom l

theorem placeTeam_team : ∃ b, (s.placeTeam l h x id slots bases).team? l h
    = some { placedTeam s x id slots bases with drained := b } := by
  rw [placeTeam_eq]
  refine State.team?_drawOver _ _ ?_
  rw [team?_congr (counted_keeps s l h x id slots bases (f := Loom.teams) fun _ _ => rfl), State.team?, withTeam_loom]
  exact SMap.find?_put_self ..

end

theorem newHeddles_length (r : LaunchRec) (h : Nat) (slots : List Nat) :
    (r.newHeddles h slots).length = 1 + r.hedmap.length := by
  simp [LaunchRec.newHeddles, Nat.add_comm]

theorem freeHeddles_nodup (x : Loom) (n : Nat) : (x.freeHeddles n).Nodup :=
  (List.take_sublist ..).nodup ((List.filter_sublist ..).nodup List.nodup_range)

/-- A heddle that is put on a loom with room stands there. -/
theorem find?_heddles {x : Loom} {hs : List Heddle} (hl : hs.length ≤ (x.freeHeddles hs.length).length) {e : Heddle} (he : e ∈ hs) :
    ∃ k, SMap.find? (SMap.puts x.heddles ((x.freeHeddles hs.length).zip hs)) k = some e := by
  obtain ⟨i, hi, rfl⟩ := List.getElem_of_mem he
  have hk : i < (x.freeHeddles hs.length).length := hi.trans_le hl
  refine ⟨(x.freeHeddles hs.length)[i], SMap.find?_puts ?_ ?_⟩
  · have short : (x.freeHeddles hs.length).length ≤ hs.length := List.length_take_le ..
    have keys : ((x.freeHeddles hs.length).zip hs).map (·.1) = x.freeHeddles hs.length := List.map_fst_zip short
    rw [keys]
    exact freeHeddles_nodup x _
  · exact List.mem_iff_getElem.2 ⟨i, by rw [List.length_zip]; omega, List.getElem_zip⟩

/-- What a placement makes. -/
theorem placementMakes : PlacementMakes := by
  intro s l h x id slots bases hn hl hb t base
  have tail : bases.tail.length = slots.length := by
    rw [List.length_tail, hb, hl]
    omega
  have placed := placeTeam_places s l h x id slots bases
  have hwefts : (t.loom l).wefts = SMap.puts (s.loom l).wefts (x.lrec.newWefts x.ctx h slots bases.tail) := congrArg (·.1) placed
  have hheddles : (t.loom l).heddles = SMap.puts (s.loom l).heddles
      (((s.loom l).freeHeddles (x.lrec.newHeddles h slots).length).zip (x.lrec.newHeddles h slots)) := congrArg (·.2.1) placed
  have hmem : (t.loom l).mem = Memory.zero (s.loom l).mem base x.lrec.lmem := congrArg (·.2.2) placed
  refine ⟨fun n hlt => ⟨_, ?_, placedWeft_fresh x h n (bases.tail.getD n 0)⟩, ?_, fun a h1 h2 => ?_, fun hf => ?_,
    State.drawOver_waiting _⟩
  · unfold State.weft?
    rw [hwefts]
    refine SMap.find?_puts ?_ (mem_newWefts (hl ▸ hlt) tail)
    rw [newWefts_slots tail]
    exact hn
  · obtain ⟨b, hb⟩ := placeTeam_team s l h x id slots bases
    exact ⟨_, hb, rfl, rfl, rfl, rfl, rfl, rfl, rfl, rfl, rfl, rfl, rfl, rfl, rfl, rfl⟩
  · unfold State.readLm
    rw [hmem, Memory.read_zero, if_pos ⟨h1, h2⟩]
  · rw [hheddles]
    obtain ⟨k, hk⟩ := find?_heddles (x := s.loom l) (hs := x.lrec.newHeddles h slots)
      (by rw [newHeddles_length]; exact hf) List.mem_cons_self
    exact ⟨k, _, hk, rfl, rfl, rfl, rfl⟩

end Sys2Proof.Rules
end

section
/-! SUPPORT. What the later steps of a restore leave alone (R310, R379, R430). -/

namespace Sys2Proof.Machine

/-- A loom without what the accesses of its engines note: translations, lines of its L1, counted events and errors. -/
def Loom.unnoted (x : Loom) : Loom := { x with tlbCore := [], tlbCopy := [], l1 := [], counters := [], errors := [] }

section
variable (s : State)

theorem State.countLoom_unnoted (l src ctx n : Nat) : KeepsLooms Loom.unnoted s (s.countLoom l src ctx n) :=
  KeepsLooms.countLoom (fun _ _ => rfl) ..

theorem State.setTlb_unnoted (ag : TlbAgent) (t : List Tlb) : KeepsLooms Loom.unnoted s (s.setTlb ag t) := by
  cases ag with
  | core l => exact KeepsLooms.modLoom s l (g := fun x => { x with tlbCore := t }) fun _ => rfl
  | copy l => exact KeepsLooms.modLoom s l (g := fun x => { x with tlbCopy := t }) fun _ => rfl
  | gateway d => exact KeepsLooms.of_looms rfl

theorem State.missTlb_unnoted (v : View) (va : Nat) (x : Leaf) : KeepsLooms Loom.unnoted s (s.missTlb v va x) := by
  have fill : KeepsLooms Loom.unnoted s (s.fillTlb v.agent v.ctx va) := KeepsLooms.ite (KeepsLooms.refl s) (State.setTlb_unnoted ..)
  unfold State.missTlb
  split
  · exact KeepsLooms.refl s
  · dsimp only
    split
    · exact fill.trans (State.countLoom_unnoted ..)
    · exact fill

theorem State.noteFrom_unnoted (from_ : Nat) (v : View) (a : Acc) (write : Bool) :
    KeepsLooms Loom.unnoted s (s.noteFrom from_ v a write) := by
  refine KeepsLooms.foldl (fun s va => ?_) _ s
  dsimp only
  split
  · next x pa _ =>
    refine (State.missTlb_unnoted s v va x).trans (KeepsLooms.ite (KeepsLooms.refl _) ?_)
    split
    · exact KeepsLooms.of_looms (State.bankAccess_looms ..)
    · exact KeepsLooms.of_looms (State.homeAccess_looms ..)
  · exact KeepsLooms.refl s

theorem State.softAt_unnoted (ctx : Nat) (e : ErrAt) : KeepsLooms Loom.unnoted s (s.softAt ctx e) := by
  unfold State.softAt
  (repeat' split)
  · next l _ _ =>
    have counted : KeepsLooms Loom.unnoted s (s.loomError l 2) := KeepsLooms.modLoom s l fun _ => rfl
    exact counted.trans (State.countLoom_unnoted ..)
  · exact KeepsLooms.of_looms rfl
  · exact KeepsLooms.refl s
  · exact KeepsLooms.refl s

theorem State.noteSoft_unnoted (v : View) (as : List Acc) (served : List Nat) :
    KeepsLooms Loom.unnoted s (s.noteSoft v as served) :=
  KeepsLooms.ite (KeepsLooms.refl s) (KeepsLooms.foldl (fun s e => State.softAt_unnoted s v.ctx e) _ s)

/-- The wefts and the heddles of a loom. -/
def Loom.crew (x : Loom) : List (Nat × Weft) × List (Nat × Heddle) := (x.wefts, x.heddles)

theorem State.setCells_crew (l : Nat) (o : Own) (cs : List (Nat × Nat × Nat)) : KeepsLooms Loom.crew s (s.setCells l o cs) := by
  have cells : KeepsLooms Loom.crew s (s.modLoom l fun x => x.setCells o cs) := KeepsLooms.modLoom s l fun _ => rfl
  exact KeepsLooms.ite cells (cells.trans (KeepsLooms.of_looms rfl))

end

/-- A fill writes cells and notes its accesses (R310). -/
theorem State.fillRange_crew {s s1 : State} {l : Nat} {o : Own} {a : DWord} (h : s.fillRange l o a = .ok s1) :
    KeepsLooms Loom.crew s s1 := by
  unfold State.fillRange at h
  dsimp only at h
  split at h
  · cases h
  · split at h
    · cases h
    · split at h
      · cases h
      · cases h
        have noted {u v : State} (h : KeepsLooms Loom.unnoted u v) : KeepsLooms Loom.crew u v := h.proj Loom.crew fun _ => rfl
        exact (State.setCells_crew ..).trans (noted ((State.noteFrom_unnoted ..).trans (State.noteSoft_unnoted ..)))

theorem Loom.dropKey_crew (x : Loom) (ctx : Nat) (key : DWord) : (x.dropKey ctx key).crew = x.crew := by
  unfold Loom.dropKey
  generalize x.keyEntries ctx key = es
  induction es generalizing x with
  | nil => rfl
  | cons e es ih => exact ih (x.freeEntry e)

section
variable {s s1 : State} {l h : Nat} {v : Saved}

theorem State.modTeam_crew (s : State) (l h : Nat) (f : Team → Team) : KeepsLooms Loom.crew s (s.modTeam l h f) :=
  KeepsLooms.modLoom s l fun x => by split <;> rfl

theorem State.eventRecord_crew (s : State) (kind src ctx : Nat) (d0 d1 : DWord) :
    KeepsLooms Loom.crew s (s.eventRecord kind src ctx d0 d1) := by
  unfold State.eventRecord
  exact KeepsLooms.ite (KeepsLooms.of_looms rfl) (KeepsLooms.of_looms rfl)

theorem State.clearCells_looms (s : State) (l : Nat) (tiles : List Nat) : (s.clearCells l tiles).looms = s.looms := rfl

theorem State.setOwn_crew (s : State) (l e : Nat) (o : Own) : KeepsLooms Loom.crew s (s.setOwn l e o) :=
  KeepsLooms.modLoom s l fun _ => rfl

theorem State.restoreRange_crew {r : SavedRange} (hr : s.restoreRange l h v r = some s1) : KeepsLooms Loom.crew s s1 := by
  unfold State.restoreRange at hr
  dsimp only at hr
  split at hr
  · cases hr
  · split at hr
    · cases hr
    · split at hr
      · split at hr
        · cases hr
        · next s2 hf =>
          cases hr
          exact (State.fillRange_crew hf).trans ((State.setOwn_crew ..).trans (State.modTeam_crew ..))
        · cases hr
          exact (State.eventRecord_crew ..).trans (KeepsLooms.modLoom _ _ fun x => x.dropKey_crew ..)
      · cases hr
        refine KeepsLooms.trans ?_ (State.modTeam_crew ..)
        refine KeepsLooms.trans ?_ (State.setOwn_crew ..)
        refine KeepsLooms.trans ?_ (KeepsLooms.of_looms (State.clearCells_looms ..))
        exact KeepsLooms.modLoom s l fun _ => rfl

theorem State.restoreRanges_crew (rs : List SavedRange) : ∀ {s s1 : State}, s.restoreRanges l h v rs = some s1 →
    KeepsLooms Loom.crew s s1 := by
  induction rs with
  | nil =>
    intro s s1 hr
    cases hr
    exact KeepsLooms.refl s
  | cons r rest ih =>
    intro s s1 hr
    unfold State.restoreRanges at hr
    split at hr
    · cases hr
    · next s2 h2 => exact (State.restoreRange_crew h2).trans (ih hr)

theorem State.restoreTiles_crew (s : State) (l h : Nat) (v : Saved) : KeepsLooms Loom.crew s (s.restoreTiles l h v) := by
  refine KeepsLooms.foldl (fun s q => ?_) _ s
  refine KeepsLooms.trans ?_ (State.modTeam_crew ..)
  refine KeepsLooms.trans ?_ (KeepsLooms.of_looms (State.modMem_looms ..))
  exact KeepsLooms.modLoom s l fun _ => rfl

theorem State.restoreEntries_crew (s : State) (l h base : Nat) (v : Saved) : KeepsLooms Loom.crew s (s.restoreEntries l h base v) := by
  refine KeepsLooms.foldl (fun s p => ?_) _ s
  refine KeepsLooms.trans ?_ (KeepsLooms.modLoom _ l fun _ => rfl)
  exact KeepsLooms.ite (KeepsLooms.refl s) (KeepsLooms.modLoom s v.loom fun _ => rfl)

end

end Sys2Proof.Machine

namespace Sys2Proof.Rules

open Sys2Proof.Machine

/-- Wefts and heddles that are kept are read as before. -/
theorem crew_reads {s t : State} (h : KeepsLooms Loom.crew s t) (l : Nat) :
    (∀ k, t.weft? l k = s.weft? l k) ∧ (t.loom l).heddles = (s.loom l).heddles :=
  ⟨weft?_congr (h.proj (·.1) fun _ => rfl) l, congrArg (·.2) (h.loom l)⟩

/-- The later steps of a restore leave the wefts and heddles of the loom. -/
theorem restoreKeeps : RestoreKeeps :=
  ⟨fun _ _ l _ _ rs hr => crew_reads (State.restoreRanges_crew rs hr) l, fun s l h v => crew_reads (s.restoreTiles_crew l h v) l,
    fun s l h base v => crew_reads (s.restoreEntries_crew l h base v) l⟩

end Sys2Proof.Rules
end

section
/-! SUPPORT. The cells of an accumulator range that a save keeps and a restore puts back (R310). -/

namespace Sys2Proof.Machine

section
variable {α : Type}

theorem SMap.find?_append (a b : List (Nat × α)) (k : Nat) :
    SMap.find? (a ++ b) k = (SMap.find? a k).or (SMap.find? b k) := by
  induction a with
  | nil => rfl
  | cons p t ih =>
    rw [List.cons_append, SMap.find?, SMap.find?, ih]
    split <;> rfl

/-- Keys that are moved up. -/
theorem SMap.find?_shift (m : List (Nat × α)) (a k : Nat) : SMap.find? (m.map fun c => (a + c.1, c.2)) (a + k) = SMap.find? m k := by
  induction m with
  | nil => rfl
  | cons p t ih =>
    rw [List.map_cons, SMap.find?, SMap.find?, ih]
    by_cases h : p.1 = k
    · rw [if_pos h, if_pos (congrArg (a + ·) h)]
    · rw [if_neg h, if_neg fun he => h (Nat.add_left_cancel he)]

/-- The block of cells of a tile, keyed as block `i`. -/
def SMap.block (m : List (Nat × α)) (t i : Nat) : List (Nat × α) :=
  (SMap.slice m (4096 * t) (4096 * t + 4096)).map fun c => (4096 * i + c.1, c.2)

theorem SMap.mem_block {m : List (Nat × α)} {t i : Nat} {p : Nat × α} (h : p ∈ SMap.block m t i) :
    4096 * i ≤ p.1 ∧ p.1 < 4096 * i + 4096 := by
  obtain ⟨c, hc, rfl⟩ := List.mem_map.1 h
  have := SMap.lt_of_mem_slice hc
  exact ⟨Nat.le_add_right .., Nat.add_lt_add_left this _⟩

theorem SMap.find?_block (m : List (Nat × α)) (t i : Nat) {c : Nat} (hc : c < 4096) :
    SMap.find? (SMap.block m t i) (4096 * i + c) = SMap.find? m (4096 * t + c) :=
  (SMap.find?_shift ..).trans (SMap.find?_slice m (by omega))

theorem SMap.find?_block_out (m : List (Nat × α)) {t i k : Nat} (hk : k < 4096 * i ∨ 4096 * i + 4096 ≤ k) :
    SMap.find? (SMap.block m t i) k = none := by
  refine SMap.find?_none fun h => ?_
  obtain ⟨p, hp, rfl⟩ := List.mem_map.1 h
  have := SMap.mem_block hp
  omega

/-- The blocks of a list of tiles, one after the other. -/
theorem SMap.find?_blocks (m : List (Nat × α)) (ts : List Nat) : ∀ n q c, c < 4096 → q < ts.length →
    SMap.find? ((ts.zipIdx n).flatMap fun p => SMap.block m p.1 p.2) (4096 * (n + q) + c) = SMap.find? m (4096 * ts.getD q 0 + c) := by
  induction ts with
  | nil => exact fun n q c _ hq => absurd hq (Nat.not_lt_zero q)
  | cons t ts ih =>
    intro n q c hc hq
    rw [List.zipIdx_cons, List.flatMap_cons, SMap.find?_append]
    match q with
    | 0 =>
      rw [Nat.add_zero, SMap.find?_block m t n hc]
      have later : SMap.find? ((ts.zipIdx (n + 1)).flatMap fun p => SMap.block m p.1 p.2) (4096 * n + c) = none := by
        refine SMap.find?_none fun h => ?_
        obtain ⟨p, hp, hk⟩ := List.mem_map.1 h
        obtain ⟨z, hz, hb⟩ := List.mem_flatMap.1 hp
        have low := (SMap.mem_block hb).1
        have := List.le_snd_of_mem_zipIdx hz
        omega
      rw [later, Option.or_none]
      rfl
    | q + 1 =>
      rw [SMap.find?_block_out m (by omega), Option.none_or]
      have := ih (n + 1) q c hc (Nat.lt_of_succ_lt_succ hq)
      rw [show n + 1 + q = n + (q + 1) by omega] at this
      exact this

/-! ## Blocks that are put into a map -/

/-- Block `i` of `cells` takes the place of tile `t`. -/
def SMap.fill (cells m : List (Nat × α)) (t i : Nat) : List (Nat × α) :=
  SMap.puts (SMap.dropRange m (4096 * t) (4096 * t + 4096)) (SMap.block cells i t)

theorem SMap.find?_dropRange (m : List (Nat × α)) (lo hi k : Nat) :
    SMap.find? (SMap.dropRange m lo hi) k = if lo ≤ k ∧ k < hi then none else SMap.find? m k := by
  have h := SMap.find?_filter_not m (fun x => decide (lo ≤ x) && decide (x < hi)) k
  unfold SMap.dropRange
  rw [h]
  simp only [Bool.and_eq_true, decide_eq_true_eq]

theorem SMap.block_nodup {m : List (Nat × α)} (hn : (m.map (·.1)).Nodup) (t i : Nat) : ((SMap.block m t i).map (·.1)).Nodup := by
  have keys : (SMap.block m t i).map (·.1)
      = ((m.filter fun p => 4096 * t ≤ p.1 && p.1 < 4096 * t + 4096).map (·.1)).map fun k => 4096 * i + (k - 4096 * t) := by
    simp only [SMap.block, SMap.slice, List.map_map]
    rfl
  rw [keys]
  refine List.Nodup.map_on (fun a ha b hb hab => ?_) ((List.filter_sublist.map _).nodup hn)
  obtain ⟨p, hp, rfl⟩ := List.mem_map.1 ha
  obtain ⟨q, hq, rfl⟩ := List.mem_map.1 hb
  have low {r : Nat × α} (hr : r ∈ m.filter fun p => 4096 * t ≤ p.1 && p.1 < 4096 * t + 4096) : 4096 * t ≤ r.1 := by
    have := (List.mem_filter.1 hr).2
    simp only [Bool.and_eq_true, decide_eq_true_eq] at this
    exact this.1
  have hp := low hp
  have hq := low hq
  omega

theorem SMap.find?_fill {cells : List (Nat × α)} (hn : (cells.map (·.1)).Nodup) (m : List (Nat × α)) (t i : Nat) {c : Nat}
    (hc : c < 4096) : SMap.find? (SMap.fill cells m t i) (4096 * t + c) = SMap.find? cells (4096 * i + c) := by
  rw [← SMap.find?_block cells i t hc]
  unfold SMap.fill
  cases h : SMap.find? (SMap.block cells i t) (4096 * t + c) with
  | none =>
    rw [SMap.find?_puts_ne, SMap.find?_dropRange, if_pos (by omega)]
    intro hk
    obtain ⟨⟨_, v⟩, hp, rfl⟩ := List.mem_map.1 hk
    exact Option.some_ne_none v ((SMap.find?_of_mem (SMap.block_nodup hn i t) hp).symm.trans h)
  | some v => exact SMap.find?_puts (SMap.block_nodup hn i t) (SMap.mem_of_find? h)

theorem SMap.find?_fill_out (cells m : List (Nat × α)) {t i k : Nat} (hk : k < 4096 * t ∨ 4096 * t + 4096 ≤ k) :
    SMap.find? (SMap.fill cells m t i) k = SMap.find? m k := by
  unfold SMap.fill
  rw [SMap.find?_puts_ne, SMap.find?_dropRange, if_neg (by omega)]
  intro hm
  obtain ⟨p, hp, rfl⟩ := List.mem_map.1 hm
  have := SMap.mem_block hp
  omega

/-- The cells of a slice, put one by one. -/
theorem SMap.fill_eq (cells m : List (Nat × α)) (t i : Nat) : SMap.fill cells m t i
    = (SMap.slice cells (4096 * i) (4096 * i + 4096)).foldl (fun m c => SMap.put m (4096 * t + c.1) c.2)
      (SMap.dropRange m (4096 * t) (4096 * t + 4096)) := List.foldl_map

/-- Blocks that take the places of a list of tiles: block n, n + 1, … -/
def SMap.fills (cells m : List (Nat × α)) (ts : List Nat) (n : Nat) : List (Nat × α) :=
  (ts.zipIdx n).foldl (fun m q => SMap.fill cells m q.1 q.2) m

theorem SMap.find?_fills_out (cells : List (Nat × α)) {k : Nat} (ts : List Nat)
    (hk : ∀ t ∈ ts, k < 4096 * t ∨ 4096 * t + 4096 ≤ k) : ∀ m n, SMap.find? (SMap.fills cells m ts n) k = SMap.find? m k := by
  induction ts with
  | nil => exact fun _ _ => rfl
  | cons t ts ih =>
    intro m n
    exact (ih (fun u hu => hk u (List.mem_cons_of_mem t hu)) _ (n + 1)).trans
      (SMap.find?_fill_out cells m (hk t List.mem_cons_self))

theorem SMap.find?_fills {cells : List (Nat × α)} (hn : (cells.map (·.1)).Nodup) (ts : List Nat) : ts.Nodup → ∀ m n q c,
    c < 4096 → q < ts.length →
    SMap.find? (SMap.fills cells m ts n) (4096 * ts.getD q 0 + c) = SMap.find? cells (4096 * (n + q) + c) := by
  induction ts with
  | nil => exact fun _ _ _ q _ _ hq => absurd hq (Nat.not_lt_zero q)
  | cons t ts ih =>
    intro ht m n q c hc hq
    obtain ⟨hout, hts⟩ := List.nodup_cons.1 ht
    match q with
    | 0 =>
      refine (SMap.find?_fills_out cells ts (fun u hu => ?_) _ (n + 1)).trans (SMap.find?_fill hn m t n hc)
      have hne : t ≠ u := fun h => hout (h ▸ hu)
      show 4096 * t + c < _ ∨ _ ≤ 4096 * t + c
      omega
    | q + 1 =>
      have := ih hts (SMap.fill cells m t n) (n + 1) q c hc (Nat.lt_of_succ_lt_succ hq)
      rw [show n + 1 + q = n + (q + 1) by omega] at this
      exact this

end

end Sys2Proof.Machine

namespace Sys2Proof.Rules

open Sys2Proof.Machine

/-- A range that is not attached is kept with its cells. -/
theorem savedRange_working (x : Loom) (first : Nat) {o : Own} (ho : o.state ≠ .attached) : x.savedRange first o
    = { first := first, own := { o with tiles := [] },
        cells := o.tiles.zipIdx.flatMap fun p => SMap.block x.cells p.1 p.2 } := if_neg ho

theorem freeTiles_nodup (x : Loom) (n : Nat) : (x.freeTiles.take n).Nodup :=
  (List.take_sublist ..).nodup ((List.filter_sublist ..).nodup List.nodup_range)

/-- The logical numbers from `first` on map the tiles of entry `e`. -/
def mapTiles (first e n : Nat) (m : List (Nat × Nat × Nat)) : List (Nat × Nat × Nat) :=
  (List.range n).foldl (fun m k => SMap.put m (first + k) (e, k)) m

theorem find?_mapTiles {first e n k : Nat} (m : List (Nat × Nat × Nat)) (hk : k < n) :
    SMap.find? (mapTiles first e n m) (first + k) = some (e, k) := by
  have puts : mapTiles first e n m = SMap.puts m ((List.range n).map fun k => (first + k, (e, k))) := by
    unfold mapTiles SMap.puts
    rw [List.foldl_map]
  rw [puts]
  refine SMap.find?_puts ?_ (List.mem_map.2 ⟨k, List.mem_range.2 hk, rfl⟩)
  rw [List.map_map]
  exact List.nodup_range.map (add_right_injective first)

/-- A change of a team leaves the ownership entries and the cells of its loom. -/
theorem modTeam_hoard (s : State) (l h : Nat) (f : Team → Team) :
    ((s.modTeam l h f).loom l).owners = (s.loom l).owners ∧ ((s.modTeam l h f).loom l).cells = (s.loom l).cells := by
  have kept : KeepsLooms (fun x => (x.owners, x.cells)) s (s.modTeam l h f) :=
    KeepsLooms.modLoom s l fun x => by split <;> rfl
  exact Prod.ext_iff.1 (kept.loom l)

section
variable {s s1 : State} {l h : Nat} {v : Saved} {r : SavedRange}

/-- A range that is not attached is put into free tiles under a free entry. -/
theorem restoreRange_working (ho : r.own.state ≠ .attached) (hr : s.restoreRange l h v r = some s1) :
    ∃ e, ((s.loom l).freeTiles.take r.own.t).length = r.own.t ∧
      let tiles := (s.loom l).freeTiles.take r.own.t
      s1 = ((((s.modLoom l fun x => { x with cells := SMap.fills r.cells x.cells tiles 0 }).clearCells l tiles).setOwn l e
        { r.own with tiles := tiles, team := h }).modTeam l h fun t => { t with accs := mapTiles r.first e r.own.t t.accs }) := by
  unfold State.restoreRange at hr
  dsimp only at hr
  split at hr
  · cases hr
  · next e _ =>
    split at hr
    · cases hr
    · next hlen =>
      obtain rfl := Option.some.inj hr
      refine ⟨e, ?_, ?_⟩
      · have := List.length_take_le r.own.t (s.loom l).freeTiles
        omega
      · simp only [SMap.fills, SMap.fill_eq]
        rfl

/-- A range is given back with its cells, under its logical numbers. -/
theorem rangeGives : RangeGives := by
  refine ⟨fun x first o ho => ?_, fun s l h v r s1 tm ho hn ht hr => ?_⟩
  · rw [savedRange_working x first ho]
    refine ⟨rfl, rfl, fun q hq c hc => ?_⟩
    unfold SMap.getD
    have := SMap.find?_blocks x.cells o.tiles 0 q c hc hq
    rw [Nat.zero_add] at this
    rw [this]
  · obtain ⟨e, hlen, rfl⟩ := restoreRange_working ho hr
    generalize htiles : (s.loom l).freeTiles.take r.own.t = tiles at hlen
    have nodup : tiles.Nodup := htiles ▸ freeTiles_nodup _ _
    dsimp only
    generalize hs2 : ((s.modLoom l fun x => { x with cells := SMap.fills r.cells x.cells tiles 0 }).clearCells l tiles).setOwn l e
      { r.own with tiles := tiles, team := h } = s2
    have loom2 : s2.loom l = { s.loom l with
        cells := SMap.fills r.cells (s.loom l).cells tiles 0
        owners := SMap.put (s.loom l).owners e { r.own with tiles := tiles, team := h } } := by
      rw [← hs2]
      unfold State.setOwn
      have cleared (u : State) : (u.clearCells l tiles).loom l = u.loom l := rfl
      rw [State.loom_modLoom, cleared, State.loom_modLoom]
    obtain ⟨owners, cells⟩ := modTeam_hoard s2 l h fun t => { t with accs := mapTiles r.first e r.own.t t.accs }
    have team2 : s2.team? l h = some tm := by
      unfold State.team? at ht ⊢
      rw [loom2]
      exact ht
    refine ⟨e, { r.own with tiles := tiles, team := h }, { tm with accs := mapTiles r.first e r.own.t tm.accs }, ?_, rfl, hlen, ?_,
      fun q hq c hc => ?_, fun k hk => find?_mapTiles tm.accs hk⟩
    · rw [owners, loom2]
      exact SMap.find?_put_self ..
    · rw [State.team?_modTeam, if_pos rfl, team2]
      rfl
    · rw [cells, loom2]
      unfold SMap.getD
      have filled := SMap.find?_fills hn tiles nodup (s.loom l).cells 0 q c hc (hlen.symm ▸ hq)
      rw [Nat.zero_add] at filled
      rw [filled]

end

end Sys2Proof.Rules
end

section
/-! SUPPORT. The wefts and the heddles that a save takes and a restore gives back (R64, R310, R430). -/

namespace Sys2Proof.Machine

section
variable {α : Type}

theorem SMap.nodup_of_rising {m : List (Nat × α)} (h : SMap.rising m = true) : (m.map (·.1)).Nodup := by
  induction m with
  | nil => exact List.nodup_nil
  | cons p t ih =>
    obtain ⟨above, rising⟩ := (SMap.rising_cons p t).1 h
    refine List.nodup_cons.2 ⟨fun hp => ?_, ih rising⟩
    obtain ⟨q, hq, he⟩ := List.mem_map.1 hp
    exact absurd he (Nat.lt_iff_add_one_le.2 (above q hq)).ne'

theorem SMap.rising_puts (ps : List (Nat × α)) {m : List (Nat × α)} (h : SMap.rising m = true) :
    SMap.rising (SMap.puts m ps) = true := by
  induction ps generalizing m with
  | nil => exact h
  | cons p t ih => exact ih (SMap.rising_put m p.1 p.2 h)

end

/-! ## What a save takes -/

/-- The wefts of a team, by their slots. -/
def Loom.crewOf (x : Loom) (h : Nat) : List (Nat × Weft) := x.wefts.filter fun p => p.2.team == some h

section
variable {x : Loom} {l h : Nat} {t : Team} {p : Nat × Weft}

theorem Loom.mem_crewOf : p ∈ x.crewOf h ↔ p ∈ x.wefts ∧ p.2.team = some h := by
  rw [Loom.crewOf, List.mem_filter, beq_iff_eq]

theorem Loom.saveOf_wefts (x : Loom) (l h : Nat) (t : Team) :
    (x.saveOf l h t).wefts = SMap.puts [] ((x.crewOf h).map fun p => (p.2.num, p.2.saved x.arms t.shareBase)) := by
  unfold SMap.puts
  rw [List.foldl_map]
  rfl

theorem Loom.saveOf_keys (x : Loom) (l h : Nat) (t : Team) : ((x.saveOf l h t).wefts.map (·.1)).Nodup := by
  rw [Loom.saveOf_wefts]
  exact SMap.nodup_of_rising (SMap.rising_puts _ rfl)

/-- Each weft of a team whose wefts have numbers of their own is saved under its number. -/
theorem Loom.mem_saveOf (hx : (x.wefts.map (·.1)).Nodup) (apart : ∀ p ∈ x.crewOf h, ∀ q ∈ x.crewOf h, p.2.num = q.2.num → p = q)
    (hp : p ∈ x.crewOf h) : (p.2.num, p.2.saved x.arms t.shareBase) ∈ (x.saveOf l h t).wefts := by
  rw [Loom.saveOf_wefts]
  refine SMap.mem_of_find? (SMap.find?_puts ?_ (List.mem_map.2 ⟨p, hp, rfl⟩))
  rw [List.map_map]
  exact List.Nodup.map_on apart ((List.Nodup.of_map _ hx).filter _)

end

/-! ## What a restore places -/

/-- The slots of a saved team's wefts, by their numbers. -/
def Saved.slotOf (v : Saved) (slots : List Nat) : List (Nat × Nat) := (v.wefts.map (·.1)).zip slots

/-- The wefts of a saved team, in their new slots. -/
def Saved.placed (v : Saved) (l h : Nat) (slots bases : List Nat) : List (Nat × Weft) :=
  (v.wefts.zip (slots.zip ((bases.drop 1).take v.wefts.length))).map fun p =>
    (p.2.1, p.1.2.restored l h p.2.1 p.2.2 (SMap.find? ((v.frames.map (·.1)).zip (bases.drop (1 + v.wefts.length))) p.1.1))

/-- A heddle of a saved team, with the new slots of its wefts. -/
def Heddle.placed (e : Heddle) (h : Nat) (slotOf : List (Nat × Nat)) : Heddle :=
  { e with team := h, mask := slotsOf slotOf e.mask, arrived := slotsOf slotOf e.arrived }

section
variable {v : Saved} {l h : Nat} {slots bases : List Nat}

theorem Saved.placed_slots (hl : slots.length = v.wefts.length) (hb : 1 + v.wefts.length ≤ bases.length) :
    (v.placed l h slots bases).map (·.1) = slots := by
  have spills : ((bases.drop 1).take v.wefts.length).length = v.wefts.length := by
    rw [List.length_take, List.length_drop]
    omega
  have first : (v.placed l h slots bases).map (·.1)
      = ((v.wefts.zip (slots.zip ((bases.drop 1).take v.wefts.length))).map Prod.snd).map Prod.fst := by
    simp only [Saved.placed, List.map_map]
    rfl
  rw [first, List.map_snd_zip (by rw [List.length_zip]; omega), List.map_fst_zip (by omega)]

/-- A saved weft stands in the slot that its number has. -/
theorem Saved.find?_placed (hn : (v.wefts.map (·.1)).Nodup) (hs : slots.Nodup) (hl : slots.length = v.wefts.length)
    (hb : 1 + v.wefts.length ≤ bases.length) (m : List (Nat × Weft)) {n : Nat} {w : Weft} (hw : (n, w) ∈ v.wefts) :
    ∃ k spill frame, k ∈ slots ∧ SMap.find? (v.slotOf slots) n = some k
      ∧ SMap.find? (SMap.puts m (v.placed l h slots bases)) k = some (w.restored l h k spill frame) := by
  obtain ⟨i, hi, he⟩ := List.getElem_of_mem hw
  have spills : i < ((bases.drop 1).take v.wefts.length).length := by
    rw [List.length_take, List.length_drop]
    omega
  have hk : i < slots.length := hl.symm ▸ hi
  refine ⟨slots[i], ((bases.drop 1).take v.wefts.length)[i], _, List.getElem_mem hk,
    SMap.find?_of_mem ?_ ?_, SMap.find?_puts ?_ (List.mem_map.2 ⟨((n, w), slots[i], _), ?_, rfl⟩)⟩
  · rw [Saved.slotOf, List.map_fst_zip (by rw [List.length_map]; omega)]
    exact hn
  · refine List.mem_iff_getElem.2 ⟨i, by rw [Saved.slotOf, List.length_zip, List.length_map]; omega, ?_⟩
    simp only [Saved.slotOf, List.getElem_zip, List.getElem_map, he]
  · rw [Saved.placed_slots hl hb]
    exact hs
  · refine List.mem_iff_getElem.2 ⟨i, by rw [List.length_zip, List.length_zip]; omega, ?_⟩
    simp only [List.getElem_zip, he]

theorem State.restoreOp_crew (s : State) (l slot : Nat) (o : Op) : KeepsLooms Loom.crew s (s.restoreOp l slot o) := by
  have queued (c : OcClass) (x : Loom) (q : List Op) : (x.setQueue c q).crew = x.crew := by cases c <;> rfl
  unfold State.restoreOp
  dsimp only
  refine KeepsLooms.trans ?_ (KeepsLooms.modLoom _ l fun x => queued o.cls x _)
  exact KeepsLooms.ite (KeepsLooms.of_looms rfl) (KeepsLooms.refl s)

theorem State.modLm_crew (s : State) (l : Nat) (f : Mem → Mem) : KeepsLooms Loom.crew s (s.modLm l f) :=
  KeepsLooms.modLoom s l fun _ => rfl

theorem State.clearLm_crew (s : State) (l base size : Nat) : KeepsLooms Loom.crew s (s.clearLm l base size) :=
  ⟨fun j => (congrArg Loom.crew (State.clearLm_loom s l base size j)).trans ((State.modLm_crew ..).loom j)⟩

/-- The wefts and heddles of a loom on which a saved team has been placed. -/
theorem State.restoreTeam_crew (s : State) (l h : Nat) (v : Saved) (slots bases : List Nat) :
    let hs := v.heddles.map fun e => e.placed h (v.slotOf slots)
    ((s.restoreTeam l h v slots bases).loom l).crew
      = (SMap.puts (s.loom l).wefts (v.placed l h slots bases),
          SMap.puts (s.loom l).heddles (((s.loom l).freeHeddles hs.length).zip hs)) := by
  intro hs
  unfold State.restoreTeam
  dsimp only
  refine ((KeepsLooms.foldl (fun s o => State.restoreOp_crew s l _ o) v.ops _).loom l).trans ?_
  refine ((State.modLm_crew ..).loom l).trans ?_
  rw [State.loom_modLoom]
  generalize hs2 : List.foldl _ _ _ = s2
  have kept : KeepsLooms Loom.crew s s2 := by
    rw [← hs2]
    refine ((State.clearLm_crew s l _ _).trans (State.modLm_crew ..)).trans (KeepsLooms.foldl (fun s f => ?_) _ _)
    split
    · exact (State.clearLm_crew ..).trans (State.modLm_crew ..)
    · exact KeepsLooms.refl s
  obtain ⟨wefts, heddles⟩ := Prod.ext_iff.1 (kept.loom l)
  have wefts : (s2.loom l).wefts = (s.loom l).wefts := wefts
  have heddles : (s2.loom l).heddles = (s.loom l).heddles := heddles
  rw [← wefts, ← heddles]
  unfold Loom.freeHeddles
  rw [← heddles]
  rfl

end

end Sys2Proof.Machine

namespace Sys2Proof.Rules

open Sys2Proof.Machine

theorem sameWeft_restored (w : Weft) (arms : List (Nat × Arm)) (base l h k spill : Nat) (frame : Option Nat) :
    SameWeft w ((w.saved arms base).restored l h k spill frame) h where
  num := rfl
  regs := ⟨rfl, rfl, rfl⟩
  fmts := ⟨rfl, rfl⟩
  frontier := ⟨rfl, rfl⟩
  fixed := ⟨rfl, rfl, rfl, rfl⟩
  ops := ⟨rfl, rfl, rfl, rfl, rfl⟩
  team := rfl
  wait := by
    show w.wait.saved = _
    cases w.wait <;> rfl

/-- A restore gives back the wefts and the heddles that the save took. -/
theorem restoreGives : RestoreGives := by
  intro x l0 h0 tm s l h slots bases v t mine apart hx hs hl hb
  have crewOf {p : Nat × Weft} (hp : mine p) : p ∈ x.crewOf h0 := Loom.mem_crewOf.2 hp
  have crew := s.restoreTeam_crew l h v slots bases
  have weft {p : Nat × Weft} (hp : mine p) : ∃ k w', k ∈ slots ∧ SMap.find? (v.slotOf slots) p.2.num = some k
      ∧ t.weft? l k = some w' ∧ SameWeft p.2 w' h := by
    have saved : (p.2.num, p.2.saved x.arms tm.shareBase) ∈ v.wefts :=
      Loom.mem_saveOf hx (fun p hp q hq => apart p q (Loom.mem_crewOf.1 hp) (Loom.mem_crewOf.1 hq)) (crewOf hp)
    obtain ⟨k, spill, frame, hk, num, placed⟩ :=
      Saved.find?_placed (l := l) (h := h) (Loom.saveOf_keys x l0 h0 tm) hs hl hb (s.loom l).wefts saved
    refine ⟨k, _, hk, num, ?_, sameWeft_restored p.2 x.arms tm.shareBase l h k spill frame⟩
    rw [← placed]
    exact congrArg (SMap.find? · k) (Prod.ext_iff.1 crew).1
  refine ⟨fun p hp => ?_, fun room a e he team => ?_⟩
  · obtain ⟨k, w', hk, _, placed, same⟩ := weft hp
    exact ⟨k, w', hk, placed, same⟩
  · have saved : { e with mask := numsOf (x.crewOf h0) e.mask, arrived := numsOf (x.crewOf h0) e.arrived } ∈ v.heddles :=
      List.mem_map.2 ⟨(a, e), List.mem_filter.2 ⟨he, beq_iff_eq.2 team⟩, rfl⟩
    obtain ⟨a', placed⟩ := find?_heddles (x := s.loom l) (hs := v.heddles.map fun e => e.placed h (v.slotOf slots))
      (by rw [List.length_map]; exact room) (List.mem_map.2 ⟨_, saved, rfl⟩)
    refine ⟨a', _, (congrArg (SMap.find? · a') (Prod.ext_iff.1 crew).2).trans placed, rfl, fun p hp hm => ?_⟩
    obtain ⟨k, w', _, num, stands, same⟩ := weft hp
    refine ⟨k, w', List.mem_filterMap.2 ⟨p.2.num, List.mem_filterMap.2 ⟨p.1, hm, ?_⟩, num⟩, stands, same.num⟩
    have keys : ((x.crewOf h0).map (·.1)).Nodup := (List.filter_sublist.map _).nodup hx
    rw [SMap.find?_of_mem keys (crewOf hp)]
    rfl

end Sys2Proof.Rules
end

section
/-! PROOFS. The steps of the distributor (R310, R320, R321, R424, R426, R428 to R430). -/

namespace Sys2Proof.Rules

open Sys2Proof.Machine

/-! ## The winner of a draw (R320) -/

theorem foldl_tickets (qs : List (Nat × Nat)) : qs.foldl (fun n p => n + p.2) 0 = (qs.map (·.2)).sum := by
  rw [List.sum_eq_foldl, List.foldl_map]

/-- A number below the sum of the tickets falls to the queue whose tickets it is among. -/
theorem lottery_falls (qs : List (Nat × Nat)) : ∀ r, r < (qs.map (·.2)).sum →
    ∃ q, lottery qs r = some q ∧ ∃ before n after, qs = before ++ (q, n) :: after
      ∧ (before.map (·.2)).sum ≤ r ∧ r < (before.map (·.2)).sum + n := by
  induction qs with
  | nil => exact fun r hr => absurd hr (Nat.not_lt_zero r)
  | cons p t ih =>
    intro r hr
    rw [List.map_cons, List.sum_cons] at hr
    by_cases hp : r < p.2
    · exact ⟨p.1, if_pos hp, [], p.2, t, rfl, Nat.zero_le r, by simpa using hp⟩
    · obtain ⟨q, hq, before, n, after, rfl, low, high⟩ := ih (r - p.2) (by omega)
      refine ⟨q, (if_neg hp).trans hq, p :: before, n, after, rfl, ?_, ?_⟩
      all_goals
        rw [List.map_cons, List.sum_cons]
        omega

section
variable {qs : List (Nat × Nat)} {z : Nat}

theorem drawWinner_tickets (x : Word) (h : 0 < (qs.map (·.2)).sum) :
    drawWinner qs x z = (lottery qs (x.toNat % (qs.map (·.2)).sum), z) := by
  unfold drawWinner
  rw [foldl_tickets]
  exact if_pos h

/-- Without tickets the turn goes to the next queue, and from the last to the first. -/
theorem drawWinner_wraps (x : Word) {q n : Nat} {rest : List (Nat × Nat)} (h : (qs.map (·.2)).sum = 0) (hq : qs = (q, n) :: rest)
    (hz : ∀ p ∈ qs, p.1 ≤ z) : drawWinner qs x z = (some q, q) := by
  have past : (qs.map (·.1)).find? (fun q => z < q) = none := by
    rw [List.find?_eq_none]
    intro k hk
    obtain ⟨p, hp, rfl⟩ := List.mem_map.1 hk
    rw [decide_eq_true_eq]
    exact Nat.not_lt.2 (hz p hp)
  unfold drawWinner
  rw [foldl_tickets, h]
  dsimp only
  rw [if_neg (Nat.lt_irrefl 0), past, hq]
  rfl

end

/-! ## Draws and expiries (R320, R321, R63, R426) -/

section
variable {s : State}

theorem fetches_all_held : (s.fetches.any fun f => s.fetchAnswer f != .held) = false ↔ ∀ f ∈ s.fetches, s.fetchAnswer f = .held := by
  simp

theorem draw_after_answers (h : ∃ f ∈ s.fetches, s.fetchAnswer f ≠ .held) : exec .distributorDraw s = .next s := by
  obtain ⟨f, hf, hne⟩ := h
  have answers : (s.fetches.any fun f => s.fetchAnswer f != .held) = true := List.any_eq_true.2 ⟨f, hf, bne_iff_ne.2 hne⟩
  exact if_pos answers

/-- A draw in a turn without answers. -/
theorem draw_held (h : ∀ f ∈ s.fetches, s.fetchAnswer f = .held) : exec .distributorDraw s
    = match s.dist.waiting with
      | some p => .next (s.preemptCheck p)
      | none =>
        match s.dist.drawn with
        | some q => .next (s.drawTake q)
        | none =>
          let qs := (List.range 64).filter s.hasWork
          if qs.isEmpty then .next s
          else
            let x := xorshift s.dist.x
            let w := drawWinner (qs.map fun q => (q, s.queueTickets q)) x s.dist.z
            match w.1 with
            | none => .next s
            | some q => .next (({ s with dist := { s.dist with x := x, z := w.2 } } : State).drawTake q) := by
  show execDistributorDraw s = _
  unfold execDistributorDraw
  rw [fetches_all_held.2 h]
  rfl

theorem draw_new (h : ∀ f ∈ s.fetches, s.fetchAnswer f = .held) (hw : s.dist.waiting = none) (hd : s.dist.drawn = none) :
    let qs := (List.range 64).filter s.hasWork
    let x := xorshift s.dist.x
    let won := drawWinner (qs.map fun q => (q, s.queueTickets q)) x s.dist.z
    (qs = [] → exec .distributorDraw s = .next s)
    ∧ ∀ q, qs ≠ [] → won.1 = some q →
      exec .distributorDraw s = .next (({ s with dist := { s.dist with x := x, z := won.2 } } : State).drawTake q) := by
  intro qs x won
  rw [draw_held h]
  simp only [hw, hd]
  refine ⟨fun hq => if_pos (List.isEmpty_iff.2 hq), fun q hq hwon => ?_⟩
  rw [if_neg (mt List.isEmpty_iff.1 hq)]
  simp only [won, x, qs] at hwon
  simp only [hwon]
  rfl

/-- What a draw does. -/
theorem distributorDraw_cases (s : State) : ((∃ f ∈ s.fetches, s.fetchAnswer f ≠ .held) → exec .distributorDraw s = .next s)
    ∧ ((∀ f ∈ s.fetches, s.fetchAnswer f = .held) →
      (∀ p, s.dist.waiting = some p → exec .distributorDraw s = .next (s.preemptCheck p))
      ∧ (s.dist.waiting = none → ∀ q, s.dist.drawn = some q → exec .distributorDraw s = .next (s.drawTake q))
      ∧ (s.dist.waiting = none → s.dist.drawn = none →
        let qs := (List.range 64).filter s.hasWork
        let x := xorshift s.dist.x
        let won := drawWinner (qs.map fun q => (q, s.queueTickets q)) x s.dist.z
        (qs = [] → exec .distributorDraw s = .next s)
        ∧ ∀ q, qs ≠ [] → won.1 = some q →
          exec .distributorDraw s = .next (({ s with dist := { s.dist with x := x, z := won.2 } } : State).drawTake q))) := by
  refine ⟨draw_after_answers, fun h => ⟨fun p hp => ?_, fun hw q hq => ?_, draw_new h⟩⟩
  · rw [draw_held h, hp]
  · rw [draw_held h, hw, hq]

/-- What the winner of a draw has to place. -/
theorem drawTake_cases (s : State) (q : Nat) :
    let s1 := (s.findPick (s.queueLoad q + 1) q).1
    let found := (s.findPick (s.queueLoad q + 1) q).2
    let drawn (w : Option Pick) (again : Option Nat) : State :=
      { s1 with dist := { s1.dist with waiting := w, drawn := again, preempting := none } }
    (found = .held → s.drawTake q = drawn none (some q)) ∧ (found = .nothing → s.drawTake q = drawn none none)
    ∧ ∀ p, found = .team p → s.drawTake q = (drawn (some p) none).preemptCheck p := by
  intro s1 found drawn
  have take : s.drawTake q = match found with
      | .held => drawn none (some q)
      | .nothing => drawn none none
      | .team p => (drawn (some p) none).preemptCheck p := rfl
  exact ⟨fun h => by rw [take, h], fun h => by rw [take, h], fun p h => by rw [take, h]⟩

variable {l h : Nat} {t : Team}

theorem quantumExpiry_cases {p : Pick} (ht : s.team? l h = some t) (hw : s.dist.waiting = some p) :
    (s.quantum ≤ (s.clock - t.placedAt).toNat → exec (.teamQuantumExpiry l h) s = .next (s.preemptCheck p))
    ∧ ((s.clock - t.placedAt).toNat < s.quantum → exec (.teamQuantumExpiry l h) s = .next s) := by
  have due : exec (.teamQuantumExpiry l h) s
      = if (s.clock - t.placedAt).toNat ≥ s.quantum then .next (s.preemptCheck p) else .next s := by
    show execTeamQuantumExpiry l h s = _
    unfold execTeamQuantumExpiry
    rw [ht, hw]
  exact ⟨fun hq => due.trans (if_pos hq), fun hq => due.trans (if_neg (Nat.not_le.2 hq))⟩

theorem drainExpiry_cases (ht : s.team? l h = some t) :
    (t.drainUntil = none → exec (.drainExpiry l h) s = .next s)
    ∧ ∀ u, t.drainUntil = some u →
      (s.clock.toNat < u.toNat → exec (.drainExpiry l h) s = .next s)
      ∧ (u.toNat ≤ s.clock.toNat →
        let again := (s.modTeam l h fun q => { q with drainUntil := none, drained := true }).preemptTeam l h
        (s.dist.waiting ≠ none → exec (.drainExpiry l h) s = .next again)
        ∧ (s.dist.waiting = none → exec (.drainExpiry l h) s = .next again.drawOver)) := by
  have step : exec (.drainExpiry l h) s = execDrainExpiry l h s := rfl
  unfold execDrainExpiry at step
  rw [ht] at step
  refine ⟨fun hd => ?_, fun u hd => ⟨fun early => ?_, fun due => ⟨fun hw => ?_, fun hw => ?_⟩⟩⟩ <;> simp only [hd] at step
  · exact step
  · exact step.trans (if_pos early)
  · rw [if_neg (Nat.not_lt.2 due), if_neg (by simpa using hw)] at step
    exact step
  · rw [if_neg (Nat.not_lt.2 due), if_pos (by simpa using hw)] at step
    exact step

/-! ## Placement, flush, save and restore (R45, R310, R428 to R430) -/

theorem teamPlacement_cases {k : Nat} {id : TeamId} {x : Launch} {bases : List Nat} (hw : s.dist.waiting = some (.fresh id))
    (hx : s.launch? id.queue (BitVec.ofNat 64 id.count) = some x) (hl : l < 192) (hh : h < 1024) (ht : s.team? l h = none)
    (hb : (s.loom l).fits x.lrec.need = some bases) :
    let slots := (s.loom l).freeSlots k x.lrec.wefts
    (slots.length < x.lrec.wefts → exec (.teamPlacement l h k) s = .next s)
    ∧ (x.lrec.wefts ≤ slots.length → exec (.teamPlacement l h k) s = .next (s.placeTeam l h x id slots bases)) := by
  intro slots
  have placeable : ¬ (l ≥ Config.looms ∨ h ≥ 1024 ∨ (s.team? l h).isSome) := by
    rw [ht]
    rintro (hl' | hh' | hs)
    · exact absurd hl (Nat.not_lt.2 hl')
    · exact absurd hh (Nat.not_lt.2 hh')
    · cases hs
  have step : exec (.teamPlacement l h k) s
      = if slots.length < x.lrec.wefts then .next s else .next (s.placeTeam l h x id slots bases) := by
    show execTeamPlacement l h k s = _
    unfold execTeamPlacement
    simp only [hw, hx, hb, if_neg placeable]
    rfl
  exact ⟨fun short => step.trans (if_pos short), fun enough => step.trans (if_neg (Nat.not_lt.2 enough))⟩

theorem teamFlush_cases (ht : s.team? l h = some t) :
    (t.stop ≠ some .flush ∨ t.unstarted = true ∨ s.teamOps l h ≠ [] ∨ (s.loom l).entriesBusy h = true →
      exec (.teamFlush l h) s = .next s)
    ∧ (t.stop = some .flush → t.unstarted = false → s.teamOps l h = [] → (s.loom l).entriesBusy h = false →
      let s1 := (s.liveWefts l h).foldl (fun u p => u.cancelReplay p.2) (s.leaveArms l h)
      let s2 := s1.modLoom l fun x => ((x.releaseRanges h s.clock).releaseEntries h).removeTeam h
      let s3 := s2.modLaunch t.id.queue t.id.count fun x => { x with again := x.again ++ [(t.id.n, t.issued)] }
      exec (.teamFlush l h) s = .next ((s3.returnTeams t.withdrawn).dropBoxes fun b => !b.ofTeam t.id)) := by
  have step : exec (.teamFlush l h) s = execTeamFlush l h s := rfl
  unfold execTeamFlush at step
  rw [ht] at step
  refine ⟨fun held => step.trans (if_pos ?_), fun hs hu ho hb => step.trans (if_neg ?_)⟩
  · simpa [or_assoc, List.isEmpty_iff] using held
  · simp [hs, hu, ho, hb]

theorem teamSave_cases (ht : s.team? l h = some t) :
    let ready : Prop := t.stop = some .save ∧ s.saveBusy l h t = false ∧ s.swapUnheld l = true
    (¬ ready → exec (.teamSave l h) s = .next s)
    ∧ (ready → s.imageState t.ctx t.swap t.imageBytes = .unusable → exec (.teamSave l h) s = .next (s.terminateTeam l h))
    ∧ (ready → s.imageState t.ctx t.swap t.imageBytes = .absent → exec (.teamSave l h) s = .next s)
    ∧ (ready → s.imageState t.ctx t.swap t.imageBytes = .usable →
      ∀ s1, s.spillAttached l h ((s.loom l).rangesOf h t) = some s1 →
      let s2 := (s1.saveShare l t).leaveArms l h
      let v := (s2.loom l).saveOf l h { (s2.team? l h).getD t with stop := none, drainUntil := none }
      let s3 := s2.modLoom l fun x => (x.spillEntries h t).dropSaved h
      let s4 := s3.modLaunch t.id.queue t.id.count fun x => { x with swapped := x.swapped ++ [v] }
      let s5 := ((s2.loom l).wefts.filter fun p => p.2.team == some h && p.2.port.isSome).foldl
        (fun u p => u.refuseSenders l p.1 p.2.ctx) s4
      exec (.teamSave l h) s = .next ((s5.countLoom l 0x12 t.ctx 1).swapBusy l)) := by
  intro ready
  have step : exec (.teamSave l h) s = execTeamSave l h s := rfl
  unfold execTeamSave at step
  rw [ht] at step
  dsimp -zeta only at step
  have unready : (t.stop ≠ some .save || s.saveBusy l h t || !s.swapUnheld l) = true ↔ ¬ ready := by
    simp only [ready, ne_eq, Bool.or_eq_true, decide_eq_true_eq, Bool.not_eq_true', not_and_or, Bool.not_eq_false,
      Bool.not_eq_true, or_assoc]
  refine ⟨fun hr => step.trans (if_pos (unready.2 hr)), fun hr image => ?_, fun hr image => ?_, fun hr image s1 spilled => ?_⟩
    <;> rw [if_neg fun hn => unready.1 hn hr, image] at step
  · exact step
  · exact step
  · rw [spilled] at step
    exact step

theorem teamRestore_waits {k : Nat} {id : TeamId} {v : Saved} (hw : s.dist.waiting = some (.swapped id)) (hv : s.saved? id = some v)
    (lacks : s.restoreRoom l v = false ∨ s.swapUnheld l = false ∨ (s.loom l).fits v.need = none) :
    exec (.teamRestore l h k) s = .next s := by
  have step : exec (.teamRestore l h k) s = execTeamRestore l h k s := rfl
  unfold execTeamRestore at step
  simp -zeta only [hw, hv] at step
  refine step.trans ?_
  rcases lacks with hr | hu | hf
  · exact if_pos (by simp [hr])
  · exact if_pos (by simp [hu])
  · simp -zeta only [hf]
    exact ite_self _

theorem teamRestore_cases {k : Nat} {id : TeamId} {v : Saved} {bases : List Nat} (hw : s.dist.waiting = some (.swapped id))
    (hv : s.saved? id = some v) (hl : l < 192) (hh : h < 1024) (ht : s.team? l h = none) (hu : s.swapUnheld l = true)
    (hr : s.restoreRoom l v = true) (hb : (s.loom l).fits v.need = some bases) :
    let slots := (s.loom l).freeSlots k v.wefts.length
    v.wefts.length ≤ slots.length →
    (s.restoreState v.team = .absent → exec (.teamRestore l h k) s = .next s)
    ∧ (s.restoreState v.team = .unusable → ∀ s1, s.restoreFails v = some s1 → exec (.teamRestore l h k) s = .next s1)
    ∧ (s.restoreState v.team = .usable → ∀ s1, s.evict 33 l (v.ranges.foldl (fun n r => n + r.own.t) 0) = some s1 →
      ∀ s2, (s1.restoreTeam l h v slots bases).restoreRanges l h v v.ranges = some s2 →
      let s3 := ((s2.restoreTiles l h v).restoreEntries l h (bases.headD 0) v).forgetSaved id
      exec (.teamRestore l h k) s
        = .next ((((s3.checkFrontiers l h).countLoom l 0x11 v.team.ctx 1).swapBusy l).drawOver)) := by
  intro slots enough
  have step : exec (.teamRestore l h k) s = execTeamRestore l h k s := rfl
  have room : (l ≥ Config.looms || h ≥ 1024 || (s.team? l h).isSome || slots.length < v.wefts.length || !s.swapUnheld l
      || !s.restoreRoom l v) = false := by
    have hl : ¬ l ≥ Config.looms := Nat.not_le.2 hl
    simp [hl, hh, ht, hu, hr, enough]
  unfold execTeamRestore at step
  simp -zeta only [hw, hv] at step
  rw [if_neg (Bool.eq_false_iff.1 room), hb] at step
  refine ⟨fun image => ?_, fun image s1 fails => ?_, fun image s1 evicted s2 filled => ?_⟩ <;> rw [image] at step
  · exact step
  · rw [fails] at step
    exact step
  · simp only [evicted] at step
    rw [filled] at step
    exact step

end

/-- Settles O55: each step is taken apart along its conditions, and what a placement, a pre-emption, a save and a restore do comes
from the lemmas above. -/
theorem distributorSteps : Obligations.DistributorSteps := by
  unfold Obligations.DistributorSteps
  refine ⟨⟨placementMakes, wayRule, preemptRule, choiceRule, restoreGives, rangeGives, restoreKeeps⟩, distributorDraw_cases,
    drawTake_cases, fun qs x z => ⟨fun h q n rest hq hz => drawWinner_wraps x h hq hz, fun h => ?_⟩, fun _ => rfl,
    fun _ _ _ _ _ => quantumExpiry_cases, fun _ _ _ _ => drainExpiry_cases, fun _ _ _ _ _ _ _ => teamPlacement_cases,
    fun _ _ _ _ => teamFlush_cases, fun _ _ _ _ => teamSave_cases, fun _ _ _ _ _ _ => teamRestore_waits,
    fun _ _ _ _ _ _ _ => teamRestore_cases⟩
  obtain ⟨q, falls, split⟩ := lottery_falls qs (x.toNat % (qs.map (·.2)).sum) (Nat.mod_lt _ h)
  exact ⟨q, (drawWinner_tickets x h).trans (by rw [falls]), split⟩

end Sys2Proof.Rules
end

section
/-! SUPPORT. The spill of a context's pinned ranges changes no context (R299, R303, R455). -/

namespace Sys2Proof.Machine

theorem State.contexts_foldl {α : Type} {step : State → α → State} (keeps : ∀ s a, (step s a).contexts = s.contexts)
    (as : List α) (s : State) : (as.foldl step s).contexts = s.contexts :=
  List.foldlRecOn as step (motive := fun u => u.contexts = s.contexts) rfl fun u hu a _ => (keeps u a).trans hu

theorem MarksOnly.contexts {s t : State} (h : MarksOnly s t) : t.contexts = s.contexts := by
  obtain ⟨q, k, d, m, rfl⟩ := h
  rfl

section
variable (s : State)

theorem State.contexts_countLoom (l src ctx n : Nat) : (s.countLoom l src ctx n).contexts = s.contexts := by
  unfold State.countLoom
  split <;> rfl

theorem State.contexts_missTlb (v : View) (va : Nat) (x : Leaf) : (s.missTlb v va x).contexts = s.contexts := by
  have fill : (s.fillTlb v.agent v.ctx va).contexts = s.contexts := by
    rw [State.fillTlb_eq]
    split
    · rfl
    · exact State.contexts_setTlb ..
  unfold State.missTlb
  split
  · rfl
  · dsimp only
    split
    · exact (State.contexts_countLoom ..).trans fill
    · exact fill

theorem State.contexts_noteFrom (from_ : Nat) (v : View) (a : Acc) (write : Bool) :
    (s.noteFrom from_ v a write).contexts = s.contexts := by
  refine State.contexts_foldl (fun s va => ?_) _ s
  dsimp only
  split
  · refine Eq.trans ?_ (s.contexts_missTlb v va ‹Leaf›)
    split
    · rfl
    · split
      · exact (State.bankAccess_marks ..).contexts
      · exact (State.homeAccess_marks ..).contexts
  · rfl

theorem State.contexts_countSofts (l ctx n : Nat) : (s.countSofts l ctx n).contexts = s.contexts :=
  State.contexts_foldl (fun s _ => State.contexts_countLoom (s.loomError l 4) ..) _ s

theorem State.contexts_writeSpot (l : Nat) (b : Byte) (sp : Spot) : (s.writeSpot l b sp).contexts = s.contexts := by
  cases sp with
  | bad | lm | page => rfl
  | frame base i =>
    unfold State.writeSpot
    (repeat' split) <;> rfl

theorem State.contexts_storeSpots (l : Nat) (bs : List (Spot × Byte)) (sv : Bool) :
    (s.storeSpots l bs sv).contexts = s.contexts := by
  have whole (u : State) (sps : List Spot) : (u.wholeUnits l sps).contexts = u.contexts := by
    unfold State.wholeUnits
    split <;> rfl
  exact (whole _ _).trans (State.contexts_foldl (fun s (p : Spot × Byte) => s.contexts_writeSpot l p.2 p.1) _ s)

theorem State.contexts_spillFailed (l e : Nat) (o : Own) (cause : Nat) : (s.spillFailed l e o cause).contexts = s.contexts := by
  refine (?_ : (s.eventRecord 0x02 l o.ctx o.key (BitVec.ofNat 64 cause)).contexts = s.contexts)
  unfold State.eventRecord
  exact (apply_ite State.contexts _ _ _).trans (ite_self _)

theorem State.contexts_spillRange {s s1 : State} {l : Nat} {o : Own} (h : s.spillRange l o = .ok s1) :
    s1.contexts = s.contexts := by
  unfold State.spillRange at h
  dsimp only at h
  split at h
  · cases h
  · split at h
    · cases h
    · split at h
      · cases h
      · cases h
        exact (State.contexts_noteFrom ..).trans ((State.contexts_countSofts ..).trans (State.contexts_storeSpots ..))

theorem State.contexts_spillPinned (c l : Nat) (es : List (Nat × Own)) : (s.spillPinned c l es).1.contexts = s.contexts := by
  induction es generalizing s with
  | nil => rfl
  | cons p rest ih =>
    unfold State.spillPinned
    refine (ih _).trans ?_
    dsimp only
    (repeat' split)
    · rfl
    · rfl
    · rfl
    · exact State.contexts_spillFailed ..
    · next spilled => exact (State.modLoom_contexts ..).trans (State.contexts_spillRange spilled)

theorem State.contexts_spillCtx (c : Nat) : (s.spillCtx c).1.contexts = s.contexts :=
  List.foldlRecOn s.looms _ (motive := fun r : State × Bool => r.1.contexts = s.contexts) rfl
    fun r hr p _ => (r.1.contexts_spillPinned c p.1 p.2.owners).trans hr

end

end Sys2Proof.Machine
end

section
/-! SUPPORT. What a new context begins with: no translation and no line of its number, and its decode table (R105, R208, R349,
R361, R455). -/

namespace Sys2Proof.Machine

/-! ## Translation buffers and caches (R208, R361) -/

theorem State.tlb_setTlb_ne (s : State) {ag a : TlbAgent} (h : a ≠ ag) (t : List Tlb) : (s.setTlb ag t).tlb a = s.tlb a := by
  have core (l j : Nat) (hj : .core j ≠ TlbAgent.core l) : (s.setTlb (.core l) t).tlb (.core j) = s.tlb (.core j) :=
    congrArg Loom.tlbCore (State.loom_modLoom_ne _ _ fun e => hj (e ▸ rfl))
  have copy (l j : Nat) (hj : .copy j ≠ TlbAgent.copy l) : (s.setTlb (.copy l) t).tlb (.copy j) = s.tlb (.copy j) :=
    congrArg Loom.tlbCopy (State.loom_modLoom_ne _ _ fun e => hj (e ▸ rfl))
  cases ag with
  | core l =>
    cases a with
    | core j => exact core l j h
    | copy j => exact (KeepsLooms.modLoom (f := Loom.tlbCopy) s l (g := fun x => { x with tlbCore := t }) fun _ => rfl).loom j
    | gateway d => rfl
  | copy l =>
    cases a with
    | core j => exact (KeepsLooms.modLoom (f := Loom.tlbCore) s l (g := fun x => { x with tlbCopy := t }) fun _ => rfl).loom j
    | copy j => exact copy l j h
    | gateway d => rfl
  | gateway d =>
    cases a with
    | core | copy => rfl
    | gateway e => exact SMap.getD_put_ne _ _ _ fun hd => h (hd ▸ rfl)

/-- A translation buffer that is not listed is empty. -/
theorem State.tlb_eq_nil (s : State) {ag : TlbAgent} (h : ag ∉ s.tlbAgents) : s.tlb ag = [] := by
  simp only [State.tlbAgents, List.mem_append, List.mem_flatMap, List.mem_map, List.mem_cons, List.not_mem_nil, or_false, not_or] at h
  obtain ⟨looms, dies⟩ := h
  have unlisted {α : Type} {m : List (Nat × α)} {k : Nat} (d : α) (hk : ∀ p ∈ m, p.1 ≠ k) : SMap.getD m k d = d := by
    unfold SMap.getD
    rw [SMap.find?_none fun hm => let ⟨p, hp, e⟩ := List.mem_map.1 hm; hk p hp e]
    rfl
  cases ag with
  | core l => exact congrArg Loom.tlbCore (unlisted Loom.reset fun p hp e => looms ⟨p, hp, .inl (e ▸ rfl)⟩)
  | copy l => exact congrArg Loom.tlbCopy (unlisted Loom.reset fun p hp e => looms ⟨p, hp, .inr (e ▸ rfl)⟩)
  | gateway d => exact unlisted [] fun p hp e => dies ⟨p, hp, e ▸ rfl⟩

/-- A translation buffer holds nothing of a context number. -/
def State.TlbFree (s : State) (c : Nat) (ag : TlbAgent) : Prop := ∀ e ∈ s.tlb ag, e.ctx ≠ c

/-- The buffer without the entries of a context number. -/
def State.dropTlb (c : Nat) (s : State) (ag : TlbAgent) : State := s.setTlb ag ((s.tlb ag).filter fun e => e.ctx != c)

section
variable (s : State) (c : Nat)

theorem State.tlbFree_dropTlb_self (ag : TlbAgent) : (s.dropTlb c ag).TlbFree c ag := by
  intro e he
  rw [State.dropTlb, State.tlb_setTlb] at he
  simpa using (List.mem_filter.1 he).2

theorem State.tlbFree_dropTlb {ag : TlbAgent} (h : s.TlbFree c ag) (a : TlbAgent) : (s.dropTlb c a).TlbFree c ag := by
  by_cases ha : ag = a
  · subst ha
    exact s.tlbFree_dropTlb_self c ag
  · unfold State.TlbFree State.dropTlb
    rw [State.tlb_setTlb_ne s ha]
    exact h

theorem State.tlbFree_foldl {ag : TlbAgent} (as : List TlbAgent) :
    ∀ s : State, ag ∈ as ∨ s.TlbFree c ag → (as.foldl (State.dropTlb c) s).TlbFree c ag := by
  induction as with
  | nil => exact fun s h => h.resolve_left List.not_mem_nil
  | cons a as ih =>
    intro s h
    refine ih _ ?_
    rcases h with h | h
    · rcases List.mem_cons.1 h with rfl | h
      · exact .inr (s.tlbFree_dropTlb_self c ag)
      · exact .inl h
    · exact .inr (s.tlbFree_dropTlb c h a)

/-- The caches of a loom without the lines of a context number. -/
def Loom.dropLines (c : Nat) (x : Loom) : Loom :=
  { x with l1 := x.l1.filter (fun q => q.1 != c), icache := x.icache.filter (fun q => q.ctx != c),
           ifills := x.ifills.filter fun q => q.1 != c }

theorem State.dropCtxLines_eq : s.dropCtxLines c =
    { s.tlbAgents.foldl (State.dropTlb c) s with
      looms := (s.tlbAgents.foldl (State.dropTlb c) s).looms.map fun p => (p.1, p.2.dropLines c) } := rfl

theorem State.contexts_dropCtxLines : (s.dropCtxLines c).contexts = s.contexts :=
  State.contexts_foldl (step := State.dropTlb c) (fun s ag => s.contexts_setTlb ag _) s.tlbAgents s

theorem State.nothingHeld_dropCtxLines : Rules.NothingHeld (s.dropCtxLines c) c := by
  constructor
  · intro ag
    have free : (s.tlbAgents.foldl (State.dropTlb c) s).TlbFree c ag := by
      refine State.tlbFree_foldl c s.tlbAgents s ?_
      by_cases h : ag ∈ s.tlbAgents
      · exact .inl h
      · exact .inr (by simp [State.TlbFree, s.tlb_eq_nil h])
    rw [State.dropCtxLines_eq]
    generalize s.tlbAgents.foldl (State.dropTlb c) s = u at free ⊢
    have kept {β : Type} {f : Loom → β} (hf : ∀ x, f (x.dropLines c) = f x) :
        KeepsLooms f u { u with looms := u.looms.map fun p => (p.1, p.2.dropLines c) } := by
      constructor
      intro l
      unfold State.loom SMap.getD
      rw [SMap.find?_map]
      cases SMap.find? u.looms l with
      | none => rfl
      | some x => exact hf x
    have same : State.tlb { u with looms := u.looms.map fun p => (p.1, p.2.dropLines c) } ag = u.tlb ag := by
      cases ag with
      | core l => exact (kept (f := Loom.tlbCore) fun _ => rfl).loom l
      | copy l => exact (kept (f := Loom.tlbCopy) fun _ => rfl).loom l
      | gateway d => rfl
    rw [same]
    exact free
  · rw [State.dropCtxLines_eq]
    intro p hp
    obtain ⟨q, _, rfl⟩ := List.mem_map.1 hp
    simp [Loom.dropLines]

end

theorem nothingHeld_congr {s t : State} {c : Nat} (hl : t.looms = s.looms) (hf : t.fabric = s.fabric)
    (h : Rules.NothingHeld s c) : Rules.NothingHeld t c := by
  have tlb (ag : TlbAgent) : t.tlb ag = s.tlb ag := by
    cases ag <;> simp only [State.tlb, State.loom, hl, hf]
  refine ⟨fun ag => ?_, ?_⟩
  · rw [tlb]
    exact h.1 ag
  · rw [hl]
    exact h.2

/-! ## The decode table (R105, R349) -/

theorem mem_decodeOf {es : List DecEntry} {o : Nat} {e : DecEntry} :
    (o, e) ∈ decodeOf es ↔ es[o]? = some e ∧ e ≠ DecEntry.default o := by
  unfold decodeOf
  simp only [List.mem_map, List.mem_filter, List.mem_zipIdx_iff_getElem?, Prod.exists, Prod.mk.injEq, bne_iff_ne]
  constructor
  · rintro ⟨e, o, h, rfl, rfl⟩
    exact h
  · exact fun h => ⟨e, o, h, rfl, rfl⟩

theorem decodeOf_nodup (es : List DecEntry) : ((decodeOf es).map (·.1)).Nodup := by
  have keys : (decodeOf es).map (·.1) = (es.zipIdx.filter fun p => p.1 != DecEntry.default p.2).map Prod.snd := by
    rw [decodeOf, List.map_map]
    rfl
  rw [keys]
  refine (List.filter_sublist.map _).nodup ?_
  rw [List.zipIdx_map_snd]
  exact List.nodup_range'

/-- Entries that are listed, or those of R105. -/
theorem Context.decEntry_of_decodeOf {x : Context} {es : List DecEntry} (hx : x.decode = decodeOf es) (o : Nat) :
    x.decEntry o = es[o]?.getD (DecEntry.default o) := by
  unfold Context.decEntry
  rw [hx]
  cases hf : SMap.find? (decodeOf es) o with
  | some e => rw [(mem_decodeOf.1 (SMap.mem_of_find? hf)).1]
  | none =>
    cases he : es[o]? with
    | none => rfl
    | some e =>
      by_contra hne
      have listed := SMap.find?_of_mem (decodeOf_nodup es) (mem_decodeOf.2 ⟨he, Ne.symm hne⟩)
      exact absurd (hf.symm.trans listed) (Option.some_ne_none e).symm

/-- Without an image, or with one that is too short or malformed, the table is that of R105. -/
theorem ctxEntries_default {d : CtxDesc}
    (h : d.image = none ∨ ∃ ws, d.image = some ws ∧ (ws.length < 768 ∨ ∃ u ∈ ws.take 768, DecEntry.ofBits u = none)) :
    ctxEntries d = (List.range 768).map DecEntry.default := by
  unfold ctxEntries
  rcases h with h | ⟨ws, h, bad⟩ <;> rw [h]
  refine if_neg fun hc => ?_
  obtain ⟨full, sound⟩ := hc
  rw [List.length_map, List.length_take] at full
  rcases bad with short | ⟨u, hu, hn⟩
  · omega
  · have := List.all_eq_true.1 sound _ (List.mem_map_of_mem hu)
    rw [hn] at this
    cases this

/-- A whole and well-formed image gives the table its entries. -/
theorem ctxEntries_image {d : CtxDesc} {ws : List (BitVec 16)} (h : d.image = some ws) (full : 768 ≤ ws.length)
    (sound : ∀ u ∈ ws.take 768, DecEntry.ofBits u ≠ none) :
    (ctxEntries d).map some = (ws.take 768).map DecEntry.ofBits := by
  have present : ∀ e ∈ (ws.take 768).map DecEntry.ofBits, e.isSome = true := by
    intro e he
    obtain ⟨u, hu, rfl⟩ := List.mem_map.1 he
    exact Option.isSome_iff_ne_none.2 (sound u hu)
  have entries : ctxEntries d = ((ws.take 768).map DecEntry.ofBits).filterMap id := by
    unfold ctxEntries
    rw [h]
    refine if_pos ⟨?_, List.all_eq_true.2 present⟩
    rw [List.length_map, List.length_take]
    omega
  rw [entries, List.map_filterMap]
  refine (List.filterMap_eq_map_iff_forall_eq_some.2 fun e he => ?_).trans (List.map_id _)
  obtain ⟨v, rfl⟩ := Option.isSome_iff_exists.1 (present e he)
  rfl

/-! ## The state that a creation leaves (R455) -/

theorem State.placeQblock_eq (s : State) (c : Nat) (q : DWord) : ∃ f, s.placeQblock c q = s.modMem f := by
  unfold State.placeQblock
  (repeat' split)
  · exact ⟨_, rfl⟩
  · exact ⟨id, rfl⟩
  · exact ⟨id, rfl⟩

theorem State.setDecode_eq {s : State} {c : Nat} {x : Context} (h : s.context? c = some x) (es : List DecEntry) :
    ∃ f, s.setDecode c es = { s with contexts := SMap.put s.contexts c { x with decode := decodeOf es } }.modMem f := by
  unfold State.setDecode
  rw [h]
  exact ⟨_, rfl⟩

/-- Buffers and caches lose what they hold of a context's number, its table is written and its queue block placed. -/
theorem State.contextMade {s : State} {c : Nat} {x : Context} (hx : s.context? c = some x) (es : List DecEntry)
    (f : Memories → Memories) (q : DWord) :
    let t := ((((s.dropCtxLines c).setDecode c es).modMem f).placeQblock c q).setCtxStatus 0
    t.context? c = some { x with decode := decodeOf es } ∧ t.mgmt.ctxStatus = 0 ∧ Rules.NothingHeld t c := by
  have clean := s.nothingHeld_dropCtxLines c
  have stands : (s.dropCtxLines c).context? c = some x := by
    unfold State.context?
    rw [State.contexts_dropCtxLines]
    exact hx
  obtain ⟨g, decoded⟩ := State.setDecode_eq stands es
  obtain ⟨k, placed⟩ := (((s.dropCtxLines c).setDecode c es).modMem f).placeQblock_eq c q
  dsimp only
  rw [placed, decoded]
  exact ⟨SMap.find?_put_self .., rfl, nothingHeld_congr rfl rfl clean⟩

end Sys2Proof.Machine
end

section
/-! PROOFS. The context commands: what each does where it is taken, and how those that run end (R66, R105, R131, R349, R455). -/

namespace Sys2Proof.Rules

open Sys2Proof.Machine

/-! ## Switch out and teardown as they run (R430, R455) -/

/-- A team of a context that is switched out (R430). -/
theorem switchRule : SwitchRule := by
  intro s l h t ht
  have stays : (t.stop.isSome || s.frontierless l h) = true ↔ t.stop ≠ none ∨ s.frontierless l h = true := by
    simp [Option.isSome_iff_ne_none]
  have goes (hs : t.stop = none) (hf : s.frontierless l h = false) : ¬ (t.stop.isSome || s.frontierless l h) = true := by
    simp [hs, hf]
  unfold State.switchTeam
  refine ⟨fun hn => if_pos (stays.2 hn), fun hs hf image => ?_, fun hs hf image tm htm => ?_⟩
  · rw [if_neg (goes hs hf), if_pos image]
  · rw [if_neg (goes hs hf), if_neg image, State.stopTeam, if_neg (Bool.eq_false_iff.1 hf), team?_setStop ht] at htm
    obtain rfl := Option.some.inj htm
    rw [hs]
    rfl

/-- A context's part of the pass over the commands. -/
def commandStep (s : State) (p : Nat × Context) : State :=
  match p.2.cmd with
  | .none => s
  | .switchOut => s.switchOutStep p.1
  | .teardown => s.teardownStep p.1

theorem contextsAll_eq (s : State) : s.contextsAll = s.contexts.foldl commandStep s := rfl

/-- Contexts without a command change nothing. -/
theorem foldl_commandStep_none (ps : List (Nat × Context)) (h : ∀ p ∈ ps, p.2.cmd = .none) (s : State) :
    ps.foldl commandStep s = s :=
  List.foldlRecOn ps commandStep (motive := fun u => u = s) rfl fun u hu p hp => by
    rw [hu, commandStep, h p hp]

/-- Where no other context has a command, the pass is that context's part. -/
theorem contextsAll_only {s : State} {c : Nat} {x : Context} (distinct : (s.contexts.map (·.1)).Nodup)
    (hx : s.context? c = some x) (others : ∀ p ∈ s.contexts, p.1 ≠ c → p.2.cmd = .none) :
    s.contextsAll = commandStep s (c, x) := by
  obtain ⟨before, after, parts⟩ := List.append_of_mem (SMap.mem_of_find? hx)
  rw [contextsAll_eq, parts, List.foldl_append, List.foldl_cons]
  rw [parts, List.map_append, List.map_cons, List.nodup_middle, List.nodup_cons, ← List.map_append] at distinct
  have idle (p : Nat × Context) (hp : p ∈ before ++ after) : p.2.cmd = .none := by
    refine others p ?_ fun e => distinct.1 (List.mem_map.2 ⟨p, hp, e⟩)
    rw [parts]
    exact List.mem_append.2 ((List.mem_append.1 hp).imp_right (List.mem_cons_of_mem _))
  rw [foldl_commandStep_none before fun p hp => idle p (List.mem_append_left _ hp),
    foldl_commandStep_none after fun p hp => idle p (List.mem_append_right _ hp)]

/-- A switch out waits for teams, record wefts and responders, then for its pinned ranges. -/
theorem switchOutStep_cases {s : State} {c : Nat} {x : Context} (hx : s.context? c = some x) :
    let idle : Prop := s.ctxTeams c = [] ∧ s.ctxRecords c = [] ∧ s.respondersLeft c = false
    (¬ idle → s.switchOutStep c = s)
    ∧ (idle → ∀ s1, s.spillCtx c = (s1, false) → s.switchOutStep c = s1)
    ∧ (idle → ∀ s1, s.spillCtx c = (s1, true) → ∃ y, (s.switchOutStep c).context? c = some y ∧ y = { x with cmd := .none }
        ∧ (s.switchOutStep c).mgmt.ctxStatus = 0) := by
  intro idle
  have waits : (!(s.ctxTeams c).isEmpty || !(s.ctxRecords c).isEmpty || s.respondersLeft c) = true ↔ ¬ idle := by
    simp only [idle, Bool.or_eq_true, Bool.not_eq_true', ← Bool.not_eq_true, List.isEmpty_iff]
    tauto
  unfold State.switchOutStep
  refine ⟨fun hn => if_pos (waits.2 hn), fun hi s1 spilled => ?_, fun hi s1 spilled => ?_⟩
  · rw [if_neg fun hn => waits.1 hn hi, spilled]
    rfl
  · have stands : s1.context? c = some x := by
      have kept := s.contexts_spillCtx c
      rw [spilled] at kept
      unfold State.context?
      rw [show s1.contexts = s.contexts from kept]
      exact hx
    rw [if_neg fun hn => waits.1 hn hi, spilled]
    dsimp only
    rw [if_pos rfl, State.modContext, stands]
    exact ⟨_, SMap.find?_put_self .., rfl, rfl⟩

theorem ne_of_mem_filter {α : Type} (f : α → Nat) (c : Nat) (as : List α) : ∀ a ∈ as.filter (fun a => f a != c), f a ≠ c :=
  fun _ ha => bne_iff_ne.1 (List.mem_filter.1 ha).2

/-- Nothing of a context is left on a loom. -/
theorem dropCtx_free (x : Loom) (c : Nat) :
    let y := x.dropCtx c
    (∀ q ∈ y.wefts, q.2.ctx ≠ c) ∧ (∀ q ∈ y.owners, q.2.ctx ≠ c) ∧ (∀ q ∈ y.arms, q.2.ctx ≠ c) ∧ (∀ q ∈ y.spawns, q.ctx ≠ c)
      ∧ (∀ r ∈ y.ready, r.1 ≠ c) ∧ ∀ q ∈ y.board, q.2.state ≠ .free → q.2.ctx ≠ c := by
  refine ⟨ne_of_mem_filter (fun p : Nat × Weft => p.2.ctx) c _, ne_of_mem_filter (fun p : Nat × Own => p.2.ctx) c _,
    ne_of_mem_filter (fun p : Nat × Arm => p.2.ctx) c _, ne_of_mem_filter Spawn.ctx c _, ne_of_mem_filter Prod.fst c _,
    fun q hq busy => ?_⟩
  obtain ⟨p, _, rfl⟩ := List.mem_map.1 hq
  split at busy
  · exact absurd rfl busy
  · next other =>
    rw [if_neg other]
    exact other

/-- A teardown waits for the operations of its context; then nothing of the context is left (R351, R401, R403). -/
theorem teardownStep_cases (s : State) (c : Nat) : (s.ctxOpsLeft c = true → s.teardownStep c = s)
    ∧ (s.ctxOpsLeft c = false →
      let t := s.teardownStep c
      t.mgmt.ctxStatus = 0 ∧ t.context? c = none ∧ (∀ x ∈ t.launches, x.ctx ≠ c) ∧ (∀ f ∈ t.fetches, f.ctx ≠ c)
      ∧ (∀ p ∈ t.census, p.2.ctx ≠ c) ∧ (∀ p ∈ t.bankArms, p.2.ctx ≠ c)
      ∧ ∀ p ∈ t.looms, (∀ q ∈ p.2.wefts, q.2.ctx ≠ c) ∧ (∀ q ∈ p.2.owners, q.2.ctx ≠ c)
        ∧ (∀ q ∈ p.2.arms, q.2.ctx ≠ c) ∧ (∀ q ∈ p.2.spawns, q.ctx ≠ c) ∧ (∀ r ∈ p.2.ready, r.1 ≠ c)
        ∧ ∀ q ∈ p.2.board, q.2.state ≠ .free → q.2.ctx ≠ c) := by
  unfold State.teardownStep
  refine ⟨fun busy => if_pos busy, fun done => ?_⟩
  rw [if_neg (Bool.eq_false_iff.1 done)]
  refine ⟨rfl, SMap.find?_del_self .., ne_of_mem_filter Launch.ctx c _, ne_of_mem_filter Fetch.ctx c _,
    ne_of_mem_filter (fun p : Nat × Census => p.2.ctx) c _, ne_of_mem_filter (fun p : Nat × Arm => p.2.ctx) c _, fun p hp => ?_⟩
  obtain ⟨q, _, rfl⟩ := List.mem_map.1 hp
  exact dropCtx_free q.2 c

theorem commandEnds : CommandEnds := by
  refine ⟨fun s c x distinct hx others => ?_, fun _ _ _ => switchOutStep_cases, teardownStep_cases⟩
  rw [contextsAll_only distinct hx others]
  unfold commandStep
  refine ⟨fun hc => ?_, fun hc => ?_, fun hc => ?_⟩ <;> rw [hc]

/-! ## The commands as they are given (R455) -/

/-- The command registers after a command of a number: the descriptor, the command and the status (log entry 20). -/
def commanded (s : State) (d : CtxDesc) (cmd n st : Nat) : State :=
  { s with mgmt := { s.mgmt with ctxDesc := d, ctxCommand := cmd, ctxSubject := n, ctxStatus := st } }

/-- The same, and the record of the context. -/
def commandedCtx (s : State) (cmd n st : Nat) (x : Context) : State :=
  { commanded s s.mgmt.ctxDesc cmd n st with contexts := SMap.put s.contexts n x }

/-- The record of a new context. -/
def newContext (d : CtxDesc) : Context :=
  { root := d.root, dtab := d.dtab, qblock := d.qblock, trapv := d.trapv, served := true, decode := [], cmd := .none }

/-- The bytes of the entries from 0x300 on, which every context has alike (R105). -/
def fixedEntries : List Byte := ((List.range 1024).drop 768).flatMap fun o => leBytes 2 (DecEntry.default o).toBits.toNat

/-- The state that a creation leaves. -/
def created (s : State) (d : CtxDesc) : State :=
  let c := d.num.toNat
  let s1 := { commanded s d 1 c s.mgmt.ctxStatus with contexts := SMap.put s.contexts c (newContext d) }
  ((((s1.dropCtxLines c).setDecode c (ctxEntries d)).modMem fun m =>
    { m with hbm := Memory.writeBytes m.hbm (d.dtab.toNat + 1536) fixedEntries }).placeQblock c d.qblock).setCtxStatus 0

section
variable {s : State}

theorem contextCommands_busy (busy : s.mgmt.ctxStatus = 0x80) :
    (∀ d, exec (.contextCreate d) s = .next s) ∧ ∀ n, exec (.contextSwitchOut n) s = .next s
      ∧ exec (.contextSwitchIn n) s = .next s ∧ exec (.contextTeardown n) s = .next s :=
  ⟨fun _ => if_pos busy, fun _ => ⟨if_pos busy, if_pos busy, if_pos busy⟩⟩

theorem contextCreate_eq (free : s.mgmt.ctxStatus ≠ 0x80) (d : CtxDesc) : exec (.contextCreate d) s =
    if d.num.toNat = 0 ∨ (s.context? d.num.toNat).isSome = true then .next (commanded s d 1 d.num.toNat 1)
    else if d.qblock = 0 ∨ d.qblock.toNat % 64 ≠ 0 then .next (commanded s d 1 d.num.toNat 4)
    else .next (created s d) := if_neg free

theorem created_context (s : State) (d : CtxDesc) :
    (created s d).context? d.num.toNat = some { newContext d with decode := decodeOf (ctxEntries d) }
      ∧ (created s d).mgmt.ctxStatus = 0 ∧ NothingHeld (created s d) d.num.toNat := by
  refine State.contextMade (x := newContext d) ?_ (ctxEntries d) _ d.qblock
  exact SMap.find?_put_self ..

/-- The decode table of a new context: that of R105, or the image's. -/
theorem newDecode (x : Context) {d : CtxDesc} (hx : x.decode = decodeOf (ctxEntries d)) :
    ((d.image = none ∨ ∃ ws, d.image = some ws ∧ (ws.length < 768 ∨ ∃ u ∈ ws.take 768, DecEntry.ofBits u = none)) →
      ∀ o < 768, x.decEntry o = DecEntry.default o)
    ∧ ∀ ws, d.image = some ws → 768 ≤ ws.length → (∀ u ∈ ws.take 768, DecEntry.ofBits u ≠ none) →
      ∀ o < 768, some (x.decEntry o) = DecEntry.ofBits (ws.getD o 0) := by
  refine ⟨fun none o ho => ?_, fun ws image full sound o ho => ?_⟩ <;> rw [Context.decEntry_of_decodeOf hx]
  · rw [ctxEntries_default none]
    simp [ho]
  · have entry := congrArg (·[o]?) (ctxEntries_image image full sound)
    have listed : ws[o]? = some (ws.getD o 0) := by
      rw [List.getD_eq_getElem?_getD, List.getElem?_eq_getElem (by omega)]
      rfl
    simp only [List.getElem?_map, List.getElem?_take_of_lt ho, listed, Option.map_some] at entry
    obtain ⟨e, he, found⟩ := Option.map_eq_some_iff.1 entry
    rw [he, ← found]
    rfl

theorem contextCreate_cases (free : s.mgmt.ctxStatus ≠ 0x80) (d : CtxDesc) :
    (d.num = 0 ∨ (s.context? d.num.toNat).isSome = true →
      exec (.contextCreate d) s = .next (commanded s d 1 d.num.toNat 1))
    ∧ (d.num ≠ 0 → s.context? d.num.toNat = none → d.qblock = 0 ∨ d.qblock.toNat % 64 ≠ 0 →
      exec (.contextCreate d) s = .next (commanded s d 1 d.num.toNat 4))
    ∧ (d.num ≠ 0 → s.context? d.num.toNat = none → d.qblock ≠ 0 → d.qblock.toNat % 64 = 0 →
      exec (.contextCreate d) s = .next (created s d)) := by
  have zero : d.num.toNat = 0 ↔ d.num = 0 := BitVec.toNat_inj (y := 0)
  rw [contextCreate_eq free]
  have unnamed (hn : d.num ≠ 0) (hc : s.context? d.num.toNat = none) :
      ¬ (d.num.toNat = 0 ∨ (s.context? d.num.toNat).isSome = true) := by
    rw [hc, zero]
    exact not_or.2 ⟨hn, Bool.false_ne_true⟩
  refine ⟨fun taken => if_pos (taken.imp_left zero.2), fun hn hc bad => ?_, fun hn hc hq aligned => ?_⟩
    <;> rw [if_neg (unnamed hn hc)]
  · exact if_pos bad
  · exact if_neg (not_or.2 ⟨hq, not_not.2 aligned⟩)

/-- A number that names no context has status 1. -/
theorem contextCommands_noContext (free : s.mgmt.ctxStatus ≠ 0x80) {n : BitVec 16} (none : s.context? n.toNat = none) :
    exec (.contextSwitchOut n) s = .next (commanded s s.mgmt.ctxDesc 2 n.toNat 1)
    ∧ exec (.contextSwitchIn n) s = .next (commanded s s.mgmt.ctxDesc 3 n.toNat 1)
    ∧ exec (.contextTeardown n) s = .next (commanded s s.mgmt.ctxDesc 4 n.toNat 1) := by
  have absent : (s.context? n.toNat).isNone = true := Option.isNone_iff_eq_none.2 none
  exact ⟨(if_neg free).trans (if_pos absent), (if_neg free).trans (if_pos absent), (if_neg free).trans (if_pos absent)⟩

theorem modContext_eq {c : Nat} {x : Context} (hx : s.context? c = some x) (f : Context → Context) :
    s.modContext c f = { s with contexts := SMap.put s.contexts c (f x) } := by
  unfold State.modContext
  rw [hx]

theorem commanded_modContext {c : Nat} {x : Context} (hx : s.context? c = some x) (k st : Nat) (f : Context → Context) :
    (commanded s s.mgmt.ctxDesc k c st).modContext c f = commandedCtx s k c st (f x) := by
  refine modContext_eq ?_ f
  exact hx

theorem dropPick_of_none (h : s.dist.waiting = none) (c : Nat) : s.dropPick c = s := by
  unfold State.dropPick
  rw [h]
  rfl

/-- A context that is no longer served, with a command that runs. -/
theorem commandStarts {c : Nat} {x : Context} (hx : s.context? c = some x) (idle : s.dist.waiting = none) (k : Nat) (cmd : CtxCmd) :
    (((commanded s s.mgmt.ctxDesc k c s.mgmt.ctxStatus).modContext c fun x =>
      { x with served := false, cmd := cmd }).dropPick c).setCtxStatus ctxBusy
      = commandedCtx s k c 0x80 { x with served := false, cmd := cmd } := by
  rw [commanded_modContext hx, dropPick_of_none]
  · rfl
  · exact idle

section
variable {n : BitVec 16} {x : Context} (free : s.mgmt.ctxStatus ≠ 0x80) (hx : s.context? n.toNat = some x)
include free hx

theorem contextSwitchIn_eq :
    exec (.contextSwitchIn n) s = .next (commandedCtx s 3 n.toNat 0 { x with served := true }) := by
  have present : ¬ (s.context? n.toNat).isNone = true := by simp [hx]
  refine (if_neg free).trans ((if_neg present).trans ?_)
  exact congrArg (fun u => Host.Outcome.next (State.setCtxStatus u 0)) (commanded_modContext hx 3 s.mgmt.ctxStatus _)

theorem contextSwitchOut_eq (idle : s.dist.waiting = none) :
    let out := commandedCtx s 2 n.toNat 0x80 { x with served := false, cmd := .switchOut }
    exec (.contextSwitchOut n) s
      = .next ((out.ctxTeams n.toNat).foldl (fun u p => u.switchTeam p.1 p.2.1 p.2.2) out) := by
  have present : ¬ (s.context? n.toNat).isNone = true := by simp [hx]
  intro out
  refine (if_neg free).trans ((if_neg present).trans ?_)
  exact congrArg (fun u => Host.Outcome.next ((State.ctxTeams u n.toNat).foldl (fun u p => u.switchTeam p.1 p.2.1 p.2.2) u))
    (commandStarts hx idle 2 .switchOut)

theorem contextTeardown_refused (enabled : s.queueEnabled n.toNat = true) :
    exec (.contextTeardown n) s = .next (commanded s s.mgmt.ctxDesc 4 n.toNat 2) := by
  have present : ¬ (s.context? n.toNat).isNone = true := by simp [hx]
  exact (if_neg free).trans ((if_neg present).trans (if_pos enabled))

theorem contextTeardown_eq (idle : s.dist.waiting = none) (disabled : s.queueEnabled n.toNat = false) :
    let down := commandedCtx s 4 n.toNat 0x80 { x with served := false, cmd := .teardown }
    exec (.contextTeardown n) s = .next (((down.ctxTeams n.toNat).foldl (fun u p =>
      u.setStop p.1 p.2.1 fun _ => .teardown) down).discardCtx n.toNat) := by
  have present : ¬ (s.context? n.toNat).isNone = true := by simp [hx]
  intro down
  refine (if_neg free).trans ((if_neg present).trans ((if_neg (Bool.eq_false_iff.1 disabled)).trans ?_))
  exact congrArg (fun u => Host.Outcome.next (((State.ctxTeams u n.toNat).foldl (fun u p =>
      u.setStop p.1 p.2.1 fun _ => .teardown) u).discardCtx n.toNat)) (commandStarts hx idle 4 .teardown)

end

end

/-- Settles O56: how a command that runs ends comes from the pass over the contexts, and each command is taken apart along its
conditions; what a creation leaves comes from the lemmas on buffers, caches and decode tables. -/
theorem contextCommands : Obligations.ContextCommands := by
  unfold Obligations.ContextCommands
  refine ⟨switchRule, commandEnds, fun s => ⟨contextCommands_busy, fun free => ⟨fun d => ?_, fun n => ⟨?_, fun x hx => ?_⟩⟩⟩⟩
  · obtain ⟨refused, unaligned, taken⟩ := contextCreate_cases free d
    refine ⟨refused, unaligned, fun hn hc hq aligned => ?_⟩
    obtain ⟨stands, status, clean⟩ := created_context s d
    exact ⟨created s d, _, taken hn hc hq aligned, stands, rfl, rfl, rfl, rfl, rfl, status, clean, newDecode _ rfl⟩
  · exact contextCommands_noContext free
  · exact ⟨contextSwitchIn_eq free hx, contextTeardown_refused free hx, contextSwitchOut_eq free hx, contextTeardown_eq free hx⟩

end Sys2Proof.Rules
end

section
/-! SUPPORT. Words and their instructions (R93 to R106): every instruction is read back from its word, and what an opcode without
an instruction decodes to. -/

namespace Sys2Proof.Laws

/-- Every instruction is read back from its word: the lemma of its constructor, and nothing for a step of the device. -/
theorem Encoding.statement (i : Instr) : Encoding.Statement i := by
  cases i with
  | iadd => apply Encoding.iadd
  | isub => apply Encoding.isub
  | imul => apply Encoding.imul
  | imulh => apply Encoding.imulh
  | imad => apply Encoding.imad
  | idiv => apply Encoding.idiv
  | irem => apply Encoding.irem
  | imin => apply Encoding.imin
  | imax => apply Encoding.imax
  | iabs => apply Encoding.iabs
  | ineg => apply Encoding.ineg
  | iand => apply Encoding.iand
  | ior => apply Encoding.ior
  | ixor => apply Encoding.ixor
  | inot => apply Encoding.inot
  | logic3 => apply Encoding.logic3
  | shl => apply Encoding.shl
  | shr => apply Encoding.shr
  | sar => apply Encoding.sar
  | rot => apply Encoding.rot
  | popc => apply Encoding.popc
  | clz => apply Encoding.clz
  | ctz => apply Encoding.ctz
  | brev => apply Encoding.brev
  | bfx => apply Encoding.bfx
  | bfi => apply Encoding.bfi
  | icmp => apply Encoding.icmp
  | sel => apply Encoding.sel
  | mov => apply Encoding.mov
  | movs => apply Encoding.movs
  | iadd64 => apply Encoding.iadd64
  | imad64 => apply Encoding.imad64
  | shl64 => apply Encoding.shl64
  | iaddImm => apply Encoding.iaddImm
  | imulImm => apply Encoding.imulImm
  | andImm => apply Encoding.andImm
  | orImm => apply Encoding.orImm
  | xorImm => apply Encoding.xorImm
  | shlImm => apply Encoding.shlImm
  | shrImm => apply Encoding.shrImm
  | sarImm => apply Encoding.sarImm
  | rotImm => apply Encoding.rotImm
  | movi => apply Encoding.movi
  | movhi => apply Encoding.movhi
  | lea => apply Encoding.lea
  | shfl => apply Encoding.shfl
  | ballot => apply Encoding.ballot
  | vote => apply Encoding.vote
  | lprefix => apply Encoding.lprefix
  | bcast => apply Encoding.bcast
  | elect => apply Encoding.elect
  | br => apply Encoding.br
  | brc => apply Encoding.brc
  | jmp => apply Encoding.jmp
  | call => apply Encoding.call
  | ret => apply Encoding.ret
  | prio => apply Encoding.prio
  | exit => apply Encoding.exit
  | yield => apply Encoding.yield
  | nop => apply Encoding.nop
  | brk => apply Encoding.brk
  | vgrow => apply Encoding.vgrow
  | vshrink => apply Encoding.vshrink
  | fadd => apply Encoding.fadd
  | fsub => apply Encoding.fsub
  | fmul => apply Encoding.fmul
  | fma => apply Encoding.fma
  | fmin => apply Encoding.fmin
  | fmax => apply Encoding.fmax
  | fabs => apply Encoding.fabs
  | fneg => apply Encoding.fneg
  | fcmp => apply Encoding.fcmp
  | fclass => apply Encoding.fclass
  | fdiv => apply Encoding.fdiv
  | frcp => apply Encoding.frcp
  | fsqrt => apply Encoding.fsqrt
  | frsq => apply Encoding.frsq
  | fexp2 => apply Encoding.fexp2
  | flog2 => apply Encoding.flog2
  | fsinpi => apply Encoding.fsinpi
  | fcospi => apply Encoding.fcospi
  | ftanh => apply Encoding.ftanh
  | fround => apply Encoding.fround
  | fscale => apply Encoding.fscale
  | fcvt => apply Encoding.fcvt
  | ftoi => apply Encoding.ftoi
  | itof => apply Encoding.itof
  | fpack => apply Encoding.fpack
  | funpack => apply Encoding.funpack
  | fdot => apply Encoding.fdot
  | setfmt => apply Encoding.setfmt
  | getfmt => apply Encoding.getfmt
  | fflags => apply Encoding.fflags
  | ld => apply Encoding.ld
  | st => apply Encoding.st
  | ldw => apply Encoding.ldw
  | stw => apply Encoding.stw
  | ldResid => apply Encoding.ldResid
  | ldwResid => apply Encoding.ldwResid
  | fence => apply Encoding.fence
  | pagein => apply Encoding.pagein
  | probe => apply Encoding.probe
  | atomAdd => apply Encoding.atomAdd
  | atomMin => apply Encoding.atomMin
  | atomMax => apply Encoding.atomMax
  | atomAnd => apply Encoding.atomAnd
  | atomOr => apply Encoding.atomOr
  | atomXor => apply Encoding.atomXor
  | atomXchg => apply Encoding.atomXchg
  | atomCas => apply Encoding.atomCas
  | atomInc => apply Encoding.atomInc
  | atomDec => apply Encoding.atomDec
  | atomFadd => apply Encoding.atomFadd
  | copy => apply Encoding.copy
  | gather => apply Encoding.gather
  | scatter => apply Encoding.scatter
  | cmpst => apply Encoding.cmpst
  | expld => apply Encoding.expld
  | xput => apply Encoding.xput
  | xget => apply Encoding.xget
  | xatom => apply Encoding.xatom
  | xred => apply Encoding.xred
  | bankop => apply Encoding.bankop
  | mma => apply Encoding.mma
  | mmaSp => apply Encoding.mmaSp
  | mmaDy => apply Encoding.mmaDy
  | delta => apply Encoding.delta
  | aspill => apply Encoding.aspill
  | afill => apply Encoding.afill
  | ascale => apply Encoding.ascale
  | acvt => apply Encoding.acvt
  | tclaim => apply Encoding.tclaim
  | trel => apply Encoding.trel
  | pin => apply Encoding.pin
  | unpin => apply Encoding.unpin
  | attach => apply Encoding.attach
  | detach => apply Encoding.detach
  | aread => apply Encoding.aread
  | awrite => apply Encoding.awrite
  | azero => apply Encoding.azero
  | launch => apply Encoding.launch
  | fetchw => apply Encoding.fetchw
  | spawn => apply Encoding.spawn
  | join => apply Encoding.join
  | msgmap => apply Encoding.msgmap
  | msgunmap => apply Encoding.msgunmap
  | ringInit => apply Encoding.ringInit
  | ringSig => apply Encoding.ringSig
  | ringWait => apply Encoding.ringWait
  | hbar => apply Encoding.hbar
  | hvote => apply Encoding.hvote
  | hred => apply Encoding.hred
  | hbcast => apply Encoding.hbcast
  | hset => apply Encoding.hset
  | dtload => apply Encoding.dtload
  | dtread => apply Encoding.dtread
  | tlbinv => apply Encoding.tlbinv
  | tlbsync => apply Encoding.tlbsync
  | recChk => apply Encoding.recChk
  | sbPost => apply Encoding.sbPost
  | sbWdr => apply Encoding.sbWdr
  | sbFind => apply Encoding.sbFind
  | solicit => apply Encoding.solicit
  | respond => apply Encoding.respond
  | sbMove => apply Encoding.sbMove
  | waitoc => apply Encoding.waitoc
  | arm => apply Encoding.arm
  | await => apply Encoding.await
  | arrive => apply Encoding.arrive
  | evsel => apply Encoding.evsel
  | evrd => apply Encoding.evrd
  | evclr => apply Encoding.evclr
  | trap => apply Encoding.trap
  | iret => exact Encoding.iret
  | rqRd => apply Encoding.rqRd
  | rqWr => apply Encoding.rqWr
  | rqDrop => apply Encoding.rqDrop
  | setidem => apply Encoding.setidem
  | halt => apply Encoding.halt
  | ipref => apply Encoding.ipref
  | dpref => apply Encoding.dpref
  | unassignedHint => apply Encoding.unassignedHint
  | _ => exact Encoding.ofEvent rfl

end Sys2Proof.Laws

namespace Sys2Proof

/-- An opcode that the default table marks illegal has no instruction, whatever the word's other fields hold (R103, R105). -/
theorem decode_illegal {w : DWord} {op : BitVec 10} (ho : fOp w = op) (ha : (DecEntry.default op.toNat).kind = .illegal) :
    decode w = .error .unassigned := by
  subst ho
  unfold decode decodeWith
  rw [ha]

/-- An unassigned code of the hint range is a hint, whatever the word's other fields hold (R103). -/
theorem decode_unassignedHint {w : DWord} {op : BitVec 10} (ho : fOp w = op)
    (he : DecEntry.default op.toNat = ⟨op, false, .hint⟩) (hr : 0x302 ≤ op.toNat ∧ op.toNat ≤ 0x37F) :
    decode w = .ok (.unassignedHint op) := by
  subst ho
  have h0 : fOp w ≠ 0x300 := fun h => absurd hr.1 (by rw [h]; decide)
  have h1 : fOp w ≠ 0x301 := fun h => absurd hr.1 (by rw [h]; decide)
  unfold decode decodeWith
  rw [he]
  simp only [h0, h1, hr, if_false, and_self, if_true]

/-- The opcode of a word is the low part of its bits (R95). -/
theorem fOp_append (rest : BitVec 54) (op : BitVec 10) : fOp (rest ++ op) = op :=
  (BitVec.extractLsb'_append_eq_of_add_le (by decide)).trans BitVec.extractLsb'_eq_self

end Sys2Proof

namespace Sys2Proof.Rules

/-- Settles O4: each constructor has its lemma. -/
theorem decodeEncode : Obligations.DecodeEncode := Laws.Encoding.statement

/-- Settles O3: a word that names an instruction is, field by field, the encoder's, and is read back by O4; the other words
are judged by their opcode alone. -/
theorem wordsDecode : Obligations.WordsDecode := by
  have back {w : DWord} (i : Instr) (hw : w = encode i) (hf : i.flaw = none) (he : i.isEvent = false) : decode w = .ok i :=
    hw ▸ decodeEncode i hf he
  refine ⟨back _ rfl rfl rfl, back _ rfl rfl rfl, back _ rfl rfl rfl, back _ rfl rfl rfl, back _ rfl rfl rfl,
    back _ rfl rfl rfl, ⟨_, back _ rfl rfl rfl, rfl⟩, back _ rfl rfl rfl, ?_, ?_, ?_⟩
  · rw [decode_illegal (fOp_append ..) (by decide)]
    rfl
  · rw [decode_illegal (fOp_append ..) (by decide)]
    rfl
  · exact decode_unassignedHint (fOp_append ..) (by decide) (by decide)

end Sys2Proof.Rules
end

section
/-! SUPPORT. nop, yield and the hints (R103, R161, R162, R260): what a completion leaves of the passes over yielded wefts, and
what a hint's fill may change. -/

namespace Sys2Proof.Machine

/-! ## Passes over yielded wefts (R161) -/

/-- A pass that no longer waits for slot k. -/
def YieldPass.without (k : Nat) (y : YieldPass) : YieldPass := { y with slots := y.slots.filter (· != k) }

/-- A weft whose pass no longer waits for slot k. -/
def Weft.passWithout (k : Nat) (w : Weft) : Weft := { w with yielded := w.yielded.map (YieldPass.without k) }

theorem Weft.passWithout_of_none {w : Weft} (h : w.yielded = none) (k : Nat) : w.passWithout k = w := by
  have same : w.yielded.map (YieldPass.without k) = w.yielded := by rw [h]; rfl
  exact congrArg (fun y => { w with yielded := y }) same

/-- An issue of slot k ends every pass's wait for it. -/
theorem State.weft?_countIssue (s : State) (l k : Nat) (w : Weft) (act : Word) (st : Bool) (j : Nat) :
    (s.countIssue l k w act st).weft? l j = (s.weft? l j).map (Weft.passWithout k) := by
  have counted (u : State) (src ctx n : Nat) : KeepsLooms Loom.wefts u (u.countLoom l src ctx n) :=
    KeepsLooms.countLoom (fun _ _ => rfl) ..
  have team : KeepsLooms Loom.wefts s (match w.team with
      | none => s
      | some h => s.modTeam l h fun t => { t with issued := t.issued + 1 }) := by
    split
    · exact KeepsLooms.refl s
    · exact (State.modTeam_crew ..).proj (·.1) fun _ => rfl
  have before := (team.trans ((counted _ 0x03 w.ctx 1).trans (counted _ 0x04 w.ctx (popcount act)))).trans
    (KeepsLooms.ite (c := st = true) (counted _ 0x07 w.ctx 1) (KeepsLooms.refl _))
  have passes (ws : List (Nat × Weft)) :
      (if ws.any (fun p => p.2.yielded.isSome) then ws.map fun p => (p.1, p.2.passWithout k) else ws)
        = ws.map fun p => (p.1, p.2.passWithout k) := by
    split
    · rfl
    · next h =>
      have unyielded : ∀ p ∈ ws, p.2.yielded = none := by simpa using h
      have same : ∀ p ∈ ws, (p.1, p.2.passWithout k) = id p := fun p hp => by
        rw [Weft.passWithout_of_none (unyielded p hp)]
        rfl
      exact ((List.map_congr_left same).trans (List.map_id ws)).symm
  unfold State.countIssue State.weft?
  rw [State.loom_modLoom, ← before.loom l]
  exact (congrArg (SMap.find? · j) (passes _)).trans (SMap.find?_map _ _ j)

/-- What a completion leaves of the issuing weft: `upd` of it, and no wait for its own slot. -/
theorem State.weft?_complete {s : State} {x : Iss} {i : Instr} {fl : BitVec 6} {upd : Weft → Weft} {w1 : Weft}
    (hr : readsPort x.w i = false) (hw : s.weft? x.l x.k = some w1) :
    (s.complete x i fl [] upd).weft? x.l x.k
      = some ((upd { w1 with fpx := w1.fpx ||| fl, wait := .none, awaited := none }).passWithout x.k) := by
  unfold State.complete
  simp only [laneRecords, List.map_nil, State.vectorRecords_nil, hr, Bool.false_and, Bool.false_eq_true, if_false]
  rw [State.weft?_countIssue, State.modWeft_eq _ hw, State.weft?_setWeft]
  rfl

theorem Weft.advance_yielded (w : Weft) (pc : DWord) : (w.advance pc).yielded = w.yielded := by rw [Weft.advance_rest]

/-- The pass that a completed instruction leaves its weft. -/
theorem State.complete_yielded {s2 : State} {x : Iss} {i : Instr} {w2 w' : Weft} {fl : BitVec 6} (hr : readsPort x.w i = false)
    (hw : s2.weft? x.l x.k = some w2)
    (ht : (s2.complete x i fl [] fun v => v.advance x.pc).weft? x.l x.k = some w') :
    w'.yielded = w2.yielded.map (YieldPass.without x.k) := by
  rw [State.weft?_complete hr hw] at ht
  rw [← Option.some.inj ht]
  exact congrArg (Option.map (YieldPass.without x.k)) (Weft.advance_yielded ..)

/-- A weft's own pass is no part of what a completion keeps. -/
theorem Completed.of_pass {s t : State} {c : Issue} {w w' : Weft} {fl : BitVec 6} {y : Option YieldPass}
    (h : Completed (s.setWeft c.loom c.slot { w with yielded := y }) t c { w with yielded := y } w' fl) :
    Completed s t c w w' fl where
  weft := h.weft
  only := h.only
  frontier := h.frontier.trans (Weft.advance_held { w with yielded := y } w rfl c.pc)
  flags := h.flags
  state :=
    { rest := h.state.rest
      looms := fun l hl => (h.state.looms l hl).trans (State.loom_setWeft_ne s _ _ hl)
      loom := by
        have kept := h.state.loom
        rw [State.loom_setWeft] at kept
        exact kept
      wefts := fun j hj => (h.state.wefts j hj).trans (by rw [State.weft?_setWeft_ne _ _ _ (Ne.symm hj)])
      teams := fun k => by
        have kept := h.state.teams k
        rw [State.team?_setWeft] at kept
        exact kept }

/-- A yield's pass begins without its own slot. -/
theorem quadrantOthers_without (x : Loom) (k n : Nat) :
    YieldPass.without k { slots := quadrantOthers x k, left := n } = { slots := quadrantOthers x k, left := n } := by
  have others : (quadrantOthers x k).filter (· != k) = quadrantOthers x k := by
    rw [List.filter_eq_self]
    intro j hj
    obtain ⟨p, hp, rfl⟩ := List.mem_map.1 hj
    have := (List.mem_filter.1 hp).2
    simp only [Bool.and_eq_true] at this
    exact this.1.1
  exact congrArg (fun js => ({ slots := js, left := n } : YieldPass)) others

/-- A pass just begun waits for the wefts that were ready (R161). -/
theorem State.yieldedNow_eq {run : Instr → State → Result} {s t : State} {l k : Nat} {w : Weft} {y : YieldPass}
    (hw : t.weft? l k = some w) (hy : w.yielded = some y) (hn : y.left = yieldCycles) :
    s.yieldedNow run t l k = t.setWeft l k
      { w with yielded := some { y with slots := y.slots.filter fun j => (s.unyielded l).ready run l j } } := by
  unfold State.yieldedNow
  simp only [hw, hy, hn, if_true]

end Sys2Proof.Machine

namespace Sys2Proof.Rules

open Sys2Proof.Machine

section
variable {s : State} {c : Issue} {w : Weft} {h : Guard}

/-- A yield with no active lane leaves its weft's pass, but for the wait for its own slot. -/
theorem yield_idle (hi : Issuing s (.yield h) c w) (h0 : c.act w (.yield h) = 0) :
    ∃ t w', exec (.yield h) s = .next t ∧ Completed s t c w w' 0 ∧ w'.regs = w.regs
      ∧ w'.yielded = w.yielded.map (YieldPass.without c.slot) := by
  obtain ⟨w', done, regs, -⟩ := (onlyLanes_refl hi.weft).completed hi rfl 0
  refine ⟨_, w', ?_, done, regs, State.complete_yielded (x := c.iss w (.yield h)) hi.readsPort hi.weft done.weft⟩
  exact (issue_eq hi _).trans (congrArg (fun e => Effect.outcome s (c.iss w _) _ e) (if_pos h0))

/-- A yield begins a pass over its quadrant's other wefts. -/
theorem yield_active (hi : Issuing s (.yield h) c w) (hn : c.act w (.yield h) ≠ 0) :
    ∃ t w', exec (.yield h) s = .next t ∧ Completed s t c w w' 0 ∧ w'.regs = w.regs
      ∧ w'.yielded = some { slots := quadrantOthers (s.loom c.loom) c.slot, left := yieldCycles } := by
  let w1 : Weft := { w with yielded := some { slots := quadrantOthers (s.loom c.loom) c.slot, left := yieldCycles } }
  have hw : (s.setWeft c.loom c.slot w1).weft? c.loom c.slot = some w1 := State.weft?_setWeft ..
  obtain ⟨w', done, regs, -⟩ := (onlyLanes_refl hw).completed hi (show w1.team = w.team from rfl) 0
  refine ⟨_, w', ?_, Completed.of_pass done, regs, ?_⟩
  · refine (issue_eq hi _).trans ((congrArg (fun e => Effect.outcome s (c.iss w _) _ e) (macro_active hn)).trans ?_)
    exact congrArg (fun u => Host.Outcome.next (State.complete u (c.iss w (.yield h)) (.yield h) 0 [] fun v => v.advance c.pc))
      (State.modWeft_eq _ hi.weft)
  · rw [State.complete_yielded (x := c.iss w (.yield h)) hi.readsPort hw done.weft]
    exact congrArg some (quadrantOthers_without ..)

end

/-! ## What a hint's fill may change (R260) -/

theorem OnlyFills.refl (s : State) (l : Nat) : OnlyFills s s l := ⟨rfl, rfl, rfl, fun _ _ => rfl⟩

section
variable {s t u : State} {l : Nat}

theorem OnlyFills.trans (a : OnlyFills s t l) (b : OnlyFills t u l) : OnlyFills s u l where
  rest := by
    have h := b.rest
    rw [a.rest] at h
    exact h
  mem := by
    have h := b.mem
    rw [a.mem] at h
    exact h
  loom := by
    have h := b.loom
    rw [a.loom] at h
    exact h
  looms k hk := (b.looms k hk).trans (a.looms k hk)

theorem OnlyFills.ite {p : Prop} [Decidable p] (a : OnlyFills s t l) (b : OnlyFills s u l) :
    OnlyFills s (if p then t else u) l := by
  split
  · exact a
  · exact b

theorem OnlyFills.foldl {α : Type} {step : State → α → State} (hs : ∀ s a, OnlyFills s (step s a) l) (as : List α)
    (s : State) : OnlyFills s (as.foldl step s) l := by
  induction as generalizing s with
  | nil => exact OnlyFills.refl s l
  | cons a as ih => exact (hs s a).trans (ih _)

theorem OnlyFills.weft? (a : OnlyFills s t l) (k : Nat) : t.weft? l k = s.weft? l k := by
  unfold State.weft?
  rw [a.loom]

/-- A change of what the fills of a loom change. -/
theorem OnlyFills.modLoom (s : State) (l : Nat) {f : Loom → Loom}
    (hf : ∀ x, f x = { x with tlbCore := (f x).tlbCore, l1 := (f x).l1, counters := (f x).counters, ifills := (f x).ifills,
                              icache := (f x).icache, errors := (f x).errors }) : OnlyFills s (s.modLoom l f) l where
  rest := rfl
  mem := rfl
  loom := by
    rw [State.loom_modLoom]
    exact hf _
  looms k hk := State.loom_modLoom_ne s f hk

theorem OnlyFills.of_marks (h : MarksOnly s t) (hm : t.mgmt = s.mgmt) (l : Nat) : OnlyFills s t l := by
  obtain ⟨q, k, d, m, rfl⟩ := h
  have hm : m = s.mgmt := hm
  subst hm
  exact ⟨rfl, rfl, rfl, fun _ _ => rfl⟩

end

/-! ### The dies' and the management's part -/

theorem crossDies_mgmt (s : State) (i j n : Nat) : (s.crossDies i j n).mgmt = s.mgmt := by
  unfold State.crossDies
  split <;> rfl

theorem l2Leaves_mgmt (s : State) (x : L2Line) : (s.l2Leaves x).mgmt = s.mgmt := by
  unfold State.l2Leaves
  dsimp only
  (repeat' split) <;> simp only [State.modMem_mgmt, crossDies_mgmt, State.countDie_mgmt]

theorem touchL2_mgmt (s : State) (host : Bool) (pa : Nat) (write : Bool) : (s.touchL2 host pa write).mgmt = s.mgmt := by
  unfold State.touchL2
  dsimp only
  split
  · rfl
  · cases s.mem.l2Victim (homeSlice pa) <;> dsimp only <;> split <;>
      simp only [State.modMem_mgmt, crossDies_mgmt, State.countDie_mgmt, l2Leaves_mgmt]

section
variable (s : State) (l : Nat)

theorem homeAccess_onlyFills (from_ : Nat) (host : Bool) (pa : Nat) (write : Bool) :
    OnlyFills s (s.homeAccess from_ host pa write) l :=
  .of_marks (State.homeAccess_marks ..) (by simp only [State.homeAccess, State.crossings, touchL2_mgmt, crossDies_mgmt]) l

theorem bankAccess_onlyFills (from_ pa : Nat) (write : Bool) : OnlyFills s (s.bankAccess from_ pa write) l :=
  .of_marks (State.bankAccess_marks ..) (by simp only [State.bankAccess, State.crossings, State.countDie_mgmt, crossDies_mgmt]) l

theorem clearMark_onlyFills (e : ErrAt) : OnlyFills s (s.modMem fun m => m.clearMark e) l :=
  .of_marks (State.clearMark_marks ..) rfl l

theorem freshLine_onlyFills (e : ErrAt) : OnlyFills s (s.freshLine e) l := .ite (.refl s l) (clearMark_onlyFills s l e)

/-! ### The loom's part -/

theorem countLoom_onlyFills (src ctx n : Nat) : OnlyFills s (s.countLoom l src ctx n) l :=
  .ite (.refl s l) (.modLoom s l fun _ => rfl)

theorem l1Hit_onlyFills (key : Nat × Nat) : OnlyFills s (s.l1Hit l key).2 l := by
  have counted (u : State) : OnlyFills u (u.loomError l 6) l := .modLoom u l fun _ => rfl
  unfold State.l1Hit
  (repeat' split)
  · exact .refl s l
  · exact .refl s l
  · exact .refl s l
  · exact (clearMark_onlyFills s l _).trans (counted _)

variable {l} {v : View}

theorem missTlb_onlyFills (ha : v.agent = .core l) (va : Nat) (x : Leaf) : OnlyFills s (s.missTlb v va x) l := by
  have held (q : List Tlb) : OnlyFills s (s.setTlb (.core l) q) l :=
    .modLoom s l (f := fun x => { x with tlbCore := q }) fun _ => rfl
  unfold State.missTlb
  rw [ha]
  exact .ite (.refl s l) (.trans (.ite (.refl s l) (held _)) (countLoom_onlyFills ..))

/-- What an access of a loom's weft to one line notes. -/
theorem noteOne_onlyFills (hl : v.loom = l) (ha : v.agent = .core l) (load : Bool) (va : Nat) (write : Bool) :
    OnlyFills s (s.noteOne v load va write) l := by
  unfold State.noteOne
  split
  · next x pa _ =>
    refine (missTlb_onlyFills s ha va x).trans ?_
    generalize s.missTlb v va x = u
    refine .ite (.refl u l) ?_
    split
    · exact bankAccess_onlyFills ..
    · refine .ite ?_ (homeAccess_onlyFills ..)
      have hit : OnlyFills u (u.l1Hit v.loom (v.ctx, va / 128)).2 l := hl ▸ l1Hit_onlyFills ..
      dsimp only
      generalize u.l1Hit v.loom (v.ctx, va / 128) = r at hit ⊢
      obtain ⟨found, t⟩ := r
      have filled (y : State) : OnlyFills y (y.modLoom v.loom fun z =>
          { z with l1 := ((v.ctx, va / 128) :: z.l1.filter (· != (v.ctx, va / 128))).take Config.l1Lines }) l :=
        hl ▸ .modLoom y v.loom fun _ => rfl
      have counted (y : State) : OnlyFills y (y.countLoom v.loom 0x09 v.ctx 1) l := hl ▸ countLoom_onlyFills ..
      exact hit.trans (.ite (.refl t l)
        ((((freshLine_onlyFills t l _).trans (filled _)).trans (counted _)).trans (homeAccess_onlyFills ..)))
  · exact .refl s l

end

/-! ### The hints -/

theorem dprefFill_onlyFills (h : Guard) (a b : Reg) (imm : BitVec 16) (x : Iss) (s : State) :
    OnlyFills s (dprefFill h a b imm x s) x.l := by
  unfold dprefFill
  refine .ite (.refl s _) (.ite (.refl s _) (.ite (.refl s _) ?_))
  split
  · exact .ite (.refl s _) (noteOne_onlyFills (v := s.view x) s rfl rfl ..)
  · exact .refl s _

theorem iprefFill_onlyFills (n : BitVec 3) (off : BitVec 16) (x : Iss) (s : State) :
    OnlyFills s (iprefFill n off x s) x.l := by
  refine .foldl (fun s k => ?_) _ s
  dsimp only
  split
  · exact .ite (.refl s _) (.modLoom s _ fun _ => rfl)
  · exact .refl s _

/-- A hint whose fill changes no visible state completes and writes no register. -/
theorem hintIssue_completes {s : State} {i : Instr} {c : Issue} {w : Weft} {fill : Iss → State → State}
    (he : exec i s = hintIssue fill s) (hc : s.cur = some c) (hw : s.weft? c.loom c.slot = some w)
    (hf : ∀ x s, OnlyFills s (fill x s) x.l) :
    ∃ s1 t w', OnlyFills s s1 c.loom ∧ exec i s = .next t ∧ Completed s1 t c w w' 0 ∧ w'.regs = w.regs := by
  let x : Iss := { l := c.loom, k := c.slot, w := w, pc := c.pc, mask := c.mask, prio := c.prio, act := c.mask,
                   lane := lowestLane c.mask, legacy := c.legacy, word := c.word }
  have fills : OnlyFills s (fill x s) c.loom := hf x s
  have noPort : readsPort x.w (.unassignedHint 0x302) = false := by
    unfold readsPort
    split <;> rfl
  obtain ⟨w', done, regs, -⟩ := OnlyLanes.finished (x := x) (i := .unassignedHint 0x302) rfl rfl noPort rfl
    (onlyLanes_refl ((fills.weft? c.slot).trans hw)) (fun v => Weft.advance_rest v c.pc)
    (fun u v e => Weft.advance_held u v e c.pc) 0
  refine ⟨_, _, w', fills, ?_, done, regs⟩
  rw [he]
  unfold hintIssue
  rw [hc]
  dsimp only
  rw [hw]

/-- Each hint comes to its fill. -/
theorem hint_completes {s : State} {i : Instr} {c : Issue} {w : Weft} (hc : s.cur = some c)
    (hw : s.weft? c.loom c.slot = some w)
    (hint : (∃ h n off, i = .ipref h n off) ∨ (∃ h a b imm, i = .dpref h a b imm) ∨ ∃ code, i = .unassignedHint code) :
    ∃ s1 t w', OnlyFills s s1 c.loom ∧ exec i s = .next t ∧ Completed s1 t c w w' 0 ∧ w'.regs = w.regs := by
  obtain ⟨h, n, off, rfl⟩ | ⟨h, a, b, imm, rfl⟩ | ⟨code, rfl⟩ := hint
  · exact hintIssue_completes (show _ = execIpref h n off s from rfl) hc hw fun x s => .ite (iprefFill_onlyFills ..) (.refl s _)
  · exact hintIssue_completes (show _ = execDpref h a b imm s from rfl) hc hw fun x s => dprefFill_onlyFills ..
  · exact hintIssue_completes (show _ = execUnassignedHint code s from rfl) hc hw fun x s => .refl s _

/-- Settles O14: nop has no effect of its own, yield begins its pass, and a hint comes to its fill. -/
theorem nopYieldAndHints : Obligations.NopYieldAndHints := by
  unfold Obligations.NopYieldAndHints
  refine ⟨fun s c w h hi => writesNothing (body := fun _ s => .ok s) hi rfl rfl, fun s c w h hi => ?_,
    fun s t l k w y hw hy hn => State.yieldedNow_eq hw hy hn, fun s i c w hc hw hint => ?_⟩
  · by_cases h0 : c.act w (.yield h) = 0
    · obtain ⟨t, w', ht, done, regs, pass⟩ := yield_idle hi h0
      refine ⟨t, w', ht, done, regs, fun _ => ?_, fun hn => absurd h0 hn⟩
      rw [pass, Option.map_map]
      rfl
    · obtain ⟨t, w', ht, done, regs, pass⟩ := yield_active hi h0
      exact ⟨t, w', ht, done, regs, fun h => absurd h h0, fun _ => pass⟩
  · refine hint_completes hc hw ?_
    cases i
    case ipref h n off => exact .inl ⟨h, n, off, rfl⟩
    case dpref h a b imm => exact .inr (.inl ⟨h, a, b, imm, rfl⟩)
    case unassignedHint code => exact .inr (.inr ⟨code, rfl⟩)
    all_goals cases hint

end Sys2Proof.Rules
end

section
/-! SUPPORT. Bytes that the accesses of an instruction leave as they are, and register writes lane by lane (R98, R120, R193,
R205). -/

namespace Sys2Proof.Rules

open Sys2Proof.Machine

/-! ## What accesses note changes no byte (R205, R361) -/

theorem byteAt_of_sameReads {v : View} {p : Nat} {s t : State} (h : SameReads v p s t) : byteAt t = byteAt s := by
  funext x
  cases x with
  | phys sp a => exact congrArg (Memory.read · a) (h.bytes sp)
  | lm l a => exact congrArg (Memory.read · a) (congrArg Prod.fst (h.looms.loom l))

theorem byteAt_foldl {α : Type} {step : State → α → State} (hs : ∀ s a, byteAt (step s a) = byteAt s) (as : List α)
    (s : State) : byteAt (as.foldl step s) = byteAt s := by
  induction as generalizing s with
  | nil => rfl
  | cons a as ih => exact (ih _).trans (hs s a)

theorem byteAt_dropL1 (s : State) (l : Nat) : byteAt (s.dropL1 l) = byteAt s :=
  byteAt_congr rfl (KeepsLooms.modLoom s l fun _ => rfl)

theorem byteAt_note (s : State) (v : View) (load : Bool) (as : List Acc) (write : Bool) :
    byteAt (s.note v load as write) = byteAt s :=
  byteAt_foldl (fun s va => byteAt_of_sameReads (SameReads.noteOne s load (va := va) write rfl)) _ s

theorem byteAt_noteSo (s : State) (v : View) (load write : Bool) (as : List Acc) :
    byteAt (s.noteSo v load write as) = byteAt s := by
  unfold State.noteSo
  split
  · rw [byteAt_dropL1, byteAt_note, byteAt_dropL1]
  · exact byteAt_note ..

theorem byteAt_noted (s : State) (v : View) (x : Accesses) : byteAt (noted s v x) = byteAt s :=
  (byteAt_of_sameReads (SameReads.noteSoft (v := v) (p := 0) ..)).trans (byteAt_noteSo ..)

theorem byteAt_acquire (s : State) (v : View) (q : Bool) (as : List Acc) : byteAt (s.acquire v q as) = byteAt s := by
  unfold State.acquire
  split
  · exact byteAt_dropL1 ..
  · rfl

theorem weft?_acquire (s : State) (v : View) (q : Bool) (as : List Acc) (l k : Nat) :
    (s.acquire v q as).weft? l k = s.weft? l k := by
  unfold State.acquire
  split
  · exact State.weft?_of_books (State.dropL1_books ..) l k
  · rfl

end Sys2Proof.Rules

namespace Sys2Proof.Machine

/-! ## Register writes lane by lane -/

theorem Weft.SameButRegs.between {w u v : Weft} (a : w.SameButRegs u) (b : w.SameButRegs v) : u.SameButRegs v := by
  unfold Weft.SameButRegs at a b ⊢
  rw [a]
  exact b

/-- For the wefts with the port of `w`, `set` writes in lane i the word `f r i` of each register r that has one, and changes
nothing else. -/
structure SetsLanes (w : Weft) (set : Weft → Nat → Weft) (f : Reg → Nat → Option Word) : Prop where
  rest : ∀ (v : Weft) i, v.SameButRegs (set v i)
  lane : ∀ (v : Weft) i r j, v.port = w.port → i < 32 → j < 32 →
    (set v i).lane r j = if i = j then (f r j).getD (v.lane r j) else v.lane r j

section
variable {w : Weft} {d m : Reg} {set : Weft → Nat → Weft} {f : Reg → Nat → Option Word}

theorem SetsLanes.reg (hd : w.Free d) (val : Nat → Word) :
    SetsLanes w (fun v i => v.setLane d i (val i)) fun r j => if r = d ∧ d ≠ 255 then some (val j) else none where
  rest v i := Weft.setLane_rest v d i _
  lane v i r j hp hi hj := by
    rw [Weft.lane_setLane (hd.congr hp) r hi hj]
    grind

theorem SetsLanes.pair (hd : w.Free d) (hq : w.Free (d + 1)) (hne : d ≠ 255) (val : Nat → DWord) :
    SetsLanes w (fun v i => v.setPair d i (val i)) fun r j =>
      if r = d then some ((val j).extractLsb' 0 32)
      else if r = d + 1 ∧ d + 1 ≠ 255 then some ((val j).extractLsb' 32 32) else none where
  rest v i := Weft.setPair_rest v d i _
  lane v i r j hp hi hj := by
    rw [Weft.lane_setPair (hd.congr hp) (hq.congr hp) hne r hi hj]
    grind

/-- A second write in the same lane goes over the first. -/
theorem SetsLanes.then {set' : Weft → Nat → Weft} {f' : Reg → Nat → Option Word} (a : SetsLanes w set f)
    (b : SetsLanes w set' f') : SetsLanes w (fun v i => set' (set v i) i) fun r j => (f' r j).or (f r j) where
  rest v i := (a.rest v i).trans (b.rest _ i)
  lane v i r j hp hi hj := by
    rw [b.lane _ i r j ((a.rest v i).port.trans hp) hi hj, a.lane v i r j hp hi hj]
    cases f' r j <;> grind

/-- The writes in some lanes. -/
theorem SetsLanes.foldl (a : SetsLanes w set f) (ls : List Nat) (hl : ∀ i ∈ ls, i < 32) :
    w.SameButRegs (ls.foldl set w)
      ∧ ∀ r j, j < 32 → (ls.foldl set w).lane r j = if j ∈ ls then (f r j).getD (w.lane r j) else w.lane r j := by
  induction ls using List.reverseRecOn with
  | nil => exact ⟨rfl, fun r j _ => by simp⟩
  | append_singleton t i ih =>
    obtain ⟨rest, lane⟩ := ih fun k hk => hl k (by simp [hk])
    rw [List.foldl_append, List.foldl_cons, List.foldl_nil]
    refine ⟨rest.trans (a.rest _ i), fun r j hj => ?_⟩
    rw [a.lane _ i r j rest.port (hl i (by simp)) hj, lane r j hj]
    cases f r j <;> grind

/-- Where register m is written after other registers in each lane of a mask, it alone differs from what they leave. -/
theorem SetsLanes.foldl_then_reg (a : SetsLanes w set f) (hm : w.Free m) (act : Word) (g : Nat → Word) :
    ((lanesOf act).foldl set w).SameButRegs ((lanesOf act).foldl (fun v i => (set v i).setLane m i (g i)) w)
      ∧ LanesWritten ((lanesOf act).foldl set w) ((lanesOf act).foldl (fun v i => (set v i).setLane m i (g i)) w) act m g := by
  have lanes : ∀ i ∈ lanesOf act, i < 32 := fun i hi => lanesOf_lt hi
  obtain ⟨rest1, lane1⟩ := a.foldl (lanesOf act) lanes
  obtain ⟨rest2, lane2⟩ := (a.then (SetsLanes.reg hm g)).foldl (lanesOf act) lanes
  refine ⟨rest1.between rest2, fun r j hj => ?_⟩
  rw [lane2 r j hj, lane1 r j hj]
  simp only [mem_lanesOf hj]
  by_cases hr : r = m ∧ m ≠ 255
  · rw [if_pos hr, Option.some_or, Option.getD_some]
    grind
  · have unwritten : ¬ (r = m ∧ m ≠ 255 ∧ act.getLsbD j = true) := fun h => hr ⟨h.1, h.2.1⟩
    rw [if_neg hr, if_neg unwritten, Option.none_or]

end

end Sys2Proof.Machine
end

section
/-! SUPPORT. Loads and their resid forms (R122, R123, R251 to R254): what a loaded register or pair holds, and the residency
bits. -/

namespace Sys2Proof.Machine

/-! ## Loaded registers (R253) -/

/-- A weft after the loaded values of some lanes are written: a pair for .b64, else one register. -/
def Weft.loaded (w : Weft) (wd : Width) (d : Reg) (act : Word) (val : Nat → Nat) : Weft :=
  (lanesOf act).foldl (fun v i => v.setLoaded wd d i (val i)) w

/-- The registers that a load of a width writes are none of the weft's port, and a pair is not at v255. -/
structure LoadsTo (w : Weft) (wd : Width) (d : Reg) : Prop where
  free : ∀ r ∈ (rdIf (wd == .b64) d).regs, w.Free r
  even : wd = .b64 → d ≠ 255

section
variable {w : Weft} {wd : Width} {d m : Reg} {act : Word}

theorem LoadsTo.pair (h : LoadsTo w .b64 d) : w.Free d ∧ w.Free (d + 1) ∧ d ≠ 255 :=
  ⟨h.free d (by simp [rdIf, RegUse.regs]), h.free (d + 1) (by simp [rdIf, RegUse.regs]), h.even rfl⟩

theorem LoadsTo.single (h : LoadsTo w wd d) : w.Free d := h.free d (by unfold rdIf RegUse.regs; split <;> simp)

theorem Weft.loaded_of_ne (h : wd ≠ .b64) (w : Weft) (d : Reg) (act : Word) (val : Nat → Nat) :
    w.loaded wd d act val = w.writeLanes act d fun j => BitVec.ofNat 32 (val j) := by
  unfold Weft.loaded Weft.writeLanes
  exact congrArg (fun g => (lanesOf act).foldl g w) (funext fun v => funext fun i => if_neg h)

/-- The values loaded, lane by lane. -/
theorem Weft.foldl_setLoaded (w : Weft) (wd : Width) (d : Reg) (act : Word) (val : Nat → Nat) :
    ((lanesOf act).map fun j => (j, val j)).foldl (fun v p => v.setLoaded wd d p.1 p.2) w = w.loaded wd d act val :=
  List.foldl_map

/-- One lane's loaded value. -/
theorem setLoaded_setsLanes (h : LoadsTo w wd d) (val : Nat → Nat) :
    ∃ f, SetsLanes w (fun v i => v.setLoaded wd d i (val i)) f := by
  by_cases hw : wd = .b64
  · subst hw
    obtain ⟨hd, hq, hne⟩ := h.pair
    exact ⟨_, SetsLanes.pair hd hq hne fun i => BitVec.ofNat 64 (val i)⟩
  · have single : (fun (v : Weft) i => v.setLoaded wd d i (val i)) = fun v i => v.setLane d i (BitVec.ofNat 32 (val i)) :=
      funext fun v => funext fun i => if_neg hw
    rw [single]
    exact ⟨_, SetsLanes.reg h.single _⟩

end

/-! ## Residency bits (R122) -/

/-- The sum of the powers of two of some numbers below n has their bits. -/
theorem sum_bits (q : Nat → Bool) (n : Nat) :
    let sum := (List.range n).foldl (fun acc k => if q k then acc + 2 ^ k else acc) 0
    sum < 2 ^ n ∧ ∀ j, sum.testBit j = (decide (j < n) && q j) := by
  induction n with
  | zero => simp
  | succ n ih =>
    obtain ⟨lt, bits⟩ := ih
    rw [List.range_succ, List.foldl_append, List.foldl_cons, List.foldl_nil]
    generalize (List.range n).foldl (fun acc k => if q k then acc + 2 ^ k else acc) 0 = sum at lt bits
    by_cases hq : q n = true
    · rw [if_pos hq]
      refine ⟨by rw [Nat.pow_succ]; omega, fun j => ?_⟩
      rw [Nat.add_comm]
      rcases Nat.lt_trichotomy j n with hj | rfl | hj
      · rw [Nat.testBit_two_pow_add_gt hj, bits]
        grind
      · rw [Nat.testBit_two_pow_add_eq, bits]
        grind
      · rw [Nat.testBit_lt_two_pow (x := 2 ^ n + sum) (i := j) ?_]
        · grind
        · calc 2 ^ n + sum < 2 ^ (n + 1) := by rw [Nat.pow_succ]; omega
            _ ≤ 2 ^ j := Nat.pow_le_pow_right (by decide) hj
    · rw [if_neg hq]
      refine ⟨by rw [Nat.pow_succ]; omega, fun j => ?_⟩
      rw [bits]
      grind

/-- The residency bits that a packed load clears: those of the elements that are absent. -/
theorem absentBits (e : Nat → Nat × Bool) (n : Nat) :
    BitVec.ofNat 32 (((List.range n).map e).zipIdx.foldl (fun acc p => if p.1.2 then acc + 2 ^ p.2 else acc) 0)
      = BitVec.ofFnLE fun j : Fin 32 => decide (j.val < n) && (e j.val).2 := by
  have places : ((List.range n).map e).zipIdx = (List.range n).map fun j => (e j, j) :=
    List.ext_getElem (by simp) (by intros; simp)
  rw [places, List.foldl_map]
  refine BitVec.eq_of_getLsbD_eq fun j hj => ?_
  rw [BitVec.getLsbD_ofNat, BitVec.getLsbD_ofFnLE, dif_pos hj, (sum_bits (fun k => (e k).2) n).2 j]
  simp [hj]

end Sys2Proof.Machine

namespace Sys2Proof.Rules

open Sys2Proof.Machine

/-- What a load of a width leaves in its registers. -/
def LoadedIn (w w1 : Weft) (act : Word) (wd : Width) (d : Reg) (val : Nat → Nat) : Prop :=
  if wd = .b64 then PairsWritten w w1 act d fun j => BitVec.ofNat 64 (val j)
  else LanesWritten w w1 act d fun j => BitVec.ofNat 32 (val j)

theorem loaded_spec {w : Weft} {wd : Width} {d : Reg} (h : LoadsTo w wd d) (act : Word) (val : Nat → Nat) :
    w.SameButRegs (w.loaded wd d act val) ∧ LoadedIn w (w.loaded wd d act val) act wd d val := by
  unfold LoadedIn
  by_cases hw : wd = .b64
  · subst hw
    obtain ⟨hd, hq, hne⟩ := h.pair
    rw [if_pos rfl]
    exact Weft.writePairs_spec hd hq act hne _
  · rw [if_neg hw, Weft.loaded_of_ne hw]
    exact Weft.writeLanes_spec h.single act _

theorem loadsPair_ld (h : Guard) (d a b : Reg) (imm : BitVec 16) (wd : Width) (acq : Bool) :
    loadsPair (.ld h d a b imm wd acq) = true ↔ wd = .b64 := by
  cases wd <;> simp [loadsPair]

theorem loadsPair_ldResid (h : Guard) (d a m : Reg) (imm : BitVec 16) (wd : Width) (acq : Bool) :
    loadsPair (.ldResid h d a m imm wd acq) = true ↔ wd = .b64 := by
  cases wd <;> simp [loadsPair]

section
variable {s s1 : State} {i : Instr} {c : Issue} {w : Weft} {body : Iss → State → Effect} {wd : Width} {d m : Reg}
  {val : Nat → Nat}

/-- The registers of a load are free, and its pair even, where the instruction is well formed. -/
theorem loadsTo (hi : Issuing s i c w) (hu : rdIf (wd == .b64) d ∈ operandUses i) (he : wd ≠ .b64 ∨ evenReg d = true) :
    LoadsTo w wd d where
  free r hr := hi.free (operandUses_sub i hu) hr
  even hw hd := by
    rcases he with he | he
    · exact he hw
    · exact absurd (hd ▸ he) (by decide)

/-- A body that writes the loaded values, from the state `s1` of its accesses. -/
theorem load_completes (hi : Issuing s i c w) (he : exec i s = issue i body s)
    (hb : body (c.iss w i) s = .ok (s1.modWeft c.loom c.slot fun v => v.loaded wd d (c.act w i) val))
    (hw : s1.weft? c.loom c.slot = some w) (hl : LoadsTo w wd d) :
    if wd = .b64 then CompletesPair s i c s1 w (c.act w i) d fun j => BitVec.ofNat 64 (val j)
    else CompletesAs s i c s1 w 0 (c.act w i) d fun j => BitVec.ofNat 32 (val j) := by
  obtain ⟨rest, written⟩ := loaded_spec hl (c.act w i) val
  have done : body (c.iss w i) s = .done (s1.setWeft c.loom c.slot (w.loaded wd d (c.act w i) val)) 0 [] := by
    rw [hb, State.modWeft_eq _ hw]
    rfl
  unfold LoadedIn at written
  split <;> rename_i hp
  · rw [if_pos hp] at written
    exact completesPair hi he done rfl hw (OnlyLanes.setWeft s1 _ _ rest) written
  · rw [if_neg hp] at written
    exact completesAs hi he done rfl hw (OnlyLanes.setWeft s1 _ _ rest) written

/-- From a state in which registers of a weft are written, one in which more of them are. -/
theorem onlyLanes_setWeft_setWeft (s1 : State) (l k : Nat) {w1 w2 : Weft} (h : w1.SameButRegs w2) :
    OnlyLanes (s1.setWeft l k w1) (s1.setWeft l k w2) l k w1 w2 where
  weft := State.weft?_setWeft ..
  regs := h
  loom := ⟨rfl, fun j hj => by rw [State.loom_setWeft_ne _ _ _ hj, State.loom_setWeft_ne _ _ _ hj]⟩
  this := by rw [State.loom_setWeft, State.loom_setWeft]
  wefts j hj := by rw [State.weft?_setWeft_ne _ _ _ (Ne.symm hj), State.weft?_setWeft_ne _ _ _ (Ne.symm hj)]

/-- A resid form's outcome: the loaded values, and the residency register with the bits of absent elements cleared. -/
def ResidCompletes (s : State) (i : Instr) (c : Issue) (w : Weft) (s1 : State) (wd : Width) (d m : Reg) (val : Nat → Nat)
    (gone : Nat → Word) : Prop :=
  ∃ w1, w1 = { w with regs := w1.regs, poison := w1.poison, soft := w1.soft } ∧ LoadedIn w w1 (c.act w i) wd d val
    ∧ CompletesAs s i c (s1.setWeft c.loom c.slot w1) w1 0 (c.act w i) m fun j => w.lane m j &&& ~~~(gone j)

/-- A body that writes the loaded values and clears residency bits, from the state `s1` of its accesses. -/
theorem resid_completes {gone : Nat → Word} {read : Nat → Nat × Nat × Nat} (hi : Issuing s i c w)
    (he : exec i s = issue i body s)
    (hb : body (c.iss w i) s
      = residWrite (c.iss w i) (fun v j u => v.setLoaded wd d j u) m ((lanesOf (c.act w i)).map read) s1)
    (hv : ∀ j, (read j).1 = j ∧ (read j).2.1 = val j ∧ BitVec.ofNat 32 (read j).2.2 = gone j)
    (hw : s1.weft? c.loom c.slot = some w) (hl : LoadsTo w wd d) (hm : rb m ∈ operandUses i) :
    ResidCompletes s i c w s1 wd d m val gone := by
  obtain ⟨rest, written⟩ := loaded_spec hl (c.act w i) val
  obtain ⟨f, hf⟩ := setLoaded_setsLanes hl val
  obtain ⟨kept, cleared⟩ := hf.foldl_then_reg (hi.free (operandUses_sub i hm) (rb m).self_mem) (c.act w i)
    fun j => w.lane m j &&& ~~~(gone j)
  have team : (w.loaded wd d (c.act w i) val).team = w.team := by rw [rest]
  refine ⟨_, rest, written,
    completesAs hi he ?_ team (State.weft?_setWeft ..) (onlyLanes_setWeft_setWeft s1 _ _ kept) cleared⟩
  rw [hb, residWrite]
  refine congrArg (fun t => Effect.done t 0 []) ((State.modWeft_eq _ hw).trans (congrArg (s1.setWeft _ _) ?_))
  rw [List.foldl_map]
  simp only [fun j => (hv j).1, fun j => (hv j).2.1, fun j => (hv j).2.2]
  rfl

end

/-! ## The instructions -/

section
variable {s : State} {c : Issue} {w : Weft}

/-- What a memory instruction's body comes to where it takes effect. -/
theorem accessBody_takesEffect {i : Instr} {load store resid : Bool} {accs : Iss → List Acc} {as : List Acc}
    {eff : View → Iss → State → Effect} (ha : accs (c.iss w i) = as)
    (ht : TakesEffect s (viewAt s c w) ⟨load, store, resid, as⟩) :
    accessBody load store resid accs eff (c.iss w i) s
      = eff (viewAt s c w) (c.iss w i) (noted s (viewAt s c w) ⟨load, store, resid, as⟩) :=
  (accessRun_of ha).trans (accessRun_takesEffect ht)

theorem weft?_accessed (hw : s.weft? c.loom c.slot = some w) (v : View) (x : Accesses) (q : Bool) :
    ((noted s v x).acquire v q x.list).weft? c.loom c.slot = some w := by
  rw [weft?_acquire, weft?_noted, hw]

/-- An evenness check of an instruction's flaws. -/
theorem evenReg_of_flaw {wd : Width} {a d : Reg} {rest : List (Bool × Reject)}
    (h : firstFlaw ((evenReg a && (wd != .b64 || evenReg d), .oddPair) :: rest) = none) : wd ≠ .b64 ∨ evenReg d = true := by
  have := firstFlaw_none h _ List.mem_cons_self
  simp only [Bool.and_eq_true, Bool.or_eq_true, bne_iff_ne] at this
  exact this.2

/-- The effect of a load: the values read are those that `val` gives. -/
theorem loadEffect_eq {t : State} {v : View} {act : Word} {wd : Width} {d : Reg} {acq : Bool} {as as' : List Acc}
    {read val : Nat → Nat} (ha : as = as') (hv : ∀ j, read j = val j) (l k : Nat) :
    Effect.ok ((t.acquire v acq as).modWeft l k fun w =>
        ((lanesOf act).map fun j => (j, read j)).foldl (fun w p => w.setLoaded wd d p.1 p.2) w)
      = .ok ((t.acquire v acq as').modWeft l k fun w => w.loaded wd d act val) := by
  rw [ha, funext hv, funext (Weft.foldl_setLoaded · wd d act val)]

/-- The effect of a packed load, which acquires nothing. -/
theorem packedEffect_eq {t : State} {v : View} {act : Word} {d : Reg} {as : List Acc} {read val : Nat → Nat}
    (hv : ∀ j, read j = val j) (l k : Nat) :
    Effect.ok (t.modWeft l k fun w =>
        ((lanesOf act).map fun j => (j, read j)).foldl (fun w p => w.setLane d p.1 (BitVec.ofNat 32 p.2)) w)
      = .ok ((t.acquire v false as).modWeft l k fun w => w.loaded .b32 d act val) :=
  loadEffect_eq (t := t) (v := v) (acq := false) (as := as) (wd := .b32) rfl hv l k

/-- Where a load's lane reads its bytes, what it reads is the value at them. -/
theorem readVa_at (s : State) (v : View) (a : Acc) : s.readVa v a.va a.len = valueAt v.loom (byteAt s) (s.spots v a) :=
  readVa_eq_valueAt ..

/-- ld: each active lane receives the bytes at its address. -/
theorem ld_completes {h : Guard} {d a b : Reg} {imm : BitVec 16} {wd : Width} {acq : Bool} {x : Accesses} {val : Nat → Nat}
    (hi : Issuing s (.ld h d a b imm wd acq) c w) (hf : (Instr.ld h d a b imm wd acq).flaw = none)
    (hx : accessRule w (c.act w (.ld h d a b imm wd acq)) (.ld h d a b imm wd acq) = some x)
    (ht : TakesEffect s (viewAt s c w) x)
    (hr : loadRule (noted s (viewAt s c w) x) (viewAt s c w) w (.ld h d a b imm wd acq) = some (d, val)) :
    let s1 := (noted s (viewAt s c w) x).acquire (viewAt s c w) acq x.list
    if wd = .b64 then CompletesPair s (.ld h d a b imm wd acq) c s1 w (c.act w (.ld h d a b imm wd acq)) d
      fun j => BitVec.ofNat 64 (val j)
    else CompletesAs s (.ld h d a b imm wd acq) c s1 w 0 (c.act w (.ld h d a b imm wd acq)) d
      fun j => BitVec.ofNat 32 (val j) := by
  intro s1
  cases hx
  cases hr
  have he : exec (.ld h d a b imm wd acq) s = issue (.ld h d a b imm wd acq) _ s := (rfl : execLd h d a b imm wd acq s = _)
  refine load_completes hi he ((accessBody_takesEffect (accs := fun x => laneAccs x (widthBytes wd) 1 (x.w.ea a b imm))
    (laneAccs_eq ..) ht).trans ?_) (weft?_accessed hi.weft ..)
    (loadsTo hi (show _ ∈ [rdIf (wd == .b64) d, ps a, rs b] from List.mem_cons_self) (evenReg_of_flaw hf))
  exact loadEffect_eq (laneAccs_eq ..) (fun j => by rw [ea_eq_addressOf]; exact readVa_eq_valueAt ..) _ _

/-- ldw: each active lane receives its packed elements. -/
theorem ldw_completes {h : Guard} {n : BitVec 4} {d a b : Reg} {imm : BitVec 16} {x : Accesses} {val : Nat → Nat}
    (hi : Issuing s (.ldw h n d a b imm) c w) (hx : accessRule w (c.act w (.ldw h n d a b imm)) (.ldw h n d a b imm) = some x)
    (ht : TakesEffect s (viewAt s c w) x)
    (hr : loadRule (noted s (viewAt s c w) x) (viewAt s c w) w (.ldw h n d a b imm) = some (d, val)) :
    CompletesAs s (.ldw h n d a b imm) c ((noted s (viewAt s c w) x).acquire (viewAt s c w) false x.list) w 0
      (c.act w (.ldw h n d a b imm)) d fun j => BitVec.ofNat 32 (val j) := by
  cases hx
  cases hr
  have he : exec (.ldw h n d a b imm) s = issue (.ldw h n d a b imm) _ s := (rfl : execLdw h n d a b imm s = _)
  refine load_completes (wd := .b32) hi he ((accessBody_takesEffect
    (accs := fun x => (lanesOf x.act).map (packedAcc x.w (x.fmt n) a b imm)) (packedAccs_eq ..) ht).trans ?_)
    (weft?_accessed hi.weft ..) (loadsTo hi (show _ ∈ [rd d, ps a, rs b] from List.mem_cons_self) (.inl (by decide)))
  dsimp only
  refine packedEffect_eq (fun j => ?_) _ _
  rw [Nat.shiftRight_eq_div_pow, packedAcc_eq_packedAt, readVa_at]
  rfl

/-- An element is absent where a byte of it lies on a page that is not resident (R122, R254). -/
theorem absent_iff (s : State) (v : View) (a : Acc) : s.absent v a = true ↔ accessOrder s v false a = 70 := by
  rw [State.absent, State.accCase_fst, beq_iff_eq]

/-- ld with resid. -/
theorem ldResid_completes {h : Guard} {d a m : Reg} {imm : BitVec 16} {wd : Width} {acq : Bool} {x : Accesses} {val : Nat → Nat}
    {gone : Nat → Word} (hi : Issuing s (.ldResid h d a m imm wd acq) c w) (hf : (Instr.ldResid h d a m imm wd acq).flaw = none)
    (hx : accessRule w (c.act w (.ldResid h d a m imm wd acq)) (.ldResid h d a m imm wd acq) = some x)
    (ht : TakesEffect s (viewAt s c w) x)
    (hr : residRule (noted s (viewAt s c w) x) (viewAt s c w) w (.ldResid h d a m imm wd acq) = some (d, m, val, gone)) :
    ResidCompletes s (.ldResid h d a m imm wd acq) c w
      ((noted s (viewAt s c w) x).acquire (viewAt s c w) acq x.list) wd d m val gone := by
  cases hx
  cases hr
  have he : exec (.ldResid h d a m imm wd acq) s = issue (.ldResid h d a m imm wd acq) _ s :=
    (rfl : execLdResid h d a m imm wd acq s = _)
  refine resid_completes hi he ((accessBody_takesEffect
    (accs := fun x => laneAccs x (widthBytes wd) 1 (x.w.eaNoIndex a imm)) (laneAccs_noIndex_eq ..) ht).trans
      (congrArg (fun as => residWrite _ _ m _ ((noted _ _ _).acquire _ acq as)) (laneAccs_noIndex_eq ..))) (fun j => ?_)
    (weft?_accessed hi.weft ..)
    (loadsTo hi (show _ ∈ [rdIf (wd == .b64) d, ps a, rb m] from List.mem_cons_self) (evenReg_of_flaw hf))
    (show _ ∈ [rdIf (wd == .b64) d, ps a, rb m] by simp)
  dsimp only
  simp only [absent_iff, readVa_eq_valueAt]
  rw [show (c.iss w (.ldResid h d a m imm wd acq)).w.eaNoIndex a imm j = addressOf w a 255 imm j from eaNoIndex_eq_addressOf ..]
  split
  · exact ⟨rfl, rfl, rfl⟩
  · exact ⟨rfl, rfl, rfl⟩

/-- A packed load writes as a load of a word does. -/
theorem residWrite_b32 (y : Iss) (d m : Reg) (vals : List (Nat × Nat × Nat)) (t : State) :
    residWrite y (fun v j u => v.setLane d j (BitVec.ofNat 32 u)) m vals t
      = residWrite y (fun v j u => v.setLoaded .b32 d j u) m vals t := rfl

/-- The access of one element of a packed load (R252). -/
def elementAt (w : Weft) (f : Fmt) (a : Reg) (imm : BitVec 16) (i j : Nat) : Acc :=
  ⟨i, BitVec.ofInt 64 ((w.pair a i).toNat + imm.toInt + (j * f.width / 8 : Nat)), (j * f.width % 8 + f.width + 7) / 8, 1⟩

/-- One element of ldw with resid: its value, zero where it is absent, and whether it is. -/
def elementRead (s : State) (v : View) (w : Weft) (f : Fmt) (a : Reg) (imm : BitVec 16) (i j : Nat) : Nat × Bool :=
  (if accessOrder s v false (elementAt w f a imm i j) = 70 then 0
    else valueAt v.loom (byteAt s) (s.spots v (elementAt w f a imm i j)) / 2 ^ (j * f.width % 8) % 2 ^ f.width,
   accessOrder s v false (elementAt w f a imm i j) == 70)

theorem residElem_eq (s : State) (v : View) (w : Weft) (f : Fmt) (a : Reg) (imm : BitVec 16) (i j : Nat) :
    s.residElem v f (w.eaNoIndex a imm i) i j = elementRead s v w f a imm i j := by
  have address : w.eaNoIndex a imm i + BitVec.ofNat 64 (j * f.width / 8)
      = BitVec.ofInt 64 ((w.pair a i).toNat + imm.toInt + (j * f.width / 8 : Nat)) := by
    rw [BitVec.ofInt_add, BitVec.ofInt_add, BitVec.ofInt_natCast, BitVec.ofInt_natCast, BitVec.ofNat_toNat, BitVec.setWidth_eq]
    rfl
  unfold State.residElem elementRead
  simp only [address, absent_iff, readVa_eq_valueAt, Nat.shiftRight_eq_div_pow]
  by_cases h : accessOrder s v false (elementAt w f a imm i j) = 70
  · rw [if_pos h, h]
    exact if_pos h
  · rw [if_neg h, beq_eq_false_iff_ne.2 h]
    exact if_neg h

/-- What a lane of ldw with resid comes to: its packed values, and the residency bits of its absent elements. -/
theorem residElems_eq (s : State) (v : View) (w : Weft) (f : Fmt) (a : Reg) (imm : BitVec 16) (i : Nat) :
    let es := (List.range f.perLane).map (s.residElem v f (w.eaNoIndex a imm i) i)
    packLane f.width (es.map (·.1)) = packLane f.width ((List.range f.perLane).map fun j => (elementRead s v w f a imm i j).1)
      ∧ BitVec.ofNat 32 (es.zipIdx.foldl (fun acc p => if p.1.2 then acc + 2 ^ p.2 else acc) 0)
        = BitVec.ofFnLE fun j : Fin 32 => decide (j.val < f.perLane) && (elementRead s v w f a imm i j.val).2 := by
  intro es
  have elements : es = (List.range f.perLane).map (elementRead s v w f a imm i) :=
    congrArg (List.map · _) (funext (residElem_eq s v w f a imm i))
  rw [elements, List.map_map]
  exact ⟨rfl, absentBits ..⟩

/-- ldw with resid. -/
theorem ldwResid_completes {h : Guard} {n : BitVec 4} {d a m : Reg} {imm : BitVec 16} {x : Accesses} {val : Nat → Nat}
    {gone : Nat → Word} (hi : Issuing s (.ldwResid h n d a m imm) c w)
    (hx : accessRule w (c.act w (.ldwResid h n d a m imm)) (.ldwResid h n d a m imm) = some x)
    (ht : TakesEffect s (viewAt s c w) x)
    (hr : residRule (noted s (viewAt s c w) x) (viewAt s c w) w (.ldwResid h n d a m imm) = some (d, m, val, gone)) :
    ResidCompletes s (.ldwResid h n d a m imm) c w
      ((noted s (viewAt s c w) x).acquire (viewAt s c w) false x.list) .b32 d m val gone := by
  cases hx
  cases hr
  have he : exec (.ldwResid h n d a m imm) s = issue (.ldwResid h n d a m imm) _ s := (rfl : execLdwResid h n d a m imm s = _)
  refine resid_completes hi he ((accessBody_takesEffect
    (accs := fun x => (lanesOf x.act).map (packedAcc x.w (x.fmt n) a 255 imm)) (packedAccs_eq ..) ht).trans (residWrite_b32 ..))
    (fun j => ?_) (weft?_accessed (q := false) hi.weft ..)
    (loadsTo hi (show _ ∈ [rd d, ps a, rb m] from List.mem_cons_self) (.inl (by decide)))
    (show _ ∈ [rd d, ps a, rb m] by simp)
  obtain ⟨packed, absent⟩ := residElems_eq (noted s (viewAt s c w) ⟨true, false, true, (activeLanes (c.act w
    (.ldwResid h n d a m imm))).map (packedAt w (slotOf w n) a 255 imm)⟩) (viewAt s c w) w (slotOf w n) a imm j
  exact ⟨rfl, congrArg BitVec.toNat packed, absent⟩

end

/-! ## O22 -/

section
variable {s : State} {i : Instr} {c : Issue} {w : Weft} {x : Accesses} {d m : Reg} {val : Nat → Nat} {gone : Nat → Word}

/-- The loads. -/
theorem load_writes (hi : Issuing s i c w) (hf : i.flaw = none) (hx : accessRule w (c.act w i) i = some x)
    (ht : TakesEffect s (viewAt s c w) x) (hr : loadRule (noted s (viewAt s c w) x) (viewAt s c w) w i = some (d, val)) :
    let s1 := (noted s (viewAt s c w) x).acquire (viewAt s c w) (acquiring i) x.list
    if loadsPair i then CompletesPair s i c s1 w (c.act w i) d fun j => BitVec.ofNat 64 (val j)
    else CompletesAs s i c s1 w 0 (c.act w i) d fun j => BitVec.ofNat 32 (val j) := by
  cases i
  case ld h d' a b imm wd acq =>
    cases hr
    simp only [loadsPair_ld]
    exact ld_completes hi hf hx ht rfl
  case ldw h n d' a b imm =>
    cases hr
    exact ldw_completes hi hx ht rfl
  all_goals cases hr

/-- The resid forms of the loads. -/
theorem resid_writes (hi : Issuing s i c w) (hf : i.flaw = none) (hx : accessRule w (c.act w i) i = some x)
    (ht : TakesEffect s (viewAt s c w) x)
    (hr : residRule (noted s (viewAt s c w) x) (viewAt s c w) w i = some (d, m, val, gone)) :
    let s1 := (noted s (viewAt s c w) x).acquire (viewAt s c w) (acquiring i) x.list
    ∃ w1, w1 = { w with regs := w1.regs, poison := w1.poison, soft := w1.soft }
      ∧ (if loadsPair i then PairsWritten w w1 (c.act w i) d fun j => BitVec.ofNat 64 (val j)
        else LanesWritten w w1 (c.act w i) d fun j => BitVec.ofNat 32 (val j))
      ∧ CompletesAs s i c (s1.setWeft c.loom c.slot w1) w1 0 (c.act w i) m fun j => w.lane m j &&& ~~~(gone j) := by
  cases i
  case ldResid h d' a m' imm wd acq =>
    cases hr
    simp only [loadsPair_ldResid]
    exact ldResid_completes hi hf hx ht rfl
  case ldwResid h n d' a m' imm =>
    cases hr
    exact ldwResid_completes hi hx ht rfl
  all_goals cases hr

end

/-- Settles O22: noting and acquiring accesses change no byte, and each load is a body that writes the value of its lanes'
bytes; the resid forms then clear the bits of the absent elements. -/
theorem loads : Obligations.Loads :=
  ⟨fun s v x _ p => ⟨congrFun (byteAt_noted s v x) p, congrFun ((byteAt_acquire ..).trans (byteAt_noted ..)) p⟩,
    fun _ _ _ _ _ _ _ hi hf hx ht => load_writes hi hf hx ht,
    fun _ _ _ _ _ _ _ _ _ hi hf hx ht => resid_writes hi hf hx ht⟩

end Sys2Proof.Rules
end

section
/-! PROOFS. The package after reset, and what movs reads (R66, R129, R146, R320, R368, R409, R463 to R466). -/

namespace Sys2Proof.Rules

open Sys2Proof.Machine

/-! ## Reset -/

/-- Settles O1: the reset state and a new weft list their fields, and a weft without registers or slots reads zero in every lane
and binary32 in every slot. -/
theorem resetState : Obligations.ResetState := by
  have full : ∀ b ∈ State.reset.mgmt.budgets, b.budget = 8192 ∧ b.floor = 0 := by decide
  refine ⟨rfl, rfl, rfl, rfl, rfl, rfl, rfl, full, rfl, rfl, rfl, rfl, rfl, by decide, rfl,
    fun ctx team num role allot pc spill r j => ⟨?_, ?_, rfl⟩⟩
  · unfold Weft.lane
    split <;> rfl
  · unfold Weft.fmt
    split <;> rfl

/-! ## System registers -/

section
variable {s : State} {c : Issue} {w : Weft} {i : Instr} {r : SysReg}

/-- The value that the machine reads from a system register is the number of R129. -/
theorem sysRead_eq (j : Nat) : sysRead s (c.iss w i) r j = BitVec.ofNat 64 (systemValue s c w (c.act w i) r j) := by
  cases r with
  | lane | weft | loom | die | allot | ctx => rfl
  | node | active | prio | fpx => exact (BitVec.ofNat_toNat ..).symm
  | clock => exact (BitVec.setWidth_eq s.clock).symm.trans (BitVec.ofNat_toNat ..).symm
  | role =>
    unfold sysRead systemValue
    dsimp only [Issue.iss]
    cases w.role <;> rfl
  | team =>
    unfold sysRead systemValue
    dsimp only [Issue.iss]
    cases s.teamOf c.loom w <;> rfl

theorem sysWide_iff : sysWide r = true ↔ r = .team ∨ r = .clock := by simp [sysWide]

/-- The registers that movs writes are none of the port's, and its pair is not v255, where it is well formed. -/
theorem movs_loadsTo {h : Guard} {d : Reg} (hi : Issuing s (.movs h d r) c w) (hf : (Instr.movs h d r).flaw = none)
    (hr : sysWide r = true) : LoadsTo w .b64 d := by
  refine loadsTo hi (show _ ∈ [rdIf (r == .team || r == .clock) d] from ?_) (.inr ?_)
  · rw [show (r == .team || r == .clock) = true from hr]
    exact List.mem_cons_self
  · have even : pairFlaw [d] = none := by rw [← hf]; exact (if_pos (sysWide_iff.1 hr)).symm
    simpa using firstFlaw_none even _ List.mem_cons_self

/-- The body of movs: a pair where the register is wide, one word of it elsewhere. -/
def movsBody (d : Reg) (r : SysReg) (x : Iss) (s : State) : Effect :=
  if sysWide r then pairBody d (fun _ x j => sysRead s x r j) x s
  else regBody d (fun _ x j => (sysRead s x r j).setWidth 32) x s

theorem exec_movs (h : Guard) (d : Reg) (r : SysReg) (s : State) :
    exec (.movs h d r) s = issue (.movs h d r) (movsBody d r) s := rfl

/-- The body of an instruction that issues may be taken for another of the same effect. -/
theorem exec_eq_of_body {body body' : Iss → State → Effect} (hi : Issuing s i c w) (he : exec i s = issue i body s)
    (hb : body (c.iss w i) s = body' (c.iss w i) s) : exec i s = issue i body' s := by
  rw [he, issue_eq hi, issue_eq hi, hb]

end

/-- Settles O10: movs runs the body that writes a pair, or a register, with the value of R129. -/
theorem systemRegisters : Obligations.SystemRegisters := by
  intro s c w h d r hi hf
  by_cases hr : sysWide r = true
  · obtain ⟨free, free', hd⟩ := (movs_loadsTo hi hf hr).pair
    obtain ⟨t, w', ht, done, written⟩ := pairBody_completes hi hd free free' fun _ x j => sysRead s x r j
    refine (if_pos (sysWide_iff.1 hr)).mpr ⟨t, w', (exec_eq_of_body hi (exec_movs ..) ?_).trans ht, done, ?_⟩
    · exact if_pos hr
    · simpa only [sysRead_eq] using written
  · have free : w.Free d := hi.free (operandUses_sub _ List.mem_cons_self) (RegUse.self_mem _)
    obtain ⟨t, w', ht, done, written⟩ := regBody_completes hi free fun _ x j => (sysRead s x r j).setWidth 32
    refine (if_neg (mt sysWide_iff.2 hr)).mpr ⟨t, w', (exec_eq_of_body hi (exec_movs ..) ?_).trans ht, done, ?_⟩
    · exact if_neg hr
    · simpa only [sysRead_eq, BitVec.setWidth_ofNat_of_le (show 32 ≤ 64 by decide)] using written

end Sys2Proof.Rules
end

section
/-! PROOFS. The steps of the engines, the bank units and the controllers, of the distributor's answers, of the translation buffers
and of the census (R44, R60, R125, R214, R226, R244, R245, R287, R324, R326, R361, R363, R378, R382 to R385, R394, R410, R423). -/

namespace Sys2Proof.Rules

open Sys2Proof.Machine

/-! ## Progress units (R125, R244, R265, R278, R287, R329) -/

section
variable {s : State} {l idx : Nat} {cls : OcClass} {o : Op}

/-- An engine takes a unit of the operation at place `idx` of its queue (R244, R278, R287, R329, R422, R429). -/
def UnitReady (s : State) (l : Nat) (cls : OcClass) (idx : Nat) (o : Op) : Prop :=
  let before := ((s.loom l).queue cls).take idx
  let first : Prop := if cls = .mat then before = [] else ∀ p ∈ before, p.slot = o.slot → s.opDone p = true
  cls ≠ .bank ∧ o.discard = false ∧ o.merging = false ∧ s.opStopped o = false ∧ (∀ p ∈ before, p.enter = false) ∧ first
    ∧ (o.started = true ∨ ∀ p ∈ before, p.started = true ∨ p.discard = true ∨ s.opDone p = true ∨ s.opStopped p = true)
    ∧ s.routeBehind before o = false

theorem unitReady_iff : s.unitReady l cls idx o = true ↔ UnitReady s l cls idx o := by
  by_cases hm : cls = .mat <;> simp [State.unitReady, UnitReady, hm, and_assoc, or_assoc]

theorem engineUnit_cases (ho : ((s.loom l).queue cls)[idx]? = some o) :
    let ready := UnitReady s l cls idx o
    let o1 : Op := { o with started := true }
    let done := (s.modOp l cls o.id fun _ => o1).unitDone o1 (s.progress o)
    (¬ ready → exec (.engineUnit l cls idx) s = .next s)
    ∧ (ready → o.enter = true → exec (.engineUnit l cls idx) s = .next (s.enterRanges o))
    ∧ (ready → o.enter = false → o.total ≤ s.progress o → exec (.engineUnit l cls idx) s = .next s)
    ∧ (ready → o.enter = false → s.progress o < o.total → cls ≠ .copy → exec (.engineUnit l cls idx) s = .next done)
    ∧ (ready → o.enter = false → s.progress o < o.total → cls = .copy → s.copyUnheld l = true →
        exec (.engineUnit l cls idx) s = .next (done.copyBusy l))
    ∧ (ready → o.enter = false → s.progress o < o.total → cls = .copy → s.copyUnheld l = false →
        exec (.engineUnit l cls idx) s = .next s) := by
  intro ready o1 done
  have step : exec (.engineUnit l cls idx) s = execEngineUnit l cls idx s := rfl
  unfold execEngineUnit at step
  rw [ho] at step
  dsimp -zeta only at step
  have unready : (!s.unitReady l cls idx o) = true ↔ ¬ ready := by
    rw [Bool.not_eq_true', ← Bool.not_eq_true]
    exact not_congr unitReady_iff
  have passed (hr : ready) := step.trans (if_neg fun hn => unready.1 hn hr)
  have inside (hr : ready) (he : o.enter = false) := (passed hr).trans (if_neg (Bool.eq_false_iff.1 he))
  have due (hr : ready) (he : o.enter = false) (hu : s.progress o < o.total) :=
    (inside hr he).trans (if_neg (Nat.not_le.2 hu))
  refine ⟨fun hn => step.trans (if_pos (unready.2 hn)), fun hr he => (passed hr).trans (if_pos he),
    fun hr he hd => (inside hr he).trans (if_pos hd), fun hr he hu hc => (due hr he hu).trans ((if_neg ?_).trans ?_),
    fun hr he hu hc hb => (due hr he hu).trans ((if_neg ?_).trans ?_), fun hr he hu hc hb => (due hr he hu).trans (if_pos ?_)⟩
  · simp [hc]
  · exact congrArg Host.Outcome.next (if_neg hc)
  · simp [hb]
  · exact congrArg Host.Outcome.next (if_pos hc)
  · simp [hc, hb]

end

/-! ## Retirement (R86, R245, R335, R336, R394, R423) -/

section
variable {s : State} {l idx : Nat} {cls : OcClass} {o : Op}

/-- An operation is done and its records are appended, and none of its weft and class is older (R86, R245, R394). -/
def RetirementDue (s : State) (o : Op) : Prop :=
  s.opDone o = true ∧ o.enter = false ∧ o.merging = false ∧ s.recsWait o = false
    ∧ ∀ p ∈ ((s.loom o.loom).queue o.cls).takeWhile (fun q => q.id != o.id), p.slot ≠ o.slot

theorem canRetire_iff : s.canRetire o = true ↔ RetirementDue s o := by
  simp only [State.canRetire, RetirementDue, Bool.and_eq_true, Bool.not_eq_true', List.any_eq_false, beq_iff_eq, and_assoc]

theorem gone_iff : o.gone = true ↔ o.merging = false ∧ ∀ u ∈ o.sent, u ∈ o.acked := by
  simp [Op.gone]

/-- Taking an operation out of its engine leaves every weft. -/
theorem weft?_removeOp (j : Nat) (c : OcClass) (id k i : Nat) : (s.removeOp j c id).weft? k i = s.weft? k i :=
  weft?_congr (KeepsLooms.modLoom s j fun x => by cases c <;> rfl) k i

/-- The exit of an operation, as its weft sees it. -/
theorem retireOp_eq {w : Weft} (res : Weft → Weft) (hw : (s.removeOp o.loom o.cls o.id).weft? o.loom o.slot = some w) :
    s.retireOp o res = (s.removeOp o.loom o.cls o.id).setWeft o.loom o.slot
      (let v := if w.ended.isSome || o.discard then w else res { w with fpx := w.fpx ||| o.flags }
       { v with oc := v.oc.set o.cls (v.oc.get o.cls - 1) }) :=
  State.modWeft_eq _ hw

/-- An operation without a header has no flit. -/
theorem flit_of_header_none (h : o.header = none) (w : Weft) : o.flit w = none := by
  unfold Op.flit
  rw [h]

theorem operationRetirement_cases (ho : ((s.loom l).queue cls)[idx]? = some o) :
    let due := RetirementDue s o
    ((o.discard = false → due → o.header = none → o.refused = none →
        ∀ w, (s.removeOp o.loom o.cls o.id).weft? o.loom o.slot = some w →
        exec (.operationRetirement l cls idx) s = .next ((s.removeOp o.loom o.cls o.id).setWeft o.loom o.slot
          (let v := if w.ended.isSome then w else o.results { w with fpx := w.fpx ||| o.flags }
          { v with oc := v.oc.set o.cls (v.oc.get o.cls - 1) })))
      ∧ (o.discard = false → due → ∀ w h flit, s.weft? o.loom o.slot = some w → o.flit w = some (h, flit) →
        (s.portOf o.ctx h = none ∨ o.sending = some true →
          exec (.operationRetirement l cls idx) s = .next (s.opFault o 0x19 0 0))
        ∧ ∀ tl tk q, s.portOf o.ctx h = some (tl, tk, q) → o.sending ≠ some true →
          (q.quota ≤ q.flits.length → exec (.operationRetirement l cls idx) s
              = .next (s.modOp o.loom o.cls o.id fun x => { x with sending := some false }))
          ∧ (q.flits.length < q.quota → exec (.operationRetirement l cls idx) s
              = .next ((s.retireOp o fun v => v).sendFlit o.loom tl tk flit)))
      ∧ (o.discard = false → ¬ due → exec (.operationRetirement l cls idx) s = .next s))
    ∧ (o.discard = true → o.merging = false → (∀ u ∈ o.sent, u ∈ o.acked) →
        ∀ w, (s.removeOp o.loom o.cls o.id).weft? o.loom o.slot = some w →
        exec (.operationRetirement l cls idx) s
          = .next ((s.removeOp o.loom o.cls o.id).setWeft o.loom o.slot { w with oc := w.oc.set o.cls (w.oc.get o.cls - 1) }))
    ∧ (o.discard = true → (o.merging = true ∨ ∃ u ∈ o.sent, u ∉ o.acked) →
        exec (.operationRetirement l cls idx) s = .next s) := by
  intro due
  have step : exec (.operationRetirement l cls idx) s = execOperationRetirement l cls idx s := rfl
  unfold execOperationRetirement at step
  rw [ho] at step
  dsimp -zeta only at step
  have kept (hd : o.discard = false) := step.trans (if_neg (Bool.eq_false_iff.1 hd))
  have retires (hd : o.discard = false) (due : s.canRetire o = true) := (kept hd).trans (if_neg (by simp [due]))
  have leaves (hd : o.discard = true) := step.trans (if_pos hd)
  refine ⟨⟨fun hd due hh hr w hw => ?_, fun hd due w h flit hw hf => ?_, fun hd due => (kept hd).trans (if_pos ?_)⟩,
    fun hd hm hs w hw => (leaves hd).trans (congrArg Host.Outcome.next ((if_pos (gone_iff.2 ⟨hm, hs⟩)).trans ?_)),
    fun hd hn => (leaves hd).trans (congrArg Host.Outcome.next (if_neg ?_))⟩
  · have hw' : s.weft? o.loom o.slot = some w := (weft?_removeOp ..).symm.trans hw
    have retired := retires hd (canRetire_iff.2 due)
    rw [hw', Option.bind_some, flit_of_header_none hh] at retired
    refine retired.trans (congrArg Host.Outcome.next ?_)
    unfold State.bankReport
    rw [hr, retireOp_eq _ hw, hd, Bool.or_false]
  · have retired := retires hd (canRetire_iff.2 due)
    rw [hw, Option.bind_some, hf] at retired
    dsimp only [State.retireFlit] at retired
    refine ⟨fun hp => ?_, fun tl tk q hp hn => ?_⟩
    · rcases hp with hp | hp
      · rw [hp] at retired
        exact retired
      · cases hq : s.portOf o.ctx h <;> rw [hq] at retired
        · exact retired
        · exact retired.trans (congrArg Host.Outcome.next (if_pos hp))
    · rw [hp] at retired
      exact ⟨fun full => retired.trans (congrArg Host.Outcome.next ((if_neg hn).trans (if_pos full))),
        fun room => retired.trans (congrArg Host.Outcome.next ((if_neg hn).trans (if_neg (Nat.not_le.2 room))))⟩
  · rw [Bool.not_eq_true', ← Bool.not_eq_true, canRetire_iff]
    exact due
  · rw [retireOp_eq _ hw, hd, Bool.or_true]
    rfl
  · rw [gone_iff, not_and_or]
    simpa using hn

end

/-! ## A bank's part, and the last unit of a move (R214, R274, R378, R410) -/

section
variable {s : State} {l idx : Nat} {o : Op}

theorem bankCommandPart_cases (bank : Nat) (ho : (s.loom l).bankQ[idx]? = some o) :
    let ready : Prop := bank ∈ o.parts ∧ (∀ p ∈ (s.loom l).bankQ.take idx, bank ∉ p.parts) ∧ s.unheld 1 bank = true
      ∧ s.bankReady (s.opView o) o.bankPlan = true
    (ready → exec (.bankCommandPart l idx bank) s = .next ((s.bankPart o bank).busy 1 bank))
    ∧ (¬ ready → exec (.bankCommandPart l idx bank) s = .next s) := by
  intro ready
  have step : exec (.bankCommandPart l idx bank) s = execBankCommandPart l idx bank s := rfl
  unfold execBankCommandPart at step
  rw [ho] at step
  have isReady : (o.parts.contains bank && s.partReady l idx bank && s.unheld 1 bank
      && s.bankReady (s.opView o) o.bankPlan) = true ↔ ready := by
    simp [ready, State.partReady, and_assoc]
  exact ⟨fun hr => step.trans (if_pos (isReady.2 hr)), fun hn => step.trans (if_neg (mt isReady.1 hn))⟩

theorem sbMoveCommit_cases (ho : (s.loom l).copyQ[idx]? = some o) (hi : ∃ h d b cc, o.instr = .sbMove h d b cc) :
    let due : Prop := s.progress o + 1 = o.total ∧ o.enter = false ∧ o.discard = false ∧ s.copyUnheld l = true
    (due → exec (.sbMoveCommit l idx) s = .next ((s.moveCommit o (s.progress o)).copyBusy l))
    ∧ (¬ due → exec (.sbMoveCommit l idx) s = .next s) := by
  obtain ⟨h, d, b, cc, hi⟩ := hi
  intro due
  have step : exec (.sbMoveCommit l idx) s = execSbMoveCommit l idx s := rfl
  unfold execSbMoveCommit at step
  rw [ho] at step
  dsimp -zeta only at step
  rw [hi] at step
  have isDue : (s.progress o + 1 = o.total ∧ (!o.enter) = true ∧ (!o.discard) = true ∧ s.copyUnheld l = true) ↔ due := by
    simp only [due, Bool.not_eq_true']
  exact ⟨fun hd => step.trans (if_pos (isDue.2 hd)), fun hn => step.trans (if_neg (mt isDue.1 hn))⟩

end

/-! ## A controller's write of a block (R223, R225, R226) -/

section
variable {s : State} {ctrl : Nat} {m : Merge}

theorem blockMerge_none (hm : s.heldMerge ctrl = none) : exec (.blockMerge ctrl) s = .next s := by
  show execBlockMerge ctrl s = _
  unfold execBlockMerge
  rw [hm]

theorem blockMerge_errs (hm : s.heldMerge ctrl = some m) (hk : m.kind ≠ .whole) (he : (s.takeBlock m.block).1 ≠ 0) :
    let cause := (s.takeBlock m.block).1
    (s.mergeOp m = none → exec (.blockMerge ctrl) s = .next (s.freeMerge ctrl m))
    ∧ ∀ o, s.mergeOp m = some o →
      (o.discard = false → exec (.blockMerge ctrl) s
        = .next ((s.freeMerge ctrl m).opFault o cause 0 (if cause = 0x0F then m.vaBlock else m.vaBlock <<< 12)))
      ∧ (o.discard = true → exec (.blockMerge ctrl) s
        = .next ((s.freeMerge ctrl m).modOp o.loom o.cls o.id fun q => { q with merging := false })) := by
  have step : exec (.blockMerge ctrl) s = execBlockMerge ctrl s := rfl
  unfold execBlockMerge at step
  rw [hm] at step
  simp only [if_neg hk, ne_eq, if_pos he] at step
  refine ⟨fun ho => ?_, fun o ho => ?_⟩ <;> rw [ho] at step
  · exact step
  · exact ⟨fun hd => step.trans (if_neg (Bool.eq_false_iff.1 hd)), fun hd => step.trans (if_pos hd)⟩

theorem blockMerge_writes (hm : s.heldMerge ctrl = some m) (hw : m.kind = .whole ∨ (s.takeBlock m.block).1 = 0) :
    let old := if m.kind = .whole then 0 else (s.takeBlock m.block).2
    let read := ((SMap.getD s.mem.blockMeta m.block 0).extractLsb' 0 6).toNat
    let s0 := if m.kind = .part then s.softBlock 0 m.block else s
    let s1 := (s0.writeBlock m.block (leBytes 4096 (old - (old &&& m.mask) + m.bits))).countMerge ctrl m read
    let s2 := s1.freeMerge ctrl m
    (s.mergeOp m = none → exec (.blockMerge ctrl) s = .next s2)
    ∧ ∀ o, s.mergeOp m = some o →
      let s3 := if m.kind = .whole then s2.modOp o.loom o.cls o.id fun q => { q with wrote := m.vaBlock :: q.wrote } else s2
      ((∃ x ∈ s3.mem.merges, x.ofOp = some m.op) → exec (.blockMerge ctrl) s = .next s3)
      ∧ ((∀ x ∈ s3.mem.merges, x.ofOp ≠ some m.op) → exec (.blockMerge ctrl) s
          = .next ((s3.applyUnit o m.unit (.did s3 m.flags m.recs)).modOp o.loom o.cls o.id fun q =>
              { q with merging := false })) := by
  intro old read s0 s1 s2
  have step : exec (.blockMerge ctrl) s = execBlockMerge ctrl s := rfl
  unfold execBlockMerge at step
  rw [hm] at step
  have sound : (if m.kind = .whole then (0, 0) else s.takeBlock m.block) = (0, old) := by
    rcases hw with hw | hw
    · simp [old, hw]
    · by_cases hk : m.kind = .whole
      · simp [old, hk]
      · simp only [old, if_neg hk, ← hw]
  simp -zeta only [sound] at step
  replace step := step.trans (if_neg (not_not.2 rfl))
  refine ⟨fun ho => ?_, fun o ho => ?_⟩ <;> rw [ho] at step
  · exact step
  · intro s3
    have more : (s3.mem.merges.any fun x => x.ofOp == some m.op) = true ↔ ∃ x ∈ s3.mem.merges, x.ofOp = some m.op := by simp
    exact ⟨fun h => step.trans (if_pos (more.2 h)),
      fun h => step.trans (if_neg fun hn => (more.1 hn).elim fun x hx => h x hx.1 hx.2)⟩

end

/-! ## The next record of a loom (R60, R326) -/

section
variable {s : State} {l k : Nat}

/-- A store touches a loom's memory alone. -/
theorem storeSpots_keeps {β : Type} {f : Loom → β} (hf : ∀ x m, f { x with mem := m } = f x) (s : State) (l : Nat)
    (bs : List (Spot × Byte)) (sv : Bool) : KeepsLooms f s (s.storeSpots l bs sv) := by
  have writes (s : State) (b : Byte) (sp : Spot) : KeepsLooms f s (s.writeSpot l b sp) := by
    have lm (a : Nat) (b : Byte) : KeepsLooms f s (s.writeLm l a b) := KeepsLooms.modLoom s l fun x => hf x _
    cases sp with
    | bad _ => exact KeepsLooms.refl s
    | lm a => exact lm a b
    | frame base i => exact KeepsLooms.ite (KeepsLooms.ite (lm _ _) (KeepsLooms.refl s)) (lm _ _)
    | page x pa => exact KeepsLooms.of_looms rfl
  exact (KeepsLooms.foldl (fun s (p : Spot × Byte) => writes s p.2 p.1) _ s).trans
    (KeepsLooms.of_looms (State.wholeUnits_looms ..))

theorem recordTake_none (h : s.nextRecord l = none) : exec (.recordTake l k) s = .next s := by
  show execRecordTake l k s = _
  unfold execRecordTake
  rw [h]

/-- The record that stands at an address, as a loom reads it. -/
def recordAt (s : State) (l ctx : Nat) (a : DWord) : ContRec := ContRec.ofBits (s.readVa (recordView l ctx) a 32)

/-- A loom without place `j` of its ready queue. -/
def readyWithout (j : Nat) (x : Loom) : Loom := { x with ready := x.ready.eraseIdx j }

/-- The responder's spawn that a record taken from the ready queue starts, if any (R385). -/
def spawnTaken (s : State) (l j ctx : Nat) (a : DWord) : Option Spawn :=
  if (recordAt s l ctx a).responder then (s.modLoom l (readyWithout j)).responderOf l ctx a else none

/-- The state in which a loom has taken the record at place `j` of its ready queue, but for the weft that it starts. -/
def recordTaken (s : State) (l j ctx : Nat) (a : DWord) : State :=
  (((s.modLoom l (readyWithout j)).writeVa (recordView l ctx) (a + 24) 8 0).modLoom l fun x =>
    { x with spawns := x.spawns.filter fun p => some p != spawnTaken s l j ctx a }).dropL1 l

/-- The responder that a spawn starts. -/
def responderFor (p : Spawn) : Responder :=
  { node := p.node, census := p.census, entry := p.entry, serial := p.serial, value := none, flagged := p.flagged }

section
variable {j ctx spill : Nat} {a : DWord}

theorem recordTake_full (h : s.nextRecord l = some (.ready j ctx a)) (full : s.recordFits l k (recordAt s l ctx a).allot = none) :
    exec (.recordTake l k) s = .next s := by
  have step : exec (.recordTake l k) s = execRecordTake l k s := rfl
  unfold execRecordTake at step
  rw [h] at step
  unfold recordAt at full
  dsimp only at step
  rw [full] at step
  exact step

theorem recordTake_starts (h : s.nextRecord l = some (.ready j ctx a))
    (fits : s.recordFits l k (recordAt s l ctx a).allot = some spill) :
    exec (.recordTake l k) s = .next (((recordTaken s l j ctx a).setWeft l k
      ((recordAt s l ctx a).weft ctx spill ((spawnTaken s l j ctx a).map responderFor))).countLoom l 0x0F ctx 1) := by
  have step : exec (.recordTake l k) s = execRecordTake l k s := rfl
  unfold execRecordTake at step
  rw [h] at step
  unfold recordAt at fits
  dsimp only at step
  rw [fits] at step
  exact step

end

theorem recordTaken_ready (j ctx : Nat) (a : DWord) :
    ((recordTaken s l j ctx a).loom l).ready = (s.loom l).ready.eraseIdx j := by
  simp only [recordTaken, State.dropL1, State.loom_modLoom]
  exact ((storeSpots_keeps (fun _ _ => rfl) _ l _ _).loom l).trans (congrArg Loom.ready (State.loom_modLoom ..))

/-- What the start of a weft and its count leave of the loom's ready queue. -/
theorem weftStarted (s : State) (l k ctx : Nat) (w : Weft) :
    (((s.setWeft l k w).countLoom l 0x0F ctx 1).weft? l k = some w)
    ∧ (((s.setWeft l k w).countLoom l 0x0F ctx 1).loom l).ready = (s.loom l).ready := by
  refine ⟨(weft?_congr (KeepsLooms.countLoom (fun _ _ => rfl) ..) l k).trans (State.weft?_setWeft ..), ?_⟩
  have kept : KeepsLooms Loom.ready s (s.setWeft l k w) := KeepsLooms.modLoom s l fun _ => rfl
  exact (kept.trans (KeepsLooms.countLoom (fun _ _ => rfl) ..)).loom l

/-! ### The weft that a record starts (R60) -/

section
variable (r : ContRec) (ctx spill : Nat) (resp : Option Responder)

theorem lane_withResponder (w : Weft) (q : Reg) (n : Nat) : ({ w with responder := resp } : Weft).lane q n = w.lane q n :=
  Weft.lane_congr rfl rfl q n

theorem recordWeft_writes :
    let w0 := newWeft ctx none 0 .vector r.allot (pairTarget r.code) spill
    let w1 := w0.writePairs 0xFFFFFFFF 0 fun _ => r.frame
    w0.SameButRegs w1 ∧ PairsWritten w0 w1 0xFFFFFFFF 0 fun _ => r.frame :=
  have free (d : Reg) : (newWeft ctx none 0 .vector r.allot (pairTarget r.code) spill).Free d := fun _ hp => nomatch hp
  Weft.writePairs_spec (free 0) (free (0 + 1)) _ (by decide) _

theorem recordWeft_fields :
    let w := r.weft ctx spill resp
    w.ctx = ctx ∧ w.team = none ∧ w.allot = r.allot ∧ w.role = .vector ∧ w.sv = false
      ∧ w.held = [{ pc := pairTarget r.code, mask := 0xFFFFFFFF, prio := 4095, age := 0 }] := by
  unfold ContRec.weft
  rw [(recordWeft_writes r ctx spill).1]
  exact ⟨rfl, rfl, rfl, rfl, rfl, rfl⟩

/-- The weft that a record starts holds the record's frame in v0:v1, in every lane. -/
theorem pair_recordWeft {n : Nat} (hn : n < 32) : (r.weft ctx spill resp).pair 0 n = r.frame := by
  have active : (0xFFFFFFFF : Word).getLsbD n = true := by
    rw [show (0xFFFFFFFF : Word) = BitVec.allOnes 32 from rfl, BitVec.getLsbD_allOnes]
    exact decide_eq_true hn
  have lane (q : Reg) : (r.weft ctx spill resp).lane q n = _ :=
    (lane_withResponder ..).trans ((recordWeft_writes r ctx spill).2 q n hn)
  have low : (r.weft ctx spill resp).lane 0 n = r.frame.extractLsb' 0 32 := (lane 0).trans (if_pos ⟨rfl, active⟩)
  have high : (r.weft ctx spill resp).lane (0 + 1) n = r.frame.extractLsb' 32 32 :=
    (lane (0 + 1)).trans ((if_neg fun h => Reg.succ_ne 0 h.1.symm).trans (if_pos ⟨rfl, by decide, active⟩))
  calc (r.weft ctx spill resp).pair 0 n
    _ = r.frame.extractLsb' 32 32 ++ r.frame.extractLsb' 0 32 := by rw [Weft.pair, low, high]
    _ = r.frame.extractLsb' 0 64 := BitVec.extractLsb'_append_extractLsb'_eq_extractLsb' rfl
    _ = r.frame := BitVec.extractLsb'_eq_self

end

end

/-! ## The distributor's answers (R324) -/

section
variable {s s1 : State} {j : Nat} {f : Fetch}

theorem fetchwAnswer_cases (hf : s.fetches[j]? = some f) (ha : s.fetchAnswer f ≠ .held)
    (first : ∀ g ∈ s.fetches.take j, s.fetchAnswer g = .held)
    (hs : s.writeMailbox f.box 0 (answerBytes ((s.launch? f.queue f.count).map (·.lrec)) (s.fetchAnswer f)) = some s1) :
    let s2 : State := { s1 with fetches := s1.fetches.eraseIdx j }
    (∀ n, s.fetchAnswer f = .team n →
      let id : TeamId := { queue := f.queue, count := f.count.toNat, n := n }
      exec (.fetchwAnswer j) s
        = .next (((s2.modLaunch f.queue f.count.toNat fun x => x.takeTeam n).giveTeam f.box id).withdrawPick id))
    ∧ ((∀ n, s.fetchAnswer f ≠ .team n) → exec (.fetchwAnswer j) s = .next s2) := by
  have step : exec (.fetchwAnswer j) s = execFetchwAnswer j s := rfl
  unfold execFetchwAnswer at step
  rw [hf] at step
  dsimp -zeta only at step
  have answers : ¬ (s.fetchAnswer f = .held ∨ ((s.fetches.take j).any fun g => s.fetchAnswer g != .held) = true) := by
    simpa [ha] using first
  replace step := step.trans (if_neg answers)
  rw [hs] at step
  refine ⟨fun n hn => ?_, fun hn => ?_⟩
  · rw [hn] at step
    exact step
  · refine step.trans ?_
    dsimp only
    split
    · next n h => exact absurd h (hn n)
    · rfl

end

/-! ## Invalidations and translation buffers (R361, R363) -/

section
variable {s : State} {j : Nat} {v : Inv}

theorem invs_invalidate (s : State) (v : Inv) : (s.invalidate v).invs = s.invs :=
  List.foldlRecOn (motive := fun t : State => t.invs = s.invs) s.tlbAgents _ rfl fun t ht ag _ => by
    cases ag <;> exact ht

/-- A weft without the invalidation `id` among those that its tlbsync awaits. -/
def withoutInv (id : Nat) (w : Weft) : Weft := { w with invs := w.invs.filter (· != id) }

theorem not_mem_withoutInv (id : Nat) (w : Weft) : id ∉ (withoutInv id w).invs := by
  simp [withoutInv]

/-- A weft of looms in which every weft has been changed is a changed one. -/
theorem weft?_of_mapped {t : State} {ps : List (Nat × Loom)} {g : Weft → Weft}
    (ht : t.looms = ps.map fun p => (p.1, { p.2 with wefts := p.2.wefts.map fun (q : Nat × Weft) => (q.1, g q.2) }))
    {l k : Nat} {w : Weft} (hw : t.weft? l k = some w) : ∃ w0, g w0 = w := by
  have loom := SMap.find?_map ps (fun x => { x with wefts := x.wefts.map fun (q : Nat × Weft) => (q.1, g q.2) }) l
  unfold State.weft? State.loom SMap.getD at hw
  rw [ht, loom] at hw
  cases hx : SMap.find? ps l with
  | none =>
    rw [hx] at hw
    cases hw
  | some x =>
    rw [hx] at hw
    obtain ⟨w0, -, hg⟩ := Option.map_eq_some_iff.1 ((SMap.find?_map x.wefts g k).symm.trans hw)
    exact ⟨w0, hg⟩

theorem tlbinvComplete_cases (hv : s.invs[j]? = some v) :
    (s.invWaits v = true → exec (.tlbinvComplete j) s = .next s)
    ∧ (s.invWaits v = false → ∃ t, exec (.tlbinvComplete j) s = .next t
        ∧ (∀ l k w, t.weft? l k = some w → v.id ∉ w.invs)
        ∧ (∀ x ∈ t.launches, ∀ y ∈ x.swapped, ∀ p ∈ y.wefts, v.id ∉ p.2.invs)
        ∧ v.id ∉ t.mgmt.invBusy ∧ t.invs = s.invs.eraseIdx j) := by
  have step : exec (.tlbinvComplete j) s = execTlbinvComplete j s := rfl
  unfold execTlbinvComplete at step
  rw [hv] at step
  refine ⟨fun hw => step.trans (if_pos hw), fun hw => ⟨_, step.trans (if_neg (Bool.eq_false_iff.1 hw)), ?_, ?_, ?_, ?_⟩⟩
  · intro l k w hw
    obtain ⟨w0, rfl⟩ := weft?_of_mapped (g := withoutInv v.id) rfl hw
    exact not_mem_withoutInv v.id w0
  · intro x hx y hy p hp
    obtain ⟨x, -, rfl⟩ := List.mem_map.1 hx
    obtain ⟨y, -, rfl⟩ := List.mem_map.1 hy
    obtain ⟨q, -, rfl⟩ := List.mem_map.1 hp
    exact not_mem_withoutInv v.id q.2
  · simp
  · exact congrArg (List.eraseIdx · j) (invs_invalidate s v)

theorem tlbFillAhead_eq (s : State) (ag : TlbAgent) (ctx : BitVec 16) (va : DWord) : exec (.tlbFillAhead ag ctx va) s
    = .next (if agentOk ag = true ∧ va.toNat < 2 ^ 52 then s.fillTlb ag ctx.toNat va.toNat else s) := by
  show execTlbFillAhead ag ctx va s = _
  simp only [execTlbFillAhead, Bool.and_eq_true, decide_eq_true_eq]

end

/-! ## Censuses (R382 to R385) -/

section
variable {s : State} {key : Nat} {q : Census}

/-- A loom of looms that have all been changed is the changed one. -/
theorem loom_of_mapped {t : State} {ps : List (Nat × Loom)} {g : Loom → Loom} (ht : t.looms = ps.map fun p => (p.1, g p.2))
    {l : Nat} {x : Loom} (hx : SMap.find? ps l = some x) : t.loom l = g x := by
  unfold State.loom SMap.getD
  rw [ht, SMap.find?_map, hx]
  rfl

theorem censusPoint_cases (hq : SMap.find? s.census key = some q) :
    let hits (x : Loom) : List (Nat × Board) := x.board.filter fun p => p.2.matches q.ctx q.key
    (q.here = false → exec (.censusPoint key) s = .next s)
    ∧ (q.here = true → ∃ t, exec (.censusPoint key) s = .next t
        ∧ SMap.find? t.census key = some { q with here := false, pkgs := q.pkgs - 1,
                                                  counted := q.counted + (s.looms.map fun p => (hits p.2).length).sum }
        ∧ ∀ l x, SMap.find? s.looms l = some x →
          (t.loom l).spawns = x.spawns ++ (hits x).map (fun p => spawnOf key q p.1 p.2)
          ∧ ∀ p ∈ hits x, (p.1, { p.2 with busy := true }) ∈ (t.loom l).board) := by
  intro hits
  have step : exec (.censusPoint key) s = execCensusPoint key s := rfl
  unfold execCensusPoint at step
  rw [hq] at step
  refine ⟨fun hh => step.trans (if_pos (by simp [hh])), fun hh =>
    ⟨_, step.trans (if_neg (by simp [hh])), ?_, fun l x hx => ?_⟩⟩
  · rw [SMap.find?_put_self, foldl_add_lengths fun p : Nat × Loom => (hits p.2).length, Nat.zero_add]
  · rw [loom_of_mapped (g := (·.count key q)) rfl hx]
    exact ⟨rfl, fun p hp => List.mem_map.2 ⟨p, (List.mem_filter.1 hp).1, if_pos (List.mem_filter.1 hp).2⟩⟩

theorem responderSpawn_none {l j : Nat} (h : (s.loom l).nextSpawn j = none) : exec (.responderSpawn l j) s = .next s := by
  show execResponderSpawn l j s = _
  unfold execResponderSpawn
  rw [h]

theorem responderSpawn_cases {l j : Nat} {p : Spawn} (hp : (s.loom l).nextSpawn j = some p) :
    let e := (s.loom l).entry j
    (e.serial ≠ p.serial → exec (.responderSpawn l j) s = .next (s.spawnFails l j p))
    ∧ (e.serial = p.serial → s.serves e.ctx = false → exec (.responderSpawn l j) s = .next s)
    ∧ (e.serial = p.serial → s.serves e.ctx = true → p.written = true →
        exec (.responderSpawn l j) s = .next (s.spawnQueue l j e p))
    ∧ (e.serial = p.serial → s.serves e.ctx = true → p.written = false → s.areaBad l e.ctx e.area = true →
        exec (.responderSpawn l j) s = .next (s.spawnFails l j p))
    ∧ (e.serial = p.serial → s.serves e.ctx = true → p.written = false → s.areaBad l e.ctx e.area = false →
        let v := boardView l e.ctx
        let area : Acc := { lane := 0, va := e.area, len := 128 }
        let case := (s.accCase v true area).1
        (case < 70 → exec (.responderSpawn l j) s = .next (s.spawnFails l j p))
        ∧ (case = 70 → exec (.responderSpawn l j) s = .next s)
        ∧ (70 < case → (∃ sp ∈ s.spots v area, s.readError l sp = true) →
            exec (.responderSpawn l j) s = .next (s.spawnFails l j p))
        ∧ (70 < case → (∀ sp ∈ s.spots v area, s.readError l sp = false) → p.was ≠ .spilled →
          let s1 := (s.writeBytesVa v e.area (areaBytes l j e p false s.stamp)).tick1
          exec (.responderSpawn l j) s
            = .next ((s1.modLoom l fun x => x.setSpawn p (some { p with flagged := false })).spawnQueue l j e
                { p with flagged := false }))) := by
  intro e
  have step : exec (.responderSpawn l j) s = execResponderSpawn l j s := rfl
  unfold execResponderSpawn at step
  rw [hp] at step
  dsimp -zeta only at step
  have follows (hs : e.serial = p.serial) := step.trans (if_neg (not_not.2 hs))
  have served (hs : e.serial = p.serial) (hc : s.serves e.ctx = true) := (follows hs).trans (if_neg (by simp [e, hc]))
  have writes (hs : e.serial = p.serial) (hc : s.serves e.ctx = true) (hw : p.written = false) :=
    (served hs hc).trans (if_neg (Bool.eq_false_iff.1 hw))
  refine ⟨fun hs => step.trans (if_pos hs), fun hs hc => (follows hs).trans (if_pos (by simp [e, hc])),
    fun hs hc hw => (served hs hc).trans (if_pos hw), fun hs hc hw ha => (writes hs hc hw).trans (if_pos (.inl ha)),
    fun hs hc hw ha => ?_⟩
  intro v area case
  have good (h : 70 ≤ case) := (writes hs hc hw).trans (if_neg (not_or.2 ⟨Bool.eq_false_iff.1 ha, Nat.not_lt.2 h⟩))
  have resident (h : 70 < case) := (good h.le).trans (if_neg h.ne')
  refine ⟨fun h => (writes hs hc hw).trans (if_pos (.inr h)), fun h => (good h.ge).trans (if_pos h),
    fun h err => (resident h).trans (if_pos (List.any_eq_true.2 err)), fun h sound hp => ?_⟩
  have written := (resident h).trans (if_neg fun err => ?_)
  · rw [if_pos hp] at written
    exact written
  · obtain ⟨sp, hsp, bad⟩ := List.any_eq_true.1 err
    exact Bool.false_ne_true ((sound sp hsp).symm.trans bad)

end

/-- Settles O54: each step is taken apart along the conditions of its definition; what a record's weft holds, what an invalidation
leaves in the wefts and what a census counts come from the lemmas above. -/
theorem engineSteps : Obligations.EngineSteps := by
  refine ⟨fun s l cls idx o ho => ?_, fun s l idx bank o ho => bankCommandPart_cases bank ho, fun s ctrl => ⟨blockMerge_none,
    fun m hm hk he => blockMerge_errs hm hk he, fun m hm hw => blockMerge_writes hm hw⟩,
    fun s l idx o ho hi => sbMoveCommit_cases ho hi, fun s l k => ⟨recordTake_none, fun j ctx a h => ?_⟩,
    fun s j f hf ha first s1 hs => fetchwAnswer_cases hf ha first hs, fun s j v hv => tlbinvComplete_cases hv, tlbFillAhead_eq,
    fun s key q hq => censusPoint_cases hq, fun s l j => ⟨responderSpawn_none, fun p hp => responderSpawn_cases hp⟩⟩
  · obtain ⟨unready, enters, done, runs, copies, unfunded⟩ := engineUnit_cases ho
    exact ⟨unready, enters, done, runs, copies, unfunded, operationRetirement_cases ho⟩
  · refine ⟨recordTake_full h, fun spill fits => ?_⟩
    obtain ⟨weft, ready⟩ := weftStarted (recordTaken s l j ctx a) l k ctx
      ((recordAt s l ctx a).weft ctx spill ((spawnTaken s l j ctx a).map responderFor))
    obtain ⟨hc, ht, hal, hr, hsv, hh⟩ := recordWeft_fields (recordAt s l ctx a) ctx spill
      ((spawnTaken s l j ctx a).map responderFor)
    exact ⟨_, _, recordTake_starts h fits, weft, hc, ht, hal, hr, hsv, hh, ready.trans (recordTaken_ready ..),
      fun n hn => pair_recordWeft _ _ _ _ hn⟩

end Sys2Proof.Rules
end

section
/-! SUPPORT. The word functions of the integer instructions are those of R139 to R147: the same words, whether stated by bits or
by the numbers that they hold. -/

namespace Sys2Proof.Rules

open Sys2Proof.Machine

/-! ## Words from their bits -/

@[simp] theorem getLsbD_wordOfBits (f : Nat → Bool) {k : Nat} (hk : k < 32) : (wordOfBits f).getLsbD k = f k := by
  simp [wordOfBits, hk]

theorem eq_wordOfBits {x : Word} {f : Nat → Bool} (h : ∀ k, k < 32 → x.getLsbD k = f k) : x = wordOfBits f :=
  BitVec.eq_of_getLsbD_eq fun k hk => (h k hk).trans (getLsbD_wordOfBits f hk).symm

@[simp] theorem getLsbD_maskOf (p : Nat → Bool) {k : Nat} (hk : k < 32) : (maskOf p).getLsbD k = p k := by
  rw [maskOf, BitVec.getLsbD_ofNat, (sum_bits p 32).2 k]
  simp [hk]

theorem maskOf_eq (p : Nat → Bool) : maskOf p = wordOfBits p := eq_wordOfBits fun _ hk => getLsbD_maskOf p hk

/-! ## Words from numbers -/

theorem wordOf_natCast (n : Nat) : wordOf n = BitVec.ofNat 32 n := BitVec.ofInt_natCast ..

theorem wordOf_toNat (x : Word) : wordOf x.toNat = x := by simp [wordOf_natCast]

theorem wordOf_toInt (x : Word) : wordOf x.toInt = x := BitVec.ofInt_toInt

theorem wordOf_add (a b : Int) : wordOf (a + b) = wordOf a + wordOf b := BitVec.ofInt_add ..

theorem wordOf_mul (a b : Int) : wordOf (a * b) = wordOf a * wordOf b := BitVec.ofInt_mul ..

theorem wordOf_neg (a : Int) : wordOf (-a) = -wordOf a := BitVec.ofInt_neg ..

/-- A word holds a number modulo 2^32. -/
theorem eq_wordOf {x : Word} {n : Nat} (h : x.toNat = n % 2 ^ 32) : x = wordOf n := by
  rw [wordOf_natCast]
  exact BitVec.eq_of_toNat_eq (h.trans (BitVec.toNat_ofNat ..).symm)

/-! ## Arithmetic (R140, R141) -/

theorem clampInt_eq {lo hi : Int} (h : lo ≤ hi) (x : Int) : clampInt lo hi x = clampTo lo hi x := by
  unfold clampInt clampTo
  split_ifs <;> omega

theorem satResult_eq (m : Sat) (u v : Int) : satResult m u v = saturated m u v := by
  cases m with
  | wrap => rfl
  | sats => exact congrArg wordOf (clampInt_eq (by decide) v)
  | satu => exact congrArg wordOf (clampInt_eq (by decide) u)

theorem mulHigh_eq (sg : Bool) (x y : Word) : mulHigh sg x y = wordOf ((valueOf sg x * valueOf sg y).fdiv (2 ^ 32)) := by
  rw [Int.fdiv_eq_ediv_of_nonneg _ (by decide)]
  cases sg with
  | true => rfl
  | false => exact (wordOf_natCast _).symm

theorem divWord_eq (sg : Bool) (x y : Word) :
    divWord sg x y = if y = 0 then 0xFFFFFFFF else wordOf ((valueOf sg x).tdiv (valueOf sg y)) := by
  cases sg with
  | true => rfl
  | false => exact congrArg (fun v => if y = 0 then _ else v) (wordOf_natCast _).symm

theorem remWord_eq (sg : Bool) (x y : Word) :
    remWord sg x y = if y = 0 then x else wordOf ((valueOf sg x).tmod (valueOf sg y)) := by
  refine congrArg (fun v => if y = 0 then x else v) ?_
  cases sg with
  | true =>
    refine congrArg wordOf ?_
    rw [Int.tmod_def, Int.mul_comm]
    rfl
  | false => exact (wordOf_natCast _).symm

theorem wordLt_eq (sg : Bool) (x y : Word) : wordLt sg x y = decide (valueOf sg x < valueOf sg y) := by
  cases sg with
  | true => rfl
  | false => exact decide_eq_decide.2 Int.ofNat_lt.symm

theorem minWord_eq (sg : Bool) (x y : Word) : minWord sg x y = if valueOf sg x ≤ valueOf sg y then x else y := by
  simp only [minWord, wordLt_eq, decide_eq_true_eq, ← Int.not_le, ite_not]

theorem maxWord_eq (sg : Bool) (x y : Word) : maxWord sg x y = if valueOf sg y ≤ valueOf sg x then x else y := by
  simp only [maxWord, wordLt_eq, decide_eq_true_eq, ← Int.not_le, ite_not]

/-! ## Logic, shifts and counts (R140, R142) -/

theorem logic3Word_eq (t : BitVec 8) (x y z : Word) : logic3Word t x y z = wordOfBits fun k =>
    t.getLsbD (4 * (x.getLsbD k).toNat + 2 * (y.getLsbD k).toNat + (z.getLsbD k).toNat) := by
  refine (maskOf_eq _).trans (congrArg wordOfBits (funext fun k => congrArg t.getLsbD ?_))
  cases x.getLsbD k <;> cases y.getLsbD k <;> cases z.getLsbD k <;> rfl

theorem shlWord_eq (x : Word) (n : Nat) : shlWord x n = shiftedLeft x n :=
  congrArg (fun v => if n < 32 then v else 0) (eq_wordOf (by rw [BitVec.toNat_shiftLeft, Nat.shiftLeft_eq]))

theorem shrWord_eq (x : Word) (n : Nat) : shrWord x n = shiftedRight x n := by
  refine congrArg (fun v => if n < 32 then v else 0) ?_
  have quotient : x >>> n = BitVec.ofNat 32 (x.toNat / 2 ^ n) := by
    rw [← Nat.shiftRight_eq_div_pow, ← BitVec.toNat_ushiftRight, BitVec.ofNat_toNat, BitVec.setWidth_eq]
  rw [quotient, ← wordOf_natCast]
  push_cast
  rfl

theorem sarWord_eq (x : Word) (n : Nat) : sarWord x n = shiftedSigned x n := by
  unfold sarWord shiftedSigned
  split
  · next hn =>
    rw [Nat.min_eq_left hn.le, ← wordOf_toInt (x.sshiftRight n), BitVec.toInt_sshiftRight, Int.shiftRight_eq_div_pow,
      Int.fdiv_eq_ediv_of_nonneg _ (by positivity)]
    push_cast
    rfl
  · next hn =>
    rw [Nat.min_eq_right (Nat.not_lt.1 hn)]
    refine BitVec.eq_of_getLsbD_eq fun k hk => ?_
    have sign : (x.sshiftRight 32).getLsbD k = x.getLsbD 31 := by
      rw [BitVec.getLsbD_sshiftRight, if_neg (by omega), BitVec.msb_eq_getLsbD_last]
      simp [hk]
    rw [sign]
    split
    · next h =>
      rw [h, show (0xFFFFFFFF : Word) = BitVec.allOnes 32 from rfl, BitVec.getLsbD_allOnes]
      simp [hk]
    · next h => simpa using h

theorem rotWord_eq (x : Word) (n : Nat) : rotWord x n = rotated x n := by
  refine eq_wordOfBits fun k hk => ?_
  rw [rotWord, BitVec.getLsbD_rotateLeft, Nat.mod_mod]
  by_cases h : k < n % 32
  · simp only [h, decide_true, cond_true]
    congr 1
    omega
  · simp only [h, hk, decide_false, cond_false, decide_true, Bool.true_and]
    congr 1
    omega

theorem popcWord_eq (x : Word) : popcWord x = wordOf ((List.range 32).countP fun k => x.getLsbD k) := by
  rw [wordOf_natCast, List.countP_eq_length_filter]
  rfl

/-- The numbers before the first below n that satisfies a test. -/
theorem length_takeWhile_not (q : Nat → Bool) (n : Nat) :
    ((List.range n).takeWhile fun k => !q k).length = ((List.range n).find? q).getD n := by
  cases hf : (List.range n).find? q with
  | none =>
    have all : (List.range n).takeWhile (fun k => !q k) = List.range n :=
      List.takeWhile_eq_self_iff.2 fun k hk => by simpa using List.find?_eq_none.1 hf k hk
    rw [all, List.length_range]
    rfl
  | some k =>
    obtain ⟨found, before, after, split, none⟩ := List.find?_eq_some_iff_append.1 hf
    have place : before.length = k := by
      have entry : (List.range n)[before.length]? = some k := by simp [split]
      grind
    rw [split, List.takeWhile_append_of_pos none, List.takeWhile_cons_of_neg (by simp [found]), List.append_nil, place]
    rfl

theorem ctzWord_eq (x : Word) : ctzWord x = wordOf (((List.range 32).find? fun k => x.getLsbD k).getD 32) := by
  rw [wordOf_natCast, ← length_takeWhile_not]
  rfl

/-- The first one bit from the top. -/
theorem find?_from_top {x : Word} (hx : x ≠ 0) :
    ((List.range 32).find? fun k => x.getLsbD (31 - k)) = some (31 - Nat.log2 x.toNat) := by
  have pos : x.toNat ≠ 0 := fun h => hx (BitVec.eq_of_toNat_eq h)
  have low : Nat.log2 x.toNat < 32 := (Nat.log2_lt pos).2 x.isLt
  refine List.find?_range_eq_some.2 ⟨?_, List.mem_range.2 (by omega), fun k hk => ?_⟩
  · rw [show 31 - (31 - Nat.log2 x.toNat) = Nat.log2 x.toNat by omega]
    exact Nat.testBit_log2 pos
  · have above : x.toNat < 2 ^ (31 - k) := (Nat.log2_lt pos).1 (by omega)
    have unset : x.getLsbD (31 - k) = false := Nat.testBit_lt_two_pow above
    rw [unset]
    rfl

theorem clzWord_eq (x : Word) : clzWord x = if x = 0 then 32 else wordOf (31 - Nat.log2 x.toNat) := by
  have first : clzWord x = BitVec.ofNat 32 (((List.range 32).find? fun k => x.getLsbD (31 - k)).getD 32) := by
    rw [← length_takeWhile_not, clzWord, List.takeWhile_map, List.length_map]
    rfl
  rw [first]
  split
  · next hx => rw [hx]; rfl
  · next hx =>
    have pos : x.toNat ≠ 0 := fun h => hx (BitVec.eq_of_toNat_eq h)
    have low : Nat.log2 x.toNat < 32 := (Nat.log2_lt pos).2 x.isLt
    rw [find?_from_top hx, Option.getD_some, ← wordOf_natCast]
    congr 1
    omega

/-! ## Bit fields and comparison (R143, R144) -/

theorem bitRange_eq (y : Word) : bitRange y = ((y.extractLsb' 0 8).toNat, fieldLen y) := by
  simp only [bitRange, fieldLen, BitVec.extractLsb'_toNat, Nat.shiftRight_eq_div_pow, Nat.pow_zero, Nat.div_one, Nat.reducePow]

theorem bfxWord_eq (sg : Bool) (x y : Word) : bfxWord sg x y =
    if (bitRange y).2 = 0 then 0
    else
      let f := x.toNat / 2 ^ (bitRange y).1 % 2 ^ (bitRange y).2
      if sg ∧ f.testBit ((bitRange y).2 - 1) then wordOf ((f : Int) - 2 ^ (bitRange y).2) else wordOf f := by
  rw [bitRange_eq]
  simp only [bfxWord, wordOf_natCast, Bool.and_eq_true]
  rfl

theorem bfiWord_eq (x y z : Word) : bfiWord x y z =
    if (bitRange y).2 = 0 then z
    else wordOfBits fun k =>
      if (bitRange y).1 ≤ k ∧ k < (bitRange y).1 + (bitRange y).2 then x.getLsbD (k - (bitRange y).1) else z.getLsbD k := by
  rw [bitRange_eq]
  refine congrArg (fun v => if fieldLen y = 0 then z else v) (eq_wordOfBits fun k hk => ?_)
  generalize (y.extractLsb' 0 8).toNat = p
  generalize fieldLen y = l
  have field : (BitVec.ofNat 32 ((2 ^ l - 1) * 2 ^ p)).getLsbD k = decide (p ≤ k ∧ k < p + l) := by
    rw [BitVec.getLsbD_ofNat, ← Nat.shiftLeft_eq, Nat.testBit_shiftLeft, Nat.testBit_two_pow_sub_one]
    grind
  rw [BitVec.getLsbD_or, BitVec.getLsbD_and, BitVec.getLsbD_and, BitVec.getLsbD_not, BitVec.getLsbD_shiftLeft, field]
  by_cases inside : p ≤ k ∧ k < p + l
  · simp [inside, hk]
  · simp [inside, hk]

theorem icmpWord_eq (k : Cond) (sg : Bool) (x y : Word) :
    icmpWord k sg x y = if conditionHolds k (valueOf sg x) (valueOf sg y) then 1 else 0 := by
  have same : x = y ↔ valueOf sg x = valueOf sg y := by
    cases sg with
    | true => exact BitVec.toInt_inj.symm
    | false => exact BitVec.toNat_inj.symm.trans Int.ofNat_inj.symm
  unfold icmpWord ofBool32 conditionHolds
  cases k <;> simp [wordLt_eq, same]

/-! ## Immediate forms (R147) -/

theorem sext28_eq (k : BitVec 28) : sext28 k = wordOf k.toInt := rfl

theorem movhiWord_eq (x : Word) (k : BitVec 28) :
    movhiWord x k = wordOf (k.toNat % 2 ^ 16 * 2 ^ 16 + x.toNat % 2 ^ 16) := by
  refine eq_wordOf (n := k.toNat % 2 ^ 16 * 2 ^ 16 + x.toNat % 2 ^ 16) ?_
  rw [movhiWord, BitVec.toNat_append, BitVec.extractLsb'_toNat, BitVec.extractLsb'_toNat, Nat.shiftRight_zero,
    Nat.shiftRight_zero, ← Nat.shiftLeft_add_eq_or_of_lt (Nat.mod_lt _ (by decide)), Nat.shiftLeft_eq]
  omega

/-! ## Pairs (R145, R147) -/

theorem mad64_eq (sg : Bool) (x y : Word) (z : DWord) :
    mad64 sg x y z = BitVec.ofInt 64 (valueOf sg x * valueOf sg y + z.toNat) := by
  cases sg <;> rfl

theorem iadd64_eq (x y : DWord) : x + y = BitVec.ofNat 64 (x.toNat + y.toNat) := by
  rw [BitVec.ofNat_add]; simp

theorem shl64_eq (x : DWord) (n : Nat) : x <<< n = BitVec.ofNat 64 (x.toNat * 2 ^ n) :=
  BitVec.eq_of_toNat_eq (by rw [BitVec.toNat_shiftLeft, Nat.shiftLeft_eq, BitVec.toNat_ofNat])

theorem lea_eq (x : DWord) (k : BitVec 28) : x + sext28d k = BitVec.ofInt 64 (x.toNat + k.toInt) := by
  rw [BitVec.ofInt_add, BitVec.ofInt_natCast, BitVec.ofNat_toNat, BitVec.setWidth_eq]
  rfl

end Sys2Proof.Rules
end

section
/-! PROOFS. The integer, logic, bit-field, comparison and immediate instructions, their pair forms, and lane exchange: each runs
the shared body that writes its destination, with the word of its rule (R139 to R154). -/

namespace Sys2Proof.Rules

open Sys2Proof.Machine

section
variable {s : State} {i : Instr} {c : Issue} {w : Weft} {d d' : Reg}

/-- Written lanes are told by the words of the lanes that are written. -/
theorem lanesWritten_congr {w' : Weft} {act : Word} {f val : Nat → Word} (h : LanesWritten w w' act d f)
    (hv : ∀ j, j < 32 → act.getLsbD j = true → f j = val j) : LanesWritten w w' act d val := fun r j hj =>
  (h r j hj).trans (ite_congr rfl (fun hw => hv j hj hw.2.2) fun _ => rfl)

/-- An instruction that runs the register body writes its rule's register, where its words agree in the active lanes. -/
theorem writesReg_active {f : Weft → Iss → Nat → Word} {val val' : Nat → Word} (meaning : Result)
    (hi : Issuing s i c w) (he : exec i s = meaning) (hm : meaning = issue i (regBody d f) s) (hd : rd d ∈ operandUses i)
    (hr : some (d, val) = some (d', val')) (hv : ∀ j, j < 32 → (c.act w i).getLsbD j = true → f w (c.iss w i) j = val j) :
    WritesReg s i c w d' val' := by
  cases hr
  obtain ⟨t, w', ht, done, written⟩ := regBody_completes hi (destFree hi hd) f
  exact ⟨t, w', (he.trans hm).trans ht, done, lanesWritten_congr written hv⟩

/-- As `writesReg_active`, where the words agree in every lane. -/
theorem writesReg {f : Weft → Iss → Nat → Word} {val val' : Nat → Word} (meaning : Result) (hi : Issuing s i c w)
    (he : exec i s = meaning) (hm : meaning = issue i (regBody d f) s) (hd : rd d ∈ operandUses i)
    (hr : some (d, val) = some (d', val')) (hv : ∀ j, f w (c.iss w i) j = val j) : WritesReg s i c w d' val' :=
  writesReg_active meaning hi he hm hd hr fun j _ _ => hv j

/-- A well-formed pair that an instruction writes is even, so that it is not v255, and none of its registers is the port's. -/
theorem writesPair {f : Weft → Iss → Nat → DWord} {val val' : Nat → DWord} (meaning : Result) (hi : Issuing s i c w)
    (he : exec i s = meaning) (hm : meaning = issue i (pairBody d f) s) (hd : pd d ∈ operandUses i) (even : evenReg d = true)
    (hr : some (d, val) = some (d', val')) (hv : ∀ j, f w (c.iss w i) j = val j) : WritesPair s i c w d' val' := by
  cases hr
  obtain ⟨free, free', hne⟩ := (loadsTo (wd := .b64) hi hd (.inr even)).pair
  obtain ⟨t, w', ht, done, written⟩ := pairBody_completes hi hne free free' f
  exact ⟨t, w', (he.trans hm).trans ht, done, funext hv ▸ written⟩

theorem evenReg_of_pairFlaw {rs : List Reg} (h : pairFlaw rs = none) (hd : d ∈ rs) : evenReg d = true :=
  List.all_eq_true.1 (firstFlaw_none h _ List.mem_cons_self) d hd

end

section
variable {s : State} {i : Instr} {c : Issue} {w : Weft} {d : Reg}

/-! ## Arithmetic, logic and shifts (R140 to R142) -/

theorem arithmetic_writes {val : Nat → Word} (hi : Issuing s i c w) (hr : arithmeticRule w i = some (d, val)) :
    WritesReg s i c w d val := by
  cases i
  case iadd h d a b m => exact writesReg (execIadd h d a b m s) hi rfl rfl List.mem_cons_self hr fun j => satResult_eq ..
  case isub h d a b m => exact writesReg (execIsub h d a b m s) hi rfl rfl List.mem_cons_self hr fun j => satResult_eq ..
  case imul h d a b =>
    exact writesReg (execImul h d a b s) hi rfl rfl List.mem_cons_self hr fun j => by simp only [wordOf_mul, wordOf_toNat]
  case imulh h d a b sg => exact writesReg (execImulh h d a b sg s) hi rfl rfl List.mem_cons_self hr fun j => mulHigh_eq ..
  case imad h d a b e =>
    exact writesReg (execImad h d a b e s) hi rfl rfl List.mem_cons_self hr fun j => by
      simp only [wordOf_add, wordOf_mul, wordOf_toNat]
  case idiv h d a b sg => exact writesReg (execIdiv h d a b sg s) hi rfl rfl List.mem_cons_self hr fun j => divWord_eq ..
  case irem h d a b sg => exact writesReg (execIrem h d a b sg s) hi rfl rfl List.mem_cons_self hr fun j => remWord_eq ..
  case imin h d a b sg => exact writesReg (execImin h d a b sg s) hi rfl rfl List.mem_cons_self hr fun j => minWord_eq ..
  case imax h d a b sg => exact writesReg (execImax h d a b sg s) hi rfl rfl List.mem_cons_self hr fun j => maxWord_eq ..
  case iabs h d a => exact writesReg (execIabs h d a s) hi rfl rfl List.mem_cons_self hr fun j => rfl
  case ineg h d a =>
    exact writesReg (execIneg h d a s) hi rfl rfl List.mem_cons_self hr fun j => by simp only [wordOf_neg, wordOf_toNat]
  all_goals cases hr

theorem logic_writes {val : Nat → Word} (hi : Issuing s i c w) (hr : logicRule c w i = some (d, val)) :
    WritesReg s i c w d val := by
  cases i
  case iand h d a b =>
    exact writesReg (execIand h d a b s) hi rfl rfl List.mem_cons_self hr fun j => eq_wordOfBits fun _ _ => BitVec.getLsbD_and
  case ior h d a b =>
    exact writesReg (execIor h d a b s) hi rfl rfl List.mem_cons_self hr fun j => eq_wordOfBits fun _ _ => BitVec.getLsbD_or
  case ixor h d a b =>
    exact writesReg (execIxor h d a b s) hi rfl rfl List.mem_cons_self hr fun j => eq_wordOfBits fun _ _ => BitVec.getLsbD_xor
  case inot h d a =>
    exact writesReg (execInot h d a s) hi rfl rfl List.mem_cons_self hr fun j => eq_wordOfBits fun _ hk => by
      simp [hk]
  case logic3 h d a b e t =>
    exact writesReg (execLogic3 h d a b e t s) hi rfl rfl List.mem_cons_self hr fun j => logic3Word_eq ..
  case shl h d a b => exact writesReg (execShl h d a b s) hi rfl rfl List.mem_cons_self hr fun j => shlWord_eq ..
  case shr h d a b => exact writesReg (execShr h d a b s) hi rfl rfl List.mem_cons_self hr fun j => shrWord_eq ..
  case sar h d a b => exact writesReg (execSar h d a b s) hi rfl rfl List.mem_cons_self hr fun j => sarWord_eq ..
  case rot h d a b => exact writesReg (execRot h d a b s) hi rfl rfl List.mem_cons_self hr fun j => rotWord_eq ..
  case popc h d a => exact writesReg (execPopc h d a s) hi rfl rfl List.mem_cons_self hr fun j => popcWord_eq _
  case clz h d a => exact writesReg (execClz h d a s) hi rfl rfl List.mem_cons_self hr fun j => clzWord_eq _
  case ctz h d a => exact writesReg (execCtz h d a s) hi rfl rfl List.mem_cons_self hr fun j => ctzWord_eq _
  case brev h d a => exact writesReg (execBrev h d a s) hi rfl rfl List.mem_cons_self hr fun j => maskOf_eq _
  all_goals cases hr

/-! ## Bit fields, comparison, selection and immediates (R140, R143, R144, R147) -/

theorem select_writes {val : Nat → Word} (hi : Issuing s i c w) (hr : selectRule w i = some (d, val)) :
    WritesReg s i c w d val := by
  cases i
  case bfx h d a b sg => exact writesReg (execBfx h d a b sg s) hi rfl rfl List.mem_cons_self hr fun j => bfxWord_eq ..
  case bfi h d a b e => exact writesReg (execBfi h d a b e s) hi rfl rfl List.mem_cons_self hr fun j => bfiWord_eq ..
  case icmp h d a b k sg => exact writesReg (execIcmp h d a b k sg s) hi rfl rfl List.mem_cons_self hr fun j => icmpWord_eq ..
  case sel h d a b e => exact writesReg (execSel h d a b e s) hi rfl rfl List.mem_cons_self hr fun j => rfl
  case mov h d a => exact writesReg (execMov h d a s) hi rfl rfl List.mem_cons_self hr fun j => rfl
  all_goals cases hr

theorem immediate_writes {val : Nat → Word} (hi : Issuing s i c w) (hr : immediateRule c w i = some (d, val)) :
    WritesReg s i c w d val := by
  cases i
  case iaddImm h d a k =>
    exact writesReg (execIaddImm h d a k s) hi rfl rfl List.mem_cons_self hr fun j => by
      simp only [wordOf_add, wordOf_toNat, sext28_eq]
  case imulImm h d a k =>
    exact writesReg (execImulImm h d a k s) hi rfl rfl List.mem_cons_self hr fun j => by
      simp only [wordOf_mul, wordOf_toNat, sext28_eq]
  case andImm h d a k =>
    exact writesReg (execAndImm h d a k s) hi rfl rfl List.mem_cons_self hr fun j => eq_wordOfBits fun _ _ => BitVec.getLsbD_and
  case orImm h d a k =>
    exact writesReg (execOrImm h d a k s) hi rfl rfl List.mem_cons_self hr fun j => eq_wordOfBits fun _ _ => BitVec.getLsbD_or
  case xorImm h d a k =>
    exact writesReg (execXorImm h d a k s) hi rfl rfl List.mem_cons_self hr fun j => eq_wordOfBits fun _ _ => BitVec.getLsbD_xor
  case shlImm h d a k => exact writesReg (execShlImm h d a k s) hi rfl rfl List.mem_cons_self hr fun j => shlWord_eq ..
  case shrImm h d a k => exact writesReg (execShrImm h d a k s) hi rfl rfl List.mem_cons_self hr fun j => shrWord_eq ..
  case sarImm h d a k => exact writesReg (execSarImm h d a k s) hi rfl rfl List.mem_cons_self hr fun j => sarWord_eq ..
  case rotImm h d a k => exact writesReg (execRotImm h d a k s) hi rfl rfl List.mem_cons_self hr fun j => rotWord_eq ..
  case movi h d k => exact writesReg (execMovi h d k s) hi rfl rfl List.mem_cons_self hr fun j => sext28_eq k
  case movhi h d a k => exact writesReg (execMovhi h d a k s) hi rfl rfl List.mem_cons_self hr fun j => movhiWord_eq ..
  all_goals cases hr

/-! ## Pairs (R145, R147) -/

theorem pair_writes {val : Nat → DWord} (hi : Issuing s i c w) (hf : i.flaw = none) (hr : pairRule w i = some (d, val)) :
    WritesPair s i c w d val := by
  cases i
  case iadd64 h d a b =>
    exact writesPair (execIadd64 h d a b s) hi rfl rfl List.mem_cons_self (evenReg_of_pairFlaw hf List.mem_cons_self) hr
      fun j => iadd64_eq ..
  case imad64 h d a b e sg =>
    exact writesPair (execImad64 h d a b e sg s) hi rfl rfl List.mem_cons_self (evenReg_of_pairFlaw hf List.mem_cons_self) hr
      fun j => mad64_eq ..
  case shl64 h d a b =>
    exact writesPair (execShl64 h d a b s) hi rfl rfl List.mem_cons_self (evenReg_of_pairFlaw hf List.mem_cons_self) hr
      fun j => congrArg (fun v => if (w.lane b j).toNat ≥ 64 then 0 else v) (shl64_eq ..)
  case lea h d a k =>
    exact writesPair (execLea h d a k s) hi rfl rfl List.mem_cons_self (evenReg_of_pairFlaw hf List.mem_cons_self) hr
      fun j => lea_eq ..
  all_goals cases hr

/-! ## Lane exchange (R149 to R154) -/

theorem ballotMask_eq (w : Weft) (a : Reg) (act : Word) : ballotMask w a act = ballotOf w a act :=
  eq_wordOfBits fun k hk => by rw [ballotMask, BitVec.getLsbD_and, getLsbD_maskOf _ hk]

theorem voteWord_any (b act : Word) : voteWord .any b act = if b ≠ 0 then 1 else 0 := by
  simp [voteWord, ofBool32]

theorem voteWord_all (b act : Word) : voteWord .all b act = if b = act then 1 else 0 := by
  simp [voteWord, ofBool32]

theorem voteWord_eq (b act : Word) : voteWord .eq b act = if b = 0 ∨ b = act then 1 else 0 := by
  simp [voteWord, ofBool32]

theorem prefixSum_eq (w : Weft) (a : Reg) (act : Word) (j : Nat) :
    prefixSum w a act j = wordOf ((activeBelow act j).map fun k => (w.lane a k).toNat).sum := by
  have sum (ls : List Nat) : ls.foldl (fun acc k => acc + w.lane a k) 0 = wordOf (ls.map fun k => (w.lane a k).toNat).sum := by
    induction ls using List.reverseRecOn with
    | nil => rfl
    | append_singleton t k ih =>
      rw [List.foldl_append, List.foldl_cons, List.foldl_nil, ih, List.map_append, List.sum_append]
      simp [wordOf_add, wordOf_toNat]
  exact sum _

/-- Where a lane is active, lane L is the lowest active one (R57). -/
theorem lowestActive_of_active {act : Word} {j : Nat} (hj : j < 32) (ha : act.getLsbD j = true) :
    lowestActive act = some (lowestLane act) := by
  cases hf : lowestActive act with
  | none => exact absurd ha (List.find?_eq_none.1 hf j (List.mem_range.2 hj))
  | some k => exact congrArg some (congrArg (·.getD 0) hf).symm

theorem lane_writes {val : Nat → Word} (hi : Issuing s i c w) (hr : laneRule c w i = some (d, val)) :
    WritesReg s i c w d val := by
  cases i
  case shfl h d a b m =>
    exact writesReg (execShfl h d a b m s) hi rfl rfl List.mem_cons_self hr fun j => by cases m <;> rfl
  case ballot h d a => exact writesReg (execBallot h d a s) hi rfl rfl List.mem_cons_self hr fun j => ballotMask_eq ..
  case vote h d a m =>
    refine writesReg (execVote h d a m s) hi rfl rfl List.mem_cons_self hr fun j => ?_
    rw [ballotMask_eq]
    cases m with
    | any => exact voteWord_any ..
    | all => exact voteWord_all ..
    | eq => exact voteWord_eq ..
  case lprefix h d a => exact writesReg (execLprefix h d a s) hi rfl rfl List.mem_cons_self hr fun j => prefixSum_eq ..
  case bcast h d a b => exact writesReg (execBcast h d a b s) hi rfl rfl List.mem_cons_self hr fun j => rfl
  case elect h d =>
    refine writesReg_active (execElect h d s) hi rfl rfl List.mem_cons_self hr fun j hj ha => ?_
    rw [lowestActive_of_active hj ha]
    simp [ofBool32, Issue.iss, @eq_comm Nat j]
  all_goals cases hr

end

/-! ## The statements -/

/-- Settles O7: each of the instructions runs the register body, with the word of its rule. -/
theorem integerArithmetic : Obligations.IntegerArithmetic :=
  ⟨fun _ _ _ _ _ _ hi hr => arithmetic_writes hi hr, fun _ _ _ _ _ _ hi hr => logic_writes hi hr⟩

/-- Settles O8: as O7, of the bit fields, comparison, selection and the immediate forms. -/
theorem selectionAndImmediates : Obligations.SelectionAndImmediates :=
  ⟨fun _ _ _ _ _ _ hi hr => select_writes hi hr, fun _ _ _ _ _ _ hi hr => immediate_writes hi hr⟩

/-- Settles O9: each of the pair forms runs the body that writes a pair, with the sum or product of its rule. -/
theorem pairForms : Obligations.PairForms := fun _ _ _ _ _ _ hi hf hr => pair_writes hi hf hr

/-- Settles O11: as O7, of lane exchange; elect's word is that of its rule in the active lanes. -/
theorem laneExchange : Obligations.LaneExchange := fun _ _ _ _ _ _ hi hr => lane_writes hi hr

end Sys2Proof.Rules
end

section
/-! PROOFS. Control transfers, breakpoints and the register allotment (R155 to R166, R434). -/

namespace Sys2Proof.Rules

open Sys2Proof.Machine

/-! ## Targets (R156) -/

theorem branchTarget_eq (c : Issue) (off : BitVec 16) : branchTarget c.pc off = relativeTarget c off := by
  have scaled : off.signExtend 64 <<< 3 = BitVec.ofInt 64 (8 * off.toInt) := by
    rw [BitVec.ofInt_mul, ← signExtend_eq_ofInt, BitVec.mul_comm, BitVec.shiftLeft_eq_mul_twoPow]
    rfl
  rw [branchTarget, relativeTarget, BitVec.ofInt_add, BitVec.ofInt_natCast, BitVec.ofNat_toNat, BitVec.setWidth_eq, scaled]

theorem pairTarget_eq (w : Weft) (a : Reg) (j : Nat) : pairTarget (w.pair a j) = pairTargetOf w a j := by
  unfold pairTarget pairTargetOf
  generalize w.pair a j = x
  refine BitVec.eq_of_getLsbD_eq fun k hk => ?_
  have ignored : (7#64).getLsbD k = decide (k < 3) := Nat.testBit_two_pow_sub_one 3 k
  have kept : (BitVec.ofNat 64 (x.toNat / 8 * 8)).getLsbD k = (decide (3 ≤ k) && x.getLsbD k) := by
    rw [BitVec.getLsbD_ofNat, show 8 = 2 ^ 3 from rfl, ← Nat.shiftRight_eq_div_pow, ← Nat.shiftLeft_eq, Nat.testBit_shiftLeft,
      Nat.testBit_shiftRight]
    by_cases high : 3 ≤ k
    · simp [high, hk, BitVec.getLsbD]
    · simp [high]
  rw [BitVec.getLsbD_and, BitVec.getLsbD_not, ignored, kept]
  by_cases high : 3 ≤ k
  · simp [high, hk, Nat.not_lt.2 high]
  · simp [high, Nat.not_le.1 high]

theorem takenLanes_eq (w : Weft) (a : Reg) (act : Word) :
    (act &&& maskOf fun j => (w.lane a j).getLsbD 0) = takenLanes w a act := ballotMask_eq w a act

/-! ## The entries of a transfer (R155) -/

section
variable {s : State} {c : Issue} {w : Weft} {i : Instr} {d : Reg} {es es' : List Entry}

/-- The entry of lanes that go to a target. -/
def targetEntry (c : Issue) (p : BitVec 12) (target : DWord) (m : Word) : Entry :=
  { pc := target, prio := priorityOf c p, mask := m, age := 0 }

theorem transferTo_eq (taken : Word) (off : BitVec 16) (p : BitVec 12) :
    transferTo (c.iss w i) taken (branchTarget c.pc off) p
      = [targetEntry c p (relativeTarget c off) taken, fallingEntry c taken] := by
  rw [branchTarget_eq]
  rfl

theorem transferEach_eq (a : Reg) (p : BitVec 12) :
    transferEach (c.iss w i) (fun j => pairTarget (w.pair a j)) p
      = (((List.range 32).filter fun j => (c.act w i).getLsbD j).map fun j =>
          targetEntry c p (pairTargetOf w a j) (oneLane j)) ++ [fallingEntry c (c.act w i)] := by
  simp only [pairTarget_eq]
  rfl

/-- An instruction whose body forms the entries of its rule replaces its own by them. -/
theorem transfersBy (meaning : Result) {body : Iss → State → Effect} {es'' : List Entry} (hi : Issuing s i c w)
    (he : exec i s = meaning) (hm : meaning = issue i body s) (hb : body (c.iss w i) s = .jump s es)
    (hr : some es' = some es'') (hes : es = es') : Transfers s i c w es'' := by
  cases hr
  cases hes
  exact transfers hi (he.trans hm) hb

/-- As `transfersBy`, of a body that writes the link to a pair first (R157). -/
theorem transfersLinkedBy (meaning : Result) {body : Iss → State → Effect} {es'' : List Entry} (hi : Issuing s i c w)
    (he : exec i s = meaning) (hm : meaning = issue i body s)
    (hb : body (c.iss w i) s = .jump (s.link (c.iss w i) d) es) (hd : pd d ∈ operandUses i) (even : evenReg d = true)
    (hr : some es' = some es'') (hes : es = es') : TransfersLinked s i c w es'' d := by
  cases hr
  cases hes
  obtain ⟨free, free', hne⟩ := (loadsTo (wd := .b64) hi hd (.inr even)).pair
  obtain ⟨rest, written⟩ := Weft.writePairs_spec free free' (c.act w i) hne fun _ => c.pc + 8
  obtain ⟨w', done, regs, port⟩ := (OnlyLanes.setWeft s c.loom c.slot rest).jumped hi rfl es
  refine ⟨_, w', ?_, done, fun r j hj => (Weft.lane_congr regs port r j).trans (written r j hj)⟩
  rw [he, hm, issue_eq hi, hb, State.link, State.modWeft_eq (l := (c.iss w i).l) (k := (c.iss w i).k) _ hi.weft]
  rfl

theorem transfer_replaces (hi : Issuing s i c w) (hl : linkOf i = none) (hr : transferRule c w i = some es) :
    Transfers s i c w es := by
  cases i
  case br h p off => exact transfersBy (execBr h p off s) hi rfl rfl rfl hr (transferTo_eq ..)
  case brc h a p off =>
    refine transfersBy (execBrc h a p off s) hi rfl rfl rfl hr ((transferTo_eq ..).trans ?_)
    rw [← takenLanes_eq]
    rfl
  case jmp h d a p =>
    have unlinked : d = 255 := by simpa [linkOf] using hl
    exact transfersBy (execJmp h d a p s) hi rfl rfl (congrArg (Effect.jump · _) (if_pos unlinked)) hr (transferEach_eq ..)
  case call h d p off => cases hl
  case ret h a p => exact transfersBy (execRet h a p s) hi rfl rfl rfl hr (transferEach_eq ..)
  case prio p => exact transfersBy (execPrio p s) hi rfl rfl rfl hr rfl
  case exit h => exact transfersBy (execExit h s) hi rfl rfl rfl hr rfl
  all_goals cases hr

theorem transfer_links (hi : Issuing s i c w) (hf : i.flaw = none) (hl : linkOf i = some d)
    (hr : transferRule c w i = some es) : TransfersLinked s i c w es d := by
  cases i
  case call h q p off =>
    cases hl
    exact transfersLinkedBy (execCall h d p off s) hi rfl rfl rfl List.mem_cons_self
      (evenReg_of_pairFlaw hf List.mem_cons_self) hr (transferTo_eq ..)
  case jmp h q a p =>
    obtain ⟨linked, rfl⟩ : q ≠ 255 ∧ q = d := by simpa [linkOf] using hl
    have even : evenReg q = true := by
      have pairs : (evenReg a && (q == 255 || evenReg q)) = true := firstFlaw_none hf _ List.mem_cons_self
      exact (Bool.or_eq_true_iff.1 (Bool.and_eq_true_iff.1 pairs).2).resolve_left (by simpa using linked)
    have dest : pd q ∈ operandUses (.jmp h q a p) := by
      rw [show operandUses (.jmp h q a p) = [pd q, ps a] from if_neg linked]
      exact List.mem_cons_self
    exact transfersLinkedBy (execJmp h q a p s) hi rfl rfl (congrArg (Effect.jump · _) (if_neg linked)) dest even hr
      (transferEach_eq ..)
  all_goals cases hl

end

/-- Settles O12: each transfer's body forms the entries of its rule; call, and jmp with a link, write the link first. -/
theorem controlTransfers : Obligations.ControlTransfers :=
  ⟨fun _ _ _ _ _ hi hl hr => transfer_replaces hi hl hr, fun _ _ _ _ _ _ hi hf hl hr => transfer_links hi hf hl hr⟩

/-! ## Breakpoints (R163, R434) -/

section
variable {s : State} {c : Issue} {w : Weft} {i : Instr}

/-- With a lane active, the lowest of them is lane L (R57). -/
theorem lowestActive_of_ne_zero {act : Word} (h : act ≠ 0) : lowestActive act = some (lowestLane act) := by
  by_contra none
  refine h (BitVec.eq_of_getLsbD_eq fun j hj => ?_)
  have inactive : act.getLsbD j ≠ true := fun ha => none (lowestActive_of_active hj ha)
  simpa using inactive

/-- The two instructions differ in the cause that they raise alone. -/
theorem breakpoint_raises {cause code : Nat} (hi : Issuing s i c w)
    (he : exec i s = issue i (macroBody fun x s => .after s { cause := cause, code := code, lane := some x.lane }) s) :
    (c.act w i = 0 → WritesNothing s i c w)
    ∧ (c.act w i ≠ 0 → ∃ t w' lane, lowestActive (c.act w i) = some lane ∧ Completed s t c w w' 0 ∧ w'.regs = w.regs
        ∧ exec i s = .next (t.raise c.loom c.slot c.pc lane { cause := cause, code := code, lane := some lane })) := by
  refine ⟨macro_idle hi he, fun hn => ?_⟩
  obtain ⟨w', done, regs, -⟩ := (onlyLanes_refl hi.weft).completed hi rfl 0
  refine ⟨_, w', lowestLane (c.act w i), lowestActive_of_ne_zero hn, done, regs, ?_⟩
  have at_ : faultLane c.mask (c.act w i) = lowestLane (c.act w i) := if_neg hn
  rw [he, issue_eq hi, macro_active hn]
  exact congrArg (fun l => Host.Outcome.next (State.raise _ c.loom c.slot c.pc l _)) at_

end

/-- Settles O15: both run one body, and lane L is the lowest active lane. -/
theorem breakpoints : Obligations.Breakpoints := by
  intro s c w h code i cause hc hi
  obtain ⟨rfl, rfl⟩ | ⟨rfl, rfl⟩ := hc
  · exact breakpoint_raises hi (show _ = execBrk h code s from rfl)
  · exact breakpoint_raises hi (show _ = execTrap h code s from rfl)

/-! ## The allotment (R164 to R166) -/

section
variable {s : State} {c : Issue} {w : Weft} {h : Guard} {n : BitVec 8}

/-- With a lane active, such an instruction issues the body that it guards (R57). -/
theorem macro_runs {i : Instr} {run : Iss → State → Effect} (hi : Issuing s i c w)
    (he : exec i s = issue i (macroBody run) s) (hn : c.act w i ≠ 0) : exec i s = issue i run s :=
  exec_eq_of_body hi he (if_neg hn)

/-- Of two wefts alike but for their registers, a new allotment makes two more. -/
theorem sameButRegs_allot {v w : Weft} (h : w.SameButRegs v) (n : Nat) :
    ({ w with allot := n } : Weft).SameButRegs { v with allot := n } := by
  unfold Weft.SameButRegs
  rw [h]

/-- vgrow waits for its blocks unless it needs none, or no other weft waits before it and they are free (R165). -/
theorem vgrow_cases {d : Reg} (hi : Issuing s (.vgrow h d n) c w) :
    let i : Instr := .vgrow h d n
    let need := blocksOf n.toNat - blocksOf w.allot
    let others := (s.loom c.loom).growers.filter (· != c.slot)
    let granted : Prop := need = 0 ∨ others = [] ∧ need ≤ (s.loom c.loom).freeBlocks
    (c.act w i = 0 → WritesNothing s i c w)
    ∧ (c.act w i ≠ 0 → n.toNat < w.allot → Traps s i c w { cause := 0x02 })
    ∧ (c.act w i ≠ 0 → w.allot ≤ n.toNat → granted →
        CompletesAs s i c (s.setWeft c.loom c.slot { w with allot := n.toNat }) { w with allot := n.toNat } 0 (c.act w i) d
          fun _ => 0)
    ∧ (c.act w i ≠ 0 → w.allot ≤ n.toNat → ¬ granted →
        exec i s = .next ((s.modLoom c.loom fun y => { y with growers := others ++ [c.slot] }).setWeft c.loom c.slot
          ({ w with wait := .vgrow c.pc c.mask d n.toNat (c.act w i) s.clock } : Weft))) := by
  intro i need others granted
  have he : exec i s = execVgrow h d n s := rfl
  unfold execVgrow at he
  have runs (hn : c.act w i ≠ 0) := macro_runs hi he hn
  refine ⟨macro_idle hi he, fun hn less => traps hi (runs hn) (if_pos less), fun hn enough now => ?_, fun hn enough later => ?_⟩
  · obtain ⟨rest, written⟩ := Weft.writeLanes_spec (destFree hi List.mem_cons_self) (c.act w i) fun _ => 0
    refine completesAs hi (runs hn) ((if_neg (Nat.not_lt.2 enough)).trans ((if_pos now).trans
        (congrArg Effect.ok (State.modWeft_eq _ hi.weft)))) rfl (State.weft?_setWeft ..)
      (onlyLanes_setWeft_setWeft s c.loom c.slot (sameButRegs_allot rest n.toNat)) written
  · have kept (f : Loom → Loom) (hf : (f (s.loom c.loom)).wefts = (s.loom c.loom).wefts) :=
      (State.weft?_modLoom s c.loom c.slot f hf).trans hi.weft
    have begins := (runs hn).trans ((issue_eq hi _).trans
      (congrArg (Effect.outcome s (c.iss w i) i) ((if_neg (Nat.not_lt.2 enough)).trans (if_neg later))))
    exact begins.trans (congrArg Host.Outcome.next (State.modWeft_eq _ (kept _ rfl)))

/-- vshrink traps, or waits while a register that it would discard is pending, or discards them (R166). -/
theorem vshrink_cases (hi : Issuing s (.vshrink h n) c w) :
    let i : Instr := .vshrink h n
    let waits : Prop := ∃ r ∈ s.pending c.loom c.slot, n.toNat ≤ r.toNat ∧ r.toNat < w.allot
    let barred : Prop := w.allot < n.toNat ∨ portAtOrAbove w n.toNat = true
    (c.act w i = 0 → WritesNothing s i c w)
    ∧ (c.act w i ≠ 0 → barred → Traps s i c w { cause := 0x02 })
    ∧ (c.act w i ≠ 0 → ¬ barred → waits → Holds s i)
    ∧ (c.act w i ≠ 0 → ¬ barred → ¬ waits → n.toNat < w.allot →
        CompletesAs s i c (s.setWeft c.loom c.slot (w.shrink n.toNat)) (w.shrink n.toNat) 0 0 255 fun _ => 0)
    ∧ (c.act w i ≠ 0 → ¬ barred → n.toNat = w.allot → WritesNothing s i c w) := by
  intro i waits barred
  have he : exec i s = execVshrink h n s := rfl
  unfold execVshrink at he
  have barred_iff : (decide (n.toNat > w.allot) || portAtOrAbove w n.toNat) = true ↔ barred := by simp [barred]
  have waits_iff : ((s.pending c.loom c.slot).any fun r => decide (n.toNat ≤ r.toNat) && decide (r.toNat < w.allot)) = true
      ↔ waits := by simp [waits]
  have runs (hn : c.act w i ≠ 0) := macro_runs hi he hn
  refine ⟨macro_idle hi he, fun hn hb => traps hi (runs hn) (if_pos (barred_iff.2 hb)), fun hn hb hw => holds hi (runs hn)
    ((if_neg (mt barred_iff.1 hb)).trans (if_pos (waits_iff.2 hw))), fun hn hb hw less => ?_, fun hn hb same => ?_⟩
  · exact does hi (runs hn) ((if_neg (mt barred_iff.1 hb)).trans ((if_neg (mt waits_iff.1 hw)).trans ((if_neg less.ne).trans
      (congrArg Effect.ok (State.modWeft_eq _ hi.weft))))) (State.weft?_setWeft ..) rfl
  · have none : ¬ waits := fun ⟨r, _, low, high⟩ => by omega
    exact writesNothing hi (runs hn) ((if_neg (mt barred_iff.1 hb)).trans ((if_neg (mt waits_iff.1 none)).trans (if_pos same)))

end

/-- Settles O16: each clause is a branch of the instruction's body. -/
theorem allotment : Obligations.Allotment :=
  ⟨fun _ _ _ _ _ _ hi => vgrow_cases hi, fun _ _ _ _ _ hi => vshrink_cases hi⟩

end Sys2Proof.Rules
end

section
/-! SUPPORT. The issue of slot-named arithmetic: what an instruction that appends conversion records leaves, and the flags of a
list of elements (R77, R84 to R86, R168, R170). -/

namespace Sys2Proof.Machine

/-! ## Conversion records are stores of the device (R85, R86, R338) -/

theorem State.storeDev_books (s : State) (l : Nat) (bs : List (Spot × Byte)) : KeepsLooms Loom.books s (s.storeDev l bs) :=
  (KeepsLooms.foldl (fun s (p : Spot × Byte) => State.writeSpot_books s l p.2 p.1) _ s).trans
    (KeepsLooms.of_looms (State.wholeUnits_looms ..))

theorem State.convRecord_books (s : State) (ctx : Nat) (r : ConvRec) : KeepsLooms Loom.books s (s.convRecord ctx r) := by
  unfold State.convRecord
  split
  · exact .refl s
  · exact (KeepsLooms.ite ((State.storeSpots_books ..).trans (State.storeDev_books ..)) (State.storeDev_books ..)).trans
      (State.storeDev_books ..)

theorem State.weft?_convRecords (s : State) (ctx : Nat) (rs : List ConvRec) (l k : Nat) :
    (s.convRecords ctx rs).weft? l k = s.weft? l k :=
  State.weft?_of_books (KeepsLooms.foldl (fun s r => State.convRecord_books s ctx r) rs s) l k

/-- The records of a vector instruction go to memory at once, or wait in their weft where it has earlier ones that do (R86). -/
theorem State.weft?_vectorRecords {s : State} {l k : Nat} {w : Weft} (hw : s.weft? l k = some w) (ctx : Nat)
    (rs : List ConvRec) :
    ∃ w2, w2 = { w with recQ := w2.recQ } ∧ (w.recQ = [] → w2 = w) ∧ (s.vectorRecords l k ctx rs).weft? l k = some w2 := by
  unfold State.vectorRecords
  simp only [hw]
  split
  · exact ⟨w, rfl, fun _ => rfl, (State.weft?_convRecords ..).trans hw⟩
  · next later =>
    refine ⟨_, rfl, fun none => ?_, State.weft?_setWeft ..⟩
    simp [none] at later

/-- Completion appends its records before all else. -/
theorem State.complete_records (s : State) (x : Iss) (i : Instr) (fl : BitVec 6) (recs : List LaneRec) (upd : Weft → Weft) :
    s.complete x i fl recs upd = (s.vectorRecords x.l x.k x.w.ctx (laneRecords x recs)).complete x i fl [] upd := by
  unfold State.complete
  simp only [laneRecords, List.map_nil, State.vectorRecords_nil]

theorem Weft.SameButRegs.team {w v : Weft} (h : w.SameButRegs v) : v.team = w.team := by rw [h]

theorem Weft.SameButRegs.ctx {w v : Weft} (h : w.SameButRegs v) : v.ctx = w.ctx := by rw [h]

end Sys2Proof.Machine

namespace Sys2Proof.Rules

open Sys2Proof.Machine

/-! ## Flags of a list -/

section
variable {α β : Type} (f g : α → BitVec 6) (as bs : List α)

/-- The flags that any element of a list sets. -/
def flagsOver : BitVec 6 := as.foldr (fun a fl => f a ||| fl) 0

theorem foldl_or (fl : BitVec 6) : as.foldl (fun fl a => fl ||| f a) fl = fl ||| flagsOver f as := by
  induction as generalizing fl with
  | nil => simp [flagsOver]
  | cons a as ih => rw [List.foldl_cons, ih, BitVec.or_assoc]; rfl

theorem foldl_or_zero : as.foldl (fun fl a => fl ||| f a) 0 = flagsOver f as := (foldl_or f as 0).trans BitVec.zero_or

@[simp] theorem flagsOver_nil : flagsOver f [] = 0 := rfl

@[simp] theorem flagsOver_cons (a : α) : flagsOver f (a :: as) = f a ||| flagsOver f as := rfl

theorem flagsOver_append : flagsOver f (as ++ bs) = flagsOver f as ||| flagsOver f bs := by
  induction as with
  | nil => simp
  | cons a as ih => rw [List.cons_append, flagsOver_cons, flagsOver_cons, ih, BitVec.or_assoc]

theorem flagsOver_map (h : β → α) (cs : List β) : flagsOver f (cs.map h) = flagsOver (fun b => f (h b)) cs := List.foldr_map

theorem flagsOver_flatMap (h : β → List α) (cs : List β) : flagsOver f (cs.flatMap h) = flagsOver (fun b => flagsOver f (h b)) cs := by
  induction cs with
  | nil => rfl
  | cons b cs ih => rw [List.flatMap_cons, flagsOver_append, flagsOver_cons, ih]

theorem flagsOver_or : flagsOver (fun a => f a ||| g a) as = flagsOver f as ||| flagsOver g as := by
  induction as with
  | nil => simp
  | cons a as ih =>
    rw [flagsOver_cons, flagsOver_cons, flagsOver_cons, ih]
    ac_rfl

theorem flagsOver_zero : flagsOver (fun _ : α => 0) as = 0 := by
  induction as with
  | nil => rfl
  | cons a as ih => rw [flagsOver_cons, ih]; rfl

/-- A flag that each element sets on a condition is set where some element meets it. -/
theorem flagsOver_ite (p : α → Bool) (fl : BitVec 6) : flagsOver (fun a => if p a then fl else 0) as = if as.any p then fl else 0 := by
  induction as with
  | nil => rfl
  | cons a as ih =>
    rw [flagsOver_cons, ih, List.any_cons]
    generalize as.any p = later
    cases p a <;> cases later <;> simp

end

/-- The NV of the signalling NaNs read (R71, R77). -/
theorem flagsOver_readFlags (xs : List Machine.Num) :
    flagsOver Num.readFlags xs = if xs.any fun x => x = .nan true then NV else 0 := by
  rw [← flagsOver_ite]
  refine congrArg (flagsOver · xs) (funext fun x => ?_)
  obtain (_ | _) | _ | _ := x <;> rfl

theorem roundOf_eq (f : Fmt) (v : Machine.Num × BitVec 6) (read : List Machine.Num) :
    roundOf f v read = (f.round v.1 false).add (v.2 ||| flagsOver Num.readFlags read) := by
  simp only [roundOf, Rounded.add, flagsOver_readFlags, BitVec.or_assoc]

theorem flagsOf_eq (rs : List Rounded) : flagsOf rs = flagsOver Rounded.flags rs := foldl_or_zero ..

/-! ## What such an instruction leaves -/

section
variable {s s1 : State} {i : Instr} {c : Issue} {w w1 : Weft} {body : Iss → State → Effect} {d : Reg} {fl : BitVec 6}

/-- A body that comes to `s1` and appends records. -/
theorem appendsRecords {recs : List LaneRec} (hi : Issuing s i c w) (he : exec i s = issue i body s)
    (hb : body (c.iss w i) s = .done s1 fl recs) (hw : s1.weft? c.loom c.slot = some w1) (ht : w1.team = w.team)
    (hc : w1.ctx = w.ctx) : Records s i c s1 w1 (laneRecords (c.iss w i) recs) fl := by
  obtain ⟨w2, rest, same, found⟩ := State.weft?_vectorRecords hw w1.ctx (laneRecords (c.iss w i) recs)
  have team : w2.team = w.team := by rw [rest]; exact ht
  obtain ⟨w', done, regs, port⟩ := (onlyLanes_refl found).completed hi team fl
  refine ⟨w2, rest, same, found, _, w', ?_, done, fun r j _ => ?_⟩
  · rw [he, issue_eq hi, hb, hc]
    exact congrArg Host.Outcome.next (State.complete_records ..)
  · exact (Weft.lane_congr regs port r j).trans (if_neg fun hn => hn.2.1 rfl).symm

/-- The effect of writing each active lane's result. -/
theorem slotEffect_eq (x : Iss) (s : State) (d : Reg) (out : Nat → LaneOut) :
    slotEffect x s d out = .done (s.modWeft x.l x.k fun w => w.writeLanes x.act d fun j => (out j).word)
      (flagsOver (fun j => (out j).flags) (lanesOf x.act))
      ((lanesOf x.act).flatMap fun j => (out j).recs.map fun r => { lane := j, element := r.1, code := r.2 }) := by
  simp only [slotEffect, List.foldl_map, List.flatMap_map, foldl_or_zero]
  rfl

/-- THE ELEMENT RULE of an instruction whose lanes are packed results (R168, R170). -/
theorem writesElements {width : Nat} {g : Nat → List Rounded} (hi : Issuing s i c w) (he : exec i s = issue i body s)
    (hb : body (c.iss w i) s = slotEffect (c.iss w i) s d fun j => packOut width (g j)) (hd : rd d ∈ operandUses i) :
    WritesElements s i c w width d g := by
  obtain ⟨rest, written⟩ :=
    Weft.writeLanes_spec (destFree hi hd) (c.act w i) fun j => packLane width ((g j).map (·.bits))
  refine ⟨_, rest, written, ?_⟩
  have flags : flagsOver (fun j => (packOut width (g j)).flags) (lanesOf (c.act w i))
      = flagsOf ((lanesOf (c.act w i)).flatMap g) := by
    rw [flagsOf_eq, flagsOver_flatMap]
    exact congrArg (flagsOver · _) (funext fun j => flagsOf_eq (g j))
  have recs : laneRecords (c.iss w i) ((lanesOf (c.act w i)).flatMap fun j =>
        (packOut width (g j)).recs.map fun r => { lane := j, element := r.1, code := r.2 })
      = (lanesOf (c.act w i)).flatMap fun j => (g j).zipIdx.filterMap fun p => p.1.record.map fun code =>
          { pc := c.pc, slot := c.slot, lane := j, engine := false, loom := c.loom, code := code, element := p.2 } := by
    simp only [laneRecords, packOut, List.map_flatMap, List.map_filterMap, Option.map_map]
    rfl
  have effect := hb.trans (slotEffect_eq ..)
  rw [State.modWeft_eq (l := (c.iss w i).l) (k := (c.iss w i).k) _ hi.weft] at effect
  have appended := appendsRecords hi he effect (State.weft?_setWeft ..) rest.team rest.ctx
  exact flags ▸ recs ▸ appended

/-- An instruction whose lanes' results are words without records. -/
theorem writesWords {out : Nat → LaneOut} (hi : Issuing s i c w) (he : exec i s = issue i body s)
    (hb : body (c.iss w i) s = slotEffect (c.iss w i) s d out) (hn : ∀ j, (out j).recs = []) (hd : rd d ∈ operandUses i) :
    CompletesAs s i c s w (flagsOver (fun j => (out j).flags) (activeLanes (c.act w i))) (c.act w i) d fun j => (out j).word := by
  obtain ⟨rest, written⟩ := Weft.writeLanes_spec (destFree hi hd) (c.act w i) fun j => (out j).word
  refine completesAs hi he ?_ rfl hi.weft (OnlyLanes.setWeft s _ _ rest) written
  rw [hb, slotEffect_eq, State.modWeft_eq (l := (c.iss w i).l) (k := (c.iss w i).k) _ hi.weft]
  exact congrArg (Effect.done _ _) (List.flatMap_eq_nil_iff.2 fun j _ => by rw [hn, List.map_nil])

end

end Sys2Proof.Rules
end

section
/-! SUPPORT. The results of slot-named arithmetic: the machine's element functions are those of R168 to R183. -/

namespace Sys2Proof.Machine

/-! ## Comparison of values (R177) -/

/-- Both comparisons go by the leading places first, and by the mantissas at one exponent where those agree. -/
theorem gtScaled_asymm {m n : Nat} {e k : Int} (h : gtScaled m e n k = true) : gtScaled n k m e = false := by
  unfold gtScaled at h ⊢
  split_ifs at h ⊢ <;> simp_all <;> omega

theorem ltNum_asymm {x y : Num} (h : ltNum x y = true) : ltNum y x = false := by
  cases x with
  | nan q => cases h
  | inf a =>
    cases y with
    | nan q => cases h
    | inf b => cases a <;> simp_all [ltNum]
    | fin b m k => simpa [ltNum] using h
  | fin a m e =>
    cases y with
    | nan q => cases h
    | inf b => simpa [ltNum] using h
    | fin b n k =>
      unfold ltNum at h ⊢
      dsimp only at h ⊢
      generalize (a && m != 0) = p at h ⊢
      generalize (b && n != 0) = q at h ⊢
      cases p <;> cases q <;> simp_all [gtScaled_asymm]

theorem ltNum_of_nan {x y : Num} (h : (x.isNan || y.isNan) = true) : ltNum x y = false := by
  cases x <;> cases y <;> simp_all [Num.isNan, ltNum]

/-- Of two numbers, one is not below the other where it is above it or equal. -/
theorem not_ltNum {x y : Num} (h : (x.isNan || y.isNan) = false) : (!ltNum y x) = (ltNum x y || eqNum x y) := by
  obtain ⟨hx, hy⟩ := Bool.or_eq_false_iff.1 h
  unfold eqNum
  rw [hx, hy]
  cases hl : ltNum x y with
  | true => simp [ltNum_asymm hl]
  | false => simp

theorem eqNum_of_nan {x y : Num} (h : (x.isNan || y.isNan) = true) : eqNum x y = false := by
  unfold eqNum
  obtain hx | hy := Bool.or_eq_true_iff.1 h
  · simp [hx]
  · simp [hy]

theorem eqNum_comm (x y : Num) : eqNum x y = eqNum y x := by
  unfold eqNum
  cases x.isNan <;> cases y.isNan <;> cases ltNum x y <;> cases ltNum y x <;> rfl

end Sys2Proof.Machine

namespace Sys2Proof.Rules

open Sys2Proof.Machine

/-- The NV of a comparison that only a signalling NaN raises, and of one that any NaN raises. -/
theorem readFlags_or (x y : Machine.Num) :
    x.readFlags ||| y.readFlags = if x = .nan true ∨ y = .nan true then NV else 0 := by
  have h := flagsOver_readFlags [x, y]
  simpa using h

theorem ne_nan_of_isNan {x : Machine.Num} (h : x.isNan = false) (q : Bool) : x ≠ .nan q := by
  rintro rfl
  cases h

/-- The machine's comparison is that of R177. -/
theorem fcmpNum_eq (k : FCond) (x y : Machine.Num) :
    fcmpNum k x y = ((comparison k x y).1, if (comparison k x y).2 then NV else 0) := by
  have quiet := readFlags_or x y
  cases hn : x.isNan || y.isNan with
  | true =>
    have lt := ltNum_of_nan hn
    have gt := ltNum_of_nan ((Bool.or_comm ..).trans hn)
    have eq := eqNum_of_nan hn
    cases k <;> simp [fcmpNum, comparison, hn, lt, gt, eq, quiet]
  | false =>
    obtain ⟨hx, hy⟩ := Bool.or_eq_false_iff.1 hn
    have ge := not_ltNum hn
    have le := not_ltNum ((Bool.or_comm ..).trans hn)
    rw [eqNum_comm] at le
    cases k <;> simp [fcmpNum, comparison, hn, ge, le, quiet, ne_nan_of_isNan hx, ne_nan_of_isNan hy]

end Sys2Proof.Rules
end

section
/-! PROOFS. Slot-named arithmetic: each instruction gives the results of its rule, or a format fault (R168 to R186). -/

namespace Sys2Proof.Rules

open Sys2Proof.Machine

/-! ## Element functions (R173 to R175) -/

section
variable (f : Fmt) (x y z : Machine.Num)

theorem addOut_eq : addOut f x y = roundOf f (sumNums f.rdn [x, y]) [x, y] := by
  simp [addOut, roundOf_eq, BitVec.or_assoc]

theorem subOut_eq : subOut f x y = roundOf f (sumNums f.rdn [x, y.neg]) [x, y] := by
  have same : y.neg.readFlags = y.readFlags := by cases y <;> rfl
  simp [subOut, addOut, roundOf_eq, BitVec.or_assoc, same]

theorem mulOut_eq : mulOut f x y = roundOf f (mulNum x y) [x, y] := by simp [mulOut, roundOf_eq, BitVec.or_assoc]

theorem fmaOut_eq : fmaOut f x y z =
    roundOf f ((sumNums f.rdn [(mulNum x y).1, z]).1, (mulNum x y).2 ||| (sumNums f.rdn [(mulNum x y).1, z]).2) [x, y, z] := by
  simp [fmaOut, roundOf_eq, BitVec.or_assoc]

theorem minMaxOut_eq (max legacy : Bool) : minMaxOut max legacy f x y = roundOf f (minMaxNum max legacy x y, 0) [x, y] := by
  simp [minMaxOut, roundOf_eq]

/-- A function of one operand that sets no flag of its own. -/
theorem unaryOut_eq : (f.round y false).add x.readFlags = roundOf f (y, 0) [x] := by simp [roundOf_eq]

end

section
variable {s : State} {i : Instr} {c : Issue} {w : Weft} {d d' : Reg} {n n' : BitVec 4}

/-- An instruction that runs the element-wise body gives its rule's results, where its function is the rule's. -/
theorem elementsBy {a b e : Reg} {f : Iss → Fmt → Nat → Machine.Num → Machine.Num → Machine.Num → Rounded}
    {g g' : Nat → Nat → Rounded} (meaning : Result) (hi : Issuing s i c w) (he : exec i s = meaning)
    (hm : meaning = issue i (elemBody n d a b e f) s) (hd : rd d ∈ operandUses i)
    (hr : some (n, d, g) = some (n', d', g'))
    (hf : ∀ k j, f (c.iss w i) (slotOf w n) k ((slotOf w n).elemNum (w.lane a k) j) ((slotOf w n).elemNum (w.lane b k) j)
      ((slotOf w n).elemNum (w.lane e k) j) = g k j) :
    WritesElements s i c w (slotOf w n').width d' fun k => (List.range (slotOf w n').perLane).map (g' k) := by
  cases hr
  obtain rfl : _ = g := funext fun k => funext fun j => hf k j
  exact writesElements hi (he.trans hm) rfl hd

theorem element_writes {g : Nat → Nat → Rounded} (hi : Issuing s i c w) (hr : elementRule c w i = some (n, d, g)) :
    WritesElements s i c w (slotOf w n).width d fun k => (List.range (slotOf w n).perLane).map (g k) := by
  cases i
  case fadd h m q a b => exact elementsBy (execFadd h m q a b s) hi rfl rfl List.mem_cons_self hr fun k j => addOut_eq ..
  case fsub h m q a b => exact elementsBy (execFsub h m q a b s) hi rfl rfl List.mem_cons_self hr fun k j => subOut_eq ..
  case fmul h m q a b => exact elementsBy (execFmul h m q a b s) hi rfl rfl List.mem_cons_self hr fun k j => mulOut_eq ..
  case fma h m q a b e => exact elementsBy (execFma h m q a b e s) hi rfl rfl List.mem_cons_self hr fun k j => fmaOut_eq ..
  case fmin h m q a b => exact elementsBy (execFmin h m q a b s) hi rfl rfl List.mem_cons_self hr fun k j => minMaxOut_eq ..
  case fmax h m q a b => exact elementsBy (execFmax h m q a b s) hi rfl rfl List.mem_cons_self hr fun k j => minMaxOut_eq ..
  case fabs h m q a => exact elementsBy (execFabs h m q a s) hi rfl rfl List.mem_cons_self hr fun k j => unaryOut_eq ..
  case fneg h m q a => exact elementsBy (execFneg h m q a s) hi rfl rfl List.mem_cons_self hr fun k j => unaryOut_eq ..
  case fscale h m q a b => exact elementsBy (execFscale h m q a b s) hi rfl rfl List.mem_cons_self hr fun k j => unaryOut_eq ..
  case fround h rm m q a =>
    refine elementsBy (execFround h rm m q a s) hi rfl rfl List.mem_cons_self hr fun k j => ?_
    dsimp only
    generalize (slotOf w m).elemNum (w.lane a k) j = x
    cases x with
    | fin neg m e => simp [froundOut, roundOf_eq]
    | nan q => exact unaryOut_eq ..
    | inf neg => exact unaryOut_eq ..
  all_goals cases hr

/-! ## Functions of float slots (R176) -/

/-- An instruction that runs the body of float slots gives its rule's results in one, and traps with any other (R169). -/
theorem floatsBy {a b : Reg} {f : Fmt → DWord → Word → Machine.Num → Machine.Num → Rounded} {g : Nat → Nat → Rounded}
    (meaning : Result) (hi : Issuing s i c w) (he : exec i s = meaning) (hm : meaning = issue i (floatBody n d a b f) s)
    (hd : rd d ∈ operandUses i)
    (hr : some (n, d, fun k j => f (slotOf w n) (w.fmt n) (BitVec.ofNat 32 (elem (w.lane a k) j (slotOf w n).width))
      ((slotOf w n).elemNum (w.lane a k) j) ((slotOf w n).elemNum (w.lane b k) j)) = some (n', d', g)) :
    ((slotOf w n').kind = 0 →
      WritesElements s i c w (slotOf w n').width d' fun k => (List.range (slotOf w n').perLane).map (g k))
    ∧ ((slotOf w n').kind ≠ 0 → Traps s i c w { cause := 0x07 }) := by
  cases hr
  have float : (!((c.iss w i).fmt n).isFloat) = true ↔ (slotOf w n).kind ≠ 0 := by simp [Fmt.isFloat, Iss.fmt, Issue.iss, slotOf]
  exact ⟨fun hk => writesElements hi (he.trans hm) (if_neg fun hn => float.1 hn hk) hd,
    fun hk => traps hi (he.trans hm) (if_pos (float.2 hk))⟩

theorem float_cases {g : Nat → Nat → Rounded} (hi : Issuing s i c w) (hr : floatRule w i = some (n, d, g)) :
    ((slotOf w n).kind = 0 →
      WritesElements s i c w (slotOf w n).width d fun k => (List.range (slotOf w n).perLane).map (g k))
    ∧ ((slotOf w n).kind ≠ 0 → Traps s i c w { cause := 0x07 }) := by
  cases i
  case fdiv h m q a b => exact floatsBy (execFdiv h m q a b s) hi rfl rfl List.mem_cons_self hr
  case frcp h m q a => exact floatsBy (execFrcp h m q a s) hi rfl rfl List.mem_cons_self hr
  case fsqrt h m q a => exact floatsBy (execFsqrt h m q a s) hi rfl rfl List.mem_cons_self hr
  case frsq h m q a => exact floatsBy (execFrsq h m q a s) hi rfl rfl List.mem_cons_self hr
  case fexp2 h m q a => exact floatsBy (execFexp2 h m q a s) hi rfl rfl List.mem_cons_self hr
  case flog2 h m q a => exact floatsBy (execFlog2 h m q a s) hi rfl rfl List.mem_cons_self hr
  case fsinpi h m q a => exact floatsBy (execFsinpi h m q a s) hi rfl rfl List.mem_cons_self hr
  case fcospi h m q a => exact floatsBy (execFcospi h m q a s) hi rfl rfl List.mem_cons_self hr
  case ftanh h m q a => exact floatsBy (execFtanh h m q a s) hi rfl rfl List.mem_cons_self hr
  all_goals cases hr

/-! ## Conversions (R179, R181, R183) -/

theorem cvtOut_eq (legacy : Bool) (src dst : Fmt) (code : Nat) :
    cvtOut legacy src dst code =
      if legacy ∧ (roundOf dst (src.decode code, 0) [src.decode code]).record = some 1 then
        { roundOf dst (src.decode code, 0) [src.decode code] with record := none }
      else roundOf dst (src.decode code, 0) [src.decode code] := by
  simp [cvtOut, unaryOut_eq]

theorem cvtElem_of_source {src : Fmt} {la lb : Word} {k code : Nat} (h : convertedFrom src la lb k = some code) (legacy : Bool)
    (dst : Fmt) : cvtElem legacy src dst la lb k = cvtOut legacy src dst code := by
  unfold convertedFrom at h
  unfold cvtElem
  dsimp only
  split_ifs at h ⊢
  all_goals
    cases h
    rfl

theorem cvtElem_beyond {src : Fmt} {la lb : Word} {k : Nat} (h : convertedFrom src la lb k = none) (legacy : Bool)
    (dst : Fmt) : cvtElem legacy src dst la lb k = { bits := dst.zeroCode false, flags := 0 } := by
  unfold convertedFrom at h
  unfold cvtElem
  dsimp only
  split_ifs at h ⊢
  rfl

theorem dotOut_eq (f fa : Fmt) (la lb lc : Word) : dotOut f fa la lb lc = dotted f fa la lb lc := by
  unfold dotOut dotted
  simp only [roundOf_eq, List.zipWith_map, List.zipWith_self, List.map_map, foldl_or, flagsOver_cons, flagsOver_append,
    flagsOver_map, List.foldl_map, BitVec.or_assoc, flagsOver_or]
  simp only [Function.comp_def]
  congr 1
  ac_rfl

end

/-- The outcome of an instruction with a format check: what it completes as where the check allows it, and a format fault
elsewhere. -/
def FormatChecked (s : State) (i : Instr) (c : Issue) (w : Weft) (ok : Bool) (outcome : Prop) : Prop :=
  (ok = true → outcome) ∧ (ok = false → Traps s i c w { cause := 0x07 })

section
variable {s : State} {i : Instr} {c : Issue} {w : Weft} {d d' : Reg} {n n' : BitVec 4}

/-- A conversion gives its rule's results where its format check allows them. -/
theorem convertsBy {body : Iss → State → Effect} {ok ok' : Bool} {g g' : Nat → List Rounded} (meaning : Result)
    (hi : Issuing s i c w) (he : exec i s = meaning) (hm : meaning = issue i body s) (hd : rd d ∈ operandUses i)
    (hr : some (n, d, ok, g) = some (n', d', ok', g'))
    (hb : ok = true → body (c.iss w i) s = slotEffect (c.iss w i) s d fun j => packOut (slotOf w n).width (g j))
    (ht : ok = false → body (c.iss w i) s = .trap { cause := 0x07 }) :
    FormatChecked s i c w ok' (WritesElements s i c w (slotOf w n').width d' g') := by
  cases hr
  exact ⟨fun h => writesElements hi (he.trans hm) (hb h) hd, fun h => traps hi (he.trans hm) (ht h)⟩

theorem convert_cases {ok : Bool} {g : Nat → List Rounded} (hi : Issuing s i c w)
    (hr : convertRule c w i = some (n, d, ok, g)) :
    FormatChecked s i c w ok (WritesElements s i c w (slotOf w n).width d g) := by
  cases i
  case fcvt h m src q a b o =>
    refine convertsBy (execFcvt h m src q a b o s) hi rfl rfl List.mem_cons_self hr (fun _ => ?_) (fun hn => nomatch hn)
    refine congrArg (slotEffect _ s q) (funext fun k => congrArg (packOut _) (List.map_congr_left fun j _ => ?_))
    dsimp only
    split
    · next beyond => exact cvtElem_beyond beyond ..
    · next code source => exact (cvtElem_of_source source ..).trans (cvtOut_eq ..)
  case itof h sg m q a =>
    exact convertsBy (execItof h sg m q a s) hi rfl rfl List.mem_cons_self hr (fun _ => rfl) (fun hn => nomatch hn)
  case fdot h m acc q a b e =>
    refine convertsBy (execFdot h m acc q a b e s) hi rfl rfl List.mem_cons_self hr (fun hk => ?_) (fun hk => ?_)
    · refine (if_neg ?_).trans ?_
      · exact ne_true_of_eq_false (Bool.eq_false_of_not_eq_true' hk)
      · exact congrArg (slotEffect _ s q) (funext fun k => by rw [dotOut_eq]; rfl)
    · exact if_pos (Bool.eq_true_of_not_eq_false' hk)
  all_goals cases hr

/-! ## Words (R177, R178, R180, R182) -/

theorem regBody_eq_slotEffect (d : Reg) (f : Weft → Iss → Nat → Word) (x : Iss) (s : State) :
    regBody d f x s = slotEffect x s d fun j => { word := f x.w x j, flags := 0, recs := [] } := by
  have none : ((lanesOf x.act).flatMap fun _ => ([] : List LaneRec)) = [] := List.flatMap_eq_nil_iff.2 fun _ _ => rfl
  simp only [slotEffect_eq, flagsOver_zero, List.map_nil, none]
  rfl

theorem compared_word (r : Nat → Bool × BitVec 6) (n : Nat) :
    (maskOf fun j => (((List.range n).map r).map (·.1)).getD j false)
      = BitVec.ofFnLE fun j : Fin 32 => j.val < n && (r j.val).1 := by
  refine BitVec.eq_of_getLsbD_eq fun j hj => ?_
  rw [getLsbD_maskOf _ hj, BitVec.getLsbD_ofFnLE]
  by_cases h : j < n <;> simp [h, hj]

theorem unpackElem_eq (f : Fmt) (sg : Bool) (k : Nat) (x : Word) :
    unpackElem f sg k x =
      BitVec.ofInt 32 (if sg ∧ (elem x k f.width).testBit (f.width - 1) then (elem x k f.width : Int) - 2 ^ f.width
        else elem x k f.width) := by
  unfold unpackElem
  split_ifs <;> simp_all [trunc32]

/-- An instruction gives its rule's words and flags where its format check allows them. -/
theorem wordsBy {body : Iss → State → Effect} {ok ok' : Bool} {val val' : Nat → Word} {fl fl' : Nat → BitVec 6}
    (meaning : Result) (hi : Issuing s i c w) (he : exec i s = meaning) (hm : meaning = issue i body s)
    (hd : rd d ∈ operandUses i) (hr : some (d, ok, val, fl) = some (d', ok', val', fl'))
    (hb : ok = true → body (c.iss w i) s = slotEffect (c.iss w i) s d fun j => { word := val j, flags := fl j, recs := [] })
    (ht : ok = false → body (c.iss w i) s = .trap { cause := 0x07 }) :
    FormatChecked s i c w ok'
      (CompletesAs s i c s w ((activeLanes (c.act w i)).foldl (fun f j => f ||| fl' j) 0) (c.act w i) d' val') := by
  cases hr
  rw [foldl_or_zero]
  exact ⟨fun h => writesWords hi (he.trans hm) (hb h) (fun _ => rfl) hd, fun h => traps hi (he.trans hm) (ht h)⟩

/-- As `wordsBy`, of an instruction that names an element of its slot. -/
theorem wordsAt {body : Iss → State → Effect} {k : BitVec 8} {ok' : Bool} {val val' : Nat → Word} {fl fl' : Nat → BitVec 6}
    (meaning : Result) (hi : Issuing s i c w) (he : exec i s = meaning)
    (hm : meaning = issue i (fun x s => if k.toNat ≥ (x.fmt n).perLane then .trap { cause := 0x07 } else body x s) s)
    (hd : rd d ∈ operandUses i)
    (hr : some (d, decide (k.toNat < (slotOf w n).perLane), val, fl) = some (d', ok', val', fl'))
    (hb : body (c.iss w i) s = slotEffect (c.iss w i) s d fun j => { word := val j, flags := fl j, recs := [] }) :
    FormatChecked s i c w ok'
      (CompletesAs s i c s w ((activeLanes (c.act w i)).foldl (fun f j => f ||| fl' j) 0) (c.act w i) d' val') :=
  wordsBy meaning hi he hm hd hr (fun h => (if_neg (Nat.not_le.2 (of_decide_eq_true h))).trans hb)
    (fun h => if_pos (Nat.not_lt.1 (of_decide_eq_false h)))

theorem word_cases {ok : Bool} {val : Nat → Word} {fl : Nat → BitVec 6} (hi : Issuing s i c w)
    (hr : wordRule w i = some (d, ok, val, fl)) :
    FormatChecked s i c w ok
      (CompletesAs s i c s w ((activeLanes (c.act w i)).foldl (fun f j => f ||| fl j) 0) (c.act w i) d val) := by
  cases i
  case fcmp h k m q a b =>
    refine wordsBy (execFcmp h k m q a b s) hi rfl rfl List.mem_cons_self hr (fun _ => ?_) (fun hn => nomatch hn)
    refine congrArg (slotEffect _ s q) (funext fun l => ?_)
    simp only [fcmpNum_eq, compared_word, List.foldl_map, foldl_or_zero, flagsOver_ite]
    rfl
  case fclass h m q a k =>
    exact wordsAt (execFclass h m q a k s) hi rfl rfl List.mem_cons_self hr (regBody_eq_slotEffect ..)
  case ftoi h rm sg m q a k => exact wordsAt (execFtoi h rm sg m q a k s) hi rfl rfl List.mem_cons_self hr rfl
  case fpack h m q a b k =>
    exact wordsAt (execFpack h m q a b k s) hi rfl rfl List.mem_cons_self hr (regBody_eq_slotEffect ..)
  case funpack h sg m q a k =>
    refine wordsAt (execFunpack h sg m q a k s) hi rfl rfl List.mem_cons_self hr ((regBody_eq_slotEffect ..).trans ?_)
    simp only [unpackElem_eq]
    rfl
  all_goals cases hr

end

/-! ## The statements -/

/-- Settles O17: each instruction runs the element-wise body, with the function of its rule. -/
theorem elementArithmetic : Obligations.ElementArithmetic := fun _ _ _ _ _ _ _ hi hr => element_writes hi hr

/-- Settles O18: each instruction runs the body of float slots, with the function of its rule. -/
theorem floatFunctions : Obligations.FloatFunctions := fun _ _ _ _ _ _ _ hi hr => float_cases hi hr

/-- Settles O19: each conversion packs the results of its rule; fdot alone has a format check. -/
theorem conversions : Obligations.Conversions := fun _ _ _ _ _ _ _ _ hi hr => convert_cases hi hr

/-- Settles O20: each instruction gives the word and the flags of its rule, after its format check. -/
theorem wordResults : Obligations.WordResults := fun _ _ _ _ _ _ _ _ hi hr => word_cases hi hr

end Sys2Proof.Rules
end

section
/-! PROOFS. setfmt, getfmt and fflags (R184 to R186). -/

namespace Sys2Proof.Rules

open Sys2Proof.Machine

section
variable {s : State} {c : Issue} {w : Weft} {h : Guard} {n : BitVec 4} {a d : Reg} {mask : BitVec 8}

/-- The lowest active lane is lane L, and there is one (R57). -/
theorem lowestActive_eq_some {act : Word} {l : Nat} (hl : lowestActive act = some l) : act ≠ 0 ∧ lowestLane act = l :=
  ⟨by rintro rfl; simpa using List.find?_some hl, congrArg (·.getD 0) hl⟩

theorem setfmt_cases (hi : Issuing s (.setfmt h n a) c w) :
    let i : Instr := .setfmt h n a
    (c.act w i = 0 → WritesNothing s i c w)
    ∧ ∀ l, lowestActive (c.act w i) = some l →
        ((Fmt.ofDef (w.pair a l)).rejected n.toNat = true → Traps s i c w { cause := 0x07, lane := some l })
        ∧ ((Fmt.ofDef (w.pair a l)).rejected n.toNat = false →
            let w1 : Weft := { w with fmts := SMap.set w.fmts binary32 n.toNat (cleanDef (w.pair a l)) }
            (n ≠ 0 → w1.fmt n = cleanDef (w.pair a l))
            ∧ CompletesAs s i c (s.setWeft c.loom c.slot w1) w1 0 0 255 fun _ => 0) := by
  intro i
  have he : exec i s = execSetfmt h n a s := rfl
  unfold execSetfmt at he
  refine ⟨macro_idle hi he, fun l hl => ?_⟩
  obtain ⟨active, rfl⟩ := lowestActive_eq_some hl
  have runs := macro_runs hi he active
  refine ⟨fun bad => traps hi runs (if_pos bad), fun good => ⟨fun hn => ?_, ?_⟩⟩
  · unfold Weft.fmt
    rw [if_neg hn]
    exact SMap.getD_set_self ..
  · exact does hi runs ((if_neg (ne_true_of_eq_false good)).trans (congrArg Effect.ok (State.modWeft_eq _ hi.weft)))
      (State.weft?_setWeft ..) rfl

theorem getfmt_writes (hi : Issuing s (.getfmt h n d) c w) (hf : (Instr.getfmt h n d).flaw = none) :
    WritesPair s (.getfmt h n d) c w d fun _ => cleanDef (w.fmt n) :=
  writesPair (execGetfmt h n d s) hi rfl rfl List.mem_cons_self (evenReg_of_pairFlaw hf List.mem_cons_self) rfl fun _ => rfl

/-- Of two wefts alike but for their registers, new flags make two more. -/
theorem sameButRegs_fpx {v w : Weft} (h : w.SameButRegs v) (fl : BitVec 6) :
    ({ w with fpx := fl } : Weft).SameButRegs { v with fpx := fl } := by
  unfold Weft.SameButRegs
  rw [h]

theorem fflags_cases (hi : Issuing s (.fflags h d mask) c w) :
    let i : Instr := .fflags h d mask
    let w1 : Weft := { w with fpx := w.fpx &&& ~~~(mask.setWidth 6) }
    (c.act w i = 0 → WritesNothing s i c w)
    ∧ (c.act w i ≠ 0 →
      CompletesAs s i c (s.setWeft c.loom c.slot w1) w1 0 (c.act w i) d fun _ => w.fpx.setWidth 32) := by
  intro i w1
  have he : exec i s = execFflags h d mask s := rfl
  unfold execFflags at he
  refine ⟨macro_idle hi he, fun hn => ?_⟩
  obtain ⟨rest, written⟩ := Weft.writeLanes_spec (destFree hi List.mem_cons_self) (c.act w i) fun _ => w.fpx.setWidth 32
  exact completesAs hi (macro_runs hi he hn) (congrArg Effect.ok (State.modWeft_eq _ hi.weft)) rfl (State.weft?_setWeft ..)
    (onlyLanes_setWeft_setWeft s c.loom c.slot (sameButRegs_fpx rest _)) written

end

/-- Settles O21: setfmt and fflags act where a lane is active; getfmt runs the body that writes a pair. -/
theorem formatSlots : Obligations.FormatSlots :=
  ⟨fun _ _ _ _ _ _ hi => setfmt_cases hi, fun _ _ _ _ _ _ hi hf => getfmt_writes hi hf, fun _ _ _ _ _ _ hi => fflags_cases hi⟩

end Sys2Proof.Rules
end

section
/-! PROOFS. fence, pagein and probe (R206, R254, R259, R261, R262). -/

namespace Sys2Proof.Machine

/-! ## Accesses of one byte (R254) -/

/-- Every case of R254 comes before 90, which stands for none. -/
theorem State.caseOf_spot_le (s : State) (v : View) (va : Nat) (store : Bool) : (s.spot v va).caseOf store ≤ 90 := by
  cases h : s.spot v va with
  | bad n =>
    have hn := State.spot_bad h
    simp only [Spot.caseOf]
    omega
  | lm => exact Nat.le_refl 90
  | frame => simp only [Spot.caseOf]; split <;> omega
  | page => simp only [Spot.caseOf]; split_ifs <;> omega

/-- An access of one byte meets the case of its byte. -/
theorem State.accCase_oneByte (s : State) (v : View) (store : Bool) (j : Nat) (va : DWord) :
    s.accCase v store ⟨j, va, 1, 1⟩ = ((s.spot v va.toNat).caseOf store, va.toNat) := by
  have bytes : (⟨j, va, 1, 1⟩ : Acc).bytes = [va.toNat] := by simp [Acc.bytes, Nat.mod_eq_of_lt va.isLt]
  have le := s.caseOf_spot_le v va.toNat store
  rw [State.accCase_eq, bytes]
  simp only [Nat.mod_one, ne_eq, not_true_eq_false, if_false, List.foldl_cons, List.foldl_nil, leastStep, id]
  split <;> simp only [Prod.mk.injEq, and_true]
  omega

/-- The search of `State.worst` over one byte of each lane. -/
theorem State.worst_oneByte (s : State) (v : View) (store : Bool) (act : Word) (ea : Nat → DWord) :
    s.worst v store (accsAt act 1 1 ea)
      = (lanesOf act).foldl (leastStep (fun j => (s.spot v (ea j).toNat).caseOf store) fun j => (j, (ea j).toNat))
          (90, 0, 0) := by
  rw [State.worst_eq, accsAt, List.foldl_map]
  refine congrArg (List.foldl · (90, 0, 0) (lanesOf act)) (funext₂ fun best j => ?_)
  simp only [leastStep, State.accCase_oneByte]

end Sys2Proof.Machine

namespace Sys2Proof.Rules

open Sys2Proof.Machine

section
variable {s : State} {c : Issue} {w : Weft} {h : Guard} {a b d : Reg} {imm : BitVec 16}

/-! ## fence (R206, R259) -/

theorem three_le_code {sc : Scope} : 3 ≤ sc.code ↔ sc = .die ∨ sc = .package ∨ sc = .group ∨ sc = .system := by
  cases sc <;> decide

theorem fence_completes {sc : Scope} (hi : Issuing s (.fence h sc) c w) :
    CompletesAs s (.fence h sc) c (if c.act w (.fence h sc) ≠ 0 ∧ (sc = .die ∨ sc = .package ∨ sc = .group ∨ sc = .system) then
        s.modLoom c.loom fun x => { x with l1 := [] } else s) w 0 0 255 fun _ => 0 := by
  have he : exec (.fence h sc) s = execFence h sc s := rfl
  refine does hi (he.trans rfl) ?_ ?_ rfl
  · by_cases idle : c.act w (.fence h sc) = 0
    · rw [if_neg fun wide => wide.1 idle]
      exact if_pos idle
    · simp only [ne_eq, idle, not_false_eq_true, true_and, ← three_le_code]
      exact macro_active idle
  · split
    · exact (State.weft?_modLoom s c.loom c.slot (fun x => { x with l1 := [] }) rfl).trans hi.weft
    · exact hi.weft

/-! ## pagein (R254, R261) -/

theorem pagein_worst (x : Iss) : s.worst (s.view x) false (laneAccs x 1 1 (x.w.ea a b imm))
    = (activeLanes x.act).foldl
        (leastStep (fun j => (s.spot (s.view x) (addressOf x.w a b imm j).toNat).caseOf false)
          fun j => (j, (addressOf x.w a b imm j).toNat)) (90, 0, 0) := by
  rw [laneAccs, State.worst_oneByte]
  simp only [ea_eq_addressOf]
  rfl

theorem eventRecord_keeps {β : Type} {f : Loom → β} (s : State) (kind src ctx : Nat) (d0 d1 : DWord) :
    KeepsLooms f s (s.eventRecord kind src ctx d0 d1) := by
  unfold State.eventRecord
  exact KeepsLooms.ite (KeepsLooms.of_looms rfl) (KeepsLooms.of_looms rfl)

theorem weft?_eventRecords (ps : List Nat) (l k kind src ctx : Nat) :
    (ps.foldl (fun s p => s.eventRecord kind src ctx (BitVec.ofNat 64 p) 0) s).weft? l k = s.weft? l k :=
  weft?_congr (KeepsLooms.foldl (fun s _ => eventRecord_keeps s ..) ps s) l k

theorem pagein_completes (hi : Issuing s (.pagein h a b imm) c w) :
    let i : Instr := .pagein h a b imm
    let vas := (activeLanes (c.act w i)).map (addressOf w a b imm)
    (∀ va ∈ vas, 50 ≤ (s.spot (viewAt s c w) va.toNat).caseOf false) →
    let pages := (vas.filterMap fun va =>
      match s.spot (viewAt s c w) va.toNat with
      | .page x _ => if pteResident x.pte then none else some (x.base va.toNat)
      | _ => none).eraseDups
    CompletesAs s i c (pages.foldl (fun s p => s.eventRecord 0x01 c.loom w.ctx (BitVec.ofNat 64 p) 0) s) w 0 0 255
      fun _ => 0 := by
  intro i vas allowed pages
  have he : exec i s = execPagein h a b imm s := rfl
  have addresses : (lanesOf (c.act w i)).map (w.ea a b imm) = vas := List.map_congr_left fun j _ => ea_eq_addressOf ..
  have passes : ¬ (s.worst (s.view (c.iss w i)) false (laneAccs (c.iss w i) 1 1 (w.ea a b imm))).1 < 50 := by
    have worst := pagein_worst (s := s) (a := a) (b := b) (imm := imm) (c.iss w i)
    rw [show w.ea a b imm = (c.iss w i).w.ea a b imm from rfl, worst, foldl_leastStep_fst]
    have above := lt_foldl_min (fun j => (s.spot (viewAt s c w) (addressOf w a b imm j).toNat).caseOf false)
      (activeLanes (c.act w i)) 90 49 (by decide) fun j hj => allowed _ (List.mem_map_of_mem hj)
    exact Nat.not_lt.2 above
  refine does hi (he.trans rfl) ((if_neg passes).trans ?_) ((weft?_eventRecords ..).trans hi.weft) rfl
  refine congrArg (fun ps : List Nat =>
    Effect.ok (ps.foldl (fun s p => s.eventRecord 0x01 c.loom w.ctx (BitVec.ofNat 64 p) 0) s)) ?_
  exact congrArg (s.missingPages (viewAt s c w)) addresses

theorem pagein_traps {j : Nat} {pre post : List Nat} (hi : Issuing s (.pagein h a b imm) c w) :
    let i : Instr := .pagein h a b imm
    let order (k : Nat) : Nat := (s.spot (viewAt s c w) (addressOf w a b imm k).toNat).caseOf false
    activeLanes (c.act w i) = pre ++ j :: post → order j < 50 → (∀ k ∈ pre, order j < order k) →
    (∀ k ∈ post, order j ≤ order k) →
    Traps s i c w { cause := causeOfCase (order j), lane := some j, index := j, detail := addressOf w a b imm j } := by
  intro i order lanes faults before after
  have he : exec i s = execPagein h a b imm s := rfl
  have worst : s.worst (s.view (c.iss w i)) false (laneAccs (c.iss w i) 1 1 (w.ea a b imm))
      = (order j, j, (addressOf w a b imm j).toNat) := by
    refine (pagein_worst (c.iss w i)).trans ?_
    rw [show activeLanes (c.iss w i).act = pre ++ j :: post from lanes]
    exact foldl_leastStep_at _ _ pre post j _ (Nat.lt_trans faults (by decide)) before after
  refine traps hi (he.trans rfl) ?_
  dsimp only
  rw [show (c.iss w i).w.ea a b imm = w.ea a b imm from rfl, worst]
  simp only [faults, if_true, BitVec.ofNat_toNat, BitVec.setWidth_eq]

/-! ## probe (R262) -/

/-- Bits [8:0] of a leaf. -/
theorem leafBits_eq (x : DWord) : (x.extractLsb' 0 9).setWidth 32 = BitVec.ofNat 32 (x.toNat % 512) := by
  refine BitVec.eq_of_toNat_eq ?_
  simp

/-- Where an address of the window lies for a weft that sees no trap frame (R60, R191). -/
theorem spot_window {va : Nat} (inside : va / 2 ^ 52 = 0xFFF) :
    s.spot { viewAt s c w with frame := none } va =
      match s.teamOf c.loom w with
      | some t => if va % 2 ^ 52 < t.shareSize then .lm (t.shareBase + va % 2 ^ 52) else .bad 20
      | none => if va % 2 ^ 52 < 786432 ∧ (s.loom c.loom).heldFor w.ctx (va % 2 ^ 52) then .lm (va % 2 ^ 52) else .bad 20 := by
  unfold State.spot
  rw [if_pos inside]
  dsimp only [viewAt, State.viewOf]
  cases s.teamOf c.loom w <;> rfl

theorem probeLeaf_eq (va : DWord) : s.probeLeaf (viewAt s c w) va = probeRule s c w va := by
  have bound := va.isLt
  unfold State.probeLeaf probeRule
  by_cases low : va.toNat < 2 ^ 52
  · rw [if_pos (Nat.div_eq_of_lt low), if_pos low]
    simp only [leafBits_eq]
    rfl
  · rw [if_neg (by omega), if_neg low]
    by_cases window : va.toNat < 0xFFF * 2 ^ 52
    · have outside : va.toNat / 2 ^ 52 ≠ 0xFFF := by omega
      have beyond : va.toNat / 2 ^ 52 ≠ 0 := by omega
      simp only [State.spot, if_neg outside, if_pos beyond, if_pos window]
    · rw [if_neg window, spot_window (by omega)]
      have offset : va.toNat % 2 ^ 52 = va.toNat - 0xFFF * 2 ^ 52 := by omega
      rw [← offset]
      generalize va.toNat % 2 ^ 52 = off
      cases s.teamOf c.loom w with
      | none => dsimp only; split_ifs <;> rfl
      | some t => dsimp only; split_ifs <;> rfl

theorem probe_writes (hi : Issuing s (.probe h d a b imm) c w) :
    WritesReg s (.probe h d a b imm) c w d fun j => probeRule s c w (addressOf w a b imm j) := by
  have he : exec (.probe h d a b imm) s = execProbe h d a b imm s := rfl
  let word (w : Weft) (x : Iss) (j : Nat) : Word := s.probeLeaf (s.view x) (w.ea a b imm j)
  have runs : exec (.probe h d a b imm) s = issue (.probe h d a b imm) (regBody d word) s :=
    exec_eq_of_body hi (he.trans rfl) rfl
  refine writesReg (f := word) _ hi runs rfl List.mem_cons_self rfl fun j => ?_
  exact (congrArg _ (ea_eq_addressOf ..)).trans (probeLeaf_eq _)

end

/-- Settles O27: each clause is a branch of the instruction's body, in the words of R254's checks. -/
theorem fenceAndPaging : Obligations.FenceAndPaging :=
  ⟨fun _ _ _ _ _ hi => fence_completes hi, fun _ _ _ _ _ _ _ hi => pagein_completes hi,
    fun _ _ _ _ _ _ _ _ _ _ hi => pagein_traps hi, fun _ _ _ _ _ _ _ _ hi => probe_writes hi⟩

end Sys2Proof.Rules
end

section
/-! SUPPORT. Memories in canonical form: wefts, teams, waits and bookkeeping (R36 to R66, R187, R188, R341 to R347). -/

namespace Sys2Proof.Machine

/-! ## The memories of a loom and of the package -/

/-- The physical memories are in canonical form. -/
def Memories.Canonical (m : Memories) : Prop :=
  Memory.wf m.hbm = true ∧ Memory.wf m.market = true ∧ Memory.wf m.host = true

/-- The memories of a loom are in canonical form. -/
def Loom.Canonical (x : Loom) : Prop := Memory.wf x.mem = true ∧ Memory.wf x.operand = true

/-- Every memory of the package is in canonical form (R187). -/
def State.Canonical (s : State) : Prop := s.mem.Canonical ∧ ∀ p ∈ s.looms, p.2.Canonical

theorem State.memWf_iff_canonical (s : State) : s.memWf = true ↔ s.Canonical := by
  simp only [State.memWf, State.Canonical, Memories.Canonical, Loom.memWf, Loom.Canonical, Bool.and_eq_true, and_assoc,
    List.all_eq_true]

theorem Memory.wf_foldl {α : Type} {as : List α} {m : Mem} {put : Mem → α → Mem} (hm : Memory.wf m = true)
    (h : ∀ m a, Memory.wf m = true → Memory.wf (put m a) = true) : Memory.wf (as.foldl put m) = true :=
  List.foldlRecOn (motive := fun m => Memory.wf m = true) as put hm fun m hm a _ => h m a hm

namespace Memories.Canonical

variable {m : Memories}

theorem of {sp : Space} (hm : m.Canonical) : Memory.wf (m.of sp) = true := by
  obtain ⟨hbm, market, host⟩ := hm
  cases sp with
  | hbm => exact hbm
  | market => exact market
  | host => exact host

theorem setOf {sp : Space} {x : Mem} (hm : m.Canonical) (hx : Memory.wf x = true) : (m.setOf sp x).Canonical := by
  obtain ⟨hbm, market, host⟩ := hm
  cases sp with
  | hbm => exact ⟨hx, market, host⟩
  | market => exact ⟨hbm, hx, host⟩
  | host => exact ⟨hbm, market, hx⟩

theorem foldl {α : Type} {as : List α} {f : Memories → α → Memories} (hm : m.Canonical)
    (h : ∀ m a, m.Canonical → (f m a).Canonical) : (as.foldl f m).Canonical :=
  List.foldlRecOn (motive := Memories.Canonical) as f hm fun m hm a _ => h m a hm

theorem reset : Memories.reset.Canonical := ⟨rfl, rfl, rfl⟩

end Memories.Canonical

namespace Loom.Canonical

variable {x : Loom}

theorem foldl {α : Type} {as : List α} {f : Loom → α → Loom} (hx : x.Canonical)
    (h : ∀ x a, x.Canonical → (f x a).Canonical) : (as.foldl f x).Canonical :=
  List.foldlRecOn (motive := Loom.Canonical) as f hx fun x hx a _ => h x a hx

theorem reset : Loom.reset.Canonical := ⟨rfl, rfl⟩

theorem releaseRanges {h : Nat} {now : DWord} (hx : x.Canonical) : (x.releaseRanges h now).Canonical := hx

theorem releaseEntries {h : Nat} (hx : x.Canonical) : (x.releaseEntries h).Canonical := hx

theorem removeTeam {h : Nat} (hx : x.Canonical) : (x.removeTeam h).Canonical := by
  unfold Loom.removeTeam
  split
  · exact hx
  · exact ⟨Memory.wf_zero _ _ _ hx.1, hx.2⟩

theorem dropRanges {op : Nat} (hx : x.Canonical) : (x.dropRanges op).Canonical := hx

theorem setRanges {rs : List Range} (hx : x.Canonical) : ({ x with ranges := rs } : Loom).Canonical := hx

theorem setTileBits {p bit w val : Nat} (hx : x.Canonical) : (x.setTileBits p bit w val).Canonical :=
  ⟨hx.1, Memory.wf_writeLe _ _ _ _ hx.2⟩

theorem setQueue {c : OcClass} {q : List Op} (hx : x.Canonical) : (x.setQueue c q).Canonical := by cases c <;> exact hx

end Loom.Canonical

/-! ## One part of the state -/

namespace State.Canonical

variable {s : State}

theorem ite {t : State} {c : Prop} [Decidable c] (hs : s.Canonical) (ht : t.Canonical) :
    (if c then s else t).Canonical := by
  split
  · exact hs
  · exact ht

/-- A state kept where a condition holds, or taken further. -/
theorem iteLeft {t : State} {c : Prop} [Decidable c] (hs : s.Canonical) (h : s.Canonical → t.Canonical) :
    (if c then s else t).Canonical := hs.ite (h hs)

/-- A state taken further where a condition holds, or kept. -/
theorem iteRight {t : State} {c : Prop} [Decidable c] (hs : s.Canonical) (h : s.Canonical → t.Canonical) :
    (if c then t else s).Canonical := (h hs).ite hs

theorem foldl {α : Type} {as : List α} {f : State → α → State} (hs : s.Canonical)
    (h : ∀ s a, s.Canonical → (f s a).Canonical) : (as.foldl f s).Canonical :=
  List.foldlRecOn (motive := State.Canonical) as f hs fun s hs a _ => h s a hs

theorem loom {l : Nat} (hs : s.Canonical) : (s.loom l).Canonical := by
  unfold State.loom SMap.getD
  cases hx : SMap.find? s.looms l with
  | none => exact Loom.Canonical.reset
  | some x => exact hs.2 _ (SMap.mem_of_find? hx)

theorem setLoom {l : Nat} {x : Loom} (hs : s.Canonical) (hx : x.Canonical) : (s.setLoom l x).Canonical :=
  ⟨hs.1, fun p hp => (SMap.mem_put hp).elim (fun e => e ▸ hx) (hs.2 p)⟩

/-- Where `f` names no memory, `hf` gives back what it is given: `by exact fun _ hx => hx`, which waits until `f` is known. -/
theorem modLoom {l : Nat} {f : Loom → Loom} (hs : s.Canonical) (hf : ∀ x, x.Canonical → (f x).Canonical) :
    (s.modLoom l f).Canonical := hs.setLoom (hf _ hs.loom)

/-- The looms as they are but for what is no memory of theirs. -/
theorem mapLooms {f : Nat × Loom → Nat × Loom} (hs : s.Canonical)
    (hf : ∀ p : Nat × Loom, p.2.Canonical → (f p).2.Canonical) :
    ({ s with looms := s.looms.map f } : State).Canonical :=
  ⟨hs.1, List.forall_mem_map.2 fun p hp => hf p (hs.2 p hp)⟩

theorem modMem {f : Memories → Memories} (hs : s.Canonical)
    (hf : ∀ m, m.Canonical → (f m).Canonical) : (s.modMem f).Canonical :=
  ⟨hf _ hs.1, hs.2⟩

theorem modLm {l : Nat} {f : Mem → Mem} (hs : s.Canonical) (hf : ∀ m, Memory.wf m = true → Memory.wf (f m) = true) :
    (s.modLm l f).Canonical := hs.modLoom fun _ hx => ⟨hf _ hx.1, hx.2⟩

theorem setWeft {l k : Nat} {w : Weft} (hs : s.Canonical) : (s.setWeft l k w).Canonical :=
  hs.modLoom fun _ hx => hx

theorem modWeft {l k : Nat} {f : Weft → Weft} (hs : s.Canonical) : (s.modWeft l k f).Canonical := by
  unfold State.modWeft
  split
  · exact hs
  · exact hs.setWeft

theorem modTeam {l h : Nat} {f : Team → Team} (hs : s.Canonical) : (s.modTeam l h f).Canonical :=
  hs.modLoom fun x hx => by
    split
    · exact hx
    · exact hx

theorem setOutbox {o : List Out} (hs : s.Canonical) : ({ s with outbox := o } : State).Canonical := hs

theorem setFresh {n : Nat} (hs : s.Canonical) : ({ s with fresh := n } : State).Canonical := hs

/-! ## Counts, errors and event records (R339, R404, R412) -/

theorem countLoom {l src ctx n : Nat} (hs : s.Canonical) : (s.countLoom l src ctx n).Canonical :=
  hs.ite (hs.modLoom fun _ hx => hx)

theorem countDie {die src n : Nat} (hs : s.Canonical) : (s.countDie die src n).Canonical := hs

theorem crossDies {i j n : Nat} (hs : s.Canonical) : (s.crossDies i j n).Canonical := hs.ite hs.countDie

theorem loomError {l k : Nat} (hs : s.Canonical) : (s.loomError l k).Canonical := hs.modLoom fun _ hx => hx

theorem dieError {die k : Nat} (hs : s.Canonical) : (s.dieError die k).Canonical := hs

theorem writePhys {sp : Space} {a : Nat} {b : Byte} (hs : s.Canonical) : (s.writePhys sp a b).Canonical :=
  hs.modMem fun _ hm => hm.setOf (Memory.wf_write _ _ _ hm.of)

theorem writePhysLe {sp : Space} {a n v : Nat} (hs : s.Canonical) : (s.writePhysLe sp a n v).Canonical :=
  hs.modMem fun _ hm => hm.setOf (Memory.wf_writeLe _ _ _ _ hm.of)

theorem writeLm {l a : Nat} {b : Byte} (hs : s.Canonical) : (s.writeLm l a b).Canonical :=
  hs.modLm fun m hm => Memory.wf_write m a b hm

theorem eventRecord {kind src ctx : Nat} {d0 d1 : DWord} (hs : s.Canonical) : (s.eventRecord kind src ctx d0 d1).Canonical := by
  unfold State.eventRecord
  obtain ⟨⟨hbm, market, host⟩, looms⟩ := hs
  exact ite ⟨⟨hbm, market, host⟩, looms⟩ ⟨⟨hbm, market, Memory.wf_writeBytes _ _ _ host⟩, looms⟩

/-! ## Trap frames (R417, R419, R422) -/

theorem putReplay {l b i : Nat} {f : Faulted} (hs : s.Canonical) : (s.putReplay l b i f).Canonical :=
  hs.modLm fun m hm => Memory.wf_writeBytes _ m _ hm

theorem setRcount {l b n : Nat} (hs : s.Canonical) : (s.setRcount l b n).Canonical :=
  hs.modLm fun m hm => Memory.wf_writeLe m _ _ _ hm

theorem fillReplay {k l slot : Nat} (hs : s.Canonical) : (State.fillReplay k s l slot).Canonical := by
  induction k generalizing s with
  | zero => exact hs
  | succ k ih =>
    unfold State.fillReplay
    split
    · exact hs
    · split
      · exact ite (ih hs.putReplay.setRcount.setWeft) hs
      · exact hs

theorem enterTrap {l slot b : Nat} {h : TrapHead} {vector : DWord} (hs : s.Canonical) :
    (s.enterTrap l slot b h vector).Canonical := by
  unfold State.enterTrap
  split
  · exact hs
  · refine (State.Canonical.countLoom (setWeft (modLm hs fun _ _ => ?_))).fillReplay
    exact Memory.wf_writeBytes _ _ _ (Memory.wf_writeBytes _ _ _ (Memory.wf_zero _ _ _ hs.loom.1))

theorem takeTrap {l slot : Nat} {h : TrapHead} {t : State} (hs : s.Canonical) (he : s.takeTrap l slot h = .entered t) :
    t.Canonical := by
  unfold State.takeTrap at he
  split at he
  · cases he
  · dsimp only at he
    split_ifs at he
    split at he
    · cases he
    · cases he
      exact hs.enterTrap

theorem returnFromTrap {l slot : Nat} (hs : s.Canonical) : (s.returnFromTrap l slot).Canonical := by
  unfold State.returnFromTrap
  split
  · exact hs
  · split
    · exact hs
    · split
      exact setWeft (modLm hs fun m hm => Memory.wf_writeBytes _ m _ hm)

/-! ## Accesses, and what they leave of translations, caches and error marks (R190, R205, R210, R361) -/

theorem setTlb {ag : TlbAgent} {t : List Tlb} (hs : s.Canonical) : (s.setTlb ag t).Canonical := by
  cases ag with
  | core l => exact hs.modLoom fun _ hx => hx
  | copy l => exact hs.modLoom fun _ hx => hx
  | gateway d => exact hs

theorem fillTlb {ag : TlbAgent} {ctx va : Nat} (hs : s.Canonical) : (s.fillTlb ag ctx va).Canonical := hs.ite hs.setTlb

theorem writeSpot {l : Nat} {v : Byte} {sp : Spot} (hs : s.Canonical) : (s.writeSpot l v sp).Canonical := by
  cases sp with
  | bad case => exact hs
  | lm a => exact hs.writeLm
  | frame b i => exact ite (ite hs.writeLm hs) hs.writeLm
  | page x pa => exact hs.writePhys

theorem placeRecords {sp : Space} {base n : Nat} {f : Nat → Byte → Byte} (hs : s.Canonical) :
    (s.placeRecords sp base n f).Canonical :=
  hs.modMem fun _ hm => hm.setOf (Memory.wf_foldl hm.of fun m _ h => Memory.wf_write m _ _ h)

theorem wholeUnits {l : Nat} {sps : List Spot} (hs : s.Canonical) : (s.wholeUnits l sps).Canonical :=
  hs.ite (hs.modMem fun _ hm => hm.foldl fun m e hm => by split <;> exact hm)

theorem storeDev {l : Nat} {bs : List (Spot × Byte)} (hs : s.Canonical) : (s.storeDev l bs).Canonical :=
  (hs.foldl fun _ _ hs => hs.writeSpot).wholeUnits

theorem storeSpots {l : Nat} {bs : List (Spot × Byte)} {sv : Bool} (hs : s.Canonical) : (s.storeSpots l bs sv).Canonical :=
  hs.storeDev

theorem writeVa {v : View} {va : DWord} {n x : Nat} (hs : s.Canonical) : (s.writeVa v va n x).Canonical := hs.storeSpots

theorem writeDev {v : View} {va : DWord} {n x : Nat} (hs : s.Canonical) : (s.writeDev v va n x).Canonical := hs.storeDev

theorem writeBytesVa {v : View} {va : DWord} {bs : List Byte} (hs : s.Canonical) : (s.writeBytesVa v va bs).Canonical :=
  hs.storeSpots

theorem errorRecord {v : View} {va : DWord} (hs : s.Canonical) : (s.errorRecord v va).Canonical := by
  unfold State.errorRecord
  split
  · exact hs.eventRecord
  · exact hs

theorem noteError {v : View} {va : DWord} (hs : s.Canonical) : (s.noteError v va).Canonical := by
  unfold State.noteError
  split
  · exact hs.loomError
  · exact hs.loomError
  · dsimp only
    split
    · exact hs.errorRecord.dieError.countDie
    · exact hs.errorRecord
  · exact hs

theorem l2Leaves {x : L2Line} (hs : s.Canonical) : (s.l2Leaves x).Canonical := by
  have leaves (c : Bool) {t : State} (ht : t.Canonical) (a b i j k : Nat) :
      (if c then (t.countDie a b 1).crossDies i j k else t).Canonical := ht.countDie.crossDies.ite ht
  have dropped {f : List L2Line → List L2Line} : (s.modMem fun m => { m with l2 := f m.l2 }).Canonical :=
    hs.modMem fun _ hm => hm
  refine ite (leaves _ dropped ..) (modMem (leaves _ dropped ..) fun m hm => ?_)
  dsimp only
  split
  · exact hm
  · exact hm

theorem touchL2 {host : Bool} {pa : Nat} {write : Bool} (hs : s.Canonical) : (s.touchL2 host pa write).Canonical := by
  unfold State.touchL2
  dsimp only
  split
  · exact (hs.modMem (by exact fun _ hx => hx)).countDie
  · have room : (match s.mem.l2Victim (homeSlice pa) with | none => s | some x => s.l2Leaves x).Canonical := by
      split
      · exact hs
      · exact hs.l2Leaves
    refine ite ?_ (countDie ?_).countDie.crossDies
    · exact (room.modMem (by exact fun _ hx => hx)).countDie
    · exact room.modMem fun _ hx => hx

theorem crossings {from_ die out back : Nat} (hs : s.Canonical) : (s.crossings from_ die out back).Canonical :=
  hs.crossDies.crossDies

theorem homeAccess {from_ : Nat} {host : Bool} {pa : Nat} {write : Bool} (hs : s.Canonical) :
    (s.homeAccess from_ host pa write).Canonical :=
  hs.crossings.touchL2

theorem bankAccess {from_ pa : Nat} {write : Bool} (hs : s.Canonical) : (s.bankAccess from_ pa write).Canonical :=
  hs.crossings.countDie

theorem missTlb {v : View} {va : Nat} {x : Leaf} (hs : s.Canonical) : (s.missTlb v va x).Canonical := by
  unfold State.missTlb
  split
  · exact hs
  · dsimp only
    split
    · exact hs.fillTlb.countLoom
    · exact hs.fillTlb

theorem l1Hit {l : Nat} {key : Nat × Nat} (hs : s.Canonical) : (s.l1Hit l key).2.Canonical := by
  unfold State.l1Hit
  split
  · exact hs
  · split
    · exact hs
    · split
      · exact hs
      · exact (hs.modMem (by exact fun _ hx => hx)).loomError

theorem freshLine {e : ErrAt} (hs : s.Canonical) : (s.freshLine e).Canonical := hs.ite (hs.modMem fun _ hx => hx)

theorem noteOne {v : View} {load : Bool} {va : Nat} {write : Bool} (hs : s.Canonical) :
    (s.noteOne v load va write).Canonical := by
  unfold State.noteOne
  split
  · dsimp only
    split
    · exact hs.missTlb
    · split
      · exact hs.missTlb.bankAccess
      · split
        · exact ite hs.missTlb.l1Hit (hs.missTlb.l1Hit.freshLine.modLoom (by exact fun _ hx => hx)).countLoom.homeAccess
        · exact hs.missTlb.homeAccess
  · exact hs

theorem note {v : View} {load : Bool} {accs : List Acc} {write : Bool} (hs : s.Canonical) :
    (s.note v load accs write).Canonical :=
  hs.foldl fun _ _ hs => hs.noteOne

theorem noteFrom {from_ : Nat} {v : View} {a : Acc} {write : Bool} (hs : s.Canonical) :
    (s.noteFrom from_ v a write).Canonical :=
  hs.foldl fun s va hs => by
    dsimp only
    split
    · split
      · exact hs.missTlb
      · split
        · exact hs.missTlb.bankAccess
        · exact hs.missTlb.homeAccess
    · exact hs

theorem softAt {ctx : Nat} {e : ErrAt} (hs : s.Canonical) : (s.softAt ctx e).Canonical := by
  unfold State.softAt
  split
  · split
    · exact hs.loomError.countLoom
    · split
      · exact hs.dieError.countDie
      · exact hs
  · exact hs

theorem softSpots {l ctx : Nat} {sps : List Spot} (hs : s.Canonical) : (s.softSpots l ctx sps).Canonical :=
  hs.ite (hs.foldl fun _ _ hs => hs.softAt)

theorem noteSoft {v : View} {accs : List Acc} {served : List Nat} (hs : s.Canonical) : (s.noteSoft v accs served).Canonical :=
  hs.softSpots

theorem dropL1 {l : Nat} (hs : s.Canonical) : (s.dropL1 l).Canonical := hs.modLoom fun _ hx => hx

/-! ## Conversion records and exit status words (R85, R86, R338, R424) -/

theorem convRecord {ctx : Nat} {r : ConvRec} (hs : s.Canonical) : (s.convRecord ctx r).Canonical := by
  unfold State.convRecord
  split
  · exact hs
  · exact (ite hs.writeBytesVa.writeDev hs.writeDev).writeDev

theorem convRecords {ctx : Nat} {rs : List ConvRec} (hs : s.Canonical) : (s.convRecords ctx rs).Canonical :=
  hs.foldl fun _ _ hs => hs.convRecord

theorem vectorRecords {l k ctx : Nat} {rs : List ConvRec} (hs : s.Canonical) : (s.vectorRecords l k ctx rs).Canonical := by
  unfold State.vectorRecords
  split
  · exact hs.convRecords
  · exact ite hs.convRecords hs.setWeft

theorem opRecords {o : Op} {rs : List ConvRec} (hs : s.Canonical) : (s.opRecords o rs).Canonical := by
  unfold State.opRecords
  split
  · exact hs.convRecords
  · exact ite hs.convRecords hs.setWeft

theorem recordsAll (hs : s.Canonical) : (s.recordsAll).Canonical :=
  hs.foldl fun _ _ hs => hs.foldl fun _ _ hs => ite hs hs.convRecords.modWeft

theorem writeExitStatus {ctx : Nat} {image : DWord} {num : Nat} {e : Exit} {t : State} (hs : s.Canonical)
    (ht : s.writeExitStatus ctx image num e = some t) : t.Canonical := by
  unfold State.writeExitStatus at ht
  split at ht
  · cases ht
  · cases ht
    exact hs
  · cases ht
    exact hs.writeVa

/-! ## Waits, heddles, arrival counters and censuses (R341 to R344, R386, R396 to R400) -/

theorem finishWait {l k : Nat} {pc : DWord} {d : Reg} {act : Word} {fl : BitVec 6} {f : Option (Nat → Word)}
    (hs : s.Canonical) :
    (s.finishWait l k pc d act fl f).Canonical :=
  hs.modWeft

theorem completePhase {l key : Nat} (hs : s.Canonical) : (s.completePhase l key).Canonical := by
  unfold State.completePhase
  split
  · exact hs
  · refine modLoom (foldl ?_ fun s k hs => ?_) fun _ hx => hx
    · split
      · exact hs
      · split
        · split
          · exact hs.vectorRecords
          · exact hs
        · exact hs
    · split
      · split
        · exact hs.finishWait
        · exact hs
      · exact hs

theorem leaveHeddle {l k key : Nat} (hs : s.Canonical) : (s.leaveHeddle l k key).Canonical := by
  unfold State.leaveHeddle
  split
  · exact ite (hs.modLoom (by exact fun _ hx => hx)).completePhase (hs.modLoom fun _ hx => hx)
  · exact hs

theorem leaveHeddles {l k : Nat} (hs : s.Canonical) : (s.leaveHeddles l k).Canonical := hs.foldl fun _ _ hs => hs.leaveHeddle

theorem setArm {a : ArmAt} {e : Option Arm} (hs : s.Canonical) : (s.setArm a e).Canonical := by
  cases a with
  | loom l i => cases e with
    | none => exact hs.modLoom fun _ hx => hx
    | some e => exact hs.modLoom fun _ hx => hx
  | bank b i => cases e with
    | none => exact hs
    | some e => exact hs

theorem releaseAwait {status : Word} {ws : List (Nat × Nat × Bool)} (hs : s.Canonical) :
    (s.releaseAwait status ws).Canonical :=
  hs.foldl fun s p hs => by
    dsimp only
    split
    · split
      · refine finishWait ?_
        split
        · exact ite hs.dropL1 hs
        · exact hs
      · exact hs
    · exact hs

theorem checkArm {a : ArmAt} (hs : s.Canonical) : (s.checkArm a).Canonical := by
  unfold State.checkArm
  split
  · exact hs
  · exact ite (ite hs.releaseAwait hs).releaseAwait.setArm (ite hs.releaseAwait hs)

theorem checkArms (hs : s.Canonical) : (s.checkArms).Canonical := hs.foldl fun _ _ hs => hs.checkArm

theorem leaveArm {l k : Nat} (hs : s.Canonical) : (s.leaveArm l k).Canonical := by
  unfold State.leaveArm
  split
  · split
    · split
      · exact hs.setArm
      · exact hs
    · exact hs
  · exact hs

theorem censusAnswered {key : Nat} {v : Option Word} {fl : BitVec 16} {from_ : Nat × Nat × Nat} (hs : s.Canonical) :
    (s.censusAnswered key v fl from_).Canonical := by
  unfold State.censusAnswered
  split
  · exact hs
  · exact hs.crossDies

theorem responderEnd {l : Nat} {w : Weft} {r : Responder} (hs : s.Canonical) : (s.responderEnd l w r).Canonical := by
  unfold State.responderEnd
  exact hs.censusAnswered.modLoom fun _ hx => hx

/-! ## Terminations and traps (R415 to R418, R423) -/

theorem cancelMove {o : Op} (hs : s.Canonical) : (s.cancelMove o).Canonical := by
  unfold State.cancelMove
  split
  · refine iteLeft ?_ fun hs => hs.modLoom fun x hx => ?_
    · refine iteLeft (iteLeft (hs.iteLeft ?_) ?_) ?_
      · exact fun hs => hs.modLoom fun _ hx => hx
      · exact fun hs => hs.modLoom fun _ hx => hx
      · exact fun hs => hs.modLoom fun _ hx => hx
    · split
      · exact hx
      · exact hx
  · exact hs

theorem discardOps {l k : Nat} (hs : s.Canonical) : (s.discardOps l k).Canonical := by
  refine modLoom (foldl hs fun s p hs => modLoom ?_ fun x hx => hx.setQueue) fun x hx => hx.foldl fun x c hx => hx.setQueue
  split
  · exact hs.cancelMove
  · exact hs

theorem cancelReplay {w : Weft} (hs : s.Canonical) : (s.cancelReplay w).Canonical :=
  hs.foldl fun s o hs => by
    split
    · exact hs.cancelMove
    · exact hs

theorem terminate {l k exit cause : Nat} {code : Option Nat} {pc : DWord} (hs : s.Canonical) :
    (s.terminate l k exit cause code pc).Canonical := by
  unfold State.terminate
  split
  · exact hs
  · split
    · exact hs
    · split
      exact (hs.leaveHeddles.leaveArm.cancelReplay.discardOps.modWeft.modLoom (by exact fun _ hx => hx)).setFresh

theorem terminateTeam {l h : Nat} (hs : s.Canonical) : (s.terminateTeam l h).Canonical := hs.foldl fun _ _ hs => hs.terminate

theorem setStop {l h : Nat} {st : Option Stop → Stop} (hs : s.Canonical) : (s.setStop l h st).Canonical :=
  hs.modTeam.modLoom fun _ hx => hx

theorem trapWaits {l k : Nat} {r : TrapReq} (hs : s.Canonical) : (s.trapWaits l k r).Canonical := by
  unfold State.trapWaits
  split
  · exact hs
  · dsimp only
    split
    · exact hs.setWeft
    · split
      · exact hs.setWeft
      · exact ite hs.setWeft.terminateTeam hs.setWeft.setStop

theorem raise {l k : Nat} {pc : DWord} {lane : Nat} {c : Cause} (hs : s.Canonical) : (s.raise l k pc lane c).Canonical := by
  unfold State.raise
  split
  next ht => exact hs.takeTrap ht
  · exact hs.terminate
  · exact hs.terminate
  · exact hs.trapWaits

/-! ## The end of a weft and of a team, and what follows at once from a step (R45, R49, R54, R86, R160, R332) -/

theorem retireIds {ids : List TeamId} (hs : s.Canonical) : (s.retireIds ids).Canonical := hs

theorem dropBoxes {keep : Mailbox → Bool} (hs : s.Canonical) : (s.dropBoxes keep).Canonical := hs

theorem refuseResults {l k ctx : Nat} (hs : s.Canonical) : (s.refuseResults l k ctx).Canonical :=
  hs.mapLooms fun _ hx => hx.foldl fun _ _ hx => hx.setQueue

theorem refuseSenders {l k ctx : Nat} (hs : s.Canonical) : (s.refuseSenders l k ctx).Canonical :=
  hs.refuseResults.foldl fun _ _ hs => hs.modWeft.raise

theorem closePort {l k : Nat} (hs : s.Canonical) : (s.closePort l k).Canonical := by
  unfold State.closePort
  split
  · exact hs
  · exact hs.setWeft.refuseSenders

theorem endWeft {l k : Nat} (hs : s.Canonical) : (s.endWeft l k).Canonical := by
  unfold State.endWeft
  split
  · exact hs
  next w _ =>
    have answered : (match w.responder with
        | none => (s.leaveHeddles l k).closePort l k
        | some r => ((s.leaveHeddles l k).closePort l k).responderEnd l w r).Canonical := by
      split
      · exact hs.leaveHeddles.closePort
      · exact hs.leaveHeddles.closePort.responderEnd
    exact modLoom (ite answered.retireIds.dropBoxes answered) fun x hx => ⟨Memory.wf_zero _ _ _ hx.1, hx.2⟩

theorem retireTeam {l h : Nat} (hs : s.Canonical) : (s.retireTeam l h).Canonical := by
  unfold State.retireTeam
  split
  · exact hs
  · exact ite hs (hs.modLoom fun x hx => hx.releaseRanges.releaseEntries.removeTeam).retireIds.dropBoxes

theorem signalLaunch {x : Launch} {t : State} (hs : s.Canonical) (ht : s.signalLaunch x = some t) : t.Canonical := by
  unfold State.signalLaunch at ht
  dsimp only at ht
  split at ht
  · cases ht
    exact hs.eventRecord
  · split at ht
    · cases ht
    · cases ht
      exact hs.writeVa
    · cases ht
      exact hs.eventRecord

theorem signalAll (hs : s.Canonical) : (s.signalAll).Canonical :=
  hs.foldl fun s x hs => by
    split
    · split
      · exact hs
      next t ht => exact (hs.signalLaunch ht : t.Canonical)
    · exact hs

theorem exitAll (hs : s.Canonical) : (s.exitAll).Canonical :=
  hs.foldl fun s p hs => hs.foldl fun s q hs => by
    split
    · split
      · exact hs
      · split
        · exact hs
        next ht => exact (hs.writeExitStatus ht).modWeft
    · exact hs

theorem startAll (hs : s.Canonical) : (s.startAll).Canonical :=
  hs.foldl fun s p hs => hs.foldl fun s q hs => by
    split
    · split
      · exact hs
      · exact hs.modTeam
      · exact hs.writeVa.modTeam
    · exact hs

theorem ringDeferred {l k : Nat} (hs : s.Canonical) : (s.ringDeferred l k).Canonical := by
  unfold State.ringDeferred
  split
  · exact hs
  · split
    · exact hs
    · dsimp only
      split
      · exact hs.setWeft
      · exact hs.setWeft.foldl fun _ _ hs => hs.modTeam

theorem deferredAll (hs : s.Canonical) : (s.deferredAll).Canonical :=
  hs.foldl fun _ _ hs => hs.foldl fun _ _ hs => hs.ringDeferred

theorem ringAll (hs : s.Canonical) : (s.ringAll).Canonical :=
  hs.foldl fun s p hs => hs.foldl fun s q hs => by
    split
    · split
      · exact ite hs.finishWait hs
      · exact hs
    · exact hs

theorem retireAll (hs : s.Canonical) : (s.retireAll).Canonical :=
  hs.foldl fun _ _ hs => hs.foldl fun _ _ hs => ite hs hs.retireTeam

theorem settle (hs : s.Canonical) : (s.settle).Canonical :=
  hs.checkArms.recordsAll.deferredAll.ringAll.exitAll.startAll.retireAll.signalAll

end State.Canonical

end Sys2Proof.Machine
end

section
/-! SUPPORT. Memories in canonical form: issue, the bodies of instructions, control transfer, loads, stores and atomics
(R95 to R166, R208, R251 to R262). -/

namespace Sys2Proof.Machine

/-! ## What an instruction's body and its issue come to -/

/-- The next state of a result, where it is one, is canonical. -/
def NextCanonical (r : Result) : Prop := ∀ t, r = .next t → t.Canonical

/-- The state of an effect, where it has one, is canonical. -/
def Effect.Canonical : Effect → Prop
  | .hold | .holdRange | .park | .trap _ => True
  | .done s _ _ | .jump s _ | .waits s | .begins s | .after s _ | .trapIn s _ | .left s | .holdIn s => s.Canonical

/-- The state that a unit leaves, where it is done, is canonical. -/
def UnitOut.Canonical : UnitOut → Prop
  | .wait | .fault .. => True
  | .did s _ _ => s.Canonical

theorem UnitOut.Canonical.ofGot {g : Got} : g.out.Canonical := by cases g <;> trivial

/-- From a canonical state a body comes to one. -/
def KeepsCanonical (body : Iss → State → Effect) : Prop := ∀ x s, s.Canonical → (body x s).Canonical

theorem NextCanonical.ite {a b : Result} {c : Prop} [Decidable c] (ha : NextCanonical a) (hb : NextCanonical b) :
    NextCanonical (if c then a else b) := by
  split
  · exact ha
  · exact hb

theorem Effect.Canonical.ite {a b : Effect} {c : Prop} [Decidable c] (ha : a.Canonical) (hb : b.Canonical) :
    (if c then a else b).Canonical := by
  split
  · exact ha
  · exact hb

namespace State.Canonical

variable {s : State}

/-! ## The shared issue (R415) -/

theorem logDeferred {l k ctx : Nat} {keys : List Nat} (hs : s.Canonical) : (s.logDeferred l k ctx keys).Canonical :=
  hs.foldl fun _ _ hs => hs.modWeft.eventRecord.loomError

theorem countSoft {l : Nat} {w : Weft} {i : Instr} {mask act : Word} (hs : s.Canonical) :
    (s.countSoft l w i mask act).Canonical :=
  hs.iteLeft fun hs => hs.foldl fun _ _ hs => hs.loomError.countLoom

theorem noteTrap {l : Nat} {w : Weft} {i : Instr} {c : Cause} (hs : s.Canonical) : (s.noteTrap l w i c).Canonical := by
  unfold State.noteTrap
  split
  · exact hs.loomError
  · split
    · split
      · exact hs.loomError
      · exact hs.noteError
    · exact hs

theorem sendFlit {from_ l k : Nat} {flit : List Word} (hs : s.Canonical) : (s.sendFlit from_ l k flit).Canonical :=
  hs.modWeft.crossDies

theorem sideEffect {l : Nat} {w : Weft} (hs : s.Canonical) : (s.sideEffect l w).Canonical := by
  unfold State.sideEffect
  split
  · exact hs
  · exact hs.modTeam

theorem countIssue {l k : Nat} {w : Weft} {act : Word} {starving : Bool} (hs : s.Canonical) :
    (s.countIssue l k w act starving).Canonical := by
  have counted : (match w.team with
      | none => s
      | some h => s.modTeam l h fun t => { t with issued := t.issued + 1 }).Canonical := by
    split
    · exact hs
    · exact hs.modTeam
  exact (counted.countLoom.countLoom.iteRight fun hs => hs.countLoom).modLoom fun _ hx => hx

theorem complete {x : Iss} {i : Instr} {fl : BitVec 6} {recs : List LaneRec} {upd : Weft → Weft} (hs : s.Canonical) :
    (s.complete x i fl recs upd).Canonical :=
  hs.vectorRecords.modWeft.countIssue

theorem finishSend {s0 s' : State} {x : Iss} {i : Instr} {p : Port} {fl : BitVec 6} {recs : List LaneRec} (hs : s.Canonical)
    (h0 : s0.Canonical) (hs' : s'.Canonical) : (finishSend s s0 s' x i p fl recs).Canonical := by
  unfold Machine.finishSend
  dsimp only
  split
  · exact hs'
  · split
    · exact h0.raise
    · exact ite hs.modWeft hs'.modWeft.sideEffect.complete.sendFlit

theorem next (hs : s.Canonical) : NextCanonical (.next s) := fun _ h => by
  cases h
  exact hs

/-- The shared issue keeps what its body keeps. -/
theorem issue {i : Instr} {body : Iss → State → Effect} (hs : s.Canonical) (hb : KeepsCanonical body) :
    NextCanonical (issue i body s) := by
  unfold Machine.issue
  split
  · exact fun _ h => nomatch h
  next c _ =>
    split
    · exact fun _ h => nomatch h
    next w _ =>
      extract_lets act x s0 sends sb keep
      have h0 : s0.Canonical := hs.logDeferred.countSoft
      have hsb : sb.Canonical := by
        dsimp only [sb]
        split
        · split
          · exact h0.modWeft
          · exact h0
        · exact h0
      have hkeep {t : State} (ht : t.Canonical) : (keep t).Canonical := by
        dsimp only [keep]
        split
        · exact ht.iteRight fun ht => ht.modWeft
        · exact ht
      refine NextCanonical.ite hs.next ?_
      split
      · exact hs.noteTrap.raise.next
      · have he := hb x sb hsb
        generalize body x sb = e at he ⊢
        cases e with
        | hold => exact hs.next
        | holdRange => exact hs.countLoom.next
        | park => exact hs.modWeft.next
        | trap e => exact h0.noteTrap.raise.next
        | trapIn t e => exact (hkeep he).noteTrap.raise.next
        | done t fl recs =>
          dsimp only
          split
          · exact NextCanonical.ite (finishSend hs h0 he).next (complete he).next
          · exact (complete he).next
        | jump t es => exact (complete he).next
        | waits t => exact (hkeep he).modWeft.countIssue.next
        | begins t => exact (hkeep he).next
        | after t e => exact (complete he).raise.next
        | holdIn t => exact next he
        | left t => exact (countIssue he).next

end State.Canonical

namespace KeepsCanonical

theorem regBody {d : Reg} {f : Weft → Iss → Nat → Word} : KeepsCanonical (regBody d f) := fun _ _ hs => hs.modWeft

theorem pairBody {d : Reg} {f : Weft → Iss → Nat → DWord} : KeepsCanonical (pairBody d f) := fun _ _ hs => hs.modWeft

theorem macroBody {body : Iss → State → Effect} (h : KeepsCanonical body) : KeepsCanonical (macroBody body) :=
  fun x s hs => .ite hs (h x s hs)

theorem slotEffect {d : Reg} {out : Iss → Nat → LaneOut} : KeepsCanonical fun x s => slotEffect x s d (out x) :=
  fun _ _ hs => hs.modWeft

theorem elemBody {n : BitVec 4} {d a b c : Reg} {g : Iss → Fmt → Nat → Num → Num → Num → Rounded} :
    KeepsCanonical (elemBody n d a b c g) := fun _ _ hs => hs.modWeft

theorem floatBody {n : BitVec 4} {d a b : Reg} {g : Fmt → DWord → Word → Num → Num → Rounded} :
    KeepsCanonical (floatBody n d a b g) := fun _ _ hs => .ite trivial hs.modWeft

end KeepsCanonical

namespace State.Canonical

variable {s : State}

theorem setL {x : Iss} {d : Reg} {v : Word} (hs : s.Canonical) : (s.setL x d v).Canonical := hs.modWeft

theorem setLPair {x : Iss} {d : Reg} {v : DWord} (hs : s.Canonical) : (s.setLPair x d v).Canonical := hs.modWeft

/-! ## Instruction lines and hints (R208, R260) -/

theorem fillFor {l ctx : Nat} {pc : Nat} {leaf : Leaf} {pa : Nat} (hs : s.Canonical) : (s.fillFor l ctx pc leaf pa).Canonical :=
  (hs.freshLine.modLoom (by exact fun _ hx => hx)).homeAccess

theorem lineServed {l ctx line : Nat} (hs : s.Canonical) : (s.lineServed l ctx line).2.Canonical := by
  unfold State.lineServed
  split
  · exact hs
  · split
    · exact hs
    · exact (hs.freshLine.modLoom (by exact fun _ hx => hx)).loomError

theorem fetchWord {l ctx : Nat} {pc : DWord} {leaf : Leaf} {pa : Nat} (hs : s.Canonical) :
    (s.fetchWord l ctx pc leaf pa).1.Canonical := by
  unfold State.fetchWord
  have walked : (if (tlbFind (s.tlb (.core l)) ctx pc.toNat leaf.level).isSome then s
      else (s.fillTlb (.core l) ctx pc.toNat).countLoom l 0x0A ctx 1).Canonical :=
    hs.iteLeft fun hs => hs.fillTlb.countLoom
  have served := walked.lineServed (l := l) (ctx := ctx) (line := pc.toNat / lineBytes)
  dsimp only
  split
  next he =>
    rw [he] at served
    exact modLoom served fun _ hx => hx
  next he =>
    rw [he] at served
    split
    · exact (fillFor served).countLoom
    · exact (fillFor served).countLoom

theorem hintIssue {fill : Iss → State → State} (hf : ∀ x, (fill x s).Canonical) :
    NextCanonical (hintIssue fill s) := by
  unfold Machine.hintIssue
  split
  · exact fun _ h => nomatch h
  · split
    · exact fun _ h => nomatch h
    · exact (hf _).complete.next

theorem dprefFill {h : Guard} {a b : Reg} {imm : BitVec 16} {x : Iss} (hs : s.Canonical) :
    (dprefFill h a b imm x s).Canonical :=
  hs.iteLeft fun hs => hs.iteLeft fun hs => hs.iteLeft fun hs => by
    split
    · exact hs.iteLeft fun hs => hs.noteOne
    · exact hs

theorem iprefFill {n : BitVec 3} {off : BitVec 16} {x : Iss} (hs : s.Canonical) : (iprefFill n off x s).Canonical :=
  hs.foldl fun s k hs => by
    dsimp only
    split
    · exact hs.iteLeft fun hs => hs.modLoom fun _ hx => hx
    · exact hs

theorem execInstructionCacheFill {l : Nat} {ctx : BitVec 16} {line : Nat} (hs : s.Canonical) :
    NextCanonical (execInstructionCacheFill l ctx line s) := by
  unfold Machine.execInstructionCacheFill
  split
  · exact hs.next
  · dsimp only
    split
    · exact (hs.modLoom (by exact fun _ hx => hx)).fillFor.next
    · exact (hs.modLoom (by exact fun _ hx => hx)).next

/-! ## Control transfer and the allotment (R155 to R166) -/

theorem link {x : Iss} {d : Reg} (hs : s.Canonical) : (s.link x d).Canonical := hs.modWeft

theorem waitIssues {l k : Nat} {w : Weft} {pc : DWord} {act : Word} (hs : s.Canonical) :
    (s.waitIssues l k w pc act).Canonical :=
  hs.countIssue.modWeft

theorem endVgrow {l k : Nat} {ok : Bool} (hs : s.Canonical) : (s.endVgrow l k ok).Canonical := by
  unfold State.endVgrow
  split
  · split
    · exact (hs.modLoom (by exact fun _ hx => hx)).waitIssues.modWeft.finishWait
    · exact hs
  · exact hs

theorem execVgrow {h : Guard} {d : Reg} {n : BitVec 8} (hs : s.Canonical) : NextCanonical (execVgrow h d n s) :=
  hs.issue <| .macroBody fun _ _ hs => .ite trivial (.ite hs.modWeft (hs.modLoom (by exact fun _ hx => hx)).modWeft)

theorem execVshrink {h : Guard} {n : BitVec 8} (hs : s.Canonical) : NextCanonical (execVshrink h n s) :=
  hs.issue <| .macroBody fun _ _ hs => .ite trivial (.ite trivial (.ite hs hs.modWeft))

theorem execVgrowBlocksObtained {l k : Nat} (hs : s.Canonical) : NextCanonical (execVgrowBlocksObtained l k s) := by
  unfold Machine.execVgrowBlocksObtained
  split
  · split
    · exact .ite hs.endVgrow.next hs.next
    · exact hs.next
  · exact hs.next

theorem execVgrowTimeout {l k : Nat} (hs : s.Canonical) : NextCanonical (execVgrowTimeout l k s) := by
  unfold Machine.execVgrowTimeout
  split
  · split
    · exact .ite hs.endVgrow.next hs.next
    · exact hs.next
  · exact hs.next

/-! ## Loads, stores and atomics (R251 to R262) -/

theorem noteSo {v : View} {load write : Bool} {accs : List Acc} (hs : s.Canonical) : (s.noteSo v load write accs).Canonical :=
  hs.dropL1.note.dropL1.ite hs.note

theorem acquire {v : View} {acq : Bool} {accs : List Acc} (hs : s.Canonical) : (s.acquire v acq accs).Canonical :=
  hs.iteRight fun hs => hs.dropL1

theorem storeMark {v : View} {x : Iss} {accs : List Acc} (hs : s.Canonical) : (s.storeMark v x accs).Canonical :=
  hs.iteRight fun hs => hs.sideEffect

/-- Each lane's store keeps the memories canonical; the old values that are gathered are no part of the state. -/
theorem updateLanes {l : Nat} {ls : List (Nat × List Spot)} {new : Nat → Nat → Option Nat} (hs : s.Canonical) :
    (updateLanes l ls new s).1.Canonical := by
  refine wholeUnits (List.foldlRecOn (motive := fun acc : State × List (Nat × Nat) => acc.1.Canonical) ls _ hs
    fun acc hacc p _ => ?_)
  dsimp only
  split
  · exact hacc
  · exact hacc.storeSpots.checkArms

end State.Canonical

theorem KeepsCanonical.accessBody {load store resid : Bool} {accs : Iss → List Acc} {eff : View → Iss → State → Effect}
    (h : ∀ v, KeepsCanonical (eff v)) : KeepsCanonical (accessBody load store resid accs eff) := fun x s hs => by
  unfold Machine.accessBody
  refine .ite trivial (.ite trivial ?_)
  split
  · trivial
  · trivial
  · split
    · trivial
    · exact h _ x _ hs.noteSo.noteSoft

theorem KeepsCanonical.atomBody {op : AtomOp} {w64 : Bool} {o : Order} {d : Reg} {ea : Weft → Nat → DWord}
    {cmp : Weft → Nat → Nat} : KeepsCanonical (atomBody op w64 o d ea cmp) := by
  unfold Machine.atomBody
  refine .accessBody fun _ _ _ hs => ?_
  exact .ite hs.sideEffect hs.sideEffect.updateLanes.acquire.modWeft

namespace State.Canonical

variable {s : State}

theorem execLd {h : Guard} {d a b : Reg} {imm : BitVec 16} {wd : Width} {acq : Bool} (hs : s.Canonical) :
    NextCanonical (execLd h d a b imm wd acq s) :=
  hs.issue <| .accessBody fun _ _ _ hs => hs.acquire.modWeft

theorem execSt {h : Guard} {d a b : Reg} {imm : BitVec 16} {wd : Width} {rel : Bool} (hs : s.Canonical) :
    NextCanonical (execSt h d a b imm wd rel s) :=
  hs.issue <| .accessBody fun _ _ _ hs => hs.storeMark.updateLanes

theorem execFence {h : Guard} {sc : Scope} (hs : s.Canonical) : NextCanonical (execFence h sc s) :=
  hs.issue <| .macroBody fun _ _ hs => hs.iteRight fun hs => hs.dropL1

theorem execPagein {h : Guard} {a b : Reg} {imm : BitVec 16} (hs : s.Canonical) : NextCanonical (execPagein h a b imm s) :=
  hs.issue fun _ _ hs => .ite trivial (hs.foldl fun _ _ hs => hs.eventRecord)

theorem execAtomFadd {h : Guard} {n : BitVec 4} {d a b : Reg} {imm : BitVec 16} {o : Order} (hs : s.Canonical) :
    NextCanonical (execAtomFadd h n d a b imm o s) :=
  hs.issue fun x s hs => .ite trivial <| by
    refine KeepsCanonical.accessBody (fun _ _ _ hs => ?_) x s hs
    exact .ite hs.sideEffect hs.sideEffect.updateLanes.acquire.modWeft

end State.Canonical

end Sys2Proof.Machine
end

section
/-! SUPPORT. Memories in canonical form: the copy, gather, bank and matrix engines, tile slots and ranges (R215 to R312). -/

namespace Sys2Proof.Machine

namespace State.Canonical

variable {s : State}

/-! ## Engines: queues, requests at the controllers, units and retirement (R125, R226, R227, R263 to R265, R394) -/

theorem busy {act inst : Nat} (hs : s.Canonical) : (s.busy act inst).Canonical := hs

theorem copyBusy {l : Nat} (hs : s.Canonical) : (s.copyBusy l).Canonical := hs.modLoom fun _ hx => hx

theorem swapBusy {l : Nat} (hs : s.Canonical) : (s.swapBusy l).Canonical := hs.modLoom fun _ hx => hx

theorem modOp {l : Nat} {c : OcClass} {id : Nat} {f : Op → Op} (hs : s.Canonical) : (s.modOp l c id f).Canonical :=
  hs.modLoom fun _ hx => hx.setQueue

theorem removeOp {l : Nat} {c : OcClass} {id : Nat} (hs : s.Canonical) : (s.removeOp l c id).Canonical :=
  hs.modLoom fun _ hx => hx.setQueue.dropRanges

theorem setProgress {o : Op} {u : Nat} (hs : s.Canonical) : (s.setProgress o u).Canonical := by
  unfold State.setProgress
  split
  · exact hs
  · exact hs.modWeft

theorem softBlock {ctx b : Nat} (hs : s.Canonical) : (s.softBlock ctx b).Canonical :=
  hs.iteLeft fun hs => hs.foldl fun _ _ hs => hs.softAt

theorem hostHome {sp : Space} {a : Nat} (hs : s.Canonical) : (s.hostHome sp a).Canonical := by
  cases sp with
  | hbm => exact ite hs.touchL2 hs.countDie
  | market => exact hs.countDie
  | host => exact hs

theorem hostWrite {sp : Space} {a : Nat} {data : List Byte} (hs : s.Canonical) : (s.hostWrite sp a data).Canonical := by
  have written : ((s.hostHome sp a).modMem fun m =>
      m.setOf sp (Memory.writeBytes (m.of sp) a (s.hostFielded sp a data))).Canonical :=
    hs.hostHome.modMem fun m hm => hm.setOf (Memory.wf_writeBytes _ _ _ hm.of)
  exact written.iteRight fun hs => hs.modMem fun _ hx => hx

theorem serveRequest {k : Nat} {m : Merge} (hs : s.Canonical) : (s.serveRequest k m).Canonical :=
  hs.iteLeft fun hs => by
    split
    · exact hs
    · exact hs.modMem fun _ hx => hx
    · exact hs.hostWrite.modMem fun _ hx => hx
    · exact hs.setOutbox.modMem fun _ hx => hx
    · dsimp only
      split
      · exact hs
      · exact (hs.modMem (by exact fun _ hx => hx)).modMem fun _ hx => hx

theorem admitMerges (hs : s.Canonical) : (s.admitMerges).Canonical :=
  (hs.foldl fun _ _ hs => hs.serveRequest).modMem fun _ hx => hx

theorem request {ms : List Merge} (hs : s.Canonical) : (s.request ms).Canonical :=
  (hs.modMem (by exact fun _ hx => hx)).admitMerges

theorem putBits {v : View} {base : DWord} {bit w val : Nat} (hs : s.Canonical) : (s.putBits v base bit w val).Canonical :=
  hs.storeSpots.checkArms

theorem settleMarks {v : View} {a : Acc} {covers : Nat → Nat → Bool} (hs : s.Canonical) :
    (s.settleMarks v a covers).Canonical :=
  hs.foldl fun _ _ hs => hs.iteRight fun hs => hs.wholeUnits

theorem noteEngine {v : View} {comp : Bool} {a : Acc} {write : Bool} (hs : s.Canonical) :
    (s.noteEngine v comp a write).Canonical := by
  unfold State.noteEngine
  split
  · split
    · exact ite hs.missTlb (hs.missTlb.foldl fun _ _ hs => hs.softBlock)
    · exact hs
  · exact hs.note.noteSoft

theorem softTile {l ctx : Nat} (hs : s.Canonical) : (s.softTile l ctx).Canonical := hs.loomError.countLoom

theorem opFault {o : Op} {cause code : Nat} {detail : DWord} (hs : s.Canonical) :
    (s.opFault o cause code detail).Canonical := by
  have noted : (if cause = tileError then s.loomError o.loom 5
      else if cause = 0x0E then s.noteError (s.opView o) detail else s).Canonical :=
    ite hs.loomError (hs.iteRight fun hs => hs.noteError)
  exact (noted.modMem (by exact fun _ hx => hx)).admitMerges.removeOp.modWeft.fillReplay

theorem applyUnit {o : Op} {u : Nat} {r : UnitOut} (hs : s.Canonical) (hr : r.Canonical) : (s.applyUnit o u r).Canonical := by
  cases r with
  | wait => exact hs
  | fault cause code detail => exact hs.opFault
  | did t fl recs =>
    have done {f : Op → Op} : (((t.opRecords o (o.convRecs recs)).setProgress o u).modOp o.loom o.cls o.id f).Canonical :=
      (opRecords hr).setProgress.modOp
    unfold State.applyUnit
    dsimp only
    split
    · exact done.countLoom
    · exact done.countLoom
    · exact done.countLoom
    · exact done

theorem loadL {addr : DWord} {n align : Nat} {k : Nat → State → Effect} {x : Iss} (hs : s.Canonical)
    (hk : ∀ n t, t.Canonical → (k n t).Canonical) : (loadL addr n align k x s).Canonical :=
  .ite trivial <| KeepsCanonical.accessBody (fun _ _ t ht => hk _ t ht) x s hs

theorem acceptOp {x : Iss} {o : Op} {sps : List Span} {mark : Bool} (hs : s.Canonical) :
    (acceptOp x o sps mark s).Canonical := by
  unfold Machine.acceptOp
  refine .ite trivial ?_
  have entered {o' : Op} {rs : List Range} {f : Weft → Weft} {n : Nat} :
      ({ ((s.modLoom x.l fun y => { (y.setQueue o.cls (y.queue o.cls ++ [o'])) with ranges := y.ranges ++ rs }).modWeft
        x.l x.k f) with fresh := n } : State).Canonical :=
    (hs.modLoom fun _ hx => hx.setQueue.setRanges).modWeft.setFresh
  exact entered.iteRight fun hs => hs.sideEffect

theorem retireOp {o : Op} {res : Weft → Weft} (hs : s.Canonical) : (s.retireOp o res).Canonical :=
  hs.removeOp.modWeft

/-! ## Copies and bank commands (R224 to R227, R266 to R274) -/

theorem loadRecord {addr : DWord} {k : BitVec 832 → State → Effect} {x : Iss} (hs : s.Canonical)
    (hk : ∀ r t, t.Canonical → (k r t).Canonical) : (loadRecord addr k x s).Canonical := hs.loadL fun _ t ht => hk _ t ht

theorem loadIndex {t : Tensor} {k : BitVec 832 → State → Effect} {x : Iss} (hs : s.Canonical)
    (hk : ∀ r t, t.Canonical → (k r t).Canonical) : (loadIndex t k x s).Canonical := .ite (hs.loadRecord hk) (hk 0 s hs)

theorem noteSource {o : Op} {p : CopyPlan} {u : Nat} (hs : s.Canonical) : (s.noteSource o p u).Canonical :=
  hs.foldl fun _ _ hs => hs.noteEngine

theorem sendMerges {o : Op} {ms : List Merge} (hs : s.Canonical) : (s.sendMerges o ms).Canonical := hs.modOp.request

theorem askBlocks {o : Op} {p : CopyPlan} {us : List Nat} (hs : s.Canonical) : (s.askBlocks o p us).Canonical :=
  hs.iteLeft fun hs => hs.request

theorem dropReads {o : Op} (hs : s.Canonical) : (s.dropReads o).Canonical := hs.iteLeft fun hs => hs.modMem fun _ hx => hx

theorem copyBlocks {o : Op} {p : CopyPlan} {u : Nat} {pc : Piece} {recs : List (Nat × Nat)} (hs : s.Canonical) :
    (s.copyBlocks o p u pc recs).Canonical := by
  unfold State.copyBlocks
  extract_lets v places all bs s1 ws
  have h1 : s1.Canonical := hs.noteSource.noteEngine
  refine ite (hs.applyUnit h1.dropReads) ?_
  clear_value ws
  split
  · exact hs.askBlocks
  · exact h1.dropReads.sendMerges

theorem copyUnit {o : Op} {u : Nat} (hs : s.Canonical) : (s.copyUnit o u).Canonical := by
  unfold State.copyUnit
  dsimp only
  split
  · split
    · exact hs.askBlocks
    · exact hs.applyUnit .ofGot
    · exact hs.dropReads.modOp
  · split
    · exact hs.askBlocks
    · exact hs.applyUnit .ofGot
    · split
      · split
        · exact hs.applyUnit trivial
        · refine hs.applyUnit (dropReads ?_)
          exact (hs.noteSource.modLoom fun x hx => hx.setTileBits).iteRight fun hs => hs.modMem fun _ hx => hx
      · split
        · exact hs.applyUnit .ofGot
        · exact ite hs.copyBlocks (hs.applyUnit hs.noteSource.putBits.noteEngine.settleMarks.dropReads)

end State.Canonical

theorem KeepsCanonical.copyBody {touch : Op → Touch} {i : Instr} {t : TileSide} {n : BitVec 4} {a : Reg} :
    KeepsCanonical (copyBody touch i t n a) := by
  refine .macroBody fun x s hs => .ite trivial ?_
  have sided {tile : Bool} {addr : DWord} {k : BitVec 832 → State → Effect} {s : State} (hs : s.Canonical)
      (hk : ∀ r t, t.Canonical → (k r t).Canonical) : (if tile then k 0 s else loadRecord addr k x s).Canonical :=
    .ite (hk 0 s hs) (hs.loadRecord hk)
  have indexed {tile : Bool} {r : Tensor} {k : BitVec 832 → State → Effect} {s : State} (hs : s.Canonical)
      (hk : ∀ r t, t.Canonical → (k r t).Canonical) : (if tile then k 0 s else loadIndex r k x s).Canonical :=
    .ite (hk 0 s hs) (hs.loadIndex hk)
  refine hs.loadL fun _ _ hs => sided hs fun _ _ hs => sided hs fun _ _ hs => indexed hs fun _ _ hs => indexed hs
    fun _ _ hs => .ite trivial ?_
  split
  · trivial
  · exact hs.acceptOp

theorem KeepsCanonical.cmpBody {i : Instr} {n : BitVec 4} {a : Reg} : KeepsCanonical (cmpBody i n a) :=
  .macroBody fun _ _ hs => .ite trivial (hs.loadL fun _ _ hs => hs.acceptOp)

namespace State.Canonical

variable {s : State}

theorem cmpUnit {o : Op} {u : Nat} (hs : s.Canonical) : (s.cmpUnit o u).Canonical := by
  unfold State.cmpUnit
  extract_lets p v isCmp start
  split
  · exact hs.applyUnit .ofGot
  · exact hs
  · exact hs.applyUnit trivial
  · exact modOp (hs.applyUnit hs)
  · split
    · extract_lets bit
      split
      · exact hs.applyUnit .ofGot
      · exact modOp (hs.applyUnit hs.noteEngine.noteEngine.putBits.noteEngine.settleMarks)
    · exact hs.applyUnit .ofGot

theorem execBankop {h : Guard} {op : BankOp} {n : BitVec 4} {a b c : Reg} (hs : s.Canonical) :
    NextCanonical (execBankop h op n a b c s) :=
  hs.issue <| .macroBody fun _ _ hs => .ite trivial <| by
    dsimp only
    split
    · trivial
    · exact .ite trivial (.ite trivial (.ite trivial hs.acceptOp))

theorem bankPart {o : Op} {bank : Nat} (hs : s.Canonical) : (s.bankPart o bank).Canonical := by
  have left {t : State} {f : Op → Op} (ht : t.Canonical) : (t.modOp o.loom .bank o.id f).Canonical := ht.modOp
  refine hs.iteLeft fun hs => ?_
  dsimp only
  split
  · exact left hs.noteError.opRecords
  · refine left (checkArms (iteRight ?_ fun hs => hs.opRecords)).countDie.crossDies
    refine List.foldlRecOn (motive := fun acc : State × BitVec 6 × List (Nat × Nat) => acc.1.Canonical) _ _ hs
      fun acc hacc e _ => ?_
    split
    · exact hacc.writeBytesVa
    · exact hacc.writeVa

theorem writeBlock {b : Nat} {bytes : List Byte} (hs : s.Canonical) : (s.writeBlock b bytes).Canonical := by
  unfold State.writeBlock
  split
  exact hs.modMem fun m hm => ⟨Memory.wf_writeBytes _ _ _ hm.1, hm.2⟩

theorem freeMerge {ctrl : Nat} {m : Merge} (hs : s.Canonical) : (s.freeMerge ctrl m).Canonical :=
  (hs.modMem (by exact fun _ hx => hx)).admitMerges

theorem countMerge {ctrl : Nat} {m : Merge} {sc : Nat} (hs : s.Canonical) : (s.countMerge ctrl m sc).Canonical :=
  (hs.iteRight fun hs => hs.countDie.countDie).countDie

theorem execBlockMerge {ctrl : Nat} (hs : s.Canonical) : NextCanonical (execBlockMerge ctrl s) := by
  unfold Machine.execBlockMerge
  split
  · exact hs.next
  · extract_lets old sc s0 s1 s2
    split
    · split
      · exact hs.freeMerge.next
      · exact .ite hs.freeMerge.modOp.next hs.freeMerge.opFault.next
    · have h2 : s2.Canonical := (hs.iteRight fun hs => hs.softBlock).writeBlock.countMerge.freeMerge
      split
      · exact h2.next
      · extract_lets s3
        have h3 : s3.Canonical := h2.iteRight fun hs => hs.modOp
        exact .ite h3.next (next (modOp (h3.applyUnit h3)))

/-! ## Tile slots, ranges and the matrix engine (R283 to R312) -/

end State.Canonical

namespace Loom.Canonical

variable {x : Loom}

theorem dropKey {ctx : Nat} {key : DWord} (hx : x.Canonical) : (x.dropKey ctx key).Canonical :=
  hx.foldl fun _ _ hx => hx

theorem markKey {ctx : Nat} {key : DWord} {st : BoardState} {bump : Bool} (hx : x.Canonical) :
    (x.markKey ctx key st bump).Canonical := hx.foldl fun _ _ hx => hx

theorem setOwners {m : List (Nat × Own)} (hx : x.Canonical) : ({ x with owners := m } : Loom).Canonical := hx

end Loom.Canonical

namespace State.Canonical

variable {s : State}

theorem setCells {l : Nat} {o : Own} {cs : List (Nat × Nat × Nat)} (hs : s.Canonical) : (s.setCells l o cs).Canonical := by
  have h1 : (s.modLoom l fun x => x.setCells o cs).Canonical := hs.modLoom fun _ hx => hx
  exact h1.ite (h1.modMem fun _ hm => hm.foldl fun _ _ hm => hm)

theorem countSofts {l ctx n : Nat} (hs : s.Canonical) : (s.countSofts l ctx n).Canonical := hs.foldl fun _ _ hs => hs.softTile

theorem spillRange {l : Nat} {o : Own} {t : State} (hs : s.Canonical) (ht : s.spillRange l o = .ok t) : t.Canonical := by
  unfold State.spillRange at ht
  dsimp only at ht
  split at ht
  · cases ht
  split at ht
  · cases ht
  split at ht
  · cases ht
  · cases ht
    exact hs.writeBytesVa.countSofts.noteFrom

theorem fillRange {l : Nat} {o : Own} {from_ : DWord} {t : State} (hs : s.Canonical)
    (ht : s.fillRange l o from_ = .ok t) : t.Canonical := by
  unfold State.fillRange at ht
  dsimp only at ht
  split at ht
  · cases ht
  split at ht
  · cases ht
  split at ht
  · cases ht
  · cases ht
    exact hs.setCells.noteFrom.noteSoft

theorem spillFailed {l e : Nat} {o : Own} {cause : Nat} (hs : s.Canonical) : (s.spillFailed l e o cause).Canonical :=
  hs.eventRecord.modLoom fun _ hx => hx.dropKey

theorem evict {n l need : Nat} {t : State} (hs : s.Canonical) (ht : State.evict n s l need = some t) : t.Canonical := by
  induction n generalizing s with
  | zero => exact Option.some.inj ht ▸ hs
  | succ n ih =>
    unfold State.evict at ht
    split at ht
    · exact Option.some.inj ht ▸ hs
    split at ht
    · exact Option.some.inj ht ▸ hs
    split at ht
    · cases ht
    split at ht
    · cases ht
    · next hr => exact ih ((hs.spillRange hr).modLoom fun _ hx => hx.markKey.setOwners) ht
    · exact ih hs.spillFailed ht

theorem modOwnTeam {x : Iss} {f : Team → Team} (hs : s.Canonical) : (s.modOwnTeam x f).Canonical := by
  unfold State.modOwnTeam
  split
  · exact hs
  · exact hs.modTeam

theorem claimTiles {d : Reg} {t n : Nat} {x : Iss} (hs : s.Canonical) : (claimTiles d t n x s).Canonical := by
  unfold Machine.claimTiles
  split
  · exact hs.setL
  · exact .ite hs.setL (.ite hs.setL hs.modOwnTeam.setL)

theorem claimAcc {slot : DWord} {d : Reg} {t n : Nat} {x : Iss} (hs : s.Canonical) : (claimAcc slot d t n x s).Canonical := by
  unfold Machine.claimAcc
  refine .ite trivial ?_
  split
  · exact hs.setL
  · refine .ite hs.setL ?_
    split
    · trivial
    · next he =>
      have h1 := hs.evict he
      dsimp only
      split
      · exact h1.setL
      · exact .ite h1.setL (h1.modLoom (by exact fun _ hx => hx)).setCells.modOwnTeam.setL

theorem execTclaim {h : Guard} {acc : Bool} {n : BitVec 4} {d : Reg} {t cnt : BitVec 8} (hs : s.Canonical) :
    NextCanonical (execTclaim h acc n d t cnt s) :=
  hs.issue <| .macroBody fun _ _ hs => .ite hs.claimAcc hs.claimTiles

theorem setOwn {l e : Nat} {o : Own} (hs : s.Canonical) : (s.setOwn l e o).Canonical := hs.modLoom fun _ hx => hx

theorem freeOwn {l e : Nat} (hs : s.Canonical) : (s.freeOwn l e).Canonical := hs.modLoom fun _ hx => hx

theorem execTrel {h : Guard} {acc : Bool} {t cnt : BitVec 8} (hs : s.Canonical) : NextCanonical (execTrel h acc t cnt s) :=
  hs.issue <| .macroBody fun x s hs => by
    refine .ite (.ite trivial ?_) (.ite trivial ?_)
    · split
      · exact .ite trivial hs.freeOwn.modOwnTeam
      · trivial
    · split
      · trivial
      · exact .ite hs.modOwnTeam trivial

theorem execPin {h : Guard} {d a b : Reg} {t : BitVec 8} (hs : s.Canonical) : NextCanonical (execPin h d a b t s) :=
  hs.issue <| .macroBody fun x s hs => by
    dsimp only
    split
    · trivial
    · exact .ite hs.sideEffect.setL (.ite hs.sideEffect.setL hs.sideEffect.setOwn.setL)

theorem execUnpin {h : Guard} {t : BitVec 8} (hs : s.Canonical) : NextCanonical (execUnpin h t s) :=
  hs.issue <| .macroBody fun x s hs => .ite trivial <| by
    split
    · trivial
    · exact .ite trivial (hs.modLoom fun _ hx => hx.dropKey).setOwn.sideEffect

theorem execDetach {h : Guard} {t : BitVec 8} (hs : s.Canonical) : NextCanonical (execDetach h t s) :=
  hs.issue <| .macroBody fun x s hs => .ite trivial <| by
    split
    · trivial
    · exact hs.setOwn.modOwnTeam.sideEffect

theorem attachAt {x : Iss} {e t : Nat} {o : Own} (hs : s.Canonical) : (s.attachAt x e t o).Canonical := hs.setOwn.modOwnTeam

theorem execAttach {h : Guard} {d a : Reg} {t : BitVec 8} (hs : s.Canonical) : NextCanonical (execAttach h d a t s) :=
  hs.issue <| .macroBody fun x s hs => by
    dsimp only
    split
    · refine .ite trivial (.ite hs.setL (.ite hs.setL (.ite hs.attachAt.setL ?_)))
      split
      · trivial
      · next he =>
        have h1 := hs.evict he
        refine .ite h1.setL ?_
        split
        · trivial
        · trivial
        · next hf => exact ((h1.fillRange hf).modLoom fun _ hx => hx.markKey).attachAt.setL
    · exact hs.setL

theorem execAread {h : Guard} {d a b : Reg} {t : BitVec 8} (hs : s.Canonical) : NextCanonical (execAread h d a b t s) :=
  hs.issue fun x s hs => .ite trivial <| by
    split
    · trivial
    · dsimp only
      split
      · trivial
      · exact KeepsCanonical.regBody _ _ hs.countSofts

theorem execAwrite {h : Guard} {d a b : Reg} {t : BitVec 8} (hs : s.Canonical) : NextCanonical (execAwrite h d a b t s) :=
  hs.issue fun x s hs => .ite trivial <| by
    split
    · trivial
    · exact hs.setCells

theorem execAzero {h : Guard} {t : BitVec 8} (hs : s.Canonical) : NextCanonical (execAzero h t s) :=
  hs.issue <| .macroBody fun x s hs => .ite trivial <| by
    split
    · trivial
    · exact hs.setCells

theorem setTileElem {o : Op} {first bit w val : Nat} (hs : s.Canonical) : (s.setTileElem o first bit w val).Canonical := by
  have put {t : State} {bit w val : Nat} (ht : t.Canonical) :
      (match t.tileOf o (first + bit / 32768) with
        | none => t
        | some p => t.modLoom o.loom fun x => x.setTileBits p (bit % 32768) w val).Canonical := by
    split
    · exact ht
    · exact ht.modLoom fun _ hx => hx.setTileBits
  exact (put hs).ite (put (put hs))

theorem mmaUnit {o : Op} {u : Nat} (hs : s.Canonical) : (s.mmaUnit o u).Canonical := by
  unfold State.mmaUnit
  split
  · exact hs.applyUnit trivial
  · split
    · exact hs.applyUnit .ofGot
    · refine hs.applyUnit ?_
      have h1 {r : Own} {cs : List (Nat × Nat × Nat)} :
          (((o.mmaPlan.scaleAccs u).foldl (fun s a => s.noteEngine (s.opView o) false a false) s).setCells
            o.loom r cs).Canonical := (hs.foldl fun _ _ hs => hs.noteEngine).setCells
      exact h1.ite (h1.modOp.ite h1.modWeft)

/-- A fold of elements that are written to a tile slot. -/
theorem setTileElems {α : Type} {o : Op} {first w : Nat} {es : List α} {bit val : α → Nat} (hs : s.Canonical) :
    (es.foldl (fun s e => s.setTileElem o first (bit e) w (val e)) s).Canonical := hs.foldl fun _ _ hs => hs.setTileElem

/-- A computation that comes to a value goes through its first step. -/
theorem exists_of_bind_ok {ε α β : Type} {g : Except ε α} {f : α → Except ε β} {b : β} (h : g >>= f = .ok b) :
    ∃ a, f a = .ok b := by
  cases g with
  | error => cases h
  | ok a => exact ⟨a, h⟩

theorem deltaPhase0 {o : Op} {p : DeltaPlan} {r : Own} {t : Nat} {out : UnitOut} (hs : s.Canonical)
    (h : s.deltaPhase0 o p r t = .ok out) : out.Canonical := by
  obtain ⟨us, h⟩ := exists_of_bind_ok h
  cases h
  exact hs.setTileElems

theorem deltaPhase1 {o : Op} {p : DeltaPlan} {r : Own} {t : Nat} {out : UnitOut} (hs : s.Canonical)
    (h : s.deltaPhase1 o p r t = .ok out) : out.Canonical := by
  obtain ⟨α, h⟩ := exists_of_bind_ok h
  obtain ⟨β, h⟩ := exists_of_bind_ok h
  obtain ⟨ks, h⟩ := exists_of_bind_ok h
  obtain ⟨us, h⟩ := exists_of_bind_ok h
  obtain ⟨vs, h⟩ := exists_of_bind_ok h
  split at h
  · cases h
  · cases h
    exact hs.setCells

theorem deltaPhase2 {o : Op} {p : DeltaPlan} {r : Own} {t : Nat} {out : UnitOut} (hs : s.Canonical)
    (h : s.deltaPhase2 o p r t = .ok out) : out.Canonical := by
  obtain ⟨ds, h⟩ := exists_of_bind_ok h
  cases h
  exact hs.setTileElems

theorem matrixIssue {x : Iss} {o : Op} (hs : s.Canonical) : (matrixIssue x o s).Canonical := .ite trivial <| by
  split
  · trivial
  · exact hs.acceptOp

end State.Canonical

theorem KeepsCanonical.blockBody {i : Instr} {a : Reg} {fields : BitVec 512 → List Nat} :
    KeepsCanonical (blockBody i a fields) :=
  .macroBody fun _ _ hs => .ite trivial (hs.loadL fun _ _ hs => hs.matrixIssue)

theorem KeepsCanonical.rowBody {i : Instr} {opa : Weft → Nat → DWord} {defs : Weft → List DWord} :
    KeepsCanonical (rowBody i opa defs) := .macroBody fun _ _ hs => .ite trivial hs.matrixIssue

namespace State.Canonical

variable {s : State}

theorem aspillUnit {o : Op} {r : Own} {u : Nat} (hs : s.Canonical) : (s.aspillUnit o r u).Canonical := by
  unfold State.aspillUnit
  dsimp only
  split
  · exact hs.applyUnit .ofGot
  · exact ite (hs.applyUnit trivial) (hs.applyUnit hs.putBits.noteEngine.settleMarks)

theorem afillUnit {o : Op} {r : Own} {u : Nat} (hs : s.Canonical) : (s.afillUnit o r u).Canonical := by
  unfold State.afillUnit
  dsimp only
  split
  · exact hs.applyUnit hs.setCells.noteEngine
  · exact hs.applyUnit .ofGot

theorem ascaleUnit {o : Op} {r : Own} {u : Nat} (hs : s.Canonical) : (s.ascaleUnit o r u).Canonical :=
  ite (hs.applyUnit trivial) (hs.applyUnit hs.setCells)

theorem acvtUnit {o : Op} {e : Nat} {r : Own} {u : Nat} (hs : s.Canonical) : (s.acvtUnit o e r u).Canonical :=
  ite (hs.applyUnit trivial) (hs.applyUnit hs.setCells.setOwn)

theorem deltaUnit {o : Op} {u : Nat} (hs : s.Canonical) : (s.deltaUnit o u).Canonical := by
  unfold State.deltaUnit
  dsimp only
  split
  · exact hs.applyUnit trivial
  · split
    · exact hs.applyUnit .ofGot
    · next h =>
      refine hs.applyUnit ?_
      split at h
      · exact hs.deltaPhase0 h
      · split at h
        · exact hs.deltaPhase1 h
        · exact hs.deltaPhase2 h

theorem matrixUnit {o : Op} {u : Nat} (hs : s.Canonical) : (s.matrixUnit o u).Canonical := by
  unfold State.matrixUnit
  split
  · exact hs.mmaUnit
  · exact hs.mmaUnit
  · exact hs.mmaUnit
  · exact hs.deltaUnit
  · split
    · exact hs.applyUnit trivial
    · split
      · exact hs.aspillUnit
      · exact hs.afillUnit
      · exact hs.ascaleUnit
      · exact hs.acvtUnit

end State.Canonical

end Sys2Proof.Machine
end

section
/-! SUPPORT. Memories in canonical form: launch queues, records, rings, ports, heddles, tables, packets and boards
(R313 to R392). -/

namespace Sys2Proof.Machine

namespace State.Canonical

variable {s : State}

/-! ## Launch queues, continuation records, rings and ports (R313 to R337) -/

theorem setQueueField {q off n v : Nat} (hs : s.Canonical) : (s.setQueueField q off n v).Canonical :=
  hs.iteLeft fun hs => hs.writePhysLe

theorem queueFault {q : Nat} (hs : s.Canonical) : (s.queueFault q).Canonical := hs.setQueueField.setQueueField.eventRecord

theorem execLaunch {h : Guard} {d a b : Reg} (hs : s.Canonical) : NextCanonical (execLaunch h d a b s) :=
  hs.issue <| .macroBody fun _ _ hs => hs.loadL fun _ _ hs => .ite hs.sideEffect.setL <| by
    extract_lets tail slot
    generalize State.deviceCase _ _ _ _ _ = c
    split
    · trivial
    · exact iteLeft (setL (setQueueField (hs.sideEffect.iteRight fun hs => hs.writeVa))) fun hs => hs.setLPair

theorem writeMailbox {b : Mailbox} {off : Nat} {bs : List Byte} {t : State} (hs : s.Canonical)
    (ht : s.writeMailbox b off bs = some t) : t.Canonical := by
  have lm {l a : Nat} : (s.modLm l fun m => Memory.writeBytes m a bs).Canonical :=
    hs.modLm fun _ hm => Memory.wf_writeBytes _ _ _ hm
  unfold State.writeMailbox at ht
  split at ht
  · exact Option.some.inj ht ▸ hs
  · exact Option.some.inj ht ▸ lm
  · split at ht
    · obtain ⟨_, -, rfl⟩ := Option.map_eq_some_iff.1 ht
      exact lm
    · split at ht
      · exact Option.some.inj ht ▸ hs
      · dsimp only at ht
        split at ht
        · cases ht
        · exact Option.some.inj ht ▸ hs.writeBytesVa
        · exact Option.some.inj ht ▸ hs

theorem setFetches {f : List Fetch} (hs : s.Canonical) : ({ s with fetches := f } : State).Canonical := hs

theorem execFetchw {h : Guard} {a b c : Reg} (hs : s.Canonical) : NextCanonical (execFetchw h a b c s) :=
  hs.issue <| .macroBody fun _ _ hs => .ite trivial <| .ite trivial <| .ite trivial <| by
    dsimp only
    split
    · trivial
    · next hw => exact setFetches (hs.writeMailbox hw)

theorem modLaunch {q n : Nat} {f : Launch → Launch} (hs : s.Canonical) : (s.modLaunch q n f).Canonical := hs

theorem giveTeam {b : Mailbox} {id : TeamId} (hs : s.Canonical) : (s.giveTeam b id).Canonical := by
  unfold State.giveTeam
  split
  · exact hs
  · exact hs.modWeft
  · split
    · exact hs.modTeam
    · exact hs

theorem drawOver (hs : s.Canonical) : (s.drawOver).Canonical := ite (hs.mapLooms fun _ hx => hx) hs

theorem withdrawPick {id : TeamId} (hs : s.Canonical) : (s.withdrawPick id).Canonical := hs.iteRight fun hs => hs.drawOver

theorem execFetchwAnswer {i : Nat} (hs : s.Canonical) : NextCanonical (execFetchwAnswer i s) := by
  unfold Machine.execFetchwAnswer
  split
  · exact hs.next
  · refine .ite hs.next ?_
    split
    · exact hs.next
    · next hw =>
      dsimp only
      split
      · exact (hs.writeMailbox hw).setFetches.modLaunch.giveTeam.withdrawPick.next
      · exact (hs.writeMailbox hw).setFetches.next

theorem setQblock {ctx off n v : Nat} (hs : s.Canonical) : (s.setQblock ctx off n v).Canonical := by
  unfold State.setQblock
  split
  · exact hs
  · exact hs.writeDev

theorem ringTake {ctx i : Nat} (hs : s.Canonical) : (s.ringTake ctx i).Canonical :=
  (hs.foldl fun _ _ hs => hs.writeVa).setQblock

theorem enqueue {ctx loom : Nat} {anyloom : Bool} {addr : DWord} {t : State} (hs : s.Canonical)
    (ht : s.enqueue ctx loom anyloom addr = some t) : t.Canonical := by
  unfold State.enqueue at ht
  split at ht
  · exact Option.some.inj ht ▸ (hs.modLoom fun _ hx => hx)
  · dsimp only at ht
    split at ht
    · cases ht
    · exact Option.some.inj ht ▸ hs.writeVa.setQblock

theorem tick1 (hs : s.Canonical) : (s.tick1).Canonical := hs

theorem queueRecord {x : Iss} {v : View} {d : Reg} {addr : DWord} {r : ContRec} {val : Word} (hs : s.Canonical) :
    (queueRecord x v d addr r val s).Canonical := by
  unfold Machine.queueRecord
  dsimp only
  split
  · next hq => exact (enqueue hs.writeVa.tick1 hq).setL
  · exact hs.writeVa.tick1.modWeft

end State.Canonical

theorem KeepsCanonical.contBody {a : Reg} {eff : View → DWord → ContRec → Iss → State → Effect}
    (h : ∀ v addr r x s, s.Canonical → (eff v addr r x s).Canonical) : KeepsCanonical (contBody a eff) :=
  .macroBody fun _ _ hs => .ite trivial (KeepsCanonical.accessBody (fun _ _ _ hs => h _ _ _ _ _ hs.sideEffect) _ _ hs)

namespace State.Canonical

variable {s : State}

theorem execSpawn {h : Guard} {d a : Reg} (hs : s.Canonical) : NextCanonical (execSpawn h d a s) :=
  hs.issue <| .contBody fun _ _ _ _ _ hs => .ite trivial (.ite hs.setL (.ite trivial hs.queueRecord))

theorem execJoin {h : Guard} {d a : Reg} (hs : s.Canonical) : NextCanonical (execJoin h d a s) :=
  hs.issue <| .contBody fun _ _ _ _ _ hs => .ite hs.setL (.ite hs.writeVa.setL (.ite hs.writeVa hs.writeVa.queueRecord))

theorem execContinuationEnqueue {l k : Nat} (hs : s.Canonical) : NextCanonical (execContinuationEnqueue l k s) := by
  unfold Machine.execContinuationEnqueue
  split
  · exact hs.next
  · split
    · dsimp only
      split
      · exact hs.next
      · next hq => exact (hs.enqueue hq).finishWait.next
    · exact hs.next

theorem execRecordTake {l k : Nat} (hs : s.Canonical) : NextCanonical (execRecordTake l k s) := by
  unfold Machine.execRecordTake
  split
  · exact hs.next
  · dsimp only
    split
    · exact hs.next
    · refine next (countLoom (setWeft (dropL1 (modLoom (writeVa ?_) fun _ hx => hx))))
      split
      · exact hs.modLoom fun _ hx => hx
      · exact hs.ringTake.modLoom fun _ hx => hx

theorem execRingInit {h : Guard} {g : BitVec 8} {a : Reg} (hs : s.Canonical) : NextCanonical (execRingInit h g a s) :=
  hs.issue <| .macroBody fun _ _ hs => by
    dsimp only
    split
    · trivial
    · exact .ite trivial hs.modOwnTeam

theorem execRingSig {h : Guard} {g : BitVec 8} {b : Reg} {cls : Option OcClass} (hs : s.Canonical) :
    NextCanonical (execRingSig h g b cls s) :=
  hs.issue <| .macroBody fun _ _ hs => by
    dsimp only
    split
    · trivial
    · exact .ite trivial (.ite hs.modOwnTeam hs.modWeft)

theorem execRingWait {h : Guard} {g : BitVec 8} {b a : Reg} (hs : s.Canonical) : NextCanonical (execRingWait h g b a s) :=
  hs.issue <| .macroBody fun _ _ hs => by
    dsimp only
    split
    · trivial
    · split
      · trivial
      · exact .ite hs hs.modWeft

theorem execMsgmap {h : Guard} {d s' r hd : Reg} {q : BitVec 8} (hs : s.Canonical) :
    NextCanonical (execMsgmap h d s' r hd q s) :=
  hs.issue <| .macroBody fun _ _ hs => .ite trivial (.ite trivial (.ite hs.setL (.ite hs.setL hs.setL.modWeft)))

theorem execMsgunmap {h : Guard} {d : Reg} (hs : s.Canonical) : NextCanonical (execMsgunmap h d s) :=
  hs.issue <| .macroBody fun _ _ hs => by
    split
    · exact hs.setL
    · exact hs.closePort.setL

theorem execMessageSend {l k : Nat} (hs : s.Canonical) : NextCanonical (execMessageSend l k s) := by
  unfold Machine.execMessageSend
  split
  · exact hs.next
  · split
    · dsimp only
      split
      · exact hs.modWeft.raise.next
      · exact .ite hs.next hs.modWeft.sideEffect.sendFlit.next
    · exact hs.next

/-! ## Heddles, decode tables and translation caches (R338 to R366) -/

end State.Canonical

theorem KeepsCanonical.heddleBody {hd : BitVec 8} {d : Reg} {arr : Iss → Arrival} : KeepsCanonical (heddleBody hd d arr) :=
  .macroBody fun _ s hs => by
    dsimp only
    split
    · refine .ite trivial ?_
      split
      · exact hs
      · exact hs.modWeft
    · split
      · trivial
      · refine .ite trivial ?_
        exact (hs.modLoom (by exact fun _ hx => hx)).modWeft.iteRight fun hs => hs.completePhase

namespace State.Canonical

variable {s : State}

theorem execHred {h : Guard} {op : HredOp} {n : BitVec 4} {d a : Reg} {hd : BitVec 8} (hs : s.Canonical) :
    NextCanonical (execHred h op n d a hd s) :=
  hs.issue <| .macroBody fun _ _ hs => .ite trivial (KeepsCanonical.heddleBody _ _ hs)

theorem commitSet {l h hd : Nat} {set : DWord} (hs : s.Canonical) : (s.commitSet l h hd set).Canonical := by
  unfold State.commitSet
  split
  · exact hs
  · exact hs.modLoom fun _ hx => hx

theorem execHset {h : Guard} {hd : BitVec 8} {a : Reg} (hs : s.Canonical) : NextCanonical (execHset h hd a s) :=
  hs.issue <| .macroBody fun _ _ hs => by
    dsimp only
    split
    · trivial
    · split
      · trivial
      · exact .ite trivial (.ite hs.commitSet hs.modWeft)

theorem execHsetCommit {l k : Nat} (hs : s.Canonical) : NextCanonical (execHsetCommit l k s) := by
  unfold Machine.execHsetCommit
  split
  · exact hs.next
  · split
    · split
      · exact hs.next
      · exact .ite hs.next hs.commitSet.finishWait.next
    · exact hs.next

theorem setDecode {ctx : Nat} {es : List DecEntry} (hs : s.Canonical) : (s.setDecode ctx es).Canonical := by
  unfold State.setDecode
  split
  · exact hs
  · exact modMem hs fun _ hm => ⟨Memory.wf_writeBytes _ _ _ hm.1, hm.2⟩

theorem execDtload {h : Guard} {d a : Reg} (hs : s.Canonical) : NextCanonical (execDtload h d a s) :=
  hs.issue <| .macroBody fun _ _ hs => hs.loadL fun _ _ hs => by
    dsimp only
    split
    · exact hs.sideEffect.setL
    · exact hs.sideEffect.setDecode.setL

theorem execRecChk {h : Guard} {d a : Reg} (hs : s.Canonical) : NextCanonical (execRecChk h d a s) :=
  hs.issue <| .macroBody fun _ _ hs => hs.loadRecord fun _ _ hs => hs.loadIndex fun _ _ hs => hs.setL

theorem setInvs {v : List Inv} {n : Nat} (hs : s.Canonical) : ({ s with invs := v, fresh := n } : State).Canonical := hs

theorem invalidate {v : Inv} (hs : s.Canonical) : (s.invalidate v).Canonical :=
  (hs.foldl fun _ _ hs => hs.setTlb).mapLooms fun _ hx => hx

theorem execTlbinvComplete {i : Nat} (hs : s.Canonical) : NextCanonical (execTlbinvComplete i s) := by
  unfold Machine.execTlbinvComplete
  split
  · exact hs.next
  · refine .ite hs.next (next ?_)
    exact hs.invalidate.mapLooms fun _ hx => hx

theorem execTlbinv {h : Guard} {m : TlbMode} {a b : Reg} (hs : s.Canonical) : NextCanonical (execTlbinv h m a b s) :=
  hs.issue <| .macroBody fun _ _ hs => hs.setInvs.modWeft.sideEffect

theorem execTlbsync {h : Guard} (hs : s.Canonical) : NextCanonical (execTlbsync h s) :=
  hs.issue <| .macroBody fun _ _ hs => .ite hs.dropL1 trivial

theorem execTlbFillAhead {ag : TlbAgent} {ctx : BitVec 16} {va : DWord} (hs : s.Canonical) :
    NextCanonical (execTlbFillAhead ag ctx va s) :=
  next (hs.iteRight fun hs => hs.fillTlb)

/-! ## Packets and links (R367, R436 to R452) -/

theorem modFabric {f : Fabric → Fabric} (hs : s.Canonical) : (s.modFabric f).Canonical := hs

theorem setPort {p : Nat} {x : FabPort} (hs : s.Canonical) : (s.setPort p x).Canonical := hs

theorem modPort {p : Nat} {g : FabPort → FabPort} (hs : s.Canonical) : (s.modPort p g).Canonical := hs

theorem deliver {p : Packet} (hs : s.Canonical) : (s.deliver p).Canonical := hs

theorem forward {p : Packet} {t : State} (hs : s.Canonical) (ht : s.forward p = some t) : t.Canonical := by
  unfold State.forward at ht
  split at ht
  · exact Option.some.inj ht ▸ hs.deliver
  split at ht
  · exact Option.some.inj ht ▸ hs.modFabric
  split at ht
  · cases ht
  split at ht
  · cases ht
  · exact Option.some.inj ht ▸ hs.modPort

/-- What a packet is forwarded to, or another state. -/
theorem forwardD {p : Packet} {t : State} (hs : s.Canonical) (ht : t.Canonical) : ((s.forward p).getD t).Canonical := by
  cases hf : s.forward p with
  | none => exact ht
  | some u => exact hs.forward hf

theorem refuse {p : Packet} {cause : Nat} (hs : s.Canonical) : (s.refuse p cause).Canonical := hs.forwardD hs

theorem freeSlots {p : Packet} (hs : s.Canonical) : (s.freeSlots p).Canonical := by
  unfold State.freeSlots
  split
  · exact hs
  · exact hs.modPort

theorem sendPacket {p : Packet} (hs : s.Canonical) : (s.sendPacket p).Canonical := hs.forwardD hs.freeSlots.refuse

theorem emitFlit {port type : Nat} {nak : Bool} {payload : List Byte} {p : Option Packet} (hs : s.Canonical) :
    (s.emitFlit port type nak payload p).Canonical :=
  hs.setPort.setOutbox.countDie

theorem resendFlit {port : Nat} {n : BitVec 16} (hs : s.Canonical) : (s.resendFlit port n).Canonical := by
  unfold State.resendFlit
  split
  · exact hs
  · exact hs.setOutbox.countDie.countDie.dieError.busy

theorem sendMask {port : Nat} (hs : s.Canonical) : (s.sendMask port).Canonical := ite hs.setPort hs.emitFlit.modPort

theorem drainPort {n port : Nat} (hs : s.Canonical) : (State.drainPort n s port).Canonical := by
  induction n generalizing s with
  | zero => exact hs
  | succ n ih =>
    unfold State.drainPort
    refine ite hs (ite ?_ (ite (ih hs.sendMask) ?_))
    · split
      · exact ite (ih hs.resendFlit.modPort) hs
      · exact hs
    · split
      · exact hs
      · exact ite hs (ih (hs.setPort.freeSlots.foldl fun _ _ hs => hs.emitFlit))

theorem drainPorts (hs : s.Canonical) : (s.drainPorts).Canonical :=
  hs.foldl fun _ _ hs => hs.drainPort

/-! ## Boards and censuses (R371 to R392) -/

theorem execSbPost {h : Guard} {d a : Reg} (hs : s.Canonical) : NextCanonical (execSbPost h d a s) :=
  hs.issue <| .macroBody fun _ _ hs => hs.loadL fun _ _ hs => by
    dsimp only
    split
    · exact (hs.modLoom (by exact fun _ hx => hx)).setFresh.sideEffect.setL
    · trivial
    · trivial

theorem execSbFind {h : Guard} {d a b : Reg} (hs : s.Canonical) : NextCanonical (execSbFind h d a b s) := by
  refine hs.issue (.macroBody ?_)
  intro x s hs
  dsimp only
  split
  · exact hs.setL
  · exact hs.setL

theorem execSbWdr {h : Guard} {d a : Reg} (hs : s.Canonical) : NextCanonical (execSbWdr h d a s) :=
  hs.issue <| .macroBody fun _ _ hs => by
    dsimp only
    split
    · exact hs.sideEffect.setL
    · exact .ite hs.modWeft (hs.sideEffect.modLoom (by exact fun _ hx => hx)).setL

theorem execSbWdrFree {l k : Nat} (hs : s.Canonical) : NextCanonical (execSbWdrFree l k s) := by
  unfold Machine.execSbWdrFree
  split
  · exact hs.next
  · split
    · dsimp only
      split
      · exact hs.sideEffect.waitIssues.finishWait.next
      · exact .ite hs.next (hs.modLoom (by exact fun _ hx => hx)).sideEffect.waitIssues.finishWait.next
    · exact hs.next

theorem execSbMove {h : Guard} {d b c : Reg} (hs : s.Canonical) : NextCanonical (execSbMove h d b c s) :=
  hs.issue <| .macroBody fun _ _ hs => .ite trivial <| by
    split
    · trivial
    · exact .ite trivial hs.acceptOp

/-- An operation's unit is faulted. -/
theorem faultUnit {o : Op} {u c code : Nat} {va : DWord} (hs : s.Canonical) :
    (s.applyUnit o u (.fault c code va)).Canonical := hs.applyUnit trivial

/-- The unit of a move that changes what its operation holds. -/
theorem partsUnit {o : Op} {id u : Nat} {f : Op → Op} (hs : s.Canonical) :
    ((s.modOp o.loom .copy id f).applyUnit o u (.did (s.modOp o.loom .copy id f) 0 [])).Canonical :=
  hs.modOp.applyUnit hs.modOp

theorem moveStart {o : Op} (hs : s.Canonical) : (s.moveStart o).Canonical := by
  unfold State.moveStart
  dsimp only
  split
  · split
    · exact hs.faultUnit
    · split
      · exact hs.faultUnit
      · exact partsUnit ((hs.modLoom (by exact fun _ hx => hx)).modLoom fun _ hx => hx)
      · split
        · exact hs.faultUnit
        · exact partsUnit ((hs.modLoom (by exact fun _ hx => hx)).modLoom fun _ hx => hx)
  · exact hs.faultUnit

theorem spillRow {o : Op} {l : Nat} {w : Own} {u : Nat} (hs : s.Canonical) : (s.spillRow o l w u).Canonical := by
  unfold State.spillRow
  dsimp only
  split
  · exact hs.applyUnit .ofGot
  · exact hs.applyUnit hs.putBits.noteEngine

theorem moveRow {o : Op} {u : Nat} (hs : s.Canonical) : (s.moveRow o u).Canonical := by
  unfold State.moveRow
  split
  · refine hs.faultUnit.ite ?_
    split
    · exact ite (hs.applyUnit hs) (hs.faultUnit.ite (hs.spillRow.ite (hs.applyUnit hs.setCells.crossDies)))
    · exact hs.faultUnit
  · exact hs.faultUnit

theorem moveUnit {o : Op} {u : Nat} (hs : s.Canonical) : (s.moveUnit o u).Canonical := hs.moveStart.ite hs.moveRow

theorem moveSet {o : Op} {u sl se tl te : Nat} {rng : Option (Nat × Own × Nat × Own)} (hs : s.Canonical) :
    (s.moveSet o u sl se tl te rng).Canonical := by
  refine partsUnit ?_
  split
  · exact (hs.modLoom (by exact fun _ hx => hx)).modLoom fun _ hx => hx
  · exact ((hs.modLoom (by exact fun _ hx => hx)).modLoom (by exact fun _ hx => hx)).freeOwn.setOwn

theorem moveCommit {o : Op} {u : Nat} (hs : s.Canonical) : (s.moveCommit o u).Canonical := by
  unfold State.moveCommit
  split
  · refine hs.faultUnit.ite (hs.ite (hs.moveSet.ite ?_))
    split
    · refine ite ?_ hs.moveSet
      split
      · exact hs
      · exact hs.faultUnit
      · next hr => exact (hs.spillRange hr).moveSet
    · exact hs.faultUnit
  · exact hs.faultUnit

theorem execSbMoveCommit {l idx : Nat} (hs : s.Canonical) : NextCanonical (execSbMoveCommit l idx s) := by
  unfold Machine.execSbMoveCommit
  split
  · exact hs.next
  · split
    · exact .ite hs.moveCommit.copyBusy.next hs.next
    · exact hs.next

end State.Canonical

theorem Loom.Canonical.refillKey {x : Loom} {ctx : Nat} {key : DWord} (hx : x.Canonical) :
    (x.refillKey ctx key).Canonical := hx.foldl fun _ _ hx => hx

namespace State.Canonical

variable {s : State}

theorem setCensus {c : List (Nat × Census)} (hs : s.Canonical) : ({ s with census := c } : State).Canonical := hs

theorem execSolicit {h : Guard} {a b : Reg} (hs : s.Canonical) : NextCanonical (execSolicit h a b s) :=
  hs.issue <| .macroBody fun _ _ hs => by
    dsimp only
    split
    · trivial
    · refine .ite trivial <| .ite trivial <| .ite trivial <| hs.loadL fun _ _ hs => .ite trivial ?_
      split
      · trivial
      · next hw => exact ((hs.writeMailbox hw).setCensus.foldl fun _ _ hs => hs.sendPacket).sideEffect

theorem execCensusPoint {key : Nat} (hs : s.Canonical) : NextCanonical (execCensusPoint key s) := by
  unfold Machine.execCensusPoint
  split
  · exact hs.next
  · exact .ite hs.next (hs.mapLooms (by exact fun _ hx => hx)).setCensus.next

theorem censusRefill {l : Nat} {e : Board} {r : State × Bool} (hs : s.Canonical) (hr : s.censusRefill l e = some r) :
    r.1.Canonical := by
  unfold State.censusRefill at hr
  split at hr
  · exact Option.some.inj hr ▸ hs
  split at hr
  · exact Option.some.inj hr ▸ hs
  split at hr
  · cases hr
  next he =>
  have h1 := hs.evict he
  dsimp only at hr
  split at hr
  · exact Option.some.inj hr ▸ h1
  split at hr
  · cases hr
  · exact Option.some.inj hr ▸ h1
  · next hf => exact Option.some.inj hr ▸ (h1.fillRange hf).setOwn.modLoom fun _ hx => hx.refillKey

theorem spawnFails {l i : Nat} {p : Spawn} (hs : s.Canonical) : (s.spawnFails l i p).Canonical :=
  (hs.modLoom fun x hx => by
    dsimp only
    split
    · exact hx
    · exact hx).censusAnswered

theorem spawnQueue {l i : Nat} {e : Board} {p : Spawn} (hs : s.Canonical) : (s.spawnQueue l i e p).Canonical := by
  unfold State.spawnQueue
  split
  · exact hs.modLoom fun _ hx => hx
  · next he => exact (hs.enqueue he).modLoom fun _ hx => hx

theorem execResponderSpawn {l i : Nat} (hs : s.Canonical) : NextCanonical (execResponderSpawn l i s) := by
  unfold Machine.execResponderSpawn
  split
  · exact hs.next
  · refine .ite hs.spawnFails.next <| .ite hs.next <| .ite hs.spawnQueue.next <| .ite hs.spawnFails.next <|
      .ite hs.next <| .ite hs.spawnFails.next ?_
    dsimp only
    split
    · exact hs.next
    · next s1 _ hr =>
      have h1 : s1.Canonical := by
        split at hr
        · cases hr
          exact hs
        · split at hr
          · exact hs.censusRefill hr
          · cases hr
            exact hs
      exact (h1.writeBytesVa.tick1.modLoom (by exact fun _ hx => hx)).spawnQueue.next

theorem execRespond {h : Guard} {a : Reg} (hs : s.Canonical) : NextCanonical (execRespond h a s) :=
  hs.issue <| .macroBody fun _ _ hs => by
    split
    · trivial
    · exact .ite trivial hs.modWeft

theorem censusAll (hs : s.Canonical) : (s.censusAll).Canonical :=
  hs.foldl fun s q hs => by
    dsimp only
    refine hs.ite (ite hs.crossDies.sendPacket.setCensus ?_)
    split
    · exact hs
    · next hw => exact (hs.writeMailbox hw).dropL1.setCensus

end State.Canonical

end Sys2Proof.Machine
end

section
/-! SUPPORT. Memories in canonical form: counters, arms, the fabric and traps (R275 to R282, R367 to R388, R393 to R434). -/

namespace Sys2Proof.Machine

namespace State.Canonical

variable {s : State}

/-! ## Counters, arms and event counters (R393 to R407) -/

/-- A body for an access to memory, from a given state. -/
theorem accessBody {load store resid : Bool} {accs : Iss → List Acc} {eff : View → Iss → State → Effect} {x : Iss}
    (hs : s.Canonical) (he : ∀ v x t, t.Canonical → (eff v x t).Canonical) :
    (accessBody load store resid accs eff x s).Canonical := KeepsCanonical.accessBody he x s hs

theorem execWaitoc {h : Guard} {cls : OcClass} {n : BitVec 6} (hs : s.Canonical) : NextCanonical (execWaitoc h cls n s) :=
  hs.issue <| .macroBody fun _ _ hs => .ite hs trivial

/-- A word that no arm may watch traps, or parks the weft. -/
theorem armWord_error {x : Iss} {va : DWord} {e : Effect} (he : s.armWord x va = .error e) : e.Canonical := by
  unfold State.armWord at he
  dsimp only at he
  split at he
  · cases he
    trivial
  split at he
  · split at he
    · cases he
      trivial
    split at he <;> cases he <;> trivial
  · cases he
  · cases he
  · cases he
    trivial

theorem armSet {d : Reg} {target : DWord} {wd : ArmWord} {x : Iss} (hs : s.Canonical) : (armSet d target wd x s).Canonical := by
  unfold Machine.armSet
  split
  · exact .ite hs.setArm.setL hs.setL
  · split
    · exact hs.setL
    · exact hs.setArm.setL

theorem armClear {d : Reg} {wd : ArmWord} {x : Iss} (hs : s.Canonical) : (armClear d wd x s).Canonical := by
  unfold Machine.armClear
  split
  · exact .ite hs.releaseAwait.setArm.setL hs.setL
  · exact hs.setL

theorem execArm {h : Guard} {clr : Bool} {d a b : Reg} (hs : s.Canonical) : NextCanonical (execArm h clr d a b s) :=
  hs.issue <| .macroBody fun _ _ hs => by
    split
    · next he => exact armWord_error he
    · exact .ite hs.armClear hs.armSet

theorem awaitOn {hd : Option (BitVec 8)} {d : Reg} {p : ArmAt} {e : Arm} {met : Bool} {x : Iss} (hs : s.Canonical) :
    (awaitOn hd d p e met x s).Canonical := by
  unfold Machine.awaitOn
  dsimp only
  split
  · exact .ite hs.setL hs.modWeft
  · exact .ite trivial hs.setArm.modWeft

theorem execAwait {h : Guard} {hd : Option (BitVec 8)} {d a : Reg} (hs : s.Canonical) : NextCanonical (execAwait h hd d a s) :=
  hs.issue <| .macroBody fun _ _ hs => by
    split
    · next he => exact armWord_error he
    · split
      · exact .ite hs.awaitOn hs.setL
      · exact hs.setL

theorem execArrive {h : Guard} {a b : Reg} (hs : s.Canonical) : NextCanonical (execArrive h a b s) :=
  hs.issue <| .macroBody fun _ _ hs => .ite trivial (hs.accessBody fun _ _ _ hs => hs.sideEffect.writeVa)

theorem setEvCounter {l k : Nat} {c : EvCounter} (hs : s.Canonical) : (s.setEvCounter l k c).Canonical :=
  (hs.modLoom (by exact fun _ hx => hx)).ite hs

theorem execEvsel {h : Guard} {d : Reg} {k src : BitVec 8} (hs : s.Canonical) : NextCanonical (execEvsel h d k src s) :=
  hs.issue <| .macroBody fun _ _ hs => .ite hs.setL (.ite hs.setL hs.setEvCounter.setL)

theorem execEvrd {h : Guard} {d : Reg} {k : BitVec 8} (hs : s.Canonical) : NextCanonical (execEvrd h d k s) :=
  hs.issue fun _ _ hs => KeepsCanonical.pairBody _ _ hs

theorem execEvclr {h : Guard} {d : Reg} {k : BitVec 8} (hs : s.Canonical) : NextCanonical (execEvclr h d k s) :=
  hs.issue <| .macroBody fun _ _ hs => .ite hs.setL hs.setEvCounter.setL

/-! ## Fabric operations (R275 to R282, R367 to R388) -/

end State.Canonical

theorem KeepsCanonical.fabBody {a : Reg} {k : DWord → BitVec 512 → FabPlan → Iss → State → Effect}
    (h : ∀ addr b p x s, s.Canonical → (k addr b p x s).Canonical) : KeepsCanonical (fabBody a k) :=
  .macroBody fun _ _ hs => .ite trivial (hs.loadL fun _ _ hs => .ite trivial (h _ _ _ _ _ hs))

namespace State.Canonical

variable {s : State}

theorem fabAdmit {x : Iss} {o : Op} {sps : List Span} (hs : s.Canonical) : (fabAdmit x o sps s).Canonical :=
  hs.modFabric.acceptOp

end State.Canonical

theorem KeepsCanonical.xferBody {i : Instr} {a : Reg} : KeepsCanonical (xferBody i a) :=
  .fabBody fun _ _ _ _ _ hs => hs.fabAdmit

namespace State.Canonical

variable {s : State}

/-- A body for a fabric operation, from a given state. -/
theorem fabBody {a : Reg} {k : DWord → BitVec 512 → FabPlan → Iss → State → Effect} {x : Iss} (hs : s.Canonical)
    (hk : ∀ addr b p x t, t.Canonical → (k addr b p x t).Canonical) : (fabBody a k x s).Canonical :=
  KeepsCanonical.fabBody hk x s hs

theorem highBody {rs : List Reg} {k : Iss → State → Effect} {x : Iss} (hs : s.Canonical)
    (hk : ∀ x t, t.Canonical → (k x t).Canonical) : (highBody rs k x s).Canonical := .ite trivial <| by
  split
  · trivial
  · exact hk _ _ (hs.foldl fun _ _ hs => hs.loomError.countLoom)

theorem execXatom {h : Guard} {op : AtomOp} {n : BitVec 4} {d a b c : Reg} (hs : s.Canonical) :
    NextCanonical (execXatom h op n d a b c s) :=
  hs.issue <| .fabBody fun _ _ _ _ _ hs => .ite trivial <| .ite trivial <|
    hs.highBody fun _ _ hs => .ite trivial hs.fabAdmit

theorem execXred {h : Guard} {op : XredOp} {n : BitVec 4} {d a : Reg} (hs : s.Canonical) :
    NextCanonical (execXred h op n d a s) :=
  hs.issue <| .macroBody fun _ _ hs => .ite trivial <| hs.fabBody fun _ _ _ _ _ hs => hs.loadL fun _ _ hs =>
    .ite trivial <| hs.accessBody fun _ _ _ hs => .ite trivial hs.fabAdmit

theorem sendUnit {o : Op} {u : Nat} {p : Packet} (hs : s.Canonical) : (s.sendUnit o u p).Canonical :=
  hs.modOp.countLoom.crossDies.sendPacket

theorem sendRead {o : Op} {u bit w : Nat} {k : State → Nat → State} (hs : s.Canonical)
    (hk : ∀ t n, t.Canonical → (k t n).Canonical) : (s.sendRead o u bit w k).Canonical := by
  unfold State.sendRead
  split
  · exact hk _ _ hs.noteEngine
  · exact hs
  · exact hs.opFault.ite hs

theorem fabUnit {o : Op} (hs : s.Canonical) : (s.fabUnit o).Canonical :=
  hs.iteLeft fun hs => by
  split
  · exact hs.sendRead fun _ _ hs => hs.sendUnit
  · exact hs.sendUnit
  · exact hs.sendUnit
  · exact hs.sendRead fun _ _ hs => hs.sendUnit
  · exact hs

theorem unitAcked {o : Op} {u : Nat} (hs : s.Canonical) : (s.unitAcked o u).Canonical := by
  unfold State.unitAcked
  dsimp only
  split
  · exact hs.setProgress.modOp.opFault.ite hs.setProgress.modOp
  · exact hs.setProgress.modOp

theorem unitRefused {o : Op} {u : Nat} (hs : s.Canonical) : (s.unitRefused o u).Canonical :=
  hs.modOp.ite (hs.opFault.ite hs.modOp)

theorem takeInbound {i : Nat} (hs : s.Canonical) : (s.takeInbound i).Canonical := by
  unfold State.takeInbound
  split
  · exact hs
  · exact hs.modFabric.freeSlots.crossDies.ite hs.modFabric.freeSlots

theorem execFabricCompletion {i : Nat} (hs : s.Canonical) : NextCanonical (execFabricCompletion i s) := by
  unfold Machine.execFabricCompletion
  split
  · exact hs.next
  · dsimp only
    split
    · exact hs.takeInbound.next
    · exact hs.takeInbound.unitAcked.next

theorem countArrival {v : View} {ctr : DWord} {n : Nat} (hs : s.Canonical) : (s.countArrival v ctr n).Canonical :=
  hs.writeVa.checkArms.noteEngine

theorem execFabricReadResponse {i : Nat} (hs : s.Canonical) : NextCanonical (execFabricReadResponse i s) := by
  unfold Machine.execFabricReadResponse
  split
  · exact hs.next
  · split
    · exact hs.takeInbound.next
    · refine .ite hs.takeInbound.unitAcked.next ?_
      have fails {c u : Nat} {o : Op} {d : DWord} :
          NextCanonical (if s.progress o = u then .next ((s.takeInbound i).opFault o c 0 d) else .next s) :=
        .ite hs.takeInbound.opFault.next hs.next
      dsimp only
      split
      · exact fails
      · exact hs.next
      · split
        · exact fails
        · exact hs.next
        · have h2 {v : View} {a : Acc} {b : DWord} {bit w val : Nat} {c : Nat → Nat → Bool} :
              ((((s.takeInbound i).putBits v b bit w val).settleMarks v a c).noteEngine v false a).Canonical :=
            hs.takeInbound.putBits.settleMarks.noteEngine
          exact next (unitAcked (h2.countArrival.ite h2))

theorem execFabricAtomicResponse {i : Nat} (hs : s.Canonical) : NextCanonical (execFabricAtomicResponse i s) := by
  unfold Machine.execFabricAtomicResponse
  split
  · exact hs.next
  · dsimp only
    split
    · exact hs.takeInbound.next
    · split
      · exact hs.takeInbound.opRecords.modOp.next
      · exact hs.takeInbound.opRecords.modOp.unitAcked.next

theorem checkImages (hs : s.Canonical) : (s.checkImages).Canonical := hs

theorem remoteWrite {r : Remote} {n x : Nat} (hs : s.Canonical) : (s.remoteWrite r n x).Canonical := by
  unfold State.remoteWrite
  split
  · exact hs.storeSpots.checkArms
  · exact hs.writeVa.checkArms.checkImages
  · exact hs

theorem noteRemote {from_ : Nat} {r : Remote} {n ctx : Nat} {write : Bool} (hs : s.Canonical) :
    (s.noteRemote from_ r n ctx write).Canonical := by
  unfold State.noteRemote
  split
  · exact hs.crossDies.ite hs.crossDies.softSpots
  · exact hs.noteFrom.ite hs.noteFrom.noteSoft
  · exact hs

theorem remoteAdd {from_ : Nat} {r : Remote} {ctx n : Nat} (hs : s.Canonical) : (s.remoteAdd from_ r ctx n).Canonical :=
  hs.noteRemote.remoteWrite.noteRemote

theorem refuseUnit {i : Nat} {p : Packet} {cause : Nat} (hs : s.Canonical) : (s.refuseUnit i p cause).Canonical :=
  hs.takeInbound.modFabric.refuse

theorem atDestination {i : Nat} {p : Packet} {read store : Bool} {n align : Nat} {k : Remote → State → State × Packet}
    (hs : s.Canonical) (hk : ∀ r t, t.Canonical → (k r t).1.Canonical) :
    NextCanonical (s.atDestination i p read store n align k) := by
  refine .ite hs.refuseUnit.next ?_
  split
  · exact hs.refuseUnit.next
  · exact hs.next
  · dsimp only
    split
    · exact hs.refuseUnit.next
    · exact hs.next
    · refine next (sendPacket (iteRight (iteRight (iteRight ?_ ?_) ?_) ?_))
      · exact hk _ _ hs.takeInbound
      · exact fun hs => hs.noteRemote
      · exact fun hs => hs.noteRemote
      · exact fun hs => hs.remoteAdd

theorem execFabricWriteUnit {i : Nat} (hs : s.Canonical) : NextCanonical (execFabricWriteUnit i s) := by
  unfold Machine.execFabricWriteUnit
  split
  · exact hs.next
  · exact hs.atDestination fun _ _ hs => hs.remoteWrite

theorem execFabricReadRequest {i : Nat} (hs : s.Canonical) : NextCanonical (execFabricReadRequest i s) := by
  unfold Machine.execFabricReadRequest
  split
  · exact hs.next
  · exact hs.atDestination fun _ _ hs => hs

theorem execFabricAtomicRequest {i : Nat} (hs : s.Canonical) : NextCanonical (execFabricAtomicRequest i s) := by
  unfold Machine.execFabricAtomicRequest
  split
  · exact hs.next
  · refine hs.atDestination fun _ _ hs => ?_
    dsimp only
    split
    · exact hs.remoteWrite
    · exact hs.iteLeft fun hs => hs.remoteWrite

theorem setCollective {c : Collective} (hs : s.Canonical) : (s.setCollective c).Canonical := hs

theorem answerUnit {c : Collective} {unit : Nat} {fl : BitVec 6} (hs : s.Canonical) : (s.answerUnit c unit fl).Canonical :=
  (hs.foldl fun _ _ hs => hs.sendPacket).setCollective

theorem refuseCollective {c : Collective} {cause : Nat} (hs : s.Canonical) : (s.refuseCollective c cause).Canonical :=
  (hs.foldl fun _ _ hs => hs.sendPacket).modFabric

theorem reduceUnit {c : Collective} {p : Packet} {unit : Nat} {r : List Nat × BitVec 6 × List (Nat × Nat)} {t : State}
    (hs : s.Canonical) (ht : s.reduceUnit c p unit r = some t) : t.Canonical := by
  unfold State.reduceUnit at ht
  dsimp only at ht
  split at ht
  · exact Option.some.inj ht ▸ hs.refuseCollective
  · exact Option.some.inj ht ▸ hs.refuseCollective
  · cases ht
  · cases ht
  · cases ht
    exact answerUnit (convRecords (iteRight hs.remoteWrite.noteRemote fun hs => hs.remoteAdd))

theorem foldCrossings {c : Collective} {bytes : Nat} (hs : s.Canonical) : (s.foldCrossings c bytes).Canonical :=
  hs.foldl fun _ _ hs => hs.iteRight fun hs => hs.crossDies

theorem reduceNext {c : Collective} {p : Packet} {t : State} (hs : s.Canonical) (ht : s.reduceNext c p = some t) :
    t.Canonical := by
  unfold State.reduceNext at ht
  dsimp only at ht
  split at ht
  · exact hs.setCollective.foldCrossings.reduceUnit ht
  split at ht
  · exact Option.some.inj ht ▸ hs.setCollective
  split at ht
  · exact Option.some.inj ht ▸ hs.setCollective
  · exact Option.some.inj ht ▸ hs.setCollective.foldCrossings.crossDies.sendPacket

theorem execReductionContribution {i : Nat} (hs : s.Canonical) : NextCanonical (execReductionContribution i s) := by
  unfold Machine.execReductionContribution
  split
  · exact hs.next
  · extract_lets own
    split
    extract_lets s1 dup g
    refine .ite hs.refuseUnit.next <| .ite hs.refuseUnit.next <| .ite hs.takeInbound.sendPacket.next ?_
    split
    · exact hs.next
    · next hr => exact (hs.takeInbound.reduceNext hr).countDie.next

theorem execReductionCompletion {i : Nat} (hs : s.Canonical) : NextCanonical (execReductionCompletion i s) := by
  unfold Machine.execReductionCompletion
  split
  · exact hs.next
  · dsimp only
    split
    · exact hs.takeInbound.answerUnit.next
    · split
      · exact hs.takeInbound.next
      · split
        · exact hs.takeInbound.modOp.next
        · exact hs.takeInbound.modOp.unitAcked.next

theorem execCensusRequest {i : Nat} (hs : s.Canonical) : NextCanonical (execCensusRequest i s) := by
  unfold Machine.execCensusRequest
  split
  · exact hs.next
  · exact hs.takeInbound.setCensus.next

theorem execCensusAnswer {i : Nat} (hs : s.Canonical) : NextCanonical (execCensusAnswer i s) := by
  unfold Machine.execCensusAnswer
  split
  · exact hs.next
  · dsimp only
    split
    · exact hs.takeInbound.next
    · exact .ite hs.takeInbound.next hs.takeInbound.setCensus.countDie.next

theorem execFabricRefusal {i : Nat} (hs : s.Canonical) : NextCanonical (execFabricRefusal i s) := by
  unfold Machine.execFabricRefusal
  split
  · exact hs.next
  · refine .ite ?_ ?_
    · dsimp only
      split
      · exact hs.takeInbound.next
      · exact .ite hs.takeInbound.next hs.takeInbound.setCensus.next
    · split
      · exact hs.takeInbound.refuseCollective.next
      · split
        · exact hs.takeInbound.next
        · exact hs.takeInbound.unitRefused.next

/-! ## Traps and replay queues (R415 to R434) -/

theorem asyncWaits {l : Nat} {w : Weft} (hs : s.Canonical) : (s.asyncWaits l w).Canonical := by
  unfold State.asyncWaits
  split
  · exact hs
  · split
    · exact hs
    · exact hs.terminateTeam.ite hs.setStop

theorem raiseAsync {l k : Nat} (hs : s.Canonical) : (s.raiseAsync l k).Canonical := by
  unfold State.raiseAsync
  split
  · exact hs
  · split
    · exact hs
    · split
      · next ht => exact hs.takeTrap ht
      · exact hs.terminate
      · exact hs.asyncWaits

theorem takeDue {l k : Nat} {w : Weft} {t : State} (hs : s.Canonical) (ht : s.takeDue l k w = some t) : t.Canonical := by
  unfold State.takeDue at ht
  split at ht
  · exact Option.some.inj ht ▸ hs.raise
  split at ht
  · exact Option.some.inj ht ▸ hs.raiseAsync
  · cases ht

theorem execTrapEntry {l k : Nat} (hs : s.Canonical) : NextCanonical (execTrapEntry l k s) := by
  unfold Machine.execTrapEntry
  split
  · exact hs.next
  · refine .ite hs.next (next ?_)
    cases hd : s.takeDue l k _ with
    | none => exact hs
    | some t => exact hs.takeDue hd

theorem reinject {o : Op} (hs : s.Canonical) : (s.reinject o).Canonical :=
  (hs.modFabric.ite hs).modLoom (fun _ hx => hx.setQueue.setRanges) |>.modWeft

theorem iretLoop {w : Weft} {l b : Nat} {os : List (Op × Nat)} {kept : List Faulted} {r : Returned} (hs : s.Canonical)
    (hr : s.iretLoop w l b os kept = r) : r.state.Canonical := by
  subst hr
  induction os generalizing s kept with
  | nil => exact hs
  | cons p os ih =>
    unfold State.iretLoop
    split
    · exact ih hs
    · exact ih hs
    · split
      · exact hs
      · exact ih hs.reinject

theorem keepReplay {l k b : Nat} {kept : List Faulted} {rest : List (Op × Nat)} (hs : s.Canonical) :
    (s.keepReplay l k b kept rest).Canonical :=
  (hs.modLm fun _ hm => Memory.wf_writeBytes _ _ _ hm).setRcount.modWeft

theorem execIret (hs : s.Canonical) : NextCanonical (execIret s) :=
  hs.issue fun x s hs => by
    split
    · exact hs.terminate
    · extract_lets r s2 s3
      have hr : r.state.Canonical := hs.modWeft.iretLoop rfl
      have h2 : s2.Canonical := hr.modWeft
      have h3 : s3.Canonical := h2.returnFromTrap.modWeft
      generalize State.frameOk _ _ _ _ = ok
      exact .ite hr.keepReplay <| .ite h2.terminate <| h3.iteLeft fun hs => hs.raiseAsync

theorem execRqRd {h : Guard} {d a b : Reg} (hs : s.Canonical) : NextCanonical (execRqRd h d a b s) :=
  hs.issue fun _ _ hs => KeepsCanonical.regBody _ _ hs

theorem execRqWr {h : Guard} {d a b : Reg} (hs : s.Canonical) : NextCanonical (execRqWr h d a b s) :=
  hs.issue fun x s hs => by
    split
    · exact hs
    · refine modWeft (hs.foldl fun _ _ hs => ?_)
      split
      · exact hs.iteRight fun hs => hs.modLm fun _ hm => Memory.wf_writeLe _ _ _ _ hm
      · exact hs

theorem dropReplay {l b e n : Nat} (hs : s.Canonical) : (s.dropReplay l b e n).Canonical :=
  (hs.modLm fun _ hm => Memory.wf_writeBytes _ _ _ hm).setRcount

theorem execRqDrop {h : Guard} {d a : Reg} (hs : s.Canonical) : NextCanonical (execRqDrop h d a s) :=
  hs.issue <| .macroBody fun x s hs => by
    dsimp only
    split
    · exact hs.setL
    · refine .ite hs.setL (fillReplay (setL (modWeft (dropReplay ?_))))
      split
      · split
        · exact hs.cancelMove
        · exact hs
      · exact hs

theorem execTrap {h : Guard} {c : BitVec 8} (hs : s.Canonical) : NextCanonical (execTrap h c s) :=
  hs.issue <| .macroBody fun _ _ hs => hs

theorem execSetidem {h : Guard} {a : Reg} (hs : s.Canonical) : NextCanonical (execSetidem h a s) :=
  hs.issue <| .macroBody fun _ _ hs => hs.modOwnTeam

theorem execHalt {h : Guard} {team : Bool} {c : BitVec 8} (hs : s.Canonical) : NextCanonical (execHalt h team c s) :=
  hs.issue <| .macroBody fun _ _ hs => terminate (hs.iteRight fun hs => hs.foldl fun _ _ hs => hs.terminate)

end State.Canonical

end Sys2Proof.Machine
end

section
/-! SUPPORT. Memories in canonical form: units, the distributor, swap images and contexts (R40 to R45, R313 to R330,
R424 to R432, R455). -/

namespace Sys2Proof.Machine

namespace State.Canonical

variable {s : State}

/-! ## Units of the engines and of wefts (R40 to R45, R196 to R200, R330) -/

theorem enterRanges {o : Op} (hs : s.Canonical) : (s.enterRanges o).Canonical :=
  hs.iteLeft fun hs => (hs.modLoom (by exact fun _ hx => hx)).modOp

theorem unitOf {o : Op} {u : Nat} (hs : s.Canonical) : (s.unitOf o u).Canonical := by
  unfold State.unitOf
  split
  · exact hs.copyUnit
  · exact hs.copyUnit
  · exact hs.copyUnit
  · exact hs.cmpUnit
  · exact hs.cmpUnit
  · exact hs.fabUnit
  · exact hs.fabUnit
  · exact hs.fabUnit
  · exact hs.fabUnit
  · exact hs
  · exact hs.iteLeft fun hs => hs.moveUnit
  · exact hs.matrixUnit

theorem unitDone {o : Op} {u : Nat} (hs : s.Canonical) : (s.unitDone o u).Canonical := hs.unitOf.countSofts.ite hs.unitOf

theorem execEngineUnit {l : Nat} {cls : OcClass} {idx : Nat} (hs : s.Canonical) :
    NextCanonical (execEngineUnit l cls idx s) := by
  unfold Machine.execEngineUnit
  split
  · exact hs.next
  · exact .ite hs.next <| .ite hs.enterRanges.next <| .ite hs.next <| .ite hs.next <|
      next (hs.modOp.unitDone.copyBusy.ite hs.modOp.unitDone)

theorem retireFlit {o : Op} {header : Word} {flit : List Word} (hs : s.Canonical) : (s.retireFlit o header flit).Canonical := by
  unfold State.retireFlit
  split
  · exact hs.opFault
  · exact hs.opFault.ite (hs.modOp.ite hs.retireOp.sendFlit)

theorem bankReport {o : Op} (hs : s.Canonical) : (s.bankReport o).Canonical := by
  unfold State.bankReport
  split
  · exact hs
  · exact hs.modWeft.fillReplay

theorem execOperationRetirement {l : Nat} {cls : OcClass} {idx : Nat} (hs : s.Canonical) :
    NextCanonical (execOperationRetirement l cls idx s) := by
  unfold Machine.execOperationRetirement
  split
  · exact hs.next
  · refine .ite (next (hs.iteRight fun hs => hs.retireOp)) <| .ite hs.next ?_
    split
    · exact hs.retireFlit.next
    · exact hs.retireOp.bankReport.next

theorem execBankCommandPart {l idx bank : Nat} (hs : s.Canonical) : NextCanonical (execBankCommandPart l idx bank s) := by
  unfold Machine.execBankCommandPart
  split
  · exact hs.next
  · exact .ite hs.bankPart.busy.next hs.next

theorem execWeftEnd {l k : Nat} (hs : s.Canonical) : NextCanonical (execWeftEnd l k s) := by
  unfold Machine.execWeftEnd
  split
  · exact hs.next
  · exact next (hs.iteRight fun hs => hs.endWeft)

theorem settleWeft {l k : Nat} {w : Weft} (hs : s.Canonical) : (s.settleWeft l k w).Canonical :=
  (hs.setWeft.modLm fun _ hm => Memory.wf_writeBytes _ _ _ hm).countLoom

theorem execFrontierSpillReturn {l k : Nat} (hs : s.Canonical) : NextCanonical (execFrontierSpillReturn l k s) := by
  unfold Machine.execFrontierSpillReturn
  split
  · exact hs.next
  · exact next (hs.iteRight fun hs => hs.settleWeft)

theorem execEntryStarving {l k : Nat} (hs : s.Canonical) : NextCanonical (execEntryStarving l k s) := by
  unfold Machine.execEntryStarving
  split
  · exact hs.next
  · exact next (hs.iteRight fun hs => hs.settleWeft)

theorem execYieldPassEnd {l k : Nat} (hs : s.Canonical) : NextCanonical (execYieldPassEnd l k s) := by
  unfold Machine.execYieldPassEnd
  split
  · exact hs.next
  · split
    · exact hs.next
    · exact next (hs.iteRight fun hs => hs.setWeft)

/-! ## The distributor (R313 to R324, R424 to R428) -/

end State.Canonical

/-- The state that the taking of a record leaves, where it leaves one, is canonical. -/
def Taken.Canonical : Taken → Prop
  | .held => True
  | .fault s | .ok s => s.Canonical

theorem Taken.Canonical.ite {a b : Taken} {c : Prop} [Decidable c] (ha : a.Canonical) (hb : b.Canonical) :
    (if c then a else b).Canonical := by
  split
  · exact ha
  · exact hb

namespace State.Canonical

variable {s : State}

theorem takeRecord {q : Nat} {r : Taken} (hs : s.Canonical) (hr : s.takeRecord q = r) : r.Canonical := by
  subst hr
  unfold State.takeRecord
  extract_lets ctx a
  split
  · trivial
  · refine Taken.Canonical.ite hs.queueFault (Taken.Canonical.ite trivial ?_)
    exact setQueueField (setQueueField hs)
  · exact hs.queueFault

set_option smartUnfolding false in
/-- The search is unfolded by `delta`: its equations compare counts in memory, which the elaborator would evaluate. -/
theorem findPick {n q : Nat} (hs : s.Canonical) : (State.findPick n s q).1.Canonical := by
  induction n generalizing s with
  | zero => exact hs
  | succ n ih =>
    delta State.findPick State.findPick._f
    dsimp only
    split
    · exact hs
    · split
      · exact hs
      · split
        · exact hs
        · next ht => exact hs.takeRecord ht
        · next ht =>
          exact ih (hs.takeRecord ht)

/-- The distributor's own fields name no memory. -/
theorem setDist {d : Distributor} (hs : s.Canonical) : ({ s with dist := d } : State).Canonical := hs

theorem stopTeam {l h : Nat} (hs : s.Canonical) : (s.stopTeam l h).Canonical := hs.iteLeft fun hs => hs.setStop

theorem discardTeam {l h : Nat} (hs : s.Canonical) : (s.discardTeam l h).Canonical := hs.foldl fun _ _ hs => hs.discardOps

theorem preemptTeam {l h : Nat} (hs : s.Canonical) : (s.preemptTeam l h).Canonical := by
  unfold State.preemptTeam
  split
  · exact hs
  · refine hs.iteLeft fun hs => ?_
    split
    · exact hs
    · exact hs.modTeam
    · exact hs.setStop.discardTeam
    · exact hs.stopTeam

theorem preemptCheck {p : Pick} (hs : s.Canonical) : (s.preemptCheck p).Canonical := by
  unfold State.preemptCheck
  split
  · exact hs
  · refine hs.iteLeft fun hs => ?_
    split
    · exact hs
    · exact hs.setDist.foldl fun _ _ hs => hs.preemptTeam

theorem drawTake {q : Nat} (hs : s.Canonical) : (s.drawTake q).Canonical := by
  unfold State.drawTake
  dsimp only
  split
  · exact hs.findPick.setDist
  · exact hs.findPick.setDist
  · exact hs.findPick.setDist.preemptCheck

theorem execDistributorDraw (hs : s.Canonical) : NextCanonical (execDistributorDraw s) := by
  refine .ite hs.next ?_
  split
  · exact hs.preemptCheck.next
  · split
    · exact hs.drawTake.next
    · refine .ite hs.next ?_
      dsimp only
      split
      · exact hs.next
      · exact hs.setDist.drawTake.next

theorem execTeamQuantumExpiry {l h : Nat} (hs : s.Canonical) : NextCanonical (execTeamQuantumExpiry l h s) := by
  unfold Machine.execTeamQuantumExpiry
  split
  · exact .ite hs.preemptCheck.next hs.next
  · exact hs.next

theorem execDrainExpiry {l h : Nat} (hs : s.Canonical) : NextCanonical (execDrainExpiry l h s) := by
  unfold Machine.execDrainExpiry
  split
  · exact hs.next
  · split
    · exact hs.next
    · exact .ite hs.next (next (hs.modTeam.preemptTeam.drawOver.ite hs.modTeam.preemptTeam))

theorem clearLm {l base size : Nat} (hs : s.Canonical) : (s.clearLm l base size).Canonical := by
  have h1 := hs.modLm (l := l) fun _ hm => Memory.wf_zero _ base size hm
  exact h1.ite (h1.modMem fun _ hx => hx)

theorem placeTeam {l h : Nat} {x : Launch} {id : TeamId} {slots bases : List Nat} (hs : s.Canonical) :
    (s.placeTeam l h x id slots bases).Canonical :=
  ((hs.clearLm.modLoom (by exact fun _ hx => hx)).modLaunch.countLoom).drawOver

theorem execTeamPlacement {l h slot0 : Nat} (hs : s.Canonical) : NextCanonical (execTeamPlacement l h slot0 s) := by
  unfold Machine.execTeamPlacement
  split
  · split
    · exact hs.next
    · refine .ite hs.next ?_
      split
      · exact hs.next
      · exact .ite hs.next hs.placeTeam.next
  · exact hs.next

theorem returnTeams {ids : List TeamId} (hs : s.Canonical) : (s.returnTeams ids).Canonical :=
  hs.foldl fun _ _ hs => hs.modLaunch

theorem leaveArms {l h : Nat} (hs : s.Canonical) : (s.leaveArms l h).Canonical := hs.foldl fun _ _ hs => hs.leaveArm

theorem execTeamFlush {l h : Nat} (hs : s.Canonical) : NextCanonical (execTeamFlush l h s) := by
  unfold Machine.execTeamFlush
  split
  · exact hs.next
  · refine .ite hs.next (next (dropBoxes (returnTeams (modLaunch (modLoom ?_ fun x hx => ?_)))))
    · exact hs.leaveArms.foldl fun _ _ hs => hs.cancelReplay
    · exact hx.releaseRanges.releaseEntries.removeTeam

/-! ## Swap images and restoring (R429 to R432) -/

end State.Canonical

namespace Loom.Canonical

variable {x : Loom}

theorem spillEntries {h : Nat} {t : Team} (hx : x.Canonical) : (x.spillEntries h t).Canonical := hx

theorem dropSaved {h : Nat} (hx : x.Canonical) : (x.dropSaved h).Canonical := by
  unfold Loom.dropSaved
  extract_lets mine ids x1 x2
  have h1 : x1.Canonical := hx.foldl fun _ _ hx => hx.setQueue
  have h2 : x2.Canonical := h1.removeTeam
  exact h2

end Loom.Canonical

namespace State.Canonical

variable {s : State}

theorem saveShare {l : Nat} {t : Team} (hs : s.Canonical) : (s.saveShare l t).Canonical := by
  refine hs.writeBytesVa.ite (hs.writeBytesVa.foldl fun _ _ hs => hs.iteRight fun hs => ?_)
  split
  · exact hs.modMem fun _ hx => hx
  · exact hs

theorem spillAttached {l h : Nat} {rs : List (Nat × Nat × Own)} {t : State} (hs : s.Canonical)
    (ht : s.spillAttached l h rs = some t) : t.Canonical := by
  induction rs generalizing s with
  | nil => exact Option.some.inj ht ▸ hs
  | cons r rs ih =>
    unfold State.spillAttached at ht
    split at ht
    · exact ih hs ht
    split at ht
    · cases ht
    · exact ih hs.spillFailed ht
    · next hr => exact ih ((hs.spillRange hr).modLoom fun _ hx => hx.markKey) ht

theorem execTeamSave {l h : Nat} (hs : s.Canonical) : NextCanonical (execTeamSave l h s) := by
  unfold Machine.execTeamSave
  split
  · exact hs.next
  · refine .ite hs.next ?_
    split
    · exact hs.terminateTeam.next
    · exact hs.next
    · split
      · exact hs.next
      · next ht =>
        refine next (swapBusy (countLoom (foldl (modLaunch (modLoom ?_ fun _ hx => ?_)) fun _ _ hs => ?_)))
        · exact (hs.spillAttached ht).saveShare.leaveArms
        · exact hx.spillEntries.dropSaved
        · exact hs.refuseSenders

theorem forgetSaved {id : TeamId} (hs : s.Canonical) : (s.forgetSaved id).Canonical := hs.modLaunch

theorem failStatuses {t : Team} {ws : List (Nat × Weft)} {u : State} (hs : s.Canonical)
    (hu : s.failStatuses t ws = some u) : u.Canonical := by
  induction ws generalizing s with
  | nil => exact Option.some.inj hu ▸ hs
  | cons w ws ih =>
    unfold State.failStatuses at hu
    dsimp only at hu
    split at hu
    · cases hu
    · next hw => exact ih (hs.writeExitStatus hw) hu

theorem restoreFails {v : Saved} {t : State} (hs : s.Canonical) (ht : s.restoreFails v = some t) : t.Canonical := by
  obtain ⟨u, hu, rfl⟩ := Option.map_eq_some_iff.1 ht
  have h2 := (hs.failStatuses hu).foldl (as := v.wefts) (f := fun s p => s.cancelReplay p.2) fun _ _ hs => hs.cancelReplay
  exact (h2.foldl fun _ _ hs => hs.modLoom (by exact fun _ hx => hx)).forgetSaved.retireIds.dropBoxes.drawOver

theorem clearCells {l : Nat} {tiles : List Nat} (hs : s.Canonical) : (s.clearCells l tiles).Canonical :=
  hs.modMem fun _ hx => hx

theorem restoreRange {l h : Nat} {v : Saved} {r : SavedRange} {t : State} (hs : s.Canonical)
    (ht : s.restoreRange l h v r = some t) : t.Canonical := by
  unfold State.restoreRange at ht
  split at ht
  · cases ht
  dsimp only at ht
  split at ht
  · cases ht
  split at ht
  · split at ht
    · cases ht
    · next hf => exact Option.some.inj ht ▸ (hs.fillRange hf).setOwn.modTeam
    · exact Option.some.inj ht ▸ hs.eventRecord.modLoom fun _ hx => hx.dropKey
  · exact Option.some.inj ht ▸ (hs.modLoom (by exact fun _ hx => hx)).clearCells.setOwn.modTeam

theorem restoreRanges {l h : Nat} {v : Saved} {rs : List SavedRange} {t : State} (hs : s.Canonical)
    (ht : s.restoreRanges l h v rs = some t) : t.Canonical := by
  induction rs generalizing s with
  | nil => exact Option.some.inj ht ▸ hs
  | cons r rs ih =>
    unfold State.restoreRanges at ht
    split at ht
    · cases ht
    · next hr => exact ih (hs.restoreRange hr) ht

theorem restoreTiles {l h : Nat} {v : Saved} (hs : s.Canonical) : (s.restoreTiles l h v).Canonical :=
  hs.foldl fun _ _ hs => by
    refine modTeam (modMem (hs.modLoom fun _ hx => ⟨hx.1, ?_⟩) fun _ hm => hm)
    exact Memory.wf_foldl (Memory.wf_zero _ _ 4096 hx.2) fun _ _ hm => Memory.wf_write _ _ _ hm

theorem restoreEntries {l h base : Nat} {v : Saved} (hs : s.Canonical) : (s.restoreEntries l h base v).Canonical :=
  hs.foldl fun _ _ hs => modLoom (hs.iteLeft fun hs => hs.modLoom fun _ hx => hx) fun _ hx => hx

theorem restoreOp {l slot : Nat} {o : Op} (hs : s.Canonical) : (s.restoreOp l slot o).Canonical :=
  (hs.modFabric.ite hs).modLoom fun _ hx => hx.setQueue

theorem restoreTeam {l h : Nat} {v : Saved} {slots bases : List Nat} (hs : s.Canonical) :
    (s.restoreTeam l h v slots bases).Canonical := by
  refine foldl (modLm (modLoom (foldl ?_ fun s f hs => ?_) fun _ hx => hx) fun _ hm => ?_) fun _ _ hs => hs.restoreOp
  · exact hs.clearLm.modLm fun _ hm => Memory.wf_writeBytes _ _ _ hm
  · split
    · exact hs.clearLm.modLm fun _ hm => Memory.wf_foldl hm fun _ _ hm => Memory.wf_write _ _ _ hm
    · exact hs
  · exact Memory.wf_foldl hm fun _ _ hm => Memory.wf_writeBytes _ _ _ hm

theorem checkFrontiers {l h : Nat} (hs : s.Canonical) : (s.checkFrontiers l h).Canonical :=
  hs.foldl fun _ _ hs => hs.iteLeft fun hs => hs.terminate

theorem execTeamRestore {l h slot0 : Nat} (hs : s.Canonical) : NextCanonical (execTeamRestore l h slot0 s) := by
  unfold Machine.execTeamRestore
  split
  · split
    · exact hs.next
    · refine .ite hs.next ?_
      split
      · exact hs.next
      · exact hs.next
      · refine next ?_
        cases hf : s.restoreFails _ with
        | none => exact hs
        | some t => exact hs.restoreFails hf
      · split
        · exact hs.next
        · next he =>
          split
          · exact hs.next
          · next hr =>
            have h1 := (hs.evict he).restoreTeam.restoreRanges hr
            exact h1.restoreTiles.restoreEntries.forgetSaved.checkFrontiers.countLoom.swapBusy.drawOver.next
  · exact hs.next

/-! ## Contexts (R349, R401, R455) -/

end State.Canonical

theorem Memories.Canonical.setHbm {m : Memories} {x : Mem} (hm : m.Canonical) (hx : Memory.wf x = true) :
    ({ m with hbm := x } : Memories).Canonical := ⟨hx, hm.2⟩

theorem Loom.Canonical.dropCtx {x : Loom} {c : Nat} (hx : x.Canonical) : (x.dropCtx c).Canonical := by
  unfold Loom.dropCtx
  extract_lets hs x1 spawns board
  have h1 : x1.Canonical := hx.foldl fun _ _ hx => hx.removeTeam
  exact h1

namespace State.Canonical

variable {s : State}

theorem setMgmt {m : Mgmt} (hs : s.Canonical) : ({ s with mgmt := m } : State).Canonical := hs

theorem setCtxStatus {st : Nat} (hs : s.Canonical) : (s.setCtxStatus st).Canonical := hs

theorem modContext {c : Nat} {f : Context → Context} (hs : s.Canonical) : (s.modContext c f).Canonical := by
  unfold State.modContext
  split
  · exact hs
  · exact hs

theorem dropCtxLines {c : Nat} (hs : s.Canonical) : (s.dropCtxLines c).Canonical :=
  (hs.foldl fun _ _ hs => hs.setTlb).mapLooms fun _ hx => hx

theorem placeQblock {c : Nat} {q : DWord} (hs : s.Canonical) : (s.placeQblock c q).Canonical := by
  unfold State.placeQblock
  split
  · exact hs.iteRight fun hs => hs.placeRecords
  · exact hs

theorem execContextCreate {d : CtxDesc} (hs : s.Canonical) : NextCanonical (execContextCreate d s) := by
  refine .ite hs.next <| .ite hs.setMgmt.setCtxStatus.next <| .ite hs.setMgmt.setCtxStatus.next <|
    next (setCtxStatus (placeQblock (modMem ?_ fun m hm => ?_)))
  · exact setDecode (dropCtxLines hs)
  · exact hm.setHbm (Memory.wf_writeBytes _ _ _ hm.1)

theorem switchTeam {l h : Nat} {t : Team} (hs : s.Canonical) : (s.switchTeam l h t).Canonical :=
  hs.iteLeft fun hs => hs.terminateTeam.ite hs.stopTeam

theorem dropPick {c : Nat} (hs : s.Canonical) : (s.dropPick c).Canonical := by
  unfold State.dropPick
  dsimp only
  split
  · exact hs.drawOver.ite hs
  · exact hs

theorem execContextSwitchOut {ctx : BitVec 16} (hs : s.Canonical) : NextCanonical (execContextSwitchOut ctx s) :=
  .ite hs.next <| .ite hs.setMgmt.setCtxStatus.next <| next <|
    foldl (setCtxStatus (dropPick (modContext hs))) fun _ _ hs => hs.switchTeam

theorem spillPinned {c l : Nat} {os : List (Nat × Own)} {r : State × Bool} (hs : s.Canonical)
    (hr : s.spillPinned c l os = r) : r.1.Canonical := by
  induction os generalizing s r with
  | nil => exact hr ▸ hs
  | cons p os ih =>
    unfold State.spillPinned at hr
    split at hr
    next s1 ok he =>
    have h1 : s1.Canonical := by
      split at he
      · cases he
        exact hs
      split at he
      · cases he
        exact hs
      split at he
      · cases he
        exact hs
      · cases he
        exact hs.spillFailed
      · next hm =>
        cases he
        exact (hs.spillRange hm).modLoom fun _ hx => hx.markKey.setOwners
    split at hr
    next he2 =>
    subst hr
    have h2 := ih h1 he2
    exact h2

theorem spillCtx {c : Nat} (hs : s.Canonical) : (s.spillCtx c).1.Canonical := by
  refine List.foldlRecOn (motive := fun acc : State × Bool => acc.1.Canonical) _ _ hs fun acc hacc p _ => ?_
  split
  next he =>
  have h1 := hacc.spillPinned he
  exact h1

theorem switchOutStep {c : Nat} (hs : s.Canonical) : (s.switchOutStep c).Canonical :=
  hs.iteLeft fun hs => by
  have h1 := hs.spillCtx (c := c)
  dsimp only
  exact h1.modContext.setCtxStatus.ite h1

theorem execContextSwitchIn {ctx : BitVec 16} (hs : s.Canonical) : NextCanonical (execContextSwitchIn ctx s) :=
  .ite hs.next <| .ite hs.setMgmt.setCtxStatus.next <| next <| setCtxStatus (modContext hs)

theorem discardCtx {c : Nat} (hs : s.Canonical) : (s.discardCtx c).Canonical :=
  hs.foldl fun _ _ hs => hs.foldl fun _ _ hs => hs.cancelReplay.discardOps

theorem execContextTeardown {ctx : BitVec 16} (hs : s.Canonical) : NextCanonical (execContextTeardown ctx s) :=
  .ite hs.next <| .ite hs.setMgmt.setCtxStatus.next <| .ite hs.setMgmt.setCtxStatus.next <| next <|
    discardCtx (foldl (setCtxStatus (dropPick (modContext hs))) fun _ _ hs => hs.setStop)

theorem dropContext {c : Nat} (hs : s.Canonical) : (s.dropContext c).Canonical := hs.setQblock.mapLooms fun _ hp => hp.dropCtx

theorem teardownStep {c : Nat} (hs : s.Canonical) : (s.teardownStep c).Canonical :=
  hs.iteLeft fun hs => hs.dropContext.setCtxStatus

theorem contextsAll (hs : s.Canonical) : (s.contextsAll).Canonical :=
  hs.foldl fun _ _ hs => by
    split
    · exact hs
    · exact hs.switchOutStep
    · exact hs.teardownStep

/-! ## Links (R411, R436 to R452) -/

theorem retirePort {port : Nat} (hs : s.Canonical) : (s.retirePort port).Canonical :=
  hs.setPort.modFabric.eventRecord.setMgmt.foldl fun _ _ hs => hs.freeSlots.refuse

theorem retrain {port : Nat} (hs : s.Canonical) : (s.retrain port).Canonical :=
  hs.retirePort.ite hs.setPort.eventRecord.dieError

theorem resendOrRetrain {port : Nat} (hs : s.Canonical) : (s.resendOrRetrain port).Canonical :=
  hs.iteLeft fun hs => hs.retrain.ite hs.setPort

theorem arrive {port : Nat} {p : Packet} (hs : s.Canonical) : (s.arrive port p).Canonical :=
  hs.deliver.ite hs.crossDies.sendPacket

theorem nakIf {port : Nat} (hs : s.Canonical) : (s.nakIf port).Canonical := hs.iteLeft fun hs => hs.emitFlit.modPort

theorem lostWaves {port : Nat} {m : BitVec 24} (hs : s.Canonical) : (s.lostWaves port m).Canonical :=
  hs.foldl fun _ _ hs => hs.eventRecord

theorem peerMask {port : Nat} {m : BitVec 24} (hs : s.Canonical) : (s.peerMask port m).Canonical :=
  hs.iteLeft fun hs => hs.setPort.lostWaves

theorem acceptFlit {port : Nat} {h : FlitHead} {u : Unpacked} {mask : BitVec 24} (hs : s.Canonical) :
    (s.acceptFlit port h u mask).Canonical := by
  unfold State.acceptFlit
  split
  extract_lets s1 s2
  have h1 : s1.Canonical := hs.setPort
  have h2 : s2.Canonical := h1.peerMask.ite (h1.foldl fun _ _ hs => hs.arrive)
  exact h2.iteRight fun hs => hs.emitFlit

theorem execFlitReceive {port : Nat} {flit : BitVec 1536} {got : BitVec 24} (hs : s.Canonical) :
    NextCanonical (execFlitReceive port flit got s) := by
  refine .ite hs.next (.ite (next (nakIf (iteLeft hs.countDie fun hs => hs.dieError))) ?_)
  extract_lets s1 s2 newMask
  have h1 : s1.Canonical := hs.countDie.modPort
  have h2 : s2.Canonical := h1.ite (h1.nakIf.ite h1.acceptFlit)
  exact next (h2.iteRight fun hs => hs.resendOrRetrain)

theorem execReplayTimeout {port : Nat} (hs : s.Canonical) : NextCanonical (execReplayTimeout port s) :=
  .ite hs.resendOrRetrain.next hs.next

theorem execAckTimer {port : Nat} (hs : s.Canonical) : NextCanonical (execAckTimer port s) := .ite hs.emitFlit.next hs.next

theorem execWavelengthSuspect {port w : Nat} (hs : s.Canonical) : NextCanonical (execWavelengthSuspect port w s) :=
  .ite hs.setPort.next hs.next

theorem execWavelengthLiveAgain {port w : Nat} (hs : s.Canonical) : NextCanonical (execWavelengthLiveAgain port w s) :=
  .ite hs.setPort.next hs.next

theorem execWavelengthDead {port : Nat} {mask : BitVec 24} (hs : s.Canonical) :
    NextCanonical (execWavelengthDead port mask s) :=
  .ite hs.next (next (hs.setPort.sendMask.lostWaves.retrain.ite hs.setPort.sendMask.lostWaves))

theorem execPortRetrain {port : Nat} (hs : s.Canonical) : NextCanonical (execPortRetrain port s) := .ite hs.retrain.next hs.next

theorem trained {t : PortTraining} (hs : s.Canonical) : (s.trained t).Canonical :=
  hs.retirePort.ite (hs.modPort.iteRight fun hs => hs.retrain)

theorem execPortTrainingComplete {t : PortTraining} (hs : s.Canonical) : NextCanonical (execPortTrainingComplete t s) :=
  .ite hs.trained.next hs.next

theorem execTokenRestore {port : Nat} (hs : s.Canonical) : NextCanonical (execTokenRestore port s) :=
  .ite hs.setPort.next hs.next

theorem execPortSetOffline {port : Nat} (hs : s.Canonical) : NextCanonical (execPortSetOffline port s) :=
  .ite hs.next (.ite hs.setPort.next hs.setPort.next)

theorem execPortBringUp {port : Nat} (hs : s.Canonical) : NextCanonical (execPortBringUp port s) :=
  .ite hs.next <| by
  split
  · exact hs.setPort.next
  · exact hs.setPort.next
  · exact hs.setPort.next

theorem execNodeWrite {n : BitVec 12} (hs : s.Canonical) : NextCanonical (execNodeWrite n s) := next hs

theorem execRouteWrite {node : Nat} {v : BitVec 16} (hs : s.Canonical) : NextCanonical (execRouteWrite node v s) :=
  .ite hs.next hs.modFabric.next

theorem execRouteChangeEffect {node vc : Nat} (hs : s.Canonical) : NextCanonical (execRouteChangeEffect node vc s) :=
  .ite hs.next (next (hs.modFabric.foldl fun _ _ hs => hs.sendPacket))

/-! ## Power, reset and bring-up (R31 to R33, R457 to R463) -/

theorem restarted {powered : Bool} (hs : s.Canonical) : (s.restarted powered).Canonical :=
  ⟨⟨rfl, rfl, hs.1.2.2⟩, fun _ hp => nomatch hp⟩

theorem execPowerOn (hs : s.Canonical) : NextCanonical (execPowerOn s) := next (hs.iteLeft fun hs => hs.restarted)

theorem execPowerOff (hs : s.Canonical) : NextCanonical (execPowerOff s) := hs.restarted.next

theorem execResetRequest (hs : s.Canonical) : NextCanonical (execResetRequest s) := hs.restarted.next

theorem modMgmt {f : Mgmt → Mgmt} (hs : s.Canonical) : (s.modMgmt f).Canonical := hs

theorem execExlemLinkTrained (hs : s.Canonical) : NextCanonical (execExlemLinkTrained s) := .ite hs.next hs.modMgmt.next

theorem execFirmwareVerification {img : FlashImage} (hs : s.Canonical) : NextCanonical (execFirmwareVerification img s) :=
  .ite hs.next <| by
  dsimp only
  split
  · exact hs.modMgmt.modMgmt.next
  · exact hs.modMgmt.modMgmt.next

theorem execMemoryZeroing (hs : s.Canonical) : NextCanonical (execMemoryZeroing s) :=
  .ite hs.next (next (modMgmt ⟨⟨rfl, rfl, hs.1.2.2⟩, fun _ hp => nomatch hp⟩))

theorem bringPort {ts : List PortTraining} {port : Nat} (hs : s.Canonical) : (s.bringPort ts port).Canonical :=
  hs.modPort.ite <| by
  split
  · exact hs.trained
  · exact hs.retirePort

theorem setNode {n : BitVec 12} (hs : s.Canonical) : ({ s with node := n } : State).Canonical := hs

theorem setQbase {b : DWord} (hs : s.Canonical) : ({ s with qbase := b } : State).Canonical := hs

theorem execFabricBringUp {ports : List PortTraining} {routes : List (Nat × BitVec 16)} {node : BitVec 12} (hs : s.Canonical) :
    NextCanonical (execFabricBringUp ports routes node s) :=
  .ite hs.next (next (modMgmt (setNode (modFabric (hs.foldl fun _ _ hs => hs.bringPort)))))

theorem execLaunchQueuesEnable {base : DWord} (hs : s.Canonical) : NextCanonical (execLaunchQueuesEnable base s) :=
  .ite hs.next hs.setQbase.placeRecords.modMgmt.next

end State.Canonical

end Sys2Proof.Machine
end

section
/-! SUPPORT. Memories in canonical form: management, host accesses, every instruction and every turn (R412 to R414, R453,
R462 to R466; log entries 1 and 23). -/

namespace Sys2Proof.Machine

namespace State.Canonical

variable {s : State}

/-! ## Management registers, scrubbing and host accesses (R339, R412 to R414, R453, R462 to R466) -/

theorem periodReload (hs : s.Canonical) : (s.periodReload).Canonical := hs.mapLooms fun _ hx => hx

theorem tripNow (hs : s.Canonical) : (s.tripNow).Canonical := hs.iteLeft fun hs => hs.modMgmt.setOutbox

theorem powerUpdate {pw : BitVec 16} {temps : List (BitVec 12)} (hs : s.Canonical) : (s.powerUpdate pw temps).Canonical :=
  hs.modMgmt.iteRight fun hs => hs.tripNow

theorem execBudgetPeriodStart {pw : BitVec 16} {temps : List (BitVec 12)} (hs : s.Canonical) :
    NextCanonical (execBudgetPeriodStart pw temps s) :=
  .ite hs.powerUpdate.periodReload.next hs.next

theorem execThermalTrip {die : Nat} (hs : s.Canonical) : NextCanonical (execThermalTrip die s) :=
  .ite hs.modMgmt.tripNow.next hs.next

theorem execCoolantFlowAlarm {flow leak : Bool} (hs : s.Canonical) : NextCanonical (execCoolantFlowAlarm flow leak s) :=
  hs.modMgmt.next

theorem execBudgetWrite {act : Nat} {v : BitVec 16} {floor : Bool} (hs : s.Canonical) :
    NextCanonical (execBudgetWrite act v floor s) :=
  hs.modMgmt.next

theorem execMemoryScrub {addr : Nat} (hs : s.Canonical) : NextCanonical (execMemoryScrub addr s) := by
  unfold Machine.execMemoryScrub
  extract_lets ctrl e s1 s2
  have h1 : s1.Canonical := by
    unfold s1
    split
    · split
      exact (hs.modMem (by exact fun _ hx => hx)).dieError.countDie.countDie
    · split
      exact hs.dieError.countDie
    · exact hs
  have h2 : s2.Canonical := h1.busy.countDie
  exact .ite hs.next <| .ite h2.modMgmt.next (next (modMgmt (h2.foldl fun _ _ hs => hs.dieError)))

end State.Canonical

theorem Memory.wf_put {m : Mem} {a : Nat} {b : Byte} (hm : Memory.wf m = true) (hb : b ≠ 0) :
    Memory.wf (SMap.put m a b) = true := by
  have hw := Memory.wf_write m a b hm
  rwa [Memory.write, SMap.set, if_neg hb] at hw

/-- The bytes that an interval's copy lists are those of a canonical memory, none of them zero. -/
theorem Memory.wf_copyRange {m : Mem} {src dst n : Nat} (hm : Memory.wf m = true) :
    Memory.wf (Memory.copyRange m src dst n) = true := by
  refine List.foldlRecOn (motive := fun m => Memory.wf m = true) _ _ (Memory.wf_zero m dst n hm) fun t ht c hc => ?_
  obtain ⟨b, hb, rfl⟩ := List.mem_map.1 hc
  exact Memory.wf_put ht (((Memory.wf_iff m).1 hm).2 b (List.mem_of_mem_filter hb))

theorem Memories.Canonical.copyPage {m : Memories} {sp : Space} {src dst n : Nat} (hm : m.Canonical) :
    (m.copyPage sp src dst n).Canonical := by
  unfold Memories.copyPage
  extract_lets u m1
  have h1 : m1.Canonical := hm.setOf (Memory.wf_copyRange hm.of)
  exact h1

namespace State.Canonical

variable {s : State}

theorem leaveLines {sp : Space} {src n : Nat} (hs : s.Canonical) : (s.leaveLines sp src n).Canonical :=
  hs.foldl fun _ _ hs => hs.l2Leaves

theorem countCopied {sp : Space} {src dst n : Nat} (hs : s.Canonical) : (s.countCopied sp src dst n).Canonical :=
  hs.iteLeft fun hs => hs.foldl fun _ _ hs => hs.countDie.countDie

theorem execMigrationCopy {ctx : BitVec 16} {va newPpn : Nat} (hs : s.Canonical) :
    NextCanonical (execMigrationCopy ctx va newPpn s) := by
  unfold Machine.execMigrationCopy
  split
  · exact hs.next
  · exact .ite hs.next (next (hs.leaveLines.modMem fun _ hm => hm.copyPage).busy.countCopied)

theorem execEventSampling (hs : s.Canonical) : NextCanonical (execEventSampling s) :=
  .ite hs.next (next (busy (modMgmt (hs.modMem fun _ hm => hm.setHbm (Memory.wf_writeBytes _ _ _ hm.1)))))

theorem execSoftError {loc : ErrLoc} {unc : Bool} (hs : s.Canonical) : NextCanonical (execSoftError loc unc s) := by
  unfold Machine.execSoftError
  split
  · exact hs.modWeft.next
  · split
    · exact hs.next
    · exact (hs.modMem (by exact fun _ hx => hx)).next

theorem execEvqWrite {word : Nat} {v : DWord} {byHost : Bool} (hs : s.Canonical) :
    NextCanonical (execEvqWrite word v byHost s) :=
  hs.modMgmt.next

theorem execInvalidationPort {ctx : BitVec 16} {m : TlbMode} {va : DWord} {n : Word} (hs : s.Canonical) :
    NextCanonical (execInvalidationPort ctx m va n s) :=
  hs.setInvs.modMgmt.next

theorem execAttestRequest {nonce : BitVec 256} (hs : s.Canonical) : NextCanonical (execAttestRequest nonce s) := hs.modMgmt.next

theorem execAttestReadCert (hs : s.Canonical) : NextCanonical (execAttestReadCert s) := hs.modMgmt.next

theorem execMeasurementExtend {x : List Byte} (hs : s.Canonical) : NextCanonical (execMeasurementExtend x s) :=
  .ite hs.next hs.modMgmt.next

theorem clearErrcnt {n : Nat} (hs : s.Canonical) : (s.clearErrcnt n).Canonical := hs.modMgmt.ite (hs.modLoom fun _ hx => hx)

theorem writeSetting {r : Nat} {v : DWord} (hs : s.Canonical) : (s.writeSetting r v).Canonical :=
  hs.modMgmt.setDist.ite <| hs.modMgmt.ite <| hs.modMgmt.ite <| hs.modMgmt.ite <| hs.modMgmt.ite <| hs.modMgmt.ite hs

theorem ctxCommand {v : Nat} (hs : s.Canonical) : NextCanonical (s.ctxCommand v) :=
  .ite hs.next <| by
  split
  · exact hs.execContextCreate
  · exact hs.execContextSwitchOut
  · exact hs.execContextSwitchIn
  · exact hs.execContextTeardown
  · exact hs.modMgmt.setCtxStatus.next

theorem execManagementRegisterWrite {r : Nat} {v : DWord} (hs : s.Canonical) :
    NextCanonical (execManagementRegisterWrite r v s) :=
  .ite hs.modMgmt.next <| .ite hs.writeSetting.next <| .ite hs.clearErrcnt.next <| .ite hs.modPort.next <|
    .ite hs.modMgmt.next <| .ite hs.ctxCommand <| .ite hs.modMgmt.next hs.next

theorem execHostLoad {off n : Nat} (hs : s.Canonical) : NextCanonical (execHostLoad off n s) :=
  .ite (.ite hs.request.next hs.setOutbox.next) hs.next

theorem hostRegWrite {r : Nat} {data : List Byte} (hs : s.Canonical) : NextCanonical (s.hostRegWrite r data) :=
  .ite (.ite hs.execResetRequest hs.next) <| .ite hs.execEvqWrite <| .ite hs.modMgmt.next <|
    .ite (.ite hs.execAttestRequest (.ite hs.execAttestReadCert hs.modMgmt.next)) hs.next

theorem execHostStore {off : Nat} {data : List Byte} (hs : s.Canonical) : NextCanonical (execHostStore off data s) :=
  .ite hs.next <| .ite (next (hs.request.ite hs.hostWrite)) <| .ite hs.hostWrite.next <| .ite hs.hostRegWrite hs.next

theorem execHostCoherenceRequest {line : Nat} {data : Option (List Byte)} (hs : s.Canonical) :
    NextCanonical (execHostCoherenceRequest line data s) := by
  unfold Machine.execHostCoherenceRequest
  split
  · exact hs.next
  · exact .ite hs.next (hs.hostWrite.modMem (by exact fun _ hx => hx)).next

theorem execLinkFailure (hs : s.Canonical) : NextCanonical (execLinkFailure s) := .ite hs.modMgmt.next hs.next

/-! ## The instructions that name no memory -/

theorem execMovs {h : Guard} {d : Reg} {r : SysReg} (hs : s.Canonical) : NextCanonical (execMovs h d r s) :=
  hs.issue fun x s hs => .ite (KeepsCanonical.pairBody x s hs) (KeepsCanonical.regBody x s hs)

theorem execBr {h : Guard} {p : BitVec 12} {off : BitVec 16} (hs : s.Canonical) : NextCanonical (execBr h p off s) :=
  hs.issue fun _ _ hs => hs

theorem execBrc {h : Guard} {a : Reg} {p : BitVec 12} {off : BitVec 16} (hs : s.Canonical) :
    NextCanonical (execBrc h a p off s) :=
  hs.issue fun _ _ hs => hs

theorem execJmp {h : Guard} {d a : Reg} {p : BitVec 12} (hs : s.Canonical) : NextCanonical (execJmp h d a p s) :=
  hs.issue fun _ _ hs => hs.iteLeft fun hs => hs.link

theorem execCall {h : Guard} {d : Reg} {p : BitVec 12} {off : BitVec 16} (hs : s.Canonical) :
    NextCanonical (execCall h d p off s) :=
  hs.issue fun _ _ hs => hs.link

theorem execRet {h : Guard} {a : Reg} {p : BitVec 12} (hs : s.Canonical) : NextCanonical (execRet h a p s) :=
  hs.issue fun _ _ hs => hs

theorem execPrio {p : BitVec 12} (hs : s.Canonical) : NextCanonical (execPrio p s) := hs.issue fun _ _ hs => hs

theorem execExit {h : Guard} (hs : s.Canonical) : NextCanonical (execExit h s) := hs.issue fun _ _ hs => hs

theorem execYield {h : Guard} (hs : s.Canonical) : NextCanonical (execYield h s) :=
  hs.issue <| .macroBody fun _ _ hs => hs.modWeft

theorem execNop {h : Guard} (hs : s.Canonical) : NextCanonical (execNop h s) := hs.issue fun _ _ hs => hs

theorem execBrk {h : Guard} {c : BitVec 8} (hs : s.Canonical) : NextCanonical (execBrk h c s) :=
  hs.issue <| .macroBody fun _ _ hs => hs

theorem execFcmp {h : Guard} {c : FCond} {n : BitVec 4} {d a b : Reg} (hs : s.Canonical) :
    NextCanonical (execFcmp h c n d a b s) :=
  hs.issue fun _ _ hs => hs.modWeft

theorem execFclass {h : Guard} {n : BitVec 4} {d a : Reg} {k : BitVec 8} (hs : s.Canonical) :
    NextCanonical (execFclass h n d a k s) :=
  hs.issue fun _ _ hs => .ite trivial hs.modWeft

theorem execFcvt {h : Guard} {n src : BitVec 4} {d a b : Reg} {o : BitVec 8} (hs : s.Canonical) :
    NextCanonical (execFcvt h n src d a b o s) :=
  hs.issue fun _ _ hs => hs.modWeft

theorem execFtoi {h : Guard} {rm : Rm} {sg : Bool} {n : BitVec 4} {d a : Reg} {k : BitVec 8} (hs : s.Canonical) :
    NextCanonical (execFtoi h rm sg n d a k s) :=
  hs.issue fun _ _ hs => .ite trivial hs.modWeft

theorem execItof {h : Guard} {sg : Bool} {n : BitVec 4} {d a : Reg} (hs : s.Canonical) :
    NextCanonical (execItof h sg n d a s) :=
  hs.issue fun _ _ hs => hs.modWeft

theorem execFpack {h : Guard} {n : BitVec 4} {d a b : Reg} {k : BitVec 8} (hs : s.Canonical) :
    NextCanonical (execFpack h n d a b k s) :=
  hs.issue fun _ _ hs => .ite trivial hs.modWeft

theorem execFunpack {h : Guard} {sg : Bool} {n : BitVec 4} {d a : Reg} {k : BitVec 8} (hs : s.Canonical) :
    NextCanonical (execFunpack h sg n d a k s) :=
  hs.issue fun _ _ hs => .ite trivial hs.modWeft

theorem execFdot {h : Guard} {n acc : BitVec 4} {d a b c : Reg} (hs : s.Canonical) :
    NextCanonical (execFdot h n acc d a b c s) :=
  hs.issue fun _ _ hs => .ite trivial hs.modWeft

theorem execSetfmt {h : Guard} {n : BitVec 4} {a : Reg} (hs : s.Canonical) : NextCanonical (execSetfmt h n a s) :=
  hs.issue <| .macroBody fun _ _ hs => .ite trivial hs.modWeft

theorem execFflags {h : Guard} {d : Reg} {mask : BitVec 8} (hs : s.Canonical) : NextCanonical (execFflags h d mask s) :=
  hs.issue <| .macroBody fun _ _ hs => hs.modWeft

theorem execLdw {h : Guard} {n : BitVec 4} {d a b : Reg} {imm : BitVec 16} (hs : s.Canonical) :
    NextCanonical (execLdw h n d a b imm s) :=
  hs.issue <| .accessBody fun _ _ _ hs => hs.modWeft

theorem execStw {h : Guard} {n : BitVec 4} {d a b : Reg} {imm : BitVec 16} (hs : s.Canonical) :
    NextCanonical (execStw h n d a b imm s) :=
  hs.issue <| .accessBody fun _ _ _ hs => hs.storeMark.updateLanes

theorem execLdResid {h : Guard} {d a m : Reg} {imm : BitVec 16} {wd : Width} {acq : Bool} (hs : s.Canonical) :
    NextCanonical (execLdResid h d a m imm wd acq s) :=
  hs.issue <| .accessBody fun _ _ _ hs => hs.acquire.modWeft

theorem execLdwResid {h : Guard} {n : BitVec 4} {d a m : Reg} {imm : BitVec 16} (hs : s.Canonical) :
    NextCanonical (execLdwResid h n d a m imm s) :=
  hs.issue <| .accessBody fun _ _ _ hs => hs.modWeft

theorem execProbe {h : Guard} {d a b : Reg} {imm : BitVec 16} (hs : s.Canonical) : NextCanonical (execProbe h d a b imm s) :=
  hs.issue fun _ _ hs => hs.modWeft

theorem execDtread {h : Guard} {d a : Reg} (hs : s.Canonical) : NextCanonical (execDtread h d a s) :=
  hs.issue fun _ _ hs => hs.modWeft

theorem execIpref {h : Guard} {n : BitVec 3} {off : BitVec 16} (hs : s.Canonical) : NextCanonical (execIpref h n off s) :=
  hintIssue fun _ => hs.iteRight fun hs => hs.iprefFill

theorem execDpref {h : Guard} {a b : Reg} {imm : BitVec 16} (hs : s.Canonical) : NextCanonical (execDpref h a b imm s) :=
  hintIssue fun _ => hs.dprefFill

/-! ## Every instruction, and every turn -/

/-- Every instruction, and every step of the device, keeps the memories canonical. -/
theorem exec {i : Instr} (hs : s.Canonical) : NextCanonical (exec i s) := by
  unfold Machine.exec
  cases i with
  | iadd | isub | imul | imulh | imad | idiv | irem | imin | imax | iabs | ineg | iand | ior | ixor | inot | logic3
  | shl | shr | sar | rot | popc | clz | ctz | brev | bfx | bfi | icmp | sel | mov | iaddImm | imulImm | andImm | orImm
  | xorImm | shlImm | shrImm | sarImm | rotImm | movi | movhi | shfl | ballot | vote | lprefix | bcast | elect =>
    dsimp only
    exact hs.issue .regBody
  | iadd64 | imad64 | shl64 | lea | getfmt =>
    dsimp only
    exact hs.issue .pairBody
  | fadd | fsub | fmul | fma | fmin | fmax | fabs | fneg | fround | fscale =>
    dsimp only
    exact hs.issue .elemBody
  | fdiv | frcp | fsqrt | frsq | fexp2 | flog2 | fsinpi | fcospi | ftanh =>
    dsimp only
    exact hs.issue .floatBody
  | atomAdd | atomMin | atomMax | atomAnd | atomOr | atomXor | atomXchg | atomCas | atomInc | atomDec =>
    dsimp only
    exact hs.issue .atomBody
  | copy | gather | scatter =>
    dsimp only
    exact hs.issue .copyBody
  | cmpst | expld =>
    dsimp only
    exact hs.issue .cmpBody
  | xput | xget =>
    dsimp only
    exact hs.issue .xferBody
  | mma | mmaSp | mmaDy | delta =>
    dsimp only
    exact hs.issue .blockBody
  | aspill | afill | ascale | acvt =>
    dsimp only
    exact hs.issue .rowBody
  | hbar | hvote | hbcast =>
    dsimp only
    exact hs.issue .heddleBody
  | movs => exact hs.execMovs
  | br => exact hs.execBr
  | brc => exact hs.execBrc
  | jmp => exact hs.execJmp
  | call => exact hs.execCall
  | ret => exact hs.execRet
  | prio => exact hs.execPrio
  | exit => exact hs.execExit
  | yield => exact hs.execYield
  | nop => exact hs.execNop
  | brk => exact hs.execBrk
  | vgrow => exact hs.execVgrow
  | vshrink => exact hs.execVshrink
  | fcmp => exact hs.execFcmp
  | fclass => exact hs.execFclass
  | fcvt => exact hs.execFcvt
  | ftoi => exact hs.execFtoi
  | itof => exact hs.execItof
  | fpack => exact hs.execFpack
  | funpack => exact hs.execFunpack
  | fdot => exact hs.execFdot
  | setfmt => exact hs.execSetfmt
  | fflags => exact hs.execFflags
  | ld => exact hs.execLd
  | st => exact hs.execSt
  | ldw => exact hs.execLdw
  | stw => exact hs.execStw
  | ldResid => exact hs.execLdResid
  | ldwResid => exact hs.execLdwResid
  | fence => exact hs.execFence
  | pagein => exact hs.execPagein
  | probe => exact hs.execProbe
  | atomFadd => exact hs.execAtomFadd
  | xatom => exact hs.execXatom
  | xred => exact hs.execXred
  | bankop => exact hs.execBankop
  | tclaim => exact hs.execTclaim
  | trel => exact hs.execTrel
  | pin => exact hs.execPin
  | unpin => exact hs.execUnpin
  | attach => exact hs.execAttach
  | detach => exact hs.execDetach
  | aread => exact hs.execAread
  | awrite => exact hs.execAwrite
  | azero => exact hs.execAzero
  | launch => exact hs.execLaunch
  | fetchw => exact hs.execFetchw
  | spawn => exact hs.execSpawn
  | join => exact hs.execJoin
  | msgmap => exact hs.execMsgmap
  | msgunmap => exact hs.execMsgunmap
  | ringInit => exact hs.execRingInit
  | ringSig => exact hs.execRingSig
  | ringWait => exact hs.execRingWait
  | hred => exact hs.execHred
  | hset => exact hs.execHset
  | dtload => exact hs.execDtload
  | dtread => exact hs.execDtread
  | tlbinv => exact hs.execTlbinv
  | tlbsync => exact hs.execTlbsync
  | recChk => exact hs.execRecChk
  | sbPost => exact hs.execSbPost
  | sbWdr => exact hs.execSbWdr
  | sbFind => exact hs.execSbFind
  | solicit => exact hs.execSolicit
  | respond => exact hs.execRespond
  | sbMove => exact hs.execSbMove
  | waitoc => exact hs.execWaitoc
  | arm => exact hs.execArm
  | await => exact hs.execAwait
  | arrive => exact hs.execArrive
  | evsel => exact hs.execEvsel
  | evrd => exact hs.execEvrd
  | evclr => exact hs.execEvclr
  | trap => exact hs.execTrap
  | iret => exact hs.execIret
  | rqRd => exact hs.execRqRd
  | rqWr => exact hs.execRqWr
  | rqDrop => exact hs.execRqDrop
  | setidem => exact hs.execSetidem
  | halt => exact hs.execHalt
  | ipref => exact hs.execIpref
  | dpref => exact hs.execDpref
  | unassignedHint => exact hintIssue fun _ => hs
  | trapEntry => exact hs.execTrapEntry
  | weftEnd => exact hs.execWeftEnd
  | entryStarving => exact hs.execEntryStarving
  | frontierSpillReturn => exact hs.execFrontierSpillReturn
  | yieldPassEnd => exact hs.execYieldPassEnd
  | vgrowBlocksObtained => exact hs.execVgrowBlocksObtained
  | vgrowTimeout => exact hs.execVgrowTimeout
  | instructionCacheFill => exact hs.execInstructionCacheFill
  | engineUnit => exact hs.execEngineUnit
  | operationRetirement => exact hs.execOperationRetirement
  | bankCommandPart => exact hs.execBankCommandPart
  | blockMerge => exact hs.execBlockMerge
  | sbMoveCommit => exact hs.execSbMoveCommit
  | sbWdrFree => exact hs.execSbWdrFree
  | hsetCommit => exact hs.execHsetCommit
  | continuationEnqueue => exact hs.execContinuationEnqueue
  | recordTake => exact hs.execRecordTake
  | fetchwAnswer => exact hs.execFetchwAnswer
  | messageSend => exact hs.execMessageSend
  | distributorDraw => exact hs.execDistributorDraw
  | drainExpiry => exact hs.execDrainExpiry
  | teamFlush => exact hs.execTeamFlush
  | teamSave => exact hs.execTeamSave
  | teamPlacement => exact hs.execTeamPlacement
  | teamRestore => exact hs.execTeamRestore
  | hostStore => exact hs.execHostStore
  | hostLoad => exact hs.execHostLoad
  | hostCoherenceRequest => exact hs.execHostCoherenceRequest
  | linkFailure => exact hs.execLinkFailure
  | censusPoint => exact hs.execCensusPoint
  | responderSpawn => exact hs.execResponderSpawn
  | fabricWriteUnit => exact hs.execFabricWriteUnit
  | fabricReadRequest => exact hs.execFabricReadRequest
  | fabricReadResponse => exact hs.execFabricReadResponse
  | fabricAtomicRequest => exact hs.execFabricAtomicRequest
  | fabricAtomicResponse => exact hs.execFabricAtomicResponse
  | fabricCompletion => exact hs.execFabricCompletion
  | fabricRefusal => exact hs.execFabricRefusal
  | reductionContribution => exact hs.execReductionContribution
  | reductionCompletion => exact hs.execReductionCompletion
  | censusRequest => exact hs.execCensusRequest
  | censusAnswer => exact hs.execCensusAnswer
  | routeChangeEffect => exact hs.execRouteChangeEffect
  | flitReceive => exact hs.execFlitReceive
  | replayTimeout => exact hs.execReplayTimeout
  | ackTimer => exact hs.execAckTimer
  | wavelengthSuspect => exact hs.execWavelengthSuspect
  | wavelengthLiveAgain => exact hs.execWavelengthLiveAgain
  | wavelengthDead => exact hs.execWavelengthDead
  | portRetrain => exact hs.execPortRetrain
  | portTrainingComplete => exact hs.execPortTrainingComplete
  | tokenRestore => exact hs.execTokenRestore
  | budgetPeriodStart => exact hs.execBudgetPeriodStart
  | thermalTrip => exact hs.execThermalTrip
  | memoryScrub => exact hs.execMemoryScrub
  | migrationCopy => exact hs.execMigrationCopy
  | eventSampling => exact hs.execEventSampling
  | tlbinvComplete => exact hs.execTlbinvComplete
  | powerOn => exact hs.execPowerOn
  | exlemLinkTrained => exact hs.execExlemLinkTrained
  | firmwareVerification => exact hs.execFirmwareVerification
  | memoryZeroing => exact hs.execMemoryZeroing
  | fabricBringUp => exact hs.execFabricBringUp
  | launchQueuesEnable => exact hs.execLaunchQueuesEnable
  | resetRequest => exact hs.execResetRequest
  | portSetOffline => exact hs.execPortSetOffline
  | portBringUp => exact hs.execPortBringUp
  | evqWrite => exact hs.execEvqWrite
  | nodeWrite => exact hs.execNodeWrite
  | routeWrite => exact hs.execRouteWrite
  | budgetWrite => exact hs.execBudgetWrite
  | invalidationPort => exact hs.execInvalidationPort
  | attestRequest => exact hs.execAttestRequest
  | attestReadCert => exact hs.execAttestReadCert
  | measurementExtend => exact hs.execMeasurementExtend
  | contextCreate => exact hs.execContextCreate
  | contextSwitchOut => exact hs.execContextSwitchOut
  | contextSwitchIn => exact hs.execContextSwitchIn
  | contextTeardown => exact hs.execContextTeardown
  | managementRegisterWrite => exact hs.execManagementRegisterWrite
  | teamQuantumExpiry => exact hs.execTeamQuantumExpiry
  | tlbFillAhead => exact hs.execTlbFillAhead
  | softError => exact hs.execSoftError
  | powerOff => exact hs.execPowerOff
  | coolantFlowAlarm => exact hs.execCoolantFlowAlarm

/-! ## Turns and cycles (log entries 1 and 23) -/

/-- A meaning of instructions that keeps the memories canonical. -/
def KeepsRun (run : Instr → State → Result) : Prop := ∀ i s, s.Canonical → NextCanonical (run i s)

theorem keepsRun_exec : KeepsRun Machine.exec := fun _ _ hs => hs.exec

theorem ticked (hs : s.Canonical) : (s.ticked).Canonical := hs.mapLooms fun _ hx => hx

theorem periodTick {t : Turn} (hs : s.Canonical) : (s.periodTick t).Canonical := by
  refine iteRight hs fun hs => ?_
  exact hs.powerUpdate.periodReload

theorem ungrown {l k : Nat} (hs : s.Canonical) : (s.ungrown l k).Canonical := by
  unfold State.ungrown
  split
  · exact hs
  · split
    · exact hs
    · exact hs.modLoom fun _ hx => hx

theorem queuesAll (hs : s.Canonical) : (s.queuesAll).Canonical :=
  hs.iteLeft fun hs => hs.foldl fun _ _ hs => hs.iteRight fun hs => hs.queueFault

theorem settled (hs : s.Canonical) : (s.settled).Canonical := hs.settle.censusAll.drainPorts.queuesAll.contextsAll

section Run

variable {run : Instr → State → Result}

theorem setCur {c : Option Issue} (hs : s.Canonical) : ({ s with cur := c } : State).Canonical := hs

theorem issueWord {l k : Nat} {w : Weft} {e : Entry} {word : DWord} (hr : KeepsRun run) (hs : s.Canonical) :
    NextCanonical (s.issueWord run l k w e word) := by
  unfold State.issueWord
  dsimp only
  split
  · split
    · next ht =>
      have h1 := hr _ _ hs.setCur _ ht
      exact h1.setCur.next
    · next r hn => exact fun t ht => (hn t ht).elim
  · split
    · exact hs.next
    · exact hs.raise.next

theorem issueAt {l k : Nat} {w : Weft} {e : Entry} (hr : KeepsRun run) (hs : s.Canonical) :
    NextCanonical (s.issueAt run l k w e) := by
  unfold State.issueAt
  split
  · exact hs.raise.next
  · exact hs.next
  · exact .ite hs.next (issueWord hr hs.fetchWord)

theorem attempt {l k : Nat} {r : Result × Bool} (hr : KeepsRun run) (hs : s.Canonical) (he : s.attempt run l k = r) :
    NextCanonical r.1 := by
  subst he
  unfold State.attempt
  split
  · exact hs.next
  · split
    · exact hs.next
    · split
      · next hd => exact (hs.takeDue hd).next
      · split
        · exact hs.settleWeft.next
        · extract_lets r
          have h1 : NextCanonical r := by
            unfold r
            split
            · exact issueAt hr hs
            · split
              · exact hr _ _ hs
              · exact hs.next
          clear_value r
          split
          · have h2 := h1 _ rfl
            split
            · exact h2.next
            · exact h2.ungrown.next
          · exact h1

theorem yieldedNow {t : State} {l k : Nat} (ht : t.Canonical) : (s.yieldedNow run t l k).Canonical := by
  unfold State.yieldedNow
  split
  · exact ht
  · split
    · exact ht
    · exact ht.setWeft.ite ht

theorem issueFirst {l : Nat} {ks : List Nat} (hr : KeepsRun run) (hs : s.Canonical) :
    NextCanonical (s.issueFirst run l ks) := by
  induction ks generalizing s with
  | nil => exact next (hs.iteLeft fun hs => hs.countLoom)
  | cons k ks ih =>
    unfold State.issueFirst
    split
    · next ha => exact next (yieldedNow (attempt hr hs ha _ rfl))
    · next ha => exact ih (attempt hr hs ha _ rfl)
    · next ha => exact attempt hr hs ha

theorem turnTaken {t : Turn} (hr : KeepsRun run) (hs : s.Canonical) : NextCanonical (s.turnTaken run t) := by
  unfold State.turnTaken
  split
  · exact .ite (issueFirst hr hs) hs.next
  · exact .ite (hr _ _ hs) hs.next

theorem takeTurn {t : Turn} (hr : KeepsRun run) (hs : s.Canonical) : NextCanonical (takeTurn run s t) := by
  unfold Machine.takeTurn
  dsimp only
  split
  · next ht => exact (turnTaken hr (hs.iteRight fun hs => hs.ticked.periodTick) _ ht).settled.next
  · next r hn => exact fun t ht => (hn t ht).elim

theorem takeTurns {ts : List Turn} (hr : KeepsRun run) (hs : s.Canonical) : NextCanonical (takeTurns run s ts) := by
  refine List.foldlRecOn (motive := NextCanonical) ts _ hs.next fun r ha t _ => ?_
  split
  · split
    · next ht => exact (turnTaken hr (ha _ rfl) _ ht).settled.next
    · next r hn => exact fun t ht => (hn t ht).elim
  · exact ha

theorem takeCycle (hr : KeepsRun run) (hs : s.Canonical) : NextCanonical (takeCycle run s) :=
  .ite hs.next (takeTurns hr (settled (periodTick (ticked hs))))

theorem takeStep (hr : KeepsRun run) (hs : s.Canonical) : NextCanonical (takeStep run s) := by
  unfold Machine.takeStep
  split
  · exact takeTurn hr hs
  · exact takeCycle hr hs

end Run

end State.Canonical

end Sys2Proof.Machine
end

section
/-! PROOFS. The memories of the package stay in canonical form (R187, R188; log entry 4). -/

namespace Sys2Proof.Machine

/-- Settles O6: memories change by bytes written, intervals zeroed and pages copied alone, each of which keeps addresses rising
and lists no zero byte; so every instruction and every turn keeps them canonical. -/
theorem memoryStaysCanonical : Obligations.MemoryStaysCanonical := fun s t hs ht =>
  t.memWf_iff_canonical.2 (State.Canonical.takeStep State.Canonical.keepsRun_exec (s.memWf_iff_canonical.1 hs) t ht)

end Sys2Proof.Machine
end
